-- ==== Sys2Proof/Word.lean ====
section
/-! DEFINITION. The word types of the FRK-768A and the sparse map its tables are held in. -/

namespace Sys2Proof

/-- A register or memory word of 64 bits (R3, R26). -/
abbrev Word := BitVec 64

/-- An instruction word of 32 bits (R10). -/
abbrev W32 := BitVec 32

/-- A byte. -/
abbrev Byte := BitVec 8

/-- A sparse table: keys strictly rising, an unlisted key holding the table's default. -/
abbrev NMap (α : Type) := List (Nat × α)

end Sys2Proof
end

