-- ==== Sys2Proof/Syntax.lean ====
section
/-! DEFINITION. The instructions of the FRK-768A as syntax: one constructor of `Instr` for each row of
the opcode table, the instruction words first, then the events of the units and the host's commands. -/

namespace Sys2Proof

/-- A fibre by its team, its group within the team and its lane (R101, R103). -/
structure FibId where
  team : Nat
  grp : Nat
  lane : Nat
  deriving DecidableEq, Repr, Inhabited

/-- An operand field: a register or one of the sixteen inline constants 200 to 215 (R26). -/
inductive Opnd where
  | x (n : Fin 128)
  | s (n : Fin 64)
  | t (n : Fin 8)
  | k (n : Fin 16)
  deriving DecidableEq, Repr, Inhabited

/-- A second source: an operand field, or IMM12 with the I bit (R30). -/
inductive Src where
  | opnd (o : Opnd)
  | imm (v : BitVec 12)
  deriving DecidableEq, Repr, Inhabited

/-- The guard of an instruction: a predicate and its sense (R22, R23). -/
structure Guard where
  neg : Bool
  p : Fin 8
  deriving DecidableEq, Repr, Inhabited

/-- Integer conditions, coded 0 to 5 in this order (R50). -/
inductive Cond where
  | eq | ne | lt | le | gt | ge
  deriving DecidableEq, Repr, Inhabited

/-- FP conditions, coded 0 to 7 in this order (R69). -/
inductive FCond where
  | eq | ne | lt | le | gt | ge | un | or
  deriving DecidableEq, Repr, Inhabited

/-- Predicate operations, coded 0 to 3 (R55). -/
inductive PsetOp where
  | and | or | xor | andn
  deriving DecidableEq, Repr, Inhabited

/-- Rounding attributes, coded 0, 1, 2, 3, 4 and 7 (R63). -/
inductive Rm where
  | rn | rz | ru | rd | rna | rdyn
  deriving DecidableEq, Repr, Inhabited

/-- The modifiers of a rounding FP instruction: RM, Z and P (R62, R63, R66). -/
structure FpMod where
  rm : Rm
  ftz : Bool
  single : Bool
  deriving DecidableEq, Repr, Inhabited

/-- The conversions of `fcvt`, coded 0 to 6 (R72). -/
inductive CvtOp where
  | f2f | f2i | f2n | f2iw | f2nw | i2f | n2f
  deriving DecidableEq, Repr, Inhabited

/-- The modes of `shfl`, coded 0 to 3 (R78). -/
inductive ShflMode where
  | idx | up | down | xor
  deriving DecidableEq, Repr, Inhabited

/-- What `vote` writes: a predicate for `.any` and `.all`, a register for `.bal` (R79). -/
inductive VoteDst where
  | any (p : Fin 8)
  | all (p : Fin 8)
  | bal (d : Opnd)
  deriving DecidableEq, Repr, Inhabited

/-- The operations of `redl` and `scanl`, coded 0 to 6 (R81). -/
inductive LaneOp where
  | add | min | max | and | or | xor | fadd
  deriving DecidableEq, Repr, Inhabited

/-- Access sizes, coded 0 to 4: 1, 2, 4, 8 and 16 bytes (R34). -/
inductive Sz where
  | b | h | w | d | q
  deriving DecidableEq, Repr, Inhabited

/-- Orders, coded 0 to 4 (R34). -/
inductive Order where
  | none | acq | rel | ar | sc
  deriving DecidableEq, Repr, Inhabited

/-- Scopes, coded 0 to 3 (R34). -/
inductive Scope where
  | team | clus | dev | sys
  deriving DecidableEq, Repr, Inhabited

/-- ORDER and SCOPE of an access. -/
structure Ord where
  order : Order
  scope : Scope
  deriving DecidableEq, Repr, Inhabited

/-- Element formats, coded 1 to 12 (R217, R224). -/
inductive EFmt where
  | fp64 | fp32 | bf16 | fp16 | e4m3 | e5m2 | e3m2 | e2m3 | e2m1 | int8 | int4 | cb2
  deriving DecidableEq, Repr, Inhabited

/-- Output formats of `ldx`, coded 0 to 3 (R229). -/
inductive OutFmt where
  | f32 | bf16 | f16 | f64
  deriving DecidableEq, Repr, Inhabited

/-- Operations of `atom` and `red`, coded 0 to 15 (R137). -/
inductive AtomOp where
  | swap | cas | add | min | max | minu | maxu | and | or | xor | incw | decw | addb | fadd | fmin | fmax
  deriving DecidableEq, Repr, Inhabited

/-- Combining operations of `srec`, coded 0 to 7 (R302). -/
inductive SrecOp where
  | add | min | max | or | xor | fadd | minu | maxu
  deriving DecidableEq, Repr, Inhabited

/-- A memory operand: base, index (the constant 0, code 200, for none) and signed offset (R34, R36). -/
structure MemRef where
  base : Opnd
  idx : Opnd
  off : BitVec 12
  deriving DecidableEq, Repr, Inhabited

/-- The engine queues, coded 0 to 6 (R156). -/
inductive EQueue where
  | se0 | se1 | cvx | ray | cut | rast | coll
  deriving DecidableEq, Repr, Inhabited

/-- The modifiers of `mma` and `mmab` (R245): SET, LB, R, FMT, FEC, FEW and AR. -/
structure MmaMod where
  set : Bool
  lb : Fin 3
  ra : Bool
  fmt : EFmt
  fec : Bool
  few : Bool
  ar : BitVec 8
  deriving DecidableEq, Repr, Inhabited

/-- The modifiers of a plain load (R94, R131): SIZE, ORDER, SCOPE, CLR, FE, REP and SX. -/
structure LdMod where
  sz : Sz
  ord : Ord
  clr : Bool
  fe : Bool
  rep : Bool
  sx : Bool
  deriving DecidableEq, Repr, Inhabited

/-- A structure that the checks of R364 name; its place is given by the numbers the row lists. -/
inductive CheckSite where
  | pipe (core pipe lane : Nat)
  | sfu (core : Nat)
  | mtx (core : Nat)
  | reg (core lane block : Nat)
  | control (core : Nat)
  | spad (core block : Nat)
  | acc (core block : Nat)
  | l1 (core way : Nat)
  | l2 (slice way : Nat)
  | hbm (stack pc bank row : Nat)
  deriving DecidableEq, Repr, Inhabited

/-- Where a failed check lands (R366): the destination a fibre's result was written to, a fibre's
control state, a word of storage, or a place that holds nothing of a team. -/
inductive CheckHit where
  | result (f : FibId) (d : Opnd)
  | control (fs : List FibId)
  | accPair (team pair : Nat)
  | spadWord (team off : Nat)
  | rbufWord (team base : Nat)
  | l1Word (pod addr : Nat)
  | homeWord (addr : Nat)
  | nothing
  deriving DecidableEq, Repr, Inhabited

/-- A command of the host as its 64 bytes give it, less TYPE (R413): word 0 [63:16], QUEUE and words 1 to 7. -/
structure HostCmd where
  hi : BitVec 48
  queue : Byte
  w1 : Word
  w2 : Word
  w3 : Word
  w4 : Word
  w5 : Word
  w6 : Word
  w7 : Word
  deriving DecidableEq, Repr, Inhabited

/-- A request of the management mailbox (R427), less OBJ: TAG and INDEX. -/
structure MgmtReq where
  tag : BitVec 24
  index : BitVec 24
  deriving DecidableEq, Repr, Inhabited

/-- What the world outside decides at a boot (R431): the outcome of each step that can fail. -/
structure BootEnv where
  fwOk : Bool
  /-- Steps 2 and 7. -/
  logOk : Bool
  fnOk : Bool
  badStacks : List Nat
  badSectors : List Nat
  pcieOk : Bool
  cxlUp : List Nat
  portsUp : List Nat
  deriving DecidableEq, Repr, Inhabited

/-- A request of another package (R351, R352): a read, a write, an atomic or a sibling operation. -/
inductive InReq where
  | read (addr len : Nat)
  /-- The enables of the bits of each byte, all of a byte's where the list ends (R179), and the poison of each 8-byte word
  of the bytes (R377). -/
  | write (addr : Nat) (bytes enables : List Byte) (poison : List Bool)
  /-- `bp` and `cp` are the operands' poison (R142). -/
  | atom (op : AtomOp) (wide : Bool) (addr : Nat) (b c : Word) (bp cp : Bool)
  | sld (addr sha : Nat)
  | sldx (addr sha slot : Nat)
  | sst (addr sha sop : Nat) (value token : Word) (vp : Bool)
  | srec (op : SrecOp) (force val : Bool) (addr sha : Nat) (token value : Word) (vp : Bool)
  deriving DecidableEq, Repr, Inhabited

/-- A request with the package that sent it and its sequence number (R352). -/
structure Inbound where
  src : Nat
  seq : Nat
  req : InReq
  deriving DecidableEq, Repr, Inhabited

/-- A replay on a port (R394): of a fresh flit, or of the one resent before, still damaged. -/
structure Replay where
  port : Nat
  again : Bool
  deriving DecidableEq, Repr, Inhabited

/-- Bytes that the host writes, with the poison of each 8-byte word of them (R380). -/
structure Written where
  bytes : List Byte
  poison : List Bool
  deriving DecidableEq, Repr, Inhabited

/-- One constructor for each row of the opcode table. Words of the classes alu, mem, mtx, sfu, sync
and sys come first, in the table's order; the events and commands follow. -/
inductive Instr where
  -- alu, integer, bit and byte-lane (R42 to R51)
  | iadd (g : Guard) (sat u w : Bool) (d a : Opnd) (b : Src)
  | isub (g : Guard) (sat u w : Bool) (d a : Opnd) (b : Src)
  | imul (g : Guard) (sat u w : Bool) (d a : Opnd) (b : Src)
  | imulh (g : Guard) (u w : Bool) (d a : Opnd) (b : Src)
  | imad (g : Guard) (sat u w : Bool) (d a : Opnd) (b : Src) (c : Opnd)
  | imin (g : Guard) (u w : Bool) (d a : Opnd) (b : Src)
  | imax (g : Guard) (u w : Bool) (d a : Opnd) (b : Src)
  | iabs (g : Guard) (sat w : Bool) (d a : Opnd)
  | and (g : Guard) (u w : Bool) (d a : Opnd) (b : Src)
  | or (g : Guard) (u w : Bool) (d a : Opnd) (b : Src)
  | xor (g : Guard) (u w : Bool) (d a : Opnd) (b : Src)
  | andn (g : Guard) (u w : Bool) (d a : Opnd) (b : Src)
  | shl (g : Guard) (u w : Bool) (d a : Opnd) (b : Src)
  | shr (g : Guard) (u w : Bool) (d a : Opnd) (b : Src)
  | sar (g : Guard) (u w : Bool) (d a : Opnd) (b : Src)
  | rot (g : Guard) (u w : Bool) (d a : Opnd) (b : Src)
  | funl (g : Guard) (u w : Bool) (d a : Opnd) (b : Src) (c : Opnd)
  | bfx (g : Guard) (u w : Bool) (d a : Opnd) (pos len : BitVec 6)
  | bfi (g : Guard) (u w : Bool) (d a b : Opnd) (pos len : BitVec 6)
  | popc (g : Guard) (u w : Bool) (d a : Opnd)
  | clz (g : Guard) (u w : Bool) (d a : Opnd)
  | ctz (g : Guard) (u w : Bool) (d a : Opnd)
  | brev (g : Guard) (u w : Bool) (d a : Opnd)
  | permb (g : Guard) (u w : Bool) (d a : Opnd) (b : Src)
  | nibl (g : Guard) (hi u w : Bool) (d a b : Opnd)
  | icmp (g : Guard) (c : Cond) (u w : Bool) (d : Fin 8) (a : Opnd) (b : Src)
  | badd (g : Guard) (sat l16 u w : Bool) (d a : Opnd) (b : Src)
  | bsub (g : Guard) (sat l16 u w : Bool) (d a : Opnd) (b : Src)
  | bcmp (g : Guard) (c : Cond) (l16 u w : Bool) (d a : Opnd) (b : Src)
  | bmaxu (g : Guard) (l16 u w : Bool) (d a : Opnd) (b : Src)
  | bmsk (g : Guard) (l16 u w : Bool) (d a : Opnd)
  -- alu, moves, predicates, special registers, addresses (R52 to R61)
  | mov (g : Guard) (u w : Bool) (d a : Opnd)
  | movi (g : Guard) (u w : Bool) (d : Opnd) (v : BitVec 12)
  | ldi (d : Opnd) (v : W32)
  | ldih (d : Opnd) (v : W32)
  | sel (g : Guard) (u w : Bool) (d a : Opnd) (b : Src) (c : Fin 8)
  | pset (g : Guard) (op : PsetOp) (d a b : Fin 8)
  | pmovGet (g : Guard) (d : Opnd)
  | pmovPut (g : Guard) (a : Opnd) (b : Src)
  | srd (g : Guard) (d : Opnd) (n : BitVec 12)
  | swr (g : Guard) (a : Opnd) (n : BitVec 12)
  | tset (g : Guard) (b : Src)
  | mka (g : Guard) (d a : Opnd) (b : Src)
  | adda (g : Guard) (d a : Opnd) (b : Src)
  | sext (g : Guard) (d a : Opnd) (b : Src)
  | zext (g : Guard) (d a : Opnd) (b : Src)
  -- alu, floating point (R62 to R76)
  | fadd (g : Guard) (m : FpMod) (d a b : Opnd)
  | fsub (g : Guard) (m : FpMod) (d a b : Opnd)
  | fmul (g : Guard) (m : FpMod) (d a b : Opnd)
  | ffma (g : Guard) (m : FpMod) (d a b c : Opnd)
  | fmin (g : Guard) (num ftz single : Bool) (d a b : Opnd)
  | fmax (g : Guard) (num ftz single : Bool) (d a b : Opnd)
  | fcmp (g : Guard) (c : FCond) (ftz single : Bool) (d : Fin 8) (a b : Opnd)
  | fclass (g : Guard) (ftz single : Bool) (d a : Opnd)
  | frint (g : Guard) (exact : Bool) (m : FpMod) (d a : Opnd)
  | fcvt (g : Guard) (f : CvtOp) (m : FpMod) (d a : Opnd)
  | fscale (g : Guard) (m : FpMod) (d a b : Opnd)
  | fexpo (g : Guard) (mant ftz single : Bool) (d a : Opnd)
  | f2sum (g : Guard) (single : Bool) (d a b : Opnd)
  | f2prod (g : Guard) (single : Bool) (d a b : Opnd)
  | fpack (g : Guard) (bf : Bool) (m : FpMod) (d a b : Opnd)
  | funpk (g : Guard) (bf hi ftz single : Bool) (d a : Opnd)
  -- alu, lane operations (R77 to R82)
  | shfl (g : Guard) (m : ShflMode) (d a : Opnd) (b : Src)
  | vote (g : Guard) (d : VoteDst) (a : Fin 8)
  | matchL (g : Guard) (w : Bool) (d a : Opnd)
  | redl (g : Guard) (op : LaneOp) (u w : Bool) (d a : Opnd)
  | scanl (g : Guard) (op : LaneOp) (excl u w : Bool) (d a : Opnd)
  | first (g : Guard) (d a : Opnd)
  -- alu, control (R87 to R92)
  | bra (g : Guard) (off : BitVec 16)
  | bany (g : Guard) (p : Fin 8) (off : BitVec 16)
  | ball (g : Guard) (p : Fin 8) (off : BitVec 16)
  | bnone (g : Guard) (p : Fin 8) (off : BitVec 16)
  | jmpr (g : Guard) (a : Opnd)
  | call (g : Guard) (off : BitVec 16)
  | callr (g : Guard) (a : Opnd)
  | ret (g : Guard)
  | exit (g : Guard)
  | fork (g : Guard) (d a : Opnd) (off : BitVec 12)
  | nop (g : Guard)
  | yld (g : Guard)
  -- mem (R93 to R97, R131 to R148, R229 to R231, R297 to R303)
  | ld (g : Guard) (m : LdMod) (d : Opnd) (r : MemRef)
  | st (g : Guard) (sz : Sz) (o : Ord) (fe : Bool) (d : Opnd) (r : MemRef)
  | ldx (g : Guard) (k : Sz) (o : Ord) (f : EFmt) (out : OutFmt) (d : Opnd) (r : MemRef)
  | lde (g : Guard) (k : Sz) (o : Ord) (f : EFmt) (sx : Bool) (d : Opnd) (r : MemRef)
  | ste (g : Guard) (k : Sz) (o : Ord) (f : EFmt) (d : Opnd) (r : MemRef)
  | pld (g : Guard) (sz : Sz) (rep : Bool) (r : MemRef)
  | atom (g : Guard) (wide : Bool) (o : Ord) (op : AtomOp) (ps : Fin 8) (d a b c : Opnd)
  | red (g : Guard) (wide : Bool) (o : Ord) (op : AtomOp) (a b : Opnd)
  | fence (g : Guard) (o : Ord)
  | cwb (g : Guard) (sz : Sz) (s : Scope) (r : MemRef)
  | cinv (g : Guard) (sz : Sz) (s : Scope) (r : MemRef)
  | feset (g : Guard) (a n : Opnd) (off : BitVec 12)
  | feclr (g : Guard) (a n : Opnd) (off : BitVec 12)
  | feqry (g : Guard) (d a : Opnd) (off : BitVec 12)
  | feAccessComplete (op : Nat)
  | sld (g : Guard) (o : Ord) (d : Opnd) (r : MemRef)
  | sldx (g : Guard) (o : Ord) (d : Opnd) (r : MemRef) (c : Opnd)
  | sst (g : Guard) (o : Ord) (quiet : Bool) (d a b c : Opnd)
  | srec (g : Guard) (o : Ord) (op : SrecOp) (force : Bool) (ps : Fin 8) (d a b : Opnd) (c : Option Opnd)
  -- mtx (R245 to R257)
  | mma (g : Guard) (k : Fin 8) (m : MmaMod) (a : Fin 128) (b : Opnd) (c : Option (Fin 128))
  | mmab (g : Guard) (k : Fin 8) (m : MmaMod) (gb : Fin 3) (a : Fin 128) (b : Opnd) (c : Option (Fin 128))
  | mzero (g : Guard) (a : Opnd) (n : BitVec 12)
  | mrd (g : Guard) (w : Bool) (d a : Opnd) (off : BitVec 12)
  | mwr (g : Guard) (w : Bool) (a b : Opnd) (off : BitVec 12)
  | msts (g : Guard) (a b : Opnd)
  | mlds (g : Guard) (a b : Opnd)
  -- sfu (R83 to R86)
  | rcp (g : Guard) (ftz single : Bool) (d a : Opnd)
  | rsq (g : Guard) (ftz single : Bool) (d a : Opnd)
  | sqrt (g : Guard) (m : FpMod) (d a : Opnd)
  | div (g : Guard) (m : FpMod) (d a b : Opnd)
  | exp2 (g : Guard) (ftz single : Bool) (d a : Opnd)
  | log2 (g : Guard) (ftz single : Bool) (d a : Opnd)
  | sin (g : Guard) (ftz single : Bool) (d a : Opnd)
  | cos (g : Guard) (ftz single : Bool) (d a : Opnd)
  | idiv (g : Guard) (u w : Bool) (d a b : Opnd)
  | irem (g : Guard) (u w : Bool) (d a b : Opnd)
  -- sync (R150 to R159, R259 to R266)
  | barv (g : Guard) (b : Fin 16) (n : Option Src)
  | barw (g : Guard) (b : Fin 16) (n : Option Src)
  | cbar (g : Guard) (arv : Bool) (n : Fin 4)
  | gbar (g : Guard) (arv : Bool) (n : Fin 2)
  | tsync (g : Guard)
  | kset (g : Guard) (k : Fin 8) (n : Src)
  | kwait (g : Guard) (k : Fin 8)
  | kleave (g : Guard) (m : BitVec 8)
  | ksign (g : Guard) (k : Fin 8)
  | push (g : Guard) (q : EQueue) (n : Fin 128) (pf : Fin 8) (slot : Option (Fin 16))
  | gset (g : Guard) (n : Fin 16) (p : Option (Fin 8))
  | spawn (g : Guard) (p : Fin 8) (a : Opnd) (b : Fin 128) (w : Fin 33)
  | csub (g : Guard) (p : Fin 8) (a : Opnd)
  | trig (g : Guard)
  | fres (g : Guard) (a b : Opnd)
  | freg (g : Guard) (a b : Opnd)
  | fpoll (g : Guard) (d a : Opnd)
  | ffail (g : Guard) (a b : Opnd)
  | joinDecrement (n : Nat)
  -- sys (R304 to R317)
  | regb (n : Fin 17) (tag : BitVec 12)
  | regc
  | regionCommit (team : Nat)
  | regq (d : Opnd)
  | trap (g : Guard) (c : BitVec 12)
  | eret
  | csrr (g : Guard) (d : Opnd) (n : BitVec 12)
  | csrw (g : Guard) (a : Opnd) (n : BitVec 12)
  | pchk (g : Guard) (p : Fin 8) (a : Opnd)
  | brk (g : Guard) (c : BitVec 12)
  | tlbiVa (g : Guard) (a b : Opnd)
  | tlbiFrame (g : Guard) (a b : Opnd)
  | tlbiAll (g : Guard)
  | btinv (g : Guard) (a b : Opnd)
  | btinvAll (g : Guard)
  | qctlRd (g : Guard) (d a : Opnd) (w : BitVec 2)
  | qctlWr (g : Guard) (p : Fin 8) (a b : Opnd) (w : BitVec 2)
  -- events of the cores
  | clauseStart (fs : List FibId) (pipe : Nat)
  | issueStarvation (fs : List FibId)
  | trackedComplete (op : Nat)
  | pathUnpark (core : Nat)
  | parkSteal (core : Nat)
  | trapDelivery (f : FibId)
  -- events of the engines
  | engineAccept (core : Nat) (q : EQueue)
  | engineComplete (cmd : Nat)
  | seFill (cmd : Nat)
  | seDrain (cmd : Nat)
  | seFillSlot (cmd : Nat)
  | seDrainSlot (cmd : Nat)
  | cvxCopy (cmd : Nat)
  | rayTrace (cmd : Nat)
  | rayResume (cmd : Nat)
  | rayYield (cmd : Nat) (finished : List Nat)
  | cutSelect (cmd : Nat)
  | cutTree (cmd : Nat)
  | rastVis (cmd : Nat)
  | collAllred (cmd : Nat)
  | collBcast (cmd : Nat)
  | collBar (cmd : Nat)
  | collGath (cmd : Nat)
  | collComplete (cmd : Nat) (ranks : List Nat) (parts : List (Nat × List Word))
  | collMemberTimeout (cmd : Nat) (rank : Nat)
  | collCoordinatorLost (cmd : Nat)
  | matrixOpStart (core : Nat)
  | matrixOpWrite (core : Nat)
  -- events of the memory system
  | redCombineApply (pod : Nat) (n : Nat)
  | l1CleanExpire (pod : Nat) (base : Nat)
  | l1DirtyWriteback (pod : Nat) (base : Nat)
  | translationWalk (n : Nat)
  | faultRecordWrite (part : Nat)
  | deadFrameFill (f : Nat)
  | caParityReplay (stack q : Nat) (ok : Bool)
  | refreshManagement (stack q bank row : Nat)
  | activationSaturate (stack q bank row : Nat) (parity : Bool)
  | cxlLinkDown (e : Nat)
  | cxlTimeout (e : Nat)
  | remoteResponse (op : Nat) (bytes : List Byte) (poison : List Bool)
  | remoteTimeout (op : Nat)
  | packageLost (pkg : Nat)
  | flitReplay (r : Replay)
  | portDown (port : Nat)
  -- recovery
  | checkFail (site : CheckSite) (hit : CheckHit)
  | correctedError (site : CheckSite)
  | regionReplay (cluster : Nat) (origin : Nat)
  | regionSplit (fs : List FibId) (pipe : Nat)
  | preemptSave (cluster : Nat)
  | clusterRestore (cluster : Nat) (origin : Nat)
  | watchdogPreempt (team : Nat)
  | watchdogKill (team : Nat)
  | watchdogFence (team : Nat)
  | fenceSaveTimeout (team : Nat)
  -- the task front end
  | cardIntake (n : Nat)
  | intakeHead (part : Nat)
  | chunkDeal (clutch : Nat) (origins : List Nat)
  | preemptRequest (clutch : Nat) (victim : Nat)
  | clutchRetire (clutch : Nat)
  | nodeClose (clutch : Nat)
  -- media
  | headFrameScan (head : Nat)
  | encoderRingWrite (enc : Nat)
  -- commands of the host (R413)
  | submit (fn : Nat) (c : HostCmd)
  | tables (fn : Nat) (c : HostCmd)
  | frame (fn : Nat) (c : HostCmd)
  | dead (fn : Nat) (c : HostCmd)
  | profile (fn : Nat) (c : HostCmd)
  | faultResume (fn : Nat) (c : HostCmd)
  | faultFail (fn : Nat) (c : HostCmd)
  | shadow (fn : Nat) (c : HostCmd)
  | head (fn : Nat) (c : HostCmd)
  | teamRelease (fn : Nat) (c : HostCmd)
  | teamKill (fn : Nat) (c : HostCmd)
  | core (fn : Nat) (c : HostCmd)
  | cxlDisable (fn : Nat) (c : HostCmd)
  | cxlEnable (fn : Nat) (c : HostCmd)
  | link (fn : Nat) (c : HostCmd)
  | mode (fn : Nat) (c : HostCmd)
  | power (fn : Nat) (c : HostCmd)
  | queue (fn : Nat) (c : HostCmd)
  | encoder (fn : Nat) (c : HostCmd)
  | firmwareBoot (fn : Nat) (c : HostCmd) (ok : Bool)
  | firmwareWrite (fn : Nat) (c : HostCmd) (ok wrote : Bool)
  | firmwareWriteBoot (fn : Nat) (c : HostCmd) (ok wrote : Bool)
  -- the register window, the mailbox and the messages (R412, R418, R427)
  | jheadWrite (fn : Nat) (v : Word)
  | fheadWrite (fn : Nat) (v : Word)
  | bar0OtherAccess (fn : Nat) (off : Nat)
  | mgmtLaneRemap (fn : Nat) (r : MgmtReq)
  | mgmtEncoderCounters (fn : Nat) (r : MgmtReq)
  | mgmtEventLog (fn : Nat) (r : MgmtReq)
  | mgmtPackageId (fn : Nat) (r : MgmtReq)
  | mgmtStorePackageId (fn : Nat) (r : MgmtReq)
  | mgmtAnswer (fn : Nat)
  | msixMessage (fn vec : Nat)
  -- power and the world outside
  | boot (e : BootEnv)
  | d3cold
  | powerCapWindow (fn : Nat) (above : Bool)
  | hostMemoryWrite (addr : Nat) (w : Written)
  | ualinkInboundRequest (r : Inbound)
  | msixVectorUnmask (fn vec : Nat)
  | refreshManagementComplete (stack q bank : Nat)
  deriving DecidableEq, Repr

end Sys2Proof
end

