-- ==== Sys2Proof/Machine/State.lean ====
section
/-! DEFINITION. The state of an FRK-768A package as plain data, its faults and refusals, and its reset.

Every field's docstring says its width, the rule that names it and its reset value. "model" marks a
field of the model's own; "log <n>" names the row of the assumption log that declares a value the spec
does not give. A table whose keys are core, pod, partition or register numbers is an `NMap`: an unlisted
key holds the default of its element type. -/

namespace Sys2Proof.Machine

/-! ## Registers and fibres -/

/-- A register: its 64 bits and its poison bit (R377). -/
structure RegCell where
  /-- 64 bits; R26, R103; reset 0 (R104). -/
  v : Word
  /-- 1 bit; R377; reset clear (a launched register is clean). -/
  p : Bool
  deriving DecidableEq, Repr, Inhabited

/-- Why a live fibre cannot start its next clause, beside its flags (R111, R120). -/
inductive Hold where
  /-- Not held. -/
  | free
  /-- In `barw` on b<n> (R151). -/
  | bar (n : Nat)
  /-- In `cbar` (R152). -/
  | cbar (n : Nat)
  /-- In `gbar` (R152). -/
  | gbar (n : Nat)
  /-- In `kwait` on k<n> (R123). -/
  | kwait (n : Nat)
  /-- Until every FE access of its clause has taken effect (R145). -/
  | fe
  /-- At a `regb` point, with its count and tag (R305). -/
  | regb (n tag : Nat)
  /-- At a `regc` point (R305). -/
  | regc
  /-- At its clause header until a walk ends (R210, R221); `first` is the address `taddr` gets on fail, for
  the access of word `word`. -/
  | walk (n : Nat) (first : Word) (word : Nat)
  /-- At its clause header until the host answers a fault (R223). -/
  | fault (n : Nat) (first : Word) (word : Nat)
  /-- Until the front end answers its `csub` (R259, R281). -/
  | answer (sub : Nat)
  /-- It has executed `exit` and waits for its tracked instructions (R90). -/
  | exit
  deriving DecidableEq, Repr, Inhabited

/-- A trap raised for a fibre and not yet delivered (R384). -/
structure TrapRec where
  /-- Cause (R318). -/
  code : Nat
  /-- Position of the base word in its clause, 0 for the header (R311). -/
  word : Nat
  /-- `c` of `trap` (R311). -/
  detail : Nat
  /-- What `taddr` receives (R318). -/
  addr : Word
  /-- The trapping clause's header. -/
  hdr : Word
  /-- The header of the clause that follows it in memory. -/
  next : Word
  /-- Some word of the clause took effect for the fibre (R312). -/
  took : Bool
  /-- `epc` is given outright (R369, R374), whatever the clause. -/
  epc : Option Word
  deriving DecidableEq, Repr, Inhabited

/-- A fibre (R103). -/
structure Fibre where
  /-- Its team, group and lane; R103; set at launch and at fork. -/
  fid : FibId
  /-- 64 bits; R103; reset the card's ENTRY at launch (R104). -/
  pc : Word
  /-- x0-x127, 64 bits and poison each; R103; reset 0 (R104). -/
  x : NMap RegCell
  /-- t0-t7, 64 bits and poison each; R12; 0 at every clause start. -/
  t : NMap RegCell
  /-- p0-p7, 8 bits, bit 7 always 1; R103; reset p0-p6 false (R104). -/
  preds : BitVec 8
  /-- 64 bits; R89, R103; reset 0 (R104). -/
  lr : Word
  /-- 5 bits NV DZ OF UF NX; R65, R310; reset 0 (R104). -/
  fflags : BitVec 5
  /-- 3 bits; R63, R310; reset 0 at launch, the creator's at fork (R91). -/
  frm : BitVec 3
  /-- `%tile`, 2 to 32; R59, R77; reset min(W, 32) (R104). -/
  tile : Nat
  /-- f0-f11, counts 0-63; R16; reset clear (R104). -/
  flags : NMap Nat
  /-- 8 bits; R122; reset 0. -/
  kleft : BitVec 8
  /-- 8 bits; R122; reset 0. -/
  ksig : BitVec 8
  /-- 64 bits; R310, R311; reset 0. -/
  tcause : Word
  /-- 64 bits; R310; reset 0. -/
  taddr : Word
  /-- 64 bits; R310, R312; reset 0. -/
  epc : Word
  /-- hstat[0], 1 bit; R310; reset 0. -/
  h : Bool
  /-- What holds it (R111, R120, R145, R151, R223); reset free. -/
  hold : Hold
  /-- Further waits that the same clause began (R151, R152, R123, R259); reset none. -/
  waits : List Hold
  /-- It is in a started clause; model (R12). -/
  busy : Bool
  /-- The trap to deliver; R384; reset none. -/
  trap : Option TrapRec
  /-- Parked for want of a pool entry; R118; reset false. -/
  parked : Bool
  /-- Cycle at which it was parked, or received its entry; R119; reset 0. -/
  entryAt : Nat
  /-- The execution it last began or was formed into, 0 for none; R29; model. -/
  exec : Nat
  /-- It is of that execution and has not yet ended its clause; R29, R118; model; reset false. -/
  member : Bool
  /-- The clause of that execution holds a tile-collective instruction; R111; model; reset false. -/
  tiled : Bool
  /-- Waits that its running handler interrupted; R374; model; reset none. -/
  under : List Hold
  /-- Its running handler is that of a last replay's trap, whose `eret` resets REPLAY; R374; model; reset false. -/
  redo : Bool
  /-- A trap that waits for that handler's end; R374; model; reset none. -/
  later : Option TrapRec
  /-- Registers whose results a check may still find wrong, with the cycle of the write; R365; model; reset none. -/
  unproven : List (Opnd × Nat)
  /-- Its last clause carried YIELD or it executed `yld`; R92, R116; reset false. -/
  yielded : Bool
  /-- It ranks ahead after 4,096 cycles ready; R116; reset false. -/
  starved : Bool
  /-- Cycle of its last clause start; R116; reset 0. -/
  lastStart : Nat
  deriving DecidableEq, Repr, Inhabited

/-- What an execution made of an s register at a word: the lane whose value it is, that value, and what the register
held before the execution's first write of it (R29, R109). -/
structure SMark where
  reg : Nat
  exec : Nat
  hdr : Word
  word : Nat
  lane : Nat
  v : RegCell
  old : RegCell
  deriving DecidableEq, Repr, Inhabited

/-- A group of a team (R101). -/
structure Group where
  /-- Team and group id; R101, R114; set at launch. -/
  team : Nat
  grp : Nat
  /-- Lanes W, 8, 16, 32 or 64; R101; from the card. -/
  width : Nat
  /-- Register-lane offset; R107; chosen at admission. -/
  roff : Nat
  /-- s0-s63, 64 bits and poison each; R101; reset 0 (R104). -/
  s : NMap RegCell
  /-- model (R29). -/
  marks : List SMark
  /-- s registers whose results a check may still find wrong, with the cycle of the write; R365; model; reset none. -/
  unproven : List (Nat × Nat)
  deriving DecidableEq, Repr, Inhabited

/-! ## Memory -/

/-- Bytes in their canonical form, and the 8-byte words that carry poison (R377). -/
structure Memory where
  /-- Addresses strictly rising, no byte 0 listed: an unlisted byte reads 0. -/
  cells : List Host.Cell
  /-- Addresses of poisoned 8-byte words, divided by 8, strictly rising. -/
  poison : List Nat
  deriving DecidableEq, Repr, Inhabited

/-- The tag of a sealed line (R355): owning package, buffer index, VERSION. -/
structure SealTag where
  pkg : Nat
  idx : Nat
  ver : Nat
  deriving DecidableEq, Repr, Inhabited

/-- A 64-byte sector held by a pod L1, a region buffer, an L2 slice or a guest (R179, R236, R348). -/
structure Sector where
  /-- DPA of its first byte. -/
  base : Nat
  /-- Its bytes. -/
  data : BitVec 512
  /-- The bits not written here hold the contents fetched from below. -/
  full : Bool
  /-- Bits written here and not yet written back (R179). -/
  en : BitVec 512
  /-- Poison fetched from below, per 8-byte word. -/
  pois : BitVec 8
  /-- Poison written here, per 8-byte word. -/
  wpois : BitVec 8
  /-- Words since written whole and clean (R380). -/
  wclean : BitVec 8
  /-- Whose writes it holds (R132, R196, R197). -/
  writers : List FibId
  /-- The partition of its last writer (R242). -/
  part : Nat
  /-- Cycle of the fill (R178). -/
  filled : Nat
  /-- Sealed tag (R355). -/
  tag : Option SealTag
  /-- Sharer vector, L2 only (R348). -/
  sharers : BitVec 4
  deriving DecidableEq, Repr, Inhabited

/-- What the page of an access gives it (R217, R220); `off` is the place within the page. -/
structure PageAttr where
  off : Nat
  fmt : Nat
  blk : Nat
  sc : Bool
  sib : Bool
  sop : Nat
  uncached : Bool
  aux : Word
  tag : Option SealTag
  /-- The leaf names DPA space 3, whichever package owns the place (R352). -/
  far : Bool
  deriving DecidableEq, Repr, Inhabited

/-- A collective whose set L of contributing ranks its coordinator has fixed (R396): the members' entries, L, the
ranks of this package that have not taken it yet, and the messages of L. -/
structure CollFix where
  version : Nat
  seq : Nat
  entries : List Nat
  ranks : List Nat
  left : List Nat
  parts : List (Nat × List Word)
  deriving DecidableEq, Repr

/-- A place an access reaches: team scratchpad or accumulator storage of a team, or a DPA. -/
inductive Loc where
  | spad (team off : Nat)
  | mem (dpa : Nat) (attr : PageAttr)
  | nowhere
  deriving DecidableEq, Repr, Inhabited

/-- What an outstanding operation does when it is performed (R17). -/
inductive OpAct where
  /-- A plain load of `n` bytes into `d`, sign-extended when `sx` (R95); `fe`, `clr` for FE (R145); `rep`
  leaves a replica (R135). -/
  | ld (d : Option Opnd) (n : Nat) (sx fe clr rep : Bool)
  /-- A plain store of `n` bytes (R95); `fe` for FE (R145). -/
  | st (n : Nat) (lo hi : RegCell) (fe : Bool)
  /-- `ldx` of `k` elements from element `e` of the place's 64 KiB; its block's scale byte (R231). -/
  | ldx (d : Option Opnd) (k e : Nat) (f : EFmt) (out : OutFmt) (scale : Option Loc)
  /-- `lde` (R231). -/
  | lde (d : Option Opnd) (k e : Nat) (f : EFmt) (sx : Bool)
  /-- `ste` (R231). -/
  | ste (k e : Nat) (f : EFmt) (lo hi : RegCell)
  /-- `atom` (R137). -/
  | atom (d : Option Opnd) (ps : Fin 8) (op : AtomOp) (wide : Bool) (b c : RegCell)
  /-- `red` (R138). -/
  | red (op : AtomOp) (wide : Bool) (b : RegCell)
  /-- `fence` (R143). -/
  | fence
  /-- `cwb` or, when `inv`, `cinv` of the listed lines, of the `n` that it names (R144). -/
  | cwb (inv : Bool) (lines : List Nat) (n : Nat)
  /-- `feset` or `feclr` of `n` granules from the place (R147). -/
  | fe (set : Bool) (n : Nat)
  /-- `feqry` (R148). -/
  | feqry (d : Option Opnd)
  /-- `sld`, or `sldx` with its slot (R300). -/
  | sld (d : Option Opnd) (slot : Option Nat)
  /-- `sst` (R301). -/
  | sst (d : Option Opnd) (quiet : Bool) (b tok : RegCell)
  /-- `srec` (R302). -/
  | srec (d : Option Opnd) (ps : Fin 8) (op : SrecOp) (force : Bool) (tok : RegCell) (c : Option RegCell)
  /-- `mrd` of a cell index (R257). -/
  | mrd (d : Option Opnd) (w : Bool) (ci : Nat)
  /-- `mwr` (R257). -/
  | mwr (w : Bool) (ci : Nat) (b : RegCell)
  /-- `mzero` (R257). -/
  | mzero (row n : Nat)
  /-- `msts` (R257). -/
  | msts (row : Nat)
  /-- `mlds` (R257). -/
  | mlds (row : Nat)
  /-- A signed matrix phase, completed by the engine (R249): the bytes of B it has still to read from its
  place, and the cells it accesses. -/
  | mma (span lo hi : Nat)
  /-- A pushed command, completed by its acceptance (R157). -/
  | push
  /-- A line of another package that `pld` asks for, with the die and clutch of a replica (R97, R135, R355): untracked,
  and of no fibre. -/
  | fill (rep : Option (Nat × Nat))
  /-- An engine's read of a sector of another package (R351): of no fibre. -/
  | ask
  /-- A write of an engine or of the hub to another package, sent (R351): of no fibre. -/
  | give
  /-- Performed; its s registers receive the value of a lower lane, which is outstanding (R17, R29). -/
  | follow (ds : List Opnd)
  deriving DecidableEq, Repr, Inhabited

/-- An outstanding operation of a fibre, oldest first in `State.pend` (R17, R183). -/
structure MemOp where
  /-- model: its number, rising in issue order. -/
  id : Nat
  fib : FibId
  part : Nat
  core : Nat
  /-- The clause it was issued by, its word, and the execution it belongs to (R16, R17, R29). -/
  run : Nat
  word : Nat
  exec : Nat
  /-- Header and next header of that clause, for a trap the home raises (R301). -/
  hdr : Word
  next : Word
  /-- The flag it counts on, 0-11, or 15 for none (R16). -/
  flag : Nat
  isLoad : Bool
  ord : Ord
  loc : Loc
  /-- The address as the fibre named it (for `taddr`). -/
  addr : Word
  act : OpAct
  /-- A `red` moved to the combining buffer (R141), or a request sent to another package (R351). -/
  sent : Bool
  /-- Port and sequence number of that request; R352, R393. -/
  route : Option (Nat × Nat)
  /-- Some other word of its clause took effect for the fibre (R312). -/
  took : Bool
  /-- Parts already performed on their own, with what they read: the 8-byte halves of a 16-byte access (R96), the
  elements and the scale byte of an element access (R231). -/
  got : List (Nat × Nat × Bool)
  /-- s registers' values of a higher lane, which count when no lower lane gives one (R17, R29). -/
  kept : List (Opnd × RegCell)
  /-- Sectors fetched while it was outstanding, for its own miss on them (R204). -/
  served : List Sector
  deriving DecidableEq, Repr, Inhabited

/-! ## Clauses in flight -/

/-- An access of a mem clause, formed, checked and translated before its first access takes effect (R210). -/
structure Access where
  fib : FibId
  /-- The word of the clause, from 1. -/
  word : Nat
  addr : Word
  loc : Loc
  /-- The scale byte's place (R226). -/
  scale : Option Loc
  /-- The element within the place's 64 KiB (R225), the granule count (R147), or the count of lines (R144). -/
  e : Nat
  /-- The 256-byte lines of `cwb`, `cinv` and `pld`. -/
  lines : List Loc
  deriving DecidableEq, Repr, Inhabited

/-- A started clause of a batch (R12, R108). -/
structure ClauseRun where
  id : Nat
  team : Nat
  core : Nat
  /-- 0-3 vector pipes, 4 mem, 5 mtx, 6 sfu, 7 sync, 8 sys (R115). -/
  unit : Nat
  hdr : Word
  cls : Nat
  /-- The words that follow the header, as decoded at its start (R11). -/
  words : List W32
  /-- Words already consumed. -/
  pos : Nat
  seta : Nat
  setb : Nat
  yield : Bool
  fibs : List FibId
  /-- Fibres for which some word took effect (R312). -/
  took : List FibId
  /-- Fibres that execute no further word (R210, R313). -/
  stopped : List FibId
  /-- Targets of taken branches (R13). -/
  branch : List (FibId × Word)
  /-- Fibres that executed `exit` (R90). -/
  exits : List FibId
  /-- The accesses of a mem clause (R210). -/
  plan : List Access
  /-- It runs between two instances of its team's region (R369). -/
  split : Bool
  deriving DecidableEq, Repr, Inhabited

/-! ## Teams, clusters and clutches -/

/-- A barrier (R151, R152). -/
structure Bar where
  isOpen : Bool
  expect : Nat
  arr : Nat
  deriving DecidableEq, Repr, Inhabited

/-- What a signer of a matrix phase captured (R249). -/
structure MtxCap where
  fib : FibId
  k : Nat
  batched : Bool
  gb : Nat
  mods : MmaMod
  frag : List RegCell
  scale : Option RegCell
  baddr : Nat
  op : Nat
  /-- Header and next header of its clause, for trap 0x15 (R249). -/
  hdr : Word
  next : Word
  word : Nat
  deriving DecidableEq, Repr, Inhabited

/-- A convergence register (R122) with the captures of its pending phase (R249). -/
structure KReg where
  n : Nat
  left : Nat
  arr : Nat
  caps : List MtxCap
  deriving DecidableEq, Repr, Inhabited

/-- The A latch of a team (R254): the format, and the rows with their scales. -/
structure Latch where
  fmt : EFmt
  /-- The captures the latched A was taken from. -/
  caps : List MtxCap
  deriving DecidableEq, Repr, Inhabited

/-- A guard slot (R159). -/
inductive Slot where
  | pending | go | drop
  deriving DecidableEq, Repr, Inhabited

/-- Where a team stands (R294, R305, R313, R387): resident, saved, held by `brk`, killed and draining, ended. -/
inductive Phase where
  | resident | saved | held | dying | ended
  deriving DecidableEq, Repr, Inhabited

/-- A team point or commit in progress (R305, R307, R369, R370). -/
inductive Point where
  | none
  /-- All live fibres stand at `regb`: commit, then checkpoint and open. -/
  | regb
  /-- All live fibres stand at `regc`: commit and close. -/
  | regc
  /-- The last live fibre has exited: commit, then end. -/
  | ending
  /-- A splitting clause has ended: a new checkpoint, then a new instance (R369). -/
  | split
  deriving DecidableEq, Repr, Inhabited

/-- A pushed command waiting in a core's queue (R157, R158). -/
structure QCmd where
  q : EQueue
  part : Nat
  team : Nat
  clutch : Nat
  fib : FibId
  core : Nat
  slot : Option Nat
  words : List Word
  /-- Commands of the team to this queue before it; R161. -/
  seq : Nat
  /-- The store-tracked operation it completes; R17. -/
  op : Nat
  /-- Cycle of its push; R397. -/
  at_ : Nat
  /-- The translation fault that its acceptance waits on, and the address that the host's answer denied it; R223. -/
  fault : Option Nat
  denied : Option Word
  /-- A completion has given its member table a new VERSION since its push; R398. -/
  stale : Bool
  deriving DecidableEq, Repr, Inhabited

/-- A checkpoint (R305, R368): what a replay restores. -/
structure Ckpt where
  fibres : List Fibre
  groups : List Group
  kregs : NMap KReg
  slots : NMap Slot
  bars : NMap Bar
  prio : Nat
  ustate : Word
  tvec : Word
  /-- Accesses that wait at it: full/empty accesses and signed phases. -/
  ops : List MemOp
  /-- Which half of its slot holds it: 0 or 1 (R306). -/
  half : Nat
  deriving DecidableEq, Repr, Inhabited

/-- A resident or saved team (R101). -/
structure Team where
  /-- model: its number, never reused. -/
  id : Nat
  /-- model: the cluster it belongs to. -/
  cluster : Nat
  /-- Acceptance handle of its clutch (model). -/
  clutch : Nat
  part : Nat
  /-- `%rank`; R101, R114. -/
  rank : Nat
  /-- `%core`; R58; the core now running it. -/
  core : Nat
  /-- Declared x registers; R39, R258. -/
  regs : Nat
  width : Nat
  groups : Nat
  /-- Scratchpad bytes; R258. -/
  spadSize : Nat
  /-- Accumulator rows; R243. -/
  accRows : Nat
  /-- First physical accumulator row; R275. -/
  accBase : Nat
  phase : Phase
  /-- Scratchpad; R3, R176; contents at launch log 3. -/
  spad : Memory
  /-- Full granules, strictly rising; R3, R145; empty at launch (log 4). -/
  full : List Nat
  /-- Accumulator cells, 32 bits each, by cell index; R243; reset +0. -/
  acc : NMap (BitVec 32)
  /-- Poisoned accumulator pairs, strictly rising; R377; reset none. -/
  accPois : List Nat
  /-- Accumulator pairs whose results a check may still find wrong, with the cycle of the write; R365; model; reset none. -/
  unproven : List (Nat × Nat)
  /-- b0-b15; R151; reset closed. -/
  bars : NMap Bar
  /-- k0-k7; R122; reset n = 0. -/
  kregs : NMap KReg
  /-- g0-g15; R159; reset pending. -/
  slots : NMap Slot
  /-- 64 bits; R310; reset 0. -/
  tvec : Word
  /-- `%prio`, 0-3; R57; reset 0 (R104). -/
  prio : Nat
  /-- `%ustate`, 64 bits; R57; reset 0. -/
  ustate : Word
  /-- region OPEN; R308; reset 0. -/
  rOpen : Bool
  /-- region INST; R308; reset 0. -/
  inst : BitVec 32
  /-- region TAG; R308; reset 0. -/
  tag : BitVec 12
  /-- region REPLAY; R308; reset 0. -/
  replay : Nat
  /-- Region buffer; R367; reset empty. -/
  rbuf : List Sector
  /-- The valid checkpoint; R305, R306; reset none. -/
  ckpt : Option Ckpt
  /-- A failed check of the open instance awaits the sequencer; R307, R372. -/
  failing : Option CheckSite
  /-- A poisoned load of the open instance awaits it, under FAIL; R374. -/
  fatal : Bool
  point : Point
  /-- The fault on the checkpoint area that the point waits on; R306, R369. -/
  pointFault : Option Nat
  /-- The point has committed, and its checkpoint is being written; R305, R375; model; reset false. -/
  writing : Bool
  /-- Results of fibres that have ended in the open instance, which a check may still find wrong; R365, R370; model;
  reset none. -/
  past : List (FibId × Opnd × Nat)
  /-- Commands saved with the team, in queue order; R163. -/
  qsaved : List QCmd
  /-- 8-byte words of scratchpad that a signer of a pending phase has stored to since it signed, by the signer's
  operation: what the word held before, and its poison; R279; model; reset none. -/
  tileOld : List (Nat × Nat × Nat × Bool)
  /-- A latch; R254; reset empty. -/
  latch : Option Latch
  /-- Commands enqueued per queue, 0-6; R161; reset 0. -/
  seqs : NMap Nat
  /-- Records appended by spawn; R261; reset 0. -/
  appended : Nat
  triggered : Bool
  /-- No-progress time in cycles; R293; reset 0. -/
  idle : Nat
  /-- Step 1 of the watchdog has acted; R293. -/
  idleActed : Bool
  /-- The trap that halts it: issue has stopped, and its clauses and accesses run out; R385. -/
  halting : Option (FibId × TrapRec)
  /-- The sequence number of the break record it is held on; R313. -/
  brkRec : Option Nat
  deriving DecidableEq, Repr, Inhabited

/-- A launched cluster (R101, R284). -/
structure Cluster where
  id : Nat
  clutch : Nat
  part : Nat
  /-- Chunk z, its first record and its size; R284, R285. -/
  chunk : Nat
  base : Nat
  count : Nat
  /-- `%rec`; R285. -/
  recAddr : Word
  /-- `%nteam.z`; R285. -/
  nteamZ : Nat
  /-- Core id of rank 0; R284. -/
  origin : Nat
  rows : Nat
  cols : Nat
  phase : Phase
  /-- Effective priority of its clutch; R280. -/
  prio : Nat
  /-- cb0-cb3; R152; reset closed. -/
  bars : NMap Bar
  /-- Checkpoint cluster slot; R306. -/
  ckSlot : Nat
  /-- A pre-emption has been requested; R288, R293, R295, R313, R382. -/
  preempt : Bool
  /-- Cores a replay must avoid; R372. -/
  avoid : List Nat
  /-- Cycle of its launch or last restore; R288. -/
  since : Nat
  deriving DecidableEq, Repr, Inhabited

/-- Where a card stands (R280 to R292). -/
inductive CardPhase where
  | intake | queued | retired | killed
  deriving DecidableEq, Repr, Inhabited

/-- An accepted card: a clutch (R258, R280). -/
structure Clutch where
  /-- model: its number, never reused. -/
  id : Nat
  part : Nat
  /-- Acceptance number of the partition; R280. -/
  seq : Nat
  cardAddr : Word
  /-- The sixteen words copied at acceptance; R258, R260. -/
  card : List Word
  /-- The target list of word 7, read at acceptance; R258, R261, R290 (log 24). -/
  targets : List Word
  /-- Privileged; R33. -/
  priv : Bool
  /-- Effective priority; R280. -/
  prio : Nat
  phase : CardPhase
  /-- The fibre whose `csub` waits for the answer, with its predicate; R281. -/
  waiter : Option (FibId × Fin 8)
  /-- Slot count, fixed when it is ready; R284. -/
  slots : Option Nat
  /-- Records dealt and chunks launched; R284. -/
  dealt : Nat
  chunks : Nat
  /-- gb0-gb1; R152; reset closed. -/
  bars : NMap Bar
  /-- First halting code under ACCEPT; R385. -/
  halted : Option Nat
  /-- Trap code of its kill, 0x102 for the watchdog; R294. -/
  killed : Option Nat
  /-- Cycle at which its kill began; R293. -/
  killAt : Nat
  /-- Clutches it depends on; R283. -/
  deps : List Nat
  /-- Its entries of the range dependence table: first and end of the rounded virtual range, and RW; R281, R282. -/
  spans : List (Nat × Nat × Bool)
  /-- Node pool: records held, undealt, head and tail slots; R289. -/
  pool : Nat
  undealt : Nat
  poolHead : Nat
  poolTail : Nat
  /-- Node pool: chunks dealt whose slots are held, oldest first: number, records, and whether every team of it has
  ended; R290. -/
  poolChunks : List (Nat × Nat × Bool)
  /-- Node pool: slots reserved by teams; R290. -/
  reserved : NMap Nat
  /-- Cycle at which its next chunk began to wait; R288. -/
  waitSince : Nat
  deriving DecidableEq, Repr, Inhabited

/-- A submission on its way to the front end (R280): from a function, a fibre or a join. -/
structure Sub where
  id : Nat
  part : Nat
  card : Word
  /-- The host command's number; R441. -/
  cmd : Option Nat
  queue : Nat
  /-- The submitting fibre and the predicate it answers; R260. -/
  fib : Option (FibId × Fin 8)
  /-- model: the clause that submitted it, and the trap its rejection raises there (R259, R260). -/
  run : Nat
  trap : TrapRec
  priv : Bool
  /-- Priority floor: the submitting clutch's; R280. -/
  floor : Nat
  /-- The walk or fault the card's read waits on; R280. -/
  hold : Hold
  deriving DecidableEq, Repr, Inhabited

/-- A decrement of a join on its way to the join's home (R265). -/
structure JoinDec where
  id : Nat
  part : Nat
  join : Word
  failed : Bool
  hold : Hold
  deriving DecidableEq, Repr, Inhabited

/-- A resolution or failure of an RFUT that waits for the host's answer to a fault (R267). -/
structure FutDec where
  part : Nat
  fut : Word
  value : Word
  failed : Bool
  queue : Nat
  fault : Nat
  deriving DecidableEq, Repr, Inhabited

/-! ## Engines -/

/-- Progress of an accepted command (R162, R167, R276). -/
inductive CmdPhase where
  | accepted
  | running
  /-- Its writes are made; its signal remains. -/
  | finished
  /-- Stopped by a failure; the record remains. -/
  | failed (code : Nat) (addr : Word)
  deriving DecidableEq, Repr, Inhabited

/-- A command accepted by an engine (R158, R162). -/
structure Cmd where
  id : Nat
  c : QCmd
  phase : CmdPhase
  /-- Stream slots done; R167. -/
  slot : Nat
  /-- RES as read after acceptance; R329. -/
  snap : List Byte
  status : Nat
  result : Word
  word3 : Word
  /-- Cycle of its acceptance; R396. -/
  since : Nat
  /-- Cycle at which its collective last began again; R397. -/
  again : Option Nat
  /-- The node array that its graph's header named when it was accepted; R163. -/
  nodes : Option Word
  /-- Ranks declared lost; R324. -/
  lost : List Nat
  /-- Expanders that its accesses have reached, with an address there; R242. -/
  cxl : List (Nat × Word)
  hold : Hold
  deriving DecidableEq, Repr, Inhabited

/-- Kinds of range-lock entries (R170). -/
inductive LockKind where
  | r | w | fe
  deriving DecidableEq, Repr, Inhabited

/-- A range-lock entry (R170): a partition and buffer index, or a team's scratchpad, and its bytes. -/
structure Lock where
  cmd : Nat
  kind : LockKind
  part : Nat
  /-- The buffer index of a global range, none for scratchpad. -/
  idx : Option Nat
  team : Nat
  lo : Nat
  hi : Nat
  /-- The range goes on from the entry before, in another team's scratchpad: the two are one of the table's entries. -/
  cont : Bool
  deriving DecidableEq, Repr, Inhabited

/-- An entry of a pod's combining buffer (R141): one operation, size and address, and what it combines. -/
structure Comb where
  addr : Nat
  op : AtomOp
  wide : Bool
  /-- Cycle of its first operation. -/
  since : Nat
  ops : List Nat
  deriving DecidableEq, Repr, Inhabited

/-- A cached leaf with its frame-table entry (R221): what of its page lies in that frame. -/
structure Tlb where
  part : Nat
  /-- First virtual address covered, and how many bytes. -/
  va : Nat
  size : Nat
  /-- The page's first virtual address. -/
  page : Nat
  w0 : Word
  w1 : Word
  frame : Word
  deriving DecidableEq, Repr, Inhabited

/-- A matrix phase completed and not yet finished (R276). -/
structure MtxOp where
  team : Nat
  caps : List MtxCap
  started : Bool
  /-- Cells to write when it finishes: index, bits, poison; R250. -/
  outs : List (Nat × BitVec 32 × Bool)
  deriving DecidableEq, Repr, Inhabited

/-- A code block held by an instruction cache (R15): the clutch that fetched it, the block, its words. -/
structure IBlock where
  clutch : Nat
  part : Nat
  addr : Nat
  words : List W32
  deriving DecidableEq, Repr, Inhabited

/-- A core's own state (R3). -/
structure Core where
  /-- Fenced; R295, R383; reset from the retirement log. -/
  fenced : Bool
  /-- Cycle at which it was fenced; R295; reset 0. -/
  fencedAt : Nat
  /-- Lane remap word [31:0], four pipe entries; R383; reset from the log. -/
  remap : BitVec 32
  /-- Disabled register row blocks (lane × 32 + block), scratchpad and accumulator blocks; R382. -/
  rowsOff : List Nat
  spadOff : List Nat
  accOff : List Nat
  /-- Engine queues, at most 16 commands each; R157. -/
  queues : NMap (List QCmd)
  /-- Instruction cache; R3, R15; reset empty. -/
  icache : List IBlock
  /-- Matrix operations, at most eight; R276; reset empty. -/
  mtx : List MtxOp
  deriving DecidableEq, Repr, Inhabited

/-- A pod's own state (R3, R5). -/
structure Pod where
  /-- L1; R178; reset empty. -/
  l1 : List Sector
  /-- Range-lock table, at most 128; R170; reset empty. -/
  locks : List Lock
  /-- Combining buffer, at most 64; R141; reset empty. -/
  comb : List Comb
  /-- Translation cache, at most 256; R221; reset empty. -/
  tlb : List Tlb
  /-- Disabled ways of the slices (core × 64 + way); R382. -/
  waysOff : List Nat
  deriving DecidableEq, Repr, Inhabited

/-! ## Siblings, walks and faults -/

/-- Why an L2 slice holds a line (R135, R236, R348, R355). -/
inductive L2Use where
  /-- The home of the line. -/
  | home
  /-- A guest copy. -/
  | guest
  /-- A replica. -/
  | rep
  /-- A sealed line of another package. -/
  | sealed (t : SealTag)
  deriving DecidableEq, Repr, Inhabited

/-- A 256-byte line of a die's L2 (R236). -/
structure L2Line where
  die : Nat
  use : L2Use
  /-- DPA of its first byte. -/
  line : Nat
  deriving DecidableEq, Repr, Inhabited

/-- A set of an L2 slice (R236): the line in each way of 16, and the 15 bits of the replacement tree, node 1 its root,
a bit set where the upper half is the next victim's. -/
structure L2Set where
  ways : NMap (Option L2Line)
  tree : BitVec 16
  deriving DecidableEq, Repr, Inhabited

/-- A sibling cell's state at its home (R297); slots by number: VALUE, its poison, STAMP. -/
structure SibCell where
  clock : BitVec 32
  slots : NMap (Word × Bool × BitVec 32)
  deriving DecidableEq, Repr, Inhabited

/-- What an access is, for the fault record (R223). -/
inductive FaultKind where
  | load | store | atomic | fetch | engineRead | engineWrite | scale
  deriving DecidableEq, Repr, Inhabited

/-- A line to prefetch when a walk ends (R97): for a team's pod, by buffer index and offset, with the die and clutch
of a replica. -/
structure Fill where
  part : Nat
  team : Nat
  core : Nat
  idx : Nat
  off : Nat
  rep : Option (Nat × Nat)
  deriving DecidableEq, Repr, Inhabited

/-- A walk in progress or waiting, oldest first (R221). -/
structure Walk where
  id : Nat
  part : Nat
  va : Nat
  addr : Word
  core : Nat
  queue : Nat
  kind : FaultKind
  /-- Pods whose caches, with their dies', receive the leaf. -/
  pods : List Nat
  /-- Only `pld` waits on it: no record, nothing held (R97). -/
  quiet : Bool
  /-- Lines to prefetch when it ends (R97). -/
  fills : List Fill
  deriving DecidableEq, Repr, Inhabited

/-- A translation fault (R223): held until written, then until answered. -/
structure FaultRec where
  /-- Its walk. -/
  walk : Nat
  part : Nat
  words : List Word
  /-- Its number in the fault ring once written; R417. -/
  num : Option Nat
  page : Nat
  deriving DecidableEq, Repr, Inhabited

/-! ## Partitions and the hub -/

/-- A journal record (R423). -/
structure JRec where
  kind : Nat
  queue : Nat
  cause : Nat
  core : Nat
  grp : Nat
  lane : Nat
  arg : Word
  deriving DecidableEq, Repr, Inhabited

/-- A slice (R9, R412 to R417, R438). -/
structure Part where
  /-- It has taken a TABLES; R416; reset false. -/
  configured : Bool
  /-- The slice presents no function; R431. -/
  disabled : Bool
  /-- Words 1-7 of its TABLES; R415; reset 0. -/
  btlog : Nat
  btbase : Nat
  ptroot : Nat
  frlog : Nat
  frbase : Nat
  cpbase : Nat
  cpsize : Nat
  jlog : Nat
  jbase : Nat
  jmirror : Nat
  /-- JHEAD, JTAIL, JLOST, FHEAD, FTAIL, UNSET, 64 bits each; R412; reset 0. -/
  jhead : Nat
  jtail : Nat
  jlost : Nat
  fhead : Nat
  ftail : Nat
  unset : Nat
  /-- Queue control records' words 0 to 2, three per queue (3q + w), where written; R286. -/
  qrec : NMap Word
  /-- The next acceptance number; R280; reset 0. -/
  nextSeq : Nat
  /-- The next command number; R441; reset 0. -/
  nextCmd : Nat
  /-- One past the queue served last at each priority; R287; reset 0. -/
  served : NMap Nat
  /-- Cached descriptors, four words each by index; R213; reset empty. -/
  dcache : NMap (List Word)
  /-- Power cap in W; R438; reset log 5. -/
  cap : Nat
  /-- Steps of 100 MHz below 3.3 GHz, sixteenths of issue withheld, clause starts stopped; R438; reset 0, 0, false
  (nothing throttled). -/
  slow : Nat
  thr : Nat
  stopped : Bool
  /-- MREQ, 64 bits; R427; reset 0. -/
  mreq : Word
  /-- MSEQ, 64 bits; R412; reset 0. -/
  mseq : Word
  /-- MRESP, eight words; R412; reset 0. -/
  mresp : List Word
  /-- Requests not yet answered: OBJ, TAG, INDEX; R427. -/
  mqueue : List (Nat × MgmtReq)
  /-- model: the step at which it arrived, by which the controller knows the first; R427; reset 0. -/
  mqAt : Nat
  /-- MSI-X vectors with events to report, and unmasked vectors; R418; reset none, every vector masked (log 6). -/
  msiDue : List Nat
  msiOpen : List Nat
  /-- Cycle of each vector's last message, and messages sent; R418. -/
  msiLast : NMap Nat
  msiSent : NMap Nat
  deriving DecidableEq, Repr, Inhabited

/-- A display head (R408, R411). -/
structure Head where
  /-- The head record, four words; R408; reset 0. -/
  words : List Word
  /-- Rows of pixels of the previous frame as received; R411; reset none. -/
  prev : List (List Word)
  /-- Start of the last frame period; R409; reset none. -/
  start : Option Nat
  /-- Words of the target read so far in this period, in address order, and its start; R409; reset none. -/
  early : List (Option (Word × Bool))
  begun : Option Nat
  deriving DecidableEq, Repr, Inhabited

/-- A frame as an encoder receives it: the head, the start of its period, the pixels substituted, its width, whether its
pixels are RGBA8, and the pixels (R408, R410, R411). -/
structure Frame where
  head : Nat
  time : Nat
  subs : Nat
  width : Nat
  narrow : Bool
  px : List Word
  deriving DecidableEq, Repr, Inhabited

/-- An encoder (R435, R436). -/
structure Enc where
  /-- The encoder record, words 1 to 7; R435; reset 0. -/
  words : List Word
  /-- Substitution, frame, drop and byte counters; R411, R428; reset 0. -/
  subs : Nat
  frames : Nat
  dropped : Nat
  bytes : Nat
  /-- Frame number since EN was set, and a drop just before; R436. -/
  frameNo : Nat
  resync : Bool
  /-- Frames since the last key frame; R435; reset 0. -/
  sinceKey : Nat
  /-- Frames received and not yet written, in order; R410, R436; reset none. -/
  input : List Frame
  /-- The fault that the frame's write waits on; R223; reset none. -/
  fault : Option Nat
  deriving DecidableEq, Repr, Inhabited

/-- A CXL expander (R241, R242). -/
structure Cxl where
  up : Bool
  /-- Completion timeout in ms; reset 10 (R241). -/
  timeout : Nat
  deriving DecidableEq, Repr, Inhabited

/-- A UALink port (R392 to R394). -/
structure Port where
  up : Bool
  /-- Replays since the last record of them. -/
  replays : Nat
  /-- Replays of the flit now in replay; R394. -/
  tries : Nat
  deriving DecidableEq, Repr, Inhabited

/-- What becomes of the device as a whole (R431, R433, R437). -/
inductive Power where
  | off | recovery | on
  deriving DecidableEq, Repr, Inhabited

/-- What acts next (log 1): the next word of a started clause, a row of the table, a command of the host,
or one of the device's unobservable drops. -/
inductive Act where
  | word (run : Nat)
  | event (i : Instr)
  /-- A 64-byte write to a function's command window: TYPE and the rest (R413). -/
  | command (fn type : Nat) (c : HostCmd)
  /-- A write of MREQ (R427). -/
  | request (fn : Nat) (v : Word)
  /-- A guest copy is dropped silently (R348). -/
  | evictGuest (die base : Nat)
  /-- A clean L1 copy, an instruction block, a descriptor or a leaf is dropped (R15, R178, R213, R221). -/
  | evictL1 (pod base : Nat)
  | evictCode (core addr : Nat)
  | evictDesc (part idx : Nat)
  | evictLeaf (pod va : Nat)
  /-- One part of an outstanding access is performed on its own: an 8-byte half of 16 bytes (R96), or an element, or
  the scale byte, which comes after the elements (R231). -/
  | part (op : Nat) (n : Nat)
  /-- A head reads the next word of its target, before the rest of the frame (R409). -/
  | headWord (head : Nat)
  /-- The FIRMWARE command in progress shows its next state (R434). -/
  | firmware
  /-- The host masks a vector of a function (R418). -/
  | mask (fn vec : Nat)
  /-- Nothing acts. -/
  | idle
  deriving DecidableEq, Repr, Inhabited

/-- A choice of the tape: cycles that pass, then what acts (log 1). -/
structure Choice where
  dt : Nat
  act : Act
  deriving DecidableEq, Repr, Inhabited

/-- The state of one FRK-768A package. -/
structure State where
  /-- model (log 1): the choices of the steps to come; reset empty. -/
  sched : List Choice
  /-- model (log 1): steps taken, the argument of the free values; reset 0 (DESIGN CHOICE). -/
  tick : Nat
  /-- `%clock`, 64 bits when read; R57, R58; reset 0 ("since reset"). -/
  clock : Nat
  /-- R431, R433, R437; reset off: power is applied by BOOT. -/
  power : Power
  /-- model: the next number of a run, operation, team, cluster, clutch, command, walk; reset 1. -/
  fresh : Nat
  /-- model: the run whose word is being executed; reset 0 (none). -/
  cur : Nat
  /-- R103; reset none. -/
  fibres : List Fibre
  /-- R101; reset none. -/
  groups : List Group
  /-- R101; reset none. -/
  teams : List Team
  /-- R101; reset none. -/
  clusters : List Cluster
  /-- R258, R280; reset none. -/
  clutches : List Clutch
  /-- R12; reset none. -/
  running : List ClauseRun
  /-- R17; reset none. -/
  pend : List MemOp
  /-- By core id; R3; reset default (no core fenced, caches and queues empty). -/
  cores : NMap Core
  /-- By sector × 8 + pod; R2, R3, R5; reset default. -/
  pods : NMap Pod
  /-- Die translation caches, by die; R221; reset empty. -/
  dtlb : NMap (List Tlb)
  /-- L2 sectors of the package; R4, R236; reset empty. -/
  l2 : List Sector
  /-- Guest copies, with their die; R348; reset none. -/
  guests : List (Nat × Sector)
  /-- Disabled L2 ways (slice × 64 + way); R236, R382; reset none. -/
  l2WaysOff : List Nat
  /-- Which lines the ways of each L2 set hold, and its replacement tree, by slice × 512 + set; R236; reset empty. -/
  l2Sets : NMap L2Set
  /-- model: L2 lines used in this step, not yet given a way; reset none. -/
  l2Used : List L2Line
  /-- HBM by DPA, CXL, host memory; R214; dead frames read 0 at reset (R232, R237); CXL and host log 2. -/
  mem : Memory
  /-- model: sectors that a pod's miss fetched in this step, with the pod; R204; reset none. -/
  missed : List (Nat × Sector)
  /-- `.rep` replicas: die, clutch, copy; R135; reset none. -/
  reps : List (Nat × Nat × Sector)
  /-- Sectors and stores lost and not yet journaled: partition, DPA, and the buffer index and offset where known; R239,
  R242, R354; model; reset none. -/
  lost : List (Nat × Nat × Option Word)
  /-- HBM stacks and sectors that failed at boot; R233, R431; reset none. -/
  stacksOff : List Nat
  sectorsOff : List Nat
  /-- Writes waiting at a controller for a dead frame's fill: frame and sector; R237; reset none. -/
  fillWait : List (Nat × Sector)
  /-- Frame-table entries that differ from their reset value, by frame; R232. -/
  frames : NMap Word
  /-- Interleave profiles that differ from reset, six masks each; R234. -/
  profiles : NMap (List (BitVec 12))
  /-- RDS and WRS by stack × 64 + q, 64 bits when read; R202; reset 0. -/
  rds : NMap Nat
  wrs : NMap Nat
  /-- Failed pseudo-channels (stack × 64 + q); R239; reset none. -/
  badPc : List Nat
  /-- Failed replays of the current history by stack × 64 + q; R239; reset 0. -/
  caTries : NMap Nat
  /-- Activation counts by row (stack, q, bank, row); R240; reset 0. -/
  acts : List ((Nat × Nat × Nat × Nat) × Nat)
  /-- Banks that take no activation; R240; reset none. -/
  heldBanks : List (Nat × Nat × Nat)
  /-- Spare rows used by bank; R382; reset none. -/
  spares : List ((Nat × Nat × Nat) × Nat)
  /-- Sibling cells by shadow address; R297; reset CLOCK 0, no slot. -/
  sib : NMap SibCell
  /-- Walks, oldest first; R221; reset none. -/
  walks : List Walk
  /-- Faults not yet answered, oldest first; R223, R417; reset none. -/
  faults : List FaultRec
  /-- Submissions on their way, oldest first; R280; reset none. -/
  subs : List Sub
  /-- Join decrements on their way; R265; reset none. -/
  joins : List JoinDec
  /-- Resolutions that wait for a fault's answer; R267; reset none. -/
  futs : List FutDec
  /-- Accepted engine commands; R158; reset none. -/
  cmds : List Cmd
  /-- model: what the box trees written by `cut.tree` hold: their bytes, and the cut records they were built
  from; R330, R406; reset none. -/
  trees : List (List Byte × List Word)
  /-- Slices by number; R9; reset unconfigured. -/
  parts : NMap Part
  /-- Partition mode P; R9, R422; reset 1 (R422: byte 7 = 0 from the factory). -/
  mode : Nat
  /-- `%pkg` in use, and the id stored for the next boot; R430; reset 0. -/
  pkg : Nat
  pkgNext : Nat
  /-- Flash boot record; R432; reset log 7. -/
  bootRec : Word
  /-- Flash: rates at which each stack's training has failed, 3 when all have; R431; reset none (log 7). -/
  stackTries : NMap Nat
  /-- Flash: sectors whose self-test has failed; R431; reset none (log 7). -/
  sectorsBad : List Nat
  /-- Flash: PCI Express comes up at 64 GT/s, its training having failed; R431; reset false (log 7). -/
  pcieSlow : Bool
  /-- One past the slice that the hub served last on each shared port: 0 host, 1 CXL, 2 UALink; R419; reset 0 (DESIGN CHOICE, log 212). -/
  hubLast : NMap Nat
  /-- Flash retirement log; R381; reset empty (log 7). -/
  retired : List CheckSite
  /-- Flash holds a good firmware image; R433; reset true (log 7). -/
  flashOk : Bool
  /-- FWSTAT, bits 7 to 0; R434; reset 0. -/
  fwstat : Nat
  /-- The values that FWSTAT has still to show for the FIRMWARE command in progress; R434; reset none. -/
  fwJob : List Nat
  /-- Time of each structure's last failed check; R381; reset none. -/
  lastFail : List (CheckSite × Nat)
  /-- Event log records (KIND, TIME, WHERE) since boot; R429; reset none. -/
  events : List (Nat × Nat × Word)
  /-- Display heads; R408; reset 0. -/
  heads : NMap Head
  /-- The slice that each shared engine last took a command from; R420; reset 0 (DESIGN CHOICE, log 212). -/
  engTurn : NMap Nat
  /-- Encoders; R435; reset 0. -/
  encs : NMap Enc
  /-- Expanders 0 and 1; R241; reset down until boot. -/
  cxl : NMap Cxl
  /-- UALink ports 0-11; R392; reset down until boot. -/
  ports : NMap Port
  /-- Packages lost to the domain; R354, R393; reset none. -/
  lostPkgs : List Nat
  /-- Requests sent to other packages; R352; model; reset 0. -/
  sentSeq : Nat
  /-- model: sectors of other packages that a step of an engine has asked for and received, by its command's push; R351;
  reset none. -/
  far : List (Nat × Sector)
  /-- model: collectives whose L is fixed, while members in other slices of this package have still to take it; R396;
  reset none. -/
  colls : List CollFix
  /-- Requests received: sending package and sequence number; R352; model; reset none. -/
  received : List (Nat × Nat)
  /-- Answers sent to other packages: address, bytes, poison of each 8-byte word; R351, R377; reset none. -/
  answers : List (Nat × List Byte × List Bool)
  deriving DecidableEq, Repr, Inhabited

/-! ## Stops -/

/-- Why the machine stops with a fault. No path to which the spec gives an effect raises one. -/
inductive Fault where
  /-- Raised by `step` for a word of a clause that does not decode: a clause starts only when every word
  of it decodes (R11), so no run reaches it. Safe: the hardware never executes such a word. -/
  | undecoded
  deriving DecidableEq, Repr, Inhabited

/-- Why the model gives a row no meaning. -/
inductive Refusal where
  /-- Raised by an arm of `exec` whose row has no meaning yet. Safe: the run stops. -/
  | notModelled (mnemonic : String)
  deriving DecidableEq, Repr, Inhabited

/-- The package right after reset, before power is applied (R431): nothing runs, nothing is held. -/
def State.reset : State where
  sched := []
  tick := 0
  clock := 0
  power := .off
  fresh := 1
  cur := 0
  fibres := []
  groups := []
  teams := []
  clusters := []
  clutches := []
  running := []
  pend := []
  cores := []
  pods := []
  dtlb := []
  l2 := []
  guests := []
  l2WaysOff := []
  l2Sets := []
  l2Used := []
  mem := ⟨[], []⟩
  missed := []
  reps := []
  lost := []
  stacksOff := []
  sectorsOff := []
  fillWait := []
  frames := []
  profiles := []
  rds := []
  wrs := []
  badPc := []
  caTries := []
  acts := []
  heldBanks := []
  spares := []
  sib := []
  walks := []
  faults := []
  subs := []
  joins := []
  futs := []
  cmds := []
  trees := []
  parts := []
  mode := 1
  pkg := 0
  pkgNext := 0
  bootRec := 0
  stackTries := []
  sectorsBad := []
  pcieSlow := false
  hubLast := []
  retired := []
  flashOk := true
  fwstat := 0
  fwJob := []
  lastFail := []
  events := []
  heads := []
  engTurn := []
  encs := []
  cxl := []
  ports := []
  lostPkgs := []
  sentSeq := 0
  far := []
  colls := []
  received := []
  answers := []

end Sys2Proof.Machine
end

