-- ==== Sys2Proof/Config.lean ====
section
/-! DEFINITION. What the spec leaves open, as constants without a body: no proof can see their values. -/

namespace Sys2Proof

/-- What acts at a step when the tape of choices is empty (log 1). -/
opaque Config.freeChoice : Nat → Machine.Choice

/-- A free number of a step, `k` telling apart the uses within it (log 8). -/
opaque Config.freeNat : Nat → Nat → Nat

/-- The set of an L2 slice that holds a line, and the pod's L1 slice that does, where R236 and R178 leave the choice
of address bits to the hardware (log 194). -/
opaque Config.l2Set : Nat → Nat
opaque Config.l1Slice : Nat → Nat

/-- The lines of one way of an L1 slice, whose ways R3 does not count (log 194). -/
opaque Config.l1WayLines : Nat

/-- The bank and row that hold a byte of a pseudo-channel, by its place there (R234, R240, log 195). -/
opaque Config.hbmRow : Nat → Nat × Nat

/-- The 1 µs intervals in which step 3 of R438 stops clause starts: by slice and microsecond (log 213). -/
opaque Config.capStop : Nat → Nat → Bool

/-- The hash of a package and a 256-byte line that chooses a UALink port (R393, log 204). -/
opaque Config.portHash : Nat → Nat → Nat

/-- The result bits an approximating instruction proposes: the OP of R85, P and the operand's bits; the
same on every core and at every time (R83). The result is this within the bound of R85 (log 9). -/
opaque Config.sfuBits : Nat → Bool → Nat → Nat

/-- The size and the bytes of the box tree of a cut list and its blocks (R330, log 10): byte `i` of the tree. -/
opaque Config.treeSize : List Nat → List Nat → Nat
opaque Config.treeByte : List Nat → List Nat → Nat → Byte

/-- Which of a ray's hits the traversal of a tree finds first (R407, log 10): an index from the tree's cut
records and the ray's words. -/
opaque Config.firstHit : List Nat → List Nat → Nat

/-- How an engine rounds what it computes for a hit: 0 T, 1 U, 2 V, of a ray's words and a triangle's vertices
(R333, R406, log 11): down when even, up when odd. -/
opaque Config.hitBits : Nat → List Nat → List Int → Nat

/-- The hidden words 0x28 to 0x7F of a saved ray (R335, log 10): byte `i` of a step's record. -/
opaque Config.rayState : Nat → Nat → Byte

/-- How an encoder halves a plane of chroma both ways (R410, log 12): sample `i` of the exact chroma of a frame's pixels and
its width, in the same unit. -/
opaque Config.halved : List Nat → Nat → Nat → Nat

/-- The number of a boot step's first attempt, even for 0 and odd for 1 (R432, log 186). -/
opaque Config.firstAttempt : Nat

/-- Part of the bitstream of a frame: of the part's number, codec, rate words, key frame and frame number, and of the
converted pixels (R410, log 12); byte `i`, and its length. -/
opaque Config.streamLen : List Nat → List Nat → Nat
opaque Config.streamByte : List Nat → List Nat → Nat → Byte

end Sys2Proof
end

