-- ==== Sys2Proof/Decode.lean ====
section
/-! DEFINITION. From words to instructions and back: the fields of R21 and R22, one decoder for each
class of R32, in the order of traps that R439 gives, and the encoder. -/

namespace Sys2Proof

/-! ## Operand codes (R26, R28) -/

/-- The operand a field selects (R26); a reserved code gives constant 0, and `reservedCode` names it. -/
def Opnd.ofCode (c : Byte) : Opnd :=
  let n := c.toNat
  if h : n < 128 then .x ⟨n, h⟩
  else if h : n < 192 then .s ⟨n - 128, by omega⟩
  else if h : n < 200 then .t ⟨n - 192, by omega⟩
  else if h : n < 216 then .k ⟨n - 200, by omega⟩
  else .k 0

/-- The code of an operand (R26). -/
def Opnd.code : Opnd → Byte
  | .x n => BitVec.ofNat 8 n.val
  | .s n => BitVec.ofNat 8 (128 + n.val)
  | .t n => BitVec.ofNat 8 (192 + n.val)
  | .k n => BitVec.ofNat 8 (200 + n.val)

/-- Codes 216 to 255 (R26). -/
def reservedCode (c : Byte) : Bool := decide (216 ≤ c.toNat)

/-- An operand a field may read, with `regs` declared x registers, in a sync or sys clause or not (R28). -/
def Opnd.src (regs : Nat) (sync : Bool) : Opnd → Bool
  | .x n => decide (n.val < regs)
  | .s _ => true
  | .t _ => !sync
  | .k _ => true

/-- An operand a D field may write (R28). -/
def Opnd.dst (regs : Nat) (sync : Bool) (o : Opnd) : Bool :=
  o.src regs sync && (match o with | .k _ => false | _ => true)

/-- The first register of a pair (R28). -/
def Opnd.pair (regs : Nat) (sync : Bool) : Opnd → Bool
  | .x n => decide (n.val + 1 < regs ∧ n.val ≠ 127)
  | .s n => decide (n.val ≠ 63)
  | .t n => !sync && decide (n.val ≠ 7)
  | .k _ => false

/-- The register after this one: the second of a pair. -/
def Opnd.succ : Opnd → Opnd
  | .x n => .x (n + 1)
  | .s n => .s (n + 1)
  | .t n => .t (n + 1)
  | .k n => .k n

/-! ## Formats and shapes that pages limit -/

/-- Format codes 1 to 12 (R224). -/
def EFmt.code : EFmt → Nat
  | .fp64 => 1 | .fp32 => 2 | .bf16 => 3 | .fp16 => 4 | .e4m3 => 5 | .e5m2 => 6
  | .e3m2 => 7 | .e2m3 => 8 | .e2m1 => 9 | .int8 => 10 | .int4 => 11 | .cb2 => 12

/-- The format of a code; 0 and 13 to 15 name none. -/
def EFmt.ofCode? (n : Nat) : Option EFmt :=
  match n with
  | 1 => some .fp64 | 2 => some .fp32 | 3 => some .bf16 | 4 => some .fp16
  | 5 => some .e4m3 | 6 => some .e5m2 | 7 => some .e3m2 | 8 => some .e2m3
  | 9 => some .e2m1 | 10 => some .int8 | 11 => some .int4 | 12 => some .cb2
  | _ => none

/-- Slot width of `lde` and `ste` in bits (R230). -/
def EFmt.slot : EFmt → Nat
  | .fp64 => 64 | .fp32 => 32 | .bf16 => 16 | .fp16 => 16 | .cb2 => 16
  | .e4m3 => 8 | .e5m2 => 8 | .e3m2 => 8 | .e2m3 => 8 | .e2m1 => 8 | .int8 => 8 | .int4 => 8

/-- Slot width of `ldx` in bits (R230). -/
def OutFmt.slot : OutFmt → Nat
  | .f32 => 32 | .bf16 => 16 | .f16 => 16 | .f64 => 64

/-- Block-scaled formats, codes 5 to 12 (R226). -/
def EFmt.scaled (f : EFmt) : Bool := decide (5 ≤ f.code)

/-- Rows m of a matrix shape (R246). -/
def EFmt.mmaM : EFmt → Nat
  | .fp64 => 16
  | _ => 32

/-- Depth k of a matrix shape (R246). -/
def EFmt.mmaK : EFmt → Nat
  | .fp64 => 16 | .fp32 => 0 | .bf16 => 32 | .fp16 => 32 | .e4m3 => 64 | .e5m2 => 64
  | .e3m2 => 80 | .e2m3 => 80 | .e2m1 => 128 | .int8 => 64 | .int4 => 128 | .cb2 => 128

/-- Block length of a coded LB (R245). -/
def blockLen (lb : Nat) : Nat := 16 * 2 ^ lb

/-- Accumulator rows an output covers: 8 for FP64, 16 otherwise (R250). -/
def EFmt.mmaRows : EFmt → Nat
  | .fp64 => 8
  | _ => 16

/-- LB, AR and the batch count fit the format's shape (R245); `g` is the batch count, 1 for `mma`. -/
def mmaShapeOk (f : EFmt) (lb ar g : Nat) : Bool :=
  (if f.scaled then decide (f.mmaK % blockLen lb = 0) && decide (f = .cb2 → lb = 1) else decide (lb = 0))
    && (decide (f = .fp64) || decide (ar % 2 = 0))
    && (decide (g = 1) || (decide (f.mmaM % g = 0) && decide (f.mmaK % g = 0)
        && (!f.scaled || decide ((f.mmaK / g) % blockLen lb = 0))))

/-! ## Codes of the small fields -/

/-- Access sizes by code (R34); `q` stands in for the illegal codes, which `szIll` names. -/
def Sz.ofBits (b : BitVec 3) : Sz :=
  match b.toNat with | 0 => .b | 1 => .h | 2 => .w | 3 => .d | _ => .q

/-- The code of a size (R34). -/
def Sz.bits : Sz → BitVec 3
  | .b => 0 | .h => 1 | .w => 2 | .d => 3 | .q => 4

/-- Bytes of an access, or lines, or elements: 2 to the size (R34, R97, R229). -/
def Sz.bytes : Sz → Nat
  | .b => 1 | .h => 2 | .w => 4 | .d => 8 | .q => 16

/-- Orders by code (R34); `sc` stands in for the illegal codes. -/
def Order.ofBits (b : BitVec 3) : Order :=
  match b.toNat with | 0 => .none | 1 => .acq | 2 => .rel | 3 => .ar | _ => .sc

/-- The code of an order (R34). -/
def Order.bits : Order → BitVec 3
  | .none => 0 | .acq => 1 | .rel => 2 | .ar => 3 | .sc => 4

/-- Scopes by code (R34). -/
def Scope.ofBits (b : BitVec 2) : Scope :=
  match b.toNat with | 0 => .team | 1 => .clus | 2 => .dev | _ => .sys

/-- The code of a scope (R34). -/
def Scope.bits : Scope → BitVec 2
  | .team => 0 | .clus => 1 | .dev => 2 | .sys => 3

/-- Rounding attributes by code (R34); codes 5 and 6 are illegal. -/
def Rm.ofBits (b : BitVec 3) : Rm :=
  match b.toNat with | 0 => .rn | 1 => .rz | 2 => .ru | 3 => .rd | 4 => .rna | _ => .rdyn

/-- The code of a rounding attribute (R34). -/
def Rm.bits : Rm → BitVec 3
  | .rn => 0 | .rz => 1 | .ru => 2 | .rd => 3 | .rna => 4 | .rdyn => 7

/-- Integer conditions by code (R50). -/
def Cond.ofCode (n : Nat) : Cond :=
  match n with | 0 => .eq | 1 => .ne | 2 => .lt | 3 => .le | 4 => .gt | _ => .ge

/-- The code of a condition (R50). -/
def Cond.code : Cond → Nat
  | .eq => 0 | .ne => 1 | .lt => 2 | .le => 3 | .gt => 4 | .ge => 5

/-- FP conditions by code (R69). -/
def FCond.ofCode (n : Nat) : FCond :=
  match n with
  | 0 => .eq | 1 => .ne | 2 => .lt | 3 => .le | 4 => .gt | 5 => .ge | 6 => .un | _ => .or

/-- The code of an FP condition (R69). -/
def FCond.code : FCond → Nat
  | .eq => 0 | .ne => 1 | .lt => 2 | .le => 3 | .gt => 4 | .ge => 5 | .un => 6 | .or => 7

/-- Predicate operations by code (R55). -/
def PsetOp.ofCode (n : Nat) : PsetOp :=
  match n with | 0 => .and | 1 => .or | 2 => .xor | _ => .andn

/-- The code of a predicate operation (R55). -/
def PsetOp.code : PsetOp → Nat
  | .and => 0 | .or => 1 | .xor => 2 | .andn => 3

/-- Conversions by code (R72). -/
def CvtOp.ofCode (n : Nat) : CvtOp :=
  match n with
  | 0 => .f2f | 1 => .f2i | 2 => .f2n | 3 => .f2iw | 4 => .f2nw | 5 => .i2f | _ => .n2f

/-- The code of a conversion (R72). -/
def CvtOp.code : CvtOp → Nat
  | .f2f => 0 | .f2i => 1 | .f2n => 2 | .f2iw => 3 | .f2nw => 4 | .i2f => 5 | .n2f => 6

/-- Shuffle modes by code (R78). -/
def ShflMode.ofCode (n : Nat) : ShflMode :=
  match n with | 0 => .idx | 1 => .up | 2 => .down | _ => .xor

/-- The code of a shuffle mode (R78). -/
def ShflMode.code : ShflMode → Nat
  | .idx => 0 | .up => 1 | .down => 2 | .xor => 3

/-- Lane operations by code (R81). -/
def LaneOp.ofCode (n : Nat) : LaneOp :=
  match n with
  | 0 => .add | 1 => .min | 2 => .max | 3 => .and | 4 => .or | 5 => .xor | _ => .fadd

/-- The code of a lane operation (R81). -/
def LaneOp.code : LaneOp → Nat
  | .add => 0 | .min => 1 | .max => 2 | .and => 3 | .or => 4 | .xor => 5 | .fadd => 6

/-- Atomic operations by OPC (R137). -/
def AtomOp.ofCode (n : Nat) : AtomOp :=
  match n with
  | 0 => .swap | 1 => .cas | 2 => .add | 3 => .min | 4 => .max | 5 => .minu | 6 => .maxu | 7 => .and
  | 8 => .or | 9 => .xor | 10 => .incw | 11 => .decw | 12 => .addb | 13 => .fadd | 14 => .fmin | _ => .fmax

/-- The OPC of an atomic operation (R137). -/
def AtomOp.code : AtomOp → Nat
  | .swap => 0 | .cas => 1 | .add => 2 | .min => 3 | .max => 4 | .minu => 5 | .maxu => 6 | .and => 7
  | .or => 8 | .xor => 9 | .incw => 10 | .decw => 11 | .addb => 12 | .fadd => 13 | .fmin => 14 | .fmax => 15

/-- The operations with a success predicate and a second data operand (R136, R137). -/
def AtomOp.hasSuccess : AtomOp → Bool
  | .cas => true
  | .addb => true
  | _ => false

/-- Combining operations of `srec` by OP (R302). -/
def SrecOp.ofCode (n : Nat) : SrecOp :=
  match n with
  | 0 => .add | 1 => .min | 2 => .max | 3 => .or | 4 => .xor | 5 => .fadd | 6 => .minu | _ => .maxu

/-- The OP of a combining operation (R302). -/
def SrecOp.code : SrecOp → Nat
  | .add => 0 | .min => 1 | .max => 2 | .or => 3 | .xor => 4 | .fadd => 5 | .minu => 6 | .maxu => 7

/-- Output formats of `ldx` by code (R229). -/
def OutFmt.ofCode (n : Nat) : OutFmt :=
  match n with | 0 => .f32 | 1 => .bf16 | 2 => .f16 | _ => .f64

/-- The code of an output format (R229). -/
def OutFmt.code : OutFmt → Nat
  | .f32 => 0 | .bf16 => 1 | .f16 => 2 | .f64 => 3

/-- Engine queues by Q (R156). -/
def EQueue.ofCode (n : Nat) : EQueue :=
  match n with
  | 0 => .se0 | 1 => .se1 | 2 => .cvx | 3 => .ray | 4 => .cut | 5 => .rast | _ => .coll

/-- The Q of an engine queue (R156). -/
def EQueue.code : EQueue → Nat
  | .se0 => 0 | .se1 => 1 | .cvx => 2 | .ray => 3 | .cut => 4 | .rast => 5 | .coll => 6

/-! ## Words and fields (R21, R22) -/

/-- The fields of a base word and its extension word; without one, R22's defaults. `lit` is the whole
extension word, read by the I-form (R24). -/
structure Fields where
  x : Bool
  op : BitVec 7
  d : Byte
  a : Byte
  b : Byte
  gs : Bool
  gp : BitVec 3
  c : Byte
  sub : Byte
  imm : BitVec 12
  lit : W32
  deriving DecidableEq, Repr

/-- The fields of a base word `w` and of the word `e` that follows it, read when X = 1 (R21, R22). -/
def Fields.ofWords (w e : W32) : Fields :=
  let x := w.getLsbD 31
  { x := x
    op := w.extractLsb' 24 7
    d := w.extractLsb' 16 8
    a := w.extractLsb' 8 8
    b := w.extractLsb' 0 8
    gs := if x then e.getLsbD 31 else false
    gp := if x then e.extractLsb' 28 3 else 7
    c := if x then e.extractLsb' 20 8 else 0
    sub := if x then e.extractLsb' 12 8 else 0
    imm := if x then e.extractLsb' 0 12 else 0
    lit := if x then e else 0 }

/-- The base word of the fields (R21). -/
def Fields.base (f : Fields) : W32 :=
  BitVec.ofBool f.x ++ f.op ++ f.d ++ f.a ++ f.b

/-- The extension word of the fields (R22). -/
def Fields.ext (f : Fields) : W32 :=
  BitVec.ofBool f.gs ++ f.gp ++ f.c ++ f.sub ++ f.imm

/-- S, SUB[7] (R34). -/
def Fields.s (f : Fields) : Bool := f.sub.getLsbD 7
/-- F, SUB[6:3], of the integer and lane families (R34). -/
def Fields.f4 (f : Fields) : Nat := (f.sub.extractLsb' 3 4).toNat
/-- U, SUB[2] (R34). -/
def Fields.u (f : Fields) : Bool := f.sub.getLsbD 2
/-- I, SUB[1] (R34). -/
def Fields.i (f : Fields) : Bool := f.sub.getLsbD 1
/-- W, SUB[0] (R34). -/
def Fields.w (f : Fields) : Bool := f.sub.getLsbD 0
/-- F, SUB[7:5], of the FP family (R34). -/
def Fields.f3 (f : Fields) : Nat := (f.sub.extractLsb' 5 3).toNat
/-- RM, SUB[4:2] (R34). -/
def Fields.rm (f : Fields) : BitVec 3 := f.sub.extractLsb' 2 3
/-- SCOPE, SUB[7:6] (R34). -/
def Fields.scope (f : Fields) : BitVec 2 := f.sub.extractLsb' 6 2
/-- ORDER, SUB[5:3] (R34). -/
def Fields.order (f : Fields) : BitVec 3 := f.sub.extractLsb' 3 3
/-- SIZE, SUB[2:0] (R34). -/
def Fields.size (f : Fields) : BitVec 3 := f.sub.extractLsb' 0 3
/-- The guard (R22). -/
def Fields.g (f : Fields) : Guard := ⟨f.gs, f.gp.toFin⟩
/-- B, or IMM12 when I = 1 (R30). -/
def Fields.src (f : Fields) : Src := if f.i then .imm f.imm else .opnd (.ofCode f.b)
/-- I = 1 with B not 0, or I = 0 with IMM12 not 0 (R25, R30). -/
def Fields.srcIll (f : Fields) : Bool := if f.i then f.b != 0 else f.imm != 0
/-- A branch offset, A the high byte and B the low (R31). -/
def Fields.off (f : Fields) : BitVec 16 := f.a ++ f.b
/-- ORDER and SCOPE. -/
def Fields.ord (f : Fields) : Ord := ⟨.ofBits f.order, .ofBits f.scope⟩
/-- The memory operand of A, B and IMM12 (R34). -/
def Fields.mem (f : Fields) : MemRef := ⟨.ofCode f.a, .ofCode f.b, f.imm⟩
/-- RM, Z and P (R34). -/
def Fields.fp (f : Fields) : FpMod := ⟨.ofBits f.rm, f.i, f.w⟩

/-! ## What a decoder answers -/

/-- Why a word does not decode (R439). -/
inductive Reject where
  /-- Trap 0x01 (R318). -/
  | illegalInstruction
  /-- Trap 0x02 (R318). -/
  | illegalOperand
  /-- Trap 0x04 (R318). -/
  | illegalHeader
  deriving DecidableEq, Repr

/-- The trap code of a rejection (R318). -/
def Reject.code : Reject → Nat
  | .illegalInstruction => 0x01
  | .illegalOperand => 0x02
  | .illegalHeader => 0x04

/-- An instruction, or the rejection. -/
abbrev Decoded := Except Reject Instr

/-- What the place of a word gives its decoding: the clause's class (R32), the team's declared x
registers (R28) and accumulator rows (R245), its clutch's privilege (R33), and whether the instruction is
the last of its clause or its only one (R14). -/
structure DecCtx where
  cls : Nat
  regs : Nat
  rows : Nat
  priv : Bool
  last : Bool
  alone : Bool
  deriving DecidableEq, Repr

/-- Sync and sys clauses (R28). -/
def DecCtx.sync (c : DecCtx) : Bool := decide (4 ≤ c.cls)

/-- A source field that decodes as 0x02 (R26, R28). -/
def DecCtx.badSrc (c : DecCtx) (code : Byte) : Bool :=
  reservedCode code || !(Opnd.ofCode code).src c.regs c.sync

/-- A destination field that decodes as 0x02 (R28). -/
def DecCtx.badDst (c : DecCtx) (code : Byte) : Bool :=
  reservedCode code || !(Opnd.ofCode code).dst c.regs c.sync

/-- A pair field that decodes as 0x02 (R28). -/
def DecCtx.badPair (c : DecCtx) (code : Byte) : Bool :=
  reservedCode code || !(Opnd.ofCode code).pair c.regs c.sync

/-- A B field that is read as a register and decodes as 0x02. -/
def DecCtx.badB (c : DecCtx) (f : Fields) : Bool := !f.i && c.badSrc f.b

/-- A predicate field above 7 (R28). -/
def badPred (code : Byte) : Bool := decide (7 < code.toNat)

/-- The predicate a field names. -/
def predOf (code : Byte) : Fin 8 := (code.extractLsb' 0 3).toFin

/-- R439, step 3: 0x01 when a rule that decodes as 0x01 applies, else 0x02 when one of those does. -/
def judge (illegal operand : List Bool) (i : Instr) : Decoded :=
  if illegal.any id then .error .illegalInstruction
  else if operand.any id then .error .illegalOperand
  else .ok i

/-! ## Class alu -/

/-- A row of R43, R44, R48 or R51: A and B or an immediate; `s` and `f` say whether S and the F read are
refused. -/
def dBinary (c : DecCtx) (f : Fields) (s fBad : Bool) (i : Instr) : Decoded :=
  judge [s, fBad, f.c != 0, f.srcIll] [c.badDst f.d, c.badSrc f.a, c.badB f] i

/-- A row that reads only A: B, C, IMM12 and I are 0 (R47). -/
def dUnary (c : DecCtx) (f : Fields) (bad : Bool) (i : Instr) : Decoded :=
  judge [bad, f.i, f.b != 0, f.c != 0, f.imm != 0] [c.badDst f.d, c.badSrc f.a] i

/-- alu 0x00 to 0x1E (R42 to R51). -/
def decodeInt (c : DecCtx) (f : Fields) : Decoded :=
  let d := Opnd.ofCode f.d
  let a := Opnd.ofCode f.a
  let f0 := f.f4 != 0
  match f.op.toNat with
  | 0x00 => dBinary c f false f0 (.iadd f.g f.s f.u f.w d a f.src)
  | 0x01 => dBinary c f false f0 (.isub f.g f.s f.u f.w d a f.src)
  | 0x02 => dBinary c f false f0 (.imul f.g f.s f.u f.w d a f.src)
  | 0x03 => dBinary c f f.s f0 (.imulh f.g f.u f.w d a f.src)
  | 0x04 => judge [!f.x, f0, f.srcIll] [c.badDst f.d, c.badSrc f.a, c.badB f, c.badSrc f.c]
      (.imad f.g f.s f.u f.w d a f.src (.ofCode f.c))
  | 0x05 => dBinary c f f.s f0 (.imin f.g f.u f.w d a f.src)
  | 0x06 => dBinary c f f.s f0 (.imax f.g f.u f.w d a f.src)
  | 0x07 => dUnary c f (f0 || f.u) (.iabs f.g f.s f.w d a)
  | 0x08 => dBinary c f f.s f0 (.and f.g f.u f.w d a f.src)
  | 0x09 => dBinary c f f.s f0 (.or f.g f.u f.w d a f.src)
  | 0x0A => dBinary c f f.s f0 (.xor f.g f.u f.w d a f.src)
  | 0x0B => dBinary c f f.s f0 (.andn f.g f.u f.w d a f.src)
  | 0x0C => dBinary c f f.s f0 (.shl f.g f.u f.w d a f.src)
  | 0x0D => dBinary c f f.s f0 (.shr f.g f.u f.w d a f.src)
  | 0x0E => dBinary c f f.s f0 (.sar f.g f.u f.w d a f.src)
  | 0x0F => dBinary c f f.s f0 (.rot f.g f.u f.w d a f.src)
  | 0x10 => judge [!f.x, f.s, f0, f.srcIll] [c.badDst f.d, c.badSrc f.a, c.badB f, c.badSrc f.c]
      (.funl f.g f.u f.w d a f.src (.ofCode f.c))
  | 0x11 =>
    let pos := f.imm.extractLsb' 0 6
    let len := f.imm.extractLsb' 6 6
    judge [!f.x, f.s, f0, f.i, f.b != 0, f.c != 0, decide ((if f.w then 32 else 64) < pos.toNat + len.toNat)]
      [c.badDst f.d, c.badSrc f.a] (.bfx f.g f.u f.w d a pos len)
  | 0x12 =>
    let pos := f.imm.extractLsb' 0 6
    let len := f.imm.extractLsb' 6 6
    judge [!f.x, f.s, f0, f.i, f.c != 0, decide ((if f.w then 32 else 64) < pos.toNat + len.toNat)]
      [c.badDst f.d, c.badSrc f.a, c.badSrc f.b] (.bfi f.g f.u f.w d a (.ofCode f.b) pos len)
  | 0x13 => dUnary c f (f.s || f0) (.popc f.g f.u f.w d a)
  | 0x14 => dUnary c f (f.s || f0) (.clz f.g f.u f.w d a)
  | 0x15 => dUnary c f (f.s || f0) (.ctz f.g f.u f.w d a)
  | 0x16 => dUnary c f (f.s || f0) (.brev f.g f.u f.w d a)
  | 0x17 => dBinary c f f.s f0 (.permb f.g f.u f.w d a f.src)
  | 0x18 => judge [f.s, f.i, decide (1 < f.f4), f.c != 0, f.imm != 0]
      [c.badDst f.d, c.badSrc f.a, c.badPair f.b] (.nibl f.g (f.f4 == 1) f.u f.w d a (.ofCode f.b))
  | 0x19 => judge [f.s, decide (5 < f.f4), f.c != 0, f.srcIll] [badPred f.d, c.badSrc f.a, c.badB f]
      (.icmp f.g (.ofCode f.f4) f.u f.w (predOf f.d) a f.src)
  | 0x1A => dBinary c f false (f.f4 % 8 != 0) (.badd f.g f.s (8 ≤ f.f4) f.u f.w d a f.src)
  | 0x1B => dBinary c f false (f.f4 % 8 != 0) (.bsub f.g f.s (8 ≤ f.f4) f.u f.w d a f.src)
  | 0x1C => dBinary c f f.s (decide (5 < f.f4 % 8))
      (.bcmp f.g (.ofCode (f.f4 % 8)) (8 ≤ f.f4) f.u f.w d a f.src)
  | 0x1D => dBinary c f f.s (f.f4 % 8 != 0) (.bmaxu f.g (8 ≤ f.f4) f.u f.w d a f.src)
  | 0x1E => dUnary c f (f.s || f.f4 % 8 != 0) (.bmsk f.g (8 ≤ f.f4) f.u f.w d a)
  | _ => .error .illegalInstruction

/-- alu 0x20 to 0x2D (R52 to R61). -/
def decodeMove (c : DecCtx) (f : Fields) : Decoded :=
  let d := Opnd.ofCode f.d
  let a := Opnd.ofCode f.a
  let f0 := f.f4 != 0
  -- mka, adda, sext, zext, tset accept only I in SUB
  let onlyI := f.s || f0 || f.u || f.w
  match f.op.toNat with
  | 0x20 => dUnary c f (f.s || f0) (.mov f.g f.u f.w d a)
  | 0x21 => judge [!f.x, !f.i, f.s, f0, f.a != 0, f.b != 0, f.c != 0] [c.badDst f.d]
      (.movi f.g f.u f.w d f.imm)
  | 0x22 => judge [!f.x, f.a != 0, f.b != 0] [c.badDst f.d] (.ldi d f.lit)
  | 0x23 => judge [!f.x, f.a != 0, f.b != 0] [c.badDst f.d] (.ldih d f.lit)
  | 0x24 => judge [!f.x, f.s, f0, f.srcIll] [c.badDst f.d, c.badSrc f.a, c.badB f, badPred f.c]
      (.sel f.g f.u f.w d a f.src (predOf f.c))
  | 0x25 => judge [f.s, f.u, f.i, f.w, decide (3 < f.f4), f.c != 0, f.imm != 0]
      [badPred f.d, badPred f.a, badPred f.b] (.pset f.g (.ofCode f.f4) (predOf f.d) (predOf f.a) (predOf f.b))
  | 0x26 =>
    if f.f4 == 0 then
      judge [f.s, f.u, f.i, f.w, f.a != 0, f.b != 0, f.c != 0, f.imm != 0] [c.badDst f.d] (.pmovGet f.g d)
    else
      judge [f.s, f.u, f.w, decide (1 < f.f4), f.d != 0, f.c != 0, f.srcIll] [c.badSrc f.a, c.badB f]
        (.pmovPut f.g a f.src)
  | 0x27 => judge [!f.x, f.sub != 0, f.a != 0, f.b != 0, f.c != 0] [c.badDst f.d, decide (0x19 < f.imm.toNat)]
      (.srd f.g d f.imm)
  | 0x28 => judge [!f.x, f.sub != 0, f.d != 0, f.b != 0, f.c != 0] [c.badSrc f.a, decide (0x19 < f.imm.toNat)]
      (.swr f.g a f.imm)
  | 0x29 => judge [onlyI, f.d != 0, f.a != 0, f.c != 0, f.srcIll] [c.badB f] (.tset f.g f.src)
  | 0x2A => dBinary c f false onlyI (.mka f.g d a f.src)
  | 0x2B => dBinary c f false onlyI (.adda f.g d a f.src)
  | 0x2C => dBinary c f false onlyI (.sext f.g d a f.src)
  | 0x2D => dBinary c f false onlyI (.zext f.g d a f.src)
  | _ => .error .illegalInstruction

/-- What the whole FP family refuses: RM 5 and 6, and Z with P = 0 (R34). -/
def Fields.fpIll (f : Fields) : Bool := f.rm == 5 || f.rm == 6 || (f.i && !f.w)

/-- An FP instruction of A alone. -/
def dFp1 (c : DecCtx) (f : Fields) (bad : Bool) (i : Instr) : Decoded :=
  judge [bad, f.fpIll, f.b != 0, f.c != 0, f.imm != 0] [c.badDst f.d, c.badSrc f.a] i

/-- An FP instruction of A and B. -/
def dFp2 (c : DecCtx) (f : Fields) (bad : Bool) (i : Instr) : Decoded :=
  judge [bad, f.fpIll, f.c != 0, f.imm != 0] [c.badDst f.d, c.badSrc f.a, c.badSrc f.b] i

/-- alu 0x30 to 0x3F (R62 to R76). -/
def decodeFp (c : DecCtx) (f : Fields) : Decoded :=
  let d := Opnd.ofCode f.d
  let a := Opnd.ofCode f.a
  let b := Opnd.ofCode f.b
  let f0 := f.f3 != 0
  let rm0 := f.rm != 0
  match f.op.toNat with
  | 0x30 => dFp2 c f f0 (.fadd f.g f.fp d a b)
  | 0x31 => dFp2 c f f0 (.fsub f.g f.fp d a b)
  | 0x32 => dFp2 c f f0 (.fmul f.g f.fp d a b)
  | 0x33 => judge [!f.x, f0, f.fpIll, f.imm != 0] [c.badDst f.d, c.badSrc f.a, c.badSrc f.b, c.badSrc f.c]
      (.ffma f.g f.fp d a b (.ofCode f.c))
  | 0x34 => dFp2 c f (rm0 || decide (1 < f.f3)) (.fmin f.g (f.f3 == 1) f.i f.w d a b)
  | 0x35 => dFp2 c f (rm0 || decide (1 < f.f3)) (.fmax f.g (f.f3 == 1) f.i f.w d a b)
  | 0x36 => judge [rm0, f.fpIll, f.c != 0, f.imm != 0] [badPred f.d, c.badSrc f.a, c.badSrc f.b]
      (.fcmp f.g (.ofCode f.f3) f.i f.w (predOf f.d) a b)
  | 0x37 => dFp1 c f (rm0 || f0) (.fclass f.g f.i f.w d a)
  | 0x38 => dFp1 c f (decide (1 < f.f3)) (.frint f.g (f.f3 == 1) f.fp d a)
  | 0x39 => dFp1 c f (f.f3 == 7 || (f.f3 == 0 && f.w && rm0)) (.fcvt f.g (.ofCode f.f3) f.fp d a)
  | 0x3A => dFp2 c f f0 (.fscale f.g f.fp d a b)
  | 0x3B => dFp1 c f (rm0 || decide (1 < f.f3)) (.fexpo f.g (f.f3 == 1) f.i f.w d a)
  | 0x3C => judge [f0, rm0, f.i, f.c != 0, f.imm != 0] [c.badPair f.d, c.badSrc f.a, c.badSrc f.b]
      (.f2sum f.g f.w d a b)
  | 0x3D => judge [f0, rm0, f.i, f.c != 0, f.imm != 0] [c.badPair f.d, c.badSrc f.a, c.badSrc f.b]
      (.f2prod f.g f.w d a b)
  | 0x3E => dFp2 c f (decide (1 < f.f3)) (.fpack f.g (f.f3 == 1) f.fp d a b)
  | 0x3F => dFp1 c f (rm0 || decide (3 < f.f3)) (.funpk f.g (f.f3 % 2 == 1) (2 ≤ f.f3) f.i f.w d a)
  | _ => .error .illegalInstruction

/-- alu 0x50 to 0x55 (R77 to R82). -/
def decodeLane (c : DecCtx) (f : Fields) : Decoded :=
  let d := Opnd.ofCode f.d
  let a := Opnd.ofCode f.a
  match f.op.toNat with
  | 0x50 => dBinary c f (f.s || f.u || f.w) (decide (3 < f.f4)) (.shfl f.g (.ofCode f.f4) d a f.src)
  | 0x51 => judge [f.s, f.u, f.i, f.w, decide (2 < f.f4), f.b != 0, f.c != 0, f.imm != 0]
      [if f.f4 == 2 then c.badDst f.d else badPred f.d, badPred f.a]
      (.vote f.g (if f.f4 == 0 then .any (predOf f.d) else if f.f4 == 1 then .all (predOf f.d) else .bal d)
        (predOf f.a))
  | 0x52 => dUnary c f (f.s || f.u || f.f4 != 0) (.matchL f.g f.w d a)
  | 0x53 => dUnary c f (f.s || decide (6 < f.f4) || (f.f4 == 6 && f.u)) (.redl f.g (.ofCode f.f4) f.u f.w d a)
  | 0x54 => dUnary c f (f.s || f.f4 % 8 == 7 || (f.f4 % 8 == 6 && f.u))
      (.scanl f.g (.ofCode (f.f4 % 8)) (8 ≤ f.f4) f.u f.w d a)
  | 0x55 => dUnary c f (f.s || f.u || f.w || f.f4 != 0) (.first f.g d a)
  | _ => .error .illegalInstruction

/-- A control instruction (R14, R87): last of its clause, SUB, C and IMM12 0, and the fields of `bad` 0. -/
def dCtl (c : DecCtx) (f : Fields) (bad operand : List Bool) (i : Instr) : Decoded :=
  judge ([!c.last, f.sub != 0, f.c != 0, f.imm != 0] ++ bad) operand i

/-- alu 0x60 to 0x6B (R87 to R92). -/
def decodeCtl (c : DecCtx) (f : Fields) : Decoded :=
  let a := Opnd.ofCode f.a
  match f.op.toNat with
  | 0x60 => dCtl c f [f.d != 0] [] (.bra f.g f.off)
  | 0x61 => dCtl c f [] [badPred f.d] (.bany f.g (predOf f.d) f.off)
  | 0x62 => dCtl c f [] [badPred f.d] (.ball f.g (predOf f.d) f.off)
  | 0x63 => dCtl c f [] [badPred f.d] (.bnone f.g (predOf f.d) f.off)
  | 0x64 => dCtl c f [f.d != 0, f.b != 0] [c.badSrc f.a] (.jmpr f.g a)
  | 0x65 => dCtl c f [f.d != 0] [] (.call f.g f.off)
  | 0x66 => dCtl c f [f.d != 0, f.b != 0] [c.badSrc f.a] (.callr f.g a)
  | 0x67 => dCtl c f [f.d != 0, f.a != 0, f.b != 0] [] (.ret f.g)
  | 0x68 => dCtl c f [f.d != 0, f.a != 0, f.b != 0] [] (.exit f.g)
  | 0x69 => judge [!f.x, !c.last, f.sub != 0, f.c != 0, f.b != 0] [c.badDst f.d, c.badSrc f.a]
      (.fork f.g (.ofCode f.d) a f.imm)
  | 0x6A => judge [f.sub != 0, f.c != 0, f.imm != 0, f.d != 0, f.a != 0, f.b != 0] [] (.nop f.g)
  | 0x6B => dCtl c f [f.d != 0, f.a != 0, f.b != 0] [] (.yld f.g)
  | _ => .error .illegalInstruction

/-! ## Class mem -/

/-- SIZE 5 to 7 or ORDER 5 to 7 (R34). -/
def Fields.memIll (f : Fields) : Bool := decide (4 < f.size.toNat) || decide (4 < f.order.toNat)

/-- SCOPE with ORDER 0 on an instruction that does not always take a scope (R34). -/
def Fields.scopeIll (f : Fields) : Bool := f.order == 0 && f.scope != 0

/-- The modifier byte's bits (R94). -/
def Fields.sx (f : Fields) : Bool := f.c.getLsbD 0
/-- REP (R94). -/
def Fields.rep (f : Fields) : Bool := f.c.getLsbD 1
/-- FE (R94). -/
def Fields.fe (f : Fields) : Bool := f.c.getLsbD 2
/-- CLR (R94). -/
def Fields.clr (f : Fields) : Bool := f.c.getLsbD 3
/-- C[7:4]: reserved for R94, the format for R229. -/
def Fields.c74 (f : Fields) : Nat := (f.c.extractLsb' 4 4).toNat

/-- The destination or data field of an access of `bits` bits: a pair above 64 (R28, R95, R229). -/
def DecCtx.badData (c : DecCtx) (f : Fields) (written pair : Bool) : Bool :=
  if pair then c.badPair f.d else if written then c.badDst f.d else c.badSrc f.d

/-- An element access (R229, R230): `slot` bits for each element; `bad` its own refusals. -/
def dElem (c : DecCtx) (f : Fields) (slot : Nat) (written bad : Bool) (i : Instr) : Decoded :=
  let bits := (Sz.ofBits f.size).bytes * slot
  let isS := decide (128 ≤ f.d.toNat) && decide (f.d.toNat < 192)
  judge [!f.x, f.memIll, f.scopeIll, bad, f.c.getLsbD 1, decide (128 < bits), decide (64 < bits) && isS]
    [c.badData f written (decide (64 < bits)), c.badSrc f.a, c.badSrc f.b] i

/-- The operation word of `atom` and `red` (R136, R138). -/
def atomIll (f : Fields) (isRed : Bool) : Bool :=
  let opc := (f.imm.extractLsb' 0 5).toNat
  let ps := f.imm.extractLsb' 6 3
  let two := decide (opc = 1 ∨ opc = 12)
  !f.x || f.memIll || (f.size != 2 && f.size != 3) || decide (15 < opc) || f.imm.getLsbD 5
    || f.imm.extractLsb' 9 3 != 0 || (ps != 0 && !two) || (f.c != 0 && !two)
    || (isRed && (decide (opc ≤ 1) || decide (opc = 12) || (f.order != 0 && f.order != 2) || f.d != 0))

/-- Class mem (R93 to R97, R131 to R148, R229 to R231, R297 to R303). -/
def decodeMem (c : DecCtx) (f : Fields) : Decoded :=
  let d := Opnd.ofCode f.d
  let a := Opnd.ofCode f.a
  let b := Opnd.ofCode f.b
  let sz := Sz.ofBits f.size
  let fmt := (EFmt.ofCode? f.c74).getD .fp64
  let noFmt := (EFmt.ofCode? f.c74).isNone
  match f.op.toNat with
  | 0x00 =>
    judge [f.memIll, f.scopeIll, f.order == 2, f.order == 3, f.c74 != 0, f.clr && !f.fe,
        f.fe && (f.rep || f.sx || f.order == 4), f.rep && f.order != 0, f.sx && decide (2 < f.size.toNat)]
      [c.badData f true (f.size == 4), c.badSrc f.a, c.badSrc f.b]
      (.ld f.g ⟨sz, f.ord, f.clr, f.fe, f.rep, f.sx⟩ d f.mem)
  | 0x01 =>
    judge [f.memIll, f.scopeIll, f.order == 1, f.order == 3, f.c74 != 0, f.clr, f.rep, f.sx,
        f.fe && f.order == 4]
      [c.badData f false (f.size == 4), c.badSrc f.a, c.badSrc f.b] (.st f.g sz f.ord f.fe d f.mem)
  | 0x02 => dElem c f (OutFmt.ofCode (f.c.extractLsb' 2 2).toNat).slot true (noFmt || f.sx || decide (1 < f.order.toNat))
      (.ldx f.g sz f.ord fmt (.ofCode (f.c.extractLsb' 2 2).toNat) d f.mem)
  | 0x03 => dElem c f fmt.slot true (noFmt || f.fe || f.clr || decide (1 < f.order.toNat))
      (.lde f.g sz f.ord fmt f.sx d f.mem)
  | 0x04 => dElem c f fmt.slot false (noFmt || f.fe || f.clr || f.sx || (f.order != 0 && f.order != 2))
      (.ste f.g sz f.ord fmt d f.mem)
  | 0x05 => judge [f.memIll, f.order != 0, f.scope != 0, f.c74 != 0, f.clr, f.fe, f.sx, f.d != 0]
      [c.badSrc f.a, c.badSrc f.b] (.pld f.g sz f.rep f.mem)
  | 0x10 =>
    let opc := (f.imm.extractLsb' 0 5).toNat
    judge [atomIll f false]
      [c.badDst f.d, c.badSrc f.a, c.badSrc f.b, (AtomOp.ofCode opc).hasSuccess && c.badSrc f.c]
      (.atom f.g (f.size == 3) f.ord (.ofCode opc) (f.imm.extractLsb' 6 3).toFin d a b (.ofCode f.c))
  | 0x11 => judge [atomIll f true] [c.badSrc f.a, c.badSrc f.b]
      (.red f.g (f.size == 3) f.ord (.ofCode (f.imm.extractLsb' 0 5).toNat) a b)
  | 0x20 => judge [!f.x, f.memIll, f.order == 0, f.size != 0, f.d != 0, f.a != 0, f.b != 0, f.c != 0, f.imm != 0]
      [] (.fence f.g f.ord)
  | 0x21 => judge [f.memIll, f.order != 0, f.c != 0, f.d != 0] [c.badSrc f.a, c.badSrc f.b]
      (.cwb f.g sz (.ofBits f.scope) f.mem)
  | 0x22 => judge [f.memIll, f.order != 0, f.c != 0, f.d != 0] [c.badSrc f.a, c.badSrc f.b]
      (.cinv f.g sz (.ofBits f.scope) f.mem)
  | 0x28 => judge [f.sub != 0, f.d != 0, f.c != 0] [c.badSrc f.a, c.badSrc f.b] (.feset f.g a b f.imm)
  | 0x29 => judge [f.sub != 0, f.d != 0, f.c != 0] [c.badSrc f.a, c.badSrc f.b] (.feclr f.g a b f.imm)
  | 0x2A => judge [f.sub != 0, f.b != 0, f.c != 0] [c.badDst f.d, c.badSrc f.a] (.feqry f.g d a f.imm)
  | 0x30 => judge [!f.x, f.size != 3, decide (1 < f.order.toNat), f.scopeIll, f.c != 0]
      [c.badPair f.d, c.badSrc f.a, c.badSrc f.b] (.sld f.g f.ord d f.mem)
  | 0x31 => judge [!f.x, f.size != 3, decide (1 < f.order.toNat), f.scopeIll]
      [c.badPair f.d, c.badSrc f.a, c.badSrc f.b, c.badSrc f.c] (.sldx f.g f.ord d f.mem (.ofCode f.c))
  | 0x32 => judge [!f.x, f.size != 3, f.order != 0 && f.order != 2, f.scopeIll, f.imm.extractLsb' 1 11 != 0]
      [c.badDst f.d, c.badSrc f.a, c.badSrc f.b, c.badSrc f.c]
      (.sst f.g f.ord (f.imm.getLsbD 0) d a b (.ofCode f.c))
  | 0x33 =>
    let v := f.imm.getLsbD 4
    judge [!f.x, f.size != 3, decide (3 < f.order.toNat), f.scopeIll, f.imm.extractLsb' 9 3 != 0, f.imm.getLsbD 3,
        !v && f.c != 0]
      [c.badDst f.d, c.badSrc f.a, c.badSrc f.b, v && c.badSrc f.c]
      (.srec f.g f.ord (.ofCode (f.imm.extractLsb' 0 3).toNat) (f.imm.getLsbD 5) (f.imm.extractLsb' 6 3).toFin
        d a b (if v then some (.ofCode f.c) else none))
  | _ => .error .illegalInstruction

/-! ## Classes mtx and sfu -/

/-- `mma` and `mmab` (R245): `batched` is `mmab`. -/
def dMma (c : DecCtx) (f : Fields) (batched : Bool) : Decoded :=
  let fmtN := (f.sub.extractLsb' 0 4).toNat
  let fmt := (EFmt.ofCode? fmtN).getD .fp64
  let lb := (f.sub.extractLsb' 5 2).toNat
  let gb := (f.imm.extractLsb' 8 2).toNat
  let ar := f.imm.extractLsb' 0 8
  let fec := f.imm.getLsbD 11
  let few := f.imm.getLsbD 10
  let g := if batched then 2 ^ (gb + 1) else 1
  let lbF : Fin 3 := Fin.ofNat 3 lb
  let gbF : Fin 3 := Fin.ofNat 3 gb
  let mods : MmaMod := ⟨f.sub.getLsbD 7, lbF, f.sub.getLsbD 4, fmt, fec, few, ar⟩
  let cOpt : Option (Fin 128) := if fmt.scaled then some (f.c.extractLsb' 0 7).toFin else none
  let a7 : Fin 128 := (f.a.extractLsb' 0 7).toFin
  judge [!f.x, fmtN == 0, fmtN == 2, decide (12 < fmtN), lb == 3, fec && !few,
      if batched then gb == 3 else gb != 0, !mmaShapeOk fmt lb ar.toNat g]
    [badPred f.d, decide (c.rows < 8 * ar.toNat + fmt.mmaRows), decide (c.regs ≤ f.a.toNat + 7),
      decide (128 ≤ f.a.toNat), decide (192 ≤ f.b.toNat), c.badSrc f.b,
      if fmt.scaled then decide (128 ≤ f.c.toNat) || decide (c.regs ≤ f.c.toNat) else f.c != 200]
    (if batched then .mmab f.g (predOf f.d) mods gbF a7 (.ofCode f.b) cOpt
      else .mma f.g (predOf f.d) mods a7 (.ofCode f.b) cOpt)

/-- Class mtx (R245, R256). -/
def decodeMtx (c : DecCtx) (f : Fields) : Decoded :=
  let a := Opnd.ofCode f.a
  let b := Opnd.ofCode f.b
  -- SUB holds only W, in bit 5
  let w := f.sub.getLsbD 5
  let subIll := f.sub != 0 && f.sub != 0x20
  match f.op.toNat with
  | 0x00 => dMma c f false
  | 0x01 => dMma c f true
  | 0x02 => judge [!f.x, f.sub != 0, f.d != 0, f.b != 0, f.c != 0, f.imm == 0, decide (2048 < f.imm.toNat)]
      [c.badSrc f.a] (.mzero f.g a f.imm)
  | 0x03 => judge [subIll, f.b != 0, f.c != 0] [c.badDst f.d, c.badSrc f.a] (.mrd f.g w (.ofCode f.d) a f.imm)
  | 0x04 => judge [subIll, f.d != 0, f.c != 0] [c.badSrc f.a, c.badSrc f.b] (.mwr f.g w a b f.imm)
  | 0x05 => judge [f.sub != 0, f.d != 0, f.c != 0, f.imm != 0] [c.badSrc f.a, c.badSrc f.b] (.msts f.g a b)
  | 0x06 => judge [f.sub != 0, f.d != 0, f.c != 0, f.imm != 0] [c.badSrc f.a, c.badSrc f.b] (.mlds f.g a b)
  | _ => .error .illegalInstruction

/-- Class sfu (R83 to R86). -/
def decodeSfu (c : DecCtx) (f : Fields) : Decoded :=
  let d := Opnd.ofCode f.d
  let a := Opnd.ofCode f.a
  let b := Opnd.ofCode f.b
  let bad := f.f3 != 0 || f.rm != 0
  let intIll := f.s || f.f4 != 0 || f.i
  match f.op.toNat with
  | 0x00 => dFp1 c f bad (.rcp f.g f.i f.w d a)
  | 0x01 => dFp1 c f bad (.rsq f.g f.i f.w d a)
  | 0x02 => dFp1 c f (f.f3 != 0) (.sqrt f.g f.fp d a)
  | 0x03 => dFp2 c f (f.f3 != 0) (.div f.g f.fp d a b)
  | 0x04 => dFp1 c f bad (.exp2 f.g f.i f.w d a)
  | 0x05 => dFp1 c f bad (.log2 f.g f.i f.w d a)
  | 0x06 => dFp1 c f bad (.sin f.g f.i f.w d a)
  | 0x07 => dFp1 c f bad (.cos f.g f.i f.w d a)
  | 0x08 => judge [intIll, f.c != 0, f.imm != 0] [c.badDst f.d, c.badSrc f.a, c.badSrc f.b]
      (.idiv f.g f.u f.w d a b)
  | 0x09 => judge [intIll, f.c != 0, f.imm != 0] [c.badDst f.d, c.badSrc f.a, c.badSrc f.b]
      (.irem f.g f.u f.w d a b)
  | _ => .error .illegalInstruction

/-! ## Classes sync and sys -/

/-- `barv` and `barw` (R150). -/
def dBar (c : DecCtx) (f : Fields) (mk : Fin 16 → Option Src → Instr) : Decoded :=
  let zero := f.d == 0
  judge [f.sub != 0 && f.sub != 2, f.a != 0, f.c != 0,
      if zero then f.sub != 0 || f.b != 0 || f.imm != 0 else f.srcIll]
    [decide (15 < f.d.toNat), !zero && c.badB f]
    (mk (f.d.extractLsb' 0 4).toFin (if zero then none else some f.src))

/-- An address operand of a task instruction must be an x or s register (R259); a constant is outside
the page's limit and decodes as 0x01 (R439). -/
def taskAddrIll (code : Byte) : Bool := decide (200 ≤ code.toNat) && decide (code.toNat < 216)

/-- Class sync (R150 to R159, R259 to R266). -/
def decodeSync (c : DecCtx) (f : Fields) : Decoded :=
  let a := Opnd.ofCode f.a
  let b := Opnd.ofCode f.b
  let rest := f.sub != 0 || f.c != 0 || f.imm != 0
  match f.op.toNat with
  | 0x00 => dBar c f (.barv f.g)
  | 0x01 => dBar c f (.barw f.g)
  | 0x02 => judge [f.sub != 0 && f.sub != 8, f.a != 0, f.b != 0, f.c != 0, f.imm != 0] [decide (3 < f.d.toNat)]
      (.cbar f.g (f.sub == 8) (f.d.extractLsb' 0 2).toFin)
  | 0x03 => judge [f.sub != 0 && f.sub != 8, f.a != 0, f.b != 0, f.c != 0, f.imm != 0] [decide (1 < f.d.toNat)]
      (.gbar f.g (f.sub == 8) (f.d.extractLsb' 0 1).toFin)
  | 0x04 => judge [rest, f.d != 0, f.a != 0, f.b != 0] [] (.tsync f.g)
  | 0x10 => judge [f.sub != 0 && f.sub != 2, f.a != 0, f.c != 0, f.srcIll] [badPred f.d, c.badB f]
      (.kset f.g (predOf f.d) f.src)
  | 0x11 => judge [rest, f.a != 0, f.b != 0] [badPred f.d] (.kwait f.g (predOf f.d))
  | 0x12 => judge [!f.x, f.sub != 0, f.c != 0, f.d != 0, f.a != 0, f.b != 0, f.imm.extractLsb' 8 4 != 0] []
      (.kleave f.g (f.imm.extractLsb' 0 8))
  | 0x13 => judge [rest, f.a != 0, f.b != 0] [badPred f.d] (.ksign f.g (predOf f.d))
  | 0x18 =>
    let held := f.imm.getLsbD 7
    judge [!f.x, f.sub != 0, f.c != 0, f.a != 0, f.b != 0, f.imm.getLsbD 3, f.imm.extractLsb' 0 3 == 7,
        !held && f.imm.extractLsb' 8 4 != 0]
      [decide (128 ≤ f.d.toNat), decide (c.regs ≤ f.d.toNat + 7)]
      (.push f.g (.ofCode (f.imm.extractLsb' 0 3).toNat) (f.d.extractLsb' 0 7).toFin (f.imm.extractLsb' 4 3).toFin
        (if held then some (f.imm.extractLsb' 8 4).toFin else none))
  | 0x19 =>
    let clr := f.sub == 8
    judge [f.sub != 0 && !clr, f.b != 0, f.c != 0, f.imm != 0, clr && f.a != 0]
      [decide (15 < f.d.toNat), !clr && badPred f.a]
      (.gset f.g (f.d.extractLsb' 0 4).toFin (if clr then none else some (predOf f.a)))
  | 0x20 =>
    let w := f.imm.toNat
    judge [!f.x, f.sub != 0, f.c != 0, w == 0, decide (32 < w), taskAddrIll f.a]
      [badPred f.d, c.badSrc f.a, decide (128 ≤ f.b.toNat), decide (c.regs < f.b.toNat + w)]
      (.spawn f.g (predOf f.d) a (f.b.extractLsb' 0 7).toFin (Fin.ofNat 33 w))
  | 0x21 => judge [rest, f.b != 0, taskAddrIll f.a] [badPred f.d, c.badSrc f.a] (.csub f.g (predOf f.d) a)
  | 0x22 => judge [rest, f.d != 0, f.a != 0, f.b != 0] [] (.trig f.g)
  | 0x23 => judge [rest, f.d != 0, taskAddrIll f.a] [c.badSrc f.a, c.badSrc f.b] (.fres f.g a b)
  | 0x24 => judge [rest, f.d != 0, taskAddrIll f.a, taskAddrIll f.b] [c.badSrc f.a, c.badSrc f.b] (.freg f.g a b)
  | 0x25 => judge [rest, f.b != 0, taskAddrIll f.a] [c.badPair f.d, c.badSrc f.a] (.fpoll f.g (.ofCode f.d) a)
  | 0x26 => judge [rest, f.d != 0, taskAddrIll f.a] [c.badSrc f.a, c.badSrc f.b] (.ffail f.g a b)
  | _ => .error .illegalInstruction

/-- A guard where the page takes none (R304, R309). -/
def Fields.guarded (f : Fields) : Bool := f.gs || f.gp != 7

/-- Class sys (R304 to R317). -/
def decodeSys (c : DecCtx) (f : Fields) : Decoded :=
  let d := Opnd.ofCode f.d
  let a := Opnd.ofCode f.a
  let b := Opnd.ofCode f.b
  let f4 := f.f4
  let subF := f.s || f.u || f.i || f.w
  match f.op.toNat with
  | 0x00 => judge [!f.x, f.guarded, !c.alone, f.sub != 0, f.c != 0, f.d != 0, f.b != 0, f.a == 0, decide (16 < f.a.toNat)]
      [decide (c.regs < 8 * f.a.toNat)] (.regb (Fin.ofNat 17 f.a.toNat) f.imm)
  | 0x01 => judge [f.guarded, !c.alone, f.sub != 0, f.c != 0, f.imm != 0, f.d != 0, f.a != 0, f.b != 0] [] .regc
  | 0x02 => judge [f.guarded, f.sub != 0, f.c != 0, f.imm != 0, f.a != 0, f.b != 0] [c.badDst f.d] (.regq d)
  | 0x08 => judge [!f.x, f.sub != 0, f.c != 0, f.d != 0, f.a != 0, f.b != 0] [] (.trap f.g f.imm)
  | 0x09 => judge [f.guarded, !c.alone, f.sub != 0, f.c != 0, f.imm != 0, f.d != 0, f.a != 0, f.b != 0] [] .eret
  | 0x0A => judge [!f.x, f.sub != 0, f.c != 0, f.a != 0, f.b != 0] [c.badDst f.d, decide (7 < f.imm.toNat)]
      (.csrr f.g d f.imm)
  | 0x0B => judge [!f.x, f.sub != 0, f.c != 0, f.d != 0, f.b != 0] [c.badSrc f.a, decide (7 < f.imm.toNat)]
      (.csrw f.g a f.imm)
  | 0x0C => judge [f.sub != 0, f.c != 0, f.imm != 0, f.b != 0] [badPred f.d, c.badSrc f.a] (.pchk f.g (predOf f.d) a)
  | 0x0D => judge [!f.x, f.sub != 0, f.c != 0, f.d != 0, f.a != 0, f.b != 0] [] (.brk f.g f.imm)
  | 0x20 =>
    if f4 == 2 then judge [!c.priv, subF, f.d != 0, f.c != 0, f.imm != 0, f.a != 0, f.b != 0] [] (.tlbiAll f.g)
    else judge [!c.priv, subF, decide (2 < f4), f.d != 0, f.c != 0, f.imm != 0] [c.badSrc f.a, c.badSrc f.b]
      (if f4 == 0 then .tlbiVa f.g a b else .tlbiFrame f.g a b)
  | 0x21 =>
    if f4 == 1 then judge [!c.priv, subF, f.d != 0, f.c != 0, f.imm != 0, f.a != 0, f.b != 0] [] (.btinvAll f.g)
    else judge [!c.priv, subF, f4 != 0, f.d != 0, f.c != 0, f.imm != 0] [c.badSrc f.a, c.badSrc f.b] (.btinv f.g a b)
  | 0x22 =>
    let w := f.imm.extractLsb' 0 2
    if f4 == 1 then judge [!c.priv, subF, f.c != 0, f.imm.extractLsb' 2 10 != 0]
      [badPred f.d, c.badSrc f.a, c.badSrc f.b] (.qctlWr f.g (predOf f.d) a b w)
    else judge [!c.priv, subF, f4 != 0, f.b != 0, f.c != 0, f.imm.extractLsb' 2 10 != 0]
      [c.badDst f.d, c.badSrc f.a] (.qctlRd f.g d a w)
  | _ => .error .illegalInstruction

/-- The instruction of a base word's and an extension word's fields, in its class (R32). -/
def decodeFields (c : DecCtx) (f : Fields) : Decoded :=
  match c.cls with
  | 0 =>
    if f.op.toNat < 0x20 then decodeInt c f
    else if f.op.toNat < 0x30 then decodeMove c f
    else if f.op.toNat < 0x40 then decodeFp c f
    else if f.op.toNat < 0x60 then decodeLane c f
    else decodeCtl c f
  | 1 => decodeMem c f
  | 2 => decodeMtx c f
  | 3 => decodeSfu c f
  | 4 => decodeSync c f
  | 5 => decodeSys c f
  | _ => .error .illegalHeader

/-- The instruction of a base word `w` and the word `e` after it (R21, R22). -/
def decode (c : DecCtx) (w e : W32) : Decoded := decodeFields c (.ofWords w e)

/-! ## Clauses (R10, R11) -/

/-- A clause header (R10). -/
structure Header where
  n : Nat
  cls : Nat
  wait : BitVec 12
  seta : Nat
  setb : Nat
  yield : Bool
  reserved : BitVec 4
  deriving DecidableEq, Repr

/-- The fields of a header word (R10). -/
def Header.ofWord (w : W32) : Header :=
  { n := (w.extractLsb' 28 4).toNat
    cls := (w.extractLsb' 25 3).toNat
    wait := w.extractLsb' 13 12
    seta := (w.extractLsb' 9 4).toNat
    setb := (w.extractLsb' 5 4).toNat
    yield := w.getLsbD 4
    reserved := w.extractLsb' 0 4 }

/-- The faults of a header by itself (R11). -/
def Header.bad (h : Header) : Bool :=
  h.n == 0 || decide (5 < h.cls) || (decide (12 ≤ h.seta) && h.seta != 15)
    || (decide (12 ≤ h.setb) && h.setb != 15) || h.reserved != 0

/-- Some base word calls for an extension word beyond the last (R11); `fuel` bounds the words. -/
def extMissing : List W32 → Bool
  | [] => false
  | [w] => w.getLsbD 31
  | w :: e :: rest => if w.getLsbD 31 then extMissing rest else extMissing (e :: rest)

/-- The positions, 1 upward, and words of a clause's instructions: base word, extension word. -/
def splitWords : Nat → List W32 → List (Nat × W32 × W32)
  | _, [] => []
  | p, [w] => [(p, w, 0)]
  | p, w :: e :: rest =>
    if w.getLsbD 31 then (p, w, e) :: splitWords (p + 2) rest else (p, w, 0) :: splitWords (p + 1) (e :: rest)

/-- The decoding context of the instruction at position `p` of a clause of `n` words. -/
def DecCtx.at (c : DecCtx) (n p : Nat) (w : W32) : DecCtx :=
  let len := if w.getLsbD 31 then 2 else 1
  { c with last := decide (p + len = n + 1), alone := decide (p = 1 ∧ p + len = n + 1) }

/-- Decode the instructions in order; the first that does not decode names the position (R439). -/
def decodeList (c : DecCtx) (n : Nat) : List (Nat × W32 × W32) → Except (Reject × Nat) (List (Nat × Instr))
  | [] => .ok []
  | (p, w, e) :: rest =>
    match decode (c.at n p w) w e with
    | .error r => .error (r, p)
    | .ok i =>
      match decodeList c n rest with
      | .error r => .error r
      | .ok is => .ok ((p, i) :: is)

/-- Decode a whole clause: its header, then each instruction at its position (R11, R439). -/
def decodeClause (c : DecCtx) (h : Header) (words : List W32) : Except (Reject × Nat) (List (Nat × Instr)) :=
  if h.bad || extMissing words then .error (.illegalHeader, 0)
  else decodeList { c with cls := h.cls } words.length (splitWords 1 words)

/-! ## The encoder -/

/-- Fields with nothing used: the defaults of R22. -/
def Fields.none (op : BitVec 7) : Fields :=
  ⟨false, op, 0, 0, 0, false, 7, 0, 0, 0, 0⟩

/-- The fields of an instruction with its guard, operand codes, C, SUB and IMM12. -/
def mk (op : BitVec 7) (g : Guard) (d a b c sub : Byte) (imm : BitVec 12) : Fields :=
  { Fields.none op with d := d, a := a, b := b, gs := g.neg, gp := BitVec.ofFin g.p, c := c, sub := sub, imm := imm }

/-- SUB of the integer and lane families (R34). -/
def subInt (s : Bool) (f4 : Nat) (u i w : Bool) : Byte :=
  BitVec.ofBool s ++ BitVec.ofNat 4 f4 ++ BitVec.ofBool u ++ BitVec.ofBool i ++ BitVec.ofBool w

/-- SUB of the FP family (R34). -/
def subFp (f3 : Nat) (rm : BitVec 3) (z p : Bool) : Byte :=
  BitVec.ofNat 3 f3 ++ rm ++ BitVec.ofBool z ++ BitVec.ofBool p

/-- SUB of an FP family instruction from its modifiers (R34). -/
def FpMod.sub (m : FpMod) (f3 : Nat) : Byte := subFp f3 m.rm.bits m.ftz m.single

/-- SUB of the mem family (R34). -/
def subMem (o : Ord) (sz : BitVec 3) : Byte := o.scope.bits ++ o.order.bits ++ sz

/-- The code of a predicate field. -/
def pcode (p : Fin 8) : Byte := BitVec.ofNat 8 p.val

/-- B of a second source (R30). -/
def Src.code : Src → Byte
  | .opnd o => o.code
  | .imm _ => 0

/-- IMM12 of a second source (R30). -/
def Src.immv : Src → BitVec 12
  | .opnd _ => 0
  | .imm v => v

/-- The I bit of a second source (R30). -/
def Src.isImm : Src → Bool
  | .opnd _ => false
  | .imm _ => true

/-- The integer and lane families: a destination, A, and B or an immediate. -/
def eInt (op : BitVec 7) (g : Guard) (s : Bool) (f4 : Nat) (u w : Bool) (d a : Byte) (b : Src) (c : Byte) : Fields :=
  mk op g d a b.code c (subInt s f4 u b.isImm w) b.immv

/-- The integer and lane families: A alone. -/
def eUn (op : BitVec 7) (g : Guard) (s : Bool) (f4 : Nat) (u w : Bool) (d a : Byte) : Fields :=
  mk op g d a 0 0 (subInt s f4 u false w) 0

/-- F of the byte-lane instructions (R51). -/
def laneF (l16 : Bool) (f : Nat) : Nat := if l16 then 8 + f else f

/-- The modifier byte of plain loads and stores (R94). -/
def memMod (clr fe rep sx : Bool) : Byte :=
  (0 : BitVec 4) ++ BitVec.ofBool clr ++ BitVec.ofBool fe ++ BitVec.ofBool rep ++ BitVec.ofBool sx

/-- The modifier byte of element accesses (R229). -/
def elemMod (f : EFmt) (out : Nat) (sx : Bool) : Byte :=
  BitVec.ofNat 4 f.code ++ BitVec.ofNat 2 out ++ (0 : BitVec 1) ++ BitVec.ofBool sx

/-- A memory access with the operand `r`. -/
def eMem (op : BitVec 7) (g : Guard) (d : Byte) (r : MemRef) (c sub : Byte) : Fields :=
  mk op g d r.base.code r.idx.code c sub r.off

/-- `mma` and `mmab` (R245). -/
def eMma (op : BitVec 7) (g : Guard) (k : Fin 8) (m : MmaMod) (gb : Nat) (a : Fin 128) (b : Opnd)
    (c : Option (Fin 128)) : Fields :=
  mk op g (pcode k) (BitVec.ofNat 8 a.val) b.code (match c with | some r => BitVec.ofNat 8 r.val | none => 200)
    (BitVec.ofBool m.set ++ BitVec.ofNat 2 m.lb.val ++ BitVec.ofBool m.ra ++ BitVec.ofNat 4 m.fmt.code)
    (BitVec.ofBool m.fec ++ BitVec.ofBool m.few ++ BitVec.ofNat 2 gb ++ m.ar)

/-- The operation word of `atom` and `red` (R136). -/
def atomWord (op : AtomOp) (ps : Fin 8) : BitVec 12 :=
  (0 : BitVec 3) ++ (BitVec.ofFin ps : BitVec 3) ++ (0 : BitVec 1) ++ BitVec.ofNat 5 op.code

/-- The guard of an instruction that takes none: p7 (R22). -/
def noGuard : Guard := ⟨false, 7⟩

/-- An I-form instruction: the literal is the whole extension word (R24). -/
def eLit (op : BitVec 7) (d : Byte) (v : W32) : Fields :=
  { Fields.none op with
    x := true, d := d, gs := v.getLsbD 31, gp := v.extractLsb' 28 3, c := v.extractLsb' 20 8,
    sub := v.extractLsb' 12 8, imm := v.extractLsb' 0 12, lit := v }

/-- The SIZE code of an atomic (R136). -/
def atomSize (wide : Bool) : BitVec 3 := if wide then 3 else 2

/-- Class, whether the page requires the extension word, and the fields of an instruction word; none for
the rows that are no words. -/
def Instr.fields : Instr → Option (Nat × Bool × Fields)
  | .iadd g s u w d a b => some (0, false, eInt 0x00 g s 0 u w d.code a.code b 0)
  | .isub g s u w d a b => some (0, false, eInt 0x01 g s 0 u w d.code a.code b 0)
  | .imul g s u w d a b => some (0, false, eInt 0x02 g s 0 u w d.code a.code b 0)
  | .imulh g u w d a b => some (0, false, eInt 0x03 g false 0 u w d.code a.code b 0)
  | .imad g s u w d a b c => some (0, true, eInt 0x04 g s 0 u w d.code a.code b c.code)
  | .imin g u w d a b => some (0, false, eInt 0x05 g false 0 u w d.code a.code b 0)
  | .imax g u w d a b => some (0, false, eInt 0x06 g false 0 u w d.code a.code b 0)
  | .iabs g s w d a => some (0, false, eUn 0x07 g s 0 false w d.code a.code)
  | .and g u w d a b => some (0, false, eInt 0x08 g false 0 u w d.code a.code b 0)
  | .or g u w d a b => some (0, false, eInt 0x09 g false 0 u w d.code a.code b 0)
  | .xor g u w d a b => some (0, false, eInt 0x0A g false 0 u w d.code a.code b 0)
  | .andn g u w d a b => some (0, false, eInt 0x0B g false 0 u w d.code a.code b 0)
  | .shl g u w d a b => some (0, false, eInt 0x0C g false 0 u w d.code a.code b 0)
  | .shr g u w d a b => some (0, false, eInt 0x0D g false 0 u w d.code a.code b 0)
  | .sar g u w d a b => some (0, false, eInt 0x0E g false 0 u w d.code a.code b 0)
  | .rot g u w d a b => some (0, false, eInt 0x0F g false 0 u w d.code a.code b 0)
  | .funl g u w d a b c => some (0, true, eInt 0x10 g false 0 u w d.code a.code b c.code)
  | .bfx g u w d a pos len => some (0, true, mk 0x11 g d.code a.code 0 0 (subInt false 0 u false w) (len ++ pos))
  | .bfi g u w d a b pos len => some (0, true, mk 0x12 g d.code a.code b.code 0 (subInt false 0 u false w) (len ++ pos))
  | .popc g u w d a => some (0, false, eUn 0x13 g false 0 u w d.code a.code)
  | .clz g u w d a => some (0, false, eUn 0x14 g false 0 u w d.code a.code)
  | .ctz g u w d a => some (0, false, eUn 0x15 g false 0 u w d.code a.code)
  | .brev g u w d a => some (0, false, eUn 0x16 g false 0 u w d.code a.code)
  | .permb g u w d a b => some (0, false, eInt 0x17 g false 0 u w d.code a.code b 0)
  | .nibl g hi u w d a b => some (0, false, mk 0x18 g d.code a.code b.code 0 (subInt false (if hi then 1 else 0) u false w) 0)
  | .icmp g c u w d a b => some (0, false, eInt 0x19 g false c.code u w (pcode d) a.code b 0)
  | .badd g s l u w d a b => some (0, false, eInt 0x1A g s (laneF l 0) u w d.code a.code b 0)
  | .bsub g s l u w d a b => some (0, false, eInt 0x1B g s (laneF l 0) u w d.code a.code b 0)
  | .bcmp g c l u w d a b => some (0, false, eInt 0x1C g false (laneF l c.code) u w d.code a.code b 0)
  | .bmaxu g l u w d a b => some (0, false, eInt 0x1D g false (laneF l 0) u w d.code a.code b 0)
  | .bmsk g l u w d a => some (0, false, eUn 0x1E g false (laneF l 0) u w d.code a.code)
  | .mov g u w d a => some (0, false, eUn 0x20 g false 0 u w d.code a.code)
  | .movi g u w d v => some (0, true, eInt 0x21 g false 0 u w d.code 0 (.imm v) 0)
  | .ldi d v => some (0, true, eLit 0x22 d.code v)
  | .ldih d v => some (0, true, eLit 0x23 d.code v)
  | .sel g u w d a b c => some (0, true, eInt 0x24 g false 0 u w d.code a.code b (pcode c))
  | .pset g op d a b => some (0, false, mk 0x25 g (pcode d) (pcode a) (pcode b) 0 (subInt false op.code false false false) 0)
  | .pmovGet g d => some (0, false, mk 0x26 g d.code 0 0 0 0 0)
  | .pmovPut g a b => some (0, false, eInt 0x26 g false 1 false false 0 a.code b 0)
  | .srd g d n => some (0, true, mk 0x27 g d.code 0 0 0 0 n)
  | .swr g a n => some (0, true, mk 0x28 g 0 a.code 0 0 0 n)
  | .tset g b => some (0, false, eInt 0x29 g false 0 false false 0 0 b 0)
  | .mka g d a b => some (0, false, eInt 0x2A g false 0 false false d.code a.code b 0)
  | .adda g d a b => some (0, false, eInt 0x2B g false 0 false false d.code a.code b 0)
  | .sext g d a b => some (0, false, eInt 0x2C g false 0 false false d.code a.code b 0)
  | .zext g d a b => some (0, false, eInt 0x2D g false 0 false false d.code a.code b 0)
  | .fadd g m d a b => some (0, false, mk 0x30 g d.code a.code b.code 0 (m.sub 0) 0)
  | .fsub g m d a b => some (0, false, mk 0x31 g d.code a.code b.code 0 (m.sub 0) 0)
  | .fmul g m d a b => some (0, false, mk 0x32 g d.code a.code b.code 0 (m.sub 0) 0)
  | .ffma g m d a b c => some (0, true, mk 0x33 g d.code a.code b.code c.code (m.sub 0) 0)
  | .fmin g n z p d a b => some (0, false, mk 0x34 g d.code a.code b.code 0 (subFp (if n then 1 else 0) 0 z p) 0)
  | .fmax g n z p d a b => some (0, false, mk 0x35 g d.code a.code b.code 0 (subFp (if n then 1 else 0) 0 z p) 0)
  | .fcmp g c z p d a b => some (0, false, mk 0x36 g (pcode d) a.code b.code 0 (subFp c.code 0 z p) 0)
  | .fclass g z p d a => some (0, false, mk 0x37 g d.code a.code 0 0 (subFp 0 0 z p) 0)
  | .frint g x m d a => some (0, false, mk 0x38 g d.code a.code 0 0 (m.sub (if x then 1 else 0)) 0)
  | .fcvt g f m d a => some (0, false, mk 0x39 g d.code a.code 0 0 (m.sub f.code) 0)
  | .fscale g m d a b => some (0, false, mk 0x3A g d.code a.code b.code 0 (m.sub 0) 0)
  | .fexpo g mant z p d a => some (0, false, mk 0x3B g d.code a.code 0 0 (subFp (if mant then 1 else 0) 0 z p) 0)
  | .f2sum g p d a b => some (0, false, mk 0x3C g d.code a.code b.code 0 (subFp 0 0 false p) 0)
  | .f2prod g p d a b => some (0, false, mk 0x3D g d.code a.code b.code 0 (subFp 0 0 false p) 0)
  | .fpack g bf m d a b => some (0, false, mk 0x3E g d.code a.code b.code 0 (m.sub (if bf then 1 else 0)) 0)
  | .funpk g bf hi z p d a =>
    some (0, false, mk 0x3F g d.code a.code 0 0 (subFp ((if bf then 1 else 0) + (if hi then 2 else 0)) 0 z p) 0)
  | .shfl g m d a b => some (0, false, eInt 0x50 g false m.code false false d.code a.code b 0)
  | .vote g (.any p) a => some (0, false, mk 0x51 g (pcode p) (pcode a) 0 0 0 0)
  | .vote g (.all p) a => some (0, false, mk 0x51 g (pcode p) (pcode a) 0 0 8 0)
  | .vote g (.bal d) a => some (0, false, mk 0x51 g d.code (pcode a) 0 0 16 0)
  | .matchL g w d a => some (0, false, eUn 0x52 g false 0 false w d.code a.code)
  | .redl g op u w d a => some (0, false, eUn 0x53 g false op.code u w d.code a.code)
  | .scanl g op x u w d a => some (0, false, eUn 0x54 g false (laneF x op.code) u w d.code a.code)
  | .first g d a => some (0, false, eUn 0x55 g false 0 false false d.code a.code)
  | .bra g o => some (0, false, mk 0x60 g 0 (o.extractLsb' 8 8) (o.extractLsb' 0 8) 0 0 0)
  | .bany g p o => some (0, false, mk 0x61 g (pcode p) (o.extractLsb' 8 8) (o.extractLsb' 0 8) 0 0 0)
  | .ball g p o => some (0, false, mk 0x62 g (pcode p) (o.extractLsb' 8 8) (o.extractLsb' 0 8) 0 0 0)
  | .bnone g p o => some (0, false, mk 0x63 g (pcode p) (o.extractLsb' 8 8) (o.extractLsb' 0 8) 0 0 0)
  | .jmpr g a => some (0, false, mk 0x64 g 0 a.code 0 0 0 0)
  | .call g o => some (0, false, mk 0x65 g 0 (o.extractLsb' 8 8) (o.extractLsb' 0 8) 0 0 0)
  | .callr g a => some (0, false, mk 0x66 g 0 a.code 0 0 0 0)
  | .ret g => some (0, false, mk 0x67 g 0 0 0 0 0 0)
  | .exit g => some (0, false, mk 0x68 g 0 0 0 0 0 0)
  | .fork g d a o => some (0, true, mk 0x69 g d.code a.code 0 0 0 o)
  | .nop g => some (0, false, mk 0x6A g 0 0 0 0 0 0)
  | .yld g => some (0, false, mk 0x6B g 0 0 0 0 0 0)
  | .ld g m d r => some (1, false, eMem 0x00 g d.code r (memMod m.clr m.fe m.rep m.sx) (subMem m.ord m.sz.bits))
  | .st g sz o fe d r => some (1, false, eMem 0x01 g d.code r (memMod false fe false false) (subMem o sz.bits))
  | .ldx g k o f out d r => some (1, true, eMem 0x02 g d.code r (elemMod f out.code false) (subMem o k.bits))
  | .lde g k o f sx d r => some (1, true, eMem 0x03 g d.code r (elemMod f 0 sx) (subMem o k.bits))
  | .ste g k o f d r => some (1, true, eMem 0x04 g d.code r (elemMod f 0 false) (subMem o k.bits))
  | .pld g sz rep r => some (1, false, eMem 0x05 g 0 r (memMod false false rep false) (subMem ⟨.none, .team⟩ sz.bits))
  | .atom g wide o op ps d a b c =>
    some (1, true, mk 0x10 g d.code a.code b.code c.code (subMem o (atomSize wide)) (atomWord op ps))
  | .red g wide o op a b => some (1, true, mk 0x11 g 0 a.code b.code 0 (subMem o (atomSize wide)) (atomWord op 0))
  | .fence g o => some (1, true, mk 0x20 g 0 0 0 0 (subMem o 0) 0)
  | .cwb g sz s r => some (1, false, eMem 0x21 g 0 r 0 (subMem ⟨.none, s⟩ sz.bits))
  | .cinv g sz s r => some (1, false, eMem 0x22 g 0 r 0 (subMem ⟨.none, s⟩ sz.bits))
  | .feset g a n o => some (1, false, mk 0x28 g 0 a.code n.code 0 0 o)
  | .feclr g a n o => some (1, false, mk 0x29 g 0 a.code n.code 0 0 o)
  | .feqry g d a o => some (1, false, mk 0x2A g d.code a.code 0 0 0 o)
  | .sld g o d r => some (1, true, eMem 0x30 g d.code r 0 (subMem o 3))
  | .sldx g o d r c => some (1, true, eMem 0x31 g d.code r c.code (subMem o 3))
  | .sst g o q d a b c =>
    some (1, true, mk 0x32 g d.code a.code b.code c.code (subMem o 3) ((0 : BitVec 11) ++ BitVec.ofBool q))
  | .srec g o op force ps d a b c =>
    some (1, true, mk 0x33 g d.code a.code b.code (match c with | some r => r.code | none => 0) (subMem o 3)
      ((0 : BitVec 3) ++ (BitVec.ofFin ps : BitVec 3) ++ BitVec.ofBool force ++ BitVec.ofBool c.isSome ++ (0 : BitVec 1)
        ++ BitVec.ofNat 3 op.code))
  | .mma g k m a b c => some (2, true, eMma 0x00 g k m 0 a b c)
  | .mmab g k m gb a b c => some (2, true, eMma 0x01 g k m gb.val a b c)
  | .mzero g a n => some (2, true, mk 0x02 g 0 a.code 0 0 0 n)
  | .mrd g w d a o => some (2, false, mk 0x03 g d.code a.code 0 0 (if w then 0x20 else 0) o)
  | .mwr g w a b o => some (2, false, mk 0x04 g 0 a.code b.code 0 (if w then 0x20 else 0) o)
  | .msts g a b => some (2, false, mk 0x05 g 0 a.code b.code 0 0 0)
  | .mlds g a b => some (2, false, mk 0x06 g 0 a.code b.code 0 0 0)
  | .rcp g z p d a => some (3, false, mk 0x00 g d.code a.code 0 0 (subFp 0 0 z p) 0)
  | .rsq g z p d a => some (3, false, mk 0x01 g d.code a.code 0 0 (subFp 0 0 z p) 0)
  | .sqrt g m d a => some (3, false, mk 0x02 g d.code a.code 0 0 (m.sub 0) 0)
  | .div g m d a b => some (3, false, mk 0x03 g d.code a.code b.code 0 (m.sub 0) 0)
  | .exp2 g z p d a => some (3, false, mk 0x04 g d.code a.code 0 0 (subFp 0 0 z p) 0)
  | .log2 g z p d a => some (3, false, mk 0x05 g d.code a.code 0 0 (subFp 0 0 z p) 0)
  | .sin g z p d a => some (3, false, mk 0x06 g d.code a.code 0 0 (subFp 0 0 z p) 0)
  | .cos g z p d a => some (3, false, mk 0x07 g d.code a.code 0 0 (subFp 0 0 z p) 0)
  | .idiv g u w d a b => some (3, false, mk 0x08 g d.code a.code b.code 0 (subInt false 0 u false w) 0)
  | .irem g u w d a b => some (3, false, mk 0x09 g d.code a.code b.code 0 (subInt false 0 u false w) 0)
  | .barv g b none => some (4, false, mk 0x00 g (BitVec.ofNat 8 b.val) 0 0 0 0 0)
  | .barv g b (some n) => some (4, false, eInt 0x00 g false 0 false false (BitVec.ofNat 8 b.val) 0 n 0)
  | .barw g b none => some (4, false, mk 0x01 g (BitVec.ofNat 8 b.val) 0 0 0 0 0)
  | .barw g b (some n) => some (4, false, eInt 0x01 g false 0 false false (BitVec.ofNat 8 b.val) 0 n 0)
  | .cbar g arv n => some (4, false, mk 0x02 g (BitVec.ofNat 8 n.val) 0 0 0 (if arv then 8 else 0) 0)
  | .gbar g arv n => some (4, false, mk 0x03 g (BitVec.ofNat 8 n.val) 0 0 0 (if arv then 8 else 0) 0)
  | .tsync g => some (4, false, mk 0x04 g 0 0 0 0 0 0)
  | .kset g k n => some (4, false, eInt 0x10 g false 0 false false (pcode k) 0 n 0)
  | .kwait g k => some (4, false, mk 0x11 g (pcode k) 0 0 0 0 0)
  | .kleave g m => some (4, true, mk 0x12 g 0 0 0 0 0 ((0 : BitVec 4) ++ m))
  | .ksign g k => some (4, false, mk 0x13 g (pcode k) 0 0 0 0 0)
  | .push g q n pf slot =>
    some (4, true, mk 0x18 g (BitVec.ofNat 8 n.val) 0 0 0 0
      ((match slot with | some s => (BitVec.ofFin s : BitVec 4) | none => (0 : BitVec 4)) ++ BitVec.ofBool slot.isSome
        ++ (BitVec.ofFin pf : BitVec 3) ++ (0 : BitVec 1) ++ BitVec.ofNat 3 q.code))
  | .gset g n (some p) => some (4, false, mk 0x19 g (BitVec.ofNat 8 n.val) (pcode p) 0 0 0 0)
  | .gset g n none => some (4, false, mk 0x19 g (BitVec.ofNat 8 n.val) 0 0 0 8 0)
  | .spawn g p a b w => some (4, true, mk 0x20 g (pcode p) a.code (BitVec.ofNat 8 b.val) 0 0 (BitVec.ofNat 12 w.val))
  | .csub g p a => some (4, false, mk 0x21 g (pcode p) a.code 0 0 0 0)
  | .trig g => some (4, false, mk 0x22 g 0 0 0 0 0 0)
  | .fres g a b => some (4, false, mk 0x23 g 0 a.code b.code 0 0 0)
  | .freg g a b => some (4, false, mk 0x24 g 0 a.code b.code 0 0 0)
  | .fpoll g d a => some (4, false, mk 0x25 g d.code a.code 0 0 0 0)
  | .ffail g a b => some (4, false, mk 0x26 g 0 a.code b.code 0 0 0)
  | .regb n tag => some (5, true, mk 0x00 noGuard 0 (BitVec.ofNat 8 n.val) 0 0 0 tag)
  | .regc => some (5, false, mk 0x01 noGuard 0 0 0 0 0 0)
  | .regq d => some (5, false, mk 0x02 noGuard d.code 0 0 0 0 0)
  | .trap g c => some (5, true, mk 0x08 g 0 0 0 0 0 c)
  | .eret => some (5, false, mk 0x09 noGuard 0 0 0 0 0 0)
  | .csrr g d n => some (5, true, mk 0x0A g d.code 0 0 0 0 n)
  | .csrw g a n => some (5, true, mk 0x0B g 0 a.code 0 0 0 n)
  | .pchk g p a => some (5, false, mk 0x0C g (pcode p) a.code 0 0 0 0)
  | .brk g c => some (5, true, mk 0x0D g 0 0 0 0 0 c)
  | .tlbiVa g a b => some (5, false, mk 0x20 g 0 a.code b.code 0 0 0)
  | .tlbiFrame g a b => some (5, false, mk 0x20 g 0 a.code b.code 0 8 0)
  | .tlbiAll g => some (5, false, mk 0x20 g 0 0 0 0 16 0)
  | .btinv g a b => some (5, false, mk 0x21 g 0 a.code b.code 0 0 0)
  | .btinvAll g => some (5, false, mk 0x21 g 0 0 0 0 8 0)
  | .qctlRd g d a w => some (5, true, mk 0x22 g d.code a.code 0 0 0 ((0 : BitVec 10) ++ w))
  | .qctlWr g p a b w => some (5, true, mk 0x22 g (pcode p) a.code b.code 0 8 ((0 : BitVec 10) ++ w))
  | _ => none

/-- The shortest words of the fields: an extension word when required or when a field it holds is not at
its default (R22, R36). -/
def Fields.words (req : Bool) (f : Fields) : List W32 :=
  if req || f.gs || f.gp != 7 || f.c != 0 || f.sub != 0 || f.imm != 0 then
    [{ f with x := true }.base, f.ext]
  else [{ f with x := false }.base]

/-- The words of an instruction; none for a row that is no word. -/
def encode (i : Instr) : List W32 :=
  match i.fields with
  | some (_, req, f) => f.words req
  | none => []

/-- The class of an instruction word (R32). -/
def Instr.cls (i : Instr) : Option Nat := i.fields.map (·.1)

/-- The context in which a word of class `cls` may stand anywhere its page allows. -/
def openCtx (cls : Nat) : DecCtx := ⟨cls, 128, 2048, true, true, true⟩

/-- The first class, in the order of R10, in which the words decode. -/
def decodeAnyClass (w e : W32) : List Nat → Option Instr
  | [] => none
  | c :: cs =>
    match decode (openCtx c) w e with
    | .ok i => some i
    | .error _ => decodeAnyClass w e cs

/-- The instruction of a word of `nbits` bits, as the opcode table numbers them: bits 31..0 the base word,
bits 63..32 the extension word. The word does not say its class (R32): the classes are tried in order. -/
def decodeTableWord (nbits w : Nat) : Option Instr :=
  let v := w % 2 ^ nbits
  decodeAnyClass (BitVec.ofNat 32 v) (BitVec.ofNat 32 (v / 2 ^ 32)) [0, 1, 2, 3, 4, 5]

end Sys2Proof
end

