-- ==== Sys2Proof/Machine/Tables.lean ====
section
/-! DEFINITION. Sparse tables, sorted sets and memory in their canonical forms, and little-endian words
over bytes. -/

namespace Sys2Proof

/-- The entry of a key, the default when unlisted. -/
def NMap.get [Inhabited α] : NMap α → Nat → α
  | [], _ => default
  | (j, v) :: m, k => if j = k then v else NMap.get m k

/-- A listed entry. -/
def NMap.find : NMap α → Nat → Option α
  | [], _ => none
  | (j, v) :: m, k => if j = k then some v else NMap.find m k

/-- The table without a key. -/
def NMap.del : NMap α → Nat → NMap α
  | [], _ => []
  | (j, v) :: m, k => if j = k then NMap.del m k else (j, v) :: NMap.del m k

/-- The table with a key listed, keys kept rising. -/
def NMap.put : NMap α → Nat → α → NMap α
  | [], k, v => [(k, v)]
  | (j, u) :: m, k, v =>
    if k < j then (k, v) :: (j, u) :: m
    else if k = j then (k, v) :: m
    else (j, u) :: NMap.put m k v

/-- The table with a key's value set; the default value unlists it. -/
def NMap.set [DecidableEq α] [Inhabited α] (m : NMap α) (k : Nat) (v : α) : NMap α :=
  if v = default then NMap.del m k else NMap.put m k v

/-- The table with a key's value changed. -/
def NMap.mod [DecidableEq α] [Inhabited α] (m : NMap α) (k : Nat) (f : α → α) : NMap α :=
  NMap.set m k (f (NMap.get m k))

/-- Keys strictly rising from above `lo`, no default listed. -/
def NMap.wfFrom [DecidableEq α] [Inhabited α] : Option Nat → NMap α → Bool
  | _, [] => true
  | lo, (j, v) :: m =>
    (match lo with | none => true | some l => decide (l < j)) && decide (v ≠ default) && NMap.wfFrom (some j) m

/-- The canonical form of a table. -/
def NMap.wf [DecidableEq α] [Inhabited α] (m : NMap α) : Bool := NMap.wfFrom none m

namespace Machine

/-! ## Sets of numbers, strictly rising -/

def setHas (l : List Nat) (k : Nat) : Bool := l.contains k

def setAdd : List Nat → Nat → List Nat
  | [], k => [k]
  | j :: l, k => if k < j then k :: j :: l else if k = j then j :: l else j :: setAdd l k

def setDel : List Nat → Nat → List Nat
  | [], _ => []
  | j :: l, k => if j = k then setDel l k else j :: setDel l k

def setPut (l : List Nat) (k : Nat) (b : Bool) : List Nat := if b then setAdd l k else setDel l k

/-- Strictly rising from above `lo`. -/
def setWfFrom : Option Nat → List Nat → Bool
  | _, [] => true
  | lo, j :: l => (match lo with | none => true | some m => decide (m < j)) && setWfFrom (some j) l

/-! ## Memory -/

/-- The numbers `a` to `a + n − 1`. -/
def span (a n : Nat) : List Nat := (List.range n).map (a + ·)

/-- The canonical form of a memory: cells strictly rising with no 0 listed, poisoned words rising. -/
def Memory.wf (m : Memory) : Bool := NMap.wf (α := Byte) m.cells && setWfFrom none m.poison

def Memory.empty : Memory := ⟨[], []⟩

/-- The byte at an address; an unlisted byte reads 0. -/
def Memory.byte (m : Memory) (a : Nat) : Byte := NMap.get (α := Byte) m.cells a

/-- The memory with a byte set. -/
def Memory.setByte (m : Memory) (a : Nat) (b : Byte) : Memory :=
  { m with cells := NMap.set (α := Byte) m.cells a b }

/-- Poison of the 8-byte word holding an address (R377). -/
def Memory.pois (m : Memory) (a : Nat) : Bool := setHas m.poison (a / 8)

/-- The memory with the poison of the word holding an address set or cleared. -/
def Memory.setPois (m : Memory) (a : Nat) (p : Bool) : Memory :=
  { m with poison := setPut m.poison (a / 8) p }

/-- The memory without the bytes, and the poison of the words, whose addresses a test does not keep. -/
def Memory.keep (m : Memory) (p : Nat → Bool) : Memory :=
  ⟨m.cells.filter fun c => p c.1, m.poison.filter fun w => p (8 * w)⟩

/-- The number whose little-endian bytes are these. -/
def leNat : List Byte → Nat
  | [] => 0
  | b :: bs => b.toNat + 256 * leNat bs

/-- The `n` little-endian bytes of a number. -/
def leBytes : Nat → Nat → List Byte
  | 0, _ => []
  | n + 1, v => BitVec.ofNat 8 v :: leBytes n (v / 256)

/-- The `n` bytes from an address. -/
def Memory.bytes (m : Memory) (a n : Nat) : List Byte := (span a n).map m.byte

/-- The `n` bytes from an address as a number. -/
def Memory.nat (m : Memory) (a n : Nat) : Nat := leNat (m.bytes a n)

/-- The 8-byte word at an address. -/
def Memory.word (m : Memory) (a : Nat) : Word := BitVec.ofNat 64 (m.nat a 8)

/-- The memory with consecutive bytes set. -/
def Memory.setBytes (m : Memory) : Nat → List Byte → Memory
  | _, [] => m
  | a, b :: bs => Memory.setBytes (m.setByte a b) (a + 1) bs

/-- The addresses of the 8-byte words that bytes `a` to `a + n − 1` touch. -/
def wordsOf (a n : Nat) : List Nat :=
  if n = 0 then [] else (span (a / 8) ((a + n - 1) / 8 + 1 - a / 8)).map (· * 8)

/-- Some word that the bytes touch is poisoned. -/
def Memory.anyPois (m : Memory) (a n : Nat) : Bool := (wordsOf a n).any m.pois

/-- A store of bytes with their poison (R380): poisoned data poisons every word it touches; clean data
clears the words it covers whole and leaves the others as they are. -/
def Memory.store (m : Memory) (a : Nat) (bs : List Byte) (p : Bool) : Memory :=
  (wordsOf a bs.length).foldl
    (fun m w => if p then m.setPois w true
      else if decide (a ≤ w) && decide (w + 8 ≤ a + bs.length) then m.setPois w false else m)
    (m.setBytes a bs)

end Machine
end Sys2Proof
end

