-- ==== Sys2Proof/Machine/Ops.lean ====
section
/-! DEFINITION. The named operations over the state: fibres, groups, teams and their registers, the words
of a running clause over its batch, and taking and leaving a trap. -/

namespace Sys2Proof.Machine

/-! ## Finding and changing the parts of the state -/

def State.fib? (s : State) (f : FibId) : Option Fibre := s.fibres.find? (fun b => b.fid == f)
def State.grp? (s : State) (team grp : Nat) : Option Group :=
  s.groups.find? (fun g => g.team == team && g.grp == grp)
def State.team? (s : State) (t : Nat) : Option Team := s.teams.find? (fun x => x.id == t)
def State.cluster? (s : State) (c : Nat) : Option Cluster := s.clusters.find? (fun x => x.id == c)
def State.clutch? (s : State) (c : Nat) : Option Clutch := s.clutches.find? (fun x => x.id == c)
def State.run? (s : State) (r : Nat) : Option ClauseRun := s.running.find? (fun x => x.id == r)

def State.modFib (s : State) (f : FibId) (g : Fibre → Fibre) : State :=
  { s with fibres := s.fibres.map (fun b => if b.fid == f then g b else b) }
def State.modFibs (s : State) (p : Fibre → Bool) (g : Fibre → Fibre) : State :=
  { s with fibres := s.fibres.map (fun b => if p b then g b else b) }
def State.modGrp (s : State) (team grp : Nat) (g : Group → Group) : State :=
  { s with groups := s.groups.map (fun x => if x.team == team && x.grp == grp then g x else x) }
def State.modTeam (s : State) (t : Nat) (g : Team → Team) : State :=
  { s with teams := s.teams.map (fun x => if x.id == t then g x else x) }
def State.modCluster (s : State) (c : Nat) (g : Cluster → Cluster) : State :=
  { s with clusters := s.clusters.map (fun x => if x.id == c then g x else x) }
def State.modClutch (s : State) (c : Nat) (g : Clutch → Clutch) : State :=
  { s with clutches := s.clutches.map (fun x => if x.id == c then g x else x) }
def State.modRun (s : State) (r : Nat) (g : ClauseRun → ClauseRun) : State :=
  { s with running := s.running.map (fun x => if x.id == r then g x else x) }

def State.core (s : State) (c : Nat) : Core := NMap.get s.cores c
def State.modCore (s : State) (c : Nat) (g : Core → Core) : State := { s with cores := s.cores.mod c g }
def State.pod (s : State) (p : Nat) : Pod := NMap.get s.pods p
def State.modPod (s : State) (p : Nat) (g : Pod → Pod) : State := { s with pods := s.pods.mod p g }
def State.part (s : State) (p : Nat) : Part := NMap.get s.parts p
def State.modPart (s : State) (p : Nat) (g : Part → Part) : State := { s with parts := s.parts.mod p g }

/-- A number never used before, and the state without it. -/
def State.newId (s : State) : Nat × State := (s.fresh, { s with fresh := s.fresh + 1 })

/-- Sector × 8 + pod of a core (R2). -/
def podOf (core : Nat) : Nat := core / 12
/-- Die of a core (R2). -/
def dieOf (core : Nat) : Nat := core / 192
/-- Sector of a core (R2). -/
def sectorOf (core : Nat) : Nat := core / 96
/-- Cores 3 rows by 4 columns of a pod: row and column (R2). -/
def coreRow (core : Nat) : Nat := core % 12 / 4
def coreCol (core : Nat) : Nat := core % 4

/-- The fibres of a team. -/
def State.teamFibres (s : State) (t : Nat) : List Fibre := s.fibres.filter (fun f => f.fid.team == t)
/-- The fibres of a group. -/
def State.grpFibres (s : State) (t g : Nat) : List Fibre :=
  s.fibres.filter (fun f => f.fid.team == t && f.fid.grp == g)
/-- The teams of a cluster. -/
def State.clusterTeams (s : State) (c : Nat) : List Team := s.teams.filter (fun t => t.cluster == c)

/-- The team's cluster is to be saved, so that an open instance is abandoned before it could be replayed (R387, R390). -/
def State.saving (s : State) (t : Team) : Bool := match s.cluster? t.cluster with | some c => c.preempt | none => false
/-- The teams of a clutch. -/
def State.clutchTeams (s : State) (c : Nat) : List Team := s.teams.filter (fun t => t.clutch == c)
/-- The team's clutch is privileged (R33). -/
def State.teamPriv (s : State) (t : Team) : Bool :=
  match s.clutch? t.clutch with | some c => c.priv | none => false

/-- Order of fibres within a team: group, then lane. -/
def fibBefore (a b : FibId) : Bool := decide (a.grp < b.grp) || (a.grp == b.grp && decide (a.lane < b.lane))

/-- A fibre inserted in that order. -/
def insFib (f : FibId) : List FibId → List FibId
  | [] => [f]
  | g :: l => if fibBefore f g then f :: g :: l else if f == g then g :: l else g :: insFib f l

/-- A fibre is held by something, or will be again when its handler returns (R374). -/
def Fibre.awaits (f : Fibre) (h : Hold) : Bool :=
  decide (f.hold = h) || f.waits.contains h || f.under.contains h

/-- A wait for a translation. -/
def Hold.translates : Hold → Bool
  | .walk _ _ _ | .fault _ _ _ => true
  | _ => false

/-- A fibre begins to wait; several waits of one clause hold it together. -/
def Fibre.await (f : Fibre) (h : Hold) : Fibre :=
  if decide (f.hold = h) || f.waits.contains h then f
  else if f.hold = .free then { f with hold := h } else { f with waits := f.waits ++ [h] }

/-- A wait of a fibre is over. -/
def Fibre.release (f : Fibre) (h : Hold) : Fibre :=
  let f := { f with under := f.under.erase h }
  if f.hold = h then
    match f.waits with
    | [] => { f with hold := .free }
    | w :: ws => { f with hold := w, waits := ws }
  else { f with waits := f.waits.erase h }

/-- Everything that holds a fibre. -/
def Fibre.holds (f : Fibre) : List Hold := if f.hold = .free then [] else f.hold :: f.waits

/-- A fibre held by exactly these. -/
def Fibre.held (f : Fibre) : List Hold → Fibre
  | [] => { f with hold := .free, waits := [] }
  | w :: ws => { f with hold := w, waits := ws }

/-! ## Registers -/

/-- How an instruction reads a constant (R27). -/
inductive Rd where
  | q64 | int32 | fp32
  deriving DecidableEq, Repr

/-- The patterns of codes 200 to 215 in 64-bit operations (R26). -/
def const64 (n : Nat) : Word :=
  match n with
  | 0 => 0 | 1 => 1 | 2 => 2 | 3 => 4 | 4 => 8 | 5 => 16
  | 6 => 0xFFFFFFFFFFFFFFFF | 7 => 0x8000000000000000
  | 8 => 0x3FE0000000000000 | 9 => 0x3FF0000000000000 | 10 => 0x4000000000000000
  | 11 => 0xBFF0000000000000 | 12 => 0x3F800000 | 13 => 0x7FF0000000000000
  | 14 => 0x400921FB54442D18 | _ => 0x3FE62E42FEFA39EF

/-- The pattern of a constant code (R26, R27). -/
def constBits (k : Rd) (n : Nat) : Word :=
  match k with
  | .q64 => const64 n
  | .int32 =>
    match n with | 6 => 0xFFFFFFFF | 7 => 0x80000000 | _ => const64 n &&& 0xFFFFFFFF
  | .fp32 =>
    match n with
    | 6 => 0xFFFFFFFF | 7 => 0x80000000
    | 8 => 0x3F000000 | 9 => 0x3F800000 | 10 => 0x40000000 | 11 => 0xBF800000 | 12 => 0x3F800000
    | 13 => 0x7F800000 | 14 => 0x40490FDB | 15 => 0x3F317218
    | _ => const64 n &&& 0xFFFFFFFF

/-- What a fibre of a batch sees: the clause, the fibre, its group and its team. -/
structure View where
  run : ClauseRun
  fib : Fibre
  grp : Group
  team : Team
  deriving DecidableEq, Repr

/-- The execution and place an s register access belongs to (R29). -/
structure WriteKey where
  exec : Nat
  hdr : Word
  word : Nat
  deriving DecidableEq, Repr

def View.key (v : View) : WriteKey := ⟨v.fib.exec, v.run.hdr, v.run.pos + 1⟩

/-- The mark is of this execution's writes of register `n`. -/
def SMark.of (m : SMark) (k : WriteKey) (n : Nat) : Bool := m.reg == n && m.exec == k.exec && m.hdr == k.hdr

/-- The later of two marks' words. -/
def SMark.later (a b : SMark) : SMark := if a.word < b.word then b else a

/-- An s register as a word of an execution reads it: as the execution's last earlier word left it, else as it stood
before the execution, whatever other batches of the execution have done already (R12, R29, R109). -/
def Group.readS (g : Group) (k : WriteKey) (n : Nat) : RegCell :=
  let mine := g.marks.filter (·.of k n)
  match mine.filter fun m => decide (m.word < k.word), mine with
  | m :: ms, _ => (ms.foldl SMark.later m).v
  | [], m :: _ => m.old
  | [], [] => NMap.get g.s n

/-- An operand as a fibre reads it (R26, R27). -/
def View.rdAs (v : View) (k : Rd) : Opnd → RegCell
  | .x n => NMap.get v.fib.x n.val
  | .s n => v.grp.readS v.key n.val
  | .t n => NMap.get v.fib.t n.val
  | .k n => ⟨constBits k n.val, false⟩

/-- An operand of a 64-bit operation. -/
def View.rd (v : View) (o : Opnd) : RegCell := v.rdAs .q64 o

/-- An immediate, sign-extended (R30). -/
def immWord (i : BitVec 12) : Word := i.signExtend 64

/-- A second source: B or the immediate (R30). -/
def View.src (v : View) (k : Rd) : Src → RegCell
  | .opnd o => v.rdAs k o
  | .imm i => ⟨immWord i, false⟩

/-- A predicate of a fibre; p7 is always true (R103). -/
def Fibre.pred (f : Fibre) (p : Fin 8) : Bool := p.val == 7 || f.preds.getLsbD p.val

/-- A predicate written; a write to p7 is ignored (R28). -/
def Fibre.setPred (f : Fibre) (p : Fin 8) (b : Bool) : Fibre :=
  if p.val == 7 then f
  else { f with preds := if b then f.preds ||| ((1 : Byte) <<< p.val) else f.preds &&& ~~~((1 : Byte) <<< p.val) }

/-- A guard as a fibre reads it (R23). -/
def Fibre.guard (f : Fibre) (g : Guard) : Bool := f.pred g.p != g.neg

def View.guard (v : View) (g : Guard) : Bool := v.fib.guard g

/-- R29: of the fibres of one execution the lowest lane's value stays for each word, and its clause's last word's in the
register, whatever the order of its batches. -/
def Group.writeS (g : Group) (k : WriteKey) (lane n : Nat) (c : RegCell) : Group :=
  let mine := g.marks.filter (·.of k n)
  let same := fun (m : SMark) => m.of k n && m.word == k.word
  if mine.any (fun m => m.word == k.word && decide (m.lane ≤ lane)) then g
  else
    let old := match mine with | m :: _ => m.old | [] => NMap.get g.s n
    let marks := ⟨n, k.exec, k.hdr, k.word, lane, c, old⟩ :: g.marks.filter (fun m => !same m)
    if mine.any (fun m => decide (k.word < m.word)) then { g with marks := marks }
    else { g with s := g.s.set n c, marks := marks }

/-- Cycles within which every check on a result completes (R365). -/
def checkTime : Nat := 64

/-- Results that a check may still find wrong, with a further one written now (R365). -/
def addUnproven [BEq α] (l : List (α × Nat)) (d : α) (now : Nat) : List (α × Nat) :=
  (d, now) :: l.filter fun u => !(u.1 == d) && decide (now ≤ u.2 + checkTime)

/-- A register of a fibre written (R29 for s registers), not yet checked (R365); a constant takes no write. -/
def State.writeReg (s : State) (f : FibId) (k : WriteKey) (o : Opnd) (c : RegCell) : State :=
  match o with
  | .x n => s.modFib f (fun b => { b with x := b.x.set n.val c, unproven := addUnproven b.unproven o s.clock })
  | .t n => s.modFib f (fun b => { b with t := b.t.set n.val c, unproven := addUnproven b.unproven o s.clock })
  | .s n => s.modGrp f.team f.grp (fun g =>
      { g.writeS k f.lane n.val c with unproven := addUnproven g.unproven n.val s.clock })
  | .k _ => s

/-! ## Traps -/

/-- `tcause` (R311). -/
def tcauseWord (code word detail : Nat) : Word :=
  BitVec.ofNat 64 (code % 256 + (detail % 4096) * 2 ^ 20 + (word % 16) * 2 ^ 32)

/-- A trap of the sequencer's (R374): it interrupts what waits. -/
def TrapRec.sequencer (t : TrapRec) : Bool := t.epc.isSome && t.code == 0x18

/-- Taking a trap at a team's handler (R312): `tcause` and `taddr` are written, H is set, `epc` is the
trapping clause's header when no word of it took effect for the fibre and the header after it otherwise,
and the fibre continues at `tvec`. A wait for its own `exit` is over (R90); one that a trap of the sequencer
interrupts goes on when the handler returns (R374), but one for a translation, which is made afresh. -/
def Fibre.takeTrap (f : Fibre) (tvec : Word) (t : TrapRec) : Fibre :=
  { f with
    tcause := tcauseWord t.code t.word t.detail
    taddr := t.addr
    h := true
    epc := match t.epc with | some e => e | none => if t.took then t.next else t.hdr
    pc := tvec
    trap := none
    hold := .free
    waits := []
    redo := t.sequencer
    under := if t.sequencer then f.holds.filter fun h => !h.translates else [] }

/-- `eret` for a fibre with H = 1 and an aligned `epc`: H is cleared (R312); it continues at `epc`. -/
def Fibre.leaveTrap (f : Fibre) : Fibre := { f with h := false }

/-- When the clause of an `eret` has ended, the fibre waits again for what its handler interrupted, and a trap that
waited for the handler's end is its next (R374). -/
def Fibre.resume (f : Fibre) : Fibre :=
  if f.h then f
  else
    let f := { f with redo := false, later := none, trap := match f.trap with | some t => some t | none => f.later }
    if f.under.isEmpty then f else { f.held f.under with under := [] }

/-- The header that follows a clause in memory (R13). -/
def ClauseRun.next (r : ClauseRun) : Word := r.hdr + 4 * BitVec.ofNat 64 (r.words.length + 1)

/-- A trap kept for a fibre: of several, the first in clause order (R384). -/
def Fibre.noteTrap (f : Fibre) (t : TrapRec) : Fibre :=
  match f.trap with
  | none => { f with trap := some t }
  | some u => if t.hdr == u.hdr && decide (t.word < u.word) then { f with trap := some t } else f

/-- A trap raised by the word a clause stands at. -/
def State.raise (s : State) (v : View) (code detail : Nat) (addr : Word) : State :=
  s.modFib v.fib.fid (fun f => f.noteTrap ⟨code, v.run.pos + 1, detail, addr, v.run.hdr, v.run.next, false, none⟩)

/-! ## The words of a running clause -/

/-- What a word does to one fibre: its register, predicate and flag writes, or a trap. -/
inductive WordRes where
  | eff (regs : List (Opnd × RegCell)) (preds : List (Fin 8 × Bool)) (flags : BitVec 5)
  | trap (code detail : Nat) (addr : Word)
  deriving DecidableEq, Repr

/-- The view of one fibre of a clause, while it executes words. -/
def State.view? (s : State) (r : ClauseRun) (f : FibId) : Option View :=
  match s.fib? f, s.grp? f.team f.grp, s.team? f.team with
  | some b, some g, some t => if r.stopped.contains f then none else some ⟨r, b, g, t⟩
  | _, _, _ => none

/-- The batch of the current clause, in ascending order of group and lane. -/
def State.views (s : State) : List View :=
  match s.run? s.cur with
  | some r => r.fibs.filterMap (s.view? r)
  | none => []

/-- Some word of the clause has taken effect for the fibre (R312). -/
def State.markTook (s : State) (v : View) : State :=
  s.modRun v.run.id (fun r => { r with took := if r.took.contains v.fib.fid then r.took else v.fib.fid :: r.took })

/-- Registers written in order. -/
def State.writeRegs (s : State) (v : View) : List (Opnd × RegCell) → State
  | [] => s
  | (o, c) :: ws => (s.writeReg v.fib.fid v.key o c).writeRegs v ws

/-- What a word does to one fibre, done (R384: a trapping word takes no effect). -/
def State.apply (s : State) (v : View) : WordRes → State
  | .trap code detail addr => s.raise v code detail addr
  | .eff regs preds flags =>
    let s1 := s.writeRegs v regs
    let s2 := s1.modFib v.fib.fid (fun f =>
      let f1 := preds.foldl (fun f pb => f.setPred pb.1 pb.2) f
      { f1 with fflags := f1.fflags ||| flags })
    s2.markTook v

/-- A word applied to every fibre of the batch, each from the state before the word (R130). -/
def State.onViews (s : State) (vs : List View) (f : View → WordRes) : State :=
  vs.foldl (fun acc v => acc.apply v (f v)) s

/-- A word that acts on each guard-true fibre on its own (R23). -/
def State.word (s : State) (g : Guard) (f : View → WordRes) : State :=
  s.onViews (s.views.filter (·.guard g)) f

/-- A word whose fibres act one after another, in ascending order of group and lane, on what the earlier
ones left. -/
def State.wordSeq (s : State) (g : Guard) (f : State → View → State) : State :=
  (s.views.filter (·.guard g)).foldl f s

/-- Poison in a register used to control (R379). -/
def poisonTrap : WordRes := .trap 0x0E 0 0

/-- Only register writes. -/
def WordRes.regs (l : List (Opnd × RegCell)) : WordRes := .eff l [] 0

/-- Only predicate writes. -/
def WordRes.preds (l : List (Fin 8 × Bool)) : WordRes := .eff [] l 0

/-- No effect. -/
def WordRes.nothing : WordRes := .eff [] [] 0

/-- An illegal operand found by an executing word: `taddr` is the clause header (R318). -/
def View.operandTrap (v : View) : WordRes := .trap 0x02 0 v.run.hdr

end Sys2Proof.Machine
end

