-- ==== Sys2Proof/Machine/Operands.lean ====
section
/-! DEFINITION. The values of the integer, bit, byte-lane and address instructions: every operand form is
read to an integer or a natural number, the row's operation computed exactly, and the result narrowed. -/

namespace Sys2Proof.Machine

/-! ## Widths, reading and narrowing (R42) -/

/-- w: 32 with W = 1, else 64. -/
def widthOf (w : Bool) : Nat := if w then 32 else 64

/-- An operand's low w bits, unsigned. -/
def lowBits (w : Bool) (x : Word) : Nat := x.toNat % 2 ^ widthOf w

/-- A number of `n` bits read as a signed integer. -/
def toSigned (n v : Nat) : Int := if 2 ^ (n - 1) ≤ v then (v : Int) - 2 ^ n else v

/-- An operand read as an integer: unsigned with U = 1 (R42). -/
def readInt (u w : Bool) (x : Word) : Int :=
  if u then lowBits w x else toSigned (widthOf w) (lowBits w x)

/-- r modulo 2 to w, extended into 64 bits: sign-extended from 32 bits with W = 1 and U = 0 (R42). -/
def extend (u w : Bool) (r : Nat) : Word :=
  let v := r % 2 ^ widthOf w
  if w && !u then BitVec.ofInt 64 (toSigned 32 v) else BitVec.ofNat 64 v

/-- Clamp to the range of w bits (R42). -/
def clampInt (u : Bool) (n : Nat) (r : Int) : Int :=
  let lo : Int := if u then 0 else -(2 ^ (n - 1))
  let hi : Int := if u then 2 ^ n - 1 else 2 ^ (n - 1) - 1
  max lo (min hi r)

/-- An exact integer narrowed: clamped with S = 1, else wrapped (R42). -/
def narrow (sat u w : Bool) (r : Int) : Word :=
  let v := if sat then clampInt u (widthOf w) r else r
  extend u w (v % 2 ^ widthOf w).toNat

/-! ## Rows of R43 to R48 -/

def iaddV (sat u w : Bool) (a b : Word) : Word := narrow sat u w (readInt u w a + readInt u w b)
def isubV (sat u w : Bool) (a b : Word) : Word := narrow sat u w (readInt u w a - readInt u w b)
def imulV (sat u w : Bool) (a b : Word) : Word := narrow sat u w (readInt u w a * readInt u w b)
def imulhV (u w : Bool) (a b : Word) : Word :=
  narrow false u w (readInt u w a * readInt u w b / 2 ^ widthOf w)
def imadV (sat u w : Bool) (a b c : Word) : Word :=
  narrow sat u w (readInt u w a * readInt u w b + readInt u w c)
def iminV (u w : Bool) (a b : Word) : Word := narrow false u w (min (readInt u w a) (readInt u w b))
def imaxV (u w : Bool) (a b : Word) : Word := narrow false u w (max (readInt u w a) (readInt u w b))
def iabsV (sat w : Bool) (a : Word) : Word := narrow sat false w ((readInt false w a).natAbs : Int)

def andV (u w : Bool) (a b : Word) : Word := extend u w (lowBits w a &&& lowBits w b)
def orV (u w : Bool) (a b : Word) : Word := extend u w (lowBits w a ||| lowBits w b)
def xorV (u w : Bool) (a b : Word) : Word := extend u w (lowBits w a ^^^ lowBits w b)
def andnV (u w : Bool) (a b : Word) : Word :=
  extend u w (lowBits w a &&& (lowBits w b ^^^ (2 ^ widthOf w - 1)))

def shlV (u w : Bool) (a b : Word) : Word :=
  extend u w (if widthOf w ≤ lowBits w b then 0 else lowBits w a <<< lowBits w b)
def shrV (u w : Bool) (a b : Word) : Word :=
  extend u w (if widthOf w ≤ lowBits w b then 0 else lowBits w a >>> lowBits w b)
def sarV (u w : Bool) (a b : Word) : Word :=
  narrow false u w (readInt false w a / 2 ^ (min (lowBits w b) (widthOf w - 1)))
/-- Rotate left within `n` bits. -/
def rotl (n v k : Nat) : Nat := (v <<< (k % n) ||| v >>> (n - k % n)) % 2 ^ n
def rotV (u w : Bool) (a b : Word) : Word := extend u w (rotl (widthOf w) (lowBits w a) (lowBits w b))
/-- R45: the high w bits of a:b shifted left by c mod w. -/
def funlV (u w : Bool) (a b c : Word) : Word :=
  let n := widthOf w
  let t := lowBits w a * 2 ^ n + lowBits w b
  extend u w (t * 2 ^ (lowBits w c % n) / 2 ^ n)

/-- R46. -/
def bfxV (u w : Bool) (a : Word) (pos len : Nat) : Word :=
  let v := lowBits w a >>> pos % 2 ^ len
  if len = 0 then 0 else narrow false u w (if u then v else toSigned len v)
def bfiV (u w : Bool) (a b : Word) (pos len : Nat) : Word :=
  let hole := (2 ^ len - 1) <<< pos
  extend u w ((lowBits w a &&& (hole ^^^ (2 ^ widthOf w - 1))) ||| (lowBits w b % 2 ^ len) <<< pos)

/-- The ones among the low `n` bits. -/
def popcount : Nat → Nat → Nat
  | 0, _ => 0
  | n + 1, v => v % 2 + popcount n (v / 2)
/-- The zeros below the lowest one, at most `n`. -/
def trailZeros : Nat → Nat → Nat
  | 0, _ => 0
  | n + 1, v => if v % 2 = 1 then 0 else 1 + trailZeros n (v / 2)
/-- The low `n` bits in reverse order. -/
def reverseBits : Nat → Nat → Nat
  | 0, _ => 0
  | n + 1, v => (v % 2) * 2 ^ n + reverseBits n (v / 2)

def popcV (u w : Bool) (a : Word) : Word := extend u w (popcount (widthOf w) (lowBits w a))
def clzV (u w : Bool) (a : Word) : Word :=
  let v := lowBits w a
  extend u w (if v = 0 then widthOf w else widthOf w - 1 - v.log2)
def ctzV (u w : Bool) (a : Word) : Word := extend u w (trailZeros (widthOf w) (lowBits w a))
def brevV (u w : Bool) (a : Word) : Word := extend u w (reverseBits (widthOf w) (lowBits w a))

/-- Lane `i` of `l` bits. -/
def laneOf (l v i : Nat) : Nat := v >>> (l * i) % 2 ^ l
/-- `n` lanes of `l` bits, lane 0 at bit 0. -/
def lanes (l n : Nat) (f : Nat → Nat) : Nat :=
  (List.range n).foldl (fun acc i => acc + (f i % 2 ^ l) <<< (l * i)) 0

/-- R48: byte selection. -/
def permbV (u w : Bool) (a b : Word) : Word :=
  let n := widthOf w / 8
  extend u w (lanes 8 n fun i =>
    let s := laneOf 8 (lowBits w b) i
    if s.testBit 7 then 0 else laneOf 8 (lowBits w a) (s % n))

/-- R49: nibble lookup in the 16-byte table of a pair. -/
def niblV (hi u w : Bool) (a lo up : Word) : Word :=
  extend u w (lanes 8 (widthOf w / 8) fun i =>
    let byte := laneOf 8 (lowBits w a) i
    let k := if hi then byte / 16 else byte % 16
    if k < 8 then laneOf 8 lo.toNat k else laneOf 8 up.toNat (k - 8))

/-- R50: a condition on two integers. -/
def condHolds (c : Cond) (a b : Int) : Bool :=
  match c with
  | .eq => decide (a = b) | .ne => decide (a ≠ b) | .lt => decide (a < b)
  | .le => decide (a ≤ b) | .gt => decide (b < a) | .ge => decide (b ≤ a)

/-! ## Byte lanes (R51) -/

/-- L: 16 with `.l16`, else 8. -/
def laneBits (l16 : Bool) : Nat := if l16 then 16 else 8

/-- A lane read as an integer. -/
def laneInt (u : Bool) (l v i : Nat) : Int := if u then laneOf l v i else toSigned l (laneOf l v i)

/-- A lane operation on two operands, exact, then wrapped or clamped lane by lane. -/
def laneArith (sat l16 u w : Bool) (op : Int → Int → Int) (a b : Word) : Word :=
  let l := laneBits l16
  extend u w (lanes l (widthOf w / l) fun i =>
    let r := op (laneInt u l (lowBits w a) i) (laneInt u l (lowBits w b) i)
    ((if sat then clampInt u l r else r) % 2 ^ l).toNat)

def baddV (sat l16 u w : Bool) (a b : Word) : Word := laneArith sat l16 u w (· + ·) a b
def bsubV (sat l16 u w : Bool) (a b : Word) : Word := laneArith sat l16 u w (· - ·) a b
def bcmpV (c : Cond) (l16 u w : Bool) (a b : Word) : Word :=
  laneArith false l16 u w (fun x y => if condHolds c x y then -1 else 0) a b
def bmaxuV (l16 u w : Bool) (a b : Word) : Word :=
  let l := laneBits l16
  extend u w (lanes l (widthOf w / l) fun i => max (laneOf l (lowBits w a) i) (laneOf l (lowBits w b) i))
def bmskV (l16 u w : Bool) (a : Word) : Word :=
  let l := laneBits l16
  extend u w (lanes 1 (widthOf w / l) fun i => laneOf l (lowBits w a) i / 2 ^ (l - 1))

/-! ## Extension, division (R56, R86) -/

def sextV (a b : Word) : Word :=
  let n := b.toNat
  if n = 0 ∨ 64 ≤ n then a else BitVec.ofInt 64 (toSigned n (a.toNat % 2 ^ n))
def zextV (a b : Word) : Word :=
  let n := b.toNat
  if n = 0 ∨ 64 ≤ n then a else BitVec.ofNat 64 (a.toNat % 2 ^ n)

/-- R86: the quotient truncated toward zero; all ones for a zero divisor. -/
def idivV (u w : Bool) (a b : Word) : Word :=
  if lowBits w b = 0 then extend u w (2 ^ widthOf w - 1)
  else narrow false u w ((readInt u w a).tdiv (readInt u w b))
/-- R86: the remainder, with the sign of a; a for a zero divisor. -/
def iremV (u w : Bool) (a b : Word) : Word :=
  if lowBits w b = 0 then extend u w (lowBits w a)
  else narrow false u w ((readInt u w a).tmod (readInt u w b))

/-! ## Buffer addresses (R60, R61, R93) -/

/-- The byte offset of an address, bits [43:0]. -/
def offsetOf (a : Word) : Nat := a.toNat % 2 ^ 44
/-- The buffer index of an address, bits [63:44]. -/
def indexOf (a : Word) : Nat := a.toNat / 2 ^ 44
/-- The address of an index and an offset. -/
def mkAddr (i o : Nat) : Word := BitVec.ofNat 64 (i % 2 ^ 20 * 2 ^ 44 + o % 2 ^ 44)

/-- An address moved by a signed byte count; none beyond [0, 2^44), trap 0x0A (R61). -/
def addrAdd (a : Word) (n : Int) : Option Word :=
  let o := (offsetOf a : Int) + n
  if o < 0 ∨ 2 ^ 44 ≤ o then none else some (mkAddr (indexOf a) o.toNat)

/-- The effective address of a memory operand: the base moved by the index, read as a signed 64-bit
integer, plus the offset, in one sum (R93). -/
def effAddr (a b : Word) (off : BitVec 12) : Option Word := addrAdd a (b.toInt + off.toInt)

/-- A branch target (R31): `h` the header of the clause that holds the branch. -/
def branchTarget (h : Word) (off : Int) : Word :=
  BitVec.ofInt 64 ((h.toNat - h.toNat % 64 : Int) + off * 64)

end Sys2Proof.Machine
end

