-- ==== Sys2Proof/Machine/Alu.lean ====
section
/-! DEFINITION. The integer, bit, byte-lane, move, predicate, special-register and address instructions of
class alu (R42 to R61, `tset` of R59 apart). -/

namespace Sys2Proof.Machine

open Sys2Proof

/-- The answer of a meaning. -/
abbrev Result := Host.Outcome State Fault Refusal

/-! ## The shapes of the rows -/

/-- One destination. -/
def one (d : Opnd) (x : Word) (p : Bool) : WordRes := .regs [(d, ⟨x, p⟩)]

/-- How an integer instruction reads a constant: by W (R27). -/
def intRd (w : Bool) : Rd := if w then .int32 else .q64

/-- A row of A and a second source. -/
def int2 (w : Bool) (d a : Opnd) (b : Src) (f : Word → Word → Word) (v : View) : WordRes :=
  let x := v.rdAs (intRd w) a
  let y := v.src (intRd w) b
  one d (f x.v y.v) (x.p || y.p)

/-- A row whose second source is a count: poison there traps (R379). -/
def intCount (w : Bool) (d a : Opnd) (b : Src) (f : Word → Word → Word) (v : View) : WordRes :=
  if (v.src (intRd w) b).p then poisonTrap else int2 w d a b f v

/-- A row of A alone. -/
def int1 (w : Bool) (d a : Opnd) (f : Word → Word) (v : View) : WordRes :=
  let x := v.rdAs (intRd w) a
  one d (f x.v) x.p

/-! ## Integer, bit and byte-lane (R43 to R51) -/

def execIadd (g : Guard) (sat u w : Bool) (d a : Opnd) (b : Src) (s : State) : Result :=
  .next (s.word g (int2 w d a b (iaddV sat u w)))
def execIsub (g : Guard) (sat u w : Bool) (d a : Opnd) (b : Src) (s : State) : Result :=
  .next (s.word g (int2 w d a b (isubV sat u w)))
def execImul (g : Guard) (sat u w : Bool) (d a : Opnd) (b : Src) (s : State) : Result :=
  .next (s.word g (int2 w d a b (imulV sat u w)))
def execImulh (g : Guard) (u w : Bool) (d a : Opnd) (b : Src) (s : State) : Result :=
  .next (s.word g (int2 w d a b (imulhV u w)))
def execImad (g : Guard) (sat u w : Bool) (d a : Opnd) (b : Src) (c : Opnd) (s : State) : Result :=
  .next (s.word g fun v =>
    let x := v.rdAs (intRd w) a
    let y := v.src (intRd w) b
    let z := v.rdAs (intRd w) c
    one d (imadV sat u w x.v y.v z.v) (x.p || y.p || z.p))
def execImin (g : Guard) (u w : Bool) (d a : Opnd) (b : Src) (s : State) : Result :=
  .next (s.word g (int2 w d a b (iminV u w)))
def execImax (g : Guard) (u w : Bool) (d a : Opnd) (b : Src) (s : State) : Result :=
  .next (s.word g (int2 w d a b (imaxV u w)))
def execIabs (g : Guard) (sat w : Bool) (d a : Opnd) (s : State) : Result :=
  .next (s.word g (int1 w d a (iabsV sat w)))
def execAnd (g : Guard) (u w : Bool) (d a : Opnd) (b : Src) (s : State) : Result :=
  .next (s.word g (int2 w d a b (andV u w)))
def execOr (g : Guard) (u w : Bool) (d a : Opnd) (b : Src) (s : State) : Result :=
  .next (s.word g (int2 w d a b (orV u w)))
def execXor (g : Guard) (u w : Bool) (d a : Opnd) (b : Src) (s : State) : Result :=
  .next (s.word g (int2 w d a b (xorV u w)))
def execAndn (g : Guard) (u w : Bool) (d a : Opnd) (b : Src) (s : State) : Result :=
  .next (s.word g (int2 w d a b (andnV u w)))
def execShl (g : Guard) (u w : Bool) (d a : Opnd) (b : Src) (s : State) : Result :=
  .next (s.word g (intCount w d a b (shlV u w)))
def execShr (g : Guard) (u w : Bool) (d a : Opnd) (b : Src) (s : State) : Result :=
  .next (s.word g (intCount w d a b (shrV u w)))
def execSar (g : Guard) (u w : Bool) (d a : Opnd) (b : Src) (s : State) : Result :=
  .next (s.word g (intCount w d a b (sarV u w)))
def execRot (g : Guard) (u w : Bool) (d a : Opnd) (b : Src) (s : State) : Result :=
  .next (s.word g (intCount w d a b (rotV u w)))
/-- R45; the count is C. -/
def execFunl (g : Guard) (u w : Bool) (d a : Opnd) (b : Src) (c : Opnd) (s : State) : Result :=
  .next (s.word g fun v =>
    let z := v.rdAs (intRd w) c
    if z.p then poisonTrap else int2 w d a b (fun x y => funlV u w x y z.v) v)
def execBfx (g : Guard) (u w : Bool) (d a : Opnd) (pos len : BitVec 6) (s : State) : Result :=
  .next (s.word g (int1 w d a (fun x => bfxV u w x pos.toNat len.toNat)))
def execBfi (g : Guard) (u w : Bool) (d a b : Opnd) (pos len : BitVec 6) (s : State) : Result :=
  .next (s.word g (int2 w d a (.opnd b) (fun x y => bfiV u w x y pos.toNat len.toNat)))
def execPopc (g : Guard) (u w : Bool) (d a : Opnd) (s : State) : Result := .next (s.word g (int1 w d a (popcV u w)))
def execClz (g : Guard) (u w : Bool) (d a : Opnd) (s : State) : Result := .next (s.word g (int1 w d a (clzV u w)))
def execCtz (g : Guard) (u w : Bool) (d a : Opnd) (s : State) : Result := .next (s.word g (int1 w d a (ctzV u w)))
def execBrev (g : Guard) (u w : Bool) (d a : Opnd) (s : State) : Result := .next (s.word g (int1 w d a (brevV u w)))
def execPermb (g : Guard) (u w : Bool) (d a : Opnd) (b : Src) (s : State) : Result :=
  .next (s.word g (int2 w d a b (permbV u w)))
/-- R49: the pair B, B + 1 holds the table. -/
def execNibl (g : Guard) (hi u w : Bool) (d a b : Opnd) (s : State) : Result :=
  .next (s.word g fun v =>
    let x := v.rdAs (intRd w) a
    let lo := v.rd b
    let up := v.rd b.succ
    one d (niblV hi u w x.v lo.v up.v) (x.p || lo.p || up.p))
/-- R50; a poisoned source of a predicate traps (R379). -/
def execIcmp (g : Guard) (c : Cond) (u w : Bool) (d : Fin 8) (a : Opnd) (b : Src) (s : State) : Result :=
  .next (s.word g fun v =>
    let x := v.rdAs (intRd w) a
    let y := v.src (intRd w) b
    if x.p || y.p then poisonTrap else .preds [(d, condHolds c (readInt u w x.v) (readInt u w y.v))])
def execBadd (g : Guard) (sat l16 u w : Bool) (d a : Opnd) (b : Src) (s : State) : Result :=
  .next (s.word g (int2 w d a b (baddV sat l16 u w)))
def execBsub (g : Guard) (sat l16 u w : Bool) (d a : Opnd) (b : Src) (s : State) : Result :=
  .next (s.word g (int2 w d a b (bsubV sat l16 u w)))
def execBcmp (g : Guard) (c : Cond) (l16 u w : Bool) (d a : Opnd) (b : Src) (s : State) : Result :=
  .next (s.word g (int2 w d a b (bcmpV c l16 u w)))
def execBmaxu (g : Guard) (l16 u w : Bool) (d a : Opnd) (b : Src) (s : State) : Result :=
  .next (s.word g (int2 w d a b (bmaxuV l16 u w)))
def execBmsk (g : Guard) (l16 u w : Bool) (d a : Opnd) (s : State) : Result :=
  .next (s.word g (int1 w d a (bmskV l16 u w)))

/-! ## Moves, literals and predicates (R52 to R56) -/

def execMov (g : Guard) (u w : Bool) (d a : Opnd) (s : State) : Result :=
  .next (s.word g (int1 w d a (fun x => extend u w (lowBits w x))))
def execMovi (g : Guard) (u w : Bool) (d : Opnd) (i : BitVec 12) (s : State) : Result :=
  .next (s.word g fun _ => one d (extend u w (lowBits w (immWord i))) false)
/-- R53; no guard (R24). -/
def execLdi (d : Opnd) (i : W32) (s : State) : Result :=
  .next (s.word noGuard fun _ => one d (i.signExtend 64) false)
/-- R53: the low half is kept, and its poison with it. -/
def execLdih (d : Opnd) (i : W32) (s : State) : Result :=
  .next (s.word noGuard fun v => one d (i ++ (v.rd d).v.extractLsb' 0 32) (v.rd d).p)
/-- R54; the operand selected gives the poison (R378). -/
def execSel (g : Guard) (u w : Bool) (d a : Opnd) (b : Src) (c : Fin 8) (s : State) : Result :=
  .next (s.word g fun v =>
    let r := if v.fib.pred c then v.rdAs (intRd w) a else v.src (intRd w) b
    one d (extend u w (lowBits w r.v)) r.p)
def psetV (op : PsetOp) (a b : Bool) : Bool :=
  match op with | .and => a && b | .or => a || b | .xor => a != b | .andn => a && !b
def execPset (g : Guard) (op : PsetOp) (d a b : Fin 8) (s : State) : Result :=
  .next (s.word g fun v => .preds [(d, psetV op (v.fib.pred a) (v.fib.pred b))])
/-- The predicate word, bit 7 always 1 (R55). -/
def predWord (f : Fibre) : Word := (f.preds ||| 0x80).zeroExtend 64
def execPmovGet (g : Guard) (d : Opnd) (s : State) : Result := .next (s.word g fun v => one d (predWord v.fib) false)
def execPmovPut (g : Guard) (a : Opnd) (b : Src) (s : State) : Result :=
  .next (s.word g fun v =>
    let x := v.rd a
    let y := v.src .q64 b
    if x.p || y.p then poisonTrap
    else .preds (([0, 1, 2, 3, 4, 5, 6] : List (Fin 8)).filterMap fun p =>
      if y.v.getLsbD p.val then some (p, x.v.getLsbD p.val) else none))
def execSext (g : Guard) (d a : Opnd) (b : Src) (s : State) : Result :=
  .next (s.word g (intCount false d a b sextV))
def execZext (g : Guard) (d a : Opnd) (b : Src) (s : State) : Result :=
  .next (s.word g (intCount false d a b zextV))

/-! ## Special registers (R57, R58) -/

/-- The contents of a special register as a fibre reads it (R57, R285). -/
def State.special (s : State) (v : View) (n : Nat) : Word :=
  let c := s.cluster? v.team.cluster
  let nat := fun k => BitVec.ofNat 64 k
  let cl := fun (f : Cluster → Nat) => nat (match c with | some x => f x | none => 0)
  match n with
  | 0x00 => nat v.fib.fid.lane
  | 0x01 => nat v.grp.width
  | 0x02 => nat v.fib.fid.grp
  | 0x03 => nat v.team.groups
  | 0x04 => cl fun x => v.team.rank % x.cols
  | 0x05 => cl fun x => v.team.rank / x.cols
  | 0x06 => cl fun x => x.chunk
  | 0x07 => cl fun x => x.cols
  | 0x08 => cl fun x => x.rows
  | 0x09 => cl fun x => x.nteamZ
  | 0x0A => cl fun x => x.chunk
  | 0x0B => nat v.team.rank
  | 0x0C => nat v.team.core
  | 0x0D => nat (podOf v.team.core % 8)
  | 0x0E => nat (sectorOf v.team.core)
  | 0x0F => nat (dieOf v.team.core)
  | 0x10 => nat s.pkg
  | 0x11 => nat s.clock
  | 0x12 => nat v.fib.tile
  | 0x13 => nat (v.grp.roff + v.fib.fid.lane % 32)
  | 0x14 => cl fun x => x.base
  | 0x15 => cl fun x => x.count
  | 0x16 => (match c with | some x => x.recAddr | none => 0)
  | 0x17 => nat v.team.prio
  | 0x18 => v.team.ustate
  | _ => v.fib.lr

def execSrd (g : Guard) (d : Opnd) (n : BitVec 12) (s : State) : Result :=
  .next (s.word g fun v => one d (s.special v n.toNat) false)

/-- One of several team-scope writes stays: which, a free choice (R57, R310, log 8). -/
def State.pickView (s : State) (vs : List View) : Option View := vs[Config.freeNat s.tick 0 % vs.length]?

/-- R57: `%prio`, `%ustate` and `%lr` are written; any other number, and `%prio` above 3, traps. -/
def execSwr (g : Guard) (a : Opnd) (n : BitVec 12) (s : State) : Result :=
  let vs := s.views.filter (·.guard g)
  let res := fun (v : View) =>
    let x := v.rd a
    if n.toNat ≠ 0x17 ∧ n.toNat ≠ 0x18 ∧ n.toNat ≠ 0x19 then v.operandTrap
    else if x.p then poisonTrap
    else if n.toNat = 0x17 ∧ 3 < x.v.toNat then v.operandTrap
    else WordRes.nothing
  let ok := vs.filter fun v => match res v with | .eff _ _ _ => true | .trap _ _ _ => false
  let s1 := s.onViews vs res
  if n.toNat = 0x19 then
    .next (ok.foldl (fun acc v => acc.modFib v.fib.fid (fun f => { f with lr := (v.rd a).v })) s1)
  else
    match s.pickView ok with
    | some v =>
      let x := (v.rd a).v
      .next (s1.modTeam v.team.id fun t =>
        if n.toNat = 0x17 then { t with prio := x.toNat } else { t with ustate := x })
    | none => .next s1

/-! ## Addresses (R60, R61) -/

def execMka (g : Guard) (d a : Opnd) (b : Src) (s : State) : Result :=
  .next (s.word g fun v =>
    let x := v.rd a
    let y := v.src .q64 b
    if 2 ^ 20 ≤ x.v.toNat ∨ 2 ^ 44 ≤ y.v.toNat then .trap 0x0A 0 0
    else one d (mkAddr x.v.toNat y.v.toNat) (x.p || y.p))
def execAdda (g : Guard) (d a : Opnd) (b : Src) (s : State) : Result :=
  .next (s.word g fun v =>
    let x := v.rd a
    let y := v.src .q64 b
    match addrAdd x.v y.v.toInt with
    | some r => one d r (x.p || y.p)
    | none => .trap 0x0A 0 0)

end Sys2Proof.Machine
end

