-- ==== Sys2Proof/Machine/Flags.lean ====
section
/-! DEFINITION. Floating point: the element formats, exact values, one rounding with its flags, the IEEE
operations over them (R62 to R76, R83 to R85, R224), and conditions. Bit patterns are Nats below 2 to the
format's width. -/

namespace Sys2Proof.Machine

/-! ## Flags (R65) -/

/-- The five sticky flags NV DZ OF UF NX, bit 4 down to bit 0 (R65). -/
abbrev FFlags := BitVec 5

def nvFlag : FFlags := 0x10
def dzFlag : FFlags := 0x08
def ofFlag : FFlags := 0x04
def ufFlag : FFlags := 0x02
def nxFlag : FFlags := 0x01

/-- A flag when a condition holds. -/
def FFlags.when (b : Bool) (f : FFlags) : FFlags := if b then f else 0

/-! ## Formats -/

/-- What the top exponent means (R224): IEEE infinities and NaNs, one NaN pattern only, or nothing. -/
inductive FTop where
  | ieee | lone | none
  deriving DecidableEq, Repr

/-- A format: exponent and fraction bits, and its special patterns (R224). -/
structure FFmt where
  eb : Nat
  fb : Nat
  top : FTop
  deriving DecidableEq, Repr

def binary64 : FFmt := ⟨11, 52, .ieee⟩
def binary32 : FFmt := ⟨8, 23, .ieee⟩
def binary16 : FFmt := ⟨5, 10, .ieee⟩
def bfloat16 : FFmt := ⟨8, 7, .ieee⟩
def fmtE4M3 : FFmt := ⟨4, 3, .lone⟩
def fmtE5M2 : FFmt := ⟨5, 2, .ieee⟩
def fmtE3M2 : FFmt := ⟨3, 2, .none⟩
def fmtE2M3 : FFmt := ⟨2, 3, .none⟩
def fmtE2M1 : FFmt := ⟨2, 1, .none⟩

/-- The format that P names (R62). -/
def fpFmt (single : Bool) : FFmt := if single then binary32 else binary64

/-- Exponent bias (R224). -/
def FFmt.bias (f : FFmt) : Nat := 2 ^ (f.eb - 1) - 1
/-- Width in bits. -/
def FFmt.width (f : FFmt) : Nat := 1 + f.eb + f.fb
/-- Exponent of the smallest normal. -/
def FFmt.emin (f : FFmt) : Int := 1 - (f.bias : Int)
/-- A pattern from its sign, biased exponent and fraction. -/
def FFmt.pack (f : FFmt) (s : Bool) (be m : Nat) : Nat :=
  (if s then 2 ^ (f.eb + f.fb) else 0) + be * 2 ^ f.fb + m
/-- The largest finite magnitude: biased exponent and fraction (R224). -/
def FFmt.maxFin (f : FFmt) : Nat × Nat :=
  match f.top with
  | .ieee => (2 ^ f.eb - 2, 2 ^ f.fb - 1)
  | .lone => (2 ^ f.eb - 1, 2 ^ f.fb - 2)
  | .none => (2 ^ f.eb - 1, 2 ^ f.fb - 1)
/-- A zero of a sign. -/
def FFmt.zero (f : FFmt) (s : Bool) : Nat := f.pack s 0 0
/-- An infinity of a sign, where the format has one. -/
def FFmt.inf (f : FFmt) (s : Bool) : Nat := f.pack s (2 ^ f.eb - 1) 0
/-- The default NaN (R64, R224); a format without NaNs takes +0 (R169). -/
def FFmt.nan (f : FFmt) : Nat :=
  match f.top with
  | .ieee => f.pack false (2 ^ f.eb - 1) (2 ^ (f.fb - 1))
  | .lone => f.pack false (2 ^ f.eb - 1) (2 ^ f.fb - 1)
  | .none => 0

/-! ## Values -/

/-- What a pattern stands for: a NaN with its signalling bit, sign and payload below the quiet bit; an
infinity; or the exact value m × 2 to e of a sign, a zero when m = 0. -/
inductive FVal where
  | nan (sig s : Bool) (pay : Nat)
  | inf (s : Bool)
  | fin (s : Bool) (m : Nat) (e : Int)
  deriving DecidableEq, Repr

/-- The value of a pattern (R224); with `ftz`, a subnormal reads as a zero of its sign (R66). -/
def FFmt.val (f : FFmt) (ftz : Bool) (bits : Nat) : FVal :=
  let s := bits.testBit (f.eb + f.fb)
  let be := bits / 2 ^ f.fb % 2 ^ f.eb
  let m := bits % 2 ^ f.fb
  let isTop := be == 2 ^ f.eb - 1
  if isTop && f.top == .ieee then
    if m == 0 then .inf s else .nan (!m.testBit (f.fb - 1)) s (m % 2 ^ (f.fb - 1))
  else if isTop && f.top == .lone && m == 2 ^ f.fb - 1 then .nan false s 0
  else if be == 0 then .fin s (if ftz then 0 else m) (f.emin - f.fb)
  else .fin s (2 ^ f.fb + m) ((be : Int) - f.bias - f.fb)

def FVal.isNan : FVal → Bool
  | .nan _ _ _ => true
  | _ => false

def FVal.isSig : FVal → Bool
  | .nan g _ _ => g
  | _ => false

def FVal.sign : FVal → Bool
  | .nan _ s _ => s
  | .inf s => s
  | .fin s _ _ => s

def FVal.isZero : FVal → Bool
  | .fin _ m _ => m == 0
  | _ => false

def FVal.isInf : FVal → Bool
  | .inf _ => true
  | _ => false

def FVal.neg : FVal → FVal
  | .nan g s p => .nan g (!s) p
  | .inf s => .inf (!s)
  | .fin s m e => .fin (!s) m e

/-- A signed mantissa. -/
def signed (s : Bool) (m : Nat) : Int := if s then -(m : Int) else m

/-! ## Rounding -/

/-- RM with `.rdyn` resolved by `frm`: values 5 to 7 round to nearest even and raise NV (R63). -/
def resolveRm (rm : Rm) (frm : BitVec 3) : Rm × FFlags :=
  match rm with
  | .rdyn =>
    match frm.toNat with
    | 0 => (.rn, 0) | 1 => (.rz, 0) | 2 => (.ru, 0) | 3 => (.rd, 0) | 4 => (.rna, 0)
    | _ => (.rn, nvFlag)
  | r => (r, 0)

/-- Whether a magnitude is rounded away from zero: `odd` the last kept bit, `half` the discarded part
against one half (R63). -/
def roundsUp (rm : Rm) (s odd : Bool) (half : Ordering) : Bool :=
  match rm with
  | .rn => half == .gt || (half == .eq && odd)
  | .rna => half != .lt
  | .ru => !s
  | .rd => s
  | .rz => false
  | .rdyn => half == .gt || (half == .eq && odd)

/-- m ÷ 2 to k rounded to an integer, and whether it was inexact. -/
def shiftRound (rm : Rm) (s : Bool) (m k : Nat) : Nat × Bool :=
  if k = 0 then (m, false)
  else if m = 0 then (0, false)
  else if m.log2 + 1 < k then (if roundsUp rm s false .lt then 1 else 0, true)
  else
    let n := m >>> k
    let r := m - (n <<< k)
    if r = 0 then (n, false)
    else (if roundsUp rm s (n % 2 == 1) (compare r (2 ^ (k - 1))) then n + 1 else n, true)

/-- m × 2 to e at a quantum of 2 to q: the count of quanta, and whether it was inexact. -/
def quantize (rm : Rm) (s : Bool) (m : Nat) (e q : Int) : Nat × Bool :=
  if q ≤ e then (m <<< (e - q).toNat, false) else shiftRound rm s m (q - e).toNat

/-- Overflow gives an infinity, or the largest finite magnitude, by the attribute (R62, R63). -/
def FFmt.overflow (f : FFmt) (rm : Rm) (s : Bool) : Nat :=
  let toInf := f.top == .ieee && (match rm with | .rz => false | .ru => !s | .rd => s | _ => true)
  if toInf then f.inf s else f.pack s f.maxFin.1 f.maxFin.2

/-- The magnitude m × 2 to e, m not 0, rounded into the format: OF and NX on overflow, NX when inexact,
UF when inexact and tiny after rounding (R65), and with `ftz` a subnormal result flushed (R66). -/
def FFmt.roundPos (f : FFmt) (rm : Rm) (ftz s : Bool) (m : Nat) (e : Int) : Nat × FFlags :=
  let top := e + (m.log2 : Int)
  let q := max top f.emin - f.fb
  let nx := quantize rm s m e q
  -- a carry out of the fraction moves to the next binade
  let carry := nx.1 == 2 ^ (f.fb + 1)
  let n := if carry then 2 ^ f.fb else nx.1
  let q' := if carry then q + 1 else q
  let sub := decide (n < 2 ^ f.fb)
  let be : Nat := if sub then 0 else (q' + f.fb + f.bias).toNat
  let fr := if sub then n else n - 2 ^ f.fb
  if f.maxFin.1 < be || (be == f.maxFin.1 && f.maxFin.2 < fr) then (f.overflow rm s, ofFlag ||| nxFlag)
  else
    let tiny := decide (top < f.emin) &&
      (decide (top < f.emin - 1) || (quantize rm s m e (top - f.fb)).1 != 2 ^ (f.fb + 1))
    let fl := FFlags.when nx.2 nxFlag ||| FFlags.when (nx.2 && tiny) ufFlag
    if ftz && sub && n != 0 then (f.zero s, fl ||| ufFlag ||| nxFlag) else (f.pack s be fr, fl)

/-- Any finite magnitude rounded; a zero keeps its sign. -/
def FFmt.round (f : FFmt) (rm : Rm) (ftz s : Bool) (m : Nat) (e : Int) : Nat × FFlags :=
  if m = 0 then (f.zero s, 0) else f.roundPos rm ftz s m e

/-- A signed exact value rounded; an exact zero takes the sign given. -/
def FFmt.roundInt (f : FFmt) (rm : Rm) (ftz zs : Bool) (n : Int) (e : Int) : Nat × FFlags :=
  if n = 0 then (f.zero zs, 0) else f.roundPos rm ftz (decide (n < 0)) n.natAbs e

/-- The pattern of a value already exact in the format. -/
def FFmt.ofVal (f : FFmt) : FVal → Nat
  | .nan _ s p => f.pack s (2 ^ f.eb - 1) (2 ^ (f.fb - 1) + p)
  | .inf s => f.inf s
  | .fin s m e => (f.round .rz false s m e).1

/-- R64: the first NaN of the operands, quieted, in this format. -/
def FFmt.firstNan (f : FFmt) : List FVal → Option Nat
  | [] => Option.none
  | .nan _ s p :: _ => some (f.ofVal (.nan false s p))
  | _ :: vs => f.firstNan vs

/-- NV for a signalling operand (R64). -/
def sigFlag (vs : List FVal) : FFlags := FFlags.when (vs.any FVal.isSig) nvFlag

/-! ## Exact sums and products -/

/-- The sum of two exact values, at the lower of their exponents. -/
def exactAdd (a : Int) (ea : Int) (b : Int) (eb : Int) : Int × Int :=
  let e := min ea eb
  (a * 2 ^ (ea - e).toNat + b * 2 ^ (eb - e).toNat, e)

/-- A sum, one rounding: R67's zero signs and invalid cases. -/
def FFmt.addV (f : FFmt) (rm : Rm) (ftz : Bool) (a b : FVal) : Nat × FFlags :=
  match a, b with
  | .inf s, .inf t => if s == t then (f.inf s, 0) else (f.nan, nvFlag)
  | .inf s, _ => (f.inf s, 0)
  | _, .inf t => (f.inf t, 0)
  | .fin s m e, .fin t n d =>
    let r := exactAdd (signed s m) e (signed t n) d
    let zs := if m == 0 && n == 0 && s == t then s else rm == .rd
    f.roundInt rm ftz zs r.1 r.2
  | _, _ => (f.nan, 0)

/-- An exact product; `none` for 0 × ∞. -/
def mulV (a b : FVal) : Option FVal :=
  let s := a.sign != b.sign
  match a, b with
  | .inf _, .inf _ => some (.inf s)
  | .inf _, .fin _ n _ => if n == 0 then Option.none else some (.inf s)
  | .fin _ m _, .inf _ => if m == 0 then Option.none else some (.inf s)
  | .fin _ m e, .fin _ n d => some (.fin s (m * n) (e + d))
  | _, _ => Option.none

/-- a + b (R67). -/
def FFmt.add (f : FFmt) (rm : Rm) (ftz : Bool) (a b : Nat) : Nat × FFlags :=
  let x := f.val ftz a
  let y := f.val ftz b
  match f.firstNan [x, y] with
  | some n => (n, sigFlag [x, y])
  | .none => f.addV rm ftz x y

/-- a − b (R67). -/
def FFmt.sub (f : FFmt) (rm : Rm) (ftz : Bool) (a b : Nat) : Nat × FFlags :=
  let x := f.val ftz a
  let y := f.val ftz b
  match f.firstNan [x, y] with
  | some n => (n, sigFlag [x, y])
  | .none => f.addV rm ftz x y.neg

/-- a × b (R67). -/
def FFmt.mul (f : FFmt) (rm : Rm) (ftz : Bool) (a b : Nat) : Nat × FFlags :=
  let x := f.val ftz a
  let y := f.val ftz b
  match f.firstNan [x, y] with
  | some n => (n, sigFlag [x, y])
  | .none =>
    match mulV x y with
    | some (.fin s m e) => f.round rm ftz s m e
    | some (.inf s) => (f.inf s, 0)
    | _ => (f.nan, nvFlag)

/-- a × b + c with one rounding (R67). -/
def FFmt.fma (f : FFmt) (rm : Rm) (ftz : Bool) (a b c : Nat) : Nat × FFlags :=
  let x := f.val ftz a
  let y := f.val ftz b
  let z := f.val ftz c
  let bad := (x.isInf && y.isZero) || (x.isZero && y.isInf)
  match f.firstNan [x, y, z] with
  | some n => (n, sigFlag [x, y, z] ||| FFlags.when bad nvFlag)
  | .none =>
    match mulV x y with
    | some p => f.addV rm ftz p z
    | .none => (f.nan, nvFlag)

/-- Quotient bits of m ÷ n to at least `bits` places, a sticky bit last, and the exponent it takes. -/
def divBits (bits m n : Nat) : Nat × Int :=
  let k := bits + n.log2 + 1
  let q := (m <<< k) / n
  (2 * q + (if (m <<< k) % n = 0 then 0 else 1), -(k : Int) - 1)

/-- a ÷ b (R84). -/
def FFmt.div (f : FFmt) (rm : Rm) (ftz : Bool) (a b : Nat) : Nat × FFlags :=
  let x := f.val ftz a
  let y := f.val ftz b
  let s := x.sign != y.sign
  match f.firstNan [x, y] with
  | some n => (n, sigFlag [x, y])
  | .none =>
    match x, y with
    | .inf _, .inf _ => (f.nan, nvFlag)
    | .inf _, _ => (f.inf s, 0)
    | _, .inf _ => (f.zero s, 0)
    | .fin _ m e, .fin _ n d =>
      if n = 0 then (if m = 0 then (f.nan, nvFlag) else (f.inf s, dzFlag))
      else if m = 0 then (f.zero s, 0)
      else
        let r := divBits (f.fb + 4) m n
        f.round rm ftz s r.1 (e - d + r.2)
    | _, _ => (f.nan, 0)

/-- The integer square root by bits, from bit `i` down. -/
def isqrtFrom (m : Nat) : Nat → Nat → Nat
  | 0, r => if (r + 1) * (r + 1) ≤ m then r + 1 else r
  | i + 1, r => isqrtFrom m i (if (r + 2 ^ (i + 1)) * (r + 2 ^ (i + 1)) ≤ m then r + 2 ^ (i + 1) else r)

/-- ⌊√m⌋. -/
def isqrt (m : Nat) : Nat := isqrtFrom m (m.log2 / 2 + 1) 0

/-- The square root of a positive m × 2 to e with a sticky bit last, and its exponent. -/
def sqrtBits (bits m : Nat) (e : Int) : Nat × Int :=
  let k := 2 * bits + (if (e % 2) = 0 then 0 else 1)
  let v := m <<< k
  let r := isqrt v
  (2 * r + (if r * r = v then 0 else 1), (e - k) / 2 - 1)

/-- √a (R84). -/
def FFmt.sqrt (f : FFmt) (rm : Rm) (ftz : Bool) (a : Nat) : Nat × FFlags :=
  let x := f.val ftz a
  match f.firstNan [x] with
  | some n => (n, sigFlag [x])
  | .none =>
    match x with
    | .inf s => if s then (f.nan, nvFlag) else (f.inf false, 0)
    | .fin s m e =>
      if m = 0 then (f.zero s, 0)
      else if s then (f.nan, nvFlag)
      else
        let r := sqrtBits (f.fb + 4) m e
        f.round rm ftz false r.1 r.2
    | _ => (f.nan, 0)

/-! ## Comparison, minimum and maximum (R68, R69) -/

/-- Order of two values that are no NaNs; −0 equals +0. -/
def cmpV (a b : FVal) : Ordering :=
  match a, b with
  | .inf s, .inf t => if s == t then .eq else if s then .lt else .gt
  | .inf s, _ => if s then .lt else .gt
  | _, .inf t => if t then .gt else .lt
  | .fin s m e, .fin t n d =>
    let r := exactAdd (signed s m) e (-(signed t n)) d
    compare r.1 0
  | _, _ => .eq

/-- Order with −0 below +0. -/
def cmpTotal (a b : FVal) : Ordering :=
  match cmpV a b with
  | .eq => if a.sign == b.sign then .eq else if a.sign then .lt else .gt
  | o => o

/-- R68: minimum (`big` false) or maximum, by number when `num`. -/
def FFmt.minMax (f : FFmt) (big num ftz : Bool) (a b : Nat) : Nat × FFlags :=
  let x := f.val ftz a
  let y := f.val ftz b
  let fl := sigFlag [x, y]
  if num && x.isNan && !y.isNan then (f.ofVal y, fl)
  else if num && y.isNan && !x.isNan then (f.ofVal x, fl)
  else
    match f.firstNan [x, y] with
    | some n => (n, fl)
    | .none =>
      let firstWins := match cmpTotal x y with | .lt => !big | .gt => big | .eq => true
      (f.ofVal (if firstWins then x else y), fl)

/-- R69: a condition and its flags. -/
def FFmt.cmp (f : FFmt) (c : FCond) (ftz : Bool) (a b : Nat) : Bool × FFlags :=
  let x := f.val ftz a
  let y := f.val ftz b
  let un := x.isNan || y.isNan
  let o := cmpV x y
  match c with
  | .eq => (!un && o == .eq, sigFlag [x, y])
  | .ne => (un || o != .eq, sigFlag [x, y])
  | .lt => (!un && o == .lt, FFlags.when un nvFlag)
  | .le => (!un && o != .gt, FFlags.when un nvFlag)
  | .gt => (!un && o == .gt, FFlags.when un nvFlag)
  | .ge => (!un && o != .lt, FFlags.when un nvFlag)
  | .un => (un, sigFlag [x, y])
  | .or => (!un, sigFlag [x, y])

/-- R70: the class bit of a value; `sub` says whether a pattern's exponent field is 0. -/
def FFmt.classOf (f : FFmt) (ftz : Bool) (a : Nat) : Nat :=
  let sub := a / 2 ^ f.fb % 2 ^ f.eb == 0
  match f.val ftz a with
  | .nan g _ _ => if g then 8 else 9
  | .inf s => if s then 0 else 7
  | .fin s m _ =>
    if m = 0 then (if s then 3 else 4)
    else if sub then (if s then 2 else 5)
    else if s then 1 else 6

/-! ## Conversions (R71 to R76) -/

/-- R71: rounding to an integral value in the format; NX only with `exact`. -/
def FFmt.rint (f : FFmt) (rm : Rm) (exact ftz : Bool) (a : Nat) : Nat × FFlags :=
  let x := f.val ftz a
  match f.firstNan [x] with
  | some n => (n, sigFlag [x])
  | .none =>
    match x with
    | .fin s m e =>
      if 0 ≤ e then (f.ofVal x, 0)
      else
        let r := quantize rm s m e 0
        (f.ofVal (.fin s r.1 0), FFlags.when (exact && r.2) nxFlag)
    | _ => (f.ofVal x, 0)

/-- R72: an FP value to an integer of `w` bits, signed or not; the pattern is taken modulo 2 to w. -/
def FFmt.toInt (f : FFmt) (rm : Rm) (ftz sgn : Bool) (w : Nat) (a : Nat) : Int × FFlags :=
  let lo : Int := if sgn then -(2 ^ (w - 1)) else 0
  let hi : Int := if sgn then 2 ^ (w - 1) - 1 else 2 ^ w - 1
  match f.val ftz a with
  | .nan _ _ _ => (0, nvFlag)
  | .inf s => (if s then lo else hi, nvFlag)
  | .fin s m e =>
    let r := quantize rm s m e 0
    let v := signed s r.1
    if v < lo then (lo, nvFlag) else if hi < v then (hi, nvFlag) else (v, FFlags.when r.2 nxFlag)

/-- R72: a NaN carried between formats, its payload cut or widened at the top. -/
def FFmt.carryNan (src dst : FFmt) (s : Bool) (pay : Nat) : Nat :=
  match dst.top with
  | .ieee =>
    let p := if src.fb ≤ dst.fb then pay <<< (dst.fb - src.fb) else pay >>> (src.fb - dst.fb)
    dst.ofVal (.nan false s p)
  | _ => dst.nan

/-- A value of one format converted to another; `ftzIn` reads subnormals as zeros, `ftzOut` flushes. -/
def FFmt.convert (src dst : FFmt) (rm : Rm) (ftzIn ftzOut : Bool) (a : Nat) : Nat × FFlags :=
  match src.val ftzIn a with
  | .nan g s p => (src.carryNan dst s p, FFlags.when g nvFlag)
  | .inf s => (dst.overflow .rn s, 0)
  | .fin s m e => dst.round rm ftzOut s m e

/-- R73: a × 2 to n with one rounding. Exponents beyond every format's reach are cut at ±2 to 20. -/
def FFmt.scale (f : FFmt) (rm : Rm) (ftz : Bool) (a : Nat) (n : Int) : Nat × FFlags :=
  let x := f.val ftz a
  match f.firstNan [x] with
  | some b => (b, sigFlag [x])
  | .none =>
    match x with
    | .fin s m e => f.round rm ftz s m (e + max (-1048576) (min 1048576 n))
    | _ => (f.ofVal x, 0)

/-- R74, F = 0: ⌊log2 |a|⌋. -/
def FFmt.expo (f : FFmt) (ftz : Bool) (a : Nat) : Int × FFlags :=
  match f.val ftz a with
  | .fin _ m e => if m = 0 then (-(2 ^ 63), nvFlag) else (e + (m.log2 : Int), 0)
  | _ => (2 ^ 63 - 1, nvFlag)

/-- R74, F = 1: the significand in [1, 2). -/
def FFmt.mant (f : FFmt) (ftz : Bool) (a : Nat) : Nat × FFlags :=
  let x := f.val ftz a
  match f.firstNan [x] with
  | some b => (b, sigFlag [x])
  | .none =>
    match x with
    | .fin s m _ => (if m = 0 then f.zero s else f.ofVal (.fin s m (-(m.log2 : Int))), 0)
    | _ => (f.ofVal x, 0)

/-- R75: the rounded sum or product, and the rounded error that remains. -/
def FFmt.two (f : FFmt) (prod : Bool) (a b : Nat) : Nat × Nat × FFlags :=
  let r := if prod then f.mul .rn false a b else f.add .rn false a b
  match f.val false a, f.val false b, f.val false r.1 with
  | .fin s m e, .fin t n d, .fin u k c =>
    let x := if prod then (signed (s != t) (m * n), e + d) else exactAdd (signed s m) e (signed t n) d
    let y := exactAdd x.1 x.2 (-(signed u k)) c
    (r.1, (f.roundInt .rn false false y.1 y.2).1, r.2)
  | _, _, _ => (r.1, f.zero false, r.2)

/-! ## Enclosures for the approximating instructions (R85)

Fixed point with 320 fractional bits. Each function answers a value within 2 to −290 of the exact one for
arguments of the size it is called with: a result of R85 that is no exact power or zero lies much farther from every
bound of `near`, so that the comparison decides as one with the exact value does. -/

/-- Fractional bits of the fixed point. -/
def fixBits : Nat := 320

/-- π in fixed point. -/
def piFix : Nat := 0x3243f6a8885a308d313198a2e03707344a4093822299f31d0082efa98ec4e6c89452821e638d01377

/-- ln 2 in fixed point. -/
def ln2Fix : Nat := 0xb17217f7d1cf79abc9e3b39803f2f6af40f343267298b62d8a0d175b8baafa2be7b876206debac98

/-- The terms of the exponential series from term `t` of index `i`, `fuel` of them. -/
def expTerms (x : Nat) : Nat → Nat → Nat → Nat
  | 0, _, _ => 0
  | fuel + 1, i, t => t + expTerms x fuel (i + 1) (((t * x) >>> fixBits) / (i + 1))

/-- e to the x, x in fixed point below 1. -/
def expFix (x : Nat) : Nat := expTerms x 80 0 (2 ^ fixBits)

/-- The terms of an alternating series in x², from term `t` of index `i`: sine for i = 1, cosine for 0. -/
def trigTerms (x2 : Int) : Nat → Nat → Int → Int
  | 0, _, _ => 0
  | fuel + 1, i, t => t + trigTerms x2 fuel (i + 2) (-(t * x2 / 2 ^ fixBits) / ((i + 1) * (i + 2)))

/-- sin x, x in fixed point of magnitude below 2. -/
def sinFix (x : Int) : Int := trigTerms (x * x / 2 ^ fixBits) 50 1 x
/-- cos x, x in fixed point of magnitude below 2. -/
def cosFix (x : Int) : Int := trigTerms (x * x / 2 ^ fixBits) 50 0 (2 ^ fixBits)

/-- The terms z, z³ ÷ 3, z⁵ ÷ 5, ... from power `p` and divisor `k`. -/
def atanhTerms (z2 : Nat) : Nat → Nat → Nat → Nat
  | 0, _, _ => 0
  | fuel + 1, k, p => p / k + atanhTerms z2 fuel (k + 2) ((p * z2) >>> fixBits)

/-- ln y for y = m ÷ 2 to b in [1, 2): twice atanh of (y − 1) ÷ (y + 1). -/
def lnFix (m b : Nat) : Nat :=
  let z := ((m - 2 ^ b) <<< fixBits) / (m + 2 ^ b)
  2 * atanhTerms ((z * z) >>> fixBits) 110 1 z

/-- Exponent of the unit in the last place of a result of magnitude 2 to `top` (R83). -/
def FFmt.ulp (f : FFmt) (top : Int) : Int := max top f.emin - f.fb

/-- A finite candidate within `k` ulp of v × 2 to e, v not 0. -/
def FFmt.near (f : FFmt) (k : Nat) (v e : Int) (cand : Nat) : Bool :=
  match f.val false cand with
  | .fin s m d =>
    let u := f.ulp (e + (v.natAbs.log2 : Int))
    let r := exactAdd (signed s m) d (-v) e
    let q := min r.2 u
    decide (r.1.natAbs * 2 ^ (r.2 - q).toNat ≤ k * 2 ^ (u - q).toNat)
  | _ => false

/-- A result below the smallest normal magnitude. -/
def FFmt.tiny (f : FFmt) (r : Nat) : Bool := r / 2 ^ f.fb % 2 ^ f.eb == 0

/-- A subnormal result as `ftz` leaves it (R66). -/
def FFmt.flush (f : FFmt) (ftz : Bool) (r : Nat) : Nat := if ftz && f.tiny r then f.zero (r.testBit (f.eb + f.fb)) else r

/-- The device's result for an approximation: the candidate where it lies within its bound, else the nearest value. -/
def FFmt.approx (f : FFmt) (k : Nat) (v e : Int) (cand : Nat) : Nat :=
  let c := cand % 2 ^ f.width
  if f.near k v e c then c else (f.roundInt .rn false false v e).1

end Sys2Proof.Machine
end

