-- ==== Sys2Proof/Machine/Formats.lean ====
section
/-! DEFINITION. The element formats of pages: where elements lie, what they stand for, the CB2 codebook,
and rounding into a format (R224 to R231, R169). -/

namespace Sys2Proof.Machine

/-! ## Where elements lie (R225) -/

/-- Storage bits of an element; of a whole index for CB2. -/
def EFmt.bits : EFmt → Nat
  | .fp64 => 64 | .fp32 => 32 | .bf16 => 16 | .fp16 => 16 | .cb2 => 16
  | .e4m3 => 8 | .e5m2 => 8 | .int8 => 8 | .e3m2 => 6 | .e2m3 => 6 | .e2m1 => 4 | .int4 => 4

/-- Elements of 64 KiB; weights for CB2. -/
def EFmt.perUnit (f : EFmt) : Nat :=
  match f with
  | .e3m2 => 81920 | .e2m3 => 81920 | .cb2 => 262144
  | _ => 524288 / EFmt.bits f

/-- The first bit of element `i` of 64 KiB, bit 0 of byte 0 being bit 0; for CB2, of the index that holds
weight `i`. -/
def EFmt.bitPos (f : EFmt) (i : Nat) : Nat :=
  match f with
  | .e3m2 => 32 * (i / 5) + 6 * (i % 5)
  | .e2m3 => 32 * (i / 5) + 6 * (i % 5)
  | .cb2 => 16 * (i / 8)
  | _ => EFmt.bits f * i

/-- The bytes that hold elements `i` to `i + k − 1` of 64 KiB: the first and how many. -/
def EFmt.bytesOf (f : EFmt) (i k : Nat) : Nat × Nat :=
  let lo := EFmt.bitPos f i / 8
  let hi := (EFmt.bitPos f (i + k - 1) + EFmt.bits f - 1) / 8
  (lo, hi + 1 - lo)

/-- How many elements of 64 KiB one step of `lde` and `ste` is: eight weights make a CB2 index (R230). -/
def EFmt.step (f : EFmt) : Nat := match f with | .cb2 => 8 | _ => 1

/-! ## The CB2 codebook (R227, R228) -/

/-- The vectors of `n` magnitudes whose squared norm exceeds the least by `2 c`, in ascending order; a
magnitude is given doubled: 1, 3, 5 or 7, which cost 0, 1, 3 and 6. -/
def cbVectors : Nat → Nat → List (List Nat)
  | 0, c => if c = 0 then [[]] else []
  | n + 1, c =>
    [(1, 0), (3, 1), (5, 3), (7, 6)].flatMap fun mc =>
      if mc.2 ≤ c then (cbVectors n (c - mc.2)).map (mc.1 :: ·) else []

/-- The 256 entries: by norm, then by the magnitudes. -/
def cbTable : List (List Nat) := ((List.range 6).flatMap (cbVectors 8)).take 256

/-- Weight `i` of index `w`, before scaling. -/
def cbWeight (w i : Nat) : FVal :=
  let m := ((cbTable.getD (w / 256 % 256) []).getD i 1)
  let ones := (List.range 7).foldl (fun n j => n + w / 2 ^ (j + 1) % 2) 0
  let s := if i < 7 then w.testBit (i + 1) else (ones % 2 = 1) != w.testBit 0
  .fin s m (-1)

/-! ## What elements stand for (R224, R226) -/

/-- The FP format of an element format. -/
def EFmt.ffmt? : EFmt → Option FFmt
  | .fp64 => some binary64 | .fp32 => some binary32 | .bf16 => some bfloat16 | .fp16 => some binary16
  | .e4m3 => some fmtE4M3 | .e5m2 => some fmtE5M2 | .e3m2 => some fmtE3M2 | .e2m3 => some fmtE2M3
  | .e2m1 => some fmtE2M1 | _ => none

/-- A two's-complement element. -/
def intVal (n v : Nat) : FVal :=
  let v := v % 2 ^ n
  if 2 ^ (n - 1) ≤ v then .fin true (2 ^ n - v) 0 else .fin false v 0

/-- The exact value of an element's bits; `j` is the weight within a CB2 index. -/
def EFmt.value (f : EFmt) (raw j : Nat) : FVal :=
  match f with
  | .int8 => intVal 8 raw
  | .int4 => intVal 4 raw
  | .cb2 => cbWeight raw j
  | _ => match EFmt.ffmt? f with | some g => g.val false raw | none => .fin false 0 0

/-- A scale byte read as its two's-complement number. -/
def scaleOf (b : Nat) : Int := if 128 ≤ b % 256 then (b % 256 : Int) - 256 else (b % 256 : Int)

/-- A value times 2 to n. -/
def FVal.shift (v : FVal) (n : Int) : FVal :=
  match v with | .fin s m e => .fin s m (e + n) | x => x

/-- The FP format of an output of `ldx`. -/
def OutFmt.ffmt : OutFmt → FFmt
  | .f32 => binary32 | .bf16 => bfloat16 | .f16 => binary16 | .f64 => binary64

/-- R231: a value rounded to nearest even into an output format; a NaN gives the default NaN. -/
def FFmt.deliver (f : FFmt) (v : FVal) : Nat :=
  match v with
  | .nan _ _ _ => f.nan
  | .inf s => f.inf s
  | .fin s m e => (f.round .rn false s m e).1

/-! ## Rounding into an element format (R169) -/

/-- What conversion makes of an element: its bits, whether a finite value saturated, whether it replaced a NaN. -/
structure Converted where
  bits : Nat
  sat : Bool
  nan : Bool
  deriving DecidableEq, Repr

/-- Nearest integer of `m × 2^e`, ties to even. -/
def roundToInt (s : Bool) (m : Nat) (e : Int) : Nat := (quantize .rn s m e 0).1

/-- Steps 3 to 5 of R169 for an integer format of `n` bits. -/
def convertInt (n : Nat) (v : FVal) : Converted :=
  let hi := 2 ^ (n - 1) - 1
  match v with
  | .nan _ _ _ => ⟨0, false, true⟩
  | .inf s => ⟨if s then 2 ^ (n - 1) else hi, false, false⟩
  | .fin s m e =>
    let r := roundToInt s m e
    if s then (if 2 ^ (n - 1) < r then ⟨2 ^ (n - 1), true, false⟩ else ⟨(2 ^ n - r) % 2 ^ n, false, false⟩)
    else if hi < r then ⟨hi, true, false⟩ else ⟨r, false, false⟩

/-- The largest finite pattern of a sign. -/
def FFmt.maxOf (f : FFmt) (s : Bool) : Nat := f.pack s f.maxFin.1 f.maxFin.2

/-- The largest finite value as m × 2^e. -/
def FFmt.maxVal (f : FFmt) : Nat × Int :=
  match f.val false (f.maxOf false) with | .fin _ m e => (m, e) | _ => (0, 0)

/-- A finite magnitude is at most another. -/
def magLe (a b : Nat × Int) : Bool :=
  let e := min a.2 b.2
  decide (a.1 * 2 ^ (a.2 - e).toNat ≤ b.1 * 2 ^ (b.2 - e).toNat)

/-- A finite magnitude rounded to nearest even with the fraction bits of the format and no upper limit. -/
def FFmt.roundFree (f : FFmt) (s : Bool) (m : Nat) (e : Int) : Nat × Int :=
  if m = 0 then (0, 0)
  else
    let q := max (e + (m.log2 : Int) - f.fb) (f.emin - f.fb)
    ((quantize .rn s m e q).1, q)

/-- Steps 3 to 5 of R169 for an FP format; what saturates is judged after rounding (DEDUCED, log 153). -/
def convertFp (f : FFmt) (v : FVal) : Converted :=
  match v with
  | .nan _ _ _ => ⟨f.nan, false, f.top == .none⟩
  | .inf s => if f.top == .ieee then ⟨f.inf s, false, false⟩ else ⟨f.maxOf s, false, false⟩
  | .fin s m e =>
    let r := f.roundFree s m e
    if magLe r f.maxVal then ⟨(f.round .rn false s r.1 r.2).1, false, false⟩ else ⟨f.maxOf s, true, false⟩

/-- A value converted into an element format other than CB2. -/
def EFmt.convert (f : EFmt) (v : FVal) : Converted :=
  match f with
  | .int8 => convertInt 8 v
  | .int4 => convertInt 4 v
  | _ => match EFmt.ffmt? f with | some g => convertFp g v | none => ⟨0, false, false⟩

/-- The largest finite magnitude of an element format. -/
def EFmt.largest (f : EFmt) : Nat × Int :=
  match f with
  | .int8 => (127, 0)
  | .int4 => (7, 0)
  | _ => match EFmt.ffmt? f with | some g => g.maxVal | none => (0, 0)

/-- The least of the shifts −127 to 127 that brings a magnitude within another, searched upwards from `n`. -/
def leastShift (v lim : Nat × Int) : Nat → Int → Int
  | 0, n => n
  | k + 1, n => if magLe (v.1, v.2 - n) lim then n else leastShift v lim k (n + 1)

/-- Step 2 of R169: the shift of a block, −128 for a block of zeros. -/
def EFmt.blockShift (f : EFmt) (vs : List FVal) : Int :=
  let mags := vs.filterMap fun v => match v with | .fin _ m e => if m = 0 then none else some (m, e) | _ => none
  let allZero := vs.all fun v => match v with | .fin _ m _ => m == 0 | _ => false
  let infinite := vs.any fun v => match v with | .inf _ => true | _ => false
  -- no shift brings an infinite magnitude within the format's largest finite value
  if infinite then 127
  else match mags with
  | [] => if allZero then -128 else -127
  | m :: ms => leastShift (ms.foldl (fun a b => if magLe a b then b else a) m) (EFmt.largest f) 254 (-127)

end Sys2Proof.Machine
end

