-- ==== Sys2Proof/Machine/Fp.lean ====
section
/-! DEFINITION. The floating-point instructions of class alu (R62 to R76) and the special-function unit
(R83 to R86). -/

namespace Sys2Proof.Machine

/-! ## Operands and results -/

/-- How an FP instruction reads a constant: by P (R27). -/
def fpRd (single : Bool) : Rd := if single then .fp32 else .q64

/-- The bits of an FP source: [31:0] with P = 1 (R62). -/
def fpBits (single : Bool) (x : Word) : Nat := if single then x.toNat % 2 ^ 32 else x.toNat

/-- An FP result in D; a poisoned result raises no flag (R377). -/
def fpOne (d : Opnd) (r : Nat × FFlags) (p : Bool) : WordRes :=
  .eff [(d, ⟨BitVec.ofNat 64 r.1, p⟩)] [] (if p then 0 else r.2)

/-- A rounding instruction of A: RM resolved by the fibre's `frm` (R63). -/
def fpRound1 (m : FpMod) (d a : Opnd) (f : Rm → Nat → Nat × FFlags) (v : View) : WordRes :=
  let rm := resolveRm m.rm v.fib.frm
  let x := v.rdAs (fpRd m.single) a
  let r := f rm.1 (fpBits m.single x.v)
  fpOne d (r.1, r.2 ||| rm.2) x.p

/-- A rounding instruction of A and B. -/
def fpRound2 (m : FpMod) (d a b : Opnd) (f : Rm → Nat → Nat → Nat × FFlags) (v : View) : WordRes :=
  let rm := resolveRm m.rm v.fib.frm
  let x := v.rdAs (fpRd m.single) a
  let y := v.rdAs (fpRd m.single) b
  let r := f rm.1 (fpBits m.single x.v) (fpBits m.single y.v)
  fpOne d (r.1, r.2 ||| rm.2) (x.p || y.p)

/-- An instruction of A that never rounds. -/
def fpExact1 (single : Bool) (d a : Opnd) (f : Nat → Nat × FFlags) (v : View) : WordRes :=
  let x := v.rdAs (fpRd single) a
  fpOne d (f (fpBits single x.v)) x.p

/-- An instruction of A and B that never rounds. -/
def fpExact2 (single : Bool) (d a b : Opnd) (f : Nat → Nat → Nat × FFlags) (v : View) : WordRes :=
  let x := v.rdAs (fpRd single) a
  let y := v.rdAs (fpRd single) b
  fpOne d (f (fpBits single x.v) (fpBits single y.v)) (x.p || y.p)

/-! ## R67 to R76 -/

def execFadd (g : Guard) (m : FpMod) (d a b : Opnd) (s : State) : Result :=
  .next (s.word g (fpRound2 m d a b fun rm => (fpFmt m.single).add rm m.ftz))
def execFsub (g : Guard) (m : FpMod) (d a b : Opnd) (s : State) : Result :=
  .next (s.word g (fpRound2 m d a b fun rm => (fpFmt m.single).sub rm m.ftz))
def execFmul (g : Guard) (m : FpMod) (d a b : Opnd) (s : State) : Result :=
  .next (s.word g (fpRound2 m d a b fun rm => (fpFmt m.single).mul rm m.ftz))
def execFfma (g : Guard) (m : FpMod) (d a b c : Opnd) (s : State) : Result :=
  .next (s.word g fun v =>
    let rm := resolveRm m.rm v.fib.frm
    let x := v.rdAs (fpRd m.single) a
    let y := v.rdAs (fpRd m.single) b
    let z := v.rdAs (fpRd m.single) c
    let r := (fpFmt m.single).fma rm.1 m.ftz (fpBits m.single x.v) (fpBits m.single y.v) (fpBits m.single z.v)
    fpOne d (r.1, r.2 ||| rm.2) (x.p || y.p || z.p))
/-- The result of a minimum or maximum, flushed under Z (R66, R68). -/
def minMaxV (big num ftz single : Bool) (a b : Nat) : Nat × FFlags := (fpFmt single).minMax big num ftz a b
def execFmin (g : Guard) (num ftz single : Bool) (d a b : Opnd) (s : State) : Result :=
  .next (s.word g (fpExact2 single d a b (minMaxV false num ftz single)))
def execFmax (g : Guard) (num ftz single : Bool) (d a b : Opnd) (s : State) : Result :=
  .next (s.word g (fpExact2 single d a b (minMaxV true num ftz single)))
/-- R69; a poisoned source traps (R379). -/
def execFcmp (g : Guard) (c : FCond) (ftz single : Bool) (d : Fin 8) (a b : Opnd) (s : State) : Result :=
  .next (s.word g fun v =>
    let x := v.rdAs (fpRd single) a
    let y := v.rdAs (fpRd single) b
    let r := (fpFmt single).cmp c ftz (fpBits single x.v) (fpBits single y.v)
    if x.p || y.p then poisonTrap else .eff [] [(d, r.1)] r.2)
def execFclass (g : Guard) (ftz single : Bool) (d a : Opnd) (s : State) : Result :=
  .next (s.word g (fpExact1 single d a fun x => (2 ^ (fpFmt single).classOf ftz x, 0)))
def execFrint (g : Guard) (exact : Bool) (m : FpMod) (d a : Opnd) (s : State) : Result :=
  .next (s.word g (fpRound1 m d a fun rm => (fpFmt m.single).rint rm exact m.ftz))

/-- An integer as a result of 64 bits. -/
def intBits (r : Int × FFlags) : Nat × FFlags := ((r.1 % 2 ^ 64).toNat, r.2)

/-- R72: a conversion of the source's bits. -/
def cvtV (f : CvtOp) (ftz single : Bool) (rm : Rm) (x : Nat) : Nat × FFlags :=
  let fm := fpFmt single
  match f with
  | .f2f => if single then binary32.convert binary64 .rn ftz false x else binary64.convert binary32 rm false false x
  | .f2i => intBits (fm.toInt rm ftz true 64 x)
  | .f2n => intBits (fm.toInt rm ftz false 64 x)
  | .f2iw => intBits (fm.toInt rm ftz true 32 x)
  | .f2nw => intBits (fm.toInt rm ftz false 32 x)
  | .i2f => fm.roundInt rm ftz false (toSigned 64 x) 0
  | .n2f => fm.roundInt rm ftz false x 0

/-- R72; the sources of `i2f` and `n2f` are 64-bit integers whatever P names. -/
def execFcvt (g : Guard) (f : CvtOp) (m : FpMod) (d a : Opnd) (s : State) : Result :=
  .next (s.word g fun v =>
    let int := f == .i2f || f == .n2f
    let rm := resolveRm m.rm v.fib.frm
    let x := v.rdAs (if int then .q64 else fpRd m.single) a
    let r := cvtV f m.ftz m.single rm.1 (if int then x.v.toNat else fpBits m.single x.v)
    fpOne d (r.1, r.2 ||| rm.2) x.p)
/-- R73; B is a signed 64-bit integer. -/
def execFscale (g : Guard) (m : FpMod) (d a b : Opnd) (s : State) : Result :=
  .next (s.word g fun v =>
    let rm := resolveRm m.rm v.fib.frm
    let x := v.rdAs (fpRd m.single) a
    let n := v.rd b
    let r := (fpFmt m.single).scale rm.1 m.ftz (fpBits m.single x.v) n.v.toInt
    fpOne d (r.1, r.2 ||| rm.2) (x.p || n.p))
def execFexpo (g : Guard) (mant ftz single : Bool) (d a : Opnd) (s : State) : Result :=
  .next (s.word g (fpExact1 single d a fun x =>
    if mant then (fpFmt single).mant ftz x else intBits ((fpFmt single).expo ftz x)))

/-- R75: a pair is written; poison reaches both (R378). -/
def fpPair (prod single : Bool) (d a b : Opnd) (v : View) : WordRes :=
  let x := v.rdAs (fpRd single) a
  let y := v.rdAs (fpRd single) b
  let p := x.p || y.p
  let r := (fpFmt single).two prod (fpBits single x.v) (fpBits single y.v)
  .eff [(d, ⟨BitVec.ofNat 64 r.1, p⟩), (d.succ, ⟨BitVec.ofNat 64 r.2.1, p⟩)] [] (if p then 0 else r.2.2)
def execF2sum (g : Guard) (single : Bool) (d a b : Opnd) (s : State) : Result :=
  .next (s.word g (fpPair false single d a b))
def execF2prod (g : Guard) (single : Bool) (d a b : Opnd) (s : State) : Result :=
  .next (s.word g (fpPair true single d a b))

/-- The 16-bit format that F[0] names (R76). -/
def halfFmt (bf : Bool) : FFmt := if bf then bfloat16 else binary16
/-- R76: two values narrowed into 32 bits; results keep their subnormals (R62 to R65). -/
def packV (bf ftz single : Bool) (rm : Rm) (a b : Nat) : Nat × FFlags :=
  let x := (fpFmt single).convert (halfFmt bf) rm ftz false a
  let y := (fpFmt single).convert (halfFmt bf) rm ftz false b
  (x.1 + y.1 * 2 ^ 16, x.2 ||| y.2)
def execFpack (g : Guard) (bf : Bool) (m : FpMod) (d a b : Opnd) (s : State) : Result :=
  .next (s.word g (fpRound2 m d a b fun rm => packV bf m.ftz m.single rm))
/-- R76: one half widened. -/
def execFunpk (g : Guard) (bf hi ftz single : Bool) (d a : Opnd) (s : State) : Result :=
  .next (s.word g (fpExact1 single d a fun x =>
    (halfFmt bf).convert (fpFmt single) .rn false ftz (if hi then x / 2 ^ 16 % 2 ^ 16 else x % 2 ^ 16)))

/-! ## The special-function unit (R83 to R86) -/

def execSqrt (g : Guard) (m : FpMod) (d a : Opnd) (s : State) : Result :=
  .next (s.word g (fpRound1 m d a fun rm => (fpFmt m.single).sqrt rm m.ftz))
def execDiv (g : Guard) (m : FpMod) (d a b : Opnd) (s : State) : Result :=
  .next (s.word g (fpRound2 m d a b fun rm => (fpFmt m.single).div rm m.ftz))

/-- An approximation with a NaN operand (R64), else by its value. -/
def approxV (single ftz : Bool) (a : Nat) (f : FVal → Nat × FFlags) : Nat × FFlags :=
  let x := (fpFmt single).val ftz a
  match (fpFmt single).firstNan [x] with
  | some n => (n, sigFlag [x])
  | none => f x

/-- The device's bits for v × 2 to e within `k` ulp: OF alone on overflow, UF alone on underflow where the
row names it (R83, R85). -/
def approxFin (single ftz : Bool) (op k a : Nat) (named : FFlags) (v e : Int) : Nat × FFlags :=
  let f := fpFmt single
  let r := f.roundInt .rn false false v e
  if r.2 &&& ofFlag != 0 then (r.1, ofFlag &&& named)
  else
    let b := f.approx k v e (Config.sfuBits op single a)
    (f.flush ftz b, if f.tiny b then ufFlag &&& named else 0)

/-- `rcp` (R85). -/
def rcpV (single ftz : Bool) (a : Nat) : Nat × FFlags :=
  let f := fpFmt single
  approxV single ftz a fun x =>
    match x with
    | .fin s m e =>
      if m = 0 then (f.inf s, dzFlag)
      else
        let q := divBits (f.fb + 70) 1 m
        approxFin single ftz 0x00 1 a ofFlag (signed s q.1) (q.2 - e)
    | .inf s => (f.zero s, 0)
    | .nan _ _ _ => (f.nan, 0)

/-- 1 ÷ √(m × 2 to e) to 150 bits. -/
def rsqBits (m : Nat) (e : Int) : Nat × Int :=
  let n := if e % 2 = 0 then m else 2 * m
  let h := if e % 2 = 0 then e / 2 else (e - 1) / 2
  let k := 200 + n.log2
  (isqrt (2 ^ (2 * k) / n), -(k : Int) - h)

/-- `rsq` (R85). -/
def rsqV (single ftz : Bool) (a : Nat) : Nat × FFlags :=
  let f := fpFmt single
  approxV single ftz a fun x =>
    match x with
    | .fin s m e =>
      if m = 0 then (f.inf s, dzFlag)
      else if s then (f.nan, nvFlag)
      else
        let q := rsqBits m e
        approxFin single ftz 0x01 1 a 0 q.1 q.2
    | .inf s => if s then (f.nan, nvFlag) else (f.zero false, 0)
    | .nan _ _ _ => (f.nan, 0)

/-- `exp2` (R85): an integral power is exact when representable. -/
def exp2V (single ftz : Bool) (a : Nat) : Nat × FFlags :=
  let f := fpFmt single
  approxV single ftz a fun x =>
    match x with
    | .fin s m e =>
      -- the argument in fixed point, and whether it is an integer
      let big := decide (20 < e + (m.log2 : Int))
      let y : Int := if big then signed s 1 * 2 ^ 20 * 2 ^ fixBits
        else if 0 ≤ e + fixBits then signed s m * 2 ^ (e + fixBits).toNat
        else signed s m / 2 ^ (-(e + fixBits)).toNat
      let n := max (-3000) (min 3000 (y / 2 ^ fixBits))
      let fr := (y % 2 ^ fixBits).toNat
      let whole := decide (m = 0) || (decide (fr = 0) && decide (0 ≤ e + fixBits) && !big)
      if whole && decide (f.emin - f.fb ≤ n) && decide (n ≤ f.bias) then
        let r := f.round .rn ftz false 1 n
        (r.1, r.2 &&& (ofFlag ||| ufFlag))
      -- so near 1 that the fixed point cannot tell them apart
      else if e + (m.log2 : Int) < -200 then
        approxFin single ftz 0x04 2 a (ofFlag ||| ufFlag) (2 ^ fixBits + signed s 1) (-(fixBits : Int))
      else approxFin single ftz 0x04 2 a (ofFlag ||| ufFlag) (expFix ((fr * ln2Fix) >>> fixBits)) (n - fixBits)
    | .inf s => (if s then f.zero false else f.inf false, 0)
    | .nan _ _ _ => (f.nan, 0)

/-- `log2` (R85): a power of two is exact. -/
def log2V (single ftz : Bool) (a : Nat) : Nat × FFlags :=
  let f := fpFmt single
  approxV single ftz a fun x =>
    match x with
    | .fin s m e =>
      let n := e + (m.log2 : Int)
      if m = 0 then (f.inf true, dzFlag)
      else if s then (f.nan, nvFlag)
      else if m = 2 ^ m.log2 then ((f.roundInt .rn false false n 0).1, 0)
      else
        approxFin single ftz 0x05 2 a 0
          (n * 2 ^ fixBits + ((lnFix m m.log2 <<< fixBits) / ln2Fix : Nat)) (-(fixBits : Int))
    | .inf s => if s then (f.nan, nvFlag) else (f.inf false, 0)
    | .nan _ _ _ => (f.nan, 0)

/-- A value in [−1, 1]: what `sin` and `cos` return beyond their bound (R85, log 9). -/
def boundedBits (f : FFmt) (ftz : Bool) (cand : Nat) : Nat :=
  let c := cand % 2 ^ f.width
  match f.val false c with
  | .fin _ m e => if decide (e + (m.log2 : Int) < 0) || m == 0 || (m == 2 ^ m.log2 && decide (e + (m.log2 : Int) = 0))
      then f.flush ftz c else f.zero false
  | _ => f.zero false

/-- sin or cos of a fixed-point argument, by quadrants. -/
def trigFix (cosine : Bool) (x : Int) : Int :=
  let half : Int := piFix / 2
  let k := (x + half / 2) / half
  let r := x - k * piFix / 2
  match (k + (if cosine then 1 else 0)) % 4 with
  | 0 => sinFix r
  | 1 => cosFix r
  | 2 => -sinFix r
  | _ => -cosFix r

/-- `sin` and `cos` of a finite argument (R85). -/
def trigV (cosine single ftz : Bool) (a : Nat) : Nat × FFlags :=
  let f := fpFmt single
  let op := if cosine then 0x07 else 0x06
  approxV single ftz a fun x =>
    match x with
    | .fin s m e =>
      let top := e + (m.log2 : Int)
      if m = 0 then (if cosine then (f.round .rn false false 1 0).1 else f.zero s, 0)
      else if decide (25 < top) || (decide (0 < top) && decide (piFix * 2 ^ 20 < m * 2 ^ (e + fixBits).toNat)) then
        (boundedBits f ftz (Config.sfuBits op single a), 0)
      else if top < -60 then
        -- just below 1, and just below the argument's magnitude
        if cosine then approxFin single ftz op 2 a 0 (2 ^ 200 - 1) (-200)
        else approxFin single ftz op 2 a 0 (signed s (m * 2 ^ 200 - 1)) (e - 200)
      else
        approxFin single ftz op 2 a 0 (trigFix cosine (signed s m * 2 ^ (e + fixBits).toNat)) (-(fixBits : Int))
    | .inf _ => (f.nan, nvFlag)
    | .nan _ _ _ => (f.nan, 0)

def execRcp (g : Guard) (ftz single : Bool) (d a : Opnd) (s : State) : Result :=
  .next (s.word g (fpExact1 single d a (rcpV single ftz)))
def execRsq (g : Guard) (ftz single : Bool) (d a : Opnd) (s : State) : Result :=
  .next (s.word g (fpExact1 single d a (rsqV single ftz)))
def execExp2 (g : Guard) (ftz single : Bool) (d a : Opnd) (s : State) : Result :=
  .next (s.word g (fpExact1 single d a (exp2V single ftz)))
def execLog2 (g : Guard) (ftz single : Bool) (d a : Opnd) (s : State) : Result :=
  .next (s.word g (fpExact1 single d a (log2V single ftz)))
def execSin (g : Guard) (ftz single : Bool) (d a : Opnd) (s : State) : Result :=
  .next (s.word g (fpExact1 single d a (trigV false single ftz)))
def execCos (g : Guard) (ftz single : Bool) (d a : Opnd) (s : State) : Result :=
  .next (s.word g (fpExact1 single d a (trigV true single ftz)))
def execIdiv (g : Guard) (u w : Bool) (d a b : Opnd) (s : State) : Result :=
  .next (s.word g (int2 w d a (.opnd b) (idivV u w)))
def execIrem (g : Guard) (u w : Bool) (d a b : Opnd) (s : State) : Result :=
  .next (s.word g (int2 w d a (.opnd b) (iremV u w)))

end Sys2Proof.Machine
end

