-- ==== Sys2Proof/Machine/Lane.lean ====
section
/-! DEFINITION. Tiles and the tile-collective instructions of class alu: `tset` and the lane operations
(R59, R77 to R82, R110). -/

namespace Sys2Proof.Machine

/-! ## Tiles (R77, R110) -/

/-- The lowest lane of a fibre's tile. -/
def Fibre.tileBase (f : Fibre) : Nat := f.fid.lane - f.fid.lane % f.tile

/-- The participants of the fibre's group hold one tile size (R77). -/
def tileUniform (vs : List View) (v : View) : Bool :=
  vs.all fun u => u.fib.fid.grp != v.fib.fid.grp || u.fib.tile == v.fib.tile

/-- The participants of the fibre's tile, in ascending lane order. -/
def tileMates (vs : List View) (v : View) : List View :=
  vs.filter fun u => u.fib.fid.grp == v.fib.fid.grp && u.fib.tileBase == v.fib.tileBase

/-- A tile-collective word: `f` gives a participant's effect from its tile's participants, none for no
effect. Participants whose group holds several tile sizes trap 0x02 (R77). -/
def State.tileWord (s : State) (f : List View → View → Option WordRes) : State :=
  let vs := s.views
  (vs.filterMap fun v =>
    (if tileUniform vs v then f (tileMates vs v) v else some v.operandTrap).map fun r => (v, r)).foldl
    (fun acc vr => acc.apply vr.1 vr.2) s

/-- A tile-collective word that gives results to active fibres only: `f` sees the active fibres. -/
def State.laneWord (s : State) (g : Guard) (f : List View → View → WordRes) : State :=
  s.tileWord fun mates v => if v.guard g then some (f (mates.filter (·.guard g)) v) else none

/-- The fibre of a lane among some. -/
def atLane (vs : List View) (l : Nat) : Option View := vs.find? (fun u => u.fib.fid.lane == l)

/-! ## `tset` (R59) -/

/-- T is allowed for a group of width `w`. -/
def tileOk (t : Nat) (w : Nat) : Bool := [2, 4, 8, 16, 32].contains t && decide (t ≤ w)

/-- The trap of a tile's `tset`, or the new size; none when no fibre of the tile supplies. -/
def tsetRes (g : Guard) (b : Src) (mates : List View) : Option (Nat ⊕ Nat) :=
  match mates.find? (·.guard g) with
  | none => none
  | some u =>
    let x := u.src .q64 b
    if x.p then some (.inl 0x0E)
    else if tileOk x.v.toNat u.grp.width then some (.inr x.v.toNat)
    else some (.inl 0x02)

def execTset (g : Guard) (b : Src) (s : State) : Result :=
  let vs := s.views
  .next (vs.foldl (fun acc v =>
    if !tileUniform vs v then acc.apply v v.operandTrap
    else
      match tsetRes g b (tileMates vs v) with
      | some (.inl code) => acc.apply v (.trap code 0 (if code = 2 then v.run.hdr else 0))
      | some (.inr t) => (acc.modFib v.fib.fid fun f => { f with tile := t }).markTook v
      | none => acc) s)

/-! ## Lane operations (R78 to R82) -/

/-- The source lane of a shuffle, if it lies in the tile (R78). -/
def shflLane (m : ShflMode) (v : View) (k : Nat) : Option Nat :=
  let l := v.fib.fid.lane
  let tb := v.fib.tileBase
  let t := v.fib.tile
  match m with
  | .idx => some (tb + k % t)
  | .up => if l < k + tb then none else some (l - k)
  | .down => if tb + t - 1 < l + k then none else some (l + k)
  | .xor => some (tb + ((l - tb) ^^^ (k % t)))

def execShfl (g : Guard) (m : ShflMode) (d a : Opnd) (b : Src) (s : State) : Result :=
  .next (s.laneWord g fun active v =>
    let k := v.src .q64 b
    if k.p then poisonTrap
    else
      let r := match (shflLane m v k.v.toNat).bind (atLane active) with
        | some u => u.rd a
        | none => v.rd a
      one d r.v r.p)

/-- The mask of the active lanes of a tile for which `p` holds, bit 0 the tile's lowest lane. -/
def laneMask (active : List View) (tb : Nat) (p : View → Bool) : Word :=
  BitVec.ofNat 64 ((active.filter p).foldl (fun acc u => acc + 2 ^ (u.fib.fid.lane - tb)) 0)

def execVote (g : Guard) (d : VoteDst) (a : Fin 8) (s : State) : Result :=
  .next (s.laneWord g fun active v =>
    match d with
    | .any p => .preds [(p, active.any (fun u => u.fib.pred a))]
    | .all p => .preds [(p, active.all (fun u => u.fib.pred a))]
    | .bal x => one x (laneMask active v.fib.tileBase (fun u => u.fib.pred a)) false)

/-- R80: the comparison covers the low 32 bits with W = 1. -/
def execMatchL (g : Guard) (w : Bool) (d a : Opnd) (s : State) : Result :=
  .next (s.laneWord g fun active v =>
    let val := fun (u : View) => u.rdAs (intRd w) a
    let m := laneMask active v.fib.tileBase (fun u => lowBits w (val u).v == lowBits w (val v).v)
    one d m (active.any fun u => (val u).p))

/-- One step of a combination (R81): W = 1 works on 32 bits, `.fadd` rounds to nearest even. -/
def laneStep (op : LaneOp) (u w : Bool) (x y : Word) : Word × FFlags :=
  match op with
  | .add => (iaddV false u w x y, 0)
  | .min => (iminV u w x y, 0)
  | .max => (imaxV u w x y, 0)
  | .and => (andV u w x y, 0)
  | .or => (orV u w x y, 0)
  | .xor => (xorV u w x y, 0)
  | .fadd =>
    let r := (fpFmt w).add .rn false (fpBits w x) (fpBits w y)
    (BitVec.ofNat 64 r.1, r.2)

/-- A value as a combination starts from it: extended as R42 gives, FP bits as they are. -/
def laneStart (op : LaneOp) (u w : Bool) (x : Word) : Word :=
  if op == .fadd then BitVec.ofNat 64 (fpBits w x) else extend u w (lowBits w x)

/-- What an exclusive scan starts from (R81). -/
def laneIdentity (op : LaneOp) (u w : Bool) : Word :=
  let n := widthOf w
  match op with
  | .add => 0
  | .min => extend u w (if u then 2 ^ n - 1 else 2 ^ (n - 1) - 1)
  | .max => extend u w (if u then 0 else 2 ^ (n - 1))
  | .and => extend u w (2 ^ n - 1)
  | .or => 0
  | .xor => 0
  | .fadd => BitVec.ofNat 64 (2 ^ (n - 1))

/-- The combinations of the values up to and including each, with the poison of any, and the flags of all
the steps. -/
def laneChain (op : LaneOp) (u w : Bool) : RegCell → List RegCell → List RegCell × FFlags
  | acc, [] => ([acc], 0)
  | acc, c :: cs =>
    let r := laneStep op u w acc.v c.v
    let rest := laneChain op u w ⟨r.1, acc.p || c.p⟩ cs
    (acc :: rest.1, r.2 ||| rest.2)

/-- The inclusive combinations of a tile's active values. -/
def laneScan (op : LaneOp) (u w : Bool) : List RegCell → List RegCell × FFlags
  | [] => ([], 0)
  | c :: cs => laneChain op u w ⟨laneStart op u w c.v, c.p⟩ cs

/-- How a lane operation reads a constant (R27). -/
def laneRd (op : LaneOp) (w : Bool) : Rd := if op == .fadd then fpRd w else intRd w

/-- A lane result; a poisoned one raises no flag (R377, R378). -/
def laneRes (d : Opnd) (c : RegCell) (fl : FFlags) : WordRes :=
  .eff [(d, c)] [] (if c.p then 0 else fl)

def execRedl (g : Guard) (op : LaneOp) (u w : Bool) (d a : Opnd) (s : State) : Result :=
  .next (s.laneWord g fun active _ =>
    let r := laneScan op u w (active.map fun x => x.rdAs (laneRd op w) a)
    laneRes d (r.1.getLastD default) r.2)

/-- R81: an exclusive scan combines the values strictly before the fibre's own. -/
def execScanl (g : Guard) (op : LaneOp) (excl u w : Bool) (d a : Opnd) (s : State) : Result :=
  .next (s.laneWord g fun active v =>
    let cells := active.map fun x => x.rdAs (laneRd op w) a
    let i := active.findIdx (fun x => x.fib.fid == v.fib.fid)
    if excl then
      let r := laneScan op u w cells.dropLast
      laneRes d ((⟨laneIdentity op u w, false⟩ :: r.1).getD i default) r.2
    else
      let r := laneScan op u w cells
      laneRes d (r.1.getD i default) r.2)

def execFirst (g : Guard) (d a : Opnd) (s : State) : Result :=
  .next (s.laneWord g fun active v =>
    let r := match active with | u :: _ => u.rd a | [] => v.rd a
    one d r.v r.p)

end Sys2Proof.Machine
end

