-- ==== Sys2Proof/Machine/Paths.lean ====
section
/-! DEFINITION. Paths and their entries, parking, executions, and the life of a fibre from `fork` to
`exit` (R29, R91, R105, R117 to R119). -/

namespace Sys2Proof.Machine

/-! ## Paths and the pool of 48 entries (R117, R118) -/

/-- A member of an execution that has yet to end its clause: it runs it, or stands ready to start it (R29). -/
def Fibre.owes (f : Fibre) : Bool :=
  f.member && (f.busy || (f.hold == .free && f.trap.isNone && !f.parked))

/-- Some fibre of the group has yet to end the clause of execution `e`. -/
def State.execOpen (s : State) (t g e : Nat) : Bool :=
  e != 0 && (s.grpFibres t g).any fun f => f.exec == e && f.owes

/-- Where a fibre counts for its group's paths: one that has ended a clause which others of its execution still
run counts with them (R117, R118). -/
def State.pathPc (s : State) (f : Fibre) : Word :=
  if f.exec == 0 || f.member then f.pc
  else match (s.grpFibres f.fid.team f.fid.grp).find? fun g => g.exec == f.exec && g.owes with
    | some g => g.pc
    | none => f.pc

/-- The program counters at which a group's unparked fibres stand: one path each. -/
def State.pathPcs (s : State) (t g : Nat) : List Word :=
  ((s.grpFibres t g).filter (fun f => !f.parked)).foldl
    (fun l f => let pc := s.pathPc f; if l.contains pc then l else pc :: l) []

/-- Pool entries in use on a core: the paths beyond each resident group's first. -/
def State.poolUsed (s : State) (core : Nat) : Nat :=
  (s.groups.filter fun g =>
    match s.team? g.team with | some t => t.core == core && t.phase == .resident | none => false).foldl
    (fun n g => n + ((s.pathPcs g.team g.grp).length - 1)) 0

/-- Entries of the pool (R3). -/
def poolSize : Nat := 48

/-- A fibre becomes one of its tile's present fibres, or ceases to stand with them: its mates that stand at a
tile-collective clause start it only together with all who are present (R110, R111), so they form no execution yet. -/
def State.loosen (s : State) (f : FibId) : State :=
  s.modFibs (fun g => g.fid.team == f.team && g.fid.grp == f.grp && g.fid != f && g.member && g.tiled && !g.busy
      && decide (g.tileBase ≤ f.lane) && decide (f.lane < g.tileBase + g.tile))
    fun g => { g with exec := 0, member := false }

/-- Some other fibres of the core have been parked for longer: a free entry is theirs (R119). -/
def State.othersWait (s : State) (core : Nat) (fs : List FibId) : Bool :=
  let since := (s.fibres.filter fun f => fs.contains f.fid).map (·.entryAt)
  s.fibres.any fun g => g.parked && !fs.contains g.fid && since.all (fun c => decide (g.entryAt < c))
    && match s.team? g.fid.team with | some t => t.core == core && t.phase == .resident | none => false

/-- Parked fibres take an entry, unless they would need one of the pool and none is free, or others have waited longer
for it (R118, R119): a path that stands where they do, or their group's reserved entry, takes them without. -/
def State.claimEntry (s : State) (core : Nat) (fs : List FibId) : State :=
  let s1 := s.modFibs (fun f => fs.contains f.fid) fun f => { f with parked := false, entryAt := s.clock }
  let s1 := fs.foldl State.loosen s1
  if (s1.poolUsed core ≤ poolSize ∧ !s.othersWait core fs) ∨ s1.poolUsed core = s.poolUsed core then s1 else s

/-- Fibres parked. -/
def State.parkAll (s : State) (fs : List FibId) : State :=
  s.modFibs (fun f => fs.contains f.fid) fun f => { f with parked := true, entryAt := s.clock, exec := 0, member := false }

/-- A fibre moved to a header. -/
def State.moveTo (s : State) (f : FibId) (pc : Word) : State := s.modFib f fun x => { x with pc := pc }

/-- The parked set of a group that has waited longest. -/
def State.longestOf (s : State) (t g : Nat) : Option Fibre :=
  ((s.grpFibres t g).filter (·.parked)).foldl (fun b f => match b with
    | none => some f
    | some x => if f.entryAt < x.entryAt then some f else some x) none

/-- The parked fibres of a group at one program counter become a path. -/
def State.unpark (s : State) (team grp : Nat) (pc : Word) : State :=
  let mine := ((s.grpFibres team grp).filter fun f => f.pc == pc && f.parked).map (·.fid)
  mine.foldl State.loosen
    (s.modFibs (fun f => mine.contains f.fid) fun f => { f with parked := false, entryAt := s.clock })

/-- R120: a live group whose last path has gone gives its reserved entry to the set that has waited longest. -/
def State.reserve (s : State) (t g : Nat) : State :=
  if (s.grpFibres t g).all (·.parked) then
    match s.longestOf t g with
    | some f => s.unpark t g f.pc
    | none => s
  else s

/-! ## Executions (R29) -/

/-- A path whose clause the last fibre of execution `e` has ended stands at the places its fibres went to: those at
`next`, or else the lowest lane's, keep its entry, and the others claim one each (R118; log 193). -/
def State.closeExec (s : State) (core t g e : Nat) (next : Word) : State :=
  if e = 0 || s.execOpen t g e then s
  else
    let mine := (s.grpFibres t g).filter fun f => f.exec == e
    let s := s.modFibs (fun f => f.fid.team == t && f.fid.grp == g && f.exec == e) fun f => { f with exec := 0, member := false }
    let mine := mine.filter fun f => !f.parked
    let pcs := (mine.map (·.pc)).eraseDups
    let stay := if pcs.contains next then next else pcs.headD next
    let at_ := fun (pc : Word) => (mine.filter fun f => f.pc == pc).map (·.fid)
    let away := pcs.filter (· != stay)
    away.foldl (fun s pc => s.claimEntry core (at_ pc)) (s.parkAll (away.flatMap at_))

/-- A fibre that does not run the clause with its execution leaves it, with those of its tile that cannot run it
without it, and the path closes when it was the last. -/
def State.leaveExec (s : State) (core : Nat) (f : FibId) (next : Word) : State :=
  match s.fib? f with
  | none => s
  | some b =>
    ((s.modFib f fun x => { x with exec := 0, member := false }).loosen f).closeExec core f.team f.grp b.exec next

/-! ## Creating fibres (R91, R104, R105) -/

/-- Lanes of a group not filled. -/
def State.freeLanes (s : State) (g : Group) : List Nat :=
  (List.range g.width).filter fun l => !(s.fibres.any fun f => f.fid == ⟨g.team, g.grp, l⟩)

/-- A fibre as `fork` creates it (R91); at launch x0 and x1 are 0 and `frm` is 0 (R104). -/
def newFibre (fid : FibId) (pc : Word) (x0 x1 : RegCell) (frm : BitVec 3) (tile exec : Nat) : Fibre :=
  { fid := fid, pc := pc, x := NMap.set (NMap.set [] 0 x0) 1 x1, t := [], preds := 0x80, lr := 0,
    fflags := 0, frm := frm, tile := tile, flags := [], kleft := 0, ksig := 0, tcause := 0, taddr := 0,
    epc := 0, h := false, hold := .free, waits := [], busy := false, trap := none, parked := false, entryAt := 0,
    exec := exec, member := false, tiled := false, under := [], redo := false, later := none, unproven := [], yielded := false, starved := false, lastStart := 0 }

/-- Fibres kept in ascending order of team, group and lane. -/
def insFibre (f : Fibre) : List Fibre → List Fibre
  | [] => [f]
  | g :: l =>
    if decide (f.fid.team < g.fid.team) || (f.fid.team == g.fid.team && fibBefore f.fid g.fid) then f :: g :: l
    else g :: insFibre f l

end Sys2Proof.Machine
end

