-- ==== Sys2Proof/Machine/Control.lean ====
section
/-! DEFINITION. The control instructions (R87 to R92). Each only notes where its fibres go: they move when
the clause ends (R13). -/

namespace Sys2Proof.Machine

/-- An earlier word of the clause raised a trap for the fibre: the closing control instruction takes no
effect for it (R384). -/
def View.trapped (v : View) : Bool :=
  match v.fib.trap with | some t => t.hdr == v.run.hdr | none => false

/-- A fibre's branch noted. -/
def State.branchTo (s : State) (v : View) (target : Word) : State :=
  (s.modRun v.run.id fun r => { r with branch := (v.fib.fid, target) :: r.branch }).markTook v

/-- A control word for each guard-true fibre that no earlier word trapped. -/
def State.control (s : State) (g : Guard) (f : State → View → State) : State :=
  s.wordSeq g fun acc v => if v.trapped then acc else f acc v

/-- R87, R31. -/
def execBra (g : Guard) (off : BitVec 16) (s : State) : Result :=
  .next (s.control g fun acc v => acc.branchTo v (branchTarget v.run.hdr off.toInt))

/-- R88: a tile's decision, followed by every participant. -/
def State.tileBranch (s : State) (g : Guard) (p : Fin 8) (off : BitVec 16) (decision : List Bool → Bool) : State :=
  let vs := s.views
  vs.foldl (fun acc v =>
    if !tileUniform vs v then acc.apply v v.operandTrap
    else
      let active := (tileMates vs v).filter (·.guard g)
      if decision (active.map fun u => u.fib.pred p) && !v.trapped then
        acc.branchTo v (branchTarget v.run.hdr off.toInt)
      else acc) s

def execBany (g : Guard) (p : Fin 8) (off : BitVec 16) (s : State) : Result :=
  .next (s.tileBranch g p off fun l => l.any id)
def execBall (g : Guard) (p : Fin 8) (off : BitVec 16) (s : State) : Result :=
  .next (s.tileBranch g p off fun l => l.all id)
def execBnone (g : Guard) (p : Fin 8) (off : BitVec 16) (s : State) : Result :=
  .next (s.tileBranch g p off fun l => l.all (!·))

/-- A register target: poison and misalignment trap (R13, R379). -/
def jumpTrap (c : RegCell) : Option WordRes :=
  if c.p then some poisonTrap else if c.v.toNat % 64 ≠ 0 then some (.trap 0x03 0 c.v) else none

def execJmpr (g : Guard) (a : Opnd) (s : State) : Result :=
  .next (s.control g fun acc v =>
    match jumpTrap (v.rd a) with
    | some r => acc.apply v r
    | none => acc.branchTo v (v.rd a).v)

/-- `lr` := the header after the calling clause (R89). -/
def State.link (s : State) (v : View) : State := s.modFib v.fib.fid fun f => { f with lr := v.run.next }

def execCall (g : Guard) (off : BitVec 16) (s : State) : Result :=
  .next (s.control g fun acc v => (acc.link v).branchTo v (branchTarget v.run.hdr off.toInt))

def execCallr (g : Guard) (a : Opnd) (s : State) : Result :=
  .next (s.control g fun acc v =>
    match jumpTrap (v.rd a) with
    | some r => acc.apply v r
    | none => (acc.link v).branchTo v (v.rd a).v)

/-- R89: `lr` need only be word-aligned. -/
def execRet (g : Guard) (s : State) : Result :=
  .next (s.control g fun acc v =>
    if v.fib.lr.toNat % 4 ≠ 0 then acc.apply v (.trap 0x03 0 v.fib.lr) else acc.branchTo v v.fib.lr)

/-- R90: the fibre ends when the clause has ended and its tracked instructions have completed. -/
def execExit (g : Guard) (s : State) : Result :=
  .next (s.control g fun acc v =>
    (acc.modRun v.run.id fun r => { r with exits := v.fib.fid :: r.exits }).markTook v)

/-- A fibre put into a lane: it claims an entry (R118), and the fibres of its tile that stand at a tile-collective
clause start it only together with it (R110). -/
def State.fillLane (s : State) (core : Nat) (n : Fibre) : State :=
  let s := { s with fibres := insFibre { n with parked := true, entryAt := s.clock, lastStart := s.clock } s.fibres }
  s.claimEntry core [n.fid]

/-- R91: the lowest free lane of the creator's group is filled; −1 when there is none. -/
def execFork (g : Guard) (d a : Opnd) (off : BitVec 12) (s : State) : Result :=
  .next (s.control g fun acc v =>
    let target := branchTarget v.run.hdr off.toInt
    let acc := acc.markTook v
    match acc.freeLanes v.grp with
    | [] => acc.writeReg v.fib.fid v.key d ⟨0xFFFFFFFFFFFFFFFF, false⟩
    | l :: _ =>
      let n := newFibre ⟨v.team.id, v.grp.grp, l⟩ target (v.rd a) ⟨BitVec.ofNat 64 v.fib.fid.lane, false⟩
        v.fib.frm v.fib.tile 0
      (acc.writeReg v.fib.fid v.key d ⟨BitVec.ofNat 64 l, false⟩).fillLane v.team.core n)

/-- R92: no effect; it counts as a word that took effect for `epc` (R312; DESIGN CHOICE, log 216). -/
def execNop (g : Guard) (s : State) : Result := .next (s.word g fun _ => .nothing)

/-- R92: the batch yields for one selection. -/
def execYld (g : Guard) (s : State) : Result :=
  .next (s.control g fun acc v => (acc.modFib v.fib.fid fun f => { f with yielded := true }).markTook v)

end Sys2Proof.Machine
end

