-- ==== Sys2Proof/Machine/Cache.lean ====
section
/-! DEFINITION. Main memory, its frames and counters, the L2 with its guest copies, the pod L1s and the
region buffers: where bytes lie and what a read or write of a sector at each level does (R178 to R181,
R202 to R205, R214, R232 to R239, R348 to R350, R367). -/

namespace Sys2Proof.Machine

/-! ## Sectors -/

/-- What a read of a sector gives: its 64 bytes and the poison of its words. -/
structure SecVal where
  d : BitVec 512
  p : BitVec 8
  deriving DecidableEq, Repr, Inhabited

/-- A write into a sector: the bits written, words it poisons, words it writes whole and clean (R380). -/
structure SecWrite where
  mask : BitVec 512
  d : BitVec 512
  pois : BitVec 8
  clean : BitVec 8
  deriving DecidableEq, Repr, Inhabited

/-- The sector of an address. -/
def secBase (a : Nat) : Nat := a - a % 64

/-- `n` ones from bit `o`. -/
def ones (w o n : Nat) : BitVec w := BitVec.ofNat w ((2 ^ n - 1) <<< o)

/-- The words of a sector that bytes `o` to `o + n − 1` touch. -/
def wordMask (o n : Nat) : BitVec 8 := if n = 0 then 0 else ones 8 (o / 8) ((o + n - 1) / 8 + 1 - o / 8)

/-- The words of a sector that bytes `o` to `o + n − 1` cover whole. -/
def wholeMask (o n : Nat) : BitVec 8 := ones 8 ((o + 7) / 8) ((o + n) / 8 - (o + 7) / 8)

/-- The number in `n` bits from bit `o` of a sector. -/
def SecVal.bits (v : SecVal) (o n : Nat) : Nat := v.d.toNat >>> o % 2 ^ n

/-- The little-endian number in bytes `o` to `o + n − 1`. -/
def SecVal.nat (v : SecVal) (o n : Nat) : Nat := v.bits (8 * o) (8 * n)

/-- Some word that the bytes touch is poisoned. -/
def SecVal.pois (v : SecVal) (o n : Nat) : Bool := v.p &&& wordMask o n != 0

/-- A write of the low bits of a number at bits `o` to `o + n − 1`, poisoned or clean (R380). -/
def secBits (o n v : Nat) (p : Bool) : SecWrite :=
  let touched := if n = 0 then 0 else wordMask (o / 8) ((o + n + 7) / 8 - o / 8)
  { mask := ones 512 o n, d := BitVec.ofNat 512 ((v % 2 ^ n) <<< o), pois := if p then touched else 0,
    clean := if p || o % 8 != 0 || n % 8 != 0 then 0 else wholeMask (o / 8) (n / 8) }

/-- A write of `n` bytes. -/
def secBytes (o n v : Nat) (p : Bool) : SecWrite := secBits (8 * o) (8 * n) v p

/-- Two writes, the second after the first. -/
def SecWrite.then (a b : SecWrite) : SecWrite :=
  { mask := a.mask ||| b.mask, d := (a.d &&& ~~~b.mask) ||| b.d,
    pois := (a.pois &&& ~~~b.clean) ||| b.pois, clean := (a.clean ||| b.clean) &&& ~~~b.pois }

/-- An empty copy of a sector. -/
def Sector.empty (base : Nat) (tag : Option SealTag) : Sector :=
  { base := base, data := 0, full := false, en := 0, pois := 0, wpois := 0, wclean := 0, writers := [],
    part := 0, filled := 0, tag := tag, sharers := 0 }

/-- The poison of a copy's words. -/
def Sector.poison (c : Sector) : BitVec 8 := c.wpois ||| (c.pois &&& ~~~c.wclean)

def Sector.val (c : Sector) : SecVal := ⟨c.data, c.poison⟩

/-- The copy answers for these words: its fill is in, or each was written whole or poisoned here. -/
def Sector.covers (c : Sector) (words : BitVec 8) : Bool :=
  c.full || words &&& ~~~(c.wclean ||| c.wpois) == 0

/-- The copy holds writes not yet passed on. -/
def Sector.dirty (c : Sector) : Bool := c.en != 0 || c.wpois != 0

/-- A copy written. -/
def Sector.write (c : Sector) (w : SecWrite) (part : Nat) : Sector :=
  { c with data := (c.data &&& ~~~w.mask) ||| (w.d &&& w.mask), en := c.en ||| w.mask,
           wpois := (c.wpois &&& ~~~w.clean) ||| w.pois, wclean := (c.wclean ||| w.clean) &&& ~~~w.pois,
           part := part }

/-- Whose write it now holds. -/
def Sector.wrote (c : Sector) (f : FibId) : Sector :=
  { c with writers := if c.writers.contains f then c.writers else f :: c.writers }

/-- A copy filled from below: the bits written here stay (R179). -/
def Sector.fill (c : Sector) (v : SecVal) (now : Nat) : Sector :=
  { c with data := (v.d &&& ~~~c.en) ||| (c.data &&& c.en), pois := v.p, full := true, filled := now }

/-- What a copy passes on when written back (R179). -/
def Sector.out (c : Sector) : SecWrite := ⟨c.en, c.data &&& c.en, c.wpois, c.wclean⟩

/-- A copy after its write-back: clean when its fill is in. -/
def Sector.cleaned (c : Sector) : Sector :=
  { c with en := 0, wpois := 0, wclean := 0, pois := c.poison, writers := [] }

/-- A write applied to a value. -/
def SecVal.write (v : SecVal) (w : SecWrite) : SecVal :=
  ⟨(v.d &&& ~~~w.mask) ||| (w.d &&& w.mask), (v.p &&& ~~~w.clean) ||| w.pois⟩

/-! ## Lists of copies, bases rising -/

def secFind (l : List Sector) (base : Nat) (tag : Option SealTag) : Option Sector :=
  l.find? fun c => c.base == base && c.tag == tag

def secPut (l : List Sector) (c : Sector) : List Sector :=
  match l with
  | [] => [c]
  | x :: xs =>
    if x.base == c.base && x.tag == c.tag then c :: xs
    else if c.base < x.base then c :: x :: xs else x :: secPut xs c

def secDel (l : List Sector) (base : Nat) (tag : Option SealTag) : List Sector :=
  l.filter fun c => !(c.base == base && c.tag == tag)

/-! ## Spaces, frames, stacks (R214, R232, R234) -/

/-- DPA[55:52]. -/
def spaceOf (a : Nat) : Nat := a / 2 ^ 52 % 16
/-- The frame of a local HBM address. -/
def frameOf (a : Nat) : Nat := a / 2 ^ 20 % 2 ^ 19

/-- The slice that owns a stack or sector in mode P (R9). -/
def ownerOf (mode k : Nat) : Nat := k * mode / 8

/-- A frame-table entry from its fields (R232). -/
def frameWord (v dead : Bool) (owner profile stack sfn : Nat) : Word :=
  BitVec.ofNat 64 ((if v then 2 ^ 31 else 0) + (if dead then 2 ^ 30 else 0) + owner % 8 * 2 ^ 24
    + profile % 16 * 2 ^ 20 + stack % 8 * 2 ^ 16 + sfn % 2 ^ 16)

def fwV (w : Word) : Bool := w.getLsbD 31
def fwDead (w : Word) : Bool := w.getLsbD 30
def fwOwner (w : Word) : Nat := w.toNat / 2 ^ 24 % 8
def fwProfile (w : Word) : Nat := w.toNat / 2 ^ 20 % 16
def fwStack (w : Word) : Nat := w.toNat / 2 ^ 16 % 8
def fwSfn (w : Word) : Nat := w.toNat % 2 ^ 16

/-- The frame-table entry of a frame; a frame of a disabled stack has none and reads V = 0 (R233). -/
def State.frame (s : State) (f : Nat) : Word :=
  if s.stacksOff.contains (f % 8) then 0
  else match NMap.find s.frames f with
    | some w => w
    | none => frameWord true true (ownerOf s.mode (f % 8)) 0 (f % 8) (f / 8)

/-- The masks of a profile, C0 to C4 and PC (R234). -/
def State.profile (s : State) (k : Nat) : List (BitVec 12) :=
  match NMap.find s.profiles k with
  | some m => m
  | none => if k = 5 then [0x002, 0x004, 0x008, 0x010, 0x020, 0x001]
            else [0x042, 0x084, 0x108, 0x210, 0x420, 0x801]

/-- The parity of a number's low `n` bits. -/
def parity : Nat → Nat → Bool
  | 0, _ => false
  | n + 1, v => (v % 2 == 1) != parity n (v / 2)

/-- R234: the pseudo-channel of a frame offset, q = 2 × C + PC. -/
def channelOf (masks : List (BitVec 12)) (a : Nat) : Nat :=
  let hi := BitVec.ofNat 12 (a / 256)
  let bit := fun i => if parity 12 ((hi &&& masks.getD i 0).toNat) then 1 else 0
  2 * (bit 0 + 2 * bit 1 + 4 * bit 2 + 8 * bit 3 + 16 * bit 4) + bit 5

/-- Where a local HBM address lies under a frame-table entry: stack, pseudo-channel and the byte within it (R234). -/
def State.place (s : State) (w : Word) (a : Nat) : Nat × Nat × Nat :=
  (fwStack w, channelOf (s.profile (fwProfile w)) (a % 2 ^ 20), fwSfn w * 16384 + a % 2 ^ 20 / 2 ^ 14 * 256 + a % 256)

/-- A place of HBM that no frame names. -/
def voidDpa (a : Nat) : Nat := 15 * 2 ^ 52 + a % 2 ^ 39

def isVoid (a : Nat) : Bool := spaceOf a == 15

/-- The frame that lies at the stack and SFN of an entry: one now mapped there, else one that last was. -/
def State.frameAt (s : State) (w : Word) : Option Nat :=
  let same := fun (e : Word) => fwStack e == fwStack w && fwSfn e == fwSfn w
  let d := fwSfn w * 8 + fwStack w
  match s.frames.find? fun x => same x.2 && fwV x.2 with
  | some x => some x.1
  | none =>
    if (NMap.find s.frames d).isNone then some d else (s.frames.find? fun x => same x.2).map (·.1)

/-- The address that now names the place of an address under an entry, which the entry of its frame may have left
(R222). -/
def State.nameOf (s : State) (w : Word) (a : Nat) : Nat :=
  let e := s.frame (frameOf a)
  if fwV e && fwStack e == fwStack w && fwSfn e == fwSfn w && fwProfile e == fwProfile w then a
  else
    match s.frameAt w with
    | none => voidDpa a
    | some f =>
      let hi := a % 2 ^ 20 / 2 ^ 14 * 2 ^ 14
      let q := channelOf (s.profile (fwProfile w)) (a % 2 ^ 20)
      match (List.range 64).find? fun x => channelOf (s.profile (fwProfile (s.frame f))) (hi + 256 * x) == q with
      | some x => f * 2 ^ 20 + hi + 256 * x + a % 256
      | none => voidDpa a

/-- Stack × 64 + pseudo-channel of a local HBM address. -/
def State.channel (s : State) (a : Nat) : Nat :=
  let w := s.frame (frameOf a)
  fwStack w * 64 + channelOf (s.profile (fwProfile w)) (a % 2 ^ 20)

/-- R3 of the address: the partition its memory belongs to, for records; 0 where no frame says so. -/
def State.ownerPart (s : State) (a : Nat) : Nat := if spaceOf a = 0 then fwOwner (s.frame (frameOf a)) else 0

/-! ## Memory behind the caches -/

/-- A sector's bytes and poison as memory holds them. -/
def State.memVal (s : State) (base : Nat) : SecVal :=
  ⟨BitVec.ofNat 512 (s.mem.nat base 64),
   BitVec.ofNat 8 ((List.range 8).foldl (fun n i => n + if s.mem.pois (base + 8 * i) then 2 ^ i else 0) 0)⟩

/-- A write put into memory: only the bytes with a written bit change. -/
def Memory.writeSec (m : Memory) (base : Nat) (w : SecWrite) : Memory :=
  let m1 := (List.range 64).foldl (fun m i =>
    let k : Byte := w.mask.extractLsb' (8 * i) 8
    if k == 0 then m
    else m.setByte (base + i) ((m.byte (base + i) &&& ~~~k) ||| (w.d.extractLsb' (8 * i) 8 &&& k))) m
  (List.range 8).foldl (fun m i =>
    if w.pois.getLsbD i then m.setPois (base + 8 * i) true
    else if w.clean.getLsbD i then m.setPois (base + 8 * i) false else m) m1

/-- The refresh management of a bank's neighbours has completed: the bank takes activations again, and a saturated
count is reset (R240). -/
def State.refreshed (s : State) (stack q bank : Nat) : State :=
  { s with
    heldBanks := s.heldBanks.filter (· != (stack, q, bank))
    acts := s.acts.filter fun a => !(a.1.1 == stack && a.1.2.1 == q && a.1.2.2.1 == bank && a.2 == 1023) }

/-- A row's activations counted, at most 1,023 (R240): a command finds its row open or activates it, which the
spec leaves to the controller. An activation of a held bank has waited for the end of its refresh management. -/
def State.activate (s : State) (base : Nat) : State :=
  let open_ := Config.freeNat s.tick (2 ^ 69 + base) % 2 == 0
  let p := s.place (s.frame (frameOf base)) base
  let r := Config.hbmRow p.2.2
  let row := (p.1, p.2.1, r.1, r.2)
  let t := if s.heldBanks.contains (p.1, p.2.1, r.1) then s.refreshed p.1 p.2.1 r.1 else s
  let n := match t.acts.find? fun a => a.1 == row with | some a => a.2 | none => 0
  { s with
    heldBanks := if open_ then s.heldBanks else t.heldBanks
    acts := if open_ then s.acts else (row, min 1023 (n + 1)) :: t.acts.filter fun a => a.1 != row }

/-- A frame's bytes read zero, and none of its words is poisoned. -/
def Memory.clearFrame (m : Memory) (f : Nat) : Memory :=
  m.keep fun a => !(spaceOf a == 0 && frameOf a == f)

/-- A write of a sector at the controller of a frame that is not dead. -/
def State.hbmWrite (s : State) (base : Nat) (w : SecWrite) : State :=
  { (s.activate base) with mem := s.mem.writeSec base w, wrs := s.wrs.mod (s.channel base) (· + 1) }

/-- The zero fill of a dead frame, counted as 16,384 sector writes, then the writes that waited, in order (R237);
no guest copy and no sharer of the frame stays (R349). -/
def State.fillFrame (s : State) (f : Nat) : State :=
  let w := s.frame f
  let waits := s.fillWait.filter fun x => x.1 == f
  let inFrame := fun (a : Nat) => spaceOf a == 0 && frameOf a == f
  let q := fwStack w * 64
  let s := { s with
    mem := s.mem.clearFrame f, frames := s.frames.put f (w &&& ~~~0x40000000),
    fillWait := s.fillWait.filter fun x => x.1 != f,
    guests := s.guests.filter fun g => !inFrame g.2.base,
    l2 := s.l2.map fun (c : Sector) => if inFrame c.base then { c with sharers := 0 } else c
    wrs := (List.range 64).foldl (fun m i => m.mod (q + i) (· + 256)) s.wrs }
  waits.foldl (fun s x =>
    let k := s.channel x.2.base
    if s.badPc.contains k then { s with lost := s.lost ++ [(x.2.part, x.2.base, none)] } else s.hbmWrite x.2.base x.2.out) s

/-- A read of a sector at memory (R203, R237, R239): a dead frame reads zero and counts nothing, and one that a
write waits for is filled first; a failed pseudo-channel reads poison. -/
def State.memRead (s : State) (base : Nat) : SecVal × State :=
  if spaceOf base = 0 then
    let f := frameOf base
    let waits := s.fillWait.any fun x => x.1 == f
    if fwDead (s.frame f) && !waits then (⟨0, 0⟩, s)
    else
      let s := if waits then s.fillFrame f else s
      if s.badPc.contains (s.channel base) then (⟨(s.memVal base).d, 0xFF⟩, s)
      else (s.memVal base, { (s.activate base) with rds := s.rds.mod (s.channel base) (· + 1) })
  else (s.memVal base, s)

/-- A write of a sector at memory: the first to a dead frame starts its fill and waits for it (R237); a
failed pseudo-channel discards it, which is reported (R239). -/
def State.memWrite (s : State) (base : Nat) (w : SecWrite) (part : Nat) : State :=
  if spaceOf base = 0 then
    let q := s.channel base
    if s.badPc.contains q then { s with lost := s.lost ++ [(part, base, none)] }
    else if fwDead (s.frame (frameOf base)) then
      { s with fillWait := s.fillWait ++ [(frameOf base, (Sector.empty base none).write w part)] }
    else s.hbmWrite base w
  else { s with mem := s.mem.writeSec base w }

/-! ## The L2 (R236, R348, R349) -/

/-- The die of a cacheable address. -/
def State.homeDie (s : State) (base : Nat) : Nat :=
  if spaceOf base = 0 then fwStack (s.frame (frameOf base)) / 2 else base / 2 ^ 20 % 4

/-- The slice, of a die's 32, that homes an address (R236). -/
def sliceIdx (a : Nat) : Nat := (List.range 7).foldl (fun x j => x ^^^ (a % 2 ^ 41 / 2 ^ (8 + 5 * j) % 32)) 0

/-- Die × 32 + slice of a cacheable address. -/
def State.homeSlice (s : State) (base : Nat) : Nat := s.homeDie base * 32 + sliceIdx base

/-- A slice has a way left. -/
def State.wayLeft (s : State) (slice : Nat) : Bool := !((List.range 16).all fun w => s.l2WaysOff.contains (slice * 64 + w))

/-- The home slice of an address has a way left. -/
def State.sliceOn (s : State) (base : Nat) : Bool := s.wayLeft (s.homeSlice base)

/-- A line that an access finds in an L2, or puts there; its way is found when the step is over. -/
def State.useL2 (s : State) (die : Nat) (use : L2Use) (base : Nat) : State :=
  let u : L2Line := ⟨die, use, base - base % 256⟩
  if s.l2Used.contains u then s else { s with l2Used := s.l2Used ++ [u] }

/-- A sector read at its home L2 slice; fetched from memory when the slice does not hold it (R204). -/
def State.homeRead (s : State) (base : Nat) (words : BitVec 8) : SecVal × State :=
  let c := (secFind s.l2 base none).getD (Sector.empty base none)
  if c.covers words then (c.val, s.useL2 (s.homeDie base) .home base)
  else
    let r := s.memRead base
    let c := c.fill r.1 s.clock
    (c.val, if s.sliceOn base then { r.2 with l2 := secPut r.2.l2 c }.useL2 (s.homeDie base) .home base else r.2)

/-- R349: every guest copy of a sector is invalidated. -/
def State.dropGuests (s : State) (base : Nat) : State :=
  { s with guests := s.guests.filter fun g => g.2.base != base }

/-- A write performed at the home L2 slice, that is at device scope. -/
def State.homeWrite (s : State) (base : Nat) (w : SecWrite) (part : Nat) : State :=
  let s := s.dropGuests base
  if s.sliceOn base then
    let c := (secFind s.l2 base none).getD (Sector.empty base none)
    { s with l2 := secPut s.l2 { c.write w part with sharers := 0 } }.useL2 (s.homeDie base) .home base
  else s.memWrite base w part

/-- An L2 sector's writes put into memory; the copy stays, clean, and with it its sharers; one whose fill is not in
answers for nothing. -/
def State.l2Flush (s : State) (base : Nat) : State :=
  match secFind s.l2 base none with
  | none => s
  | some c =>
    if c.dirty then
      let s := { s with l2 := secPut s.l2 c.cleaned }
      s.memWrite base c.out c.part
    else s

/-- An L2 sector written back and dropped (R236), and with its sharer vector the guest copies it names (R348; log 141). -/
def State.l2Drop (s : State) (base : Nat) : State :=
  let s := (s.l2Flush base).dropGuests base
  { s with l2 := secDel s.l2 base none }

/-- A sector fetched for a pod's miss: from a guest copy of its die, else from the home, whose answer leaves a
guest copy on another die, in a slice with a way (R236, R348). -/
def State.fetch (s : State) (pod base : Nat) : SecVal × State :=
  let die := pod / 16
  match s.guests.find? fun g => g.1 == die && g.2.base == base with
  | some g => (g.2.val, s.useL2 die .guest base)
  | none =>
    let r := s.homeRead base 0xFF
    if s.homeDie base = die || !s.wayLeft (die * 32 + sliceIdx base) then r
    else
      let c := (Sector.empty base none).fill r.1 s.clock
      let mark := fun (x : Sector) => { x with sharers := x.sharers ||| (1 <<< die) }
      let l2 := match secFind r.2.l2 base none with | some x => secPut r.2.l2 (mark x) | none => r.2.l2
      (r.1, { r.2 with l2 := l2, guests := (die, c) :: r.2.guests }.useL2 die .guest base)

/-! ## The pod L1s and the region buffers (R178, R179, R367) -/

/-- A sector read through a pod's L1. -/
def State.podRead (s : State) (pod base : Nat) (words : BitVec 8) : SecVal × State :=
  let c := (secFind (s.pod pod).l1 base none).getD (Sector.empty base none)
  if c.covers words then (c.val, s)
  else
    let r := s.fetch pod base
    let c := c.fill r.1 s.clock
    let s := { r.2 with missed := r.2.missed ++ [(pod, (Sector.empty base none).fill c.val s.clock)] }
    (c.val, s.modPod pod fun p => { p with l1 := secPut p.l1 c })

/-- A write into a pod's L1: the sector is dirty, and no fill is needed. -/
def State.podWrite (s : State) (pod base : Nat) (w : SecWrite) (f : FibId) (part : Nat) : State :=
  s.modPod pod fun p =>
    let c := ((secFind p.l1 base none).getD (Sector.empty base none)).write w part
    { p with l1 := secPut p.l1 (c.wrote f) }

/-- A dirty L1 sector written back to its home; the copy stays when its fill is in (R179). -/
def State.podFlush (s : State) (pod base : Nat) : State :=
  match secFind (s.pod pod).l1 base none with
  | none => s
  | some c =>
    if c.dirty then
      let s := s.modPod pod fun p => { p with l1 := if c.full then secPut p.l1 c.cleaned else secDel p.l1 base none }
      s.homeWrite base c.out c.part
    else s

/-- An L1 sector written back and dropped. -/
def State.podDrop (s : State) (pod base : Nat) : State :=
  let s := s.podFlush pod base
  s.modPod pod fun p => { p with l1 := secDel p.l1 base none }

/-- Sealed copies of a sector dropped, which are clean: the pod's, and the L2's when `l2` (R355). -/
def State.dropSealed (s : State) (pod base : Nat) (l2 : Bool) : State :=
  let keep := fun (c : Sector) => c.base != base || c.tag.isNone
  { (s.modPod pod fun p => { p with l1 := p.l1.filter keep }) with l2 := if l2 then s.l2.filter keep else s.l2 }

/-- The bases of the dirty sectors of a pod that satisfy a test. -/
def State.dirtyBases (s : State) (pod : Nat) (p : Sector → Bool) : List Nat :=
  ((s.pod pod).l1.filter fun c => c.dirty && p c).map (·.base)

/-- What an expander's sectors in the L2 hold goes on to it (R181). -/
def State.flushCxl (s : State) : State :=
  ((s.l2.filter fun c => c.dirty && spaceOf c.base == 1).map fun (c : Sector) => c.base).foldl (fun s b => s.l2Flush b) s

/-- What a pod did not write itself of a sector is dropped. -/
def State.podForget (s : State) (pod base : Nat) : State :=
  s.modPod pod fun p =>
    { p with l1 := (p.l1.filter fun c => c.base != base || c.dirty).map fun c =>
        if c.base == base then { c with full := false, pois := 0 } else c }

/-- A release's write-back: the dirty sectors holding writes that satisfy a test, and at system scope those of an
expander on to it, with what the L2 holds of it already (R132, R181). -/
def State.writeBack (s : State) (pod : Nat) (sys : Bool) (p : FibId → Bool) : State :=
  let s := (s.dirtyBases pod fun c => c.writers.any p).foldl (fun s b => s.podFlush pod b) s
  if sys then s.flushCxl else s

/-- An acquire at device scope or wider (R132): nothing that the pod did not write itself stays. -/
def State.podAcquire (s : State) (pod : Nat) : State :=
  s.modPod pod fun p =>
    { p with l1 := (p.l1.filter (·.dirty)).map fun c => { c with full := false, pois := 0 } }

/-- R135: an untracked replica for a clutch in the L2 nearest the core, taken as that of its die, where the slice has
a way; of a sealed line, under its tag. -/
def State.replicate (s : State) (die clutch base : Nat) (tag : Option SealTag) (v : SecVal) : State :=
  if !s.wayLeft (die * 32 + sliceIdx base) then s
  else
    { s with reps := (die, clutch, (Sector.empty base tag).fill v s.clock) ::
        s.reps.filter fun r => !(r.1 == die && r.2.2.base == base && r.2.2.tag == tag) }.useL2 die .rep base

/-! ## Sealed remote lines (R355) -/

/-- A sealed line's sector, if the pod or the L2 holds it under the tag. -/
def State.sealedCopy (s : State) (pod base : Nat) (tag : SealTag) : Option Sector :=
  match secFind (s.pod pod).l1 base (some tag) with
  | some c => some c
  | none => secFind s.l2 base (some tag)

/-- The die of the slice that holds a remote line (R355). -/
def sealedDie (base : Nat) : Nat := base / 2 ^ 20 % 4

/-- A sealed sector installed from its owner's answer; in the L2 when its slice has a way. -/
def State.installSealed (s : State) (pod base : Nat) (tag : SealTag) (v : SecVal) : State :=
  let c := (Sector.empty base (some tag)).fill v s.clock
  let s := if s.wayLeft (sealedDie base * 32 + sliceIdx base) then
      { s with l2 := secPut s.l2 c }.useL2 (sealedDie base) (.sealed tag) base else s
  s.modPod pod fun p => { p with l1 := secPut p.l1 c }

/-! ## Reads and writes by an agent -/

/-- Who accesses memory: through a pod's L1, and the region buffer of a team whose region is open, or at the
home; and for whom its writes are counted. -/
structure Agent where
  pod : Option Nat
  team : Nat
  fib : FibId
  part : Nat
  deriving DecidableEq, Repr, Inhabited

/-- The hub, the walkers, the front end: at the home. -/
def Agent.hub (part : Nat) : Agent := ⟨none, 0, ⟨0, 0, 0⟩, part⟩

/-- The team's region is open. -/
def State.regionOpen (s : State) (team : Nat) : Bool :=
  match s.team? team with | some t => t.rOpen | none => false

/-- What the team's region buffer holds of a sector. -/
def State.rbufOver (s : State) (team base : Nat) (v : SecVal) : SecVal :=
  match s.team? team with
  | some t => if t.rOpen then match secFind t.rbuf base none with | some c => v.write c.out | none => v else v
  | none => v

/-- No cache of this package holds the page's lines (R180, R219). -/
def PageAttr.bypass (a : PageAttr) (dpa : Nat) : Bool := a.uncached || spaceOf dpa == 2

/-- Stack and register of a counter block access: the value of the 8-byte word at a space-4 address (R202); a stack
whose slice is disabled reads 0. -/
def State.counter (s : State) (a : Nat) : Nat :=
  let k := a / 4096 % 256
  let o := a % 4096
  if 8 ≤ k ∨ s.stacksOff.contains k ∨ (s.part (ownerOf s.mode k)).disabled then 0
  else if o < 0x200 then NMap.get s.rds (k * 64 + o / 8) % 2 ^ 64
  else if o < 0x400 then NMap.get s.wrs (k * 64 + (o - 0x200) / 8) % 2 ^ 64 else 0

/-- The local address of a place in this package's own HBM, by either of its names. -/
def State.localDpa (s : State) (a : Nat) : Nat :=
  if spaceOf a = 3 ∧ a / 2 ^ 39 % 1024 = s.pkg then a % 2 ^ 39 else a

/-- The place is in another package. -/
def State.isRemote (s : State) (a : Nat) : Bool := spaceOf a == 3 && a / 2 ^ 39 % 1024 != s.pkg

/-- A package is lost to the domain: no remaining port reaches it (R393). -/
def State.pkgLost (s : State) (pkg : Nat) : Bool :=
  s.lostPkgs.contains pkg || !(List.range 12).any fun k => (NMap.get s.ports k).up

/-- The address lies in a package lost to the domain (R354). -/
def State.lostAt (s : State) (a : Nat) : Bool := s.isRemote a && s.pkgLost (a / 2 ^ 39 % 1024)

/-- The port a request takes: by the hash of its package and line, of the ports the first from there on that is up, so
that a port gone moves its own traffic only (R393). -/
def State.portFor (s : State) (a : Nat) : Option Nat :=
  let h := Config.portHash (a / 2 ^ 39 % 1024) (a / 256 % 2 ^ 48)
  ((List.range 12).map fun j => (h + j) % 12).find? fun k => (NMap.get s.ports k).up

/-- What the hub, or an engine in the midst of an atomic, reads of another package: its contents are that package's, a
free value here (log 13), poison when the package is lost or does not answer (R354, log 196). The request takes the next
sequence number, and its response ends it within the step. -/
def State.remoteSec (s : State) (base : Nat) : SecVal × State :=
  if s.lostAt base then (⟨0, 0xFF⟩, s)
  else
    (⟨BitVec.ofNat 512 (Config.freeNat s.tick (2 ^ 64 + base)), BitVec.ofNat 8 (Config.freeNat s.tick (2 ^ 65 + base))⟩,
     { s with sentSeq := s.sentSeq + 1 })

/-- A write of an engine or of the hub sent to another package: outstanding until its response (R351, R352). -/
def State.sendWrite (s : State) (fib : FibId) (part dpa : Nat) (attr : PageAttr) : State :=
  let (n, s) := s.newId
  let o : MemOp :=
    { id := n, fib := fib, part := part, core := 0, run := 0, word := 0, exec := 0, hdr := 0, next := 0, flag := 15,
      isLoad := false, ord := ⟨.none, .team⟩, loc := .mem dpa attr, addr := 0, act := .give, sent := true,
      route := (s.portFor dpa).map fun k => (k, s.sentSeq), took := false, got := [], kept := [], served := [] }
  { s with sentSeq := s.sentSeq + 1, pend := s.pend ++ [o] }

/-- The sector of an address as an agent reads it; `home` asks for its point at device scope (R181). -/
def State.readSec (s : State) (g : Agent) (dpa : Nat) (attr : PageAttr) (home : Bool) (words : BitVec 8) :
    SecVal × State :=
  let base := secBase dpa
  if isVoid dpa then
    -- no frame names the place, whose contents no rule gives (R222, log 197)
    (⟨BitVec.ofNat 512 (Config.freeNat s.tick (2 ^ 64 + base)), BitVec.ofNat 8 (Config.freeNat s.tick (2 ^ 65 + base))⟩, s)
  else if spaceOf dpa = 4 then
    (⟨BitVec.ofNat 512 ((List.range 8).foldl (fun n i => n + s.counter (base + 8 * i) * 2 ^ (64 * i)) 0), 0⟩, s)
  else if s.isRemote dpa then
    match attr.tag, g.pod with
    | some t, some pod => (match s.sealedCopy pod base t with
        | some c => (c.val, s)
        | none => let r := s.remoteSec base; (r.1, r.2.installSealed pod base t r.1))
    | _, _ => s.remoteSec base
  else if attr.bypass dpa then s.memRead base
  else
    match g.pod with
    | none => s.homeRead base words
    | some pod =>
      let r := if home || attr.sc then (s.podDrop pod base).homeRead base words else s.podRead pod base words
      (r.2.rbufOver g.team base r.1, r.2)

/-- A write by an agent: into its team's open region buffer, its pod's L1, the home, or the memory behind; to a
sequentially consistent page of an expander, the expander (R191). One to another package changes nothing here; to
one that is lost it is unknown (R354). -/
def State.writeSec (s : State) (g : Agent) (dpa : Nat) (attr : PageAttr) (home : Bool) (w : SecWrite) : State :=
  let base := secBase dpa
  let through := fun (s : State) => if attr.sc && spaceOf base == 1 then s.l2Flush base else s
  if isVoid dpa then s
  else if s.isRemote dpa then
    if s.lostAt dpa then { s with lost := s.lost ++ [(g.part, dpa, none)] } else s.sendWrite g.fib g.part dpa attr
  else if attr.bypass dpa then s.memWrite base w g.part
  else
    match g.pod with
    | none => through (s.homeWrite base w g.part)
    | some pod =>
      if s.regionOpen g.team && !home && !attr.sc then
        s.modTeam g.team fun t =>
          let c := ((secFind t.rbuf base none).getD (Sector.empty base none)).write w g.part
          { t with rbuf := secPut t.rbuf (c.wrote g.fib) }
      else if home || attr.sc then
        through ((s.podDrop pod base).homeWrite base w g.part)
      else s.podWrite pod base w g.fib g.part

/-- A number of up to 8 bytes that lies in one sector, read by an agent, with its poison. -/
def State.readNat (s : State) (g : Agent) (dpa : Nat) (attr : PageAttr) (home : Bool) (n : Nat) :
    (Nat × Bool) × State :=
  let r := s.readSec g dpa attr home (wordMask (dpa % 64) n)
  ((r.1.nat (dpa % 64) n, r.1.pois (dpa % 64) n), r.2)

/-- A number of up to 8 bytes written by an agent. -/
def State.writeNat (s : State) (g : Agent) (dpa : Nat) (attr : PageAttr) (home : Bool) (n v : Nat) (p : Bool) :
    State :=
  s.writeSec g dpa attr home (secBytes (dpa % 64) n v p)

/-- The words of a table read by the hub at the home, from a local HBM address. -/
def State.hubWords (s : State) (dpa n : Nat) : List Word × State :=
  (List.range n).foldl (fun (acc : List Word × State) i =>
    let a := dpa + 8 * i
    let r := acc.2.homeRead (secBase a) (wordMask (a % 64) 8)
    (acc.1 ++ [BitVec.ofNat 64 (r.1.nat (a % 64) 8)], r.2)) ([], s)

/-- Words written by the hub: to local HBM at the home, to host memory directly. -/
def State.hubPut (s : State) (dpa : Nat) (ws : List Word) (part : Nat) : State :=
  (ws.foldl (fun (acc : Nat × State) w =>
    let a := acc.1
    let wr := secBytes (a % 64) 8 w.toNat false
    (a + 8, if spaceOf a = 0 then acc.2.homeWrite (secBase a) wr part else acc.2.memWrite (secBase a) wr part)) (dpa, s)).2

/-! ## What the caches hold at most (R3, R4, R236) -/

/-- Some sector of a line is held. -/
def State.l2Holds (s : State) (u : L2Line) : Bool :=
  let here := fun (c : Sector) => c.base - c.base % 256 == u.line
  match u.use with
  | .home => s.l2.any fun c => c.tag.isNone && here c
  | .guest => s.guests.any fun g => g.1 == u.die && here g.2
  | .rep => s.reps.any fun r => r.1 == u.die && here r.2.2
  | .sealed t => s.l2.any fun c => c.tag == some t && here c

/-- A line written back and dropped from its way. -/
def State.l2Evict (s : State) (u : L2Line) : State :=
  let here := fun (c : Sector) => c.base - c.base % 256 == u.line
  match u.use with
  | .home => (List.range 4).foldl (fun s i => s.l2Drop (u.line + 64 * i)) s
  | .guest => { s with guests := s.guests.filter fun g => !(g.1 == u.die && here g.2) }
  | .rep => { s with reps := s.reps.filter fun r => !(r.1 == u.die && here r.2.2) }
  | .sealed t => { s with l2 := s.l2.filter fun c => !(c.tag == some t && here c) }

/-- The replacement tree after a use of a way: each node on its path points to the other half. -/
def plruTouch (tree : BitVec 16) (way : Nat) : Nat → Nat → BitVec 16
  | 0, _ => tree
  | k + 1, n =>
    let b := way / 2 ^ k % 2
    let m : BitVec 16 := 1 <<< n
    plruTouch (if b = 0 then tree ||| m else tree &&& ~~~m) way k (2 * n + b)

/-- The way that the tree's nodes name, of those that are on. -/
def plruVictim (tree : BitVec 16) (on : Nat → Bool) : Nat → Nat → Nat
  | 0, n => n - 16
  | k + 1, n =>
    let d := if tree.getLsbD n then 1 else 0
    let some_ := (List.range (2 ^ k)).any fun i => on ((2 * n + d) * 2 ^ k + i - 16)
    plruVictim tree on k (if some_ then 2 * n + d else 2 * n + 1 - d)

/-- A line used in a set: the way it has, else an empty way, else the victim's, whose line leaves. -/
def L2Set.use (x : L2Set) (on : Nat → Bool) (held : L2Line → Bool) (u : L2Line) : L2Set × Option L2Line :=
  let ways := (List.range 16).filter on
  let empty := fun (w : Nat) => match NMap.get x.ways w with | some v => !held v | none => true
  let w := match ways.find? fun w => NMap.get x.ways w == some u with
    | some w => w
    | none => (ways.find? empty).getD (plruVictim x.tree on 4 1)
  ({ ways := x.ways.put w (some u), tree := plruTouch x.tree w 4 1 },
   match NMap.get x.ways w with | some v => if v == u || !held v then none else some v | none => none)

/-- Sets of a slice: 1.5 MiB of 16 ways of 256 bytes. -/
def l2SetsPerSlice : Nat := 384

/-- The key of a line's set. -/
def L2Line.set (u : L2Line) : Nat := (u.die * 32 + sliceIdx u.line) * 512 + Config.l2Set u.line % l2SetsPerSlice

/-- The ways that a slice's mask leaves on. -/
def State.l2WayOn (s : State) (u : L2Line) (w : Nat) : Bool := !s.l2WaysOff.contains ((u.die * 32 + sliceIdx u.line) * 64 + w)

/-- A used line takes its way; a line that must leave is written back. -/
def State.fitLine (s : State) (u : L2Line) : State :=
  let r := (NMap.get s.l2Sets u.set).use (s.l2WayOn u) s.l2Holds u
  let s := { s with l2Sets := s.l2Sets.put u.set r.1 }
  match r.2 with | some v => s.l2Evict v | none => s

/-- The lines used in a step take their ways (R236). While the L2s together hold no more sectors than a set has
ways, none can leave. -/
def State.fitL2 (s : State) : State :=
  if s.l2WaysOff.isEmpty && decide (s.l2.length + s.guests.length + s.reps.length ≤ 16) then
    { s with
      l2Sets := s.l2Used.foldl (fun m u => m.put u.set ((NMap.get m u.set).use (s.l2WayOn u) s.l2Holds u).1) s.l2Sets
      l2Used := [] }
  else s.l2Used.foldl (fun s u => s.fitLine u) { s with l2Used := [] }

/-- Lines of an L1 slice: 256 KiB of 256 bytes. -/
def l1Lines : Nat := 1024

/-- A list turned so that its `k`-th element leads. -/
def turn (l : List α) (k : Nat) : List α := if l.isEmpty then l else l.drop (k % l.length) ++ l.take (k % l.length)

/-- The line of a copy, with its tag: what takes a way of an L1 slice. -/
def Sector.line (c : Sector) : Nat × Option SealTag := (c.base - c.base % 256, c.tag)

/-- The lines of a pod's region buffers, which lie in its L1 (R367). -/
def State.rbufLines (s : State) (pod : Nat) : List Nat :=
  ((s.teams.filter fun t => t.phase == .resident && podOf t.core == pod).flatMap fun t => (t.rbuf.map fun c => (t.id, c.line.1)).eraseDups).map (·.2)

/-- The lines that slice `k` of a pod can hold: the ways disabled take theirs away (R382). -/
def State.l1Room (s : State) (pod k : Nat) : Nat :=
  l1Lines - ((s.pod pod).waysOff.filter fun w => w / 64 % 12 == k).length * Config.l1WayLines

/-- A pod's L1 slices hold at most their lines, those of its region buffers among them; which of the others leave is
open (log 194). -/
def State.fitPod (s : State) (pod : Nat) : State :=
  let bufs := s.rbufLines pod
  if (s.pod pod).waysOff.isEmpty && decide ((s.pod pod).l1.length + bufs.length ≤ l1Lines) then s
  else
    let lines := ((s.pod pod).l1.map Sector.line).eraseDups
    let extra := (List.range 12).flatMap fun k =>
      let mine := lines.filter fun l => Config.l1Slice l.1 % 12 == k
      let kept := (bufs.filter fun l => Config.l1Slice l % 12 == k).length
      (turn mine (Config.freeNat s.tick (48 + k))).take (mine.length + kept - s.l1Room pod k)
    let s := extra.foldl (fun s l => if l.2.isNone then (List.range 4).foldl (fun s i => s.podFlush pod (l.1 + 64 * i)) s else s) s
    s.modPod pod fun p => { p with l1 := p.l1.filter fun c => !extra.contains c.line }

/-- The caches hold no more than they can. -/
def State.fit (s : State) : State := (s.pods.foldl (fun s p => s.fitPod p.1) s).fitL2

end Sys2Proof.Machine
end

