-- ==== Sys2Proof/Machine/Journal.lean ====
section
/-! DEFINITION. The journal of a slice, its error records, and the interrupt vectors (R418, R423 to R425,
R440, R441). -/

namespace Sys2Proof.Machine

/-- Host memory's space in a DPA (R214). -/
def hostSpace : Nat := 2 * 2 ^ 52

/-- An event that a vector reports (R418). -/
def State.signal (s : State) (part vec : Nat) : State := s.modPart part fun p => { p with msiDue := setAdd p.msiDue vec }

/-- The four words of a record (R423). -/
def JRec.words (r : JRec) (seq time : Nat) : List Word :=
  [BitVec.ofNat 64 seq,
   BitVec.ofNat 64 (r.kind % 256 * 2 ^ 56 + r.queue % 256 * 2 ^ 48 + r.cause % 256 * 2 ^ 40 + r.core % 1024 * 2 ^ 30
     + r.grp % 64 * 2 ^ 24 + r.lane % 64 * 2 ^ 18),
   BitVec.ofNat 64 time, r.arg]

/-- R423, R425: a record written to the ring and copied to the mirror; a full ring loses its oldest
unconsumed record. An unconfigured slice has no journal (R416). -/
def State.journal (s : State) (part : Nat) (r : JRec) : State :=
  let p := s.part part
  if !p.configured then s
  else
    let at_ := 32 * (p.jtail % 2 ^ p.jlog)
    let ws := r.words p.jtail s.clock
    let s := (s.hubPut (p.jbase + at_) ws part).hubPut (hostSpace + p.jmirror + at_) ws part
    let s := s.modPart part fun p =>
      { p with jlost := if 2 ^ p.jlog ≤ p.jtail - p.jhead then p.jlost + 1 else p.jlost, jtail := p.jtail + 1 }
    s.signal part 0

/-- Where a record's fibre runs; none for a record no fibre caused (R440). -/
structure Where where
  core : Nat
  grp : Nat
  lane : Nat
  deriving DecidableEq, Repr, Inhabited

def nowhere : Where := ⟨1023, 0, 0⟩

/-- A record of a kind. -/
def State.note (s : State) (part kind queue cause : Nat) (w : Where) (arg : Word) : State :=
  s.journal part ⟨kind, queue, cause, w.core, w.grp, w.lane, arg⟩

/-- An error record and its continuation (R424, R425, R440). -/
def State.noteError (s : State) (part queue cause : Nat) (w : Where) (arg cont : Word) : State :=
  (s.note part 0x05 queue cause w arg).note part 0x0F queue cause w cont

/-- The effective queue of a clutch: its card's [15:8] of word 4 (R258). -/
def Clutch.queue (c : Clutch) : Nat := (c.card.getD 4 0).toNat / 256 % 256

/-- The queue a team's records name. -/
def State.teamQueue (s : State) (t : Team) : Nat := match s.clutch? t.clutch with | some c => c.queue | none => 255

/-- A fibre's place for a record. -/
def State.whereIs (s : State) (f : FibId) : Where :=
  match s.team? f.team with | some t => ⟨t.core, f.grp, f.lane⟩ | none => ⟨1023, f.grp, f.lane⟩

/-- Losses noted since the last step, journaled; a buffer index and offset follow in a continuation (R239, R242, R354;
log 203). -/
def State.journalLost (s : State) : State :=
  s.lost.foldl (fun s l =>
    let s := s.note l.1 0x0A 0xFF 0 nowhere (BitVec.ofNat 64 l.2.1)
    match l.2.2 with
    | some a => s.note l.1 0x0F 0xFF 0 nowhere a
    | none => s) { s with lost := [] }

/-- A record of the management controller's event log (R429). -/
def State.logEvent (s : State) (kind : Nat) (wh : Nat) : State :=
  { s with events := s.events ++ [(kind, s.clock, BitVec.ofNat 64 wh)] }

end Sys2Proof.Machine
end

