-- ==== Sys2Proof/Machine/Port.lean ====
section
/-! DEFINITION. The memory port: on-core spaces, buffer descriptors, page tables and their caches,
translation faults, page rules and range locks (R172, R176, R177, R209 to R223, R347). -/

namespace Sys2Proof.Machine

/-! ## Descriptors (R212, R213) -/

/-- The four words of a descriptor as the port sees them: cached, or read from the buffer table. -/
def State.desc (s : State) (part idx : Nat) : List Word × State :=
  match NMap.find (s.part part).dcache idx with
  | some d => (d, s)
  | none =>
    let r := s.hubWords ((s.part part).btbase + 32 * idx) 4
    (r.1, r.2.modPart part fun p => { p with dcache := p.dcache.put idx r.1 })

def descBase (d : List Word) : Nat := (d.getD 0 0).toNat
def descLen (d : List Word) : Nat := (d.getD 1 0).toNat % 2 ^ 44
def descVersion (d : List Word) : Nat := (d.getD 2 0).toNat / 2 ^ 48
def descSealed (d : List Word) : Bool := (d.getD 2 0).getLsbD 20
def descProfile (d : List Word) : Nat := (d.getD 2 0).toNat / 2 ^ 16 % 16
def descOwner (d : List Word) : Nat := (d.getD 2 0).toNat / 2 ^ 8 % 8

/-- Step 4 of R209 for a descriptor: V, the reserved fields, and the end of the buffer. -/
def descOk (d : List Word) : Bool :=
  let w0 := d.getD 0 0
  let w1 := d.getD 1 0
  let w2 := d.getD 2 0
  w2.getLsbD 21 && w0 &&& 0xFFFF00000000FFFF == 0 && w1 &&& 0xFFFFF00000000000 == 0
    && w2 &&& 0x0000FFFFFFC0F8F0 == 0 && decide (descBase d + descLen d ≤ 2 ^ 48)

/-- The rights an access may need (R211). -/
inductive Right where
  | r | w | a | x
  deriving DecidableEq, Repr, Inhabited

/-- R211: the rights granted; a sealed buffer grants R and X alone. -/
def descGrants (d : List Word) (rt : Right) : Bool :=
  let w2 := d.getD 2 0
  match rt with
  | .r => w2.getLsbD 0
  | .w => w2.getLsbD 1 && !descSealed d
  | .x => w2.getLsbD 2
  | .a => w2.getLsbD 3 && !descSealed d

/-- R212: the owner rule of step 7. -/
def descOwned (d : List Word) (part : Nat) (rt : Right) : Bool :=
  descOwner d == part || (descSealed d && (rt == .r || rt == .x))

/-! ## Page tables (R215 to R218, R347) -/

/-- Why a walk faults (R223). -/
inductive WalkFail where
  | absent | malformed | frame
  deriving DecidableEq, Repr, Inhabited

def WalkFail.code : WalkFail → Nat
  | .absent => 1 | .malformed => 2 | .frame => 3

/-- A DPA whose space and must-be-zero bits are as R214 allows. -/
def dpaOk (a : Nat) : Bool :=
  match a / 2 ^ 52 with
  | 0 => a / 2 ^ 39 % 2 ^ 13 == 0
  | 1 => a / 2 ^ 41 % 2 ^ 11 == 0
  | 2 => a / 2 ^ 48 % 2 ^ 4 == 0
  | 3 => a / 2 ^ 49 % 2 ^ 3 == 0
  | 4 => a / 2 ^ 20 % 2 ^ 32 == 0
  | _ => false

/-- Bits [55:0] of a leaf's PA, its low 16 bits zero. -/
def leafPa (w0 : Word) : Nat := w0.toNat / 2 ^ 16 % 2 ^ 40 * 2 ^ 16
def leafFmt (w0 : Word) : Nat := w0.toNat / 2 ^ 12 % 16
def leafBlk (w0 : Word) : Nat := w0.toNat / 2 ^ 10 % 4
def leafSc (w0 : Word) : Bool := w0.getLsbD 9
def leafSib (w0 : Word) : Bool := w0.getLsbD 8
def leafSop (w0 : Word) : Nat := w0.toNat / 2 ^ 5 % 8
def leafCache (w0 : Word) : Nat := w0.toNat / 2 ^ 3 % 4

/-- R218 and R347 for a leaf at level 2 (`big`) or 3. -/
def leafOk (big : Bool) (w0 w1 : Word) : Bool :=
  let pa := leafPa w0
  let fmt := leafFmt w0
  let sib := leafSib w0
  let sp := pa / 2 ^ 52
  w0.toNat / 2 ^ 56 == 0 && !w0.getLsbD 2 && decide (fmt ≤ 12) && decide (leafBlk w0 ≤ 2)
    && decide (leafCache w0 ≤ 1) && decide (leafSop w0 ≤ 6) && (!big || pa % 2 ^ 21 == 0) && dpaOk pa
    && (decide (5 ≤ fmt) || (leafBlk w0 == 0 && (sib || w1 == 0)))
    && (fmt != 12 || leafBlk w0 == 1)
    && (!sib || (fmt == 0 && !leafSc w0 && leafCache w0 == 0 && w1.toNat % 2 ^ 16 == 0
          && decide (w1.toNat < 2 ^ 39) && (sp == 0 || sp == 3)))
    && (sib || leafSop w0 == 0)
    && (decide (fmt < 5) || w1.toNat % 64 == 0)
    && (sp != 4 || (fmt == 0 && leafCache w0 == 1))
    && (sp != 2 || leafCache w0 == 1)

/-- The levels of a tree: the lowest bit of the index, its width, and whether a directory, a large leaf or a
small leaf may stand there (R215). -/
structure Level where
  shift : Nat
  width : Nat
  dir : Bool
  leaf : Bool
  deriving DecidableEq, Repr

def levels : List Level := [⟨39, 9, true, false⟩, ⟨30, 9, true, false⟩, ⟨21, 9, true, true⟩, ⟨16, 5, false, true⟩]

/-- What a table's address is a multiple of: a level's own size (R215). -/
def tableAlign : List Level → Nat
  | l :: _ => 16 * 2 ^ l.width
  | [] => 1

/-- A walk from a table: the leaf's words and its page's size, or why it faults. -/
def State.walkFrom (s : State) (table va : Nat) : List Level → Except WalkFail (Nat × Word × Word) × State
  | [] => (.error .malformed, s)
  | l :: ls =>
    let r := s.hubWords (table + 16 * (va / 2 ^ l.shift % 2 ^ l.width)) 2
    let w0 := r.1.getD 0 0
    let w1 := r.1.getD 1 0
    if !w0.getLsbD 0 then (.error .absent, r.2)
    else if w0.getLsbD 1 then
      if l.leaf && leafOk (l.shift == 21) w0 w1 then (.ok (2 ^ l.shift, w0, w1), r.2) else (.error .malformed, r.2)
    else
      let next := w0.toNat - 1
      if l.dir && w1 == 0 && next % tableAlign ls == 0 && decide (next < 2 ^ 39) then r.2.walkFrom next va ls
      else (.error .malformed, r.2)

/-- A walk of a partition's tree (R215, R221, R223): the leaf with the entry of the frame it reaches. -/
def State.walk (s : State) (part va : Nat) : Except WalkFail Tlb × State :=
  let r := s.walkFrom (s.part part).ptroot va levels
  match r.1 with
  | .error e => (.error e, r.2)
  | .ok (size, w0, w1) =>
    let page := va - va % size
    let dpa := leafPa w0 + (va - page)
    if spaceOf dpa = 0 then
      let w := r.2.frame (frameOf dpa)
      let lo := va - va % min size (2 ^ 20)
      if fwV w then (.ok ⟨part, lo, min size (2 ^ 20), page, w0, w1, w⟩, r.2) else (.error .frame, r.2)
    else (.ok ⟨part, page, size, page, w0, w1, 0⟩, r.2)

/-! ## Translation caches (R221, R222) -/

def Tlb.hits (t : Tlb) (part va : Nat) : Bool :=
  t.part == part && decide (t.va ≤ va) && decide (va < t.va + t.size)

/-- The DPA of a virtual address the leaf covers. -/
def Tlb.dpa (t : Tlb) (va : Nat) : Nat := leafPa t.w0 + (va - t.page)

/-- Entries of a cache, newest first, at most `n` (R221). -/
def tlbAdd (n : Nat) (t : Tlb) (l : List Tlb) : List Tlb :=
  (t :: l.filter fun u => !(u.part == t.part && u.va == t.va)).take n

/-- A leaf put into a pod's cache and its die's. -/
def State.tlbFill (s : State) (pod : Nat) (t : Tlb) : State :=
  let s := { s with dtlb := s.dtlb.mod (pod / 16) (tlbAdd 16384 t) }
  s.modPod pod fun p => { p with tlb := tlbAdd 256 t p.tlb }

/-- A cached leaf with the frame-table entry cached with it, whatever the tables now hold (R222): the pod's, else the
die's, which the pod then holds too. -/
def State.lookup (s : State) (pod part va : Nat) : Option Tlb × State :=
  match (s.pod pod).tlb.find? (·.hits part va) with
  | some t => (some t, s)
  | none =>
    match (NMap.get s.dtlb (pod / 16)).find? (·.hits part va) with
    | some t => (some t, s.modPod pod fun p => { p with tlb := tlbAdd 256 t p.tlb })
    | none => (none, s)

/-! ## Range locks (R172) -/

/-- How an access meets a range lock (R172). -/
inductive LockUse where
  | load | store | fe | pld | free
  deriving DecidableEq, Repr, Inhabited

def LockUse.barred : LockUse → LockKind → Bool
  | .load, .r => false
  | .load, _ => true
  | .store, _ => true
  | .fe, .w => true
  | .fe, _ => false
  | .pld, .r => false
  | .pld, _ => true
  | .free, _ => false

/-- A range: a buffer's bytes, or a team's scratchpad bytes. -/
structure Range where
  part : Nat
  idx : Option Nat
  team : Nat
  lo : Nat
  hi : Nat
  deriving DecidableEq, Repr, Inhabited

def Lock.meets (l : Lock) (r : Range) : Bool :=
  (match l.idx, r.idx with
   | none, none => l.team == r.team
   | some i, some j => l.part == r.part && i == j
   | _, _ => false) && decide (l.lo < r.hi) && decide (r.lo < l.hi)

/-- The virtual addresses of a buffer's bytes under a lock, by its descriptor. -/
def State.lockVa (s : State) (l : Lock) : Option (Nat × Nat) :=
  l.idx.map fun i => let b := descBase (s.desc l.part i).1; (b + l.lo, b + l.hi)

/-- A lock of the pod bars a scale byte, which is named by its virtual address (R172, R195, R231). -/
def State.lockedVa (s : State) (pod part va : Nat) : Bool :=
  (s.pod pod).locks.any fun l => LockUse.barred .load l.kind && l.part == part && match s.lockVa l with
    | some r => decide (r.1 ≤ va) && decide (va < r.2)
    | none => false

/-- A lock of the pod bars the access (R172). -/
def State.locked (s : State) (pod : Nat) (u : LockUse) (r : Range) : Bool :=
  (s.pod pod).locks.any fun l => u.barred l.kind && l.meets r

/-! ## Page rules (R145, R205, R219, R220, R226) -/

/-- What an access asks of its pages. -/
inductive PageUse where
  /-- A plain load; `ctr` when it is of a form that may read a counter block (R205). -/
  | load (ctr : Bool)
  /-- A plain store, an atomic or a reduction. -/
  | store
  | elem (f : Nat)
  | sib
  /-- `cwb`, `cinv`, `pld`. -/
  | lines
  | fetch
  /-- An engine's access, with the format its command names, and whether it writes. -/
  | engine (fmt : Option Nat) (write : Bool)
  /-- A scale byte. -/
  | scale
  deriving DecidableEq, Repr, Inhabited

/-- The pages of on-core spaces (R176). -/
def onCoreAttr : PageAttr := { off := 0, fmt := 0, blk := 0, sc := false, sib := false, sop := 0, uncached := false, aux := 0, tag := none,
                               far := false }

/-- R220 and R205: the page forbids the access. -/
def PageUse.bad (u : PageUse) (a : PageAttr) (dpa : Nat) : Bool :=
  if spaceOf dpa = 4 then
    match u with
    | .load true => decide (8 ≤ dpa / 4096 % 256)
    | _ => true
  else
    match u with
    | .load _ => false
    | .store => a.sib
    | .elem f => a.sib || a.fmt != f
    | .sib => !a.sib
    | .lines => false
    | .fetch => a.fmt != 0
    | .engine f w => (a.sib && w) || (match f with | some k => a.fmt != k | none => false)
    | .scale => a.fmt != 0

/-! ## The port (R209) -/

/-- An access as the port takes it. -/
structure PortReq where
  part : Nat
  /-- The accessing team; 0 for an agent of no team, which has no on-core space. -/
  team : Nat
  core : Nat
  idx : Nat
  off : Nat
  len : Nat
  align : Nat
  right : Right
  use : PageUse
  lock : LockUse
  /-- It must name a granule of buffer index 0 or 1 (R145, R147). -/
  fe : Bool
  /-- `feqry`: granules beyond the scratchpad are no failure (R148). -/
  loose : Bool
  deriving DecidableEq, Repr, Inhabited

/-- A 64 KiB piece of an access: its first virtual address, where that lies, and its page. -/
structure Piece where
  va : Nat
  dpa : Nat
  attr : PageAttr
  deriving DecidableEq, Repr, Inhabited

/-- What the port answers: the place of the access's first byte with the pieces it touches, a trap, or a
page whose translation is missing. -/
inductive PortRes where
  | ok (loc : Loc) (pieces : List Piece)
  | trap (code : Nat)
  | miss (va : Nat)
  deriving DecidableEq, Repr, Inhabited

/-- R176: the team and local offset of an on-core address, or the trap. -/
def State.onCore (s : State) (q : PortReq) : Except Nat (Team × Nat) :=
  match s.team? q.team with
  | none => .error 0x05
  | some t =>
    if q.idx = 0 then .ok (t, q.off)
    else if q.idx = 1 then
      match s.teams.find? fun u => u.cluster == t.cluster && u.rank == q.off / 2 ^ 18 && u.phase != .ended with
      | some u => .ok (u, q.off % 2 ^ 18)
      | none => .error 0x06
    else
      let pinned := match s.clutch? t.clutch with | some c => (c.card.getD 3 0).getLsbD 56 | none => false
      if !pinned then .error 0x05
      else if 96 ≤ q.off / 2 ^ 18 then .error 0x06
      else
        match s.teams.find? fun u => u.clutch == t.clutch && u.phase == .resident
            && u.core == sectorOf t.core * 96 + q.off / 2 ^ 18 with
        | some u => .ok (u, q.off % 2 ^ 18)
        | none => .error 0x06

/-- Steps 3, 5, 6 and 10 for an on-core address. -/
def State.portOnCore (s : State) (q : PortReq) : PortRes :=
  if q.align ≠ 0 ∧ q.off % q.align ≠ 0 then .trap 0x0F
  else
    match s.onCore q with
    | .error c => .trap c
    | .ok (t, o) =>
      if !q.loose && decide (0 < q.len) && decide (t.spadSize < o + q.len) then .trap 0x06
      else if q.right == .x then .trap 0x07
      else if q.use.bad onCoreAttr 0 || (q.fe && decide (1 < q.idx)) then .trap 0x0C
      else if s.locked (podOf q.core) q.lock ⟨q.part, none, t.id, o, o + q.len⟩ then .trap 0x0D
      else .ok (.spad t.id o) []

/-- The 64 KiB pieces of virtual addresses that a run of bytes touches. -/
def chunksOf (va len : Nat) : List Nat :=
  let n := (va + max len 1 - 1) / 65536 + 1 - va / 65536
  (List.range n).map fun i => if i = 0 then va else (va / 65536 + i) * 65536

/-- The place that a leaf gives an address: in local HBM, where the frame-table entry cached with the leaf puts it,
by the name the place now has (R222). -/
def State.leafPlace (s : State) (va : Nat) (t : Tlb) : Nat :=
  if spaceOf (t.dpa va) = 0 then s.nameOf t.frame (t.dpa va) else s.localDpa (t.dpa va)

/-- A piece as its leaf gives it. -/
def pieceOf (s : State) (d : List Word) (idx va : Nat) (t : Tlb) : Piece :=
  let dpa := s.leafPlace va t
  let far := spaceOf (t.dpa va) == 3
  let tag := if descSealed d && spaceOf dpa == 3 then some ⟨dpa / 2 ^ 39 % 1024, idx, descVersion d⟩ else none
  ⟨va, dpa, { off := va - t.page, fmt := leafFmt t.w0, blk := leafBlk t.w0, sc := leafSc t.w0, sib := leafSib t.w0,
              sop := leafSop t.w0, uncached := leafCache t.w0 == 1, aux := t.w1, tag := tag, far := far }⟩

/-- An expander answers (R242). -/
def State.cxlUp (s : State) (dpa : Nat) : Bool := (NMap.get s.cxl (dpa / 2 ^ 40 % 2)).up

/-- Step 9: the frame's owner and profile, the expander's presence. -/
def State.step9 (s : State) (d : List Word) (p : Piece) (t : Tlb) : Option Nat :=
  if spaceOf (t.dpa p.va) = 0 then
    if fwOwner t.frame ≠ descOwner d then some 0x08
    else if fwProfile t.frame ≠ descProfile d then some 0x09 else none
  else if spaceOf p.dpa = 1 ∧ !s.cxlUp p.dpa then some 0x1D else none

/-- Translates each piece of a run; the first that misses stops it. -/
def State.translateAll (s : State) (pod part : Nat) : List Nat → Except Nat (List (Nat × Tlb)) × State
  | [] => (.ok [], s)
  | va :: vas =>
    let r := s.lookup pod part va
    match r.1 with
    | none => (.error va, r.2)
    | some t =>
      let rest := r.2.translateAll pod part vas
      match rest.1 with
      | .error v => (.error v, rest.2)
      | .ok l => (.ok ((va, t) :: l), rest.2)

/-- The memory port's steps 3 to 10 (R209); steps 1 and 2 are the address's own. -/
def State.port (s : State) (pod : Nat) (q : PortReq) : PortRes × State :=
  if q.idx < 3 then (s.portOnCore q, s)
  else if q.align ≠ 0 ∧ q.off % q.align ≠ 0 then (.trap 0x0F, s)
  else if 2 ^ (s.part q.part).btlog ≤ q.idx then (.trap 0x05, s)
  else
    let r := s.desc q.part q.idx
    let d := r.1
    let s := r.2
    if !descOk d then (.trap 0x05, s)
    else if descLen d < q.off + q.len then (.trap 0x06, s)
    else if !descGrants d q.right then (.trap 0x07, s)
    else if !descOwned d q.part q.right then (.trap 0x08, s)
    else
      let va := descBase d + q.off
      let r := s.translateAll pod q.part (chunksOf va q.len)
      match r.1 with
      | .error v => (.miss v, r.2)
      | .ok l =>
        let ps := l.map fun x => (pieceOf r.2 d q.idx x.1 x.2, x.2)
        match ps.findSome? fun x => r.2.step9 d x.1 x.2 with
        | some c => (.trap c, r.2)
        | none =>
          if ps.any (fun x => q.use.bad x.1.attr x.1.dpa) || q.fe then (.trap 0x0C, r.2)
          else if r.2.locked pod q.lock ⟨q.part, some q.idx, 0, q.off, q.off + q.len⟩ then (.trap 0x0D, r.2)
          else
            match ps with
            | x :: _ => (.ok (.mem x.1.dpa x.1.attr) (ps.map (·.1)), r.2)
            | [] => (.trap 0x05, r.2)

/-! ## Walks and faults (R221, R223) -/

/-- The four words of a fault record (R223). -/
def faultWords (va : Nat) (addr : Word) (core queue : Nat) (k : FaultKind) (e : WalkFail) (clock : Nat) : List Word :=
  let kind := match k with
    | .load => 0 | .store => 1 | .atomic => 2 | .fetch => 3 | .engineRead => 4 | .engineWrite => 5 | .scale => 6
  [BitVec.ofNat 64 (va % 2 ^ 48), addr,
   BitVec.ofNat 64 (core % 1024 * 2 ^ 44 + queue % 256 * 2 ^ 36 + kind * 16 + e.code), BitVec.ofNat 64 clock]

/-- R223: no fibre is held on the fault of an engine's command, so its record's CORE is 1,023. -/
def FaultKind.ofEngine : FaultKind → Bool
  | .engineRead | .engineWrite => true
  | .load | .store | .atomic | .fetch | .scale => false

/-- A translation fault found on a page: the number its waiters hold, shared with a fault on the page not
yet answered. -/
def State.faultOn (s : State) (part va : Nat) (addr : Word) (core queue : Nat) (k : FaultKind) (e : WalkFail) :
    Nat × State :=
  match s.faults.find? fun f => f.part == part && f.page == va / 65536 with
  | some f => (f.walk, s)
  | none =>
    let (n, s) := s.newId
    (n, { s with faults := s.faults ++ [⟨n, part, faultWords va addr core queue k e s.clock, none, va / 65536⟩] })

/-- A walk begun or joined for a fibre's miss: its number. -/
def State.startWalk (s : State) (part va : Nat) (addr : Word) (core queue : Nat) (k : FaultKind) (pod : Nat)
    (quiet : Bool) : Nat × State :=
  match s.walks.find? fun w => w.part == part && w.va / 65536 == va / 65536 with
  | some w =>
    (w.id, { s with walks := s.walks.map fun x =>
      if x.id == w.id then { x with pods := setAdd x.pods pod, quiet := x.quiet && quiet } else x })
  | none =>
    let (n, s) := s.newId
    (n, { s with walks := s.walks ++ [⟨n, part, va, addr, core, queue, k, [pod], quiet, []⟩] })

/-- A walker is free (R221, R223): of the 64, unwritten faults hold some, and older misses go first. -/
def State.walkersFree (s : State) : Bool := decide ((s.faults.filter fun f => f.num.isNone).length + s.walks.length < 64)

/-- What an agent other than a fibre gets from the port: its misses walk at once, and a walk that faults
leaves it waiting for the host's answer to the fault numbered (R223); with every walker held, it waits as on
number 0 for one that is free (R221). -/
inductive Reach where
  | ok (loc : Loc) (pieces : List Piece)
  | trap (code : Nat)
  | wait (fault : Nat)
  deriving DecidableEq, Repr, Inhabited

/-- The port for an agent of a pod that waits on no walk: `fuel` misses are served. -/
def State.reach (s : State) (pod : Nat) (q : PortReq) (addr : Word) (queue : Nat) (k : FaultKind) :
    Nat → Reach × State
  | 0 => (.trap 0x0B, s)
  | n + 1 =>
    let r := s.port pod q
    match r.1 with
    | .ok l ps => (.ok l ps, r.2)
    | .trap c => (.trap c, r.2)
    | .miss va =>
      -- a fibre's task instruction has translated at its header (R259)
      if !r.2.walkersFree && !(k == .atomic && q.team != 0) then (.wait 0, r.2)
      else
        let w := r.2.walk q.part va
        match w.1 with
        | .ok t => (w.2.tlbFill pod t).reach pod q addr queue k n
        | .error e =>
          let f := w.2.faultOn q.part va addr (if k.ofEngine then 1023 else q.core) queue k e
          (.wait f.1, f.2)

end Sys2Proof.Machine
end

