-- ==== Sys2Proof/Machine/Mem.lean ====
section
/-! DEFINITION. The instructions of class mem (R93 to R97, R131 to R148, R229 to R231, R297 to R303). The
memory pipe forms, checks and translates every address of a clause before the first access takes effect
(`planClause`, R210); a word then issues its planned accesses as outstanding operations. -/

namespace Sys2Proof.Machine

/-! ## Addresses -/

/-- The address of a memory operand as a fibre forms it. -/
def View.ea (v : View) (r : MemRef) : Option Word := effAddr (v.rd r.base).v (v.rd r.idx).v r.off

/-- Its registers carry poison (R209 step 1). -/
def View.eaPois (v : View) (r : MemRef) : Bool := (v.rd r.base).p || (v.rd r.idx).p

/-- A memory operand without an index (R147). -/
def bareRef (a : Opnd) (off : BitVec 12) : MemRef := ⟨a, .k 0, off⟩

/-- Lines that a SIZE names (R97, R144). -/
def Sz.lines (z : Sz) : Nat := Sz.bytes z

/-- What an access asks of the port, beside its address. -/
structure MemForm where
  poison : Bool
  ea : Option Word
  len : Nat
  align : Nat
  right : Right
  use : PageUse
  lock : LockUse
  fe : Bool
  loose : Bool
  kind : FaultKind
  deriving Repr

/-- A form with no special demand. -/
def MemForm.plain (p : Bool) (ea : Option Word) (n : Nat) (rt : Right) (u : PageUse) (l : LockUse) (k : FaultKind) :
    MemForm := ⟨p, ea, n, n, rt, u, l, false, false, k⟩

/-- A load of the form a counter block allows (R205). -/
def LdMod.counter (m : LdMod) : Bool :=
  (m.sz == .d || m.sz == .q) && (m.ord.order == .none || m.ord.order == .acq) && !m.fe && !m.rep

/-- The access of an instruction that makes one (R93, R136, R139, R147, R148, R211, R299). -/
def View.form (v : View) : Instr → Option MemForm
  | .ld _ m _ r =>
    some { MemForm.plain (v.eaPois r) (v.ea r) (Sz.bytes m.sz) .r (.load (LdMod.counter m)) (if m.fe then .fe else .load) .load
           with fe := m.fe }
  | .st _ z _ fe _ r =>
    some { MemForm.plain (v.eaPois r) (v.ea r) (Sz.bytes z) .w .store (if fe then .fe else .store) .store with fe := fe }
  | .atom _ wide _ _ _ _ a _ _ =>
    some (.plain (v.rd a).p (some (v.rd a).v) (if wide then 8 else 4) .a .store .store .atomic)
  | .red _ wide _ _ a _ =>
    some (.plain (v.rd a).p (some (v.rd a).v) (if wide then 8 else 4) .a .store .store .atomic)
  | .sld _ _ _ r => some (.plain (v.eaPois r) (v.ea r) 8 .r .sib .load .load)
  | .sldx _ _ _ r _ => some (.plain (v.eaPois r) (v.ea r) 8 .r .sib .load .load)
  | .sst _ _ _ _ a _ c => some (.plain ((v.rd a).p || (v.rd c).p) (some (v.rd a).v) 8 .a .sib .store .atomic)
  | .srec _ _ _ _ _ _ a b _ => some (.plain ((v.rd a).p || (v.rd b).p) (some (v.rd a).v) 8 .a .sib .store .atomic)
  | .feset _ a n off =>
    some ⟨(v.rd a).p, v.ea (bareRef a off), 16 * (v.rd n).v.toNat, 16, .w, .store, .fe, true, false, .store⟩
  | .feclr _ a n off =>
    some ⟨(v.rd a).p, v.ea (bareRef a off), 16 * (v.rd n).v.toNat, 16, .w, .store, .fe, true, false, .store⟩
  | .feqry _ _ a off =>
    some ⟨(v.rd a).p, v.ea (bareRef a off), 1024, 16, .r, .load false, .fe, true, true, .load⟩
  | _ => none

/-- The guard of an instruction of class mem. -/
def Instr.memGuard : Instr → Guard
  | .ld g _ _ _ => g | .st g _ _ _ _ _ => g | .ldx g _ _ _ _ _ _ => g | .lde g _ _ _ _ _ _ => g
  | .ste g _ _ _ _ _ => g | .pld g _ _ _ => g | .atom g _ _ _ _ _ _ _ _ => g | .red g _ _ _ _ _ => g
  | .fence g _ => g | .cwb g _ _ _ => g | .cinv g _ _ _ => g | .feset g _ _ _ => g | .feclr g _ _ _ => g
  | .feqry g _ _ _ => g | .sld g _ _ _ => g | .sldx g _ _ _ _ => g | .sst g _ _ _ _ _ _ => g
  | .srec g _ _ _ _ _ _ _ _ => g
  | _ => noGuard

/-! ## Planning (R209, R210) -/

/-- What planning a word gives a fibre. -/
inductive Planned where
  | idle
  | acc (a : Access)
  | trap (code : Nat) (addr : Word)
  | miss (va : Nat) (report addr : Word) (k : FaultKind)
  deriving Repr

/-- The request a fibre's access makes. -/
def View.req (v : View) (ea : Word) (off len align : Nat) (rt : Right) (u : PageUse) (l : LockUse) : PortReq :=
  ⟨v.team.part, v.team.id, v.team.core, indexOf ea, off, len, align, rt, u, l, false, false⟩

/-- An access that makes one request. -/
def State.planForm (s : State) (v : View) (k : Nat) (m : MemForm) : Planned × State :=
  if m.poison then (.trap 0x0E 0, s)
  else
    match m.ea with
    | none => (.trap 0x0A 0, s)
    | some ea =>
      if m.fe && m.len == 0 && decide (indexOf ea < 2) then
        -- `feset`, `feclr` of no granule (R147)
        if offsetOf ea % 16 ≠ 0 then (.trap 0x0F ea, s) else (.acc ⟨v.fib.fid, k, ea, .nowhere, none, 0, []⟩, s)
      else
      let q := { v.req ea (offsetOf ea) m.len m.align m.right m.use m.lock with fe := m.fe, loose := m.loose }
      let r := s.port (podOf v.team.core) q
      match r.1 with
      | .ok l _ => (.acc ⟨v.fib.fid, k, ea, l, none, m.len / 16, []⟩, r.2)
      | .trap c => (.trap c ea, r.2)
      | .miss va => (.miss va ea ea m.kind, r.2)

/-- A loc moved back by some bytes. -/
def Loc.back (l : Loc) (n : Nat) : Loc :=
  match l with
  | .mem a t => .mem (a - n) { t with off := t.off - n }
  | x => x

/-- The virtual address of the scale byte of element `e` of a place's 64 KiB (R226). -/
def PageAttr.scaleVa (t : PageAttr) (f : EFmt) (e : Nat) : Nat :=
  (t.aux.toNat + (t.off / 65536 * EFmt.perUnit f + e) / blockLen t.blk) % 2 ^ 48

/-- The scale byte an `ldx` needs: none, its place, a trap or a miss (R226). -/
def State.planScale (s : State) (v : View) (f : EFmt) (l : Loc) (e : Nat) :
    Except (Nat ⊕ (Nat × Word)) (Option Loc) × State :=
  match l with
  | .mem _ t =>
    if !f.scaled then (.ok none, s)
    else
      let va := t.scaleVa f e
      let r := s.lookup (podOf v.team.core) v.team.part va
      match r.1 with
      | none => (.error (.inr (va, t.aux)), r.2)
      | some leaf =>
        let p := pieceOf r.2 [] 0 va leaf
        if spaceOf p.dpa = 1 ∧ !r.2.cxlUp p.dpa then (.error (.inl 0x1D), r.2)
        else if PageUse.scale.bad p.attr p.dpa then (.error (.inl 0x0C), r.2)
        else if r.2.lockedVa (podOf v.team.core) v.team.part va then (.error (.inl 0x0D), r.2)
        else (.ok (some (.mem p.dpa p.attr)), r.2)
  | _ => (.ok none, s)

/-- `ldx`, `lde`, `ste` (R229 to R231): `n` elements from element offset e; the place is that of its 64 KiB. -/
def State.planElem (s : State) (v : View) (k : Nat) (r : MemRef) (z : Sz) (f : EFmt) (whole write scaled : Bool) :
    Planned × State :=
  if v.eaPois r then (.trap 0x0E 0, s)
  else
    match v.ea r with
    | none => (.trap 0x0A 0, s)
    | some ea =>
      let n := Sz.bytes z * (if whole then EFmt.step f else 1)
      let e := offsetOf ea
      if e % n ≠ 0 then (.trap 0x0F ea, s)
      else
        let i := e % EFmt.perUnit f
        let b := EFmt.bytesOf f i n
        let q := v.req ea (e / EFmt.perUnit f * 65536 + b.1) b.2 0 (if write then .w else .r) (.elem f.code)
          (if write then .store else .load)
        let p := s.port (podOf v.team.core) q
        match p.1 with
        | .trap c => (.trap c ea, p.2)
        | .miss va => (.miss va ea ea (if write then .store else .load), p.2)
        | .ok l _ =>
          let l := l.back b.1
          let sc := if scaled then p.2.planScale v f l i else (.ok none, p.2)
          match sc.1 with
          | .ok x => (.acc ⟨v.fib.fid, k, ea, l, x, i, []⟩, sc.2)
          | .error (.inl c) => (.trap c ea, sc.2)
          | .error (.inr (va, spa)) => (.miss va spa ea .scale, sc.2)

/-- The 256-byte lines of an on-chip or memory run, where a cache of the pod may hold them. -/
def linesOf (ps : List Piece) (va0 n : Nat) : List Loc :=
  (List.range n).filterMap fun i =>
    let va := va0 + 256 * i
    (ps.find? fun p => p.va / 65536 == va / 65536).map fun p =>
      .mem (p.dpa - p.dpa % 65536 + va % 65536) { p.attr with off := p.attr.off - p.attr.off % 65536 + va % 65536 }

/-- `cwb` and `cinv` (R144): the whole run of lines is one access. -/
def State.planLines (s : State) (v : View) (k : Nat) (r : MemRef) (z : Sz) : Planned × State :=
  if v.eaPois r then (.trap 0x0E 0, s)
  else
    match v.ea r with
    | none => (.trap 0x0A 0, s)
    | some ea =>
      if indexOf ea < 3 then (.acc ⟨v.fib.fid, k, ea, .nowhere, none, 0, []⟩, s)
      else
        let off := offsetOf ea - offsetOf ea % 256
        let p := s.port (podOf v.team.core) (v.req ea off (256 * Sz.lines z) 0 .r .lines .store)
        match p.1 with
        | .trap c => (.trap c ea, p.2)
        | .miss va => (.miss va ea ea .load, p.2)
        | .ok _ ps =>
          (.acc ⟨v.fib.fid, k, ea, .nowhere, none, Sz.lines z, linesOf ps ((ps.map (·.va)).headD 0) (Sz.lines z)⟩, p.2)

/-- `pld` (R97): each line on its own; a line that would trap issues nothing, a missing one starts a walk
that brings the line when it ends. -/
def State.planPrefetch (s : State) (v : View) (k : Nat) (r : MemRef) (z : Sz) (rep : Bool) : Planned × State :=
  if v.eaPois r then (.idle, s)
  else
    match v.ea r with
    | none => (.idle, s)
    | some ea =>
      if indexOf ea < 3 then (.idle, s)
      else
        let pod := podOf v.team.core
        let res := (List.range (Sz.lines z)).foldl (fun (acc : List Loc × State) i =>
          let off := offsetOf ea - offsetOf ea % 256 + 256 * i
          let p := acc.2.port pod (v.req ea off 256 0 .r .lines .pld)
          match p.1 with
          | .ok l _ => (acc.1 ++ [l], p.2)
          | .trap _ => (acc.1, p.2)
          | .miss va =>
            let w := p.2.startWalk v.team.part va ea v.team.core (s.teamQueue v.team) .load pod true
            let fill : Fill := ⟨v.team.part, v.team.id, v.team.core, indexOf ea, off,
              if rep then some (dieOf v.team.core, v.team.clutch) else none⟩
            (acc.1, { w.2 with walks := w.2.walks.map fun x =>
              if x.id == w.1 then { x with fills := x.fills ++ [fill] } else x })) ([], s)
        (.acc ⟨v.fib.fid, k, ea, .nowhere, none, 0, res.1⟩, res.2)

/-- The predicates a mem or sync word writes. -/
def Instr.predsWritten : Instr → List (Fin 8)
  | .atom _ _ _ op ps _ _ _ _ => if op.hasSuccess then [ps] else []
  | .srec _ _ _ _ ps _ _ _ _ => [ps]
  | .push _ _ _ pf _ => [pf] | .spawn _ p _ _ _ => [p] | .csub _ p _ => [p]
  | _ => []

/-- A word's access, whatever its guard. -/
def State.planAccess (s : State) (v : View) (k : Nat) (i : Instr) : Planned × State :=
    match i with
    | .ldx _ z _ f _ _ r => s.planElem v k r z f false false true
    | .lde _ z _ f _ _ r => s.planElem v k r z f true false false
    | .ste _ z _ f _ r => s.planElem v k r z f true true false
    | .cwb _ z _ r => s.planLines v k r z
    | .cinv _ z _ r => s.planLines v k r z
    | .pld _ z rep r => s.planPrefetch v k r z rep
    | i => match v.form i with | some m => s.planForm v k m | none => (.idle, s)

/-- A word planned for a fibre. One whose guard reads false, but is written by an earlier word of the clause, may yet
execute: its access is formed for that, and for R369; it reads the old predicate where that access would stop the
clause (R18; log 198). -/
def State.planWord (s : State) (v : View) (written : List (Fin 8)) (k : Nat) (i : Instr) : Planned × State :=
  let g := Instr.memGuard i
  if v.guard g then s.planAccess v k i
  else if written.contains g.p then
    let r := s.planAccess v k i
    match r.1 with
    | .acc a => (.acc a, r.2)
    | _ => (.idle, s)
  else (.idle, s)

/-- A clause planned for a fibre: its accesses, or what stops it at its header (R210). -/
inductive ClausePlan where
  | ok (l : List Access)
  | trap (word code : Nat) (addr : Word)
  | hold (walk : Nat) (first : Word) (word : Nat)
  deriving Repr

/-- Every access of the words of a clause that follow words that write some predicates. -/
def State.planFrom (s : State) (v : View) (written : List (Fin 8)) : List (Nat × Instr) → ClausePlan × State
  | [] => (.ok [], s)
  | (k, i) :: is =>
    let r := s.planWord v written k i
    let written := written ++ Instr.predsWritten i
    match r.1 with
    | .trap c a => (.trap k c a, r.2)
    | .miss va report addr kind =>
      let w := r.2.startWalk v.team.part va report v.team.core (s.teamQueue v.team) kind (podOf v.team.core) false
      (.hold w.1 addr k, w.2)
    | .idle => r.2.planFrom v written is
    | .acc a =>
      let rest := r.2.planFrom v written is
      match rest.1 with
      | .ok l => (.ok (a :: l), rest.2)
      | x => (x, rest.2)

/-- R210: every access of a clause, in clause order; the first failure decides. -/
def State.planFibre (s : State) (v : View) (is : List (Nat × Instr)) : ClausePlan × State := s.planFrom v [] is

/-! ## Issuing -/

/-- A fibre's planned access for the word the clause stands at. -/
def View.planned (v : View) : Option Access :=
  v.run.plan.find? fun a => a.fib == v.fib.fid && a.word == v.run.pos + 1

/-- An outstanding operation added (R17). -/
def State.issue (s : State) (v : View) (isLoad : Bool) (flag : Nat) (o : Ord) (loc : Loc) (addr : Word) (act : OpAct) :
    State :=
  let (n, s) := s.newId
  let o : MemOp :=
    { id := n, fib := v.fib.fid, part := v.team.part, core := v.team.core, run := v.run.id, word := v.run.pos + 1,
      exec := v.fib.exec, hdr := v.run.hdr, next := v.run.next, flag := flag, isLoad := isLoad, ord := o, loc := loc,
      addr := addr, act := act, sent := false, route := none, took := false, got := [], kept := [], served := [] }
  let s := { s with pend := s.pend ++ [o] }
  -- an operation that its home may still refuse has not taken effect yet
  match act with
  | .sst _ _ _ _ => s
  | .srec _ _ _ _ _ _ => s
  | _ => s.markTook v

/-- A word that issues one operation for each guard-true fibre whose access was planned. -/
def State.issueWord (s : State) (g : Guard) (isLoad : Bool) (o : Ord) (f : View → Access → OpAct) : State :=
  s.wordSeq g fun acc v =>
    match v.planned with
    | some a => acc.issue v isLoad (if isLoad then v.run.seta else v.run.setb) o a.loc a.addr (f v a)
    | none => acc

/-- An ORDER that orders nothing. -/
def plainOrd : Ord := ⟨.none, .team⟩

/-- The order an FE access has (R146): its own, else acquire or release at its space's scope. -/
def feOrd (o : Ord) (store : Bool) (addr : Word) : Ord :=
  if o.order == .none then ⟨if store then .rel else .acq, if indexOf addr = 0 then .team else .clus⟩ else o

/-- R95, R131; FE loads are acquires (R146). -/
def execLd (g : Guard) (m : LdMod) (d : Opnd) (_r : MemRef) (s : State) : Result :=
  .next (s.wordSeq g fun acc v =>
    match v.planned with
    | some a =>
      acc.issue v true v.run.seta (if m.fe then feOrd m.ord false a.addr else m.ord) a.loc a.addr
        (.ld (some d) (Sz.bytes m.sz) m.sx m.fe m.clr m.rep)
    | none => acc)

/-- R95, R131, R146. `st` has no W bit: the constant that `st.w` stores is of R27's 32-bit integer column, any other of
R26's 64-bit patterns (DESIGN CHOICE, log 215). -/
def execSt (g : Guard) (sz : Sz) (o : Ord) (fe : Bool) (d : Opnd) (_r : MemRef) (s : State) : Result :=
  .next (s.wordSeq g fun acc v =>
    match v.planned with
    | some a =>
      acc.issue v false v.run.setb (if fe then feOrd o true a.addr else o) a.loc a.addr
        (.st (Sz.bytes sz) (v.rdAs (if sz == .w then .int32 else .q64) d) (v.rd d.succ) fe)
    | none => acc)

/-- R229 to R231. -/
def execLdx (g : Guard) (k : Sz) (o : Ord) (f : EFmt) (out : OutFmt) (d : Opnd) (_r : MemRef) (s : State) : Result :=
  .next (s.issueWord g true o fun _ a => .ldx (some d) (Sz.bytes k) a.e f out a.scale)
def execLde (g : Guard) (k : Sz) (o : Ord) (f : EFmt) (sx : Bool) (d : Opnd) (_r : MemRef) (s : State) : Result :=
  .next (s.issueWord g true o fun _ a => .lde (some d) (Sz.bytes k) a.e f sx)
def execSte (g : Guard) (k : Sz) (o : Ord) (f : EFmt) (d : Opnd) (_r : MemRef) (s : State) : Result :=
  .next (s.issueWord g false o fun v a => .ste (Sz.bytes k) a.e f (v.rd d) (v.rd d.succ))

/-- The sectors of the line that holds an address. -/
def lineSectors (a : Nat) : List Nat := (List.range 4).map fun i => a - a % 256 + 64 * i

/-- A request for a line of another package, which no fibre tracks (R97, R351). -/
def State.askLine (s : State) (core part : Nat) (rep : Option (Nat × Nat)) (dpa : Nat) (t : PageAttr) : State :=
  let (n, s) := s.newId
  let o : MemOp :=
    { id := n, fib := ⟨0, 0, 0⟩, part := part, core := core, run := 0, word := 0, exec := 0, hdr := 0, next := 0, flag := 15,
      isLoad := true, ord := ⟨.none, .team⟩, loc := .mem (dpa - dpa % 256) t, addr := 0, act := .fill rep, sent := false,
      route := none, took := false, got := [], kept := [], served := [] }
  { s with pend := s.pend ++ [o] }

/-- R97, R135: a line brought into the pod's L1, with a replica when `rep` names a die and a clutch; a sealed line of
another package is asked for (R355). -/
def State.prefetch (s : State) (core part : Nat) (rep : Option (Nat × Nat)) (l : Loc) : State :=
  match l with
  | .mem dpa t =>
    if s.isRemote dpa then (if t.tag.isSome then s.askLine core part rep dpa t else s)
    else if t.bypass dpa || t.sc || decide (1 < spaceOf dpa) then s
    else (lineSectors dpa).foldl (fun s base =>
      let r := s.podRead (podOf core) base 0xFF
      match rep with
      | some x => r.2.replicate x.1 x.2 base none r.1
      | none => r.2) s
  | _ => s

def execPld (g : Guard) (_sz : Sz) (rep : Bool) (_r : MemRef) (s : State) : Result :=
  .next (s.wordSeq g fun acc v =>
    match v.planned with
    | some a =>
      a.lines.foldl (fun acc l => acc.prefetch v.team.core v.team.part
        (if rep then some (dieOf v.team.core, v.team.clutch) else none) l) acc
    | none => acc)

/-- R136 to R139, R142. -/
def execAtom (g : Guard) (wide : Bool) (o : Ord) (op : AtomOp) (ps : Fin 8) (d _a b c : Opnd) (s : State) : Result :=
  .next (s.issueWord g false o fun v _ =>
    .atom (some d) ps op wide (v.rdAs (atomRd op wide) b) (v.rdAs (atomRd op wide) c))
where
  /-- Constants by SIZE and by whether the operation is FP (R27). -/
  atomRd (op : AtomOp) (wide : Bool) : Rd :=
    if wide then .q64 else match op with | .fadd => .fp32 | .fmin => .fp32 | .fmax => .fp32 | _ => .int32

def execRed (g : Guard) (wide : Bool) (o : Ord) (op : AtomOp) (_a b : Opnd) (s : State) : Result :=
  .next (s.issueWord g false o fun v _ => .red op wide (v.rdAs (execAtom.atomRd op wide) b))

/-- R144. Scopes within the pod, and on-core addresses, have no line to act on; nor has a page no cache holds. -/
def lineBases (sc : Scope) (a : Access) : List Nat :=
  if sc == .team || sc == .clus then []
  else a.lines.filterMap fun l => match l with
    | .mem dpa t => if t.bypass dpa || spaceOf dpa == 4 then none else some (dpa - dpa % 256)
    | _ => none

/-- The order a write-back has: none; its scope is the place it reaches. -/
def execCwb (g : Guard) (_sz : Sz) (sc : Scope) (_r : MemRef) (s : State) : Result :=
  .next (s.issueWord g false ⟨.none, sc⟩ fun _ a => .cwb false (lineBases sc a) a.e)
def execCinv (g : Guard) (_sz : Sz) (sc : Scope) (_r : MemRef) (s : State) : Result :=
  .next (s.issueWord g false ⟨.none, sc⟩ fun _ a => .cwb true (lineBases sc a) a.e)

/-- R147: releases at the scope of an FE access. -/
def execFeset (g : Guard) (_a _n : Opnd) (_off : BitVec 12) (s : State) : Result :=
  .next (s.wordSeq g fun acc v =>
    match v.planned with
    | some a => acc.issue v false v.run.setb (feOrd plainOrd true a.addr) a.loc a.addr (.fe true a.e)
    | none => acc)
def execFeclr (g : Guard) (_a _n : Opnd) (_off : BitVec 12) (s : State) : Result :=
  .next (s.wordSeq g fun acc v =>
    match v.planned with
    | some a => acc.issue v false v.run.setb (feOrd plainOrd true a.addr) a.loc a.addr (.fe false a.e)
    | none => acc)
/-- R148. -/
def execFeqry (g : Guard) (d _a : Opnd) (_off : BitVec 12) (s : State) : Result :=
  .next (s.issueWord g true plainOrd fun _ _ => .feqry (some d))

/-! ## Sibling instructions (R297 to R303) -/

/-- R298: a malformed token. -/
def tokenBad (t : Word) : Bool := t.toNat / 2 ^ 41 != 0 || decide (4 < t.toNat / 2 ^ 36 % 8)

def execSld (g : Guard) (o : Ord) (d : Opnd) (_r : MemRef) (s : State) : Result :=
  .next (s.issueWord g true o fun _ _ => .sld (some d) none)
/-- The slot is C mod 4; poison there traps (R299, R379). -/
def execSldx (g : Guard) (o : Ord) (d : Opnd) (_r : MemRef) (c : Opnd) (s : State) : Result :=
  .next (s.wordSeq g fun acc v =>
    match v.planned with
    | some a =>
      let n := v.rd c
      if n.p then acc.apply v poisonTrap
      else acc.issue v true v.run.seta o a.loc a.addr (.sld (some d) (some (n.v.toNat % 4)))
    | none => acc)
/-- A malformed token traps before the home is reached (R298, R303). -/
def execSst (g : Guard) (o : Ord) (quiet : Bool) (d _a b c : Opnd) (s : State) : Result :=
  .next (s.wordSeq g fun acc v =>
    match v.planned with
    | some a =>
      if tokenBad (v.rd c).v then acc.apply v v.operandTrap
      else acc.issue v false v.run.setb o a.loc a.addr (.sst (some d) quiet (v.rd b) (v.rd c))
    | none => acc)
def execSrec (g : Guard) (o : Ord) (op : SrecOp) (force : Bool) (ps : Fin 8) (d _a b : Opnd) (c : Option Opnd)
    (s : State) : Result :=
  .next (s.wordSeq g fun acc v =>
    match v.planned with
    | some a =>
      if !force && tokenBad (v.rd b).v then acc.apply v v.operandTrap
      else acc.issue v false v.run.setb o a.loc a.addr (.srec (some d) ps op force (v.rd b) (c.map v.rd))
    | none => acc)

end Sys2Proof.Machine
end

