-- ==== Sys2Proof/Machine/Meet.lean ====
section
/-! DEFINITION. Where fibres meet and end: completion flags, barriers, convergence phases, team points, and
the ends of fibres, groups and teams (R16, R17, R90, R106, R122 to R124, R150 to R152, R249, R305). -/

namespace Sys2Proof.Machine

/-! ## Outstanding operations and flags (R16, R17, R19) -/

/-- Another operation of the clause still counts on a fibre's flag. -/
def State.counts (s : State) (run : Nat) (f : FibId) (isLoad : Bool) : Bool :=
  s.pend.any fun o => o.run == run && o.fib == f && o.isLoad == isLoad && o.flag < 12

/-- A flag lowered by one. -/
def Fibre.lower (b : Fibre) (flag : Nat) : Fibre := { b with flags := b.flags.mod flag (· - 1) }

/-- The registers an operation will write. -/
def OpAct.dests : OpAct → List Opnd
  | .ld (some d) n _ _ _ _ => if n = 16 then [d, d.succ] else [d]
  | .ldx (some d) k _ _ out _ => if 64 < k * out.slot then [d, d.succ] else [d]
  | .lde (some d) k _ f _ => if 64 < k * f.slot then [d, d.succ] else [d]
  | .atom (some d) _ _ _ _ _ => [d]
  | .feqry (some d) => [d]
  | .sld (some d) _ => [d, d.succ]
  | .sst (some d) _ _ _ => [d]
  | .srec (some d) _ _ _ _ _ => [d]
  | .mrd (some d) _ _ => [d]
  | .follow ds => ds
  | _ => []

def Opnd.shared : Opnd → Bool
  | .s _ => true
  | _ => false

def OpAct.isFollow : OpAct → Bool
  | .follow _ => true
  | _ => false

/-- Operations of one execution of one instruction (R29). -/
def MemOp.mates (p o : MemOp) : Bool :=
  p.fib.team == o.fib.team && p.fib.grp == o.fib.grp && p.exec == o.exec && p.hdr == o.hdr && p.word == o.word

/-- The operation writes an s register, and a lower lane's of the same execution has still to be performed: that
lane's value is the one the register receives (R29). -/
def State.outdoneBy (s : State) (o : MemOp) : Bool :=
  (o.act.dests.any Opnd.shared) && s.pend.any fun p => p.mates o && decide (p.fib.lane < o.fib.lane) && !p.act.isFollow

/-- A result of a higher lane kept with its operation: it counts when no lower lane gives one (R17, R29). -/
def State.keep (s : State) (o : MemOp) (r : Opnd × RegCell) : State :=
  { s with pend := s.pend.map fun (p : MemOp) => if p.id == o.id then { p with kept := p.kept ++ [r] } else p }

/-- A fibre none of whose full/empty accesses is outstanding goes on (R145). -/
def State.freeFe (s : State) (f : FibId) : State :=
  let isFe := fun (p : MemOp) => p.fib == f && match p.act with
    | .ld _ _ _ true _ _ => true | .st _ _ _ true => true | _ => false
  if s.pend.any isFe then s else s.modFib f fun b => b.release .fe

/-- An operation removed; its flag falls when the clause has ended and no other operation of its kind in
the clause is outstanding for the fibre. -/
def State.finishOne (s : State) (o : MemOp) : State :=
  let s := { s with pend := s.pend.filter fun p => p.id != o.id }
  let s := if o.flag < 12 && !(s.running.any fun r => r.id == o.run) && !s.counts o.run o.fib o.isLoad then
      s.modFib o.fib fun b => b.lower o.flag
    else s
  s.freeFe o.fib

/-- An operation performed: it is removed, with those that waited for its s registers; one whose s register a
lower lane has still to write stays outstanding until then (R17). -/
def State.finish (s : State) (o : MemOp) : State :=
  if s.outdoneBy o then
    { s with pend := s.pend.map fun (p : MemOp) =>
        if p.id == o.id then { p with act := .follow o.act.dests, ord := plainOrd } else p }.freeFe o.fib
  else if o.act.dests.any Opnd.shared then
    (s.pend.filter fun p => p.act.isFollow && p.mates o).foldl (fun s p => s.finishOne p) (s.finishOne o)
  else s.finishOne o

/-- The one of some operations that is of the lowest lane. -/
def lowestLane : List MemOp → Option MemOp
  | [] => none
  | o :: os => some (os.foldl (fun a b => if b.fib.lane < a.fib.lane then b else a) o)

/-- An operation ended without a result: its trap gives none. The lowest lane that has one then gives it to the s
registers, and those that waited for it end (R17, R29). -/
def State.forsake (s : State) (o : MemOp) : State :=
  let s := s.finishOne o
  let waits := s.pend.filter fun p => p.act.isFollow && p.mates o
  match lowestLane waits with
  | none => s
  | some p =>
    if s.outdoneBy p then s
    else
      let s := p.kept.foldl (fun s r => s.writeReg p.fib ⟨p.exec, p.hdr, p.word⟩ r.1 r.2) s
      waits.foldl (fun s q => s.finishOne q) s

/-- An operation found by its number. -/
def State.op? (s : State) (n : Nat) : Option MemOp := s.pend.find? fun o => o.id == n

/-! ## Barriers (R151, R152) -/

/-- Live fibres that a barrier of a team, cluster or clutch counts. -/
def State.liveIn (s : State) (p : Team → Bool) : Nat :=
  (s.fibres.filter fun f => (s.teams.any fun t => t.id == f.fid.team && p t)).length

/-- A checkpoint's fibres held as `h` go on. -/
def Ckpt.releaseHeld (k : Ckpt) (h : Hold) : Ckpt :=
  { k with fibres := k.fibres.map fun f => if f.awaits h then f.release h else f }

/-- Fibres held as `h` in some teams go on; so do they in the teams' checkpoints, for a phase that has completed is not
waited for again after a replay (R372, R376). -/
def State.releaseHeld (s : State) (p : Team → Bool) (h : Hold) : State :=
  let s := s.modFibs (fun f => f.awaits h && (s.teams.any fun t => t.id == f.fid.team && p t)) fun f => f.release h
  { s with teams := s.teams.map fun (t : Team) => if p t then { t with ckpt := t.ckpt.map (Ckpt.releaseHeld · h) } else t }

/-- The pods in which fibres held as `h` run. -/
def State.podsHeld (s : State) (p : Team → Bool) (h : Hold) : List Nat :=
  (s.teams.filter fun t => p t && s.fibres.any fun f => f.fid.team == t.id && f.awaits h).foldl
    (fun l t => setAdd l (podOf t.core)) []

/-- check(b) of R151 for a team's barrier. -/
def State.barCheck (s : State) (team b : Nat) : State :=
  match s.team? team with
  | none => s
  | some t =>
    let x := NMap.get t.bars b
    let e := if b = 0 then (s.teamFibres team).length else x.expect
    if x.isOpen && decide (e ≤ x.arr) then
      (s.releaseHeld (·.id == team) (.bar b)).modTeam team fun t => { t with bars := t.bars.set b default }
    else s

/-- The same for a cluster barrier (R152). -/
def State.cbarCheck (s : State) (cluster b : Nat) : State :=
  match s.cluster? cluster with
  | none => s
  | some c =>
    let x := NMap.get c.bars b
    if x.isOpen && decide (s.liveIn (·.cluster == cluster) ≤ x.arr) then
      (s.releaseHeld (·.cluster == cluster) (.cbar b)).modCluster cluster fun c => { c with bars := c.bars.set b default }
    else s

/-- The same for a grid barrier, whose release is an acquire at device scope (R132, R152). -/
def State.gbarCheck (s : State) (clutch b : Nat) : State :=
  match s.clutch? clutch with
  | none => s
  | some c =>
    let x := NMap.get c.bars b
    if x.isOpen && decide (s.liveIn (·.clutch == clutch) ≤ x.arr) then
      let pods := s.podsHeld (·.clutch == clutch) (.gbar b)
      let s := (s.releaseHeld (·.clutch == clutch) (.gbar b)).modClutch clutch fun c =>
        { c with bars := c.bars.set b default }
      pods.foldl (fun s p => s.podAcquire p) s
    else s

/-! ## Convergence phases (R123, R249) -/

/-- Signers of one phase executed one instruction (R249). -/
def MtxCap.same (a b : MtxCap) : Bool :=
  a.k == b.k && a.batched == b.batched && a.gb == b.gb && decide (a.mods = b.mods)

/-- `a` supplies before `b` what both could: the lower lane of 32, then the lower group, then the lower lane (R247). -/
def MtxCap.first (a b : MtxCap) : Bool :=
  decide (a.fib.lane % 32 < b.fib.lane % 32) || (a.fib.lane % 32 == b.fib.lane % 32 && fibBefore a.fib b.fib)

/-- The signer that supplies the lowest row (R248). -/
def mtxSupplier : List MtxCap → Option MtxCap
  | [] => none
  | c :: cs => some (cs.foldl (fun a b => if MtxCap.first b a then b else a) c)

/-- The operations of a phase's signers read B where the supplying signer's address lies (R248, R279). -/
def State.aimB (s : State) (team : Nat) (caps : List MtxCap) : State :=
  match mtxSupplier caps with
  | none => s
  | some c =>
    { s with pend := s.pend.map fun (p : MemOp) =>
        if caps.any (fun x => x.op == p.id) then { p with loc := .spad team c.baddr } else p }

/-- The operation a completed phase starts, or the traps of signers that differ (R249). One that a `kleave` or an exit
completes while eight are held is queued as the ninth (R276; DESIGN CHOICE, log 217). -/
def State.phaseOp (s : State) (team : Nat) (caps : List MtxCap) : State :=
  match caps, s.team? team with
  | c :: _, some t =>
    if caps.all (·.same c) then
      (s.aimB team caps).modCore t.core fun x => { x with mtx := x.mtx ++ [⟨team, caps, false, []⟩] }
    else
      caps.foldl (fun s c =>
        let s := s.modFib c.fib fun f => f.noteTrap ⟨0x15, c.word, 0, 0, c.hdr, c.next, true, none⟩
        match s.op? c.op with | some o => s.finish o | none => s) s
  | _, _ => s

/-- check(k) of R123. -/
def State.phaseCheck (s : State) (team k : Nat) : State :=
  match s.team? team with
  | none => s
  | some t =>
    let x := NMap.get t.kregs k
    if decide (0 < x.n) && decide (x.n - x.left ≤ x.arr) then
      let s := s.modTeam team fun t => { t with kregs := t.kregs.set k { x with arr := 0, caps := [] } }
      let s := s.modFibs (fun f => f.fid.team == team) fun f =>
        { (f.release (.kwait k)) with ksig := f.ksig &&& ~~~((1 : Byte) <<< k) }
      s.phaseOp team x.caps
    else s

/-- `kleave` of one register (R123): the arrival is taken back, and the capture with it (R249). -/
def State.leave (s : State) (f : FibId) (k : Nat) : State :=
  match s.fib? f, s.team? f.team with
  | some b, some t =>
    if b.kleft.getLsbD k then s
    else
      let x := NMap.get t.kregs k
      let s := s.modFib f fun b => { b with kleft := b.kleft ||| ((1 : Byte) <<< k), ksig := b.ksig &&& ~~~((1 : Byte) <<< k) }
      if x.n = 0 then s
      else
        let mine := x.caps.filter (·.fib == f)
        let x := { x with left := x.left + 1, arr := if b.ksig.getLsbD k then x.arr - 1 else x.arr,
                          caps := x.caps.filter (·.fib != f) }
        let s := s.modTeam f.team fun t => { t with kregs := t.kregs.set k x }
        let s := mine.foldl (fun s c => match s.op? c.op with | some o => s.finish o | none => s) s
        s.phaseCheck f.team k
  | _, _ => s

/-- `kleave` with a mask, registers in ascending order. -/
def State.leaveAll (s : State) (f : FibId) (m : BitVec 8) : State :=
  (List.range 8).foldl (fun s k => if m.getLsbD k then s.leave f k else s) s

/-! ## Team points (R305, R370) -/

def Hold.isRegb : Hold → Bool
  | .regb _ _ => true
  | _ => false

/-- A point completes when every live fibre of the team has arrived at one of its kind (R305). -/
def State.pointCheck (s : State) (team : Nat) : State :=
  let fs := s.teamFibres team
  if fs.isEmpty then s
  else if fs.all fun f => f.hold.isRegb then
    s.modTeam team fun t => if t.point == .none then { t with point := .regb } else t
  else if fs.all fun f => f.hold == .regc then
    s.modTeam team fun t => if t.point == .none then { t with point := .regc } else t
  else s

/-! ## Ends (R90, R106, R124) -/

/-- A chunk of a node has ended: its slots free, once those of the chunks dealt before it have, since the pool is a
ring (R289, R290; log 219). -/
def Clutch.chunkDone (c : Clutch) (z : Nat) : Clutch :=
  let l := c.poolChunks.map fun x => if x.1 == z then (x.1, x.2.1, true) else x
  { c with pool := c.pool - ((l.takeWhile (·.2.2)).map (·.2.1)).sum, poolChunks := l.dropWhile (·.2.2) }

/-- A cluster's last team has ended: it leaves, and the pool slots it was dealt free (R290). -/
def State.endCluster (s : State) (cluster : Nat) : State :=
  match s.cluster? cluster with
  | none => s
  | some c =>
    { s with clusters := s.clusters.filter fun x => x.id != cluster }.modClutch c.clutch fun x => x.chunkDone c.chunk

/-- A team's end: its pending slots become drop (R159); its cluster ends with its last team. -/
def State.endTeam (s : State) (team : Nat) : State :=
  match s.team? team with
  | none => s
  | some t =>
    let s := { s with
      fibres := s.fibres.filter fun f => f.fid.team != team
      groups := s.groups.filter fun g => g.team != team
      running := s.running.filter fun r => r.team != team }
    let s := s.modTeam team fun t =>
      { t with phase := .ended, point := .none, rOpen := false, rbuf := [], ckpt := none, failing := none, fatal := false,
               latch := none, halting := none, writing := false, past := [],
               slots := (List.range 16).foldl (fun m n => if NMap.get m n == .pending then m.set n .drop else m) t.slots }
    let s := if s.teams.all fun u => u.cluster != t.cluster || u.phase == .ended then
        s.endCluster t.cluster
      else s
    let s := { s with clutches := s.clutches.map fun (c : Clutch) => { c with reserved := c.reserved.del team } }
    let s := (List.range 4).foldl (fun s b => s.cbarCheck t.cluster b) s
    (List.range 2).foldl (fun s b => s.gbarCheck t.clutch b) s

/-- A fibre's end (R90, R124): it leaves every convergence register, its lane is free, the barriers that
count live fibres are checked, a group left without a path gives its reserved entry to a parked set (R120), and the
last fibre ends its team (R106, R370); a group that has ended keeps its registers until then (R106). -/
def State.endFibre (s : State) (f : FibId) : State :=
  match s.team? f.team with
  | none => s
  | some t =>
    let s := s.leaveAll f 0xFF
    -- a check on its results may still fail while its instance is open (R370)
    let left := match s.fib? f with | some b => b.unproven.map fun u => (f, u.1, u.2) | none => []
    let s := if t.rOpen && !left.isEmpty then s.modTeam f.team fun t => { t with past := t.past ++ left } else s
    let s := { s with fibres := s.fibres.filter fun b => b.fid != f }.reserve f.team f.grp
    let s := s.barCheck f.team 0
    let s := (List.range 4).foldl (fun s b => s.cbarCheck t.cluster b) s
    let s := (List.range 2).foldl (fun s b => s.gbarCheck t.clutch b) s
    let s := s.pointCheck f.team
    if (s.teamFibres f.team).isEmpty then
      if t.rOpen then s.modTeam f.team fun t => { t with point := .ending } else s.endTeam f.team
    else s

/-- A fibre that has executed `exit` and has nothing outstanding. -/
def State.exitReady (s : State) : Option Fibre :=
  s.fibres.find? fun b => b.hold == .exit && b.trap.isNone && !(s.pend.any fun o => o.fib == b.fid)

/-- Fibres whose exit can complete end, at most `n`. -/
def State.sweepN (s : State) : Nat → State
  | 0 => s
  | n + 1 => match s.exitReady with | some b => (s.endFibre b.fid).sweepN n | none => s

def State.sweep (s : State) : State := s.sweepN s.fibres.length

end Sys2Proof.Machine
end

