-- ==== Sys2Proof/Machine/Sibling.lean ====
section
/-! DEFINITION. Sibling cells at their homes: their slots and tokens, and what `sld`, `sldx`, `sst` and
`srec` do to them (R297 to R302, R340). -/

namespace Sys2Proof.Machine

/-- The address of a cell's state: 64 bytes of shadow space for each 8-byte cell (R218, R297). -/
def PageAttr.shadow (a : PageAttr) : Nat := a.aux.toNat + a.off / 8 * 64

/-- The live slots with their stamps. -/
def SibCell.live (c : SibCell) : List Nat := (List.range 4).filter fun k => (NMap.find c.slots k).isSome

/-- A slot's value, poison and stamp. -/
def SibCell.slot (c : SibCell) (k : Nat) : Word × Bool × BitVec 32 := (NMap.find c.slots k).getD default

def SibCell.stamp (c : SibCell) (k : Nat) : Nat := (c.slot k).2.2.toNat

/-- The live slot with the greatest stamp. -/
def SibCell.newest (c : SibCell) : Option Nat :=
  c.live.foldl (fun b k => match b with
    | none => some k
    | some j => if c.stamp j < c.stamp k then some k else some j) none

/-- The live slot with the smallest stamp. -/
def SibCell.oldest (c : SibCell) : Option Nat :=
  c.live.foldl (fun b k => match b with
    | none => some k
    | some j => if c.stamp k < c.stamp j then some k else some j) none

/-- The newest value, 0 when no slot is live. -/
def SibCell.value (c : SibCell) : RegCell :=
  match c.newest with | some k => ⟨(c.slot k).1, (c.slot k).2.1⟩ | none => ⟨0, false⟩

/-- The token (R298). -/
def SibCell.token (c : SibCell) : Word :=
  let seen := c.live.foldl (fun n k => n + 2 ^ k) 0
  BitVec.ofNat 64 (c.clock.toNat + seen * 2 ^ 32 + c.live.length * 2 ^ 36 + (c.newest.getD 0) * 2 ^ 39)

/-- A slot written with the next stamp: the cell's clock rises by one. -/
def SibCell.put (c : SibCell) (k : Nat) (v : Word) (p : Bool) : SibCell :=
  { clock := c.clock + 1, slots := NMap.put c.slots k (v, p, c.clock + 1) }

/-- R340: the token covers a live slot. -/
def SibCell.covered (c : SibCell) (tk : Word) (k : Nat) : Bool :=
  tk.getLsbD (32 + k) && decide (c.stamp k ≤ tk.toNat % 2 ^ 32)

/-- The slots a token supersedes, freed (R301). -/
def SibCell.supersede (c : SibCell) (tk : Word) : SibCell :=
  if tk.toNat % 2 ^ 32 ≤ c.clock.toNat then
    { c with slots := c.slots.filter fun x => !c.covered tk x.1 }
  else c

/-- R301, R217: what a full cell makes of its oldest value and the stored one. -/
def sopFold (sop : Nat) (a b : Word) : Word :=
  match sop with
  | 0 => a + b
  | 1 => if b.slt a then b else a
  | 2 => if a.slt b then b else a
  | 3 => a ||| b
  | 4 => a ^^^ b
  | _ => BitVec.ofNat 64 (binary64.add .rn false a.toNat b.toNat).1

/-- R301: the cell after `sst`, and its status; none when the clock is exhausted. -/
def SibCell.store (c : SibCell) (sop : Nat) (b tk : RegCell) : Option (SibCell × Nat) :=
  if c.clock == 0xFFFFFFFF then none
  else
    let c := c.supersede tk.v
    match (List.range 4).find? fun k => !c.live.contains k with
    | some k =>
      let c := c.put k b.v b.p
      some (c, if c.live.length = 1 then 0 else 1)
    | none =>
      if sop = 6 then some (c, 3)
      else
        match c.oldest with
        | some o =>
          let x := c.slot o
          some (c.put o (sopFold sop x.1 b.v) (x.2.1 || b.p), 2)
        | none => some (c, 3)

/-- R302: the combining operations. -/
def srecStep (op : SrecOp) (a b : Word) : Word :=
  match op with
  | .add => a + b
  | .min => if b.slt a then b else a
  | .max => if a.slt b then b else a
  | .or => a ||| b
  | .xor => a ^^^ b
  | .fadd => BitVec.ofNat 64 (binary64.add .rn false a.toNat b.toNat).1
  | .minu => if b.ult a then b else a
  | .maxu => if a.ult b then b else a

/-- A slot inserted among slots in ascending order of their stamps. -/
def SibCell.insert (c : SibCell) (k : Nat) : List Nat → List Nat
  | [] => [k]
  | j :: l => if c.stamp k < c.stamp j then k :: j :: l else j :: c.insert k l

/-- The live slots in ascending order of their stamps. -/
def SibCell.byStamp (c : SibCell) : List Nat := c.live.foldr c.insert []

/-- R302: the cell after `srec`, and whether it collapsed; none when the clock is exhausted. -/
def SibCell.reconcile (c : SibCell) (op : SrecOp) (force : Bool) (tk : Word) (val : Option RegCell) :
    Option (SibCell × Bool) :=
  if c.clock == 0xFFFFFFFF then none
  else
    let ok := force || tk.toNat % 2 ^ 32 == c.clock.toNat
    let vals := c.byStamp.map fun k => (⟨(c.slot k).1, (c.slot k).2.1⟩ : RegCell)
    let all := match val with | some v => vals ++ [v] | none => vals
    match ok, all with
    | true, x :: xs =>
      let acc := xs.foldl (fun a b => (⟨srecStep op a.v b.v, a.p || b.p⟩ : RegCell)) x
      some (({ c with slots := [] } : SibCell).put 0 acc.v acc.p, true)
    | _, _ => some (c, ok)

/-- A cell of the package. -/
def State.sibCell (s : State) (sha : Nat) : SibCell := NMap.get s.sib sha

/-- A cell read: its home reads the sector of shadow space that holds it (R203, R297). -/
def State.readCell (s : State) (sha : Nat) : SibCell × State := (s.sibCell sha, (s.homeRead (secBase sha) 0xFF).2)

/-- A cell changed: its sector of shadow space, in a layout that no program can see (log 218), and the page's bytes are
rewritten, those as one write at the home (R297, R346). -/
def State.putCell (s : State) (sha dpa part : Nat) (c : SibCell) : State :=
  let s := { s with sib := NMap.set s.sib sha c }
  let s := s.homeWrite (secBase sha) (secBits 0 512 (Config.freeNat s.tick (2 ^ 71)) false) part
  if isVoid dpa then s
  else s.homeWrite (secBase dpa) (secBytes (dpa % 64) 8 c.value.v.toNat c.value.p) part

end Sys2Proof.Machine
end

