-- ==== Sys2Proof/Machine/Perform.lean ====
section
/-! DEFINITION. How outstanding operations are performed: the order within a fibre (R183), loads and stores
at their points (R178 to R181), atomics and reductions (R137 to R142, R189, R190), full/empty accesses
(R145 to R148), fences and write-backs (R143, R144), sibling operations, requests to other packages (R351 to
R354), accumulator moves (R257, R277), and the completions (R17). -/

namespace Sys2Proof.Machine

/-! ## What an operation touches -/

inductive FootKind where
  | mem | spad | acc
  deriving DecidableEq, Repr

/-- A run of bytes of memory or of a team's scratchpad, or of a team's accumulator cells. -/
structure Foot where
  kind : FootKind
  key : Nat
  lo : Nat
  hi : Nat
  deriving DecidableEq, Repr

def Foot.meets (a b : Foot) : Bool :=
  decide (a.kind = b.kind) && a.key == b.key && decide (a.lo < b.hi) && decide (b.lo < a.hi)

/-- `n` bytes from the byte `k` after a place. -/
def Loc.feet (l : Loc) (k n : Nat) : List Foot :=
  match l with
  | .spad t o => [⟨.spad, t, o + k, o + k + n⟩]
  | .mem a _ => [⟨.mem, 0, a + k, a + k + n⟩]
  | .nowhere => []

/-- Bytes of `k` elements from element `e` of a place. -/
def Loc.elemFeet (l : Loc) (f : EFmt) (e k : Nat) : List Foot :=
  let b := EFmt.bytesOf f e k
  l.feet b.1 b.2

def accFoot (t lo n : Nat) : Foot := ⟨.acc, t, lo, lo + n⟩

def MemOp.feet (o : MemOp) : List Foot :=
  match o.act with
  | .ld _ n _ _ _ _ => o.loc.feet 0 n
  | .st n _ _ _ => o.loc.feet 0 n
  | .ldx _ k e f _ sc => o.loc.elemFeet f e k ++ (match sc with | some l => l.feet 0 1 | none => [])
  | .follow _ => []
  | .fill _ => []
  | .ask => []
  | .give => []
  | .lde _ k e f _ => o.loc.elemFeet f e (k * EFmt.step f)
  | .ste k e f _ _ => o.loc.elemFeet f e (k * EFmt.step f)
  | .atom _ _ _ wide _ _ => o.loc.feet 0 (if wide then 8 else 4)
  | .red _ wide _ => o.loc.feet 0 (if wide then 8 else 4)
  | .fence => []
  | .cwb _ ls _ => ls.map fun b => ⟨.mem, 0, b, b + 256⟩
  | .fe _ n => o.loc.feet 0 (16 * n)
  | .feqry _ => []
  | .sld _ _ => o.loc.feet 0 8
  | .sst _ _ _ _ => o.loc.feet 0 8
  | .srec _ _ _ _ _ _ => o.loc.feet 0 8
  | .mrd _ w ci => [accFoot o.fib.team ci (if w then 1 else 2)]
  | .mwr w ci _ => [accFoot o.fib.team ci (if w then 1 else 2)]
  | .mzero row n => [accFoot o.fib.team (64 * row) (64 * n)]
  | .msts row => accFoot o.fib.team (64 * row) 64 :: o.loc.feet 0 256
  | .mlds row => accFoot o.fib.team (64 * row) 64 :: o.loc.feet 0 256
  | .mma n lo hi => accFoot o.fib.team lo (hi - lo) :: (if n = 0 then [] else o.loc.feet 0 n)
  | .push => []

/-- The predicates an operation will write. -/
def OpAct.preds : OpAct → List (Fin 8)
  | .atom _ ps op _ _ _ => if op.hasSuccess then [ps] else []
  | .srec _ ps _ _ _ _ => [ps]
  | _ => []

/-! ## Code blocks asked of another package (R15, R351) -/

/-- The 64-byte block of a code address. -/
def blockOf (a : Word) : Word := a - BitVec.ofNat 64 (a.toNat % 64)

/-- Blocks of a core's instruction cache: 64 KiB of 64 bytes (R3). -/
def codeBlocks : Nat := 1024

/-- A block put into a core's instruction cache, the oldest leaving when it is full. -/
def State.putBlock (s : State) (t : Team) (a : Word) (ws : List W32) : State :=
  let b : IBlock := ⟨t.clutch, t.part, (blockOf a).toNat, ws⟩
  s.modCore t.core fun c => { c with icache := (b :: c.icache).take codeBlocks }

/-- The sixteen words of a sector. -/
def codeWords (v : BitVec 512) : List W32 := (List.range 16).map fun i => v.extractLsb' (32 * i) 32

/-- A request for a block of code: a load of 64 bytes that writes no register. -/
def OpAct.isCode : OpAct → Bool
  | .ld none 64 _ _ _ _ => true
  | _ => false

/-! ## The order within a fibre (R183) -/

def Order.isAcq : Order → Bool
  | .acq => true | .ar => true | .sc => true | _ => false
def Order.isRel : Order → Bool
  | .rel => true | .ar => true | .sc => true | _ => false

def OpAct.isFence : OpAct → Bool
  | .fence => true | _ => false
def OpAct.isPush : OpAct → Bool
  | .push => true | _ => false
def OpAct.isAtom : OpAct → Bool
  | .atom _ _ _ _ _ _ => true | _ => false
/-- A sibling operation. -/
def OpAct.isSib : OpAct → Bool
  | .sld _ _ => true | .sst _ _ _ _ => true | .srec _ _ _ _ _ _ => true | _ => false
/-- An access with the FE modifier. -/
def OpAct.isFe : OpAct → Bool
  | .ld _ _ _ w _ _ => w
  | .st _ _ _ w => w
  | _ => false
def OpAct.isMma : OpAct → Bool
  | .mma _ _ _ => true
  | _ => false
/-- A plain load, which a sealed line may serve (R355, R358). -/
def OpAct.cacheable : OpAct → Bool
  | .ld _ _ _ w _ _ => !w
  | .ldx _ _ _ _ _ _ => true | .lde _ _ _ _ _ => true | .fill _ => true
  | _ => false

/-- A page of an operation's is sequentially consistent: that of its place, or of its scale byte (R183, R231). -/
def MemOp.onSc (o : MemOp) : Bool :=
  let sc := fun (l : Loc) => match l with | .mem _ a => a.sc | _ => false
  sc o.loc || match o.act with | .ldx _ _ _ _ _ (some l) => sc l | _ => false

/-- R183, R143 and R18: `e`, earlier in program order, is performed before `f` may be. -/
def MemOp.before (e f : MemOp) : Bool :=
  if e.act.isPush || f.act.isPush then false
  else
    -- row 1
    (e.feet.any fun a => f.feet.any a.meets)
    -- row 2, and the later side of a fence that acquires
    || Order.isAcq e.ord.order
    -- row 3, and the earlier side of a fence that releases
    || Order.isRel f.ord.order
    -- row 4: an acquire fence waits for loads and atomics, a release fence holds back what is no load
    || (f.act.isFence && f.ord.order == .acq && (e.isLoad || e.act.isAtom))
    || (e.act.isFence && e.ord.order == .rel && !f.isLoad)
    -- row 5
    || (e.ord.order == .sc && f.ord.order == .sc && e.ord.scope == f.ord.scope)
    -- row 6
    || e.onSc
    -- R18: two results in one register or predicate
    || (e.act.dests.any fun d => f.act.dests.contains d) || (e.act.preds.any fun d => f.act.preds.contains d)

/-- A signed phase reads B where its supplying signer's address lies, of those that have signed so far (R248, R279). -/
def State.aimed (s : State) (o : MemOp) : MemOp :=
  if !o.act.isMma then o
  else
    match s.team? o.fib.team with
    | none => o
    | some t =>
      match t.kregs.find? fun k => k.2.caps.any fun c => c.op == o.id with
      | none => o
      | some k => match mtxSupplier k.2.caps with
        | some c => { o with loc := .spad t.id c.baddr }
        | none => o

/-- What is settled for the fibres of one execution together, whatever its batches (R29, R109): the value of an s
register, the lanes of an atomic or of a sibling operation, and the order at a granule. -/
def OpAct.together (a : OpAct) : Bool := a.dests.any Opnd.shared || a.isAtom || a.isSib || a.isFe

/-- A lower lane of the same sibling instruction has yet to be applied to the cell (R303). -/
def State.sibBefore (s : State) (o : MemOp) : Bool :=
  o.act.isSib && s.pend.any fun p => p.act.isSib && p.mates o && decide (p.fib.lane < o.fib.lane) && decide (p.loc = o.loc)

/-- No earlier operation of its fibre that must come first is outstanding (R183). -/
def State.inOrder (s : State) (o : MemOp) : Bool :=
  !(s.pend.any fun e => e.fib == o.fib && decide (e.id < o.id) && (s.aimed e).before o)

/-- Nothing that must come first is outstanding. -/
def State.unblocked (s : State) (o : MemOp) : Bool :=
  s.inOrder o && !(o.act.together && s.execOpen o.fib.team o.fib.grp o.exec) && !s.sibBefore o

/-! ## Scopes -/

def Scope.wide : Scope → Bool
  | .team => false | .clus => false | _ => true

def MemOp.agent (o : MemOp) : Agent := ⟨some (podOf o.core), o.fib.team, o.fib, o.part⟩

/-- R132: what a release does before it is performed. -/
def State.releaseFor (s : State) (o : MemOp) : State :=
  if Order.isRel o.ord.order && o.ord.scope != .team then
    s.writeBack (podOf o.core) (o.ord.scope == .sys) (· == o.fib)
  else s

/-- R132: what an acquire does before it completes. -/
def State.acquireFor (s : State) (o : MemOp) : State :=
  if Order.isAcq o.ord.order && Scope.wide o.ord.scope then s.podAcquire (podOf o.core) else s

/-- An ordered access takes its value from its scope's point (R181). -/
def MemOp.atHome (o : MemOp) : Bool := o.ord.order != .none && Scope.wide o.ord.scope

/-- An operation applied at its scope's place, whatever its ORDER (R140). -/
def OpAct.isRmw : OpAct → Bool
  | .atom _ _ _ _ _ _ => true | .red _ _ _ => true | _ => false

/-- Bases of the sectors that some bytes touch. -/
def sectorsOf (f : Foot) : List Nat :=
  if f.kind = .mem ∧ f.lo < f.hi then (span (f.lo / 64) ((f.hi - 1) / 64 + 1 - f.lo / 64)).map (64 * ·) else []

/-- The 64-byte sectors that an operation touches. -/
def MemOp.sectors (o : MemOp) : List Nat := (o.feet.flatMap sectorsOf).eraseDups

/-- An expander's point at system scope is the expander (R181); one that is gone takes nothing (R242). -/
def State.onward (s : State) (o : MemOp) : State :=
  if o.ord.scope == .sys && (o.ord.order != .none || o.act.isRmw) then
    (o.sectors.filter fun a => spaceOf a == 1 && s.cxlUp a).foldl (fun s a => s.l2Flush a) s
  else s

/-! ## Bytes of a place -/

/-- A number of up to 8 aligned bytes at a place. -/
def State.getLoc (s : State) (g : Agent) (l : Loc) (home : Bool) (n : Nat) : (Nat × Bool) × State :=
  match l with
  | .spad t o => match s.team? t with | some x => ((x.spad.nat o n, x.spad.anyPois o n), s) | none => ((0, false), s)
  | .mem a t => s.readNat g a t home n
  | .nowhere => ((0, false), s)

/-- Bytes stored in a team's scratchpad. -/
def State.spadStore (s : State) (t o : Nat) (bs : List Byte) (p : Bool) : State :=
  s.modTeam t fun x =>
    { x with
      spad := x.spad.store o bs p
      tileOld := x.tileOld.filter fun e => !(decide (o < 8 * e.2.1 + 8) && decide (8 * e.2.1 < o + bs.length)) }

/-- A number of up to 8 aligned bytes written at a place. -/
def State.putLoc (s : State) (g : Agent) (l : Loc) (home : Bool) (n v : Nat) (p : Bool) : State :=
  match l with
  | .spad t o => s.spadStore t o (leBytes n v) p
  | .mem a t => s.writeNat g a t home n v p
  | .nowhere => s

/-- A place some bytes further on. -/
def Loc.fwd (l : Loc) (n : Nat) : Loc :=
  match l with
  | .spad t o => .spad t (o + n)
  | .mem a t => .mem (a + n) { t with off := t.off + n }
  | .nowhere => .nowhere

/-- The sectors of `n` bytes at an address. -/
def runSectors (a n : Nat) : List Nat := (List.range ((a % 64 + n + 63) / 64)).map fun i => secBase a + 64 * i

/-- A replica of the die of a load, under a tag (R135). -/
def State.replicaAt (s : State) (o : MemOp) (base : Nat) (tag : Option SealTag) : Option Sector :=
  (s.reps.find? fun r => r.1 == dieOf o.core && r.2.2.base == base && r.2.2.tag == tag).map (·.2.2)

/-- Some of `n` bytes at a place are in another package, and no sealed copy answers for them: only a plain load takes its
value from one, and not at a point of its own (R181, R351, R355). -/
def State.awayAt (s : State) (o : MemOp) (l : Loc) (n : Nat) : Bool :=
  match l with
  | .mem a t => s.isRemote a && !(match t.tag with
      | some k => o.act.cacheable && !o.atHome && (runSectors a n).all fun b =>
          (s.sealedCopy (podOf o.core) b k).isSome || (s.replicaAt o b (some k)).isSome
      | none => false)
  | _ => false

/-- A replica that a load is served from, or the line itself (R135). -/
def State.replica (s : State) (o : MemOp) (a : Nat) : Option Sector :=
  if o.atHome then none
  else if Config.freeNat s.tick 3 % 2 = 0 then none
  else s.replicaAt o (secBase a) none

/-- A sector fetched while the load was outstanding, where the pod's L1 has since lost it (R204). -/
def State.servedBy (s : State) (o : MemOp) (a : Nat) (t : PageAttr) (n : Nat) : Option SecVal :=
  let base := secBase a
  if o.atHome || t.sc || t.bypass a || s.isRemote a then none
  else
    let c := (secFind (s.pod (podOf o.core)).l1 base none).getD (Sector.empty base none)
    if c.covers (wordMask (a % 64) n) then none
    else (o.served.find? fun v => v.base == base).map fun v => s.rbufOver o.fib.team base (c.fill v.val s.clock).val

/-- A sealed copy that a load uses: the pod holds it from then on (R355). -/
def State.useSealed (s : State) (pod : Nat) (c : Sector) : State :=
  if (secFind (s.pod pod).l1 c.base c.tag).isSome then s
  else
    let s := s.modPod pod fun p => { p with l1 := secPut p.l1 { c with filled := s.clock } }
    match c.tag with | some k => s.useL2 (sealedDie c.base) (.sealed k) c.base | none => s

/-- Bytes that lie in one sector as a load reads them: a sealed copy, a replica, what its miss was served with, or the
place. -/
def State.loadNat (s : State) (o : MemOp) (l : Loc) (n : Nat) : (Nat × Bool) × State :=
  match l with
  | .mem a t =>
    let of := fun (v : SecVal) => (v.nat (a % 64) n, v.pois (a % 64) n)
    match t.tag with
    | some k => (match s.sealedCopy (podOf o.core) (secBase a) k with
        | some c => (of c.val, s.useSealed (podOf o.core) c)
        | none => match s.replicaAt o (secBase a) (some k) with
          | some c => (of c.val, s)
          | none => s.getLoc o.agent l o.atHome n)
    | none => (match s.replica o a with
        | some c => (of c.val, s)
        | none => match s.servedBy o a t n with
          | some v => (of v, s)
          | none => s.getLoc o.agent l o.atHome n)
  | l => s.getLoc o.agent l o.atHome n

/-- Sectors that misses fetched in this step serve the loads of their pods that were outstanding on them too (R204). -/
def State.latch (s : State) : State :=
  if s.missed.isEmpty then s
  else
    { s with
      missed := []
      pend := s.pend.map fun (o : MemOp) =>
        if o.act.cacheable && !o.atHome && !o.sent && s.inOrder o then
          let mine := s.missed.filter fun m =>
            m.1 == podOf o.core && o.sectors.contains m.2.base && !o.served.any fun v => v.base == m.2.base
          { o with served := o.served ++ mine.map (·.2) }
        else o }

/-! ## Completions -/

/-- Registers and predicates a completed operation writes; a clause temporary only within its clause, an s register
only for the lowest lane of the execution (R29). -/
def State.deliver (s : State) (o : MemOp) (regs : List (Opnd × RegCell)) (preds : List (Fin 8 × Bool)) : State :=
  let running := s.running.any fun r => r.id == o.run
  let s := regs.foldl (fun s r =>
    match r.1 with
    | .s _ => if s.outdoneBy o then s.keep o r else s.writeReg o.fib ⟨o.exec, o.hdr, o.word⟩ r.1 r.2
    | .t _ => if running then s.writeReg o.fib ⟨o.exec, o.hdr, o.word⟩ r.1 r.2 else s
    | _ => s.writeReg o.fib ⟨o.exec, o.hdr, o.word⟩ r.1 r.2) s
  s.modFib o.fib fun b => preds.foldl (fun b p => b.setPred p.1 p.2) b

/-- An operation of the home took effect: its clause has, for the fibre (R312). -/
def State.tookHome (s : State) (o : MemOp) : State :=
  let s := { s with pend := s.pend.map fun (p : MemOp) => if p.run == o.run && p.fib == o.fib then { p with took := true } else p }
  let s := s.modRun o.run fun r => { r with took := if r.took.contains o.fib then r.took else o.fib :: r.took }
  s.modFib o.fib fun b => match b.trap with
    | some t => if t.hdr == o.hdr then { b with trap := some { t with took := true } } else b
    | none => b

/-- A trap that a home raises for an operation (R301, R302). -/
def State.homeTrap (s : State) (o : MemOp) (code : Nat) (took : Bool) : State :=
  let took := took || o.took || (match s.run? o.run with | some r => r.took.contains o.fib | none => false)
  s.modFib o.fib fun b => b.noteTrap ⟨code, o.word, 0, o.addr, o.hdr, o.next, took, none⟩

/-- The error policy of a team's clutch is ACCEPT (R258). -/
def State.accepts (s : State) (t : Team) : Bool :=
  match s.clutch? t.clutch with | some c => (c.card.getD 4 0).getLsbD 3 | none => false

/-- R374: a poisoned load inside an open instance, under FAIL, goes to the sequencer. -/
def State.poisonLoad (s : State) (o : MemOp) (p : Bool) : State :=
  match s.team? o.fib.team with
  | some t => if p && t.rOpen && !s.accepts t && !s.saving t then s.modTeam t.id fun t => { t with fatal := true } else s
  | none => s

/-- A load's end: its registers, its acquire, its completion. -/
def State.endLoad (s : State) (o : MemOp) (regs : List (Opnd × RegCell)) : State :=
  let s := s.acquireFor o
  let s := s.deliver o regs []
  (match o.act with
    | .mrd _ _ _ => s
    | _ => s.poisonLoad o (regs.any (·.2.p))).finish o

/-! ## Loads (R95, R231) -/

/-- What a plain load writes from its bytes. -/
def loadRegs (d : Option Opnd) (n : Nat) (sx : Bool) (lo hi : Nat × Bool) : List (Opnd × RegCell) :=
  match d with
  | none => []
  | some d =>
    if n = 16 then [(d, ⟨BitVec.ofNat 64 lo.1, lo.2⟩), (d.succ, ⟨BitVec.ofNat 64 hi.1, hi.2⟩)]
    else [(d, ⟨if sx then BitVec.ofInt 64 (toSigned (8 * n) lo.1) else BitVec.ofNat 64 lo.1, lo.2⟩)]

/-- R135: the line that a `ld.rep` touches, replicated for the clutch. -/
def State.leaveReplica (s : State) (o : MemOp) (rep : Bool) : State :=
  let c := match s.team? o.fib.team with | some x => x.clutch | none => 0
  if rep then s.prefetch o.core o.part (some (dieOf o.core, c)) o.loc else s

/-- The bits of a run of up to 64 bytes at a place, with poison: from one sector, or from two. -/
def State.loadSpan (s : State) (o : MemOp) (l : Loc) (n : Nat) : (Nat × Bool) × State :=
  match l with
  | .mem a _ =>
    let k := min n (64 - a % 64)
    let x := s.loadNat o l k
    if k = n then x
    else
      let y := x.2.loadNat o (l.fwd k) (n - k)
      ((x.1.1 + y.1.1 * 2 ^ (8 * k), x.1.2 || y.1.2), y.2)
  | l => s.loadNat o l n

/-! ## Parts of an access (R96, R231) -/

/-- The parts that an access is performed in, with no atomicity between them: the 8-byte halves of 16 bytes, the
elements, and the scale byte after them. -/
def OpAct.parts : OpAct → Nat
  | .ld _ n _ w _ _ => if n = 16 && !w then 2 else 1
  | .st n _ _ w => if n = 16 && !w then 2 else 1
  | .ldx _ k _ _ _ sc => k + (if sc.isSome then 1 else 0)
  | .lde _ k _ _ _ => k
  | .ste k _ _ _ _ => k
  | _ => 1

/-- The element that is part `j` of an element access. -/
def OpAct.elem (a : OpAct) (j : Nat) : Option (EFmt × Nat) :=
  match a with
  | .ldx _ k e f _ _ => if j < k then some (f, e + j) else none
  | .lde _ _ e f _ => some (f, e + j * EFmt.step f)
  | .ste _ e f _ _ => some (f, e + j * EFmt.step f)
  | _ => none

/-- The place of a part, and the bytes that hold it. -/
def MemOp.partAt (o : MemOp) (j : Nat) : Loc × Nat :=
  match o.act.elem j with
  | some (f, i) => let b := EFmt.bytesOf f i 1; (o.loc.fwd b.1, b.2)
  | none =>
    match o.act with
    | .ld _ n _ _ _ _ => (o.loc.fwd (8 * j), if n = 16 then 8 else n)
    | .st n _ _ _ => (o.loc.fwd (8 * j), if n = 16 then 8 else n)
    | .ldx _ _ _ _ _ sc => (sc.getD .nowhere, 1)
    | .fill _ => (o.loc, 256)
    | .ask => (o.loc, 64)
    | _ => (o.loc, 1)

/-- The parts still to be performed. -/
def MemOp.left (o : MemOp) : List Nat := (List.range o.act.parts).filter fun j => !o.got.any fun g => g.1 == j

/-- What a part still to be performed reaches is in another package. -/
def State.away (s : State) (o : MemOp) : Bool := o.left.any fun j => s.awayAt o (o.partAt j).1 (o.partAt j).2

/-- The package an address lies in is lost to the domain (R354). -/
def State.lostTo (s : State) (l : Loc) : Bool :=
  match l with | .mem a _ => s.lostAt a | _ => false

/-- What a part still to be performed reaches is in a package that is lost. -/
def State.gone (s : State) (o : MemOp) : Bool := o.left.any fun j => s.lostTo (o.partAt j).1

/-! ## The hub's ports (R419) -/

/-- The shared port that an operation needs: 0 host, 1 CXL for what its pod and the home do not hold, 2 UALink for what it
has still to ask another package for. -/
def State.hubPort (s : State) (o : MemOp) : Option Nat :=
  match o.loc with
  | .mem a t =>
    let cached := (secFind (s.pod (podOf o.core)).l1 (secBase a) none).any (·.full) || (secFind s.l2 (secBase a) none).isSome
    if spaceOf a = 2 then some 0
    else if spaceOf a = 1 then (if cached && !t.uncached && !t.sc then none else some 1)
    else if s.away o && !s.gone o then some 2
    else none
  | _ => none

/-- The round of slices after the one that the hub served last on a port. -/
def State.hubTurn (s : State) (port part : Nat) : Nat := (part + 8 - NMap.get s.hubLast port) % 8

/-- No other slice's request comes first on the port: the hub serves the slices round robin, one request at a time. -/
def State.portTurn (s : State) (o : MemOp) : Bool :=
  match s.hubPort o with
  | none => true
  | some k => s.pend.all fun p => p.part == o.part || p.sent || s.hubPort p != some k || !s.unblocked p
      || decide (s.hubTurn k o.part ≤ s.hubTurn k p.part)

/-- The hub has served a request's slice on its port. -/
def State.tookPort (s : State) (o : MemOp) : State :=
  match s.hubPort o with | some k => { s with hubLast := s.hubLast.set k (o.part + 1) } | none => s

/-- The operation may be performed. -/
def State.mayPerform (s : State) (o : MemOp) : Bool := s.unblocked o && s.portTurn o

/-- What a part read. -/
def MemOp.gotAt (o : MemOp) (j : Nat) : Option (Nat × Bool) := (o.got.find? fun g => g.1 == j).map (·.2)

/-- The raw bits of an element in a span of bytes that begins at byte `lo` of its 64 KiB. -/
def rawElem (f : EFmt) (span lo i : Nat) : Nat := span >>> (EFmt.bitPos f i - 8 * lo) % 2 ^ EFmt.bits f

/-- A part read: its value, the raw bits of an element. -/
def State.readPart (s : State) (o : MemOp) (j : Nat) : (Nat × Bool) × State :=
  let p := o.partAt j
  let r := s.loadSpan o p.1 p.2
  match o.act.elem j with
  | some (f, i) => ((rawElem f r.1.1 (EFmt.bytesOf f i 1).1 i, r.1.2), r.2)
  | none => r

/-- Parts read that have not been, each on its own. -/
def State.readParts (s : State) (o : MemOp) (js : List Nat) : MemOp × State :=
  js.foldl (fun acc j =>
    match acc.1.gotAt j with
    | some _ => acc
    | none => let r := acc.2.readPart acc.1 j; ({ acc.1 with got := acc.1.got ++ [(j, r.1)] }, r.2)) (o, s)

/-- Slots of `w` bits packed into a pair (R230). -/
def packSlots (w : Nat) (vs : List Nat) : Nat := vs.foldr (fun v acc => v % 2 ^ w + acc * 2 ^ w) 0

def pairRegs (d : Option Opnd) (bits v : Nat) (p : Bool) : List (Opnd × RegCell) :=
  match d with
  | none => []
  | some d =>
    (d, ⟨BitVec.ofNat 64 v, p⟩) :: (if 64 < bits then [(d.succ, (⟨BitVec.ofNat 64 (v / 2 ^ 64), p⟩ : RegCell))] else [])

/-- R231: the slots of `ldx` from the raw bits of its elements, from element `e`; a block whose scale is −128 reads +0
everywhere. -/
def ldxSlots (f : EFmt) (out : OutFmt) (e : Nat) (raws : List Nat) (scale : Option Nat) : List Nat :=
  raws.zipIdx.map fun r =>
    let x := EFmt.value f r.1 ((e + r.2) % 8)
    match scale with
    | none => (OutFmt.ffmt out).deliver x
    | some b => if scaleOf b = -128 then 0 else (OutFmt.ffmt out).deliver (FVal.shift x (scaleOf b))

/-- R231: the slots of `lde` from the raw bits of its elements. -/
def ldeSlots (f : EFmt) (sx : Bool) (raws : List Nat) : List Nat :=
  raws.map fun v =>
    let b := EFmt.bits f
    if sx && 2 ^ (b - 1) ≤ v then v + 2 ^ f.slot - 2 ^ b else v

/-- The span of bytes an element operation covers. -/
def OpAct.span : OpAct → Nat × Nat
  | .ldx _ k e f _ _ => EFmt.bytesOf f e k
  | .lde _ k e f _ => EFmt.bytesOf f e (k * EFmt.step f)
  | .ste k e f _ _ => EFmt.bytesOf f e (k * EFmt.step f)
  | _ => (0, 0)

/-- The scale byte marks a block of zeros, whose elements are not read (R226). -/
def MemOp.zeroBlock (o : MemOp) : Bool :=
  match o.act with
  | .ldx _ k _ _ _ (some _) => (match o.gotAt k with | some b => scaleOf b.1 == -128 | none => false)
  | _ => false

/-- What a load writes once its parts are read (R95, R231). -/
def MemOp.loaded (o : MemOp) : List (Opnd × RegCell) :=
  let v := fun (j : Nat) => (o.gotAt j).getD (0, false)
  let elems := fun (k : Nat) => (List.range k).map v
  match o.act with
  | .ld d n sx _ _ _ => loadRegs d n sx (v 0) (v 1)
  | .ldx d k e f out sc =>
    let scale := sc.map fun _ => v k
    let p := (!o.zeroBlock && (elems k).any (·.2)) || (match scale with | some b => b.2 | none => false)
    pairRegs d (k * out.slot) (packSlots out.slot (ldxSlots f out e ((elems k).map (·.1)) (scale.map (·.1)))) p
  | .lde d k _ f sx =>
    pairRegs d (k * f.slot) (packSlots f.slot (ldeSlots f sx ((elems k).map (·.1)))) ((elems k).any (·.2))
  | _ => []

/-- A load performed: the parts it has still to read, the scale byte first, and its end. -/
def State.performLoad (s : State) (o : MemOp) : State :=
  let n := o.act.parts
  let sc := match o.act with | .ldx _ k _ _ _ (some _) => [k] | _ => []
  let a := s.readParts o sc
  let b := if a.1.zeroBlock then a else a.2.readParts a.1 (List.range n)
  let rep := match o.act with | .ld _ _ _ _ _ r => r | _ => false
  (b.2.leaveReplica o rep).endLoad o b.1.loaded

/-! ## Stores (R95, R132, R179, R231, R380) -/

/-- A store's end: what its scope still asks, and its completion. -/
def State.endStore (s : State) (o : MemOp) : State := (s.onward o).finish o

/-- A part stored: element stores carry the enables of their bits, and never clear a word's poison. -/
def State.writePart (s : State) (o : MemOp) (j : Nat) : State :=
  let p := o.partAt j
  match o.act with
  | .st _ lo hi _ =>
    let c := if j = 0 then lo else hi
    s.putLoc o.agent p.1 o.atHome p.2 c.v.toNat c.p
  | .ste k e f lo hi =>
    match o.loc with
    | .mem a t =>
      let v := lo.v.toNat + hi.v.toNat * 2 ^ 64
      let bad := lo.p || (decide (64 < k * f.slot) && hi.p)
      let bit := 8 * a + EFmt.bitPos f (e + j * EFmt.step f)
      let w := secBits (bit % 512) (EFmt.bits f) (v / 2 ^ (f.slot * j)) bad
      s.writeSec o.agent (bit / 8) t o.atHome { w with clean := 0 }
    | _ => s
  | _ => s

/-- A store performed: the parts it has still to write, and its end. -/
def State.performStore (s : State) (o : MemOp) : State :=
  (o.left.foldl (fun s j => s.writePart o j) (s.releaseFor o)).endStore o

/-! ## What a pending phase reads of its signers' later stores (R279) -/

/-- The words of scratchpad that a store of a signer will change, with what each held before any signer's later store,
for each of its pending phases. -/
def State.tileNews (s : State) (o : MemOp) : List (Nat × Nat × Nat × Bool) :=
  match s.team? o.fib.team with
  | none => []
  | some t =>
    let words := (o.feet.filter fun f => f.kind == .spad && f.key == t.id).flatMap fun f =>
      if f.lo < f.hi then span (f.lo / 8) ((f.hi - 1) / 8 + 1 - f.lo / 8) else []
    t.kregs.flatMap fun k => (k.2.caps.filter fun c => c.fib == o.fib && decide (c.op < o.id)).flatMap fun c =>
      words.map fun w =>
        match t.tileOld.find? fun e => e.2.1 == w && k.2.caps.any fun x => x.op == e.1 with
        | some e => (c.op, w, e.2.2)
        | none => (c.op, w, t.spad.nat (8 * w) 8, t.spad.pois (8 * w))

/-- An operation of a signer performed, and what it overwrote kept for the phase. -/
def State.shading (s : State) (o : MemOp) (f : State → State) : State :=
  let news := if o.isLoad then [] else s.tileNews o
  let s := f s
  if news.isEmpty then s else s.modTeam o.fib.team fun t => { t with tileOld := news ++ t.tileOld }

/-! ## Atomics (R137, R142) -/

/-- The new value of an operation, and its success. -/
def atomStep (op : AtomOp) (wide : Bool) (old b c : Nat) : Nat × Bool :=
  let w := if wide then 64 else 32
  let m := 2 ^ w
  let old := old % m
  let b := b % m
  let c := c % m
  let f := fpFmt (!wide)
  match op with
  | .swap => (b, true)
  | .cas => if old = c then (b, true) else (old, false)
  | .add => ((old + b) % m, true)
  | .min => (if toSigned w b < toSigned w old then b else old, true)
  | .max => (if toSigned w old < toSigned w b then b else old, true)
  | .minu => (min old b, true)
  | .maxu => (max old b, true)
  | .and => (old &&& b, true)
  | .or => (old ||| b, true)
  | .xor => (old ^^^ b, true)
  | .incw => (if b ≤ old then 0 else old + 1, true)
  | .decw => (if old = 0 ∨ b < old then b else old - 1, true)
  | .addb => if old + b ≤ c then (old + b, true) else (old, false)
  | .fadd => ((f.add .rn false old b).1, true)
  | .fmin => ((f.minMax false true false old b).1, true)
  | .fmax => ((f.minMax true true false old b).1, true)

/-- Where an atomic or reduction is applied: the home for `.dev` and `.sys`, the pod's slice otherwise
(R140); a sequentially consistent page at its system place (R191), one named in space 3 at its owner's home (R352). -/
def MemOp.placeHome (o : MemOp) : Bool :=
  Scope.wide o.ord.scope || o.onSc || (match o.loc with | .mem _ a => a.far | _ => false)

/-- One operation applied at its place: the old value as returned, and its success (R142). -/
def State.applyAtom (s : State) (g : Agent) (l : Loc) (home : Bool) (op : AtomOp) (wide : Bool) (b c : RegCell) :
    (RegCell × Bool) × State :=
  let n := if wide then 8 else 4
  let r := s.getLoc g l home n
  let old := r.1.1
  let cp := op.hasSuccess && c.p
  let x := atomStep op wide old b.v.toNat c.v.toNat
  if r.1.2 then ((⟨BitVec.ofNat 64 old, true⟩, false), r.2)
  else if b.p || cp then ((⟨BitVec.ofNat 64 old, false⟩, x.2), r.2.putLoc g l home n x.1 true)
  else ((⟨BitVec.ofNat 64 old, false⟩, x.2), if x.2 then r.2.putLoc g l home n x.1 false else r.2)

/-- An atomic's end: D, pS, its acquire, its completion. -/
def State.endAtom (s : State) (o : MemOp) (d : Option Opnd) (ps : Fin 8) (op : AtomOp) (old : RegCell) (ok : Bool) :
    State :=
  let s := (s.onward o).acquireFor o
  let s := s.deliver o (match d with | some d => [(d, old)] | none => []) (if op.hasSuccess then [(ps, ok)] else [])
  s.finish o

/-- Operations kept in ascending order of lanes. -/
def insLane (p : MemOp) : List MemOp → List MemOp
  | [] => [p]
  | q :: l => if q.fib.lane < p.fib.lane then q :: insLane p l else p :: q :: l

/-- The operations of one `atom` on one place, in ascending order of lanes (R141). -/
def State.atomMates (s : State) (o : MemOp) : List MemOp :=
  (s.pend.filter fun p => p.act.isAtom && decide (p.loc = o.loc) && p.mates o).foldr insLane []

/-- The operations of one `atom` on one place, applied with nothing between them. -/
def State.performAtoms (s : State) (os : List MemOp) : State :=
  os.foldl (fun s o =>
    match o.act with
    | .atom d ps op wide b c =>
      s.shading o fun s =>
        let s := s.releaseFor o
        let r := s.applyAtom o.agent o.loc o.placeHome op wide b c
        r.2.endAtom o d ps op r.1.1 r.1.2
    | _ => s) s

/-! ## Range locks (R172) -/

/-- How an operation meets a range lock, and the bytes from its address that it touches (R172). -/
def OpAct.lockUse : OpAct → LockUse × Nat
  | .ld _ n _ w _ _ => (if w then .fe else .load, n)
  | .st n _ _ w => (if w then .fe else .store, n)
  | .ldx _ _ _ _ _ _ => (.load, 0) | .lde _ _ _ _ _ => (.load, 0) | .ste _ _ _ _ _ => (.store, 0)
  | .atom _ _ _ wide _ _ => (.store, if wide then 8 else 4)
  | .red _ wide _ => (.store, if wide then 8 else 4)
  | .fe _ n => (.fe, 16 * n) | .feqry _ => (.fe, 1024)
  | .sld _ _ => (.load, 8) | .sst _ _ _ _ => (.store, 8) | .srec _ _ _ _ _ _ => (.store, 8)
  | .msts _ => (.store, 256) | .mlds _ => (.load, 256)
  | .cwb _ _ n => (.store, 256 * n)
  | _ => (.free, 0)

/-- The range of bytes that an operation reaches, as range locks name it. -/
def MemOp.lockRange (o : MemOp) : Range :=
  let n := o.act.lockUse.2
  let r : Nat × Nat := match o.act with
    | .ldx _ k _ f _ _ => elemRange f k | .lde _ k _ f _ => elemRange f (k * EFmt.step f)
    | .ste k _ f _ _ => elemRange f (k * EFmt.step f)
    | .cwb _ _ _ => (offsetOf o.addr - offsetOf o.addr % 256, n)
    | _ => (offsetOf o.addr, n)
  match o.loc with
  | .spad t a => ⟨o.part, none, t, a, a + n⟩
  | _ => ⟨o.part, some (indexOf o.addr), 0, r.1, r.1 + r.2⟩
where
  /-- Bytes of `k` elements from the element offset the address gives. -/
  elemRange (f : EFmt) (k : Nat) : Nat × Nat :=
    let e := offsetOf o.addr
    let b := EFmt.bytesOf f (e % EFmt.perUnit f) k
    (e / EFmt.perUnit f * 65536 + b.1, b.2)

/-- The virtual address of the scale byte that an `ldx` reads (R226). -/
def MemOp.scaleVa (o : MemOp) : Option Nat :=
  match o.act, o.loc with
  | .ldx _ _ e f _ (some _), .mem _ t => some (t.scaleVa f e)
  | _, _ => none

/-- A range lock bars the access: its own bytes, or its scale byte (R172, R231). -/
def State.lockedOut (s : State) (o : MemOp) : Bool :=
  s.locked (podOf o.core) o.act.lockUse.1 o.lockRange
    || match o.scaleVa with | some va => s.lockedVa (podOf o.core) o.part va | none => false

/-- A command accepted since the access was issued holds its bytes: it traps 0x0D and performs nothing (R172, R195); one
of which some part is performed already goes on. -/
def State.barred (s : State) (o : MemOp) : Bool := !o.sent && o.got.isEmpty && s.lockedOut o

/-- An access that a range lock bars. -/
def State.lockTrap (s : State) (o : MemOp) : State := (s.homeTrap o 0x0D false).forsake o

/-! ## Reductions and the combining buffer (R138, R141, R190) -/

/-- The buffer of a pod holds at most 64 addresses. -/
def combSize : Nat := 64

/-- A reduction joins the pod's combining buffer; none when it is full. -/
def State.combine (s : State) (o : MemOp) (dpa : Nat) (op : AtomOp) (wide : Bool) : Option State :=
  let p := s.pod (podOf o.core)
  let same := fun (c : Comb) => c.addr == dpa && c.op == op && c.wide == wide
  let sent := fun (s : State) => { s with pend := s.pend.map fun (x : MemOp) => if x.id == o.id then { x with sent := true } else x }
  if p.comb.any same then
    some (sent (s.modPod (podOf o.core) fun p =>
      { p with comb := p.comb.map fun c => if same c then { c with ops := c.ops ++ [o.id] } else c }))
  else if combSize ≤ p.comb.length then none
  else some (sent (s.modPod (podOf o.core) fun p => { p with comb := p.comb ++ [⟨dpa, op, wide, s.clock, [o.id]⟩] }))

/-- The sum of two operands of a combined FP addition. -/
def addCells (wide : Bool) (a b : RegCell) : RegCell :=
  ⟨BitVec.ofNat 64 (atomStep .fadd wide a.v.toNat b.v.toNat 0).1, a.p || b.p⟩

/-- What combined FP additions add, one after another: the buffer sums operands two by two, in any order and as far
as it will (R141, log 8). -/
def mergeAdds (wide : Bool) (tick : Nat) : Nat → List RegCell → List RegCell
  | 0, l => l
  | n + 1, l =>
    match turn l (Config.freeNat tick (64 + 3 * n)) with
    | [] => []
    | a :: l =>
      match turn l (Config.freeNat tick (65 + 3 * n)) with
      | [] => [a]
      | b :: l =>
        if Config.freeNat tick (66 + 3 * n) % 2 = 0 then a :: mergeAdds wide tick n (b :: l)
        else mergeAdds wide tick n (addCells wide a b :: l)

/-- An entry applied at the home: the operations it combines, as one write. -/
def State.applyComb (s : State) (pod : Nat) (c : Comb) : State :=
  let s := s.modPod pod fun p => { p with comb := p.comb.filter fun x => !(x.addr == c.addr && x.op == c.op && x.wide == c.wide) }
  let all := c.ops.filterMap s.op?
  let s := (all.filter s.lockedOut).foldl (fun s o => s.lockTrap o) s
  let os := c.ops.filterMap s.op?
  match os with
  | [] => s
  | o :: _ =>
    let bs := os.filterMap fun o => match o.act with | .red _ _ b => some b | _ => none
    let merged := if c.op == .fadd then mergeAdds c.wide s.tick bs.length bs else bs
    let s := merged.foldl (fun s b => (s.applyAtom o.agent o.loc true c.op c.wide b ⟨0, false⟩).2) s
    os.foldl (fun s o => (s.onward o).finish o) s

/-- Every entry of a pod's buffer applied (R143). -/
def State.flushComb (s : State) (pod : Nat) : State := (s.pod pod).comb.foldl (fun s c => s.applyComb pod c) s

/-- A reduction: into the buffer for `.dev` and `.sys`, else at its place. -/
def State.performRed (s : State) (o : MemOp) (op : AtomOp) (wide : Bool) (b : RegCell) : State :=
  let s := s.releaseFor o
  let now := fun (s : State) => ((s.applyAtom o.agent o.loc o.placeHome op wide b ⟨0, false⟩).2.onward o).finish o
  match o.loc with
  | .mem a _ =>
    if Scope.wide o.ord.scope then
      match s.combine o a op wide with | some s => s | none => s
    else now s
  | _ => now s

/-! ## Fences and cache maintenance (R143, R144) -/

def State.performFence (s : State) (o : MemOp) : State :=
  (((s.releaseFor o).flushComb (podOf o.core)).acquireFor o).finish o

def State.performLines (s : State) (o : MemOp) (inv : Bool) (lines : List Nat) : State :=
  let pod := podOf o.core
  let sys := o.ord.scope == .sys
  let secs := lines.flatMap fun l => (List.range 4).map fun i => l + 64 * i
  let s := secs.foldl (fun s b =>
    if inv then
      let s := s.podDrop pod b
      let s := s.dropSealed pod b sys
      let s := { s with reps := s.reps.filter fun r => !(r.1 == dieOf o.core && r.2.2.base == b) }
      if sys then s.l2Drop b else s
    else
      let s := s.podFlush pod b
      if sys then s.l2Flush b else s) s
  s.finish o

/-! ## Full/empty (R145 to R148) -/

/-- Granules set full or empty. -/
def State.setGranules (s : State) (t lo n : Nat) (b : Bool) : State :=
  s.modTeam t fun x => { x with full := (span lo n).foldl (fun l g => setPut l g b) x.full }

def State.granuleFull (s : State) (t g : Nat) : Bool :=
  match s.team? t with | some x => setHas x.full g | none => false

/-- An FE access can take effect: its granule is full for a load, empty for a store. -/
def State.feReady (s : State) (o : MemOp) : Bool :=
  match o.act, o.loc with
  | .ld _ _ _ true _ _, .spad t a => s.granuleFull t (a / 16)
  | .st _ _ _ true, .spad t a => !s.granuleFull t (a / 16)
  | _, _ => false

/-- The granule of an FE access. -/
def MemOp.granule (o : MemOp) : Option (Nat × Nat) :=
  match o.loc with | .spad t a => some (t, a / 16) | _ => none

/-- Order of arrival at a granule; of one instruction, ascending lanes (R146). -/
def MemOp.arrivedBefore (p o : MemOp) : Bool := if p.mates o then decide (p.fib.lane < o.fib.lane) else decide (p.id < o.id)

/-- R146: earlier arrivals of the granule that could take effect go first. -/
def State.feFirst (s : State) (o : MemOp) : Bool :=
  !(s.pend.any fun p => p.arrivedBefore o && p.granule == o.granule && s.feReady p && s.mayPerform p)

/-- The operation lies in another team's scratchpad. -/
def MemOp.foreign (o : MemOp) : Bool := match o.loc with | .spad t _ => t != o.fib.team | _ => false

/-- A full/empty access elsewhere that takes effect after a checkpoint is not repeated by a replay (R369): the
registers it writes are written in the checkpoint too. -/
def State.deliverSaved (s : State) (o : MemOp) (regs : List (Opnd × RegCell)) : State :=
  let put := fun (f : Fibre) => regs.foldl (fun f r =>
    match r.1 with | .x n => { f with x := f.x.set n.val r.2 } | _ => f) f
  if !o.foreign then s
  else
    s.modTeam o.fib.team fun t =>
      match t.ckpt with
      | some k =>
        { t with ckpt := some { k with
            fibres := k.fibres.map fun f => if f.fid == o.fib then put f else f
            groups := k.groups.map fun g => if g.grp == o.fib.grp then
              regs.foldl (fun g r => match r.1 with
                | .s n => g.writeS ⟨o.exec, o.hdr, o.word⟩ o.fib.lane n.val r.2 | _ => g) g else g } }
      | none => t

/-- R145: the effect on the granule, atomic with the bytes. -/
def State.performFe (s : State) (o : MemOp) : State := s.shading o fun s =>
  match o.act, o.loc with
  | .ld d n sx true clr _, .spad t a =>
    let lo := s.getLoc o.agent o.loc false (min n 8)
    let hi := if n = 16 then s.getLoc o.agent (o.loc.fwd 8) false 8 else ((0, false), s)
    let s := if clr then s.setGranules t (a / 16) 1 false else s
    let regs := loadRegs d n sx lo.1 hi.1
    (s.deliverSaved o regs).endLoad o regs
  | .st n lo hi true, .spad t a =>
    let s := s.releaseFor o
    let s := s.putLoc o.agent o.loc false (min n 8) lo.v.toNat lo.p
    let s := if n = 16 then s.putLoc o.agent (o.loc.fwd 8) false 8 hi.v.toNat hi.p else s
    (s.setGranules t (a / 16) 1 true).finish o
  | _, _ => s

/-- R147. -/
def State.performSet (s : State) (o : MemOp) (set : Bool) (n : Nat) : State :=
  let s := s.releaseFor o
  match o.loc with
  | .spad t a => (s.setGranules t (a / 16) n set).finish o
  | _ => s.finish o

/-- R148: the states of 64 granules; those beyond the scratchpad read 0. -/
def State.performQuery (s : State) (o : MemOp) (d : Option Opnd) : State :=
  match o.loc with
  | .spad t a =>
    let size := match s.team? t with | some x => x.spadSize | none => 0
    let v := (List.range 64).foldl (fun n i =>
      if decide (a + 16 * i < size) && s.granuleFull t (a / 16 + i) then n + 2 ^ i else n) 0
    s.endLoad o (match d with | some d => [(d, ⟨BitVec.ofNat 64 v, false⟩)] | none => [])
  | _ => s.finish o

/-! ## Sibling operations (R300 to R303) -/

/-- What `sld` and `sldx` return. -/
def SibCell.read (c : SibCell) (slot : Option Nat) : RegCell :=
  match slot with
  | none => c.value
  | some k => match NMap.find c.slots k with | some x => ⟨x.1, x.2.1⟩ | none => ⟨0, false⟩

def State.endSld (s : State) (o : MemOp) (d : Option Opnd) (v : RegCell) (tk : Word) : State :=
  s.endLoad o (match d with | some d => [(d, v), (d.succ, ⟨tk, false⟩)] | none => [])

/-- The end of `sst`: its status, and trap 0x12 for status 3 without Q, after D is written. -/
def State.endSst (s : State) (o : MemOp) (d : Option Opnd) (quiet : Bool) (st : Nat) : State :=
  let s := s.deliver o (match d with | some d => [(d, ⟨BitVec.ofNat 64 st, false⟩)] | none => []) []
  let s := s.tookHome o
  let s := if st = 3 ∧ !quiet then s.homeTrap o 0x12 true else s
  s.finish o

def State.endSrec (s : State) (o : MemOp) (d : Option Opnd) (ps : Fin 8) (tk : RegCell) (ok : Bool) : State :=
  let s := (s.acquireFor o).deliver o (match d with | some d => [(d, tk)] | none => []) [(ps, ok)]
  (s.tookHome o).finish o

/-- An exhausted clock (R344): nothing is written. -/
def State.exhausted (s : State) (o : MemOp) : State := (s.homeTrap o 0x13 false).forsake o

/-- R300 to R303: at the home, whatever the scope; the storing pod's own copy of the page's bytes goes (R346). -/
def State.performSib (s : State) (o : MemOp) : State :=
  match o.loc with
  | .mem a t =>
    let sha := t.shadow
    let put := fun (s : State) (c : SibCell) => (s.podDrop (podOf o.core) (secBase a)).putCell sha a o.part c
    (match o.act with
    | .sld d slot => let r := s.readCell sha; r.2.endSld o d (r.1.read slot) r.1.token
    | .sst d quiet b tk =>
      let r := (s.releaseFor o).readCell sha
      (match r.1.store t.sop b tk with
      | none => r.2.exhausted o
      | some (_, 3) => r.2.endSst o d quiet 3
      | some (c, st) => (put r.2 c).endSst o d quiet st)
    | .srec d ps op force tk val =>
      let r := (s.releaseFor o).readCell sha
      (match r.1.reconcile op force tk.v val with
      | none => r.2.exhausted o
      | some (c, ok) => (if c = r.1 then r.2 else put r.2 c).endSrec o d ps ⟨c.token, false⟩ ok)
    | _ => s)
  | _ => s.finish o

/-! ## Accumulator moves (R257) -/

/-- The pair of cells holding a cell carries poison. -/
def Team.accP (t : Team) (ci : Nat) : Bool := setHas t.accPois (ci / 2)

def Team.setAcc (t : Team) (ci : Nat) (v : BitVec 32) : Team := { t with acc := t.acc.set ci v }

/-- A cell pair's poison after a write of one cell, or of both when `whole` (R380). -/
def Team.setAccP (t : Team) (ci : Nat) (p whole : Bool) : Team :=
  if p then { t with accPois := setAdd t.accPois (ci / 2) }
  else if whole then { t with accPois := setDel t.accPois (ci / 2) } else t

/-- Two cells written from a 64-bit word. -/
def Team.setPair (t : Team) (ci : Nat) (v : Word) (p : Bool) : Team :=
  (((t.setAcc ci (v.extractLsb' 0 32)).setAcc (ci + 1) (v.extractLsb' 32 32)).setAccP ci p true)

/-- Pairs of cells written now, which a check may still find wrong (R365). -/
def Team.wrotePairs (t : Team) (now : Nat) (pairs : List Nat) : Team :=
  { t with unproven := pairs.foldl (fun l p => addUnproven l p now) t.unproven }

/-- Pairs read to be written elsewhere: their checks have completed (R365). -/
def Team.provePairs (t : Team) (pairs : List Nat) : Team :=
  { t with unproven := t.unproven.filter fun u => !pairs.contains u.1 }

def Team.pair (t : Team) (ci : Nat) : RegCell := ⟨NMap.get t.acc (ci + 1) ++ NMap.get t.acc ci, t.accP ci⟩

def State.performMove (s : State) (o : MemOp) : State :=
  let t := o.fib.team
  match s.team? t with
  | none => s.finish o
  | some x =>
    match o.act with
    | .mrd d w ci =>
      let v : RegCell := if w then ⟨(NMap.get x.acc ci).zeroExtend 64, x.accP ci⟩ else x.pair ci
      (s.modTeam t fun x => x.provePairs [ci / 2]).endLoad o (match d with | some d => [(d, v)] | none => [])
    | .mwr w ci b =>
      let s := s.modTeam t fun x =>
        (if w then (x.setAcc ci (b.v.extractLsb' 0 32)).setAccP ci b.p false else x.setPair ci b.v b.p).wrotePairs s.clock [ci / 2]
      s.finish o
    | .mzero row n =>
      let s := s.modTeam t fun x =>
        { x with acc := x.acc.filter fun c => !(decide (64 * row ≤ c.1) && decide (c.1 < 64 * (row + n)))
                 accPois := x.accPois.filter fun c => !(decide (32 * row ≤ c) && decide (c < 32 * (row + n))) }
      s.finish o
    | .msts row =>
      let s := (List.range 32).foldl (fun s i =>
        let p := x.pair (64 * row + 2 * i)
        s.putLoc o.agent (o.loc.fwd (8 * i)) false 8 p.v.toNat p.p) (s.modTeam t fun x => x.provePairs (span (32 * row) 32))
      s.finish o
    | .mlds row =>
      let s := (List.range 32).foldl (fun s i =>
        let r := s.getLoc o.agent (o.loc.fwd (8 * i)) false 8
        r.2.modTeam t fun x => x.setPair (64 * row + 2 * i) (BitVec.ofNat 64 r.1.1) r.1.2) s
      (s.modTeam t fun x => x.wrotePairs s.clock (span (32 * row) 32)).finish o
    | _ => s.finish o

/-- The operation is an accumulator move. -/
def OpAct.isMove : OpAct → Bool
  | .mrd _ _ _ => true | .mwr _ _ _ => true | .mzero _ _ => true | .msts _ => true | .mlds _ => true | _ => false

/-- A matrix operation of the core is running: moves wait for it (R277). -/
def State.mtxBusy (s : State) (core : Nat) : Bool := (s.core core).mtx.any (·.started)

/-! ## TRACKED_COMPLETE (R17) -/

/-- Where an operation's request goes. -/
def MemOp.dpa (o : MemOp) : Nat := match o.loc with | .mem a _ => a | _ => 0

/-- A request leaves for another package (R351), with its port and sequence number. -/
def State.send (s : State) (o : MemOp) : State :=
  let s := s.releaseFor o
  let route := (s.portFor o.dpa).map fun k => (k, s.sentSeq)
  { s with
    sentSeq := s.sentSeq + 1
    pend := s.pend.map fun (p : MemOp) => if p.id == o.id then { p with sent := true, route := route } else p }

/-- A line asked for by `pld`, once the caches hold it: the pod's L1 has it, and the replica is placed (R97, R135). -/
def State.performFill (s : State) (o : MemOp) (rep : Option (Nat × Nat)) : State :=
  match o.loc with
  | .mem a { tag := some k, .. } =>
    let s := (lineSectors a).foldl (fun s b =>
      match s.sealedCopy (podOf o.core) b k with
      | some c =>
        let s := s.useSealed (podOf o.core) c
        (match rep with | some x => s.replicate x.1 x.2 b (some k) c.val | none => s)
      | none => s) s
    s.finish o
  | _ => s.finish o

/-- An operation at a place of this package, performed and completed. -/
def State.performHere (s : State) (o : MemOp) : State :=
  match o.act with
  | .ld _ _ _ false _ _ => s.performLoad o
  | .st _ _ _ false => s.shading o fun s => s.performStore o
  | .ldx _ _ _ _ _ _ => s.performLoad o
  | .lde _ _ _ _ _ => s.performLoad o
  | .ste _ _ _ _ _ => s.performStore o
  | .atom _ _ _ _ _ _ =>
    let os := s.atomMates o
    if os.all s.unblocked then s.performAtoms os else s
  | .red op wide b => if o.sent then s else s.shading o fun s => s.performRed o op wide b
  | .fence => s.performFence o
  | .cwb inv ls _ => s.performLines o inv ls
  | .fe set n => s.performSet o set n
  | .feqry d => s.performQuery o d
  | .sld _ _ => s.performSib o
  | .sst _ _ _ _ => s.performSib o
  | .srec _ _ _ _ _ _ => s.performSib o
  | .mrd _ _ _ => if s.mtxBusy o.core then s else s.performMove o
  | .mwr _ _ _ => if s.mtxBusy o.core then s else s.performMove o
  | .mzero _ _ => if s.mtxBusy o.core then s else s.performMove o
  | .msts _ => if s.mtxBusy o.core then s else s.shading o fun s => s.performMove o
  | .mlds _ => if s.mtxBusy o.core then s else s.performMove o
  | .fill rep => s.performFill o rep
  | .ask => s.finish o
  | .give => s.finish o
  -- full/empty accesses, signed phases and pushes have rows of their own
  | .ld _ _ _ true _ _ => s
  | .st _ _ _ true => s
  | .mma _ _ _ => s
  | .push => s
  | .follow _ => s

/-- A place an operation names: its own, and the scale byte's. -/
def MemOp.places (o : MemOp) : List Loc :=
  match o.act with | .ldx _ _ _ _ _ (some l) => [o.loc, l] | _ => [o.loc]

/-- A sector that an engine asked for: kept for its step (R351), or cached, when its page is sealed and it passes a pod's
L1 (R192, R355). -/
def State.endAsk (s : State) (o : MemOp) (v : SecVal) : State :=
  match o.loc with
  | .mem a t =>
    let s := { s with far := s.far ++ [(o.run, (Sector.empty (secBase a) none).fill v s.clock)] }
    (match t.tag, o.isLoad with
      | some k, true => if v.p == 0xFF then s else s.installSealed (podOf o.core) (secBase a) k v
      | _, _ => s).finish o
  | _ => s.finish o

/-- R354: an operation completed without a response. -/
def State.unanswered (s : State) (o : MemOp) : State :=
  let bad : RegCell := ⟨0, true⟩
  let lose := fun (s : State) => { s with lost := s.lost ++ [(o.part, o.dpa, some o.addr)] }
  match o.act with
  | .atom d ps op _ _ _ => s.endAtom o d ps op bad false
  | .srec d ps _ _ _ _ => (lose s).endSrec o d ps bad false
  -- the status is not stated: a free value (log 8)
  | .sst d _ _ _ =>
    ((lose s).deliver o (match d with
      | some d => [(d, ⟨BitVec.ofNat 64 (Config.freeNat s.tick 4), false⟩)] | none => []) []).finish o
  | .cwb _ _ _ => (lose s).finish o
  | .st _ _ _ _ => (lose s).finish o
  | .ste _ _ _ _ _ => (lose s).finish o
  | .red _ _ _ => (lose s).finish o
  | .give => { s with lost := s.lost ++ [(o.part, o.dpa, none)] }.finish o
  | .ask => s.endAsk o ⟨0, 0xFF⟩
  | a => s.endLoad o (a.dests.map fun d => (d, bad))

def execTrackedComplete (op : Nat) (s : State) : Result :=
  .next <| match s.op? op with
  | none => s
  | some o =>
    if !s.mayPerform o then s
    else if s.barred o then (s.lockTrap o).sweep
    else if s.gone o then (s.unanswered o).sweep
    else if s.away o then (if o.sent then s else (s.tookPort o).send o)
    else ((s.tookPort o).performHere o).sweep

/-- The access's team, and the team whose scratchpad it names, are on their cores (R149). -/
def State.inPlace (s : State) (o : MemOp) : Bool :=
  let up := fun (t : Nat) => match s.team? t with | some x => x.phase == .resident | none => false
  up o.fib.team && match o.loc with | .spad t _ => up t | _ => true

/-- R145, R146: FE accesses take effect in order of arrival at their granule. -/
def execFeAccessComplete (op : Nat) (s : State) : Result :=
  .next <| match s.op? op with
  | none => s
  | some o =>
    if !(s.inPlace o && s.mayPerform o) then s
    else if o.act.isFe && s.barred o then (s.lockTrap o).sweep
    else if s.feReady o && s.feFirst o then (s.performFe o).sweep else s

/-- One part of an outstanding access performed on its own, the others left (R96, R231). -/
def State.performPart (s : State) (n j : Nat) : State :=
  match s.op? n with
  | none => s
  | some o =>
    let p := o.partAt j
    let mark := fun (s : State) (v : Nat × Bool) =>
      { s with pend := s.pend.map fun (x : MemOp) => if x.id == n then { x with got := x.got ++ [(j, v)] } else x }
    if o.act.parts ≤ 1 || !o.left.contains j || !s.mayPerform o || s.barred o || s.lostTo p.1 || s.awayAt o p.1 p.2 then s
    else
      let s := s.tookPort o
      match o.act with
      | .st _ _ _ _ => mark (s.shading o fun s => ((s.releaseFor o).writePart o j).onward o) (0, false)
      | .ste _ _ _ _ _ => mark (((s.releaseFor o).writePart o j).onward o) (0, false)
      | _ => let r := s.readPart o j; mark r.2 r.1

/-- R141: entry `n` of a pod's combining buffer applied. -/
def execRedCombineApply (pod n : Nat) (s : State) : Result :=
  .next <| match (s.pod pod).comb[n]? with
  | none => s
  | some c => (s.applyComb pod c).sweep

/-- R143: untracked, and performed when the order lets it; the pod's combining buffer is flushed. -/
def execFence (g : Guard) (o : Ord) (s : State) : Result :=
  .next (s.wordSeq g fun acc v =>
    (acc.flushComb (podOf v.team.core)).issue v false 15 o .nowhere 0 .fence)

/-! ## Answers of other packages (R351 to R354) -/

/-- The poison bits of eight words. -/
def poisBits (p : List Bool) : BitVec 8 :=
  BitVec.ofNat 8 ((List.range 8).foldl (fun m j => m + if p.getD j false then 2 ^ j else 0) 0)

/-- A sector as a message holds it. -/
def answerSec (bytes : List Byte) (p : List Bool) : SecVal :=
  ⟨BitVec.ofNat 512 (leNat (bytes.take 64)), poisBits p⟩

/-- The sectors of a sealed answer, whole from the one that holds the place, kept (R355); where the bytes begin. -/
def State.keepSealed (s : State) (o : MemOp) (n : Nat) (bytes : List Byte) (p : List Bool) : Nat × State :=
  match o.loc with
  | .mem a { tag := some k, .. } =>
    let secs := (a % 64 + n + 63) / 64
    (a % 64, (List.range secs).foldl (fun s i =>
      s.installSealed (podOf o.core) (secBase a + 64 * i) k (answerSec (bytes.drop (64 * i)) (p.drop (8 * i)))) s)
  | _ => (0, s)

/-- The bytes of an answer that a sealed page's sectors take: whole sectors, else the bytes asked for. -/
def answerBytes (l : Loc) (n : Nat) : Nat :=
  match l with | .mem a { tag := some _, .. } => 64 * ((a % 64 + n + 63) / 64) | _ => n

/-- What the parts of an element load read from an answer: the span of its elements where they are in another package,
then its scale byte where that is; the sealed sectors are kept (R355). -/
def State.answerParts (s : State) (o : MemOp) (bytes : List Byte) (p : List Bool) : MemOp × State :=
  let far := fun (l : Loc) => match l with | .mem a _ => s.isRemote a | _ => false
  let b := o.act.span
  let n := if far o.loc then answerBytes (o.loc.fwd b.1) b.2 else 0
  let r := if far o.loc then s.keepSealed { o with loc := o.loc.fwd b.1 } b.2 bytes p else (0, s)
  let pois := fun (x k : Nat) => (List.range k).any fun i => p.getD ((x + i) / 8) false
  let elems := if !far o.loc then [] else o.left.filterMap fun j =>
    (o.act.elem j).map fun (f, i) =>
      let e := EFmt.bytesOf f i 1
      let at_ := r.1 + (e.1 - b.1)
      (j, rawElem f (leNat ((bytes.drop at_).take e.2)) e.1 i, pois at_ e.2)
  let scale := match o.act with
    | .ldx _ k _ _ _ (some l) =>
      if far l && (o.gotAt k).isNone then [(k, leNat ((bytes.drop n).take 1), p.getD ((n + 7) / 8) false)] else []
    | _ => []
  ({ o with got := o.got ++ elems ++ scale }, r.2)

/-- The answer to a request: a load's bytes, or the whole sectors that hold them for a sealed page, with the poison
of each 8-byte word (R377); an atomic's old value and success; a sibling operation's value and token, or status,
0xFF standing for an exhausted clock. -/
def State.answered (s : State) (o : MemOp) (bytes : List Byte) (p : List Bool) : State :=
  let num := fun i n => leNat ((bytes.drop i).take n)
  let word := fun (i : Nat) => p.getD (i / 8) false
  match o.act with
  | .ld _ n _ _ _ _ =>
    let r := s.keepSealed o n bytes p
    if o.act.isCode then
      let s := match r.2.team? o.fib.team with
        | some t => r.2.putBlock t o.addr (codeWords (BitVec.ofNat 512 (leNat bytes)))
        | none => r.2
      s.endLoad o []
    else
      let part := fun (j : Nat) => let q := (o.partAt j).2; (j, num (r.1 + 8 * j) q, word (r.1 + 8 * j))
      r.2.performLoad { o with got := o.got ++ o.left.map part }
  | .ldx _ _ _ _ _ _ => let r := s.answerParts o bytes p; r.2.performLoad r.1
  | .lde _ _ _ _ _ => let r := s.answerParts o bytes p; r.2.performLoad r.1
  | .fill rep => (s.keepSealed o 256 bytes p).2.performFill o rep
  | .ask => s.endAsk o (answerSec bytes p)
  | .atom d ps op _ _ _ => s.endAtom o d ps op ⟨BitVec.ofNat 64 (num 0 8), word 0⟩ (!word 0 && num 8 1 != 0)
  | .sld d _ => s.endSld o d ⟨BitVec.ofNat 64 (num 0 8), word 0⟩ (BitVec.ofNat 64 (num 8 8))
  | .sst d quiet _ _ => if num 0 1 = 0xFF then s.exhausted o else s.endSst o d quiet (num 0 1 % 4)
  | .srec d ps _ _ _ _ =>
    if num 8 1 = 0xFF then s.exhausted o else s.endSrec o d ps ⟨BitVec.ofNat 64 (num 0 8), false⟩ (num 8 1 != 0)
  | _ => s.finish o

def execRemoteResponse (op : Nat) (bytes : List Byte) (poison : List Bool) (s : State) : Result :=
  .next <| match s.op? op with
  | some o => if o.sent && s.away o then (s.answered o bytes poison).sweep else s
  | none => s

/-- R354: a request without a response for 500 µs. -/
def execRemoteTimeout (op : Nat) (s : State) : Result :=
  .next <| match s.op? op with
  | some o => if o.sent && s.away o then (s.unanswered o).sweep else s
  | none => s

end Sys2Proof.Machine
end

