-- ==== Sys2Proof/Machine/Mtx.lean ====
section
/-! DEFINITION. The matrix engine: signing a phase with `mma` and `mmab`, the accumulator moves, and the
start and end of an operation (R243 to R257, R275 to R279). -/

namespace Sys2Proof.Machine

/-! ## Shapes (R246) -/

/-- The format of A. -/
def EFmt.ofA (f : EFmt) : EFmt := match f with | .cb2 => .e2m1 | f => f

/-- Columns of B and of the output. -/
def EFmt.mmaN (f : EFmt) : Nat := match f with | .fp64 => 16 | _ => 32

/-- Bytes of a column of B. -/
def EFmt.colBytes (f : EFmt) : Nat := match f with | .fp64 => 128 | .cb2 => 32 | _ => 64

/-- Blocks of a column or row; none for an unscaled format. -/
def MmaMod.blocks (m : MmaMod) : Nat := if m.fmt.scaled then m.fmt.mmaK / blockLen m.lb.val else 0

/-- Bytes of the tile and its scales (R248). -/
def MmaMod.span (m : MmaMod) : Nat := EFmt.mmaN m.fmt * (EFmt.colBytes m.fmt + MmaMod.blocks m)

/-- First output row (R245). -/
def MmaMod.row (m : MmaMod) : Nat := 8 * m.ar.toNat

/-- The order its FE wait and clear give a signer's operation: an acquire and a release at team scope (R146, R250). -/
def MmaMod.ord (m : MmaMod) : Ord :=
  ⟨if m.few then (if m.fec then .ar else .acq) else if m.fec then .rel else .none, .team⟩

/-! ## Signing (R249) -/

/-- A fibre arrives at a convergence register (R123); a signer's capture is kept with the phase. -/
def State.arrive (s : State) (f : FibId) (k : Nat) (cap : Option MtxCap) : State :=
  let s := s.modFib f fun b => { b with ksig := b.ksig ||| ((1 : Byte) <<< k) }
  let s := s.modTeam f.team fun t =>
    let x := NMap.get t.kregs k
    { t with kregs := t.kregs.set k { x with arr := x.arr + 1, caps := x.caps ++ cap.toList } }
  s.phaseCheck f.team k

/-- An arrival that R123 refuses: at a register not set or left by all its members (R124), by a fibre that has left it,
or twice in one phase. -/
def State.arriveBad (s : State) (f : FibId) (k : Nat) : Bool :=
  match s.fib? f, s.team? f.team with
  | some b, some t => decide ((NMap.get t.kregs k).n ≤ (NMap.get t.kregs k).left) || b.kleft.getLsbD k || b.ksig.getLsbD k
  | _, _ => true

/-- Step 1 of R249: what an address of B is refused for. -/
def State.tileTrap (s : State) (v : View) (m : MmaMod) (b : RegCell) : Option WordRes :=
  let o := offsetOf b.v
  if b.p then some poisonTrap
  else if indexOf b.v ≠ 0 then some (.trap 0x0C 0 b.v)
  else if o % 64 ≠ 0 then some (.trap 0x0F 0 b.v)
  else if v.team.spadSize < o + MmaMod.span m then some (.trap 0x06 0 b.v)
  else if s.locked (podOf v.team.core) .fe ⟨v.team.part, none, v.team.id, o, o + MmaMod.span m⟩ then
    some (.trap 0x0D 0 b.v)
  else none

/-- One fibre signs: it checks B, captures its operands and arrives (R249). -/
def State.sign (s : State) (v : View) (k : Fin 8) (m : MmaMod) (batched : Bool) (gb : Nat) (a : Fin 128) (b : Opnd)
    (c : Option (Fin 128)) : State :=
  match s.tileTrap v m (v.rd b) with
  | some w => s.apply v w
  | none =>
    if s.arriveBad v.fib.fid k.val then s.apply v (.trap 0x15 0 0)
    else
      let o := offsetOf (v.rd b).v
      let cap : MtxCap :=
        { fib := v.fib.fid, k := k.val, batched := batched, gb := gb, mods := m,
          frag := (List.range 8).map fun i => NMap.get v.fib.x (a.val + i),
          scale := c.map fun r => NMap.get v.fib.x r.val, baddr := o, op := s.fresh,
          hdr := v.run.hdr, next := v.run.next, word := v.run.pos + 1 }
      let rows := m.fmt.mmaRows
      let s := s.issue v false v.run.setb (MmaMod.ord m) (.spad v.team.id o) (v.rd b).v
        (.mma (MmaMod.span m) (64 * MmaMod.row m) (64 * (MmaMod.row m + rows)))
      s.arrive v.fib.fid k.val (some cap)

def execMma (g : Guard) (k : Fin 8) (m : MmaMod) (a : Fin 128) (b : Opnd) (c : Option (Fin 128)) (s : State) : Result :=
  .next (s.wordSeq g fun acc v => acc.sign v k m false 0 a b c)
def execMmab (g : Guard) (k : Fin 8) (m : MmaMod) (gb : Fin 3) (a : Fin 128) (b : Opnd) (c : Option (Fin 128))
    (s : State) : Result :=
  .next (s.wordSeq g fun acc v => acc.sign v k m true gb.val a b c)

/-! ## The operands of an operation (R247, R248) -/

/-- The signer that supplies what lane `l` of 32 supplies. -/
def capOf (caps : List MtxCap) (l : Nat) : Option MtxCap :=
  (caps.filter fun c => c.fib.lane % 32 == l).foldl
    (fun a b => match a with | none => some b | some x => some (if fibBefore b.fib x.fib then b else x)) none

/-- Where column `j` of row `i` lies: the lane of 32, the register and the lowest bit. -/
def fragPlace (f : EFmt) (i j : Nat) : Nat × Nat × Nat :=
  match f with
  | .fp64 => (2 * i + j / 8, j % 8, 0)
  | f => let per := 64 / EFmt.bits f; (i, j / per, j % per * EFmt.bits f)

/-- An element or scale with its poison. -/
structure Elem where
  v : FVal
  p : Bool
  deriving Repr

/-- Element (i, j) of A as held, scaled by its block: a row that nobody supplies reads +0. -/
def elemA (fmt : EFmt) (len : Nat) (caps : List MtxCap) (i j : Nat) : Elem :=
  let f := EFmt.ofA fmt
  let w := fragPlace f i j
  match capOf caps w.1 with
  | none => ⟨.fin false 0 0, false⟩
  | some c =>
    let r := c.frag.getD w.2.1 default
    let x := EFmt.value f (r.v.toNat / 2 ^ w.2.2 % 2 ^ EFmt.bits f) 0
    match c.scale with
    | none => ⟨x, r.p⟩
    | some sc =>
      let b := sc.v.toNat / 2 ^ (8 * (j / len)) % 256
      ⟨if scaleOf b = -128 then .fin false 0 0 else FVal.shift x (scaleOf b), r.p || sc.p⟩

/-- Element (kk, j) of the tile at scratchpad offset `b`; a block of scale −128 is not read (R226, R248). -/
def elemB (m : MmaMod) (spad : Memory) (b kk j : Nat) : Elem :=
  let f := m.fmt
  let bit := EFmt.bitPos f kk
  let a := b + j * EFmt.colBytes f + bit / 8
  let raw := fun (_ : Unit) => spad.nat a ((bit % 8 + EFmt.bits f + 7) / 8) / 2 ^ (bit % 8) % 2 ^ EFmt.bits f
  if f.scaled then
    let sa := b + EFmt.mmaN f * EFmt.colBytes f + j * MmaMod.blocks m + kk / blockLen m.lb.val
    let sc := spad.nat sa 1
    if scaleOf sc = -128 then ⟨.fin false 0 0, spad.pois sa⟩
    else ⟨FVal.shift (EFmt.value f (raw ()) (kk % 8)) (scaleOf sc), spad.pois a || spad.pois sa⟩
  else ⟨EFmt.value f (raw ()) 0, spad.pois a⟩

/-! ## Sums (R251, R252) -/

/-- A product, exact; none is a NaN. Integers have no negative zero. -/
def mmaProd (ints : Bool) (a b : FVal) : Option FVal :=
  if a.isNan || b.isNan then none
  else match mulV a b with
    | some (.fin s m e) => some (.fin (s && !(ints && m == 0)) m e)
    | x => x

/-- floor(log2 |t|) of a nonzero finite term. -/
def termExp : FVal → Option Int
  | .fin _ m e => if m = 0 then none else some (e + m.log2)
  | _ => none

/-- trunc(t ÷ 2^q) toward zero. -/
def termTrunc (q : Int) : FVal → Int
  | .fin s m e => signed s (if q ≤ e then m * 2 ^ (e - q).toNat else m / 2 ^ (q - e).toNat)
  | _ => 0

/-- R252: the sum of some terms, none of them a NaN, as a binary32 pattern. -/
def wideSum (ts : List FVal) : Nat :=
  let pinf := ts.any fun t => t.isInf && !t.sign
  let ninf := ts.any fun t => t.isInf && t.sign
  if pinf && ninf then 0x7FC00000
  else if pinf then binary32.inf false
  else if ninf then binary32.inf true
  else
    match ts.filterMap termExp with
    | [] => binary32.zero (ts.all fun t => t.isZero && t.sign)
    | x :: xs =>
      let q := xs.foldl max x - 60
      let n := ts.foldl (fun n t => n + termTrunc q t) 0
      if n = 0 then binary32.zero (ts.all fun t => t.isZero && t.sign) else (binary32.roundInt .rn false false n q).1

/-- R252: an output from its operands' elements and the cell before, none with SET. -/
def sum32 (ints : Bool) (ab : List (FVal × FVal)) (c : Option Nat) : Nat :=
  let ps := ab.map fun x => mmaProd ints x.1 x.2
  let c := c.map (binary32.val false)
  let old := match c with | some x => [x] | none => []
  if ps.any Option.isNone || old.any FVal.isNan then 0x7FC00000 else wideSum (ps.filterMap id ++ old)

/-- R251: a chain of fused multiply-adds. -/
def sum64 (ab : List (Nat × Nat)) (c : Option Nat) : Nat :=
  ab.foldl (fun acc x => (binary64.fma .rn false x.1 x.2 acc).1) (c.getD (binary64.zero true))

/-! ## An operation (R250, R253, R255) -/

/-- The columns that output row `i` sums over (R250, R255). -/
def mmaCols (m : MmaMod) (batched : Bool) (gb i : Nat) : List Nat :=
  let g := if batched then 2 ^ (gb + 1) else 1
  let kr := m.fmt.mmaK / g
  span (i * g / m.fmt.mmaM * kr) kr

/-- Output (i, j)'s first cell. -/
def outCell (m : MmaMod) (i j : Nat) : Nat :=
  let c := 64 * (MmaMod.row m + i / 2) + 32 * (i % 2)
  if m.fmt == .fp64 then c + 2 * j else c + j

/-- A fibre whose fragment or scale is poisoned poisons its rows (R253); `mmab` reads only its columns. -/
def rowPois (f : EFmt) (caps : List MtxCap) (i : Nat) (cols : List Nat) : Bool :=
  cols.any fun j =>
    let w := fragPlace (EFmt.ofA f) i j
    match capOf caps w.1 with
    | none => false
    | some c => (c.frag.getD w.2.1 default).p || (match c.scale with | some x => x.p | none => false)

/-- Output (i, j): its cells with their bits and poison; `old` reads a cell and its poison. -/
def mmaOut (m : MmaMod) (batched : Bool) (gb : Nat) (caps : List MtxCap) (spad : Memory) (b : Nat)
    (old : Nat → BitVec 32 × Bool) (i j : Nat) : List (Nat × BitVec 32 × Bool) :=
  let cols := mmaCols m batched gb i
  let ci := outCell m i j
  let bs := cols.map fun kk => elemB m spad b kk j
  let p := rowPois m.fmt caps i cols || bs.any (·.p) || (!m.set && (old ci).2)
  if m.fmt == .fp64 then
    let a := fun kk =>
      let w := fragPlace .fp64 i kk
      match capOf caps w.1 with | some c => (c.frag.getD w.2.1 default).v.toNat | none => 0
    let bw := fun kk => spad.nat (b + 128 * j + 8 * kk) 8
    let c := if m.set then none else some ((old (ci + 1)).1.toNat * 2 ^ 32 + (old ci).1.toNat)
    let r := sum64 (cols.map fun kk => (a kk, bw kk)) c
    [(ci, BitVec.ofNat 32 r, p), (ci + 1, BitVec.ofNat 32 (r / 2 ^ 32), p)]
  else
    let ints := m.fmt == .int8 || m.fmt == .int4
    let as := cols.map fun kk => (elemA m.fmt (blockLen m.lb.val) caps i kk).v
    let r := sum32 ints (as.zip (bs.map (·.v))) (if m.set then none else some (old ci).1.toNat)
    [(ci, BitVec.ofNat 32 r, p)]

/-- Every output of an operation. -/
def mmaOuts (m : MmaMod) (batched : Bool) (gb : Nat) (caps : List MtxCap) (spad : Memory) (b : Nat)
    (old : Nat → BitVec 32 × Bool) : List (Nat × BitVec 32 × Bool) :=
  (List.range m.fmt.mmaM).flatMap fun i => (List.range (EFmt.mmaN m.fmt)).flatMap (mmaOut m batched gb caps spad b old i)

/-- Outputs written: cells, then the poison of their pairs (R253). -/
def Team.putOuts (t : Team) (outs : List (Nat × BitVec 32 × Bool)) : Team :=
  let t := outs.foldl (fun t o => t.setAcc o.1 o.2.1) t
  let t := outs.foldl (fun t o => { t with accPois := setDel t.accPois (o.1 / 2) }) t
  outs.foldl (fun t o => if o.2.2 then { t with accPois := setAdd t.accPois (o.1 / 2) } else t) t

/-- A cell and its poison. -/
def Team.cell (t : Team) (ci : Nat) : BitVec 32 × Bool := (NMap.get t.acc ci, t.accP ci)

/-- The team as its operations find it once the earlier ones, computed and not yet written, have written (R276). -/
def Team.after (t : Team) (earlier : List MtxOp) : Team :=
  (earlier.filter fun x => x.team == t.id).foldl (fun t x => t.putOuts x.outs) t

/-- The scratchpad as some signers' operation reads it: without their own later stores (R279). -/
def Team.tileFor (t : Team) (ops : List Nat) : Memory :=
  (t.tileOld.filter fun e => ops.contains e.1).foldl (fun m e => m.store (8 * e.2.1) (leBytes 8 e.2.2.1) e.2.2.2) t.spad

/-- Granules of the tile and its scales. -/
def tileGranules (m : MmaMod) (b : Nat) : List Nat := span (b / 16) ((b + MmaMod.span m - 1) / 16 + 1 - b / 16)

/-- The A an operation uses: the latched A of the same format for R = 1, else the captured (R254). -/
def Team.aOf (t : Team) (m : MmaMod) (caps : List MtxCap) : List MtxCap :=
  if m.ra then match t.latch with | some l => if l.fmt == m.fmt then l.caps else caps | none => caps else caps

/-- The queue with its `n`-th operation replaced. -/
def mtxSet (l : List MtxOp) (n : Nat) (o : MtxOp) : List MtxOp := l.set n o

/-- The signers' operations have read B. -/
def State.readB (s : State) (ops : List Nat) : State :=
  { s with pend := s.pend.map fun (p : MemOp) =>
      match p.act with
      | .mma _ lo hi => if ops.contains p.id then { p with act := .mma 0 lo hi } else p
      | _ => p }

/-- R250, R276: the oldest operation not started reads its operands and computes. -/
def State.mtxStart (s : State) (core n : Nat) (o : MtxOp) : State :=
  match s.team? o.team, mtxSupplier o.caps, o.caps with
  | some t, some sup, c :: _ =>
    let m := c.mods
    let gr := tileGranules m sup.baddr
    let ready := !m.few || gr.all fun k => setHas t.full k
    let free := o.caps.all fun x => match s.op? x.op with | some p => s.mayPerform p | none => true
    if !(ready && free) then s
    else
      let a := t.aOf m o.caps
      let now := t.after ((s.core core).mtx.take n)
      let outs := mmaOuts m c.batched c.gb a (t.tileFor (o.caps.map (·.op))) sup.baddr now.cell
      let s := s.modTeam t.id fun t => { t with latch := some ⟨m.fmt, a⟩,
                                                tileOld := t.tileOld.filter fun e => !(o.caps.any fun x => x.op == e.1) }
      let s := if m.fec then s.modTeam t.id fun t => { t with full := gr.foldl setDel t.full } else s
      -- B has been read: stores to its bytes wait no more (R279)
      let s := s.readB (o.caps.map (·.op))
      s.modCore core fun x => { x with mtx := mtxSet x.mtx n { o with started := true, outs := outs } }
  | _, _, _ => s.modCore core fun x => { x with mtx := x.mtx.eraseIdx n }

def execMatrixOpStart (core : Nat) (s : State) : Result :=
  let l := (s.core core).mtx
  let n := (l.takeWhile (·.started)).length
  .next <| match l[n]? with
  | some o => s.mtxStart core n o
  | none => s

/-- R276: the oldest started operation writes its outputs, and its signers' instructions complete. -/
def execMatrixOpWrite (core : Nat) (s : State) : Result :=
  .next <| match (s.core core).mtx with
  | o :: rest =>
    if o.started then
      let s := s.modCore core fun x => { x with mtx := rest }
      let s := s.modTeam o.team fun t => (t.putOuts o.outs).wrotePairs s.clock ((o.outs.map (·.1 / 2)).eraseDups)
      (o.caps.foldl (fun s c => match s.op? c.op with | some p => s.finish p | none => s) s).sweep
    else s
  | [] => s

/-! ## Accumulator moves (R256, R257) -/

/-- A row or cell beyond the declared rows, or an odd cell: the access address is the cell or row named (log 21). -/
def cellTrap (code : Nat) (at_ : Nat) : WordRes := .trap code 0 (BitVec.ofNat 64 at_)

/-- `mrd` and `mwr`: the cell index, or the trap. -/
def View.cell (v : View) (w : Bool) (a : Opnd) (off : BitVec 12) : Except WordRes Nat :=
  let c := v.rd a
  let ci := c.v.toNat + off.toNat
  if c.p then .error poisonTrap
  else if !w && ci % 2 != 0 then .error (cellTrap 0x0F ci)
  else if 64 * v.team.accRows ≤ (if w then ci else ci + 1) then .error (cellTrap 0x06 ci)
  else .ok ci

def execMrd (g : Guard) (w : Bool) (d a : Opnd) (off : BitVec 12) (s : State) : Result :=
  .next (s.wordSeq g fun acc v =>
    match v.cell w a off with
    | .error e => acc.apply v e
    | .ok ci => acc.issue v true v.run.seta plainOrd .nowhere 0 (.mrd (some d) w ci))

def execMwr (g : Guard) (w : Bool) (a b : Opnd) (off : BitVec 12) (s : State) : Result :=
  .next (s.wordSeq g fun acc v =>
    match v.cell w a off with
    | .error e => acc.apply v e
    | .ok ci => acc.issue v false v.run.setb plainOrd .nowhere 0 (.mwr w ci (v.rdAs (if w then .int32 else .q64) b)))

def execMzero (g : Guard) (a : Opnd) (n : BitVec 12) (s : State) : Result :=
  .next (s.wordSeq g fun acc v =>
    let c := v.rd a
    if c.p then acc.apply v poisonTrap
    else if v.team.accRows < c.v.toNat + n.toNat then acc.apply v (cellTrap 0x06 c.v.toNat)
    else acc.issue v false v.run.setb plainOrd .nowhere 0 (.mzero c.v.toNat n.toNat))

/-- `msts` and `mlds`: the row and the scratchpad place, or the trap, in the table's order. -/
def State.rowMove (s : State) (v : View) (a b : Opnd) (store : Bool) : Except WordRes (Nat × Loc) :=
  let x := v.rd a
  let r := v.rd b
  if x.p || r.p then .error poisonTrap
  else if v.team.accRows ≤ r.v.toNat then .error (cellTrap 0x06 x.v.toNat)
  else if offsetOf x.v % 16 ≠ 0 then .error (.trap 0x0F 0 x.v)
  else if 1 < indexOf x.v then .error (.trap 0x0C 0 x.v)
  else
    match s.portOnCore (v.req x.v (offsetOf x.v) 256 0 (if store then .w else .r) (if store then .store else .load false)
        (if store then .store else .load)) with
    | .ok l _ => .ok (r.v.toNat, l)
    | .trap c => .error (.trap c 0 x.v)
    | .miss _ => .error (.trap 0x06 0 x.v)

def execMsts (g : Guard) (a b : Opnd) (s : State) : Result :=
  .next (s.wordSeq g fun acc v =>
    match acc.rowMove v a b true with
    | .error e => acc.apply v e
    | .ok (row, l) => acc.issue v false v.run.setb plainOrd l (v.rd a).v (.msts row))

def execMlds (g : Guard) (a b : Opnd) (s : State) : Result :=
  .next (s.wordSeq g fun acc v =>
    match acc.rowMove v a b false with
    | .error e => acc.apply v e
    | .ok (row, l) => acc.issue v false v.run.setb plainOrd l (v.rd a).v (.mlds row))

end Sys2Proof.Machine
end

