-- ==== Sys2Proof/Machine/Command.lean ====
section
/-! DEFINITION. Engine commands as their eight words: the header, the pages, and what the core rejects at
`push` (R160, R161, R164, R165, R168, R320, R321, R329 to R334). -/

namespace Sys2Proof.Machine

/-! ## Fields -/

/-- Word `i` of a command. -/
def wordAt (ws : List Word) (i : Nat) : Word := ws.getD i 0

/-- Bits `hi` down to `lo` of a word, as a number. -/
def fieldOf (w : Word) (hi lo : Nat) : Nat := w.toNat / 2 ^ lo % 2 ^ (hi + 1 - lo)

def cmdCode (ws : List Word) : Nat := fieldOf (wordAt ws 0) 7 0
def cmdScope (ws : List Word) : Nat := fieldOf (wordAt ws 0) 9 8
def cmdSer (ws : List Word) : Bool := (wordAt ws 0).getLsbD 10
def cmdKind (ws : List Word) : Nat := fieldOf (wordAt ws 0) 19 16
def cmdTarget (ws : List Word) : Word := wordAt ws 1

/-! ## The header (R160, R161) -/

/-- The codes a queue accepts. -/
def queueCodes : EQueue → List Nat
  | .se0 => [0x01, 0x02] | .se1 => [0x01, 0x02] | .cvx => [0x10] | .ray => [0x20, 0x21] | .cut => [0x30, 0x31]
  | .rast => [0x40] | .coll => [0x50, 0x51, 0x52, 0x53]

/-- TARGET as its KIND reads it. -/
def targetOk (kind : Nat) (t : Word) : Bool :=
  match kind with
  | 0 => t == 0
  | 1 => decide (indexOf t ≤ 1) && fieldOf t 29 22 == 0 && t.toNat % 16 == 0
  | 2 => t.toNat % 32 == 0
  | 3 => t.toNat % 8 == 0
  | 4 => t.toNat % 32 == 0
  | _ => false

def headerOk (q : EQueue) (ws : List Word) : Bool :=
  decide (cmdKind ws ≤ 4) && fieldOf (wordAt ws 0) 15 11 == 0 && (queueCodes q).contains (cmdCode ws)
    && targetOk (cmdKind ws) (cmdTarget ws)

/-- KIND 1's target: its address and how many granules. -/
def granuleTarget (ws : List Word) : Word × Nat :=
  (mkAddr (indexOf (cmdTarget ws)) (fieldOf (cmdTarget ws) 21 0), fieldOf (cmdTarget ws) 43 30 + 1)

/-! ## Stream engines (R164, R165) -/

/-- The layout record of `se.fill` and `se.drain`. -/
structure Layout where
  base : Word
  ext : List Nat
  str : List Int
  ndim : Nat
  fmt : Nat
  esz : Nat
  rbase : Nat
  space : Bool
  down : Bool
  first : Nat
  scount : Nat
  ssize : Nat
  deriving DecidableEq, Repr

def layoutOf (ws : List Word) : Layout where
  base := wordAt ws 2
  ext := [fieldOf (wordAt ws 3) 31 16, fieldOf (wordAt ws 3) 47 32, fieldOf (wordAt ws 3) 63 48, fieldOf (wordAt ws 4) 15 0]
  str := [toSigned 32 (fieldOf (wordAt ws 4) 63 32), toSigned 32 (fieldOf (wordAt ws 5) 31 0),
          toSigned 32 (fieldOf (wordAt ws 5) 63 32), toSigned 32 (fieldOf (wordAt ws 6) 31 0)]
  ndim := fieldOf (wordAt ws 3) 9 8 + 1
  fmt := fieldOf (wordAt ws 3) 7 4
  esz := 2 ^ fieldOf (wordAt ws 3) 3 0
  rbase := fieldOf (wordAt ws 6) 63 32
  space := (wordAt ws 7).getLsbD 49
  down := (wordAt ws 7).getLsbD 48
  first := fieldOf (wordAt ws 7) 47 32
  scount := fieldOf (wordAt ws 7) 31 16
  ssize := fieldOf (wordAt ws 7) 15 0

def streamOk (spad : Nat) (ws : List Word) : Bool :=
  let l := layoutOf ws
  fieldOf (wordAt ws 0) 63 20 == 0 && fieldOf (wordAt ws 3) 15 10 == 0 && decide (fieldOf (wordAt ws 3) 3 0 ≤ 4)
    && fieldOf (wordAt ws 4) 31 16 == 0 && fieldOf (wordAt ws 7) 63 50 == 0
    && l.rbase % 16 == 0 && decide (1 ≤ l.ssize) && decide (l.first < l.scount)
    && (l.ext.take l.ndim).all (fun e => decide (1 ≤ e)) && (l.ext.drop l.ndim).all (· == 0)
    && (l.str.drop l.ndim).all (· == 0)
    && decide (l.rbase + 16 * l.scount * l.ssize ≤ if l.space then 2 ^ 18 else spad)

/-! ## The other engines (R168, R321, R329 to R334) -/

def copyOk (ws : List Word) : Bool :=
  let w := wordAt ws 4
  let sf := fieldOf w 35 32
  let df := fieldOf w 39 36
  fieldOf (wordAt ws 0) 63 20 == 0 && fieldOf w 63 42 == 0 && decide (fieldOf w 41 40 ≤ 2) && decide (df ≤ 11)
    && decide (sf ≤ 12) && (sf == 0) == (df == 0) && decide (1 ≤ fieldOf w 31 0)
    && wordAt ws 5 == 0 && wordAt ws 6 == 0 && wordAt ws 7 == 0

def collOk (ws : List Word) : Bool :=
  let code := cmdCode ws
  let dt := fieldOf (wordAt ws 0) 27 24
  let op := fieldOf (wordAt ws 0) 23 20
  let n := fieldOf (wordAt ws 4) 31 0
  let root := fieldOf (wordAt ws 6) 21 12
  fieldOf (wordAt ws 0) 63 28 == 0 && decide (dt ≤ 3) && fieldOf (wordAt ws 4) 63 32 == 0
    && (wordAt ws 5).toNat % 256 == 0 && fieldOf (wordAt ws 6) 31 22 == 0 && wordAt ws 7 == 0
    && (if code = 0x50 then decide (op ≤ 5) && (decide (op < 3) || decide (dt ≤ 1)) else op == 0)
    && (if code = 0x52 then dt == 0 && wordAt ws 2 == 0 && wordAt ws 3 == 0 && n == 0
        else decide (1 ≤ n) && decide (n ≤ 2 ^ 24))
    && (code == 0x51 || code == 0x53 || root == 0)

def fpPositive (b : Nat) : Bool := decide (0 < b) && decide (b < 0x7F800000)

def selectOk (ws : List Word) : Bool :=
  fieldOf (wordAt ws 0) 43 20 == 0 && fieldOf (wordAt ws 4) 31 0 == 0 && fpPositive (fieldOf (wordAt ws 4) 63 32)
    && (fieldOf (wordAt ws 0) 63 44 != 0 || wordAt ws 7 == 0)

def cutCountOk (ws : List Word) : Bool :=
  let n := fieldOf (wordAt ws 4) 31 0
  decide (1 ≤ n) && decide (n < 2 ^ 25)

def treeOk (ws : List Word) : Bool :=
  fieldOf (wordAt ws 0) 63 20 == 0 && fieldOf (wordAt ws 4) 63 32 == 0 && cutCountOk ws && wordAt ws 5 == 0
    && (wordAt ws 6).toNat % 256 == 0 && fieldOf (wordAt ws 7) 63 32 == 0
    && decide (64 * fieldOf (wordAt ws 4) 31 0 + 512 ≤ fieldOf (wordAt ws 7) 31 0)

def rastOk (ws : List Word) : Bool :=
  let w := fieldOf (wordAt ws 7) 63 48
  let h := fieldOf (wordAt ws 7) 47 32
  let pitch := fieldOf (wordAt ws 7) 31 0
  fieldOf (wordAt ws 0) 63 20 == 0 && fieldOf (wordAt ws 4) 63 40 == 0 && cutCountOk ws
    && (wordAt ws 6).toNat % 8 == 0 && decide (1 ≤ w) && decide (w ≤ 16384) && decide (1 ≤ h) && decide (h ≤ 16384)
    && pitch % 8 == 0 && decide (8 * w ≤ pitch)

def rayOk (ws : List Word) : Bool :=
  fieldOf (wordAt ws 0) 63 20 == 0
    && (if cmdCode ws = 0x20 then fieldOf (wordAt ws 4) 63 33 == 0 && decide (1 ≤ fieldOf (wordAt ws 4) 31 0)
        else fieldOf (wordAt ws 4) 63 32 == 0 && wordAt ws 7 == 0)

/-- R157: a command that breaks no rule of its header and its page. -/
def commandOk (spad : Nat) (q : EQueue) (ws : List Word) : Bool :=
  headerOk q ws &&
    match cmdCode ws with
    | 0x01 => streamOk spad ws | 0x02 => streamOk spad ws | 0x10 => copyOk ws
    | 0x20 => rayOk ws | 0x21 => rayOk ws | 0x30 => selectOk ws | 0x31 => treeOk ws | 0x40 => rastOk ws
    | _ => collOk ws

end Sys2Proof.Machine
end

