-- ==== Sys2Proof/Machine/Sync.lean ====
section
/-! DEFINITION. The sync instructions of barriers, convergence registers, engine queues and guard slots
(R122 to R124, R150 to R159). -/

namespace Sys2Proof.Machine

/-! ## Barriers (R150 to R153) -/

/-- An arrival at a team barrier; `wait` for `barw` (R151). -/
def State.barArrive (s : State) (v : View) (b : Nat) (n : Option Src) (wait : Bool) : State :=
  let c : RegCell := match n with | some x => v.src .q64 x | none => ⟨0, false⟩
  let k := c.v.toNat
  let bar := match s.team? v.team.id with | some t => NMap.get t.bars b | none => default
  if c.p then s.apply v poisonTrap
  else if b ≠ 0 ∧ (k = 0 ∨ 1024 < k) then s.apply v v.operandTrap
  else if b ≠ 0 ∧ bar.isOpen ∧ k ≠ bar.expect then s.apply v (.trap 0x14 0 0)
  else
    let bar := if bar.isOpen then bar else ⟨true, if b = 0 then bar.expect else k, 0⟩
    let s := s.modTeam v.team.id fun t => { t with bars := t.bars.set b { bar with arr := bar.arr + 1 } }
    let s := if wait then s.modFib v.fib.fid fun f => f.await (.bar b) else s
    (s.barCheck v.team.id b).markTook v

def execBarv (g : Guard) (b : Fin 16) (n : Option Src) (s : State) : Result :=
  .next (s.wordSeq g fun acc v => acc.barArrive v b.val n false)
def execBarw (g : Guard) (b : Fin 16) (n : Option Src) (s : State) : Result :=
  .next (s.wordSeq g fun acc v => acc.barArrive v b.val n true)

/-- An arrival at a barrier that counts live fibres. -/
def Bar.arrive (b : Bar) : Bar := if b.isOpen then { b with arr := b.arr + 1 } else ⟨true, b.expect, 1⟩

/-- R152: the arrival releases at cluster scope (R132). -/
def execCbar (g : Guard) (arv : Bool) (n : Fin 4) (s : State) : Result :=
  .next (s.wordSeq g fun acc v =>
    let acc := acc.writeBack (podOf v.team.core) false (· == v.fib.fid)
    let acc := acc.modCluster v.team.cluster fun c => { c with bars := c.bars.mod n.val Bar.arrive }
    let acc := if arv then acc else acc.modFib v.fib.fid fun f => f.await (.cbar n.val)
    (acc.cbarCheck v.team.cluster n.val).markTook v)

/-- The clutch is flagged co-resident (R258). -/
def Clutch.coResident (c : Clutch) : Bool := (c.card.getD 3 0).getLsbD 57

/-- R152: the arrival releases at device scope. -/
def execGbar (g : Guard) (arv : Bool) (n : Fin 2) (s : State) : Result :=
  .next (s.wordSeq g fun acc v =>
    if !(match acc.clutch? v.team.clutch with | some c => c.coResident | none => false) then acc.apply v (.trap 0x1C 0 0)
    else
      let acc := acc.writeBack (podOf v.team.core) false (· == v.fib.fid)
      let acc := acc.modClutch v.team.clutch fun c => { c with bars := c.bars.mod n.val Bar.arrive }
      let acc := if arv then acc else acc.modFib v.fib.fid fun f => f.await (.gbar n.val)
      (acc.gbarCheck v.team.clutch n.val).markTook v)

/-- R153: the tile has met when its clause started; its accesses have been performed. -/
def execTsync (g : Guard) (s : State) : Result :=
  .next (s.tileWord fun _ v => if v.guard g then some .nothing else none)

/-! ## Convergence registers (R123) -/

def execKset (g : Guard) (k : Fin 8) (n : Src) (s : State) : Result :=
  .next (s.wordSeq g fun acc v =>
    let c := v.src .q64 n
    let arr := match acc.team? v.team.id with | some t => (NMap.get t.kregs k.val).arr | none => 0
    if c.p then acc.apply v poisonTrap
    else if 0 < arr ∨ c.v.toNat = 0 ∨ 1024 < c.v.toNat then acc.apply v (.trap 0x15 0 0)
    else
      let acc := acc.modTeam v.team.id fun t =>
        { t with kregs := t.kregs.set k.val { NMap.get t.kregs k.val with n := c.v.toNat, left := 0 } }
      let off := ~~~((1 : Byte) <<< k.val)
      (acc.modFibs (fun f => f.fid.team == v.team.id) fun f =>
        { f with kleft := f.kleft &&& off, ksig := f.ksig &&& off }).markTook v)

def execKwait (g : Guard) (k : Fin 8) (s : State) : Result :=
  .next (s.wordSeq g fun acc v =>
    if acc.arriveBad v.fib.fid k.val then acc.apply v (.trap 0x15 0 0)
    else ((acc.modFib v.fib.fid fun f => f.await (.kwait k.val)).arrive v.fib.fid k.val none).markTook v)

def execKsign (g : Guard) (k : Fin 8) (s : State) : Result :=
  .next (s.wordSeq g fun acc v =>
    if acc.arriveBad v.fib.fid k.val then acc.apply v (.trap 0x15 0 0)
    else (acc.arrive v.fib.fid k.val none).markTook v)

def execKleave (g : Guard) (m : BitVec 8) (s : State) : Result :=
  .next (s.wordSeq g fun acc v => (acc.leaveAll v.fib.fid m).markTook v)

/-! ## Engine queues and guard slots (R156 to R159) -/

/-- Entries of a queue (R157). -/
def queueSize : Nat := 16

/-- Commands of a core's queue, in queue order. -/
def State.queue (s : State) (core : Nat) (q : EQueue) : List QCmd := NMap.get (s.core core).queues (EQueue.code q)

def State.setQueue (s : State) (core : Nat) (q : EQueue) (l : List QCmd) : State :=
  s.modCore core fun c => { c with queues := c.queues.set (EQueue.code q) l }

/-- One fibre's command (R157). -/
def State.pushOne (s : State) (v : View) (q : EQueue) (n : Nat) (pf : Fin 8) (slot : Option Nat) : State :=
  let cs := (List.range 8).map fun i => NMap.get v.fib.x (n + i)
  let ws := cs.map (·.v)
  if cs.any (·.p) then s.apply v poisonTrap
  else if !commandOk v.team.spadSize q ws then s.apply v (.trap 0x16 0 0)
  else
    let full := queueSize ≤ (s.queue v.team.core q).length
    let s := s.apply v (.preds [(pf, full)])
    if full then s
    else
      let seq := match s.team? v.team.id with | some t => NMap.get t.seqs (EQueue.code q) | none => 0
      let c : QCmd :=
        { q := q, part := v.team.part, team := v.team.id, clutch := v.team.clutch, fib := v.fib.fid, core := v.team.core,
          slot := slot, words := ws, seq := seq, op := s.fresh, at_ := s.clock, fault := none, denied := none, stale := false }
      let s := s.issue v false v.run.setb plainOrd .nowhere 0 .push
      let s := s.modTeam v.team.id fun t => { t with seqs := t.seqs.mod (EQueue.code q) (· + 1) }
      s.setQueue v.team.core q (s.queue v.team.core q ++ [c])

def execPush (g : Guard) (q : EQueue) (n : Fin 128) (pf : Fin 8) (slot : Option (Fin 16)) (s : State) : Result :=
  .next (s.wordSeq g fun acc v => acc.pushOne v q n.val pf (slot.map (·.val)))

/-- R159: the lowest guard-true lane decides a pending slot. -/
def execGset (g : Guard) (n : Fin 16) (p : Option (Fin 8)) (s : State) : Result :=
  .next (s.wordSeq g fun acc v =>
    (acc.modTeam v.team.id fun t =>
      match p with
      | none => { t with slots := t.slots.set n.val .pending }
      | some a =>
        if NMap.get t.slots n.val == .pending then
          { t with slots := t.slots.set n.val (if v.fib.pred a then .go else .drop) }
        else t).markTook v)

end Sys2Proof.Machine
end

