-- ==== Sys2Proof/Machine/Task.lean ====
section
/-! DEFINITION. Clutch cards, futures, joins and the task instructions (R258 to R268). -/

namespace Sys2Proof.Machine

/-! ## Cards (R258) -/

def Clutch.word (c : Clutch) (i : Nat) : Word := c.card.getD i 0
def Clutch.entry (c : Clutch) : Word := c.word 0
def Clutch.recs (c : Clutch) : Word := c.word 1
def Clutch.minch (c : Clutch) : Nat := fieldOf (c.word 2) 63 48
def Clutch.rsize (c : Clutch) : Nat := fieldOf (c.word 2) 47 32
def Clutch.count (c : Clutch) : Nat := fieldOf (c.word 2) 31 0
def Clutch.ckpt (c : Clutch) : Bool := (c.word 3).getLsbD 58
def Clutch.pinned (c : Clutch) : Bool := (c.word 3).getLsbD 56
def Clutch.accRows (c : Clutch) : Nat := 32 * fieldOf (c.word 3) 55 48
def Clutch.spadBytes (c : Clutch) : Nat := 1024 * fieldOf (c.word 3) 47 32
def Clutch.crows (c : Clutch) : Nat := fieldOf (c.word 3) 31 28
def Clutch.ccols (c : Clutch) : Nat := fieldOf (c.word 3) 27 24
def Clutch.regs (c : Clutch) : Nat := 16 * fieldOf (c.word 3) 23 16
def Clutch.groups (c : Clutch) : Nat := fieldOf (c.word 3) 15 8
def Clutch.width (c : Clutch) : Nat := 8 * 2 ^ fieldOf (c.word 3) 7 0
def Clutch.ckArea (c : Clutch) : Word := BitVec.ofNat 64 (fieldOf (c.word 4) 63 16 * 65536)
def Clutch.accept (c : Clutch) : Bool := (c.word 4).getLsbD 3
def Clutch.rfut (c : Clutch) : Word := c.word 5
def Clutch.smax (c : Clutch) : Nat := fieldOf (c.word 6) 31 16
def Clutch.node (c : Clutch) : Bool := (c.word 6).getLsbD 3
def Clutch.nrange (c : Clutch) : Nat := fieldOf (c.word 6) 2 0

/-- In the range dependence table and not yet retired or killed (R283). -/
def Clutch.inFlight (c : Clutch) : Bool := c.phase == .queued

/-! ## Places of tasks (R259, R263, R264) -/

/-- The front end's or a home's access through the memory port (R265, R280): no pod's locks bind it. -/
def hubReq (part : Nat) (a : Word) (len align : Nat) (rt : Right) (u : PageUse) : PortReq :=
  ⟨part, 0, 1023, indexOf a, offsetOf a, len, align, rt, u, .free, false, false⟩

def State.hubReach (s : State) (part : Nat) (a : Word) (len align : Nat) (rt : Right) (u : PageUse) (k : FaultKind)
    (queue : Nat) : Reach × State :=
  s.reach 0 (hubReq part a len align rt u) a queue k 8

/-- A future or join record lies in local HBM or CXL memory, on a page of format 0 that is no sibling page. -/
def recordOk : Loc → Bool
  | .mem a t => decide (spaceOf a ≤ 1) && t.fmt == 0 && !t.sib
  | _ => false

/-- The place of a future or join that a hub agent reaches. -/
def State.hubRecord (s : State) (part : Nat) (a : Word) (queue : Nat) : Reach × State :=
  let r := s.hubReach part a 32 32 .a .store .atomic queue
  match r.1 with
  | .ok l ps => (if recordOk l then .ok l ps else .trap 0x0C, r.2)
  | x => (x, r.2)

/-- The request of a fibre's task instruction. Range locks take one with the A right, `fpoll` too, as a store (DEDUCED,
log 120). -/
def View.taskReq (v : View) (a : Word) (len align : Nat) (rt : Right) : PortReq :=
  v.req a (offsetOf a) len align rt (if rt == .a then .store else .load false) (if rt == .a then .store else .load)

/-- The place a fibre's task instruction reaches, or its trap. Its translations were made at the clause
header (R259). An address under index 0 to 2 is trap 0x0C for a card and a node too (DEDUCED, log 120). -/
def State.taskPlace (s : State) (v : View) (a : Word) (len align : Nat) (rt : Right) : Except Nat Loc × State :=
  let r := s.reach (podOf v.team.core) (v.taskReq a len align rt) a (s.teamQueue v.team) .atomic 8
  match r.1 with
  | .ok l _ =>
    if rt == .a && !recordOk l then (.error 0x0C, r.2)
    else match l with | .mem _ _ => (.ok l, r.2) | _ => (.error 0x0C, r.2)
  | .trap c => (.error c, r.2)
  | .wait _ => (.error 0x0B, r.2)

/-- R259: the release of a task instruction. -/
def State.taskRelease (s : State) (v : View) : State := s.writeBack (podOf v.team.core) false (· == v.fib.fid)

/-- The agent of a fibre's operation at a home. -/
def View.agent (v : View) : Agent := ⟨some (podOf v.team.core), v.team.id, v.fib.fid, v.team.part⟩

/-! ## Futures (R263, R265) -/

def futState (w : Nat) : Nat := w % 4
/-- Word 0 after a transition to a final state: GEN counts it. -/
def futDone (w st : Nat) : Nat := w / 65536 * 65536 + (w / 256 + 1) % 256 * 256 + w / 4 % 64 * 4 + st

/-- Word `i` of a record. -/
def State.recWord (s : State) (g : Agent) (l : Loc) (i : Nat) : (Nat × Bool) × State := s.getLoc g (l.fwd (8 * i)) true 8
def State.putRec (s : State) (g : Agent) (l : Loc) (i v : Nat) (p : Bool) : State := s.putLoc g (l.fwd (8 * i)) true 8 v p

/-- A decrement sent to a join's home (R265). -/
def State.sendJoin (s : State) (part : Nat) (join : Word) (failed : Bool) : State :=
  let (n, s) := s.newId
  { s with joins := s.joins ++ [⟨n, part, join, failed, .free⟩] }

/-- `fres`, or `ffail` when `failed`, at a future's home: false, and nothing written, when it is final. -/
def State.resolve (s : State) (g : Agent) (l : Loc) (v : RegCell) (failed : Bool) : Bool × State :=
  let w := s.recWord g l 0
  let st := futState w.1.1
  if st = 1 ∨ st = 3 then (false, w.2)
  else
    let j := w.2.recWord g l 2
    let s := (j.2.putRec g l 1 v.v.toNat v.p).putRec g l 0 (futDone w.1.1 (if failed then 3 else 1)) false
    (true, if st = 2 then s.sendJoin g.part (BitVec.ofNat 64 j.1.1) failed else s)

/-- `fres` and `ffail` of one fibre. -/
def State.fibreResolve (s : State) (v : View) (a b : Opnd) (failed : Bool) : State :=
  let x := v.rd a
  if x.p then s.apply v poisonTrap
  else
    let p := s.taskPlace v x.v 32 32 .a
    match p.1 with
    | .error c => p.2.apply v (.trap c 0 x.v)
    | .ok l =>
      let r := (p.2.taskRelease v).resolve v.agent l (v.rd b) failed
      if r.1 then r.2.markTook v else r.2.apply v (.trap 0x10 0 x.v)

def execFres (g : Guard) (a b : Opnd) (s : State) : Result := .next (s.wordSeq g fun acc v => acc.fibreResolve v a b false)
def execFfail (g : Guard) (a b : Opnd) (s : State) : Result := .next (s.wordSeq g fun acc v => acc.fibreResolve v a b true)

/-- R265: a join registered on a future. -/
def execFreg (g : Guard) (a b : Opnd) (s : State) : Result :=
  .next (s.wordSeq g fun acc v =>
    let x := v.rd a
    let j := v.rd b
    if x.p || j.p then acc.apply v poisonTrap
    else
      let p := acc.taskPlace v x.v 32 32 .a
      let q := p.2.taskPlace v j.v 32 32 .a
      match p.1, q.1 with
      | .error c, _ => p.2.apply v (.trap c 0 x.v)
      | _, .error c => q.2.apply v (.trap c 0 j.v)
      | .ok l, .ok _ =>
        let acc := q.2.taskRelease v
        let w := acc.recWord v.agent l 0
        match futState w.1.1 with
        | 0 => ((w.2.putRec v.agent l 2 j.v.toNat false).putRec v.agent l 0 (w.1.1 + 2) false).markTook v
        | 1 => (w.2.sendJoin v.team.part j.v false).markTook v
        | 3 => (w.2.sendJoin v.team.part j.v true).markTook v
        | _ => w.2.apply v (.trap 0x11 0 x.v))

/-- R266: a future's words 0 and 1; an acquire when it is final. -/
def execFpoll (g : Guard) (d a : Opnd) (s : State) : Result :=
  .next (s.wordSeq g fun acc v =>
    let x := v.rd a
    if x.p then acc.apply v poisonTrap
    else
      let p := acc.taskPlace v x.v 32 32 .a
      match p.1 with
      | .error c => p.2.apply v (.trap c 0 x.v)
      | .ok l =>
        let w := p.2.recWord v.agent l 0
        let y := w.2.recWord v.agent l 1
        let acc := if futState w.1.1 = 1 ∨ futState w.1.1 = 3 then y.2.podAcquire (podOf v.team.core) else y.2
        acc.apply v (.regs [(d, ⟨BitVec.ofNat 64 w.1.1, w.1.2⟩), (d.succ, ⟨BitVec.ofNat 64 y.1.1, y.1.2⟩)]))

/-! ## Submitting, spawning, triggering (R260 to R262) -/

/-- R260: the fibre waits for the front end's answer. -/
def execCsub (g : Guard) (p : Fin 8) (a : Opnd) (s : State) : Result :=
  .next (s.wordSeq g fun acc v =>
    let x := v.rd a
    if x.p then acc.apply v poisonTrap
    else
      let q := acc.taskPlace v x.v 128 128 .r
      match q.1 with
      | .error c => q.2.apply v (.trap c 0 x.v)
      | .ok _ =>
        let acc := q.2.taskRelease v
        let (n, acc) := acc.newId
        let floor := match acc.clutch? v.team.clutch with | some c => c.prio | none => 0
        let sub : Sub :=
          { id := n, part := v.team.part, card := x.v, cmd := none, queue := 0, fib := some (v.fib.fid, p), run := v.run.id,
            trap := ⟨0x1B, v.run.pos + 1, 0, x.v, v.run.hdr, v.run.next, false, none⟩, priv := acc.teamPriv v.team,
            floor := floor, hold := .free }
        { acc with subs := acc.subs ++ [sub] }.modFib v.fib.fid fun f => f.await (.answer n))

/-- The node in flight whose card is at an address. -/
def State.nodeAt (s : State) (part : Nat) (a : Word) : Option Clutch :=
  s.clutches.find? fun c => c.part == part && c.cardAddr == a && c.inFlight && c.node

/-- Where a pool's tail slot lies (R289). -/
def Clutch.slotAddr (c : Clutch) (k : Nat) : Word := mkAddr (indexOf c.recs) (offsetOf c.recs + k * c.rsize)

/-- R261: one fibre's record. A pool slot that cannot be written traps with its check's code, and a node of the target
list that is in flight no more with 0x1B (DEDUCED, log 120). -/
def State.spawnOne (s : State) (v : View) (p : Fin 8) (a : Opnd) (b n : Nat) : State :=
  let x := v.rd a
  let rs := (List.range n).map fun i => NMap.get v.fib.x (b + i)
  if x.p || rs.any (·.p) then s.apply v poisonTrap
  else
    let q := s.taskPlace v x.v 128 128 .r
    match q.1, q.2.clutch? v.team.clutch, q.2.team? v.team.id with
    | .error c, _, _ => q.2.apply v (.trap c 0 x.v)
    | .ok _, some mine, some t =>
      let s := q.2.taskRelease v
      (match (if mine.targets.contains x.v then s.nodeAt v.team.part x.v else none) with
      | none => s.apply v (.trap 0x1B 0 x.v)
      | some node =>
        if 8 * n ≠ node.rsize then s.apply v (.trap 0x1B 0 x.v)
        else if mine.smax ≤ t.appended ∨ node.count ≤ node.pool then s.apply v (.preds [(p, false)])
        else
          let sa := node.slotAddr node.poolTail
          let r := s.hubReach v.team.part sa node.rsize 8 .w .store .store mine.queue
          match r.1 with
          | .ok l _ =>
            let s := (List.range n).foldl (fun s i =>
              s.putLoc (Agent.hub v.team.part) (l.fwd (8 * i)) true 8 (rs.getD i default).v.toNat false) r.2
            let s := s.modClutch node.id fun c =>
              { c with pool := c.pool + 1, undealt := c.undealt + 1, poolTail := (c.poolTail + 1) % c.count,
                       reserved := c.reserved.mod t.id (· - 1) }
            (s.modTeam t.id fun t => { t with appended := t.appended + 1 }).apply v (.preds [(p, true)])
          | .trap c => r.2.apply v (.trap c 0 sa)
          | .wait _ => r.2.apply v (.trap 0x0B 0 sa))
    | _, _, _ => q.2

def execSpawn (g : Guard) (p : Fin 8) (a : Opnd) (b : Fin 128) (w : Fin 33) (s : State) : Result :=
  .next (s.wordSeq g fun acc v => acc.spawnOne v p a b.val w.val)

/-- R262: the first trigger of a team, after the team's dirty sectors are written back: those its fibres wrote, not those
only its engine commands did (R197; DEDUCED, log 139). -/
def execTrig (g : Guard) (s : State) : Result :=
  .next (s.wordSeq g fun acc v =>
    let acc := acc.writeBack (podOf v.team.core) false (·.team == v.team.id)
    (acc.modTeam v.team.id fun t => { t with triggered := true }).markTook v)

/-! ## Joins (R264, R265) -/

/-- A card read by the front end at device scope, sixteen words, or what stops it (R280). -/
def State.readCard (s : State) (part : Nat) (a : Word) (queue : Nat) : Except Nat (List Word) × Option Nat × State :=
  let r := s.hubReach part a 128 128 .r (.load false) .load queue
  match r.1 with
  | .trap c => (.error c, none, r.2)
  | .wait f => (.error 0x0B, some f, r.2)
  | .ok l _ =>
    let x := (List.range 16).foldl (fun (acc : List Word × State) i =>
      let w := acc.2.recWord (Agent.hub part) l i
      (acc.1 ++ [BitVec.ofNat 64 w.1.1], w.2)) ([], r.2)
    (.ok x.1, none, x.2)

/-- The front end, or a home, fails a future named by a card or command: an error record when it cannot
(R267). Answers the fault it waits on, if its translation faults. -/
def State.settleFuture (s : State) (part : Nat) (fut : Word) (v : Word) (failed : Bool) (queue : Nat) : Option Nat × State :=
  let r := s.hubRecord part fut queue
  match r.1 with
  | .wait f => (some f, r.2)
  | .trap c => (none, r.2.noteError part queue c nowhere fut 0)
  | .ok l _ =>
    let x := r.2.resolve (Agent.hub part) l ⟨v, false⟩ failed
    (none, if x.1 then x.2 else x.2.noteError part queue 0x10 nowhere fut 0)

def State.dropJoin (s : State) (n : Nat) : State := { s with joins := s.joins.filter fun j => j.id != n }
def State.holdJoin (s : State) (n : Nat) (h : Hold) : State :=
  { s with joins := s.joins.map fun (j : JoinDec) => if j.id == n then { j with hold := h } else j }

/-- The last decrement: the card at CARD is submitted, or, when a joined future failed, its RFUT fails. -/
def State.joinZero (s : State) (j : JoinDec) (failed : Bool) (card : Word) (ws : List Word) : Option Nat × State :=
  let queue := fieldOf (wordAt ws 4) 15 8
  if failed then
    let s := s.noteError j.part queue 0x1B nowhere card 0
    if wordAt ws 5 = 0 then (none, s) else s.settleFuture j.part (wordAt ws 5) 0x1B true queue
  else
    let (n, s) := s.newId
    let sub : Sub :=
      { id := n, part := j.part, card := card, cmd := none, queue := 0, fib := none, run := 0, trap := default,
        priv := false, floor := 0, hold := .free }
    (none, { s with subs := s.subs ++ [sub] })

/-- A decrement performed at its join's home. -/
def State.decrement (s : State) (j : JoinDec) : State :=
  let r := s.hubRecord j.part j.join 0xFF
  let g := Agent.hub j.part
  match r.1 with
  | .wait f => r.2.holdJoin j.id (.fault f j.join 0)
  | .trap c => (r.2.noteError j.part 0xFF c nowhere j.join 0).dropJoin j.id
  | .ok l _ =>
    let w := r.2.recWord g l 0
    let c := w.2.recWord g l 1
    let card := BitVec.ofNat 64 c.1.1
    let pend := w.1.1 % 2 ^ 32
    let failed := j.failed || w.1.1 / 2 ^ 32 % 2 == 1
    let word := fun n => w.1.1 / 2 ^ 33 * 2 ^ 33 + (if failed then 2 ^ 32 else 0) + n
    if pend = 0 then ((c.2.putRec g l 0 (word 0) false).noteError j.part 0xFF 0x1B nowhere j.join 0).dropJoin j.id
    else if pend = 1 then
      match c.2.readCard j.part card 0xFF with
      | (.error _, some f, s) => s.holdJoin j.id (.fault f card 0)
      | (.error k, none, s) => (s.noteError j.part 0xFF k nowhere card 0).dropJoin j.id
      | (.ok ws, _, s) =>
        let x := (s.putRec g l 0 (word 0) false).joinZero j failed card ws
        let s := x.2.dropJoin j.id
        let late := fun (f : Nat) => (⟨j.part, wordAt ws 5, 0x1B, true, fieldOf (wordAt ws 4) 15 8, f⟩ : FutDec)
        -- RFUT's own translation faults: its failure waits in the join's place
        (match x.1 with
        | some f => { s with futs := s.futs ++ [late f] }
        | none => s)
    else (c.2.putRec g l 0 (word (pend - 1)) false).dropJoin j.id

def execJoinDecrement (n : Nat) (s : State) : Result :=
  .next <| match s.joins.find? fun j => j.id == n with
  | some j => if j.hold == .free then s.decrement j else s
  | none => s

end Sys2Proof.Machine
end

