-- ==== Sys2Proof/Machine/Life.lean ====
section
/-! DEFINITION. Halts, kills and retirement of clutches, and what they leave in the journal (R106, R196, R267,
R294, R385, R424, R425). -/

namespace Sys2Proof.Machine

/-! ## What a killed team leaves behind -/

/-- Queued commands of some teams removed; their pushes complete (R294). -/
def State.dropQueued (s : State) (p : QCmd → Bool) : State :=
  let gone := s.cores.flatMap fun c => c.2.queues.flatMap fun q => q.2.filter p
  let s := { s with cores := s.cores.map fun (c : Nat × Core) =>
    (c.1, { c.2 with queues := (c.2.queues.map fun (q : Nat × List QCmd) => (q.1, q.2.filter fun x => !p x)).filter fun q => !q.2.isEmpty }) }
  gone.foldl (fun s c => match s.op? c.op with | some o => s.finish o | none => s) s

/-- An operation that needs no place to drain: it waits for its own team, or for its core's engine. -/
def OpAct.inCore : OpAct → Bool
  | .ld _ _ _ w _ _ => w
  | .st _ _ _ w => w
  | .mma _ _ _ => true | .push => true | .mrd _ _ _ => true | .mwr _ _ _ => true | .mzero _ _ => true
  | .msts _ => true | .mlds _ => true
  | _ => false

/-- A team's issue stops and its results are discarded; accesses on their way drain (R294). -/
def State.killTeam (s : State) (team : Nat) : State :=
  match s.team? team with
  | none => s
  | some t =>
    let s := s.dropQueued (·.team == team)
    let s := { s with
      pend := s.pend.filter fun o => !(o.fib.team == team && o.act.inCore)
      fibres := s.fibres.filter fun f => f.fid.team != team
      running := s.running.filter fun r => r.team != team }
    let s := s.modCore t.core fun c => { c with mtx := c.mtx.filter fun o => o.team != team }
    if t.phase == .resident then
      s.modTeam team fun t =>
        { t with phase := .dying, rOpen := false, rbuf := [], ckpt := none, failing := none, fatal := false, point := .none,
                 halting := none }
    else if t.phase == .ended then s else s.endTeam team

/-- A kill begins (R294): its code is the value that its RFUT fails with. -/
def State.killClutch (s : State) (clutch code : Nat) : State :=
  match s.clutch? clutch with
  | none => s
  | some c =>
    if c.killed.isSome then s
    else
      let s := s.modClutch clutch fun c => { c with killed := some code, killAt := s.clock }
      (s.clutchTeams clutch).foldl (fun s t => s.killTeam t.id) s

/-- The error policy acts on a failure with a code: FAIL kills the clutch. -/
def State.underFail (s : State) (clutch code : Nat) : State :=
  match s.clutch? clutch with
  | some c => if c.accept then s else s.killClutch clutch code
  | none => s

/-! ## The end of a clutch -/

/-- A clutch's future resolved or failed, at once or when the fault it meets is answered (R267). -/
def State.endFuture (s : State) (c : Clutch) (value : Nat) (failed : Bool) : State :=
  if c.rfut = 0 then s
  else
    let v := BitVec.ofNat 64 value
    let r := s.settleFuture c.part c.rfut v failed c.queue
    match r.1 with
    | some f => { r.2 with futs := r.2.futs ++ [⟨c.part, c.rfut, v, failed, c.queue, f⟩] }
    | none => r.2

/-- A clutch leaves: its teams, its replicas and its range entries (R135, R283). -/
def State.leaveTable (s : State) (clutch : Nat) (p : CardPhase) : State :=
  { s with
    teams := s.teams.filter fun t => t.clutch != clutch
    clusters := s.clusters.filter fun c => c.clutch != clutch
    reps := s.reps.filter fun r => r.2.1 != clutch }.modClutch clutch fun c => { c with phase := p }

/-- A killed clutch whose teams are released: its terminal record, then RFUT (R294, R425). -/
def State.finishKill (s : State) (c : Clutch) (code : Nat) : State :=
  let s := s.leaveTable c.id .killed
  let s := s.note c.part (if code = 0x102 then 0x0B else 0x04) c.queue (code % 256) nowhere (BitVec.ofNat 64 c.seq)
  s.endFuture c code true

/-- Every write of a clutch's fibres and commands performed at device scope (R196). -/
def State.clutchRelease (s : State) (clutch : Nat) : State :=
  let mine := (s.clutchTeams clutch).map (·.id)
  -- an engine's writes carry team 0 and the clutch's number
  (s.pods.map (·.1)).foldl (fun s p => s.writeBack p false fun f => mine.contains f.team || (f.team == 0 && f.lane == clutch)) s

/-! ## Halts (R385) -/

/-- An operation that a checkpoint or a save holds as waiting: a full/empty access (R149), a signed phase
(R126). -/
def State.waiting (s : State) (o : MemOp) : Bool :=
  o.act.isFe || (o.act.isMma && match s.team? o.fib.team with
    | some t => t.kregs.any fun k => k.2.caps.any fun c => c.op == o.id
    | none => false)

/-- A command of a team that has not been accepted, behind a guard slot that the stopped team leaves pending. -/
def State.stuckPush (s : State) (t : Team) (op : Nat) : Bool :=
  (s.core t.core).queues.any fun q =>
    (q.2.any fun c => c.op == op) && ((q.2.takeWhile fun c => c.op != op) ++ q.2.filter fun c => c.op == op).any fun c =>
      c.team == t.id && match c.slot with | some k => NMap.get t.slots k == .pending | none => false

/-- The team has no started clause, and no tracked instruction that can complete as things stand: a full/empty access
whose granule has not the state it waits for, a phase not signed by all and a push behind a pending slot cannot. -/
def State.still (s : State) (t : Team) : Bool :=
  !(s.running.any fun r => r.team == t.id) && !((s.core t.core).mtx.any fun o => o.team == t.id)
    && (s.pend.filter fun o => o.fib.team == t.id).all fun o =>
      (o.act.isFe && !s.feReady o) || (o.act.isMma && s.waiting o) || (o.act.isPush && s.stuckPush t o.id)

/-- A stream command of the team's cluster, which sets and clears granules (R164). -/
def State.streamsIn (s : State) (t : Team) (c : QCmd) : Bool :=
  (cmdCode c.words == 0x01 || cmdCode c.words == 0x02)
    && s.teams.any fun u => u.id == c.team && u.cluster == t.cluster

/-- Another team of the cluster, or a stream command, may still fill or empty a granule that the team waits for. -/
def State.served (s : State) (t : Team) : Bool :=
  (s.teams.any fun u => u.cluster == t.cluster && u.id != t.id && u.phase != .ended && (u.halting.isNone || !s.still u))
    || (s.cmds.any fun c => s.streamsIn t c.c)
    || s.cores.any fun k => k.2.queues.any fun q => q.2.any fun c => s.streamsIn t c && !(c.team == t.id && s.stuckPush t c.op)

/-- Tracked instructions of the team have completed, but for those that nothing can complete (R385; log 211). -/
def State.quiet (s : State) (t : Team) : Bool :=
  s.still t && !(s.served t && s.pend.any fun o => o.fib.team == t.id && o.act.isFe)

/-- A halt takes effect: the error record, then the kill, or the team's end under ACCEPT. -/
def State.halt (s : State) (t : Team) (f : FibId) (r : TrapRec) : State :=
  let s := s.noteError t.part (s.teamQueue t) r.code (s.whereIs f) r.addr r.hdr
  match s.clutch? t.clutch with
  | none => s
  | some c =>
    if c.accept then
      let s := s.modClutch c.id fun c => { c with halted := some (c.halted.getD r.code) }
      let s := { s.dropQueued (·.team == t.id) with pend := s.pend.filter fun o => o.fib.team != t.id }
      let s := s.modCore t.core fun c => { c with mtx := c.mtx.filter fun o => o.team != t.id }
      s.endTeam t.id
    else s.killClutch c.id r.code

def State.haltReady (s : State) (t : Team) : Option (FibId × TrapRec) :=
  match t.halting with | some h => if t.phase == .resident && s.quiet t then some h else none | none => none

/-- The command still belongs to a clutch. -/
def State.cmdsOf (s : State) (clutch : Nat) : Bool := s.cmds.any fun c => c.c.clutch == clutch

/-- Halts, drained teams and finished kills take effect. -/
def State.settle (s : State) : State :=
  let s := s.teams.foldl (fun s t => match s.haltReady t with | some h => s.halt t h.1 h.2 | none => s) s
  let s := s.teams.foldl (fun s t =>
    if t.phase == .dying && !(s.pend.any fun o => o.fib.team == t.id) then s.endTeam t.id else s) s
  s.clutches.foldl (fun s c =>
    match c.killed with
    | some code =>
      if c.phase == .queued && !(s.clutchTeams c.id).any (fun t => t.phase != .ended) && !s.cmdsOf c.id then
        s.finishKill c code else s
    | none => s) s

end Sys2Proof.Machine
end

