-- ==== Sys2Proof/Machine/Queue.lean ====
section
/-! DEFINITION. Queue control records, and what the front end counts for them (R286, R290, R316, R414). -/

namespace Sys2Proof.Machine

/-- Words 0 to 2 of a queue's record at reset (R286). -/
def qDefault (q w : Nat) : Word :=
  match w with
  | 0 => if q < 32 then 0x1 else 0x41
  | 1 => 0x0000C350000007D0
  | _ => 0x0000000000030D40

/-- Records that a card has not yet put into a chunk (R284); for a node, those undealt (R291). -/
def Clutch.remaining (c : Clutch) : Nat := if c.node then c.undealt else c.count - c.dealt

/-- The card counts against its queue (R286). -/
def Clutch.counted (c : Clutch) : Bool :=
  (c.phase == .intake || c.phase == .queued) && c.killed.isNone && (c.phase == .intake || c.node || decide (0 < c.remaining))

/-- Commands that a queue holds. -/
def State.depth (s : State) (part q : Nat) : Nat :=
  (s.clutches.filter fun c => c.part == part && c.queue == q && c.counted).length

/-- Reserved slots of a node's pool. -/
def Clutch.reservedSlots (c : Clutch) : Nat := c.reserved.foldl (fun n x => n + x.2) 0

/-- A node's pool has room for one more cluster of a producer (R290). -/
def Clutch.roomFor (node prod : Clutch) : Bool :=
  decide (node.pool + node.reservedSlots + prod.crows * prod.ccols * prod.smax ≤ node.count)

/-- Nodes in flight that a producer names. -/
def State.targetsOf (s : State) (c : Clutch) : List Clutch :=
  c.targets.filterMap fun a => if a = 0 then none else s.nodeAt c.part a

/-! ## Readiness (R283, R290, R291) -/

/-- The cards in flight, other than itself, that name a node. -/
def State.producers (s : State) (n : Clutch) : List Clutch :=
  s.clutches.filter fun c => c.id != n.id && c.part == n.part && c.inFlight && c.targets.contains n.cardAddr

/-- Its last record is dealt, and every team has triggered or ended, of which one at least has triggered (R262; log 201). -/
def State.triggered (s : State) (c : Clutch) : Bool :=
  let ts := s.clutchTeams c.id
  c.remaining == 0 && (!c.node || (s.producers c).isEmpty)
    && ts.any (·.triggered) && ts.all fun t => t.triggered || t.phase == .ended

def State.depMet (s : State) (d : Nat) : Bool :=
  match s.clutch? d with
  | none => true
  | some e => e.phase == .retired || e.phase == .killed || s.triggered e

/-- R283, R290: the card may launch chunks. -/
def State.cardReady (s : State) (c : Clutch) : Bool :=
  c.inFlight && c.killed.isNone && c.deps.all s.depMet
    && c.targets.all fun a => a == 0 || (s.nodeAt c.part a).isSome

/-- A card that names the node is admitted, ready or waiting for admission (R291). -/
def State.feeds (s : State) (n : Clutch) : Bool :=
  s.clutches.any fun c => c.part == n.part && c.inFlight && c.targets.contains n.cardAddr
    && ((s.clutchTeams c.id).any (fun t => t.phase != .ended) || (s.cardReady c && (c.node || decide (0 < c.remaining))))

/-- There are records for the next chunk (R284, R291). -/
def State.hasChunk (s : State) (c : Clutch) : Bool :=
  decide (0 < c.remaining) && (!c.node || decide (c.minch ≤ c.undealt) || !s.feeds c)

/-- The pools that its teams append to have room (R290). -/
def State.poolsOk (s : State) (c : Clutch) : Bool := c.smax == 0 || (s.targetsOf c).all fun n => n.roomFor c

/-! ## The control record (R286) -/

/-- Words 0 to 2 of a queue's control record as written. -/
def State.qStored (s : State) (part q w : Nat) : Word := (NMap.find (s.part part).qrec (3 * q + w)).getD (qDefault q w)

/-- A producer has a chunk to launch, and only the pools that it appends to keep it from it. -/
def State.wantsRoom (s : State) (p : Clutch) : Bool :=
  s.cardReady p && s.hasChunk p && !(s.qStored p.part p.queue 0).getLsbD 1 && !s.poolsOk p

/-- R286: a node of the queue has undealt records, and a producer that names it waits for room in its pool. -/
def State.stalled (s : State) (part q : Nat) : Bool :=
  s.clutches.any fun n => n.part == part && n.queue == q && n.node && n.inFlight && decide (0 < n.undealt)
    && s.clutches.any fun p => p.part == part && s.wantsRoom p && (s.targetsOf p).any fun t => t.id == n.id && !t.roomFor p

/-- Word `w` of a queue's control record. -/
def State.qWord (s : State) (part q w : Nat) : Word :=
  if w = 3 then BitVec.ofNat 64 ((if s.stalled part q then 2 ^ 13 else 0) + min (s.depth part q) 4096)
  else s.qStored part q w

/-- A limit is 0, or within its range. -/
def limitOk (t : Nat) : Bool := t == 0 || (decide (100 ≤ t) && decide (t ≤ 10000000))

/-- R286: the limits of T1, T2 and T3 together. -/
def limitsOk (w1 w2 : Word) : Bool :=
  let t1 := fieldOf w1 31 0
  let t2 := fieldOf w1 63 32
  let t3 := fieldOf w2 31 0
  limitOk t1 && limitOk t2 && fieldOf w2 63 32 == 0 && decide (1000 ≤ t3) && decide (t3 ≤ 10000000)
    && (t1 == 0 || t2 == 0 || decide (t1 ≤ t2)) && (t2 == 0 || decide (t2 + 1000 ≤ t3))

/-- The hub takes a write of word `w`. -/
def State.qWriteOk (s : State) (part q w : Nat) (v : Word) : Bool :=
  match w with
  | 0 => fieldOf v 63 7 == 0 && !v.getLsbD 3
  | 1 => limitsOk v (s.qWord part q 2)
  | 2 => limitsOk (s.qWord part q 1) v
  | _ => true

/-- A write that the hub takes; word 3 ignores it. -/
def State.qWrite (s : State) (part q w : Nat) (v : Word) : State :=
  if w = 3 then s else s.modPart part fun p => { p with qrec := p.qrec.put (3 * q + w) v }

def State.qEn (s : State) (part q : Nat) : Bool := (s.qWord part q 0).getLsbD 0
def State.qHold (s : State) (part q : Nat) : Bool := (s.qWord part q 0).getLsbD 1
def State.qPriv (s : State) (part q : Nat) : Bool := (s.qWord part q 0).getLsbD 2
def State.qFloor (s : State) (part q : Nat) : Nat := fieldOf (s.qWord part q 0) 6 4
/-- T1, T2 and T3 in microseconds. -/
def State.qT1 (s : State) (part q : Nat) : Nat := fieldOf (s.qWord part q 1) 31 0
def State.qT2 (s : State) (part q : Nat) : Nat := fieldOf (s.qWord part q 1) 63 32
def State.qT3 (s : State) (part q : Nat) : Nat := fieldOf (s.qWord part q 2) 31 0

/-- Cycles of `%clock` in some microseconds: it counts at 3.3 GHz (R58). -/
def cyclesOf (us : Nat) : Nat := us * 3300

end Sys2Proof.Machine
end

