-- ==== Sys2Proof/Machine/Sys.lean ====
section
/-! DEFINITION. The system instructions beside the regions': traps and registers, breaks, and the privileged
instructions (R308 to R317). -/

namespace Sys2Proof.Machine

/-! ## Traps and registers (R308 to R313) -/

def execTrap (g : Guard) (c : BitVec 12) (s : State) : Result := .next (s.word g fun _ => .trap 0x1A c.toNat 0)

/-- R312: each fibre leaves its handler at `epc`. -/
def execEret (s : State) : Result :=
  .next (s.wordSeq noGuard fun acc v =>
    if !v.fib.h then acc.apply v (.trap 0x01 0 v.run.hdr)
    else if v.fib.epc.toNat % 4 ≠ 0 then acc.apply v (.trap 0x03 0 v.fib.epc)
    else (acc.modFib v.fib.fid Fibre.leaveTrap).branchTo v v.fib.epc)

/-- The region word (R308). -/
def Team.regionWord (t : Team) : Word :=
  BitVec.ofNat 64 (t.inst.toNat * 2 ^ 32 + t.tag.toNat * 2 ^ 8 + t.replay % 4 * 2 + (if t.rOpen then 1 else 0))

def execRegq (d : Opnd) (s : State) : Result := .next (s.word noGuard fun v => one d v.team.regionWord false)

/-- A control and status register as a fibre reads it (R310). -/
def View.csr (v : View) (n : Nat) : Word :=
  match n with
  | 0 => v.fib.frm.zeroExtend 64
  | 1 => v.fib.fflags.zeroExtend 64
  | 2 => v.team.tvec
  | 3 => v.fib.tcause
  | 4 => v.fib.taddr
  | 5 => v.fib.epc
  | 6 => if v.fib.h then 1 else 0
  | _ => v.team.regionWord

def execCsrr (g : Guard) (d : Opnd) (n : BitVec 12) (s : State) : Result :=
  .next (s.word g fun v => one d (v.csr n.toNat) false)

/-- A fibre's own register written. -/
def Fibre.setCsr (f : Fibre) (n : Nat) (x : Word) : Fibre :=
  match n with
  | 0 => { f with frm := x.extractLsb' 0 3 }
  | 1 => { f with fflags := x.extractLsb' 0 5 }
  -- bits 63:36 and 19:8 are 0 (R311)
  | 3 => { f with tcause := x &&& 0x0000000FFFF000FF }
  | 4 => { f with taddr := x }
  | 5 => { f with epc := x }
  | _ => f

/-- R310: one of several writes of the team's `tvec` stays. -/
def execCsrw (g : Guard) (a : Opnd) (n : BitVec 12) (s : State) : Result :=
  let vs := s.views.filter (·.guard g)
  let res := fun (v : View) =>
    if 5 < n.toNat then v.operandTrap else if (v.rd a).p then poisonTrap else WordRes.nothing
  let ok := vs.filter fun v => match res v with | .eff _ _ _ => true | .trap _ _ _ => false
  let s1 := s.onViews vs res
  if n.toNat = 2 then
    match s.pickView ok with
    | some v => .next (s1.modTeam v.team.id fun t => { t with tvec := (v.rd a).v &&& ~~~0x3F })
    | none => .next s1
  else .next (ok.foldl (fun acc v => acc.modFib v.fib.fid fun f => f.setCsr n.toNat (v.rd a).v) s1)

def execPchk (g : Guard) (p : Fin 8) (a : Opnd) (s : State) : Result :=
  .next (s.word g fun v => .preds [(p, (v.rd a).p)])

/-! ## Breaks (R313) -/

/-- An instruction that may not run in a region (R317). -/
def View.inRegion (v : View) : WordRes := .trap 0x17 0 v.run.hdr

/-- The clause ends for the fibre, and its team's cluster is to be saved; the team is then held on the record
that its first breaking fibre writes. -/
def execBrk (g : Guard) (c : BitVec 12) (s : State) : Result :=
  .next (s.wordSeq g fun acc v =>
    if v.team.rOpen then acc.apply v v.inRegion
    else
      let acc := acc.markTook v
      let acc := acc.modRun v.run.id fun r => { r with stopped := v.fib.fid :: r.stopped }
      match acc.team? v.team.id with
      | some t =>
        if t.brkRec.isSome then acc
        else
          let n := (acc.part t.part).jtail
          let acc := acc.note t.part 0x09 (acc.teamQueue t) 0 (acc.whereIs v.fib.fid) (c.zeroExtend 64)
          let acc := acc.modTeam t.id fun t => { t with brkRec := some n }
          acc.modCluster t.cluster fun x => { x with preempt := true }
      | none => acc)

/-! ## Privileged instructions (R314 to R317) -/

/-- A privileged word: trap 0x17 in an open region. -/
def State.privWord (s : State) (g : Guard) (f : State → View → State) : State :=
  s.wordSeq g fun acc v => if v.team.rOpen then acc.apply v v.inRegion else (f acc v).markTook v

/-- Cached leaves of every pod and die dropped. -/
def State.dropLeaves (s : State) (p : Tlb → Bool) : State :=
  { s with pods := s.pods.map fun (x : Nat × Pod) => (x.1, { x.2 with tlb := x.2.tlb.filter fun t => !p t })
           dtlb := (s.dtlb.map fun (x : Nat × List Tlb) => (x.1, x.2.filter fun t => !p t)).filter fun x => !x.2.isEmpty }

/-- Bytes of the page whose leaf an entry holds. -/
def Tlb.pageSize (t : Tlb) : Nat := if t.size ≤ 65536 then 65536 else 2 ^ 21

/-- The leaf covers a byte of a range of virtual addresses. -/
def Tlb.covers (t : Tlb) (a n : Nat) : Bool := decide (t.page < a + n) && decide (a < t.page + t.pageSize)

/-- The leaf reaches one of some frames. -/
def Tlb.reaches (t : Tlb) (f n : Nat) : Bool :=
  let pa := leafPa t.w0
  spaceOf pa == 0 && decide (frameOf pa < f + n) && decide (f ≤ frameOf (pa + t.pageSize - 1))

def execTlbiVa (g : Guard) (a b : Opnd) (s : State) : Result :=
  .next (s.privWord g fun acc v =>
    acc.dropLeaves fun t => t.part == v.team.part && t.covers (v.rd a).v.toNat (v.rd b).v.toNat
      && decide (0 < (v.rd b).v.toNat))
def execTlbiFrame (g : Guard) (a b : Opnd) (s : State) : Result :=
  .next (s.privWord g fun acc v =>
    acc.dropLeaves fun t => t.part == v.team.part && t.reaches (v.rd a).v.toNat (v.rd b).v.toNat)
def execTlbiAll (g : Guard) (s : State) : Result :=
  .next (s.privWord g fun acc v => acc.dropLeaves fun t => t.part == v.team.part)

/-- Sealed lines of some indices whose version the descriptor no longer has, dropped (R356). -/
def State.dropStale (s : State) (part : Nat) (p : Nat → Bool) : State :=
  let tags := ((s.pods.flatMap fun (x : Nat × Pod) => x.2.l1) ++ s.l2).filterMap fun (c : Sector) => c.tag
  let idxs := ((tags.map (·.idx)).filter p).eraseDups
  idxs.foldl (fun s i =>
    let r := s.desc part i
    let stale := fun (c : Sector) => match c.tag with | some k => k.idx == i && k.ver != descVersion r.1 | none => false
    { r.2 with
      pods := r.2.pods.map fun (x : Nat × Pod) => (x.1, { x.2 with l1 := x.2.l1.filter fun c => !stale c })
      l2 := r.2.l2.filter fun c => !stale c }) s

/-- Cached descriptors of some indices dropped, and the sealed lines they leave behind. -/
def State.dropDescs (s : State) (part : Nat) (p : Nat → Bool) : State :=
  let drop := fun (s : State) =>
    s.modPart part fun x => { x with dcache := x.dcache.filter fun (d : Nat × List Word) => !p d.1 }
  drop ((drop s).dropStale part p)

def execBtinv (g : Guard) (a b : Opnd) (s : State) : Result :=
  .next (s.privWord g fun acc v =>
    let lo := (v.rd a).v.toNat
    let n := (v.rd b).v.toNat
    acc.dropDescs v.team.part fun i => decide (lo ≤ i) && decide (i < lo + n))
def execBtinvAll (g : Guard) (s : State) : Result := .next (s.privWord g fun acc v => acc.dropDescs v.team.part fun _ => true)

/-- R316. -/
def execQctlRd (g : Guard) (d a : Opnd) (w : BitVec 2) (s : State) : Result :=
  .next (s.wordSeq g fun acc v =>
    let q := (v.rd a).v.toNat
    if v.team.rOpen then acc.apply v v.inRegion
    else if 63 < q then acc.apply v v.operandTrap
    else acc.apply v (one d (acc.qWord v.team.part q w.toNat) (v.rd a).p))

/-- R316, R441: a refused write is journaled. -/
def execQctlWr (g : Guard) (p : Fin 8) (a b : Opnd) (w : BitVec 2) (s : State) : Result :=
  .next (s.wordSeq g fun acc v =>
    let q := (v.rd a).v.toNat
    let x := (v.rd b).v
    if v.team.rOpen then acc.apply v v.inRegion
    else if 63 < q then acc.apply v v.operandTrap
    else if acc.qWriteOk v.team.part q w.toNat x then (acc.qWrite v.team.part q w.toNat x).apply v (.preds [(p, true)])
    else
      (acc.note v.team.part 0x02 q 0 (acc.whereIs v.fib.fid) 0x00000003FFFFFFFF).apply v (.preds [(p, false)]))

end Sys2Proof.Machine
end

