-- ==== Sys2Proof/Machine/Ranges.lean ====
section
/-! DEFINITION. The places a command names, and which of them lie in scratchpad (R163, R170, R319, R368). -/

namespace Sys2Proof.Machine

/-- The ring of a stream command: its address and bytes (R164, R166). -/
def Layout.ring (l : Layout) : Word × Nat := (mkAddr (if l.space then 1 else 0) l.rbase, 16 * l.scount * l.ssize)

/-- The kinds and addresses of a command's ranges (R170, R319), and of the cluster blocks that it reads unregistered;
the node array of a graph is named in memory. -/
def cmdPlaces (ws : List Word) : List (LockKind × Word) :=
  let w := wordAt ws
  match cmdCode ws with
  | 0x01 => [(.r, w 2), (.fe, (layoutOf ws).ring.1)]
  | 0x02 => [(.fe, (layoutOf ws).ring.1), (.w, w 2)]
  | 0x10 => [(.r, w 2), (.w, w 3)]
  | 0x20 => [(.r, w 2), (.r, w 5), (.r, w 6), (.w, w 3), (.w, w 7)]
  | 0x21 => [(.r, w 5), (.r, w 6), (.w, w 2), (.w, w 3)]
  | 0x30 => [(.r, w 2), (.r, w 3), (.r, w 5), (.w, w 6)] ++ (if fieldOf (w 0) 63 44 = 0 then [] else [(.w, w 7)])
  | 0x31 => [(.r, w 2), (.r, w 3), (.w, w 6)]
  | 0x40 => [(.r, w 2), (.r, w 3), (.r, w 5), (.w, w 6)]
  | 0x52 => [(.w, w 5)]
  | _ => [(.r, w 2), (.w, w 3), (.w, w 5)]

/-- The address of a command's completion target. -/
def targetAddr (ws : List Word) : Option Word :=
  match cmdKind ws with
  | 0 => none
  | 1 => some (granuleTarget ws).1
  | _ => some (cmdTarget ws)

/-- An address of team, cluster or sector scratchpad. -/
def isSpad (a : Word) : Bool := decide (indexOf a < 3)

/-- The command's completion target lies in scratchpad. -/
def targetSpad (ws : List Word) : Bool := match targetAddr ws with | some a => isSpad a | none => false

/-- The command touches scratchpad in any way (R163). -/
def touchesSpad (ws : List Word) : Bool := (cmdPlaces ws).any (fun p => isSpad p.2) || targetSpad ws

/-- An accepted command touches scratchpad. -/
def Cmd.touches (c : Cmd) : Bool := touchesSpad c.c.words || match c.nodes with | some a => isSpad a | none => false

/-- Where a command writes: its destinations, FE ranges and completion target. -/
def cmdSinks (ws : List Word) : List Word :=
  ((cmdPlaces ws).filter fun p => p.1 != .r).map (·.2) ++ (targetAddr ws).toList

/-- An address of a team's command lies in the scratchpad of its cluster; under index 2 it names a core's (R176). -/
def State.inCluster (s : State) (t : Team) (a : Word) : Bool :=
  if indexOf a < 2 then true
  else if indexOf a = 2 then
    match s.onCore ⟨t.part, t.id, t.core, 2, offsetOf a, 1, 0, .r, .lines, .free, false, false⟩ with
    | .ok (u, _) => u.cluster == t.cluster
    | .error _ => false
  else false

/-- Commands of a team, queued and accepted. -/
def State.teamCmds (s : State) (t : Team) : List QCmd :=
  (s.core t.core).queues.flatMap (fun q => q.2.filter (·.team == t.id)) ++ (s.cmds.map (·.c)).filter (·.team == t.id)

end Sys2Proof.Machine
end

