-- ==== Sys2Proof/Machine/Region.lean ====
section
/-! DEFINITION. Regions: the team points, the commit, the checkpoint and the restore from it (R305 to R307,
R367 to R370, R373, R388). -/

namespace Sys2Proof.Machine

/-! ## The points (R305, R307) -/

/-- R307: in a clutch without a checkpoint area nothing arrives. -/
def execRegb (n : Fin 17) (tag : BitVec 12) (s : State) : Result :=
  .next (s.wordSeq noGuard fun acc v =>
    if !(match acc.clutch? v.team.clutch with | some c => c.ckpt | none => false) then acc.apply v v.inRegion
    else
      (((acc.modFib v.fib.fid fun f => f.await (.regb (8 * n.val) tag.toNat)).markTook v).pointCheck v.team.id))

def execRegc (s : State) : Result :=
  .next (s.wordSeq noGuard fun acc v =>
    ((acc.modFib v.fib.fid fun f => f.await .regc).markTook v).pointCheck v.team.id)

/-! ## What a checkpoint waits for -/

/-- Nothing of a team is outstanding but what waits, and pushes (R163); no fibre awaits an answer. -/
def State.drained (s : State) (team : Nat) : Bool :=
  !(s.running.any fun r => r.team == team)
    && !(s.pend.any fun o => o.fib.team == team && !o.act.isPush && !s.waiting o)
    && !((s.core (match s.team? team with | some t => t.core | none => 0)).mtx.any fun o => o.team == team)
    && !(s.fibres.any fun f => f.fid.team == team && (match f.hold with | .answer _ => true | _ => false))

/-! ## Commit (R200, R307) -/

/-- A buffered sector put into the pod's L1, with whose writes it holds. -/
def State.commitSector (s : State) (pod : Nat) (c : Sector) : State :=
  s.modPod pod fun p =>
    let x := ((secFind p.l1 c.base none).getD (Sector.empty c.base none)).write c.out c.part
    { p with l1 := secPut p.l1 (c.writers.foldl Sector.wrote x) }

/-- Every check on a result of a team has completed (R307, R365). -/
def State.clean (s : State) (team : Nat) : State :=
  let s := s.modFibs (fun f => f.fid.team == team) fun f => { f with unproven := [] }
  { s with groups := s.groups.map fun (g : Group) => if g.team == team then { g with unproven := [] } else g
    }.modTeam team fun t => { t with unproven := [], past := [] }

/-- The region's buffered stores released, and the region closed; its checks have drained clean (R307). -/
def State.commit (s : State) (team : Nat) : State :=
  match s.team? team with
  | none => s
  | some t =>
    if t.rOpen then
      (t.rbuf.foldl (fun s c => s.commitSector (podOf t.core) c) (s.clean team)).modTeam team fun t =>
        { t with rOpen := false, rbuf := [] }
    else s

/-! ## The checkpoint slot (R306) -/

/-- S of R306. -/
def Clutch.slotBytes (c : Clutch) : Nat :=
  let regs := c.regs / 16
  65536 * ((c.width * c.groups * (128 * regs + 64) + 512 * c.groups + 4096 + 65535) / 65536)

/-- Sectors of a half. -/
def Clutch.slotSectors (c : Clutch) : Nat := c.slotBytes / 64

/-- The offset of a team's slot under the index of CKAREA. -/
def State.slotOffset (s : State) (c : Clutch) (t : Team) : Nat :=
  let k := match s.cluster? t.cluster with | some x => x.ckSlot | none => 0
  offsetOf c.ckArea + (k * (c.crows * c.ccols) + t.rank) * (2 * c.slotBytes)

/-- The half that does not hold the valid checkpoint. -/
def Team.nextHalf (t : Team) : Nat := match t.ckpt with | some k => 1 - k.half | none => 0

/-- The team's clutch. -/
def State.clutchOf (s : State) (t : Team) : Clutch := (s.clutch? t.clutch).getD default

/-- The address of a team's checkpoint slot. -/
def State.ckSlotAddr (s : State) (t : Team) : Word :=
  let c := s.clutchOf t
  mkAddr (indexOf c.ckArea) (s.slotOffset c t)

/-- The address of the half that the next checkpoint goes to. -/
def State.halfAddr (s : State) (t : Team) : Word :=
  let c := s.clutchOf t
  mkAddr (indexOf c.ckArea) (s.slotOffset c t + t.nextHalf * c.slotBytes)

/-- The memory port's answer for the half a checkpoint is written to. -/
def State.reachHalf (s : State) (t : Team) : Reach × State :=
  let c := s.clutchOf t
  let a := s.halfAddr t
  s.reach (podOf t.core)
    ⟨t.part, t.id, t.core, indexOf c.ckArea, s.slotOffset c t + t.nextHalf * c.slotBytes, c.slotBytes, 0, .w, .store,
      .free, false, false⟩ a c.queue .store 64

/-! ## Checkpoints (R305, R368) -/

/-- A fibre as a checkpoint holds it: registers x0 to x(n − 1); held at a translation, it translates afresh. -/
def Fibre.saved (f : Fibre) (n : Nat) : Fibre :=
  let f := { f with x := f.x.filter fun r => decide (r.1 < n), t := [], flags := [], parked := false, exec := 0, member := false,
                    unproven := [] }
  let f := { f with waits := f.waits.filter fun h => !h.translates }
  if f.hold.translates then f.release f.hold else f

/-- Sectors of open contents written at device scope, from the pieces of a place on; in scratchpad, as many bytes
(log 200). -/
def State.putOpen (s : State) (g : Agent) (l : Loc) (ps : List Piece) (n : Nat) : State :=
  let free := fun (i : Nat) => Config.freeNat s.tick (2 ^ 66 + i)
  match l with
  | .spad _ _ => (List.range (8 * n)).foldl (fun s i => s.putLoc g (l.fwd (8 * i)) true 8 (free i) false) s
  | _ => (List.range n).foldl (fun s i => match ps[i / 1024]? with
      | some p =>
        let pois := BitVec.ofNat 8 (free (2 ^ 64 + i))
        s.writeSec g (p.dpa - p.dpa % 65536 + i % 1024 * 64) p.attr true
          ⟨BitVec.allOnes 512, BitVec.ofNat 512 (free i), pois, ~~~pois⟩
      | none => s) s

/-- The team as it writes its checkpoint and its context. -/
def Team.agent (t : Team) : Agent := ⟨some (podOf t.core), t.id, ⟨t.id, 0, 0⟩, t.part⟩

/-- Operations of a team that a checkpoint holds: those that wait at its own storage. -/
def State.ownWaiting (s : State) (team : Nat) : List MemOp :=
  s.pend.filter fun o => o.fib.team == team && s.waiting o && !o.foreign

def State.makeCkpt (s : State) (t : Team) (fibres : List Fibre) (half : Nat) : Ckpt :=
  { fibres := fibres, groups := s.groups.filter (·.team == t.id), kregs := t.kregs, slots := t.slots, bars := t.bars,
    prio := t.prio, ustate := t.ustate, tvec := t.tvec, ops := s.ownWaiting t.id, half := half }

/-- A checkpoint made valid, and a new instance opened. -/
def State.openRegion (s : State) (team : Nat) (fibres : List Fibre) (tag : BitVec 12) : State :=
  let s := s.clean team
  match s.team? team with
  | none => s
  | some t =>
    let k := s.makeCkpt t fibres t.nextHalf
    s.modTeam team fun t =>
      { t with rOpen := true, rbuf := [], inst := t.inst + 1, tag := tag, replay := 0, ckpt := some k, point := .none,
               pointFault := none, writing := false }

/-! ## A point completes -/

/-- Fibres waiting at a point go on. -/
def State.leavePoint (s : State) (team : Nat) : State :=
  s.modFibs (fun f => f.fid.team == team) fun f =>
    if f.hold.isRegb || f.hold == .regc then f.release f.hold else f

/-- The count a fibre's `regb` named, and its tag. -/
def Fibre.regbCount (f : Fibre) : Nat := match f.hold with | .regb n _ => n | _ => 0
def Fibre.regbTag (f : Fibre) : Nat := match f.hold with | .regb _ t => t | _ => 0

/-- A failed check of the checkpoint area traps every arrived fibre: `epc` is the header of its `regb`, whose
clause is three words (R304, R312). -/
def State.regbTrap (s : State) (t : Team) (code : Nat) : State :=
  let a := s.halfAddr t
  let s := (s.modFibs (fun f => f.fid.team == t.id) fun f =>
    f.noteTrap ⟨code, 1, 0, a, f.pc - 12, f.pc, false, none⟩).leavePoint t.id
  s.modTeam t.id fun t => { t with point := .none, pointFault := none, writing := false }

/-- R369: after a split, every live fibre traps at the boundary where it stands. -/
def State.splitTrap (s : State) (t : Team) (code : Nat) : State :=
  let a := s.ckSlotAddr t
  let s := s.modFibs (fun f => f.fid.team == t.id) fun f =>
    f.noteTrap ⟨code, 0, 0, a, f.pc, f.pc, true, some f.pc⟩
  s.modTeam t.id fun t => { t with point := .none, pointFault := none }

/-- Steps 2 and 3 of a completed `regb` (R305). -/
def State.regbCkpt (s : State) (t : Team) : State :=
  let r := s.reachHalf t
  match r.1 with
  | .trap c => r.2.regbTrap t c
  | .wait f => r.2.modTeam t.id fun t => { t with pointFault := some f }
  | .ok l ps =>
    let s := r.2.putOpen t.agent l ps (s.clutchOf t).slotSectors
    let fs := s.teamFibres t.id
    let tag := match fs with | f :: _ => f.regbTag | [] => 0
    let kept := fs.map fun f => (f.saved f.regbCount).release f.hold
    (s.openRegion t.id kept (BitVec.ofNat 12 tag)).leavePoint t.id

/-- Steps 4 and 5 of a split (R369). -/
def State.splitCkpt (s : State) (t : Team) : State :=
  let r := s.reachHalf t
  match r.1 with
  | .trap c => r.2.splitTrap t c
  | .wait f => r.2.modTeam t.id fun t => { t with pointFault := some f }
  | .ok l ps =>
    let s := r.2.putOpen t.agent l ps (s.clutchOf t).slotSectors
    s.openRegion t.id ((s.teamFibres t.id).map fun f => f.saved t.regs) t.tag

/-- No clause of the team runs, and no failed check waits for the sequencer. -/
def State.pointReady (s : State) (t : Team) : Bool :=
  t.phase == .resident && t.failing.isNone && !t.fatal && t.pointFault.isNone && t.halting.isNone && s.drained t.id

/-- A command of the team that writes scratchpad of its cluster holds its `regb` (R368). -/
def State.heldByCmd (s : State) (t : Team) : Bool := (s.teamCmds t).any fun c => (cmdSinks c.words).any (s.inCluster t)

/-- REGION_COMMIT: what a team's point, or the end of its last fibre or of its splitting clause, waits for: every
check on its results, and what it has outstanding. -/
def execRegionCommit (team : Nat) (s : State) : Result :=
  .next <| match s.team? team with
  | none => s
  | some t =>
    if !s.pointReady t then s
    else
      match t.point with
      | .none => s
      | .regb =>
        -- step 1 of R305; then, of its own, the write of the checkpoint
        if s.heldByCmd t then s
        else if t.writing then s.regbCkpt t
        else (s.commit team).modTeam team fun t => { t with writing := true }
      | .regc => ((s.commit team).leavePoint team).modTeam team fun t => { t with point := .none }
      | .ending => (s.commit team).endTeam team
      | .split => if (s.teamFibres team).isEmpty then s.endTeam team else s.splitCkpt t

/-! ## Restoring (R121, R372, R376, R389) -/

/-- A team's fibres find their flags clear, whatever still waits (R20, R388), and are held by their full/empty
accesses (R145). -/
def State.recount (s : State) (team : Nat) : State :=
  let s := { s with pend := s.pend.map fun (o : MemOp) => if o.fib.team == team then { o with flag := 15 } else o }
  s.modFibs (fun f => f.fid.team == team) fun f =>
    let f := { f with flags := [] }
    if s.pend.any fun o => o.fib == f.fid && o.act.isFe then (if f.awaits .fe then f else f.await .fe) else f.release .fe

/-- Paths formed afresh: every path beyond a group's first takes an entry or parks (R121; log 193). -/
def State.formPaths (s : State) (team : Nat) : State :=
  match s.team? team with
  | none => s
  | some t =>
    let s := s.modFibs (fun f => f.fid.team == team) fun f =>
      { f with parked := true, entryAt := s.clock, exec := 0, member := false }
    let gs := s.groups.filter fun (g : Group) => g.team == team
    gs.foldl (fun s g =>
      let fs := s.grpFibres team g.grp
      (fs.map (·.pc)).eraseDups.foldl (fun s pc => s.claimEntry t.core ((fs.filter fun f => f.pc == pc).map (·.fid))) s) s

/-- A replay keeps no trap registers: `tcause` and `taddr` are no part of a checkpoint (R305, R368), and their
values after it are free, but for the bits of `tcause` that R311 keeps 0 (log 8). -/
def Fibre.freeTrapRegs (f : Fibre) (tick : Nat) : Fibre :=
  let k := 16 + 2 * (64 * f.fid.grp + f.fid.lane)
  { f with tcause := BitVec.ofNat 64 (Config.freeNat tick k) &&& 0x0000000FFFF000FF, taddr := BitVec.ofNat 64 (Config.freeNat tick (k + 1)) }

/-- A team restored from its checkpoint: its fibres, groups and team state are those of the checkpoint, and its
scratchpad, accumulator rows and latch read as zero (R305, R372). Pushes and full/empty accesses elsewhere
stand as they are. -/
def State.fromCkpt (s : State) (t : Team) (k : Ckpt) (fibre : Fibre → Fibre) : State :=
  let keep := fun (o : MemOp) => o.fib.team != t.id || o.act.isPush || (o.act.isFe && o.foreign)
  let s := { s with
    pend := s.pend.filter keep ++ k.ops
    fibres := (k.fibres.map fibre).foldl (fun l f => insFibre f l) (s.fibres.filter fun f => f.fid.team != t.id)
    groups := s.groups.filter (fun (g : Group) => g.team != t.id) ++ k.groups
    running := s.running.filter fun r => r.team != t.id }
  let s := s.modCore t.core fun c => { c with mtx := c.mtx.filter fun o => o.team != t.id }
  (s.modTeam t.id fun t =>
    { t with kregs := k.kregs, slots := k.slots, bars := k.bars, prio := k.prio, ustate := k.ustate, tvec := k.tvec,
             rOpen := true, rbuf := [], spad := Memory.empty, full := [], acc := [], accPois := [], unproven := [], past := [], latch := none,
             point := .none, pointFault := none, writing := false, halting := none, failing := none, fatal := false }).recount t.id

end Sys2Proof.Machine
end

