-- ==== Sys2Proof/Machine/Issue.lean ====
section
/-! DEFINITION. Issue: fetching and decoding a clause, which batches may start, the start and the end of a
clause, splits of an open region, paths that park, and the delivery of traps (R10 to R20, R89, R107 to R121, R369,
R384 to R386). -/

namespace Sys2Proof.Machine

/-! ## Fetch (R15, R89, R209) -/

/-- What a fetch answers: a word, a trap with its word's position and address, a walk begun, or a block of
another package's memory that must be asked for. -/
inductive Fetched (α : Type) where
  | ok (a : α)
  | trap (code word : Nat) (addr : Word)
  | walk (n : Nat) (addr : Word)
  | away (l : Loc) (addr : Word)
  deriving Repr

def State.iblock (s : State) (t : Team) (a : Word) : Option IBlock :=
  (s.core t.core).icache.find? fun b => b.clutch == t.clutch && b.part == t.part && b.addr == (blockOf a).toNat

/-- One word of code, as the team's core fetches it. -/
def State.codeWord (s : State) (t : Team) (a : Word) : Fetched W32 × State :=
  let q : PortReq := ⟨t.part, t.id, t.core, indexOf a, offsetOf a, 4, 4, .x, .fetch, .free, false, false⟩
  let r := s.port (podOf t.core) q
  let pick := fun (ws : List W32) => ws.getD (a.toNat % 64 / 4) 0
  match r.1 with
  | .trap c => (.trap c 0 a, r.2)
  | .miss va =>
    let w := r.2.startWalk t.part va a t.core (s.teamQueue t) .fetch (podOf t.core) false
    (.walk w.1 a, w.2)
  | .ok l _ =>
    match r.2.iblock t a, l with
    | some b, _ => (.ok (pick b.words), r.2)
    | none, .mem dpa attr =>
      let base := secBase dpa
      let held := match attr.tag with | some k => r.2.sealedCopy (podOf t.core) base k | none => none
      (match held with
      | some c => (.ok (pick (codeWords c.data)), r.2.putBlock t a (codeWords c.data))
      | none =>
        if r.2.isRemote dpa then (.away (.mem base attr) (blockOf a), r.2)
        else
          let v := r.2.readSec (Agent.hub t.part) base attr true 0xFF
          (.ok (pick (codeWords v.1.d)), v.2.putBlock t a (codeWords v.1.d)))
    | none, _ => (.trap 0x07 0 a, r.2)

/-- `n` consecutive words. -/
def State.codeRun (s : State) (t : Team) (a : Word) : Nat → Fetched (List W32) × State
  | 0 => (.ok [], s)
  | n + 1 =>
    let r := s.codeWord t a
    match r.1 with
    | .ok w =>
      let rest := r.2.codeRun t (a + 4) n
      (match rest.1 with
      | .ok ws => (.ok (w :: ws), rest.2)
      | x => (x, rest.2))
    | .trap c k x => (.trap c k x, r.2)
    | .walk k x => (.walk k x, r.2)
    | .away l x => (.away l x, r.2)

/-- A clause as fetched and decoded. -/
structure Clause where
  h : Header
  words : List W32
  is : List (Nat × Instr)
  deriving Repr

/-- What the team gives the decoder. -/
def State.decCtx (s : State) (t : Team) (cls : Nat) : DecCtx := ⟨cls, t.regs, t.accRows, s.teamPriv t, false, false⟩

/-- The clause at a header, or what its fetch or decoding meets (R11, R439). -/
def State.clauseAt (s : State) (t : Team) (pc : Word) : Fetched Clause × State :=
  let r := s.codeWord t pc
  match r.1 with
  | .trap c k x => (.trap c k x, r.2)
  | .walk k x => (.walk k x, r.2)
  | .away l x => (.away l x, r.2)
  | .ok w =>
    let h := Header.ofWord w
    if h.bad then (.trap 0x04 0 pc, r.2)
    else
      let b := r.2.codeRun t (pc + 4) h.n
      match b.1 with
      | .trap c k x => (.trap c k x, b.2)
      | .walk k x => (.walk k x, b.2)
      | .away l x => (.away l x, b.2)
      | .ok ws =>
        (match decodeClause (s.decCtx t h.cls) h ws with
        | .error (e, p) => (.trap e.code p pc, b.2)
        | .ok is => (.ok ⟨h, ws, is⟩, b.2))

/-! ## What a clause holds (R17, R77) -/

def Instr.loadTracked : Instr → Bool
  | .ld _ _ _ _ => true | .ldx _ _ _ _ _ _ _ => true | .lde _ _ _ _ _ _ _ => true | .sld _ _ _ _ => true
  | .sldx _ _ _ _ _ => true | .feqry _ _ _ _ => true | .mrd _ _ _ _ _ => true
  | _ => false

def Instr.storeTracked : Instr → Bool
  | .st _ _ _ _ _ _ => true | .ste _ _ _ _ _ _ => true | .atom _ _ _ _ _ _ _ _ _ => true | .red _ _ _ _ _ _ => true
  | .sst _ _ _ _ _ _ _ => true | .srec _ _ _ _ _ _ _ _ _ => true | .feset _ _ _ _ => true | .feclr _ _ _ _ => true
  | .cwb _ _ _ _ => true | .cinv _ _ _ _ => true | .mma _ _ _ _ _ _ => true | .mmab _ _ _ _ _ _ _ => true
  | .mzero _ _ _ => true | .mwr _ _ _ _ _ => true | .msts _ _ _ => true | .mlds _ _ _ => true | .push _ _ _ _ _ => true
  | .spawn _ _ _ _ _ => true | .csub _ _ _ => true | .trig _ => true | .fres _ _ _ => true | .freg _ _ _ => true
  | .ffail _ _ _ => true
  | _ => false

/-- The tile-collective instructions (R59, R77, R88, R153). -/
def Instr.collective : Instr → Bool
  | .tset _ _ => true | .shfl _ _ _ _ _ => true | .vote _ _ _ => true | .matchL _ _ _ _ => true | .redl _ _ _ _ _ _ => true
  | .scanl _ _ _ _ _ _ _ => true | .first _ _ _ => true | .bany _ _ _ => true | .ball _ _ _ => true | .bnone _ _ _ => true
  | .tsync _ => true
  | _ => false

/-- The guard and the release of a sync word that is one (R151, R152, R153, R157, R259, R305). -/
def Instr.release? : Instr → Option Guard
  | .barv g _ _ => some g | .barw g _ _ => some g | .cbar g _ _ => some g | .gbar g _ _ => some g | .tsync g => some g
  | .push g _ _ _ _ => some g | .spawn g _ _ _ _ => some g | .csub g _ _ => some g | .trig g => some g
  | .fres g _ _ => some g | .freg g _ _ => some g | .ffail g _ _ => some g
  | _ => none

/-- The guard of a sync word that splits an open region (R369). -/
def Instr.splits? : Instr → Option Guard
  | .push g _ _ _ _ => some g | .gset g _ _ => some g | .spawn g _ _ _ _ => some g | .csub g _ _ => some g
  | .trig g => some g | .fres g _ _ => some g | .freg g _ _ => some g | .ffail g _ _ => some g | .cbar g _ _ => some g
  | .gbar g _ _ => some g
  | _ => none

/-- R369: a guard counts as true when it reads true, or an earlier word of the clause writes its predicate. -/
def guardMay (is : List (Nat × Instr)) (k : Nat) (f : Fibre) (g : Guard) : Bool :=
  f.guard g || is.any fun x => decide (x.1 < k) && (Instr.predsWritten x.2).contains g.p

/-- The addresses a task word reaches, with the bytes and right each needs (R259). -/
def Instr.taskAddrs : Instr → List (Guard × Opnd × Nat × Right)
  | .fres g a _ => [(g, a, 32, .a)] | .ffail g a _ => [(g, a, 32, .a)] | .freg g a b => [(g, a, 32, .a), (g, b, 32, .a)]
  | .fpoll g _ a => [(g, a, 32, .a)] | .csub g _ a => [(g, a, 128, .r)] | .spawn g _ a _ _ => [(g, a, 128, .r)]
  | _ => []

/-! ## Readiness -/

/-- Step 3 of R438 stops the slice's clause starts in this microsecond. -/
def State.stoppedNow (s : State) (part : Nat) : Bool := (s.part part).stopped && Config.capStop part (s.clock / 3300)

/-- The team's fibres may start clauses: nothing of R120, R295, R369, R372, R385, R387 or R438 stops them. -/
def State.teamIssues (s : State) (t : Team) : Bool :=
  t.phase == .resident && t.point == .none && t.halting.isNone
    && !(s.teams.any fun u => u.cluster == t.cluster && (u.failing.isSome || u.fatal))
    && !(s.core t.core).fenced && !s.stoppedNow t.part && s.power == .on
    && !(match s.cluster? t.cluster with | some c => c.preempt | none => true)
    && !(s.running.any fun r => r.team == t.id && r.split)

/-- A fibre stands at its header, held by nothing. -/
def Fibre.stands (f : Fibre) : Bool := f.hold == .free && !f.busy && f.trap.isNone && !f.parked

/-- Flags of a WAIT mask all clear (R16). -/
def Fibre.waited (f : Fibre) (m : BitVec 12) : Bool := (List.range 12).all fun i => !m.getLsbD i || NMap.get f.flags i == 0

/-- What a clause's start adds to a flag, of those its fields name (R16). -/
def Clause.adds (c : Clause) (k : Nat) : Nat :=
  (if c.h.seta = k ∧ c.is.any (fun i => Instr.loadTracked i.2) then 1 else 0)
    + (if c.h.setb = k ∧ c.is.any (fun i => Instr.storeTracked i.2) then 1 else 0)

def Fibre.room (f : Fibre) (c : Clause) : Bool := (List.range 12).all fun k => decide (NMap.get f.flags k + c.adds k ≤ 63 ∨ c.adds k = 0)

def Clause.collective (c : Clause) : Bool := c.is.any fun i => Instr.collective i.2

/-- The place of the future that an `fpoll` reads, where its address translates, and the read as the order of a
fibre's accesses sees it: a task operation, so that a releasing fence orders it too (R143, R183). -/
def State.pollOp (s : State) (t : Team) (f : Fibre) (a : RegCell) : MemOp :=
  let q : PortReq := ⟨t.part, t.id, t.core, indexOf a.v, offsetOf a.v, 32, 32, .a, .store, .store, false, false⟩
  let loc := match (s.port (podOf t.core) q).1 with | .ok l _ => l | _ => .nowhere
  { (default : MemOp) with id := s.fresh, fib := f.fid, isLoad := false, loc := loc, addr := a.v, act := .ld none 32 false false false false }

/-- The addresses of the futures that a clause may poll for a fibre. -/
def Clause.polls (c : Clause) (v : View) : List RegCell :=
  c.is.filterMap fun i => match i.2 with
    | .fpoll g _ a => if guardMay c.is i.1 v.fib g then some (v.rd a) else none
    | _ => none

/-- R183: a release waits for the fibre's earlier accesses, and a poll for those that must come first. -/
def State.released (s : State) (v : View) (c : Clause) : Bool :=
  (!(c.is.any fun i => match Instr.release? i.2 with | some g => guardMay c.is i.1 v.fib g | none => false)
      || !(s.pend.any fun o => o.fib == v.fib.fid && !o.act.isPush))
    && (c.polls v).all fun a =>
      let p := s.pollOp v.team v.fib a
      !(s.pend.any fun o => o.fib == v.fib.fid && (s.aimed o).before p)

/-- The convergence register that a word arrives at, and whether it signs a matrix operation (R123). -/
def Instr.arrival? : Instr → Option (Nat × Bool)
  | .mma _ k _ _ _ _ => some (k.val, true) | .mmab _ k _ _ _ _ _ => some (k.val, true)
  | .kwait _ k => some (k.val, false) | .ksign _ k => some (k.val, false)
  | _ => none

/-- The arrivals that a core's started clauses have still to make: team, register, whether they sign, how many. -/
def State.arrivalsUnder (s : State) (core : Nat) : List (Nat × Nat × Bool × Nat) :=
  (s.running.filter fun r => r.core == core && (r.cls == 2 || r.cls == 4)).flatMap fun r =>
    match s.team? r.team with
    | some t => (match decodeList (s.decCtx t r.cls) r.words.length (splitWords 1 r.words) with
        | .ok is => (is.filter fun i => decide (r.pos < i.1)).filterMap fun i =>
            (Instr.arrival? i.2).map fun a => (t.id, a.1, a.2, r.fibs.length)
        | .error _ => [])
    | none => []

/-- The most operations that some arrivals can complete at register `k` of a team. -/
def State.completions (s : State) (team k : Nat) (l : List (Nat × Nat × Bool × Nat)) : Nat :=
  match s.team? team with
  | none => 0
  | some t =>
    let x := NMap.get t.kregs k
    let mine := l.filter fun a => a.1 == team && a.2.1 == k
    let n := x.n - x.left
    let signs := ((mine.filter fun a => a.2.2.1).map fun a => a.2.2.2).sum + if x.caps.isEmpty then 0 else 1
    if n = 0 then 0 else min signs ((x.arr + (mine.map fun a => a.2.2.2).sum) / n)

/-- R276: no arrival may complete a matrix phase beyond the eighth operation held. The arrivals of a clause count from
its start on, with those that the core's other clauses have still to make. -/
def State.mtxRoom (s : State) (t : Team) (c : Clause) (fibs : Nat) : Bool :=
  let mine := c.is.filterMap fun i => (Instr.arrival? i.2).map fun a => (t.id, a.1, a.2, fibs)
  let all := s.arrivalsUnder t.core ++ mine
  let keys := (all.map fun a => (a.1, a.2.1)).eraseDups
  let most := (keys.map fun k => s.completions k.1 k.2 all).sum
  mine.all (fun a => s.completions t.id a.2.1 all == 0) || decide ((s.core t.core).mtx.length + most ≤ 8)

/-- A fibre has arrived at a clause (R111). -/
def Fibre.arrivedAt (f : Fibre) (pc : Word) (c : Clause) : Bool := f.stands && f.pc == pc && f.waited c.h.wait

/-- Live fibres of a fibre's tile that are not parked. -/
def State.tileOf (s : State) (f : Fibre) : List Fibre :=
  (s.grpFibres f.fid.team f.fid.grp).filter fun g =>
    !g.parked && decide (f.tileBase ≤ g.fid.lane) && decide (g.fid.lane < f.tileBase + f.tile)

/-- The fibre stands at the header of a tile-collective clause with its WAIT satisfied. -/
def State.atCollective (s : State) (t : Team) (f : Fibre) : Bool :=
  f.stands && match (s.clauseAt t f.pc).1 with | .ok c => c.collective && f.waited c.h.wait | _ => false

/-- R111, R112: a tile's collective clause may start for the fibres standing at its header. -/
def State.tileReady (s : State) (t : Team) (pc : Word) (c : Clause) (fs : List FibId) (f : Fibre) : Bool :=
  let tile := s.tileOf f
  let here := tile.filter fun g => g.arrivedAt pc c
  here.all (fun g => fs.contains g.fid)
    && (decide (here.length = tile.length)
        || tile.all fun g => s.atCollective t g && decide (pc.toNat ≤ g.pc.toNat))

/-! ## Executions (R29, R91, R105) -/

/-- A fibre at a clause's header owes its last execution nothing, and no access of its own holds back a release or a
poll of the clause (R183). -/
def State.atLiberty (s : State) (t : Team) (c : Clause) (f : Fibre) : Bool :=
  let run : ClauseRun := { (default : ClauseRun) with team := t.id, core := t.core, hdr := f.pc, fibs := [f.fid] }
  !s.execOpen f.fid.team f.fid.grp f.exec && match s.view? run f.fid with | some v => s.released v c | none => false

/-- A fibre can begin an execution of the clause at its header: it has arrived and is at liberty, with all its tile
where the clause holds a tile-collective. Whatever then keeps it from starting passes of itself (R120). -/
def State.mayJoin (s : State) (t : Team) (c : Clause) (f : Fibre) : Bool :=
  let arrived := (s.grpFibres f.fid.team f.fid.grp).filter fun g => g.arrivedAt f.pc c
  f.arrivedAt f.pc c &&
    if c.collective then
      s.tileReady t f.pc c (arrived.map (·.fid)) f
        && ((s.tileOf f).filter fun g => g.arrivedAt f.pc c).all fun g => s.atLiberty t c g
    else s.atLiberty t c f

/-- The fibres of a group that can begin an execution at a header. -/
def State.joiners (s : State) (t : Team) (grp : Nat) (pc : Word) (c : Clause) : List Fibre :=
  (s.grpFibres t.id grp).filter fun f => f.pc == pc && s.mayJoin t c f

/-- The fibres of a path that reach a clause together form one execution of it; each ends the clause before any goes
on, in as many batches as the core makes (R29, R109; log 193). Fibres that are of one already keep it. -/
def State.joinExec (s : State) (t : Team) (grp : Nat) (pc : Word) (c : Clause) (ids : List FibId) : State :=
  let mine := (s.grpFibres t.id grp).filter fun f => ids.contains f.fid
  if mine.any (·.member) then s
  else
    let all := (s.joiners t grp pc c).map (·.fid)
    let (e, s) := s.newId
    -- executions that no fibre and no outstanding operation belongs to are forgotten
    let used := fun k => (s.grpFibres t.id grp).any (fun f => f.exec == k)
      || s.pend.any (fun o => o.fib.team == t.id && o.fib.grp == grp && o.exec == k)
    (s.modFibs (fun f => all.contains f.fid) fun f => { f with exec := e, member := true, tiled := c.collective }).modGrp t.id grp fun g =>
      { g with marks := g.marks.filter fun m => used m.exec }

/-- Each group's fibres of a batch are of one execution. -/
def State.oneExec (s : State) (ids : List FibId) : Bool :=
  ids.all fun f => match s.fib? f with
    | some b => b.member && ids.all fun g => g.grp != f.grp || (match s.fib? g with | some x => x.exec == b.exec | none => false)
    | none => false

/-- A word that names an s register where a destination stands (R26). -/
def namesS (w : W32) : Bool := let d := (w.extractLsb' 16 8).toNat; decide (128 ≤ d) && decide (d < 192)

/-- What the clause does to state that fibres share could tell its batches apart: it creates fibres, writes s registers,
or holds sync or sys words (R29, R91, R157, R159). -/
def Clause.ordered (c : Clause) : Bool :=
  c.h.cls == 4 || c.h.cls == 5 || c.is.any fun i =>
    namesS (c.words.getD (i.1 - 1) 0) || match i.2 with | .fork _ _ _ _ => true | _ => false

/-- R29, R91, R105, R109: the fibres of one execution of such a clause act in ascending order of lanes, however the core
divides them: no lower lane has still to begin the clause, nor runs it. -/
def State.laneTurn (s : State) (ids : List FibId) (f : FibId) : Bool :=
  match s.fib? f with
  | some b => (s.grpFibres f.team f.grp).all fun g =>
      !(g.exec == b.exec && g.owes) || ids.contains g.fid || (!g.busy && decide (f.lane < g.fid.lane))
  | none => false

/-! ## Units and selection (R115, R116) -/

def unitUsed (s : State) (core u : Nat) : Bool := s.running.any fun r => r.core == core && r.unit == u

/-- The unit a clause of a class starts on: the lowest free vector pipe, or its own. -/
def State.unitFor (s : State) (core cls : Nat) : Option Nat :=
  if cls = 0 then (List.range 4).find? fun p => !unitUsed s core p
  else if unitUsed s core (3 + cls) then none else some (3 + cls)

/-- Physical register lane (R107). -/
def Group.physLane (g : Group) (lane : Nat) : Nat := g.roff + lane % 32

def State.physLane (s : State) (f : FibId) : Nat := match s.grp? f.team f.grp with | some g => g.physLane f.lane | none => 0

/-- A fibre that has not started a clause for 4,096 cycles ranks ahead (R116). -/
def State.starving (s : State) (f : Fibre) : Bool := f.starved || decide (f.lastStart + 4096 ≤ s.clock)

/-- R116: what a fibre's batch is selected by, smaller first. -/
def State.issueRank (s : State) (f : Fibre) (t : Team) : List Nat :=
  let old := s.starving f
  let prio := match s.clutch? t.clutch with | some c => c.prio | none => 0
  [if old then 0 else 1, if old then 0 else prio, if old then 0 else t.prio, if f.yielded && !old then 1 else 0,
   if old then prio else 0, if old then t.prio else 0, f.lastStart, s.physLane f.fid]

/-- The first list is smaller. -/
def rankLt : List Nat → List Nat → Bool
  | a :: l, b :: m => decide (a < b) || (a == b && rankLt l m)
  | _, _ => false

/-- A fibre's clause could start now, as the core judges its readiness. -/
def State.readyAt (s : State) (t : Team) (f : Fibre) : Option Clause :=
  if !(s.teamIssues t && f.stands) then none
  else
    match (s.clauseAt t f.pc).1 with
    | .ok c =>
      let run : ClauseRun := { (default : ClauseRun) with team := t.id, core := t.core, hdr := f.pc, fibs := [f.fid] }
      let free := match s.view? run f.fid with | some v => s.released v c | none => false
      -- rows of a group act in order
      let turn_ := !c.ordered || (s.grpFibres f.fid.team f.fid.grp).all fun g =>
        !(if f.member then g.exec == f.exec && g.owes else g.pc == f.pc && s.mayJoin t c g)
          || (!g.busy && decide (f.fid.lane / 32 ≤ g.fid.lane / 32))
      if f.waited c.h.wait && f.room c && s.mtxRoom t c 1 && free && (f.member || s.mayJoin t c f) && turn_ then some c
      else none
    | _ => none

/-- R116: a ready fibre outside the batch, whose clause competes for the unit, is selected before it. -/
def State.outranked (s : State) (core unit : Nat) (fs : List FibId) (rank : List Nat) : Bool :=
  s.fibres.any fun f =>
    !fs.contains f.fid && match s.team? f.fid.team with
      | some t => t.core == core && rankLt (s.issueRank f t) rank && (match s.readyAt t f with
          | some c => (if c.h.cls = 0 then decide (unit < 4) else unit == 3 + c.h.cls)
          | none => false)
      | none => false

/-- The smallest rank of a batch, which yields when a fibre of it does (R92). -/
def State.batchRank (s : State) (t : Team) (fs : List Fibre) : List Nat :=
  let yields := fs.any (·.yielded)
  let rank := fun (f : Fibre) => s.issueRank { f with yielded := yields } t
  match fs with
  | [] => []
  | f :: fs => fs.foldl (fun r g => let x := rank g; if rankLt x r then x else r) (rank f)

/-! ## Splits (R369) -/

/-- Sectors of the region buffer (R367). -/
def rbufSize : Nat := 1536

/-- Sectors a planned access writes into the region buffer: stores, and team-scope atomics and reductions. -/
def Access.writes (a : Access) : Instr → List Nat
  | .st _ z _ _ _ _ => (a.loc.feet 0 (Sz.bytes z)).flatMap sectorsOf
  | .ste _ k _ f _ _ => (a.loc.elemFeet f a.e (Sz.bytes k * EFmt.step f)).flatMap sectorsOf
  | .atom _ w _ _ _ _ _ _ _ => (a.loc.feet 0 (if w then 8 else 4)).flatMap sectorsOf
  | .red _ w _ _ _ _ => (a.loc.feet 0 (if w then 8 else 4)).flatMap sectorsOf
  | _ => []

/-- Sectors that a team's outstanding operations will write there. -/
def State.pendSectors (s : State) (team : Nat) : List Nat :=
  (s.pend.filter fun o => o.fib.team == team && match o.act with
      | .st _ _ _ _ => true | .ste _ _ _ _ _ => true | .atom _ _ _ _ _ _ => true | .red _ _ _ => true | _ => false).flatMap
    fun o => o.feet.flatMap sectorsOf

/-- A page or place that is not the region buffer's. -/
def Loc.apart : Loc → Bool
  | .mem a t => t.sc || t.uncached || decide (2 ≤ spaceOf a)
  | _ => false

def Ord.atWide (o : Ord) : Bool := o.order != .none && o.scope != .team

/-- An ORDER that releases at cluster scope or wider, or system scope. -/
def ordSplits (o : Ord) : Bool := (Order.isRel o.order && o.scope != .team) || o.scope == .sys

/-- An access under index 1 to another rank, or under index 2. -/
def Access.elsewhere (a : Access) (team : Nat) : Bool :=
  indexOf a.addr == 2 || (indexOf a.addr == 1 && match a.loc with | .spad t _ => t != team | _ => false)

/-- R369 for a planned access of a mem word. -/
def Access.splits (a : Access) (team : Nat) (i : Instr) : Bool :=
  let far := a.elsewhere team
  a.loc.apart || (match a.scale with | some l => l.apart | none => false) || a.lines.any Loc.apart || match i with
    | .ld _ m _ _ => (if m.fe then far || ordSplits (feOrd m.ord false a.addr) else ordSplits m.ord)
    | .st _ _ o fe _ _ => far || (if fe then ordSplits (feOrd o true a.addr) else ordSplits o)
    | .ste _ _ o _ _ _ => far || ordSplits o
    | .ldx _ _ o _ _ _ _ => ordSplits o
    | .lde _ _ o _ _ _ _ => ordSplits o
    | .atom _ _ o _ _ _ _ _ _ => far || ordSplits o || (o.scope != .team && decide (3 ≤ indexOf a.addr))
    | .red _ _ o _ _ _ => far || ordSplits o || (o.scope != .team && decide (3 ≤ indexOf a.addr))
    | .feset _ _ _ _ => far || ordSplits (feOrd plainOrd true a.addr)
    | .feclr _ _ _ _ => far || ordSplits (feOrd plainOrd true a.addr)
    | .cwb _ _ sc _ => sc != .team
    | .cinv _ _ sc _ => sc != .team
    | .sld _ o _ _ => ordSplits o
    | .sldx _ o _ _ _ => ordSplits o
    | .sst _ _ _ _ _ _ _ => true
    | .srec _ _ _ _ _ _ _ _ _ => true
    | _ => false

/-- R369: starting the clause for these fibres, with these planned accesses, splits the team's instance. -/
def State.needsSplit (s : State) (t : Team) (c : Clause) (vs : List View) (plan : List Access) : Bool :=
  let instr := fun (k : Nat) => (c.is.find? fun i => i.1 == k).map (·.2)
  let word := c.is.any fun i => vs.any fun v =>
    match i.2 with
    | .fence g o => o.scope != .team && guardMay c.is i.1 v.fib g
    | x => match Instr.splits? x with | some g => guardMay c.is i.1 v.fib g | none => false
  let polls := vs.any fun v => (c.polls v).any fun a => (s.pollOp t v.fib a).loc.apart
  let acc := plan.any fun a => match instr a.word with | some i => a.splits t.id i | none => false
  let stores := plan.flatMap fun a => match instr a.word with | some i => a.writes i | none => []
  let bufs := (t.rbuf.map (·.base)) ++ s.pendSectors t.id
  word || polls || acc || (!stores.isEmpty && decide (rbufSize < (bufs ++ stores).eraseDups.length))

/-! ## Starting a clause -/

/-- A fetch, decode or plan trap at a clause header (R312, R384). -/
def State.headerTrap (s : State) (f : FibId) (pc next : Word) (code word : Nat) (addr : Word) : State :=
  s.modFib f fun b => b.noteTrap ⟨code, word, 0, addr, pc, next, false, none⟩

/-- The first of a task word's addresses whose translation misses, its walk begun. -/
def State.addrWalk (s : State) (v : View) (is : List (Nat × Instr)) (k : Nat) :
    List (Guard × Opnd × Nat × Right) → Option (Nat × Word) × State
  | [] => (none, s)
  | (g, a, n, rt) :: l =>
    let x := v.rd a
    if !guardMay is k v.fib g || x.p then s.addrWalk v is k l
    else
      let p := s.port (podOf v.team.core) (v.taskReq x.v n n rt)
      match p.1 with
      | .miss va =>
        let w := p.2.startWalk v.team.part va x.v v.team.core (s.teamQueue v.team) (if rt == .a then .atomic else .load)
          (podOf v.team.core) false
        (some (w.1, x.v), w.2)
      | _ => p.2.addrWalk v is k l

/-- The pool slot that a `spawn` appends to, likewise (log 120). -/
def State.slotWalk (s : State) (v : View) (is : List (Nat × Instr)) (k : Nat) : Instr → Option (Nat × Word) × State
  | .spawn g _ a _ _ =>
    let x := v.rd a
    (match (if guardMay is k v.fib g && !x.p then s.nodeAt v.team.part x.v else none) with
    | none => (none, s)
    | some n =>
      let sa := n.slotAddr n.poolTail
      let q := s.port (podOf v.team.core) (hubReq v.team.part sa n.rsize 8 .w .store)
      match q.1 with
      | .miss va =>
        let w := q.2.startWalk v.team.part va sa v.team.core (s.teamQueue v.team) .store (podOf v.team.core) false
        (some (w.1, sa), w.2)
      | _ => (none, q.2))
  | _ => (none, s)

/-- R259: the translations of a fibre's task words of a clause; the first that misses, with its word. A word whose
guard an earlier word may make true is translated too. -/
def State.taskWalk (s : State) (v : View) (all : List (Nat × Instr)) : List (Nat × Instr) → Option (Nat × Word × Nat) × State
  | [] => (none, s)
  | (k, i) :: is =>
    let p := s.addrWalk v all k (Instr.taskAddrs i)
    match p.1 with
    | some w => (some (w.1, w.2, k), p.2)
    | none =>
      let q := p.2.slotWalk v all k i
      match q.1 with
      | some w => (some (w.1, w.2, k), q.2)
      | none => q.2.taskWalk v all is

/-- What the planning of a batch gives: the fibres that start, their accesses, and the state with the others
trapped or held. -/
structure Batch where
  fibs : List FibId
  plan : List Access
  s : State
  deriving Repr

/-- R210, R259: each fibre's addresses formed, checked and translated. -/
def State.planBatch (s : State) (r : ClauseRun) (c : Clause) (fs : List FibId) : Batch :=
  fs.foldl (fun b f =>
    match b.s.view? r f with
    | none => b
    | some v =>
      if c.h.cls = 1 then
        let p := b.s.planFibre v c.is
        match p.1 with
        | .ok l => { fibs := b.fibs ++ [f], plan := b.plan ++ l, s := p.2 }
        | .trap k code addr => { b with s := p.2.headerTrap f r.hdr r.next code k addr }
        | .hold n first k => { b with s := p.2.modFib f fun x => x.await (.walk n first k) }
      else if c.h.cls = 4 then
        let w := b.s.taskWalk v c.is c.is
        match w.1 with
        | none => { b with fibs := b.fibs ++ [f], s := w.2 }
        | some (n, first, k) => { b with s := w.2.modFib f fun x => x.await (.walk n first k) }
      else { b with fibs := b.fibs ++ [f] }) ⟨[], [], s⟩

/-- The groups of some fibres. -/
def grpsOf (fs : List FibId) : List Nat := fs.foldl (fun l f => setAdd l f.grp) []

/-- A batch that yields was passed over by this selection: it was ready for the same unit, at the same priorities (R116). -/
def State.passedOver (s : State) (t : Team) (cls : Nat) (f : Fibre) : Bool :=
  f.yielded && match s.team? f.fid.team with
    | some u => u.core == t.core && u.prio == t.prio
        && (s.clutch? u.clutch).map (·.prio) == (s.clutch? t.clutch).map (·.prio)
        && (match s.readyAt u f with | some c => c.h.cls == cls | none => false)
    | none => false

/-- A clause started for a batch (R12, R16, R116). -/
def State.begin (s : State) (t : Team) (r : ClauseRun) (c : Clause) (b : Batch) : State :=
  let mine := fun (f : Fibre) => b.fibs.contains f.fid
  let passed := (s.fibres.filter fun f => s.passedOver t c.h.cls f).map (·.fid)
  let s := s.modFibs (fun f => passed.contains f.fid) fun f => { f with yielded := false }
  let s := s.modFibs mine fun f =>
    { f with busy := true, t := [], lastStart := s.clock, starved := false, yielded := false,
             flags := (List.range 12).foldl (fun m k => m.mod k (· + c.adds k)) f.flags }
  let s := s.modTeam t.id fun t => { t with idle := 0, idleActed := false }
  let r := { r with fibs := b.fibs, plan := b.plan,
                    seta := if c.is.any (fun i => Instr.loadTracked i.2) then c.h.seta else 15,
                    setb := if c.is.any (fun i => Instr.storeTracked i.2) then c.h.setb else 15 }
  { s with running := s.running ++ [r] }

/-- R108: the fibres form one batch. -/
def State.batchOk (s : State) (fs : List Fibre) : Bool :=
  match fs with
  | [] => false
  | f :: rest =>
    decide (fs.length ≤ 32) && rest.all (fun g => g.fid.team == f.fid.team && g.pc == f.pc)
      && decide ((fs.map fun g => s.physLane g.fid).Nodup) && fs.all Fibre.stands

/-- A code block of another package asked for (R351): untracked; the fibres stand meanwhile. -/
def State.askCode (s : State) (t : Team) (f : FibId) (l : Loc) (a : Word) : State :=
  if s.pend.any fun o => o.addr == a && o.core == t.core && o.act.isCode && o.fib.team == t.id then s
  else
    let (n, s) := s.newId
    let o : MemOp :=
      { id := n, fib := f, part := t.part, core := t.core, run := 0, word := 0, exec := 0, hdr := a, next := a, flag := 15,
        isLoad := true, ord := plainOrd, loc := l, addr := a, act := .ld none 64 false false false false, sent := false,
        route := none, took := false, got := [], kept := [], served := [] }
    { s with pend := s.pend ++ [o] }

/-- A clause start, of an open region's splitting clause when `split` (R369). -/
def State.start (s0 : State) (fids : List FibId) (pipe : Nat) (split : Bool) : State :=
  let ids := fids.foldl (fun l f => insFib f l) []
  let fs := ids.filterMap s0.fib?
  match fs with
  | [] => s0
  | f :: _ =>
    match s0.team? f.fid.team with
    | none => s0
    | some t =>
      if !(s0.batchOk fs && decide (fs.length = fids.length) && s0.teamIssues t) then s0
      else
        let pc := f.pc
        let fetched := s0.clauseAt t pc
        match fetched.1 with
        | .trap code k addr => leave (fs.foldl (fun s f => s.headerTrap f.fid pc (pc + 4) code k addr) fetched.2) t.core ids pc
        | .walk n addr => leave (fetched.2.modFibs (fun g => ids.contains g.fid) fun g => g.await (.walk n addr 0)) t.core ids pc
        | .away l a => fetched.2.askCode t f.fid l a
        | .ok c =>
          let s := (grpsOf ids).foldl (fun s g => s.joinExec t g pc c ids) fetched.2
          let fs := ids.filterMap s.fib?
          match s.unitFor t.core c.h.cls with
          | none => s0
          | some u =>
            let r : ClauseRun :=
              { id := s.fresh, team := t.id, core := t.core, unit := u, hdr := pc, cls := c.h.cls, words := c.words, pos := 0,
                seta := 15, setb := 15, yield := c.h.yield, fibs := ids, took := [], stopped := [], branch := [], exits := [],
                plan := [], split := split }
            let s := s.newId.2
            let vs := ids.filterMap (s.view? r)
            let ok := u == pipe && s.oneExec ids && fs.all (fun f => f.waited c.h.wait && f.room c)
              && (!c.ordered || ids.all (s.laneTurn ids)) && (!c.collective || fs.all fun f => s.tileReady t pc c ids f)
              && vs.all (fun v => s.released v c) && s.mtxRoom t c ids.length
              && !s.outranked t.core u ids (s.batchRank t fs)
            if !ok then s0
            else
              let b := s.planBatch r c ids
              let vs := b.fibs.filterMap (b.s.view? r)
              let must := t.rOpen && b.s.needsSplit t c vs b.plan
              if must != split then s0
              else if split && !s0.pointReady t then s0
              else
                let gone := ids.filter fun f => !b.fibs.contains f
                -- of a tile that is to start together, none starts without the others (R111)
                if b.fibs.isEmpty || (c.collective && !gone.isEmpty) then leave b.s t.core gone r.next
                else
                  let s := if split then b.s.commit t.id else b.s
                  leave (s.begin t r c b) t.core gone r.next
where
  /-- Fibres that a trap or a walk keeps from the clause. -/
  leave (s : State) (core : Nat) (fs : List FibId) (next : Word) : State := fs.foldl (fun s f => s.leaveExec core f next) s

/-- CLAUSE_START. -/
def execClauseStart (fs : List FibId) (pipe : Nat) (s : State) : Result := .next (s.start fs pipe false)

/-- REGION_SPLIT: steps 1 to 3 of R369; the others follow the clause's end. -/
def execRegionSplit (fs : List FibId) (pipe : Nat) (s : State) : Result := .next (s.start fs pipe true)

/-! ## The end of a clause (R13, R90, R118, R145) -/

/-- Where a fibre goes when the clause ends. -/
def ClauseRun.target (r : ClauseRun) (f : FibId) : Word :=
  match r.branch.find? fun b => b.1 == f with | some b => b.2 | none => r.next

/-- A flag that no outstanding operation of the clause counts on falls at its end (R16, R19). -/
def State.lowerIdle (s : State) (r : ClauseRun) (f : FibId) (isLoad : Bool) (flag : Nat) : State :=
  if flag < 12 && !s.counts r.id f isLoad then s.modFib f fun b => b.lower flag else s

/-- Registers from `n` on. -/
def regsFrom (n k : Nat) : List Opnd := (List.range k).map fun i => .x (Fin.ofNat 128 (n + i))

/-- The registers whose values leave the core with a word: a store's, an atomic's, a reduction's, a sibling write's, an
engine command's and a task operation's (R365). -/
def Instr.leaves : Instr → List Opnd
  | .st _ z _ _ d r => (if Sz.bytes z == 16 then [d, d.succ] else [d]) ++ [r.base, r.idx]
  | .ste _ z _ _ d r => (if Sz.bytes z == 16 then [d, d.succ] else [d]) ++ [r.base, r.idx]
  | .atom _ _ _ _ _ _ a b c => [a, b, c] | .red _ _ _ _ a b => [a, b] | .sst _ _ _ _ a b c => [a, b, c]
  | .srec _ _ _ _ _ _ a b c => [a, b] ++ c.toList
  | .push _ _ n _ _ => regsFrom n.val 8 | .spawn _ _ a b w => a :: regsFrom b.val w.val
  | .csub _ _ a => [a] | .fres _ a b => [a, b] | .freg _ a b => [a, b] | .ffail _ a b => [a, b]
  | _ => []

/-- The guard of a task operation's word. -/
def Instr.taskGuard : Instr → Guard
  | .spawn g _ _ _ _ => g | .csub g _ _ => g | .fres g _ _ => g | .freg g _ _ => g | .ffail g _ _ => g
  | _ => noGuard

/-- Storage that a team's own core holds. -/
def State.onOwnCore (s : State) (team : Nat) (l : Loc) : Bool :=
  let core := fun (t : Nat) => (s.team? t).map (·.core)
  match l with
  | .spad t _ => core t == core team
  | _ => false

/-- A word's values left the core for a fibre, between a state and the one after the word (R365): it issued an access to
storage outside the core, or a command; or its task operation took effect. -/
def State.leftCore (s t : State) (r : ClauseRun) (i : Instr) (f : FibId) : Bool :=
  let issued := t.pend.any fun o => o.fib == f && decide (s.fresh ≤ o.id) && !t.onOwnCore f.team o.loc
  match i with
  | .spawn .. | .csub .. | .fres .. | .freg .. | .ffail .. =>
    (match s.view? r f with | some v => v.guard (Instr.taskGuard i) | none => false)
      && (match t.fib? f with | some b => !(b.trap.any fun x => x.hdr == r.hdr && x.word == r.pos + 1) | none => true)
  | _ => issued

/-- Results whose values leave the core: every check on them has completed (R365). -/
def State.proved (s : State) (f : FibId) (out : List Opnd) : State :=
  if out.isEmpty then s
  else
    let s := s.modFib f fun b => { b with unproven := b.unproven.filter fun u => !out.contains u.1 }
    s.modGrp f.team f.grp fun g =>
      { g with unproven := g.unproven.filter fun u => !(out.any fun o => match o with | .s n => n.val == u.1 | _ => false) }

/-- What a word sent out of the core is known to be right. -/
def State.proveWord (t s : State) (r : ClauseRun) (i : Instr) : State :=
  let out := Instr.leaves i
  if out.isEmpty then t else (r.fibs.filter (s.leftCore t r i)).foldl (fun t f => t.proved f out) t

/-- The clause of an `eret` has ended: the fibre waits again for what its handler interrupted, and when that was a
replay's last trap, the instance runs anew (R374). -/
def State.endHandler (s : State) (r : ClauseRun) (f : FibId) : State :=
  let back := r.cls == 5 && r.branch.any fun b => b.1 == f
  let s := match s.fib? f with
    | some b => if back && b.redo then s.modTeam f.team fun t => { t with replay := 0 } else s
    | none => s
  if back then s.modFib f Fibre.resume else s

/-- A fibre of an ended clause. -/
def State.endFor (s : State) (r : ClauseRun) (f : FibId) : State :=
  let s := s.endHandler r f
  let s := s.modFib f fun b =>
    let b := { b with busy := false, member := false, t := [], yielded := b.yielded || r.yield }
    let b := match b.trap with
      | some t => if t.hdr == r.hdr && r.took.contains f then { b with trap := some { t with took := true } } else b
      | none => b
    if r.exits.contains f then b.await .exit else b
  let s := (s.lowerIdle r f true r.seta).lowerIdle r f false r.setb
  let s := if s.pend.any fun o => o.fib == f && o.run == r.id && o.act.isFe then s.modFib f fun b => b.await .fe else s
  s.moveTo f (r.target f)

/-- The executions of the batch's groups that nobody has still to run close (R118). -/
def State.closeExecs (s : State) (r : ClauseRun) : State :=
  let gs := grpsOf r.fibs
  let es := ((s.teamFibres r.team).filter fun b => gs.contains b.fid.grp && b.exec != 0).map fun b => (b.fid.grp, b.exec)
  es.eraseDups.foldl (fun s x => s.closeExec r.core r.team x.1 x.2 r.next) s

/-- A clause has ended for its batch. -/
def State.endClause (s : State) (r : ClauseRun) : State :=
  let s := { s with
    running := s.running.filter fun x => x.id != r.id
    pend := s.pend.map fun (o : MemOp) => if o.run == r.id && r.took.contains o.fib then { o with took := true } else o
    subs := s.subs.map fun (x : Sub) => match x.fib with
      | some y => if x.run == r.id && r.took.contains y.1 then { x with trap := { x.trap with took := true } } else x
      | none => x }
  let s := r.fibs.foldl (fun s f => s.endFor r f) s
  let s := s.closeExecs r
  let s := if r.split then s.modTeam r.team fun t => { t with point := .split } else s
  s.sweep

/-! ## Starvation, parking (R116, R119) -/

/-- ISSUE_STARVATION: a ready batch that has not started a clause for 4,096 cycles. -/
def execIssueStarvation (fs : List FibId) (s : State) : Result :=
  let old := fs.all fun f => match s.fib? f with
    | some b => decide (b.lastStart + 4096 ≤ s.clock) && (match s.team? f.team with
        | some t => (s.readyAt t b).isSome | none => false)
    | none => false
  .next (if old then s.modFibs (fun f => fs.contains f.fid) fun f => { f with starved := true } else s)

/-- The parked fibre of a core that has waited longest, with its set: of those parked in one cycle, the first in order of
teams, groups and lanes (DESIGN CHOICE, log 193). -/
def State.longestParked (s : State) (core : Nat) : Option Fibre :=
  (s.fibres.filter fun f => f.parked && (match s.team? f.fid.team with
      | some t => t.core == core && t.phase == .resident | none => false)).foldl
    (fun b f => match b with
      | none => some f
      | some g => if f.entryAt < g.entryAt then some f else some g) none

/-- PATH_UNPARK: a free entry, or a group's own, goes to the set that has waited longest. -/
def execPathUnpark (core : Nat) (s : State) : Result :=
  .next <| match s.longestParked core with
  | none => s
  | some f =>
    let s1 := s.unpark f.fid.team f.fid.grp f.pc
    if s1.poolUsed core ≤ poolSize ∨ s1.poolUsed core = s.poolUsed core then s1 else s

/-- PARK_STEAL: a set parked for 65,536 cycles takes the entry of its group's longest-running path, all of whose fibres
are parked in its place, once none of them is within a clause (R12; log 193). -/
def execParkSteal (core : Nat) (s : State) : Result :=
  .next <| match s.longestParked core with
  | none => s
  | some f =>
    if s.clock < f.entryAt + 65536 then s
    else
      let others := (s.grpFibres f.fid.team f.fid.grp).filter fun g => !g.parked
      let oldest := others.foldl (fun b g => match b with
        | none => some g
        | some h => if g.entryAt < h.entryAt then some g else some h) (none : Option Fibre)
      match oldest with
      | none => s
      | some g =>
        let path := others.filter fun h => s.pathPc h == s.pathPc g
        if path.any (·.busy) then s
        else (s.parkAll (path.map (·.fid))).unpark f.fid.team f.fid.grp f.pc

/-! ## Traps (R312, R384 to R386) -/

/-- Nothing of the fibre is outstanding that its trap waits for: a trap of the sequencer leaves what waits (R374). -/
def State.trapReady (s : State) (b : Fibre) (r : TrapRec) : Bool :=
  !b.busy && (b.hold == .free || b.hold == .exit || r.sequencer)
    && !(s.pend.any fun o => o.fib == b.fid && !o.act.isCode && !(r.sequencer && s.waiting o))

/-- TRAP_DELIVERY: at the boundary, when the fibre's tracked instructions have completed: to its handler, or a
halt of its team. A fibre that waits to exit does not exit (R90). -/
def execTrapDelivery (f : FibId) (s : State) : Result :=
  .next <| match s.fib? f, s.team? f.team with
  | some b, some t =>
    match b.trap with
    | none => s
    | some tr =>
      if !s.trapReady b tr || t.phase != .resident || t.halting.isSome then s
      else if t.tvec = 0 ∨ b.h then s.modTeam t.id fun t => { t with halting := some (f, tr) }
      else
        let s := (s.modFib f fun b => b.takeTrap t.tvec tr).leaveExec t.core f tr.next
        (s.parkAll [f]).claimEntry t.core [f]
  | _, _ => s

end Sys2Proof.Machine
end

