-- ==== Sys2Proof/Machine/Engine.lean ====
section
/-! DEFINITION. The engines: acceptance with range locks (R158, R170, R171, R319), completion and its signals
(R161, R162, R267), how an engine reaches memory (R192, R193), the stream engines (R164 to R167) and the chameleon
(R168, R169). -/

namespace Sys2Proof.Machine

/-! ## A step of an engine -/

/-- What a step of an engine comes to: a value; not yet; a failure with its code and address (R162); or a
translation fault that the host has to answer (R223). -/
inductive Ran (α : Type) where
  | ok (a : α)
  | idle
  | fail (code : Nat) (addr : Word)
  | wait (fault : Nat)
  /-- It needs a sector of another package first (R351). -/
  | ask (l : Loc)
  deriving Repr

abbrev Eng (α : Type) := State → Ran α × State

def Eng.pure (a : α) : Eng α := fun s => (.ok a, s)
def Eng.stop (code : Nat) (addr : Word) : Eng α := fun s => (.fail code addr, s)
def Eng.later : Eng α := fun s => (.idle, s)
def Eng.bind (m : Eng α) (f : α → Eng β) : Eng β := fun s =>
  match m s with
  | (.ok a, s) => f a s
  | (.idle, s) => (.idle, s)
  | (.fail c x, s) => (.fail c x, s)
  | (.wait k, s) => (.wait k, s)
  | (.ask l, s) => (.ask l, s)
def Eng.get (f : State → α) : Eng α := fun s => (.ok (f s), s)
def Eng.put (f : State → State) : Eng Unit := fun s => (.ok (), f s)
/-- A condition that fails the command. -/
def Eng.need (b : Bool) (code : Nat) (addr : Word) : Eng Unit := if b then Eng.pure () else Eng.stop code addr
/-- Each of a list in turn. -/
def Eng.each (f : α → Eng β) : List α → Eng (List β)
  | [] => Eng.pure []
  | a :: l => Eng.bind (f a) fun b => Eng.bind (Eng.each f l) fun bs => Eng.pure (b :: bs)
/-- A value carried along a list. -/
def Eng.along (f : β → α → Eng β) (b : β) : List α → Eng β
  | [] => Eng.pure b
  | a :: l => Eng.bind (f b a) fun c => Eng.along f c l

/-- The engines that reach memory through their pod's L1 (R192). -/
def EQueue.inPod : EQueue → Bool
  | .se0 => true | .se1 => true | .cvx => true | .ray => true | _ => false

def State.cmd? (s : State) (n : Nat) : Option Cmd := s.cmds.find? fun c => c.id == n
def State.modCmd (s : State) (n : Nat) (f : Cmd → Cmd) : State :=
  { s with cmds := s.cmds.map fun c => if c.id == n then f c else c }

/-- A command's step asks another package for the sector of a place (R351): of the command's push, and cached when the
engine passes its pod's L1 and the page is sealed (R192, R355). -/
def State.askFar (s : State) (c : Cmd) (l : Loc) : State :=
  match l with
  | .mem a t =>
    let loc := Loc.mem (secBase a) t
    if s.pend.any fun o => o.act == .ask && o.run == c.c.op && o.loc == loc then s
    else
      let (n, s) := s.newId
      let o : MemOp :=
        { id := n, fib := ⟨0, 0, 0⟩, part := c.c.part, core := c.c.core, run := c.c.op, word := 0, exec := 0, hdr := 0, next := 0,
          flag := 15, isLoad := EQueue.inPod c.c.q, ord := ⟨.none, .team⟩, loc := loc, addr := 0, act := .ask, sent := false,
          route := none, took := false, got := [], kept := [], served := [] }
      { s with pend := s.pend ++ [o] }
  | _ => s

/-- What a command's step had asked for is used. -/
def State.forgetFar (s : State) (c : Cmd) : State := { s with far := s.far.filter fun x => x.1 != c.c.op }

/-- A row of an engine for a command in a phase: its effects; or its failure, with the writes already made; or
its wait, with nothing done. -/
def State.runCmd (s : State) (n : Nat) (codes : List Nat) (ph : CmdPhase) (f : Cmd → Eng (Cmd → Cmd)) : State :=
  match s.cmd? n with
  | none => s
  | some c =>
    if c.hold != .free || c.phase != ph || !codes.contains (cmdCode c.c.words) then s
    else
      match f c s with
      | (.ok g, t) => (t.forgetFar c).modCmd n g
      | (.idle, _) => s
      | (.ask l, _) => s.askFar c l
      | (.fail code a, t) => (t.forgetFar c).modCmd n fun c => { c with phase := .failed code a }
      | (.wait k, t) => { s with faults := t.faults, fresh := t.fresh }.modCmd n fun c => { c with hold := .fault k 0 0 }

/-! ## How an engine reaches memory (R162, R192) -/

def Cmd.pod (c : Cmd) : Nat := podOf c.c.core
/-- A command's writes carry its number and its clutch. -/
def Cmd.fib (c : Cmd) : FibId := ⟨0, c.id, c.c.clutch⟩
def Cmd.agent (c : Cmd) : Agent := ⟨if EQueue.inPod c.c.q then some c.pod else none, 0, c.fib, c.c.part⟩
def Cmd.w (c : Cmd) (i : Nat) : Word := wordAt c.c.words i
def State.cmdQueue (s : State) (c : Cmd) : Nat := match s.clutch? c.c.clutch with | some x => x.queue | none => 255

/-- A run of bytes an engine has reached: its first byte, and its pieces in memory. -/
structure Place where
  loc : Loc
  ps : List Piece
  deriving Repr

/-- The place `k` bytes further. -/
def Place.at (p : Place) (k : Nat) : Loc :=
  match p.loc, p.ps with
  | .mem _ _, x :: _ =>
    let va := x.va + k
    (match p.ps.find? fun y => y.va / 65536 == va / 65536 with
    | some y =>
      .mem (y.dpa - y.dpa % 65536 + va % 65536) { y.attr with off := y.attr.off - y.attr.off % 65536 + va % 65536 }
    | none => .nowhere)
  | l, _ => l.fwd k

/-- Expanders among the pieces that a command has reached, remembered (R242). -/
def State.reached (s : State) (cmd : Nat) (ps : List Piece) (addr : Word) : State :=
  let es := ((ps.filter fun p => spaceOf p.dpa == 1).map fun p => p.dpa / 2 ^ 40 % 2).eraseDups
  if es.isEmpty then s
  else s.modCmd cmd fun c => { c with cxl := c.cxl ++ (es.filter fun e => !c.cxl.any fun x => x.1 == e).map fun e => (e, addr) }

/-- The port's answer for a run of bytes under an index, for a command. -/
def Cmd.reach (c : Cmd) (idx off len align : Nat) (rt : Right) (u : PageUse) (addr : Word) (k : FaultKind) : Eng Place :=
  fun s =>
    let q : PortReq := ⟨c.c.part, c.c.team, c.c.core, idx, off, len, align, rt, u, .free, false, false⟩
    let r := s.reach c.pod q addr (s.cmdQueue c) k ((chunksOf off len).length + 1)
    match r.1 with
    | .ok l ps => (.ok ⟨l, ps⟩, r.2.reached c.id ps addr)
    | .trap code => (.fail code addr, r.2)
    | .wait f => (.wait f, r.2)

/-- Bytes that an engine reads. -/
def Cmd.source (c : Cmd) (a : Word) (len align : Nat) (fmt : Option Nat) : Eng Place :=
  c.reach (indexOf a) (offsetOf a) len align .r (.engine fmt false) a .engineRead
/-- Bytes that an engine writes. -/
def Cmd.sink (c : Cmd) (a : Word) (len align : Nat) (fmt : Option Nat) : Eng Place :=
  c.reach (indexOf a) (offsetOf a) len align .w (.engine fmt true) a .engineWrite

/-- A write at the home that is to be performed at the pod's point too: the pod's own copy of the sector goes (R192). -/
def State.atPod (s : State) (c : Cmd) (l : Loc) : State :=
  match l with
  | .mem a _ => if EQueue.inPod c.c.q || decide (2 ≤ cmdScope c.c.words) then s else s.podForget c.pod (secBase a)
  | _ => s

/-- A place of another package that a command's read has to ask for: no sealed copy of its pod answers, and the package is
not lost (R351, R354, R355). -/
def State.farNeed (s : State) (c : Cmd) (l : Loc) : Option Nat :=
  match l with
  | .mem a t =>
    let held := match t.tag, c.agent.pod with
      | some k, some pod => (s.sealedCopy pod (secBase a) k).isSome
      | _, _ => false
    if s.isRemote a && !s.lostAt a && !held then some a else none
  | _ => none

/-- A number of up to 8 bytes that an engine reads or writes. -/
def Cmd.load (c : Cmd) (l : Loc) (n : Nat) : Eng (Nat × Bool) := fun s =>
  match s.farNeed c l with
  | none => let r := s.getLoc c.agent l false n; (.ok r.1, r.2)
  | some a =>
    match s.far.find? fun x => x.1 == c.c.op && x.2.base == secBase a with
    | some x => (.ok (x.2.val.nat (a % 64) n, x.2.val.pois (a % 64) n), s)
    | none => (.ask l, s)
def Cmd.store (c : Cmd) (l : Loc) (n v : Nat) (p : Bool) : Eng Unit := Eng.put fun s => (s.atPod c l).putLoc c.agent l false n v p

/-- 8-byte words of a record. -/
def Cmd.words (c : Cmd) (p : Place) (off n : Nat) : Eng (List Word) :=
  Eng.each (fun i => Eng.bind (c.load (p.at (off + 8 * i)) 8) fun x => Eng.pure (BitVec.ofNat 64 x.1)) (List.range n)

/-- A record of `n` words at an address. -/
def Cmd.record (c : Cmd) (a : Word) (n align : Nat) : Eng (List Word) :=
  Eng.bind (c.source a (8 * n) align none) fun p => c.words p 0 n

/-- The bytes of words. -/
def bytesOfWords (ws : List Word) : List Byte := ws.flatMap fun w => leBytes 8 w.toNat

/-! ## Ranges (R170, R319) -/

/-- A range of a command: bytes `lo` to `hi − 1` under an address's index. -/
structure Span where
  kind : LockKind
  addr : Word
  lo : Nat
  hi : Nat
  deriving DecidableEq, Repr

def Span.of (k : LockKind) (a : Word) (n : Nat) : Span := ⟨k, a, offsetOf a, offsetOf a + n⟩

/-- The bytes of `n` elements of a format from an element address; bytes for format 0. -/
def elemBytes (fmt : Nat) (a : Word) (n : Nat) : Nat × Nat :=
  match EFmt.ofCode? fmt with
  | none => (offsetOf a, offsetOf a + n)
  | some f =>
    let byte := fun e => e / EFmt.perUnit f * 65536 + (EFmt.bytesOf f (e % EFmt.perUnit f) 1).1
    let last := offsetOf a + n - 1
    (byte (offsetOf a), byte last + (EFmt.bytesOf f (last % EFmt.perUnit f) 1).2)

/-- The first and last byte of a stream's elements, as offsets of BASE's index (R166). -/
def Layout.extent (l : Layout) : Nat × Nat :=
  let part := fun (f : Int → Int) => ((l.ext.zip l.str).take l.ndim).foldl (fun n (x : Nat × Int) =>
    n + f ((x.1 - 1 : Nat) * x.2 * l.esz)) (offsetOf l.base : Int)
  ((part fun x => min x 0).toNat, (part fun x => max x 0).toNat + l.esz)

/-- Bytes of an element of a collective's data type (R321). -/
def collSize (ws : List Word) : Nat := if fieldOf (wordAt ws 0) 27 24 = 3 then 4 else 8

/-- Elements at DST: at the root of a gather, those of every member. -/
def collOut (ws : List Word) (n : Nat) : Nat := fieldOf (wordAt ws 4) 31 0 * (if cmdCode ws = 0x53 then n else 1)

/-- A member that is not the root of a gather has no DST (R321). -/
def collNoDst (ws : List Word) (self : Nat) : Bool := cmdCode ws == 0x53 && fieldOf (wordAt ws 6) 21 12 != self

/-- The bytes of the member table of `n` members (R322). -/
def tableBytes (n : Nat) : Nat := 0x100 + 4 * n

/-- What a command's ranges need from memory: NNODE and NODES of a graph, N and SELF of a member table, or the bytes of
a tree. -/
structure Extra where
  n : Nat
  nodes : Word
  self : Nat
  deriving Repr, Inhabited

/-- The tree registered at an address: its bytes and its cut records (R330, log 10). -/
def Cmd.treeAt (c : Cmd) (a : Word) : List (List Byte × List Word) → Eng (Option (List Byte × List Word))
  | [] => Eng.pure none
  | t :: ts => fun s =>
    match Eng.bind (c.source a t.1.length 256 none) (fun p => c.words p 0 ((t.1.length + 7) / 8)) s with
    | (.ok ws, s1) =>
      if (bytesOfWords ws).take t.1.length = t.1 then (.ok (some t), s1) else c.treeAt a ts s1
    | (.idle, s1) => (.idle, s1)
    | (.wait k, s1) => (.wait k, s1)
    | (.ask l, s1) => (.ask l, s1)
    | (.fail _ _, _) => c.treeAt a ts s

def Cmd.extra (c : Cmd) : Eng Extra :=
  let code := cmdCode c.c.words
  if code = 0x30 then
    Eng.bind (c.record (c.w 2) 8 64) fun ws => Eng.pure ⟨fieldOf (wordAt ws 2) 24 0, wordAt ws 0, 0⟩
  else if 0x50 ≤ code then Eng.bind (c.record (c.w 5) 2 256) fun ws =>
    Eng.pure ⟨fieldOf (wordAt ws 0) 15 0, 0, fieldOf (wordAt ws 1) 9 0⟩
  else if code = 0x20 ∨ code = 0x21 then
    Eng.bind (Eng.get (·.trees)) fun ts => Eng.bind (c.treeAt (c.w 5) ts) fun t =>
      Eng.pure ⟨match t with | some t => t.1.length | none => 256, 0, 0⟩
  else Eng.pure default

/-- The ranges of a command; an empty one has no entry. -/
def cmdSpans (ws : List Word) (x : Extra) : List Span :=
  let w := wordAt ws
  let l := layoutOf ws
  let n := fieldOf (w 4) 31 0
  let run := fun k a (b : Nat × Nat) => (⟨k, a, b.1, b.2⟩ : Span)
  List.filter (fun s => s.lo != s.hi) <| match cmdCode ws with
  | 0x01 => [run .r (w 2) l.extent, Span.of .fe l.ring.1 l.ring.2]
  | 0x02 => [Span.of .fe l.ring.1 l.ring.2, run .w (w 2) l.extent]
  | 0x10 => [run .r (w 2) (elemBytes (fieldOf (w 4) 35 32) (w 2) n), run .w (w 3) (elemBytes (fieldOf (w 4) 39 36) (w 3) n)]
  | 0x20 => [Span.of .r (w 2) (32 * n), Span.of .r (w 5) x.n, Span.of .w (w 3) (32 * n), Span.of .w (w 7) (128 * n)]
  | 0x21 => [Span.of .r (w 5) x.n, Span.of .w (w 2) (128 * n), Span.of .w (w 3) (32 * n)]
  | 0x30 => [Span.of .r (w 2) 64, Span.of .r x.nodes (32 * x.n), Span.of .r (w 3) 64, Span.of .r (w 5) ((x.n + 7) / 8),
             Span.of .w (w 6) (8 * x.n), Span.of .w (w 7) (8 * fieldOf (w 0) 63 44)]
  | 0x31 => [Span.of .r (w 2) (8 * n), Span.of .w (w 6) (fieldOf (w 7) 31 0)]
  | 0x40 => [Span.of .r (w 2) (8 * n), Span.of .r (w 5) 64, Span.of .w (w 6) (fieldOf (w 7) 47 32 * fieldOf (w 7) 31 0)]
  -- a barrier's COUNT is 0
  | _ => [Span.of .r (w 2) (n * collSize ws),
             Span.of .w (w 3) (if collNoDst ws x.self then 0 else collOut ws x.n * collSize ws),
             Span.of .w (w 5) (tableBytes x.n)]

/-- The pieces of an on-core range that one core's scratchpad holds each. -/
def spadPieces (lo hi : Nat) : List (Nat × Nat) :=
  (List.range ((hi + 2 ^ 18 - 1) / 2 ^ 18 - lo / 2 ^ 18)).map fun i =>
    let k := lo / 2 ^ 18 + i
    (max lo (k * 2 ^ 18), min hi ((k + 1) * 2 ^ 18))

/-- A range's entry of the table, bytes rounded outward: in scratchpad, the part that each team holds. -/
def State.locksOf (s : State) (c : Cmd) (p : Span) : List Lock :=
  let idx := indexOf p.addr
  let outward := fun (n : Nat) => (p.lo / n * n, (p.hi + n - 1) / n * n)
  if idx < 3 then
    let b := outward 16
    let ls := (spadPieces b.1 b.2).filterMap fun x =>
      match s.onCore ⟨c.c.part, c.c.team, c.c.core, idx, x.1, 1, 0, .r, .lines, .free, false, false⟩ with
      | .ok (t, o) => some (⟨c.id, p.kind, c.c.part, none, t.id, o, o + (x.2 - x.1), true⟩ : Lock)
      | .error _ => none
    match ls with | [] => [] | l :: ls => { l with cont := false } :: ls
  else
    let b := outward 64
    [⟨c.id, p.kind, c.c.part, some idx, 0, b.1, b.2, false⟩]

/-- Entries that ranges take up. -/
def lockCount (l : List Lock) : Nat := (l.filter fun x => !x.cont).length

/-- R171: a new entry conflicts with a registered one. -/
def Lock.conflicts (new old : Lock) : Bool :=
  (match new.kind, old.kind with
   | .r, .w => true | .w, .r => true | .w, .w => true | _, _ => false)
    && old.meets ⟨new.part, new.idx, new.team, new.lo, new.hi⟩

/-- Entries of a pod's table (R171). -/
def lockTable : Nat := 128

/-! ## Acceptance (R158, R159, R171, R193) -/

/-- A command leaves the head of its queue; its push completes (R157). -/
def State.popCmd (s : State) (core : Nat) (q : EQueue) (c : QCmd) : State :=
  let s := s.setQueue core q (s.queue core q).tail
  match s.op? c.op with | some o => s.finish o | none => s

/-- R160: with SER, earlier commands of the team and queue have completed. -/
def State.serReady (s : State) (c : QCmd) : Bool :=
  !cmdSer c.words || !(s.cmds.any fun x => x.c.team == c.team && x.c.q == c.q)

def newCmd (n : Nat) (c : QCmd) (now : Nat) : Cmd :=
  { id := n, c := c, phase := .accepted, slot := 0, snap := [], status := 0, result := 0, word3 := 0, since := now,
    again := none, nodes := none, lost := [], cxl := [], hold := .free }

/-- The engine that a queue's commands go to, where several slices share it (R420): the collective engine, and in
mode 8 those of a die. -/
def State.sharedEngine (s : State) (core : Nat) (q : EQueue) : Option Nat :=
  match q with
  | .coll => if s.mode = 1 then none else some 0
  | .cut => if s.mode = 8 then some (1 + dieOf core) else none
  | .rast => if s.mode = 8 then some (5 + dieOf core) else none
  | _ => none

/-- A command that leaves its queue for its engine. -/
def State.enterCmd (s : State) (core : Nat) (q : EQueue) (x : Cmd) (locks : List Lock) : State :=
  { (s.forgetFar x).modPod (podOf core) fun p => { p with locks := p.locks ++ locks } with
    cmds := s.cmds ++ [x]
    engTurn := match s.sharedEngine core q with | some e => s.engTurn.set e x.c.part | none => s.engTurn }.popCmd core q x.c

/-- A queued command waits for the host's answer to a fault. -/
def State.holdQueued (s : State) (core : Nat) (q : EQueue) (op fault : Nat) : State :=
  s.setQueue core q ((s.queue core q).map fun c => if c.op == op then { c with fault := some fault } else c)

/-- A command accepted, its ranges registered, when they can be. One whose header or member table cannot be read
has none, and fails at once (R162); a translation fault on it holds the command in its queue. -/
def State.accept (s : State) (core : Nat) (q : EQueue) (c : QCmd) : State :=
  let (n, s1) := s.newId
  let x := newCmd n c s.clock
  -- R193: before acceptance the fibre's dirty sectors go to their homes
  let s1 := if EQueue.inPod q then s1 else s1.writeBack (podOf core) false (· == c.fib)
  match c.denied with
  | some a => s1.enterCmd core q { x with phase := .failed 0x0B a } []
  | none =>
    match x.extra s1 with
    | (.ok e, _) =>
      let locks := (cmdSpans c.words e).flatMap (s1.locksOf x)
      let held := (s1.pod (podOf core)).locks
      if lockTable < lockCount held + lockCount locks || locks.any (fun l => held.any l.conflicts) then s
      else s1.enterCmd core q { x with nodes := if cmdCode c.words = 0x30 then some e.nodes else none } locks
    | (.fail code a, _) => s1.enterCmd core q { x with phase := .failed code a } []
    | (.wait 0, _) => s
    | (.wait k, t) => { s with faults := t.faults, fresh := t.fresh }.holdQueued core q c.op k
    | (.ask l, _) => s.askFar x l
    | (.idle, _) => s

/-- The guard slot of a queued command (R159). -/
def State.slotOf (s : State) (c : QCmd) : Slot :=
  match c.slot, s.team? c.team with
  | some k, some t => NMap.get t.slots k
  | _, _ => .go

/-- The head of a core's queue would be accepted now. -/
def State.headReady (s : State) (core : Nat) (q : EQueue) (c : QCmd) : Bool :=
  c.fault.isNone && s.slotOf c == .go && s.serReady c && decide (s.cmds.length < (s.accept core q c).cmds.length)

/-- R420: a shared engine takes commands from its slices' queues round robin; a slice without a command that could be
accepted is passed over. -/
def State.turnOk (s : State) (core : Nat) (q : EQueue) (part : Nat) : Bool :=
  match s.sharedEngine core q with
  | none => true
  | some e =>
    let place := fun (p : Nat) => (p + s.mode - NMap.get s.engTurn e - 1) % s.mode
    (List.range 768).all fun k =>
      match s.queue k q with
      | [] => true
      | c :: _ => s.sharedEngine k q != some e || decide (place part ≤ place c.part) || !s.headReady k q c

/-- ENGINE_ACCEPT: the head of a queue. A `SER` command that must wait stays there unaccepted (R158; DEDUCED, log 150). -/
def execEngineAccept (core : Nat) (q : EQueue) (s : State) : Result :=
  .next <| match s.queue core q with
  | [] => s
  | c :: _ =>
    if c.fault.isSome then s
    else match s.slotOf c with
    | .pending => s
    | .drop => (s.popCmd core q c).sweep
    | .go => if s.serReady c && s.turnOk core q c.part then (s.accept core q c).sweep else s

/-! ## Completion (R161, R162, R267) -/

/-- A scope's point is the home. -/
def Cmd.home (c : Cmd) : Bool := decide (2 ≤ cmdScope c.c.words)

/-- The words of a status record (R161). -/
def Cmd.statusWords (c : Cmd) (status : Nat) (result word3 : Word) (now : Nat) : List Word :=
  [BitVec.ofNat 64 (c.c.seq % 2 ^ 48 * 2 ^ 16 + status % 256 * 256 + cmdCode c.c.words), BitVec.ofNat 64 now, result, word3]

/-- A resolution that finds the future final writes an error record (R267). -/
def State.lateResolution (s : State) (c : Cmd) (ok : Bool) : State :=
  if ok then s else s.noteError c.c.part (s.cmdQueue c) 0x10 nowhere (cmdTarget c.c.words) 0

/-- The completion target's place, with the right its signal needs. -/
def Cmd.target (c : Cmd) : Eng Place :=
  let ws := c.c.words
  let t := cmdTarget ws
  match cmdKind ws with
  | 1 =>
    let g := granuleTarget ws
    c.reach (indexOf g.1) (offsetOf g.1) (16 * g.2) 16 .w (.engine none true) g.1 .engineWrite
  | 2 =>
    Eng.bind (c.reach (indexOf t) (offsetOf t) 32 32 .a .store t .engineWrite) fun p =>
      Eng.bind (Eng.need (recordOk p.loc) 0x0C t) fun _ => Eng.pure p
  | 3 => c.reach (indexOf t) (offsetOf t) 8 8 .w .store t .engineWrite
  | _ => c.reach (indexOf t) (offsetOf t) 32 32 .w .store t .engineWrite

/-- Who writes a command's signal: at team and cluster scope the pod's slice is its point, whichever engine the command
has (R161, R181, R192). -/
def Cmd.signaller (c : Cmd) : Agent := if c.home then c.agent else { c.agent with pod := some c.pod }

/-- At system scope an expander's point is the expander (R181). -/
def State.signalThrough (s : State) (c : Cmd) (p : Place) : State :=
  match p.loc with
  | .mem a _ => if cmdScope c.c.words == 3 && spaceOf a == 1 && s.cxlUp a then s.l2Flush (secBase a) else s
  | _ => s

/-- The words of a record written as a command's signal. -/
def State.signalRecord (s : State) (c : Cmd) (p : Place) (ws : List Word) : State :=
  (ws.zipIdx.foldl (fun s (x : Word × Nat) => s.putLoc c.signaller (p.at (8 * x.2)) c.home 8 x.1.toNat false) s).signalThrough c p

/-- The signal of a command that has completed. -/
def Cmd.signalDone (c : Cmd) (p : Place) : Eng Unit := Eng.put fun s =>
  match cmdKind c.c.words with
  | 1 => match p.loc with
    | .spad t o => s.setGranules t (o / 16) (granuleTarget c.c.words).2 true
    | _ => s
  | 2 =>
    let r := s.resolve (Agent.hub c.c.part) p.loc ⟨c.result, false⟩ false
    (r.2.lateResolution c r.1).signalThrough c p
  | 3 => (s.applyAtom c.signaller p.loc c.home .add true ⟨1, false⟩ default).2.signalThrough c p
  | _ => s.signalRecord c p (c.statusWords c.status c.result c.word3 s.clock)

/-- The signal of a command that has failed: words 2 and 3 of its status record are free (log 8). -/
def Cmd.signalFailed (c : Cmd) (code : Nat) (p : Place) : Eng Unit := Eng.put fun s =>
  match cmdKind c.c.words with
  | 2 =>
    let r := s.resolve (Agent.hub c.c.part) p.loc ⟨BitVec.ofNat 64 code, false⟩ true
    (r.2.lateResolution c r.1).signalThrough c p
  | 4 =>
    let free := fun k => BitVec.ofNat 64 (Config.freeNat s.tick k)
    s.signalRecord c p (c.statusWords code (free 5) (free 6) s.clock)
  | _ => s

/-- A command's error record, and what the policy does (R162, R440). -/
def State.cmdError (s : State) (c : Cmd) (code : Nat) (addr : Word) : State :=
  let s := s.noteError c.c.part (s.cmdQueue c) code ⟨c.c.core, c.c.fib.grp, c.c.fib.lane⟩ addr
    (BitVec.ofNat 64 (cmdCode c.c.words))
  s.underFail c.c.clutch code

/-- A command leaves its engine: its range entries are released. -/
def State.endCmd (s : State) (c : Cmd) : State :=
  { s with cmds := s.cmds.filter fun x => x.id != c.id }.modPod c.pod fun p =>
    { p with locks := p.locks.filter fun l => l.cmd != c.id }

/-- Every write of a command performed at CSCOPE (R192), and at device scope where it resolves a future (R185). -/
def State.performAt (s : State) (c : Cmd) : State :=
  if c.home || cmdKind c.c.words == 2 then s.writeBack c.pod (cmdScope c.c.words == 3) (· == c.fib) else s

/-- The signal given, or what keeps it from being given. -/
def State.giveSignal (s : State) (c : Cmd) (f : Place → Eng Unit) : Ran Unit × State :=
  if cmdKind c.c.words = 0 then (.ok (), s) else Eng.bind c.target f s

def State.complete (s : State) (c : Cmd) : State :=
  match c.phase with
  | .finished =>
    let s := s.performAt c
    (match s.giveSignal c c.signalDone with
    | (.ok _, t) => t.endCmd c
    | (.fail code a, t) => (t.endCmd c).cmdError c code a
    | (.wait k, t) => t.modCmd c.id fun c => { c with hold := .fault k 0 0 }
    | (.ask l, _) => s.askFar c l
    | (.idle, t) => t)
  | .failed code addr =>
    let s := s.performAt c
    let mute := cmdKind c.c.words == 1 || cmdKind c.c.words == 3
    (match (if mute then (.ok (), s) else s.giveSignal c (c.signalFailed code)) with
    | (.ok _, t) => (t.endCmd c).cmdError c code addr
    | (.fail k a, t) => ((t.endCmd c).cmdError c code addr).cmdError c k a
    | (.wait k, t) => t.modCmd c.id fun c => { c with hold := .fault k 0 0 }
    | (.ask l, _) => s.askFar c l
    | (.idle, t) => t)
  | _ => s

/-- A write of the command to another package has no response yet (R162, R351). -/
def State.writesOut (s : State) (c : Cmd) : Bool := s.pend.any fun o => o.act == .give && o.fib == c.fib

def execEngineComplete (cmd : Nat) (s : State) : Result :=
  .next <| match s.cmd? cmd with
  | some c => if c.hold == .free && !s.writesOut c then (s.complete c).sweep else s
  | none => s

/-- A row's end: the command has done its work. -/
def Cmd.finish (result word3 : Word) (c : Cmd) : Cmd := { c with phase := .finished, result := result, word3 := word3 }

/-! ## The stream engines (R164 to R167) -/

/-- Elements of a stream. -/
def Layout.count (l : Layout) : Nat := (l.ext.take l.ndim).foldl (· * ·) 1
def Layout.slotBytes (l : Layout) : Nat := 16 * l.ssize
def Layout.slots (l : Layout) : Nat := (l.count * l.esz + l.slotBytes - 1) / l.slotBytes

/-- The address of element `j` of the stream. -/
def Layout.elemAddr (l : Layout) (j : Nat) : Option Word :=
  let idx := (List.range l.ndim).map fun d => j / ((l.ext.take d).foldl (· * ·) 1) % l.ext.getD d 1
  addrAdd l.base (((idx.zip l.str).foldl (fun n (x : Nat × Int) => n + x.1 * x.2) (0 : Int)) * l.esz)

/-- The address of a stream slot's ring slot. -/
def Layout.slotAddr (l : Layout) (m : Nat) : Word :=
  let k := if l.down then (l.first + l.scount - m % l.scount) % l.scount else (l.first + m) % l.scount
  mkAddr (indexOf l.ring.1) (l.rbase + k * l.slotBytes)

/-- FMT of a layout: 0 checks nothing. -/
def Layout.check (l : Layout) : Option Nat := if l.fmt = 0 then none else some l.fmt

/-- An element's place, aligned to its size. -/
def Cmd.element (c : Cmd) (l : Layout) (j : Nat) (write : Bool) : Eng Place :=
  match l.elemAddr j with
  | none => Eng.stop 0x0A l.base
  | some a => if write then c.sink a l.esz l.esz l.check else c.source a l.esz l.esz l.check

/-- An element's bytes, each with the poison of its word. -/
def Cmd.elemIn (c : Cmd) (l : Layout) (j : Nat) : Eng (List (Byte × Bool)) :=
  Eng.bind (c.element l j false) fun p =>
    let half := fun k n => Eng.bind (c.load (p.at k) n) fun v => Eng.pure ((leBytes n v.1).map fun b => (b, v.2))
    if l.esz = 16 then Eng.bind (half 0 8) fun a => Eng.bind (half 8 8) fun b => Eng.pure (a ++ b) else half 0 l.esz

/-- The pieces of up to 8 bytes in which a run is stored. -/
def pieces8 (n : Nat) : List (Nat × Nat) := (List.range ((n + 7) / 8)).map fun i => (8 * i, min 8 (n - 8 * i))

/-- Bytes with poison stored from a place on. -/
def Cmd.storeBytes (c : Cmd) (p : Place) (bs : List (Byte × Bool)) : Eng Unit :=
  Eng.bind (Eng.each (fun (x : Nat × Nat) =>
    let part := (bs.drop x.1).take x.2
    c.store (p.at x.1) x.2 (leNat (part.map (·.1))) (part.any (·.2))) (pieces8 bs.length)) fun _ => Eng.pure ()

/-- The elements of a stream slot. -/
def Layout.slotElems (l : Layout) (m : Nat) : List Nat :=
  let n := l.slotBytes / l.esz
  span (m * n) (min n (l.count - m * n))

/-- The begin of a stream command: BASE's buffer is checked (R165). -/
def Cmd.streamBegin (c : Cmd) : Eng (Cmd → Cmd) :=
  let l := layoutOf c.c.words
  Eng.bind (if cmdCode c.c.words = 0x01 then c.source l.base l.esz l.esz l.check else c.sink l.base l.esz l.esz l.check)
    fun _ => Eng.pure fun c => { c with phase := .running }

/-- A slot done: after the last, the command has finished. -/
def Cmd.slotDone (c : Cmd) : Cmd → Cmd := fun x =>
  let l := layoutOf c.c.words
  let x := { x with slot := c.slot + 1 }
  if c.slot + 1 < l.slots then x else x.finish (BitVec.ofNat 64 (l.count * l.esz)) 0

/-- The granules of a slot are all full, or all empty. -/
def State.slotIs (s : State) (p : Place) (n : Nat) (full : Bool) : Bool :=
  match p.loc with | .spad t o => (span (o / 16) n).all fun g => s.granuleFull t g == full | _ => false

def Cmd.fillSlot (c : Cmd) : Eng (Cmd → Cmd) :=
  let l := layoutOf c.c.words
  Eng.bind (c.sink (l.slotAddr c.slot) l.slotBytes 16 none) fun ring => fun s =>
    if !s.slotIs ring l.ssize false then (.idle, s)
    else
      Eng.bind (Eng.each (c.elemIn l) (l.slotElems c.slot)) (fun bs =>
        let bs := bs.flatten
        Eng.bind (c.storeBytes ring (bs ++ List.replicate (l.slotBytes - bs.length) (0, false))) fun _ =>
          Eng.bind (Eng.put fun s => match ring.loc with | .spad t o => s.setGranules t (o / 16) l.ssize true | _ => s) fun _ =>
            Eng.pure c.slotDone) s

def Cmd.drainSlot (c : Cmd) : Eng (Cmd → Cmd) :=
  let l := layoutOf c.c.words
  Eng.bind (c.source (l.slotAddr c.slot) l.slotBytes 16 none) fun ring => fun s =>
    if !s.slotIs ring l.ssize true then (.idle, s)
    else
      let one := fun (x : Nat × Nat) =>
        Eng.bind (c.element l x.1 true) fun p =>
          let half := fun k n => Eng.bind (c.load (ring.at (x.2 * l.esz + k)) n) fun v => c.store (p.at k) n v.1 v.2
          if l.esz = 16 then Eng.bind (half 0 8) fun _ => half 8 8 else half 0 l.esz
      Eng.bind (Eng.each one (l.slotElems c.slot).zipIdx) (fun _ =>
        Eng.bind (Eng.put fun s => match ring.loc with | .spad t o => s.setGranules t (o / 16) l.ssize false | _ => s) fun _ =>
          Eng.pure c.slotDone) s

def execSeFill (cmd : Nat) (s : State) : Result := .next (s.runCmd cmd [0x01] .accepted Cmd.streamBegin)
def execSeDrain (cmd : Nat) (s : State) : Result := .next (s.runCmd cmd [0x02] .accepted Cmd.streamBegin)
def execSeFillSlot (cmd : Nat) (s : State) : Result := .next (s.runCmd cmd [0x01] .running Cmd.fillSlot)
def execSeDrainSlot (cmd : Nat) (s : State) : Result := .next (s.runCmd cmd [0x02] .running Cmd.drainSlot)

/-! ## The chameleon (R168, R169) -/

/-- The fields of `cvx.copy`. -/
structure CvxArgs where
  src : Word
  dst : Word
  n : Nat
  sfmt : Nat
  dfmt : Nat
  dblk : Nat
  deriving Repr

def cvxOf (ws : List Word) : CvxArgs :=
  ⟨wordAt ws 2, wordAt ws 3, fieldOf (wordAt ws 4) 31 0, fieldOf (wordAt ws 4) 35 32, fieldOf (wordAt ws 4) 39 36,
    fieldOf (wordAt ws 4) 41 40⟩

/-- The bytes of one side, checked whole. -/
def Cmd.side (c : Cmd) (a : Word) (fmt n : Nat) (write : Bool) : Eng Place :=
  let b := elemBytes fmt a n
  c.reach (indexOf a) b.1 (b.2 - b.1) 0 (if write then .w else .r) (.engine (some fmt) write) a
    (if write then .engineWrite else .engineRead)

/-- Runs of up to 8 bytes, none crossing an aligned 8-byte word of the destination. -/
def wordRuns (first n : Nat) : List (Nat × Nat) :=
  let lo := first % 8
  (List.range ((lo + n + 7) / 8)).filterMap fun i =>
    let a := if i = 0 then 0 else 8 * i - lo
    let b := min n (8 * i + 8 - lo)
    if a < b then some (a, b - a) else none

/-- Both formats 0: bytes unchanged. -/
def Cmd.copyBytes (c : Cmd) (x : CvxArgs) (sp dp : Place) : Eng (Cmd → Cmd) :=
  Eng.bind (Eng.each (fun (r : Nat × Nat) =>
    Eng.bind (Eng.each (fun i => c.load (sp.at (r.1 + i)) 1) (List.range r.2)) fun bs =>
      c.store (dp.at r.1) r.2 (leNat (bs.map fun b => BitVec.ofNat 8 b.1)) (bs.any (·.2))) (wordRuns (offsetOf x.dst) x.n))
    fun _ => Eng.pure (Cmd.finish (BitVec.ofNat 64 x.n) 0)

/-- Element `e` of a side, from the place of its run's first byte: the place of its 64 KiB's element, and its
index there. -/
def elemLoc (f : EFmt) (p : Place) (first e : Nat) : Loc × Nat :=
  let i := e % EFmt.perUnit f
  (p.at (e / EFmt.perUnit f * 65536 + (EFmt.bytesOf f i 1).1 - first), i)

/-- The place of the scale byte of an element's block (R226): no descriptor's rights. -/
def Cmd.scaleLoc (c : Cmd) (f : EFmt) (l : Loc) (i : Nat) (addr : Word) : Eng Loc :=
  match l with
  | .mem _ t => fun s =>
    let va := t.scaleVa f i
    let place := fun (s : State) (leaf : Tlb) =>
      let p := pieceOf s [] 0 va leaf
      if spaceOf p.dpa = 1 ∧ !s.cxlUp p.dpa then (Ran.fail 0x1D addr, s)
      else if PageUse.scale.bad p.attr p.dpa then (Ran.fail 0x0C addr, s)
      else (Ran.ok (.mem p.dpa p.attr), s.reached c.id [p] addr)
    let r := s.lookup c.pod c.c.part va
    (match r.1 with
    | some leaf => place r.2 leaf
    | none =>
      if !r.2.walkersFree then (.wait 0, r.2)
      else
        let w := r.2.walk c.c.part va
        match w.1 with
        | .ok leaf => place (w.2.tlbFill c.pod leaf) leaf
        | .error e =>
          let k := w.2.faultOn c.c.part va t.aux 1023 (w.2.cmdQueue c) .scale e
          (.wait k.1, k.2))
  | _ => Eng.stop 0x0C addr

/-- A source element decoded exactly, with its poison (step 1 of R169). -/
def Cmd.decode (c : Cmd) (f : EFmt) (p : Place) (first e : Nat) (addr : Word) : Eng (FVal × Bool) :=
  let x := elemLoc f p first e
  let b := EFmt.bytesOf f x.2 1
  let raw := fun (n : Int) (q : Bool) =>
    Eng.bind (c.load x.1 b.2) fun v =>
      Eng.pure (FVal.shift (EFmt.value f (rawElem f v.1 b.1 x.2) (x.2 % 8)) n, v.2 || q)
  if !f.scaled then raw 0 false
  else
    Eng.bind (c.scaleLoc f x.1 x.2 addr) fun l => Eng.bind (c.load l 1) fun v =>
      if scaleOf v.1 = -128 then Eng.pure (.fin false 0 0, v.2) else raw (scaleOf v.1) v.2

/-- A block converted: its shift and its elements, with the poison of each source. -/
def convertBlock (f : EFmt) (vs : List (FVal × Bool)) : Int × List (Converted × Bool) :=
  let n := if f.scaled then EFmt.blockShift f (vs.map (·.1)) else 0
  (n, vs.map fun v => ((if n = -128 then ⟨0, false, false⟩ else EFmt.convert f (FVal.shift v.1 (-n))), v.2))

/-- Elements of an aligned 8-byte word. -/
def EFmt.perWord (f : EFmt) : Nat := match f with | .e3m2 => 10 | .e2m3 => 10 | _ => 64 / EFmt.bits f

/-- A destination word's elements written: with a poisoned source the word is poisoned, and when all of it is
written clean its poison goes. -/
def Cmd.putElems (c : Cmd) (f : EFmt) (p : Place) (first e : Nat) (vs : List (Converted × Bool)) : Eng Unit :=
  let pois := vs.any (·.2)
  let whole := vs.length == EFmt.perWord f
  Eng.bind (Eng.each (fun (x : (Converted × Bool) × Nat) =>
    let l := elemLoc f p first (e + x.2)
    let skip := EFmt.bitPos f l.2 % 8
    match l.1 with
    | .mem a t =>
      let w := secBits (8 * (a % 64) + skip) (EFmt.bits f) x.1.1.bits pois
      let bit := wordMask (a % 64) 1
      Eng.put fun s => s.writeSec c.agent a t false { w with clean := if whole && !pois then bit else 0 }
    | _ => Eng.pure ()) vs.zipIdx) fun _ => Eng.pure ()

/-- A list cut into runs of the first length, then of another. -/
def cutRuns (k n : Nat) (l : List α) : List (Nat × List α) :=
  (if k = 0 then [] else [(0, l.take k)])
    ++ (List.range ((l.length - k + n - 1) / n)).map fun i => (k + i * n, (l.drop (k + i * n)).take n)

def Cmd.convert (c : Cmd) (x : CvxArgs) (sf df : EFmt) (sp dp : Place) : Eng (Cmd → Cmd) :=
  let sfirst := (elemBytes x.sfmt x.src x.n).1
  let dfirst := (elemBytes x.dfmt x.dst x.n).1
  let len := blockLen x.dblk
  let d0 := offsetOf x.dst
  Eng.bind (Eng.each (fun i => c.decode sf sp sfirst (offsetOf x.src + i) x.src) (List.range x.n)) fun vs =>
    let blocks := (cutRuns 0 (if df.scaled then len else 1) vs).map fun b => (b.1, convertBlock df b.2)
    let scales := if df.scaled then blocks.map fun b => (b.1, b.2.1) else []
    Eng.bind (Eng.each (fun (b : Nat × Int) =>
      let l := elemLoc df dp dfirst (d0 + b.1)
      Eng.bind (c.scaleLoc df l.1 l.2 x.dst) fun l => Eng.pure (l, b.2)) scales) fun places =>
    Eng.bind (Eng.each (fun (b : Loc × Int) => c.store b.1 1 (b.2 % 256).toNat false) places) fun _ =>
    let outs := blocks.flatMap fun b => b.2.2
    let per := EFmt.perWord df
    let lead := (per - d0 % EFmt.perUnit df % per) % per
    Eng.bind (Eng.each (fun (r : Nat × List (Converted × Bool)) => c.putElems df dp dfirst (d0 + r.1) r.2)
      (cutRuns (min lead outs.length) per outs)) fun _ =>
    let nans := (outs.filter fun o => o.1.nan).length
    let sats := (outs.filter fun o => o.1.sat).length
    Eng.pure (Cmd.finish (BitVec.ofNat 64 x.n) (BitVec.ofNat 64 (nans * 2 ^ 32 + sats)))

def Cmd.copy (c : Cmd) : Eng (Cmd → Cmd) :=
  let x := cvxOf c.c.words
  let df := EFmt.ofCode? x.dfmt
  let scaled := match df with | some f => f.scaled | none => false
  let len := blockLen x.dblk
  Eng.bind (Eng.need (!scaled || (offsetOf x.dst % len == 0 && x.n % len == 0)) 0x0F x.dst) fun _ =>
  Eng.bind (c.side x.src x.sfmt x.n false) fun sp =>
  Eng.bind (c.side x.dst x.dfmt x.n true) fun dp =>
  Eng.bind (Eng.need ((if dp.ps.isEmpty then x.dblk == 0 else dp.ps.all fun p => p.attr.blk == x.dblk)) 0x0C x.dst) fun _ =>
  match EFmt.ofCode? x.sfmt, df with
  | some sf, some df => c.convert x sf df sp dp
  | _, _ => c.copyBytes x sp dp

def execCvxCopy (cmd : Nat) (s : State) : Result := .next (s.runCmd cmd [0x10] .accepted Cmd.copy)

end Sys2Proof.Machine
end

