-- ==== Sys2Proof/Machine/Coll.lean ====
section
/-! DEFINITION. The collective engine (R321 to R324, R395 to R398). The messages of members in other
packages are inputs of COLL_COMPLETE (log 14): word 0 VERSION in [63:32] and SEQ, word 1 the sender's (PART, PKG) in
[12:0] and the receiver's as the sender's table names it in [28:16] (R420), words 2 to 17 the sender's LIVE set, then
its elements, one to a word, then a mask of its poisoned elements. Members in other slices of this package are commands
of this state, and read from it. -/

namespace Sys2Proof.Machine

/-! ## The member table (R322) -/

structure CollArgs where
  code : Nat
  op : Nat
  dt : Nat
  n : Nat
  tout : Nat
  root : Nat
  seq : Nat
  deriving DecidableEq, Repr

def collOf (ws : List Word) : CollArgs :=
  let t := fieldOf (wordAt ws 6) 63 32
  ⟨cmdCode ws, fieldOf (wordAt ws 0) 23 20, fieldOf (wordAt ws 0) 27 24, fieldOf (wordAt ws 4) 31 0,
    if t = 0 then 500 else t, fieldOf (wordAt ws 6) 21 12, fieldOf (wordAt ws 6) 11 0⟩

/-- The first 24 words of a member table, then its entries, two to a word. -/
def tabVersion (t : List Word) : Nat := fieldOf (wordAt t 0) 63 32
def tabN (t : List Word) : Nat := fieldOf (wordAt t 0) 15 0
def tabSelf (t : List Word) : Nat := fieldOf (wordAt t 1) 9 0
def bitAt (ws : List Word) (first r : Nat) : Bool := (wordAt ws (first + r / 64)).getLsbD (r % 64)
def tabLive (t : List Word) : List Nat := (List.range (tabN t)).filter (bitAt t 8)
def tabEntry (t : List Word) (r : Nat) : Nat := fieldOf (wordAt t (32 + r / 2)) (32 * (r % 2) + 31) (32 * (r % 2))
def tabPkg (t : List Word) (r : Nat) : Nat := tabEntry t r % 1024
def tabEntries (t : List Word) : List Nat := (List.range (tabN t)).map (tabEntry t)

/-- Every other bit of the table is 0, and its numbers are in range. -/
def tabOk (t : List Word) : Bool :=
  fieldOf (wordAt t 0) 31 16 == 0 && decide (2 ≤ tabN t) && decide (tabN t ≤ 1024) && fieldOf (wordAt t 1) 63 10 == 0
    && decide (tabSelf t < tabN t) && (List.range 6).all (fun i => wordAt t (2 + i) == 0)
    && (List.range 1024).all (fun r => decide (r < tabN t) || !bitAt t 8 r)
    && (List.range 8).all (fun i => wordAt t (24 + i) == 0) && (List.range (tabN t)).all (fun r => decide (tabEntry t r < 2 ^ 13))

/-- The table read by the hub at device scope; it lies in local HBM. -/
def Cmd.table (c : Cmd) : Eng (Place × List Word) :=
  let a := c.w 5
  Eng.bind (c.source a 0x100 256 none) fun p =>
  Eng.bind (Eng.need (match p.loc with | .mem d _ => spaceOf d == 0 | _ => false) 0x0C a) fun _ =>
  Eng.bind (c.words p 0 4) fun h =>
  let n := min (tabN h) 1024
  Eng.bind (c.source a (tableBytes n) 256 none) fun p =>
  Eng.bind (c.words p 0 (32 + (n + 1) / 2)) fun t => Eng.bind (Eng.need (tabOk t) 0x16 a) fun _ => Eng.pure (p, t)

/-! ## The begin of a collective: the table and this member's contribution -/

/-- This member contributes elements. -/
def CollArgs.gives (x : CollArgs) (self : Nat) : Bool := x.code != 0x52 && (x.code != 0x51 || x.root == self)

/-- The words a command keeps from its begin: the table's first 24 words, its entries, then its elements and their
poison. -/
def Cmd.kept (c : Cmd) : List Word :=
  (List.range (c.snap.length / 8)).map fun i => BitVec.ofNat 64 (leNat ((c.snap.drop (8 * i)).take 8))

/-- A set L of a collective that this rank has still to take. -/
def CollFix.of (f : CollFix) (t : List Word) (seq : Nat) : Bool :=
  f.version == tabVersion t && f.seq == seq && f.entries == tabEntries t && f.left.contains (tabSelf t)

/-- A rank has taken L; the last of this package's takes the record away. -/
def State.collTaken (s : State) (t : List Word) (seq : Nat) : State :=
  { s with colls := (s.colls.map fun (f : CollFix) =>
      if f.of t seq then { f with left := f.left.filter fun r => r != tabSelf t } else f).filter fun f => !f.left.isEmpty }

/-- A member begins: what its earlier command of the same numbers left behind is another collective's. A rank outside L
was declared lost and has that to learn (R396). -/
def State.collAnew (s : State) (t : List Word) (seq : Nat) : State :=
  match s.colls.find? fun f => f.of t seq with
  | some f => if f.ranks.contains (tabSelf t) then s.collTaken t seq else s
  | none => s

def Cmd.collBegin (c : Cmd) : Eng (Cmd → Cmd) :=
  let x := collOf c.c.words
  let es := collSize c.c.words
  Eng.bind c.table fun t =>
  -- pushed before a completion gave the table its VERSION (R398)
  Eng.bind (Eng.need (!c.c.stale) 0x16 (c.w 5)) fun _ =>
  let self := tabSelf t.2
  -- a limit of R321 that only the table shows (R320)
  Eng.bind (Eng.need (!collNoDst c.c.words self || c.w 3 == 0) 0x16 (c.w 3)) fun _ =>
  Eng.bind (Eng.put fun s => s.collAnew t.2 x.seq) fun _ =>
  Eng.bind (if x.gives self then
      Eng.bind (c.source (c.w 2) (x.n * es) es none) fun p =>
        Eng.each (fun i => c.load (p.at (es * i)) es) (List.range x.n)
    else Eng.pure []) fun vs =>
  let mask := (List.range ((vs.length + 63) / 64)).map fun k =>
    BitVec.ofNat 64 ((List.range 64).foldl (fun m i => m + if (vs.getD (64 * k + i) (0, false)).2 then 2 ^ i else 0) 0)
  let data := vs.map fun (v : Nat × Bool) => BitVec.ofNat 64 v.1
  -- entries are padded to 512 words, so that the elements begin at word 544
  let tab := (List.range 544).map fun i => wordAt t.2 i
  Eng.pure fun c => { c with phase := .running, snap := bytesOfWords (tab ++ data ++ mask) }

def execCollAllred (cmd : Nat) (s : State) : Result := .next (s.runCmd cmd [0x50] .accepted Cmd.collBegin)
def execCollBcast (cmd : Nat) (s : State) : Result := .next (s.runCmd cmd [0x51] .accepted Cmd.collBegin)
def execCollBar (cmd : Nat) (s : State) : Result := .next (s.runCmd cmd [0x52] .accepted Cmd.collBegin)
def execCollGath (cmd : Nat) (s : State) : Result := .next (s.runCmd cmd [0x53] .accepted Cmd.collBegin)

/-! ## The reduction (R323, R395) -/

/-- One call of the operation on two elements. -/
def collStep (x : CollArgs) (a b : Nat) : Nat :=
  let int := fun (v : Nat) => if x.dt = 0 then toSigned 64 v else (v : Int)
  let f := fpFmt (x.dt == 3)
  if 2 ≤ x.dt then
    match x.op with
    | 0 => (f.add .rn false a b).1
    | 1 => (f.minMax false true false a b).1
    | _ => (f.minMax true true false a b).1
  else
    match x.op with
    | 0 => (a + b) % 2 ^ 64
    | 1 => if int b < int a then b else a
    | 2 => if int a < int b then b else a
    | 3 => a &&& b
    | 4 => a ||| b
    | _ => a ^^^ b

/-- One level of the tree: neighbours combined, an unpaired last value passed up. -/
def treeLevel (x : CollArgs) : List Nat → List Nat
  | a :: b :: l => collStep x a b :: treeLevel x l
  | l => l

/-- Levels until one value is left. -/
def treeFold (x : CollArgs) : Nat → List Nat → Nat
  | 0, l => l.headD 0
  | n + 1, l => treeFold x n (treeLevel x l)

/-- A member's message, its own included. -/
structure CollMsg where
  rank : Nat
  head : Word
  live : List Word
  data : List Word
  deriving Repr

def CollMsg.elem (m : CollMsg) (i : Nat) : Nat := (wordAt m.data i).toNat
def CollMsg.pois (m : CollMsg) (n i : Nat) : Bool := bitAt m.data n i

/-- Elements a member's DST receives: value and poison. -/
def collResult (x : CollArgs) (self : Nat) (ms : List CollMsg) : List (Nat × List (Nat × Bool)) :=
  match x.code with
  | 0x50 => [(0, (List.range x.n).map fun i =>
      (treeFold x ms.length (ms.map fun m => m.elem i), ms.any fun m => m.pois x.n i))]
  | 0x51 => match ms.find? fun m => m.rank == x.root with
    | some m => [(0, (List.range x.n).map fun i => (m.elem i, m.pois x.n i))]
    | none => []
  | 0x53 =>
    if x.root = self then ms.map fun m => (m.rank * x.n, (List.range x.n).map fun i => (m.elem i, m.pois x.n i)) else []
  | _ => []

/-! ## Completion (R324, R396 to R398) -/

/-- The package of a rank is lost to the domain; this one is not. -/
def State.rankLost (s : State) (t : List Word) (r : Nat) : Bool := tabPkg t r != s.pkg && s.pkgLost (tabPkg t r)

/-- A rank is lost (R324, R396), given the messages of the members that pushed. -/
def State.collLost (s : State) (c : Cmd) (t : List Word) (ms : List CollMsg) (r : Nat) : Bool :=
  c.lost.contains r || s.rankLost t r || ms.any fun m => !bitAt m.live 0 r

/-- A coordinator that this member takes no result from: itself declared lost (R397). -/
def State.collDeaf (s : State) (c : Cmd) (t : List Word) (ranks : List Nat) : Bool :=
  ranks.any c.lost.contains || (match ranks.head? with | some r => s.rankLost t r | none => false)

/-- A command of a member table that was pushed before a new VERSION (R398). -/
def QCmd.aged (x : QCmd) (part : Nat) (table : Word) : QCmd :=
  if x.part == part && decide (0x50 ≤ cmdCode x.words) && wordAt x.words 5 == table then { x with stale := true } else x

/-- A member table has a new VERSION: it applies to commands pushed from now on. -/
def State.ageColl (s : State) (part : Nat) (table : Word) : State :=
  { s with
    cmds := s.cmds.map fun (x : Cmd) => { x with c := x.c.aged part table }
    cores := s.cores.map fun (k : Nat × Core) => (k.1, { k.2 with
      queues := k.2.queues.map fun (q : Nat × List QCmd) => (q.1, q.2.map fun x => x.aged part table) })
    teams := s.teams.map fun (t : Team) => { t with qsaved := t.qsaved.map fun x => x.aged part table } }

/-- A command's (PART, PKG). -/
def State.memberId (s : State) (c : Cmd) : Nat := c.c.part * 1024 + s.pkg

/-- The numbers that a message carries (R322). -/
def Cmd.collHead (c : Cmd) : Word := BitVec.ofNat 64 (tabVersion c.kept * 2 ^ 32 + (collOf c.c.words).seq)

/-- The message of a command to a rank of its own table. -/
def Cmd.message (c : Cmd) (id r : Nat) : List Word :=
  c.collHead :: BitVec.ofNat 64 (id + tabEntry c.kept r * 2 ^ 16) :: (c.kept.drop 8).take 16 ++ c.kept.drop 544

/-- The commands that a slice of this package runs as a rank of a command's table: each table names the other
(R420). -/
def State.locals (s : State) (c : Cmd) (r : Nat) : List Cmd :=
  s.cmds.filter fun d => d.id != c.id && d.phase == .running && decide (0x50 ≤ cmdCode d.c.words) && tabSelf d.kept == r
    && tabEntry c.kept r == s.memberId d && tabEntry d.kept (tabSelf c.kept) == s.memberId c
    && (collOf d.c.words).seq == (collOf c.c.words).seq

/-- What completion needs of a message's elements has arrived whole. -/
def CollMsg.whole (x : CollArgs) (self : Nat) (m : CollMsg) : Bool :=
  let need := match x.code with
    | 0x50 => true
    | 0x51 => m.rank == x.root
    | 0x53 => x.root == self
    | _ => false
  !need || decide (x.n ≤ m.data.length)

def collMsg (r : Nat) (ws : List Word) : CollMsg := ⟨r, wordAt ws 0, (ws.drop 2).take 16, ws.drop 18⟩

/-- The message of a rank: this member's own; the one that L was fixed with; a command of this package; or one that
arrived from another package, where the two name each other (R420). -/
def State.messageOf (s : State) (c : Cmd) (fix : List (Nat × List Word)) (parts : List (Nat × List Word)) (r : Nat) :
    Option CollMsg :=
  let self := tabSelf c.kept
  let names := BitVec.ofNat 64 (tabEntry c.kept r + s.memberId c * 2 ^ 16)
  if r = self then some (collMsg r (c.message (s.memberId c) r))
  else
    match (fix.find? fun p => p.1 == r).map fun p => collMsg r p.2 with
    | some m => if m.whole (collOf c.c.words) self then some m else (parts.find? fun p => p.1 == r && wordAt p.2 1 == names).map fun p => collMsg r p.2
    | none =>
      if tabPkg c.kept r = s.pkg then (s.locals c r).head?.map fun d => collMsg r (d.message (s.memberId d) self)
      else (parts.find? fun p => p.1 == r && wordAt p.2 1 == names).map fun p => collMsg r p.2

/-- L is fixed (R396): members in other slices of this package take the same. -/
def State.fixColl (s : State) (c : Cmd) (ranks : List Nat) (ms : List CollMsg) : State :=
  let t := c.kept
  let seq := (collOf c.c.words).seq
  if s.colls.any fun f => f.of t seq then s.collTaken t seq
  else
    let left := (tabLive t).filter fun r => r != tabSelf t && tabPkg t r == s.pkg
    if left.isEmpty then s
    else
      { s with colls := s.colls ++
          [⟨tabVersion t, seq, tabEntries t, ranks, left, ms.map fun m => (m.rank, m.head :: 0 :: m.live ++ m.data)⟩] }

/-- R322: a mismatch fails the command at every member; those of this package fail with it. -/
def State.collMismatch (s : State) (c : Cmd) : State :=
  { s with cmds := s.cmds.map fun (d : Cmd) =>
      if (tabLive c.kept).any fun r => (s.locals c r).any fun x => x.id == d.id then { d with phase := .failed 0x16 (d.w 5) }
      else d }

/-- Ranks rise. -/
def rising : List Nat → Bool
  | a :: b :: l => decide (a < b) && rising (b :: l)
  | _ => true

/-- The new table of a survivor (R324). -/
def Cmd.newTable (c : Cmd) (p : Place) (t : List Word) (ranks : List Nat) : Eng Unit :=
  let w0 := BitVec.ofNat 64 ((tabVersion t + 1) % 2 ^ 32 * 2 ^ 32 + tabN t)
  let live := (List.range 16).map fun k =>
    BitVec.ofNat 64 ((ranks.filter fun r => r / 64 == k).foldl (fun m r => m + 2 ^ (r % 64)) 0)
  Eng.bind (c.store (p.at 0) 8 w0.toNat false) fun _ =>
    Eng.bind (Eng.each (fun (x : Word × Nat) => c.store (p.at (0x40 + 8 * x.2)) 8 x.1.toNat false) live.zipIdx)
      fun _ => Eng.put fun s => s.ageColl c.c.part (c.w 5)

def Cmd.collEnd (ranks : List Nat) (parts : List (Nat × List Word)) (c : Cmd) : Eng (Cmd → Cmd) :=
  let x := collOf c.c.words
  let t := c.kept
  let self := tabSelf t
  let live := tabLive t
  let es := collSize c.c.words
  Eng.bind (Eng.get fun (s : State) => s) fun (s : State) =>
  let fix := s.colls.find? fun f => f.of t x.seq
  -- the set that the coordinator fixed and sent, the same at every member of this package
  let ranks := match fix with | some f => f.ranks | none => ranks
  let sent := match fix with | some f => f.parts | none => []
  let first := fix.isNone && ranks.head? == some self
  let gone := live.filter fun r => !ranks.contains r
  let ms := ranks.filterMap (s.messageOf c sent parts)
  let all := live.filterMap (s.messageOf c sent parts)
  if !rising ranks || !(ranks.all live.contains) then Eng.later
  else if fix.isNone && !first && s.collDeaf c t ranks then Eng.later
  else if !live.contains self || (!ranks.contains self && !ranks.isEmpty) then
    Eng.bind (Eng.put fun s => s.collTaken t x.seq) fun _ => Eng.stop 0x1E (c.w 5)
  else if ms.length != ranks.length then Eng.later
  else if ms.any fun m => m.head != c.collHead then
    Eng.bind (Eng.put fun s => s.collMismatch c) fun _ => Eng.stop 0x16 (c.w 5)
  else if first && s.collLost c t all self then Eng.stop 0x1E (c.w 5)
  else if first && !(gone.all (s.collLost c t all) && ranks.all fun r => !s.collLost c t all r) then Eng.later
  -- a coordinator of this package fixes L itself
  else if fix.isNone && !first && ranks.head?.any (fun r => tabPkg t r == s.pkg) then Eng.later
  else if ranks.isEmpty || !(ms.all (CollMsg.whole x self)) then Eng.later
  else
    Eng.bind (Eng.put fun s => s.fixColl c ranks ms) fun _ =>
    Eng.bind c.table fun now =>
    Eng.bind (Eng.need (tabVersion now.2 == tabVersion t) 0x16 (c.w 5)) fun _ =>
    Eng.bind (Eng.need (!(x.code == 0x51 || x.code == 0x53) || ranks.contains x.root) 0x1E (c.w 5)) fun _ =>
    let out := collResult x self ms
    Eng.bind (if out.isEmpty then Eng.pure ()
      else Eng.bind (c.sink (c.w 3) (collOut c.c.words (tabN t) * es) es none) fun d =>
        Eng.bind (Eng.each (fun (r : Nat × List (Nat × Bool)) =>
          Eng.each (fun (e : (Nat × Bool) × Nat) => c.store (d.at (es * (r.1 + e.2))) es e.1.1 e.1.2) r.2.zipIdx) out)
          fun _ => Eng.pure ()) fun _ =>
    Eng.bind (if gone.isEmpty then Eng.pure ()
      else Eng.bind (c.sink (c.w 5) 0x100 256 none) fun p => c.newTable p t ranks) fun _ =>
    let version := if gone.isEmpty then tabVersion t else (tabVersion t + 1) % 2 ^ 32
    let mask := (ranks.filter (· < 64)).foldl (fun m r => m + 2 ^ r) 0
    Eng.pure fun c =>
      { c.finish (BitVec.ofNat 64 (version * 2 ^ 32 + ranks.length)) (BitVec.ofNat 64 mask) with
        status := if gone.isEmpty then 0 else 0x1E }

def execCollComplete (cmd : Nat) (ranks : List Nat) (parts : List (Nat × List Word)) (s : State) : Result :=
  .next (s.runCmd cmd [0x50, 0x51, 0x52, 0x53] .running (Cmd.collEnd ranks parts))

/-- The rank that coordinates, as a member sees it: the lowest live rank not declared lost. -/
def State.coordinator (s : State) (c : Cmd) : Option Nat :=
  let t := c.kept
  (tabLive t).find? fun r => !c.lost.contains r && !s.rankLost t r

/-- Some microseconds have passed since a cycle, or since the command's collective began again. -/
def State.sinceCmd (s : State) (c : Cmd) (first us : Nat) : Bool := decide (c.again.getD first + cyclesOf us ≤ s.clock)

/-- R396: within TOUT of the coordinator's acceptance a member's contribution has not arrived whole. -/
def execCollMemberTimeout (cmd : Nat) (rank : Nat) (s : State) : Result :=
  .next <| s.runCmd cmd [0x50, 0x51, 0x52, 0x53] .running fun c =>
    let t := c.kept
    Eng.bind (Eng.get fun (s : State) => s) fun (s : State) =>
    if s.coordinator c == some (tabSelf t) && rank != tabSelf t && (tabLive t).contains rank && !c.lost.contains rank
        && s.sinceCmd c c.since (collOf c.c.words).tout then
      Eng.pure fun c => { c with lost := c.lost ++ [rank] }
    else Eng.later

/-- R397: no result within 2 × TOUT of this member's push; the collective begins again under the next rank. -/
def execCollCoordinatorLost (cmd : Nat) (s : State) : Result :=
  .next <| s.runCmd cmd [0x50, 0x51, 0x52, 0x53] .running fun c =>
    Eng.bind (Eng.get fun (s : State) => s) fun (s : State) =>
    match s.coordinator c with
    | none => Eng.later
    | some r =>
      if r != tabSelf c.kept && s.sinceCmd c c.c.at_ (2 * (collOf c.c.words).tout) then
        Eng.pure fun c => { c with lost := c.lost ++ [r], again := some s.clock }
      else Eng.later

end Sys2Proof.Machine
end

