-- ==== Sys2Proof/Machine/Cut.lean ====
section
/-! DEFINITION. Cluster blocks and cut records (R328, R329), the cut-selection engine (R325 to R327, R399 to R402)
and the box tree (R330). -/

namespace Sys2Proof.Machine

/-! ## FP32 steps, each rounded to nearest even -/

def f32Add (a b : Nat) : Nat := (binary32.add .rn false a b).1
def f32Sub (a b : Nat) : Nat := (binary32.sub .rn false a b).1
def f32Mul (a b : Nat) : Nat := (binary32.mul .rn false a b).1
def f32Div (a b : Nat) : Nat := (binary32.div .rn false a b).1
def f32Sqrt (a : Nat) : Nat := (binary32.sqrt .rn false a).1
def f32Le (a b : Nat) : Bool := (binary32.cmp .le false a b).1
def f32Val (a : Nat) : FVal := binary32.val false a

def FVal.isFin : FVal → Bool
  | .fin _ _ _ => true
  | _ => false

/-- A value below zero. -/
def FVal.below : FVal → Bool
  | .fin s m _ => s && m != 0
  | .inf s => s
  | _ => false

/-! ## Cut records and cluster blocks -/

/-- A cut record (R329): BLK, FB and ID. -/
structure CutRec where
  blk : Nat
  fb : Bool
  id : Nat
  deriving DecidableEq, Repr, Inhabited

def CutRec.word (r : CutRec) : Word := BitVec.ofNat 64 (r.blk * 2 ^ 32 + (if r.fb then 2 ^ 25 else 0) + r.id)
def CutRec.ofWord (w : Word) : CutRec := ⟨fieldOf w 63 32, w.getLsbD 25, fieldOf w 24 0⟩

/-- The first COUNT records of a cut list. -/
def Cmd.cutList (c : Cmd) (a : Word) (n : Nat) : Eng (List CutRec) :=
  Eng.bind (c.record a n 8) fun ws =>
  Eng.bind (Eng.need (ws.all fun w => fieldOf w 31 26 == 0) 0x16 a) fun _ => Eng.pure (ws.map CutRec.ofWord)

/-- A cluster block (R328): its centre as FP32 bits, its vertices' q values and its triangles. -/
structure Block where
  centre : List Nat
  qexp : Int
  verts : List (List Int)
  tris : List (List Nat)
  deriving Repr, Inhabited

/-- The number in `n` bytes from byte `o`. -/
def byteNat (bs : List Byte) (o n : Nat) : Nat := leNat ((bs.drop o).take n)

def blockBytes (bs : List Byte) : Nat := 0x20 + 6 * byteNat bs 0x11 1 + 3 * byteNat bs 0x12 1

def Block.ofBytes (bs : List Byte) : Block :=
  let nv := byteNat bs 0x11 1
  { centre := (List.range 3).map fun i => byteNat bs (4 * i) 4
    qexp := toSigned 8 (byteNat bs 0x10 1)
    verts := (List.range nv).map fun v => (List.range 3).map fun i => toSigned 16 (byteNat bs (0x20 + 6 * v + 2 * i) 2)
    tris := (List.range (byteNat bs 0x12 1)).map fun t =>
      let w := byteNat bs (0x20 + 6 * nv + 3 * t) 3
      [w % 64, w / 64 % 64, w / 4096 % 64] }

/-- The limits of a block's head, and of its indices (R320, R328), and its bytes that are 0 (log 152). -/
def blockHeadOk (bs : List Byte) : Bool :=
  decide (3 ≤ byteNat bs 0x11 1) && decide (byteNat bs 0x11 1 ≤ 64) && decide (1 ≤ byteNat bs 0x12 1)
    && decide (byteNat bs 0x12 1 ≤ 96) && decide (blockBytes bs ≤ 1024) && byteNat bs 0x13 1 == 0 && byteNat bs 0x18 8 == 0
def Block.ok (b : Block) : Bool := b.tris.all fun t => t.all fun i => decide (i < b.verts.length)

/-- The block of a cut record: its bytes, read with the limits checked. -/
def Cmd.block (c : Cmd) (blocks : Word) (r : CutRec) : Eng (List Byte × Block) :=
  match addrAdd blocks (64 * r.blk) with
  | none => Eng.stop 0x0A blocks
  | some a =>
    Eng.bind (c.record a 4 64) fun h =>
    let hb := bytesOfWords h
    Eng.bind (Eng.need (blockHeadOk hb) 0x16 a) fun _ =>
    Eng.bind (c.source a (blockBytes hb) 64 none) fun p =>
    Eng.bind (c.words p 0 ((blockBytes hb + 7) / 8)) fun ws =>
    let bs := (bytesOfWords ws).take (blockBytes hb)
    let b := Block.ofBytes bs
    Eng.bind (Eng.need b.ok 0x16 a) fun _ => Eng.pure (bs, b)

/-- A vertex's position, FP32, each step rounded (R403). -/
def Block.pos (b : Block) (v : Nat) : List Nat :=
  (b.centre.zip (b.verts.getD v [])).map fun (x : Nat × Int) =>
    f32Add x.1 (binary32.roundInt .rn false false x.2 b.qexp).1

/-! ## The graph (R325 to R327, R399) -/

structure Graph where
  nodes : Word
  n : Nat
  roots : Nat
  deriving Repr

def Cmd.graph (c : Cmd) : Eng Graph :=
  let a := c.w 2
  Eng.bind (c.record a 8 64) fun ws =>
  let g : Graph := ⟨wordAt ws 0, fieldOf (wordAt ws 2) 24 0, fieldOf (wordAt ws 3) 24 0⟩
  let ok := fieldOf (wordAt ws 1) 5 0 == 0 && fieldOf (wordAt ws 2) 63 25 == 0 && fieldOf (wordAt ws 3) 63 25 == 0
    && (ws.drop 4).all (· == 0) && decide (1 ≤ g.n) && decide (1 ≤ g.roots) && decide (g.roots ≤ g.n)
  Eng.bind (Eng.need ok 0x16 a) fun _ => Eng.pure g

structure ViewRec where
  eye : List Nat
  k : Nat
  dmin : Nat
  deriving Repr

/-- The view record (R327), with the checks that R399 lists for it, and its bytes that are 0 (log 152). -/
def Cmd.viewRec (c : Cmd) : Eng ViewRec :=
  let a := c.w 3
  Eng.bind (c.record a 8 8) fun ws =>
  let bs := bytesOfWords ws
  let v : ViewRec := ⟨(List.range 3).map fun i => byteNat bs (4 * i) 4, byteNat bs 12 4, byteNat bs 16 4⟩
  let ok := (f32Val v.k).isFin && !(f32Val v.k).below && fpPositive v.dmin && (bs.drop 0x14).all (· == 0)
  Eng.bind (Eng.need ok 0x16 a) fun _ => Eng.pure v

/-- A graph node (R326). -/
structure Node where
  id : Nat
  blk : Nat
  first : Nat
  nchild : Nat
  err : Nat
  level : Nat
  parent : Nat
  sphere : List Nat
  deriving Repr, Inhabited

def Cmd.node (c : Cmd) (g : Graph) (i : Nat) : Eng Node :=
  match addrAdd g.nodes (32 * i) with
  | none => Eng.stop 0x0A g.nodes
  | some a =>
    Eng.bind (c.record a 4 8) fun ws =>
    let h := fun k => fieldOf (wordAt ws (k / 2)) (32 * (k % 2) + 31) (32 * (k % 2))
    Eng.pure ⟨i, h 0, h 1 / 128, h 1 % 128, h 2, h 3 / 2 ^ 25, h 3 % 2 ^ 25, [h 4, h 5, h 6, h 7]⟩

/-- The checks of a reached node, of a root or under its parent (R399). -/
def Node.ok (g : Graph) (x : Node) (parent : Option Node) : Bool :=
  let err := f32Val x.err
  (x.nchild == 0 || (decide (x.id < x.first) && decide (x.first + x.nchild ≤ g.n)))
    && err.isFin && !err.below
    && !(x.sphere.any fun b => (f32Val b).isNan) && !(f32Val (x.sphere.getD 3 0)).below
    && match parent with
      | none => x.parent == 0x1FFFFFF && x.level == 0
      | some p => x.parent == p.id && x.level == p.level + 1 && f32Le x.err p.err

/-- The projected error of a node (R400). -/
def ViewRec.project (v : ViewRec) (x : Node) : Nat :=
  let d := (v.eye.zip x.sphere).map fun (p : Nat × Nat) => f32Sub p.1 p.2
  let sq := d.map fun a => f32Mul a a
  let q := f32Add (f32Add (sq.getD 0 0) (sq.getD 1 0)) (sq.getD 2 0)
  let d := f32Sub (f32Sqrt q) (x.sphere.getD 3 0)
  let d := if f32Le v.dmin d then d else v.dmin
  f32Div (f32Mul v.k x.err) d

/-! ## The visit and the cut (R401) -/

/-- A visited group: its parent, and its members with whether each is selected. -/
structure Visit where
  parent : Option Node
  members : List (Node × Bool)
  deriving Repr

/-- Groups yet to visit: parent, first node, size. -/
abbrev Work := List (Option Node × Nat × Nat)

/-- The groups visited from the roots downward; a node reached twice fails the command. -/
def Cmd.visit (c : Cmd) (g : Graph) (v : ViewRec) (tau : Nat) : Nat → Work → List Nat → Eng (List Visit)
  | 0, _, _ => Eng.pure []
  | _ + 1, [], _ => Eng.pure []
  | fuel + 1, (parent, first, n) :: work, seen =>
    let ids := span first n
    Eng.bind (Eng.need (!(ids.any seen.contains)) 0x16 (c.w 2)) fun _ =>
    Eng.bind (Eng.each (fun i =>
      Eng.bind (c.node g i) fun x => Eng.bind (Eng.need (x.ok g parent) 0x16 (c.w 2)) fun _ =>
        Eng.pure (x, x.nchild == 0 || f32Le (v.project x) tau)) ids) fun ms =>
    let down := (ms.filter fun m => !m.2).map fun m => (some m.1, m.1.first, m.1.nchild)
    Eng.bind (c.visit g v tau fuel (work ++ down) (ids ++ seen)) fun vs => Eng.pure (⟨parent, ms⟩ :: vs)

/-- What the groups below a node come to: its group's cut records, or the group abandoned. -/
inductive Below where
  | cut (rs : List CutRec)
  | abandoned
  deriving Repr

/-- A member's contribution to its group: a record of its own, or what lies below it. -/
def memberCut (below : List (Nat × Below)) (m : Node × Bool) : CutRec × Bool × List CutRec :=
  if m.2 then (⟨m.1.blk, false, m.1.id⟩, true, [])
  else
    match (below.find? fun (b : Nat × Below) => b.1 == m.1.id).map (fun (b : Nat × Below) => b.2) with
    | some (Below.cut rs) => (⟨m.1.blk, false, m.1.id⟩, false, rs)
    | _ => (⟨m.1.blk, true, m.1.id⟩, true, [])

/-- Groups decided from the last visited to the first, so that each is decided after those below it: the cut, and the
misses. -/
def decideCut (res : Nat → Bool) : List Visit → List (Nat × Below) → List Nat → List CutRec × List Nat
  | [], _, misses => ([], misses)
  | v :: vs, below, misses =>
    let ms := v.members.map (memberCut below)
    let chosen := ms.filter fun m => m.2.1
    let lost := (chosen.filter fun m => !res m.1.id).map fun m => m.1.id
    match v.parent with
    | none =>
      (ms.flatMap fun m => if m.2.1 then (if res m.1.id then [m.1] else []) else m.2.2, misses ++ lost)
    | some p =>
      if lost.isEmpty then
        decideCut res vs ((p.id, .cut (ms.flatMap fun m => if m.2.1 then [m.1] else m.2.2)) :: below) misses
      else decideCut res vs ((p.id, .abandoned) :: below) (misses ++ lost)

/-- A list in ascending order of a key. -/
def sortOn (f : α → Nat) (l : List α) : List α :=
  l.foldr (fun a acc => acc.takeWhile (fun b => decide (f b < f a)) ++ [a] ++ acc.dropWhile fun b => decide (f b < f a)) []

/-- Words written from an address on. -/
def Cmd.writeWords (c : Cmd) (a : Word) (ws : List Word) : Eng Unit :=
  if ws.isEmpty then Eng.pure ()
  else
    Eng.bind (c.sink a (8 * ws.length) 8 none) fun p =>
    Eng.bind (Eng.each (fun (x : Word × Nat) => c.store (p.at (8 * x.2)) 8 x.1.toNat false) ws.zipIdx) fun _ => Eng.pure ()

def Cmd.select (c : Cmd) : Eng (Cmd → Cmd) :=
  Eng.bind c.graph fun g =>
  Eng.bind c.viewRec fun v =>
  Eng.bind (c.source (c.w 5) ((g.n + 7) / 8) 1 none) fun p =>
  Eng.bind (Eng.each (fun i => Eng.bind (c.load (p.at i) 1) fun b => Eng.pure b.1) (List.range ((g.n + 7) / 8))) fun map =>
  let res := fun i => (map.getD (i / 8) 0).testBit (i % 8)
  Eng.bind (c.visit g v (fieldOf (c.w 4) 63 32) (g.n + 1) [(none, 0, g.roots)] []) fun vs =>
  let r := decideCut res vs.reverse [] []
  let cut := sortOn CutRec.id r.1
  let miss := sortOn (fun (i : Nat) => i) r.2
  Eng.bind (c.writeWords (c.w 6) (cut.map CutRec.word)) fun _ =>
  Eng.bind (c.writeWords (c.w 7) ((miss.take (fieldOf (c.w 0) 63 44)).map (BitVec.ofNat 64))) fun _ =>
  Eng.pure (Cmd.finish (BitVec.ofNat 64 cut.length)
    (BitVec.ofNat 64 (miss.length * 2 ^ 32 + (cut.filter (·.fb)).length)))

def execCutSelect (cmd : Nat) (s : State) : Result := .next (s.runCmd cmd [0x30] .accepted Cmd.select)

/-! ## The box tree (R330, log 10) -/

/-- The tree's bytes are a pure function of the cut list and the blocks. -/
def Cmd.buildTree (c : Cmd) : Eng (Cmd → Cmd) :=
  let n := fieldOf (c.w 4) 31 0
  Eng.bind (c.cutList (c.w 2) n) fun cut =>
  Eng.bind (Eng.each (c.block (c.w 3)) cut) fun bs =>
  let a := cut.map fun r => r.word.toNat
  let b := bs.flatMap fun x => x.1.map fun (y : Byte) => y.toNat
  let len := max 64 (min (Config.treeSize a b) (fieldOf (c.w 7) 31 0))
  let bytes := (List.range len).map (Config.treeByte a b)
  Eng.bind (c.sink (c.w 6) len 256 none) fun p =>
  Eng.bind (c.storeBytes p (bytes.map fun x => (x, false))) fun _ =>
  Eng.bind (Eng.put fun s => { s with trees := (bytes, cut.map CutRec.word) :: s.trees }) fun _ =>
  Eng.pure (Cmd.finish (BitVec.ofNat 64 len) 0)

def execCutTree (cmd : Nat) (s : State) : Result := .next (s.runCmd cmd [0x31] .accepted Cmd.buildTree)

end Sys2Proof.Machine
end

