-- ==== Sys2Proof/Machine/FrontEnd.lean ====
section
/-! DEFINITION. The task front end: taking cards, the range dependence table, admission, dealing chunks,
requests for pre-emption, retirement and the closing of nodes (R258, R280 to R292, R336). -/

namespace Sys2Proof.Machine

/-! ## The card's own rules (R258) -/

/-- Fibres of a team of the card. -/
def Clutch.fibres (c : Clutch) : Nat := c.width * c.groups

/-- RW and RLEN of range `r`. -/
def Clutch.rangeRw (c : Clutch) (r : Nat) : Bool := (c.word (9 + 2 * r)).getLsbD 63
def Clutch.rangeLen (c : Clutch) (r : Nat) : Nat := fieldOf (c.word (9 + 2 * r)) 43 0

def Clutch.rangeOk (c : Clutch) (r : Nat) : Bool :=
  if r < c.nrange then fieldOf (c.word (9 + 2 * r)) 62 44 == 0 && decide (1 ≤ c.rangeLen r)
  else c.word (8 + 2 * r) == 0 && c.word (9 + 2 * r) == 0

/-- The rows of the card's table. -/
def Clutch.fieldsOk (c : Clutch) : Bool :=
  c.entry.toNat % 64 == 0 && c.recs.toNat % 8 == 0 && decide (1 ≤ c.minch)
    && decide (8 ≤ c.rsize) && decide (c.rsize ≤ 256) && c.rsize % 8 == 0
    && fieldOf (c.word 3) 63 59 == 0 && decide (c.accRows ≤ 2048) && decide (c.spadBytes ≤ 2 ^ 18)
    && decide (1 ≤ c.crows) && decide (c.crows ≤ 3) && decide (1 ≤ c.ccols) && decide (c.ccols ≤ 4)
    && decide (16 ≤ c.regs) && decide (c.regs ≤ 128) && decide (1 ≤ c.groups) && decide (c.groups ≤ 32)
    && decide (fieldOf (c.word 3) 7 0 ≤ 3) && (c.ckpt || c.ckArea == 0) && decide (c.queue ≤ 63)
    && fieldOf (c.word 4) 7 4 == 0 && c.rfut.toNat % 32 == 0
    && fieldOf (c.word 6) 63 32 == 0 && fieldOf (c.word 6) 15 4 == 0 && decide (c.nrange ≤ 4)
    && (c.smax == 0) == (c.word 7 == 0) && (List.range 4).all c.rangeOk

/-- The shape limits of R101 and R102, and COUNT. -/
def Clutch.shapeOk (c : Clutch) : Bool :=
  decide (c.fibres ≤ 1024) && decide (c.fibres * c.regs ≤ 65536) && (c.node || c.count != 0)

/-! ## Cores, rectangles and admission (R9, R101, R102, R107, R284) -/

/-- The pods of a slice (R9). -/
def State.partPods (s : State) (p : Nat) : List Nat := (List.range 64).filter fun k => ownerOf s.mode (k / 8) == p

/-- Rows that a group takes of each register lane it is placed on (R102). -/
def groupRows (w n : Nat) : Nat := if w = 64 then 2 * n else n

/-- Teams of the card's shape that an empty core admits, at most 16 (R284). -/
def Clutch.perCore (c : Clutch) : Nat :=
  let cap := fun (have_ need : Nat) => if need = 0 then 16 else have_ / need
  let groups := if c.width = 64 then 2048 / (2 * c.regs) else 32 / c.width * (2048 / c.regs)
  min 16 (min (cap 64 c.groups) (min (cap 2048 c.fibres) (min (cap groups c.groups)
    (min (cap (2 ^ 18) c.spadBytes) (cap 2048 c.accRows)))))

/-- T of R284. -/
def State.slotCount (s : State) (c : Clutch) : Nat :=
  (s.partPods c.part).length * (3 / c.crows) * (4 / c.ccols) * c.perCore

/-- size(z) of R284 for the records that remain. -/
def chunkSize (remaining minch t : Nat) : Nat := min remaining (max minch ((remaining + 2 * t - 1) / (2 * t)))

/-- The number of chunks that the records are cut into; `fuel` chunks are cut at most. -/
def chunkCount (minch t : Nat) : Nat → Nat → Nat
  | 0, _ => 0
  | fuel + 1, remaining =>
    if remaining = 0 then 0 else chunkCount minch t fuel (remaining - chunkSize remaining minch t) + 1

/-- The chunks that a node's undealt records make now, from the pool's slot `head` on; of `fed` records, fewer than MINCH
wait (R291). -/
def nodeChunks (minch t count : Nat) (fed : Bool) : Nat → Nat → Nat → Nat
  | 0, _, _ => 0
  | fuel + 1, head, n =>
    if n = 0 || (fed && decide (n < minch)) then 0
    else
      let z := min (chunkSize n minch t) (count - head)
      nodeChunks minch t count fed fuel ((head + z) % count) (n - z) + 1

/-- A chunk takes at least one 2T-th of what remains, so that 2T × 24 chunks cut 2^32 records to at most 2T,
and 2T more chunks cut those. -/
def Clutch.chunkTotal (c : Clutch) (t : Nat) : Nat := chunkCount c.minch t (2 * t * 25 + 1) c.count

/-- CORES: the card is co-resident. -/
def Clutch.coRes (c : Clutch) : Bool := (c.word 3).getLsbD 57

/-- Teams that hold resources of a core. -/
def State.teamsOn (s : State) (core : Nat) : List Team :=
  s.teams.filter fun t => t.core == core && (t.phase == .resident || t.phase == .dying)

/-- Rows left on each of the four runs of eight register lanes (R102, R107, R382). -/
def State.rowsFree (s : State) (core : Nat) : List Nat :=
  let ts := s.teamsOn core
  (List.range 4).map fun o =>
    let used := s.groups.foldl (fun n (g : Group) =>
      match ts.find? fun t => t.id == g.team with
      | some t => if g.roff / 8 ≤ o ∧ o < g.roff / 8 + min g.width 32 / 8 then n + groupRows g.width t.regs else n
      | none => n) 0
    let off := (List.range 8).foldl (fun m l =>
      max m ((s.core core).rowsOff.filter fun b => b / 32 == 8 * o + l).length) 0
    2048 - 64 * off - used

/-- Rows left under every one of `k` runs from the `o`th. -/
def runFree (free : List Nat) (o k : Nat) : Nat := (List.range k).foldl (fun m i => min m (free.getD (o + i) 0)) 2048

/-- The offset with most rows left for a group, if one has enough; of several, the lowest (log 205). -/
def bestRun (free : List Nat) (w rows : Nat) : Option Nat :=
  let k := min w 32 / 8
  let best := ((List.range (4 / k)).map (· * k)).foldl (fun (b : Option Nat) o =>
    match b with
    | none => some o
    | some p => if runFree free p k < runFree free o k then some o else b) none
  match best with
  | some o => if rows ≤ runFree free o k then some o else none
  | none => none

/-- Register-lane offsets for `n` groups of a width. -/
def placeGroups (w rows : Nat) : Nat → List Nat → Option (List Nat)
  | 0, _ => some []
  | n + 1, free =>
    match bestRun free w rows with
    | none => none
    | some o =>
      let k := min w 32 / 8
      let left := (List.range 4).map fun i => free.getD i 0 - if o ≤ i ∧ i < o + k then rows else 0
      (placeGroups w rows n left).map (8 * o :: ·)

/-- The first row of a free contiguous run of `rows` in a core's accumulator store, the lowest (R275, R382; log 205). -/
def State.accRun (s : State) (core rows : Nat) : Option Nat :=
  let ts := s.teamsOn core
  let used := fun (b : Nat) => (s.core core).accOff.contains b
    || ts.any fun t => decide (t.accBase / 32 ≤ b) && decide (b < (t.accBase + t.accRows) / 32)
  if rows = 0 then some 0
  else ((List.range 64).find? fun b =>
    decide (b + rows / 32 ≤ 64) && (List.range (rows / 32)).all fun i => !used (b + i)).map (32 * ·)

/-- A core has room for a team of the card's shape, but for its registers (R102, R275, R295, R382). -/
def State.roomFor (s : State) (c : Clutch) (core : Nat) : Bool :=
  let ts := s.teamsOn core
  let sum := fun (f : Team → Nat) => ts.foldl (fun n t => n + f t) 0
  let k := s.core core
  !k.fenced && decide (ts.length + 1 ≤ 16) && decide (sum (·.groups) + c.groups ≤ 64)
    && decide (sum (fun t => t.width * t.groups) + c.fibres ≤ 2048)
    && decide (sum (·.spadSize) + c.spadBytes + 4096 * k.spadOff.length ≤ 2 ^ 18)
    && (s.accRun core c.accRows).isSome

/-- A core admits a team of the card's shape: the offsets of its groups. -/
def State.admits (s : State) (c : Clutch) (core : Nat) : Option (List Nat) :=
  if s.roomFor c core then placeGroups c.width (groupRows c.width c.regs) c.groups (s.rowsFree core) else none

/-- Rows left when groups of a width stand at some offsets, if there are as many. -/
def keepGroups (w rows : Nat) : List Nat → List Nat → Bool
  | [], _ => true
  | o :: os, free =>
    let k := min w 32 / 8
    decide (rows ≤ runFree free (o / 8) k)
      && keepGroups w rows os ((List.range 4).map fun i => free.getD i 0 - if o / 8 ≤ i ∧ i < o / 8 + k then rows else 0)

/-- The register-lane offsets of a team's groups. -/
def State.offsetsOf (s : State) (t : Team) : List Nat :=
  (List.range t.groups).map fun g => match s.grp? t.id g with | some x => x.roff | none => 0

/-- A pinned team keeps its core and its offsets (R114, R177). -/
def State.readmits (s : State) (c : Clutch) (t : Team) : Option (Nat × List Nat) :=
  let offs := s.offsetsOf t
  if s.roomFor c t.core && keepGroups c.width (groupRows c.width c.regs) offs (s.rowsFree t.core) then some (t.core, offs)
  else none

/-- The cores of a cluster whose rank 0 lies on a core, in rank order (R101). -/
def State.coresAt (s : State) (c : Clutch) (origin : Nat) : Option (List Nat) :=
  if decide (origin < 768) && (s.partPods c.part).contains (podOf origin) && decide (coreRow origin + c.crows ≤ 3)
      && decide (coreCol origin + c.ccols ≤ 4) then
    some ((List.range (c.crows * c.ccols)).map fun r => origin + 4 * (r / c.ccols) + r % c.ccols)
  else none

/-- Every element's answer, or none. -/
def allSome (f : α → Option β) : List α → Option (List β)
  | [] => some []
  | a :: l => match f a, allSome f l with | some b, some bs => some (b :: bs) | _, _ => none

/-- A free rectangle for a cluster of the card: its cores with the offsets of their groups. -/
def State.rect (s : State) (c : Clutch) (origin : Nat) : Option (List (Nat × List Nat)) :=
  match s.coresAt c origin with
  | none => none
  | some cores => allSome (fun k => (s.admits c k).map fun o => (k, o)) cores

/-! ## What a card waits with (R287, R288) -/

/-- The card's saved clusters; one held on a break is not among them (R288, R313). -/
def State.savedOf (s : State) (c : Clutch) : List Cluster := s.clusters.filter fun x => x.clutch == c.id && x.phase == .saved

/-- A chunk of the card waits for a rectangle (R287). -/
def State.awaiting (s : State) (c : Clutch) : Bool :=
  s.cardReady c && s.hasChunk c && s.poolsOk c && !s.qHold c.part c.queue

/-- 100 µs (R288). -/
def waitLimit : Nat := cyclesOf 100

/-- A chunk or a saved cluster of the card has waited for a rectangle beyond the limit of R288. -/
def State.starves (s : State) (c : Clutch) : Bool :=
  (s.awaiting c && decide (c.waitSince + waitLimit ≤ s.clock))
    || (c.killed.isNone && (s.savedOf c).any fun x => decide (x.since + waitLimit ≤ s.clock))

/-- Some rectangle of the card's shape could lie in the pod: for a pinned saved cluster, only its own (R177, R288). -/
def State.couldLie (s : State) (c : Clutch) (pod : Nat) : Bool :=
  let saved := s.savedOf c
  if c.pinned && !saved.isEmpty then saved.any fun x => podOf x.origin == pod
  else
    (span (12 * pod) 12).any fun o =>
      match s.coresAt c o with | some cs => cs.all fun k => !(s.core k).fenced | none => false

/-- R288: on this pod nothing of the priority is placed. -/
def State.barredPod (s : State) (part prio pod : Nat) : Bool :=
  s.clutches.any fun c => c.part == part && decide (c.prio < prio) && s.starves c && s.couldLie c pod

/-- A rectangle where a cluster of the card may be placed. -/
def State.placeable (s : State) (c : Clutch) (origin : Nat) : Option (List (Nat × List Nat)) :=
  if s.barredPod c.part c.prio (podOf origin) then none else s.rect c origin

def State.placeableSome (s : State) (c : Clutch) : Bool := (List.range 768).any fun o => (s.placeable c o).isSome

/-! ## A cluster put on its cores (R104, R114, R290, R306) -/

/-- The fibres of a group at launch (R104). -/
def launchFibres (team grp width : Nat) (entry : Word) (exec : Nat) : List Fibre :=
  (List.range width).map fun l => newFibre ⟨team, grp, l⟩ entry default default 0 (min width 32) exec

/-- A group of a new team. -/
def State.launchGroup (s : State) (c : Clutch) (team grp roff : Nat) : State :=
  let (e, s) := s.newId
  { s with groups := s.groups ++ [⟨team, grp, c.width, roff, [], [], []⟩],
           fibres := s.fibres ++ (launchFibres team grp c.width c.entry e).map fun f => { f with lastStart := s.clock } }

/-- Groups numbered from `g` on. -/
def State.launchGroups (s : State) (c : Clutch) (team : Nat) : Nat → List Nat → State
  | _, [] => s
  | g, o :: os => (s.launchGroup c team g o).launchGroups c team (g + 1) os

/-- A team of a new cluster (R104, R114). -/
def State.launchTeam (s : State) (c : Clutch) (cluster rank core : Nat) (offs : List Nat) : State :=
  let (t, s) := s.newId
  let team : Team := { (default : Team) with
    id := t, cluster := cluster, clutch := c.id, part := c.part, rank := rank, core := core, regs := c.regs, width := c.width,
    groups := c.groups, spadSize := c.spadBytes, accRows := c.accRows, accBase := (s.accRun core c.accRows).getD 0 }
  let s := { s with teams := s.teams ++ [team] }
  -- reserved slots of the pools it appends to (R290)
  let pools := ((s.targetsOf c).map (·.id)).eraseDups
  let s := if c.smax = 0 then s else pools.foldl (fun s n =>
    s.modClutch n fun n => { n with reserved := n.reserved.mod t (· + c.smax) }) s
  s.launchGroups c t 0 offs

/-- Teams ranked from `r` on. -/
def State.launchTeams (s : State) (c : Clutch) (cluster : Nat) : Nat → List (Nat × List Nat) → State
  | _, [] => s
  | r, x :: xs => (s.launchTeam c cluster r x.1 x.2).launchTeams c cluster (r + 1) xs

/-- The lowest cluster slot that no cluster of the card holds (R306). -/
def State.freeSlot (s : State) (c : Clutch) (t : Nat) : Option Nat :=
  (List.range t).find? fun k => !(s.clusters.any fun x => x.clutch == c.id && x.ckSlot == k)

/-- Clusters of the card that fit at one origin together, at most `fuel`, each with its pool room (R290), and the state
with them there. -/
def State.fillAt (s : State) (c : Clutch) (origin : Nat) : Nat → Nat × State
  | 0 => (0, s)
  | fuel + 1 =>
    match (if s.poolsOk c then s.placeable c origin else none) with
    | some cores => let r := (s.launchTeams c 0 0 cores).fillAt c origin fuel; (r.1 + 1, r.2)
    | none => (0, s)

/-- Clusters of the card that the partition takes when origins are tried in ascending order. -/
def State.fitCount (s : State) (c : Clutch) : Nat :=
  ((List.range 768).foldl (fun (a : Nat × State) o => let r := a.2.fillAt c o 16; (a.1 + r.1, r.2)) (0, s)).1

/-- What stands when no cluster of the card, one, and so on is put at an origin, at most `fuel`. -/
def State.choicesAt (s : State) (c : Clutch) (origin : Nat) : Nat → List State
  | 0 => [s]
  | fuel + 1 =>
    match (if s.poolsOk c then s.placeable c origin else none) with
    | some cores => s :: (s.launchTeams c 0 0 cores).choicesAt c origin fuel
    | none => [s]

/-- The most clusters of the card that some origins take at once (R336). -/
def State.mostAt (s : State) (c : Clutch) : List Nat → Nat
  | [] => 0
  | o :: os => ((s.choicesAt c o 16).zipIdx.map fun x => x.2 + x.1.mostAt c os).foldl max 0

/-- `n` clusters of the card can lie in the partition at once. -/
def State.takes (s : State) (c : Clutch) (n : Nat) : Bool :=
  decide (n ≤ s.fitCount c) || (decide (1 < c.crows * c.ccols) && decide (n ≤ s.mostAt c (List.range 768)))

/-- Chunks that the card launches together: one, or all of a co-resident card (R336). -/
def State.chunksNow (s : State) (c : Clutch) : Nat :=
  let t := c.slots.getD (s.slotCount c)
  if !c.coRes then 1
  else if c.node then nodeChunks c.minch t c.count (s.feeds c) (2 * t * 25 + 3) c.poolHead c.undealt
  else c.chunkTotal t

/-- What the card would launch now fits (R284, R306, R336). -/
def State.fitsNow (s : State) (c : Clutch) : Bool :=
  (s.freeSlot c (c.slots.getD (s.slotCount c))).isSome
    && if c.coRes then s.takes c (s.chunksNow c) else s.placeableSome c

/-! ## Restoring a saved cluster (R163, R177, R288) -/

/-- The core's queues take the team's saved commands. -/
def State.queueRoom (s : State) (t : Team) (core : Nat) : Bool :=
  [EQueue.se0, .se1, .cvx, .ray, .cut, .rast, .coll].all fun q =>
    decide ((s.queue core q).length + (t.qsaved.filter fun c => c.q == q).length ≤ 16)

/-- The cores and offsets of a pinned cluster's teams, in rank order, where it can stand again (R177). -/
def State.ownRect (s : State) (x : Clutch) (c : Cluster) : Option (List (Nat × List Nat)) :=
  if s.barredPod x.part x.prio (podOf c.origin) then none
  else
    allSome (fun r => match s.teams.find? fun t => t.cluster == c.id && t.rank == r with
      | some t => s.readmits x t
      | none => none) (List.range (x.crows * x.ccols))

/-- A rectangle that a saved cluster may take. -/
def State.restorable (s : State) (c : Cluster) (origin : Nat) : Option (List (Nat × List Nat)) :=
  match s.clutch? c.clutch with
  | none => none
  | some x =>
    match (if x.pinned then s.ownRect x c else s.placeable x origin) with
    | none => none
    | some cores =>
      let fits := (s.clusterTeams c.id).all fun t => match cores[t.rank]? with
        | some k => t.phase == .ended || s.queueRoom t k.1
        | none => true
      if fits && (!x.pinned || origin == c.origin) && (x.pinned || cores.all fun k => !c.avoid.contains k.1) then some cores
      else none

/-- The card has a cluster that could be placed now: a saved one, or its next chunk (R288). -/
def State.canPlace (s : State) (c : Clutch) : Bool :=
  if (s.savedOf c).isEmpty then s.awaiting c && s.fitsNow c
  else (s.savedOf c).any fun x => (List.range 768).any fun o => (s.restorable x o).isSome

/-- A rectangle is free for what the card waits with: of a co-resident card, for one chunk (R288, R336). -/
def State.rectFree (s : State) (c : Clutch) : Bool :=
  if (s.savedOf c).isEmpty then s.placeableSome c else s.canPlace c

/-! ## The choice among cards (R287, R288) -/

/-- Turn of a queue after the one served last at a priority (R287). -/
def State.queueTurn (s : State) (c : Clutch) : Nat := (c.queue + 64 - NMap.get (s.part c.part).served c.prio) % 64

/-- R287: the first card's chunk is chosen before the second's. -/
def State.chosenBefore (s : State) (a b : Clutch) : Bool :=
  rankLt [a.prio, s.queueTurn a, a.seq] [b.prio, s.queueTurn b, b.seq]

/-- Another card with a cluster that could be placed is chosen first. -/
def State.outdone (s : State) (c : Clutch) : Bool :=
  s.clutches.any fun d => d.id != c.id && d.part == c.part && s.chosenBefore d c && s.canPlace d

/-! ## Taking a card (R280) -/

/-- Steps 4, 5 and 6 of R209 for an address of a card. -/
def State.grants (s : State) (part : Nat) (a : Word) (len : Nat) (rts : List Right) : Bool × State :=
  let i := indexOf a
  if i < 3 ∨ 2 ^ (s.part part).btlog ≤ i then (false, s)
  else
    let r := s.desc part i
    (descOk r.1 && decide (offsetOf a + len ≤ descLen r.1) && rts.all (descGrants r.1), r.2)

/-- The addresses of a card, with their lengths and rights. -/
def Clutch.addresses (c : Clutch) : List (Word × Nat × List Right) :=
  [(c.entry, 4, [.x]), (c.recs, c.count * c.rsize, if c.node then [.r, .w] else [.r])]
    ++ (if c.rfut = 0 then [] else [(c.rfut, 32, [.a])])
    ++ (if c.smax = 0 then [] else [(c.word 7, 64, [.r])])
    ++ (List.range c.nrange).map fun r => (c.word (8 + 2 * r), c.rangeLen r, if c.rangeRw r then [.w] else [.r])

/-- Step 3. -/
def State.addressesOk (s : State) (part : Nat) (l : List (Word × Nat × List Right)) : Bool × State :=
  l.foldl (fun (acc : Bool × State) x => let r := acc.2.grants part x.1 x.2.1 x.2.2; (acc.1 && r.1, r.2)) (true, s)

/-- R336: a co-resident card has no more chunks than the partition can place at once; a node, of a full pool (log 202). -/
def State.coresOk (s : State) (c : Clutch) : Bool :=
  !c.coRes || decide (c.chunkTotal (s.slotCount c) ≤ s.slotCount c)

/-- Two submissions come from one function, or from one fibre. -/
def Sub.sameOrigin (x y : Sub) : Bool :=
  match x.fib, y.fib with
  | some a, some b => a.1 == b.1
  | none, none => x.cmd.isSome && y.cmd.isSome && x.part == y.part
  | _, _ => false

def State.dropSub (s : State) (n : Nat) : State := { s with subs := s.subs.filter fun x => x.id != n }
def State.holdSub (s : State) (n : Nat) (h : Hold) : State :=
  { s with subs := s.subs.map fun (x : Sub) => if x.id == n then { x with hold := h } else x }

/-- A submission's card is turned away: a trap in the fibre that made it, or a record (R260, R280, R440, R441). -/
def State.rejectCard (s : State) (x : Sub) (queue code reason : Nat) : State :=
  let s := s.dropSub x.id
  match x.fib, x.cmd with
  | some f, _ => s.modFib f.1 fun b => (b.noteTrap { x.trap with code := code }).release (.answer x.id)
  | none, some n => s.note x.part 0x02 queue code nowhere (BitVec.ofNat 64 (n % 2 ^ 32 + reason * 2 ^ 32))
  | none, none => s.note x.part 0x02 queue code nowhere x.card

/-- The submitting word has taken effect for its fibre (R312). -/
def State.tookSub (s : State) (x : Sub) : State :=
  match x.fib with
  | none => s
  | some f =>
    let s := s.modRun x.run fun r => { r with took := if r.took.contains f.1 then r.took else f.1 :: r.took }
    s.modFib f.1 fun b => match b.trap with
      | some t => if t.hdr == x.trap.hdr then { b with trap := some { t with took := true } } else b
      | none => b

/-- A card accepted: it has its sequence number, its record, and joins the intake. Its number is the
submission's. -/
def State.takeCard (s : State) (x : Sub) (c : Clutch) (targets : List Word) : State :=
  let s := (s.dropSub x.id).tookSub x
  let seq := (s.part x.part).nextSeq
  let prio := max (fieldOf (c.word 4) 2 0) (max (s.qFloor x.part c.queue) x.floor)
  let c := { c with
    id := x.id, part := x.part, seq := seq, cardAddr := x.card, targets := targets,
    priv := s.qPriv x.part c.queue && (x.cmd.isSome || (x.fib.isSome && x.priv)),
    prio := prio, phase := .intake, waiter := x.fib, waitSince := s.clock }
  let s := s.modPart x.part fun p => { p with nextSeq := p.nextSeq + 1 }
  let wh := match x.fib with | some f => s.whereIs f.1 | none => nowhere
  let num := match x.cmd with | some n => n % 2 ^ 32 | none => 0xFFFFFFFF
  let s := s.note x.part 0x01 c.queue 0 wh (BitVec.ofNat 64 (seq % 2 ^ 32 * 2 ^ 32 + num))
  { s with clutches := s.clutches ++ [c] }

/-- Words of the target list (R258). -/
def State.readTargets (s : State) (part : Nat) (a : Word) (queue : Nat) : Nat → Except Nat (List Word) × Option Nat × State
  | 0 => (.ok [], none, s)
  | n + 1 =>
    let r := s.hubReach part a 8 8 .r (.load false) .load queue
    match r.1 with
    | .trap c => (.error c, none, r.2)
    | .wait f => (.error 0x0B, some f, r.2)
    | .ok l _ =>
      let w := r.2.recWord (Agent.hub part) l 0
      match w.2.readTargets part (a + 8) queue n with
      | (.ok ws, _, s) => (.ok (BitVec.ofNat 64 w.1.1 :: ws), none, s)
      | x => x

/-- Steps 2 to 6 for a card as read. -/
def State.judgeCard (s : State) (x : Sub) (ws : List Word) : State :=
  let c : Clutch := { (default : Clutch) with card := ws, part := x.part }
  if !(c.fieldsOk && c.shapeOk && s.coresOk c) then s.rejectCard x c.queue 0x1B 6
  else
    let a := s.addressesOk x.part c.addresses
    if !(a.1 && a.2.qEn x.part c.queue) then a.2.rejectCard x c.queue 0x1B 6
    else
      match (if c.smax = 0 then (.ok [], none, a.2) else a.2.readTargets x.part (c.word 7) c.queue 8) with
      | (.error _, some f, s) => s.holdSub x.id (.fault f 0 0)
      | (.error k, none, s) => s.rejectCard x c.queue k 6
      | (.ok ts, _, s) =>
        if s.depth x.part c.queue < 4096 then s.takeCard x c ts
        else
          match x.fib, x.cmd with
          | some f, _ => ((s.dropSub x.id).tookSub x).modFib f.1 fun b => (b.setPred f.2 false).release (.answer x.id)
          | none, some _ => s.rejectCard x c.queue 0 2
          -- a join's submission waits for room (R265)
          | none, none => s

/-- CARD_INTAKE: a submission that nothing of its origin precedes (R198, R280). -/
def execCardIntake (n : Nat) (s : State) : Result :=
  .next <| match s.subs.find? fun x => x.id == n with
  | none => s
  | some x =>
    if x.hold != .free || (s.subs.any fun y => decide (y.id < x.id) && y.sameOrigin x) then s
    else
      match s.readCard x.part x.card x.queue with
      | (.error _, some f, s) => s.holdSub x.id (.fault f 0 0)
      | (.error k, none, s) => s.rejectCard x x.queue k 6
      | (.ok ws, _, s) => s.judgeCard x ws

/-! ## The intake's head (R281 to R283) -/

/-- A card's ranges as virtual ranges rounded to 256 bytes (R282). -/
def State.virtualSpans (s : State) (c : Clutch) : List (Nat × Nat × Bool) × State :=
  (List.range c.nrange).foldl (fun (acc : List (Nat × Nat × Bool) × State) r =>
    let a := c.word (8 + 2 * r)
    let d := acc.2.desc c.part (indexOf a)
    let lo := descBase d.1 + offsetOf a
    let hi := lo + c.rangeLen r
    (acc.1 ++ [(lo / 256 * 256, (hi + 255) / 256 * 256, c.rangeRw r)], d.2)) ([], s)

/-- R283: two ranges make a dependence. -/
def spansMeet (x y : Nat × Nat × Bool) : Bool := decide (x.1 < y.2.1) && decide (y.1 < x.2.1) && (x.2.2 || y.2.2)

/-- The lowest-numbered card of the intake. -/
def State.intakeFirst (s : State) (part : Nat) : Option Clutch :=
  (s.clutches.filter fun c => c.part == part && c.phase == .intake).foldl (fun b c =>
    match b with
    | none => some c
    | some d => if c.seq < d.seq then some c else b) none

/-- Entries of the one range dependence table in use (R5, R281). -/
def State.rangeEntries (s : State) : Nat := (s.clutches.filter (·.inFlight)).foldl (fun n c => n + c.nrange) 0

/-- INTAKE_HEAD. -/
def execIntakeHead (part : Nat) (s : State) : Result :=
  .next <| match s.intakeFirst part with
  | none => s
  | some c =>
    if 4096 < s.rangeEntries + c.nrange then s
    else
      let v := s.virtualSpans c
      let deps := (v.2.clutches.filter fun e => e.part == part && e.inFlight && decide (e.seq < c.seq)
        && e.spans.any fun x => v.1.any fun y => spansMeet x y).map (·.id)
      let s := v.2.modClutch c.id fun c =>
        { c with phase := .queued, spans := v.1, deps := deps, waiter := none, waitSince := v.2.clock }
      match c.waiter with
      | some w => s.modFib w.1 fun b => (b.setPred w.2 true).release (.answer c.id)
      | none => s

/-! ## Dealing chunks (R284, R285, R287) -/

/-- The next chunk launched on a rectangle. -/
def State.dealOne (s : State) (id origin : Nat) : Option State :=
  match s.clutch? id with
  | none => none
  | some c =>
    let t := c.slots.getD (s.slotCount c)
    let cut := chunkSize c.remaining c.minch t
    -- a node's chunk ends with the pool's last slot (R291)
    let size := if c.node then min cut (c.count - c.poolHead) else cut
    match (if s.hasChunk c && s.poolsOk c then s.placeable c origin else none), s.freeSlot c t with
    | some cores, some slot =>
      let (k, s) := s.newId
      let cl : Cluster := { (default : Cluster) with
        id := k, clutch := id, part := c.part, chunk := c.chunks, base := c.dealt, count := size,
        recAddr := if c.node then c.slotAddr c.poolHead else mkAddr (indexOf c.recs) (offsetOf c.recs + c.dealt * c.rsize),
        nteamZ := if c.node then c.chunks + 1 else c.chunkTotal t, origin := origin, rows := c.crows, cols := c.ccols,
        prio := c.prio, ckSlot := slot, since := s.clock }
      let s := { s with clusters := s.clusters ++ [cl] }
      let s := s.modClutch id fun c =>
        { c with slots := some t, dealt := c.dealt + size, chunks := c.chunks + 1, waitSince := s.clock,
                 undealt := c.undealt - (if c.node then size else 0),
                 poolHead := if c.node then (c.poolHead + size) % c.count else c.poolHead,
                 poolChunks := if c.node then c.poolChunks ++ [(c.chunks, size, false)] else c.poolChunks }
      -- the launch is an acquire at device scope (R201)
      let s := s.podAcquire (podOf origin)
      some (s.launchTeams c k 0 cores)
    | _, _ => none

/-- Chunks launched one after another. -/
def State.dealAll (s : State) (id : Nat) : List Nat → Option State
  | [] => some s
  | o :: os => match s.dealOne id o with | some t => t.dealAll id os | none => none

/-- CHUNK_DEAL: the chosen card's next chunk, or every chunk of a co-resident card (R336). -/
def execChunkDeal (clutch : Nat) (origins : List Nat) (s : State) : Result :=
  .next <| match s.clutch? clutch with
  | none => s
  | some c =>
    if !(s.power == .on && s.awaiting c && (s.savedOf c).isEmpty && origins.length == s.chunksNow c) || s.outdone c then s
    else
      match s.dealAll clutch origins with
      | some t => t.modPart c.part fun p => { p with served := p.served.set c.prio (c.queue + 1) }
      | none => s

/-! ## Pre-emption for a waiting chunk (R288) -/

/-- A resident cluster that a card may displace, and that is not yet to be saved. -/
def Clutch.displaces (c : Clutch) (x : Cluster) : Bool :=
  x.part == c.part && x.phase == .resident && !x.preempt && decide (c.prio < x.prio)

/-- PREEMPT_REQUEST: the least urgent cluster, the youngest of those. -/
def execPreemptRequest (clutch victim : Nat) (s : State) : Result :=
  .next <| match s.clutch? clutch, s.cluster? victim with
  | some c, some x =>
    let least := s.clusters.all fun y => !c.displaces y || decide (y.prio < x.prio)
      || (y.prio == x.prio && decide (y.since ≤ x.since))
    if s.starves c && c.displaces x && least && !s.rectFree c then
      s.modCluster victim fun x => { x with preempt := true }
    else s
  | _, _ => s

/-! ## Retirement (R106, R196, R292) -/

/-- Every team of the clutch has ended, and every command its teams pushed has completed. -/
def State.allDone (s : State) (c : Clutch) : Bool :=
  c.inFlight && c.killed.isNone && (s.clutchTeams c.id).all (fun t => t.phase == .ended) && !s.cmdsOf c.id
    && !(s.cores.any fun k => k.2.queues.any fun q => q.2.any fun x => x.clutch == c.id)

/-- A clutch retires: its writes are performed at device scope, its record is written, then RFUT resolves, or
fails with the first halting code (R385, R425). -/
def State.retire (s : State) (c : Clutch) : State :=
  let s := (s.clutchRelease c.id).leaveTable c.id .retired
  let s := s.note c.part 0x03 c.queue 0 nowhere (BitVec.ofNat 64 c.seq)
  s.endFuture c (c.halted.getD 0) c.halted.isSome

def execClutchRetire (clutch : Nat) (s : State) : Result :=
  .next <| match s.clutch? clutch with
  | some c => if !c.node && s.allDone c && decide (c.remaining = 0) then s.retire c else s
  | none => s

/-- NODE_CLOSE. -/
def execNodeClose (clutch : Nat) (s : State) : Result :=
  .next <| match s.clutch? clutch with
  | some c => if c.node && s.allDone c && c.undealt == 0 && (s.producers c).isEmpty then s.retire c else s
  | none => s

end Sys2Proof.Machine
end

