-- ==== Sys2Proof/Machine/Recovery.lean ====
section
/-! DEFINITION. Failed checks, retirement, fencing, replay, pre-emption and restore, and the watchdog (R163, R177,
R293 to R295, R364 to R376, R381 to R383, R387 to R390). -/

namespace Sys2Proof.Machine

/-! ## Structures (R364, R429) -/

/-- The row of R364's table. -/
def CheckSite.row : CheckSite → Nat
  | .pipe _ _ _ => 1 | .sfu _ => 2 | .mtx _ => 3 | .reg _ _ _ => 4 | .control _ => 5 | .spad _ _ => 6 | .acc _ _ => 7
  | .l1 _ _ => 8 | .l2 _ _ => 9 | .hbm _ _ _ _ => 10

/-- The core of a structure that a core holds. -/
def CheckSite.core? : CheckSite → Option Nat
  | .pipe c _ _ => some c | .sfu c => some c | .mtx c => some c | .reg c _ _ => some c | .control c => some c
  | .spad c _ => some c | .acc c _ => some c | .l1 c _ => some c | .l2 _ _ => none | .hbm _ _ _ _ => none

/-- The index of a structure within its core or slice (R429). -/
def CheckSite.index : CheckSite → Nat
  | .pipe _ p l => p * 32 + l | .reg _ l b => l * 32 + b | .spad _ b => b | .acc _ b => b | .l1 _ w => w | .l2 _ w => w
  | .hbm _ _ _ r => r | _ => 0

/-- The place of an HBM row in WHERE (R429). -/
def rowWhere (stack pc bank row : Nat) : Nat := 10 * 2 ^ 56 + stack * 2 ^ 48 + pc * 2 ^ 40 + bank * 2 ^ 32 + row

/-- WHERE of a record of the event log. -/
def CheckSite.place : CheckSite → Nat
  | .hbm s q b r => rowWhere s q b r
  | .l2 k w => 9 * 2 ^ 56 + k * 2 ^ 32 + w
  | x => (CheckSite.row x) * 2 ^ 56 + (CheckSite.core? x).getD 0 * 2 ^ 32 + (CheckSite.index x)

/-- The slice a structure belongs to (R9, R420). -/
def State.sitePart (s : State) : CheckSite → Nat
  | .l2 k _ => ownerOf s.mode (2 * (k / 32))
  | .hbm st _ _ _ => ownerOf s.mode st
  | x => ownerOf s.mode (sectorOf ((CheckSite.core? x).getD 0))

/-- A core's place in a record. -/
def atCore (core : Nat) : Where := ⟨core, 0, 0⟩

/-- CORRECTED_ERROR: corrected in place and logged (R364); a repair by the controller's symbol code writes the sector (R203). -/
def execCorrectedError (site : CheckSite) (s : State) : Result :=
  let s := match site with
    | .hbm st q _ _ => { s with wrs := s.wrs.mod (st * 64 + q) (· + 1) }
    | _ => s
  .next (s.logEvent 0x01 (CheckSite.place site))

/-! ## Kills and fences (R177, R294, R295, R366) -/

/-- A kill with an error record of its own. -/
def State.killWith (s : State) (clutch code : Nat) (w : Where) (arg cont : Word) : State :=
  match s.clutch? clutch with
  | some c => if c.killed.isSome then s else (s.noteError c.part c.queue code w arg cont).killClutch clutch code
  | none => s

/-- A cluster is to be saved. -/
def State.requestSave (s : State) (cluster : Nat) : State :=
  s.modCluster cluster fun c => if c.phase == .resident then { c with preempt := true } else c

/-- The teams that hold resources of a core are to be saved, those that satisfy a test. -/
def State.clearCore (s : State) (core : Nat) (p : Team → Bool) : State :=
  ((s.teamsOn core).filter p).foldl (fun s t => s.requestSave t.cluster) s

/-- R295: the core issues nothing, its teams are saved, and a pinned clutch there is killed (R177). -/
def State.fenceCore (s : State) (core : Nat) : State :=
  if (s.core core).fenced then s
  else
    let s := s.modCore core fun c => { c with fenced := true, fencedAt := s.clock }
    let s := s.note (ownerOf s.mode (sectorOf core)) 0x08 0xFF 0 (atCore core) 0
    let s := s.logEvent 0x06 (core * 2 ^ 32)
    let pinned := fun (t : Team) => (s.clutchOf t).pinned
    let doomed := ((s.teams.filter fun t => t.core == core && t.phase != .ended && pinned t).map (·.clutch)).eraseDups
    let s := doomed.foldl (fun s c => s.killWith c 0x19 (atCore core) 0 0) s
    s.clearCore core fun _ => true

/-! ## Retirement (R381 to R383) -/

/-- The byte of a pipe's entry in the lane remap word. -/
def remapByte (w : BitVec 32) (pipe : Nat) : BitVec 8 := w.extractLsb' (8 * pipe) 8

def remapSet (w : BitVec 32) (pipe lane : Nat) : BitVec 32 :=
  (w &&& ~~~((0xFF : BitVec 32) <<< (8 * pipe))) ||| (BitVec.ofNat 32 (0x80 + lane % 32) <<< (8 * pipe))

/-- The mask, table or spare that a retirement changes; `fence` fences a core. -/
def State.withdraw (s : State) (site : CheckSite) (fence : State → Nat → State) : State :=
  match site with
  | .pipe c p l =>
    if (remapByte (s.core c).remap p).getLsbD 7 then fence s c
    else s.modCore c fun k => { k with remap := remapSet k.remap p l }
  | .sfu c => fence s c
  | .mtx c => fence s c
  | .control c => fence s c
  | .reg c l b => s.modCore c fun k => { k with rowsOff := setAdd k.rowsOff (l * 32 + b) }
  | .spad c b => s.modCore c fun k => { k with spadOff := setAdd k.spadOff b }
  | .acc c b => s.modCore c fun k => { k with accOff := setAdd k.accOff b }
  | .l1 c w => s.modPod (podOf c) fun k => { k with waysOff := setAdd k.waysOff (c * 64 + w) }
  | .l2 k w => { s with l2WaysOff := setAdd s.l2WaysOff (k * 64 + w) }
  | .hbm st q b _ =>
    let used := match s.spares.find? fun x => x.1 == (st, q, b) with | some x => x.2 | none => 0
    if used < 8 then { s with spares := ((st, q, b), used + 1) :: s.spares.filter fun x => x.1 != (st, q, b) } else s

/-- The lines of one way of an L1 slice written back and dropped; which of the slice's it holds is open (log 194). -/
def State.dropL1Way (s : State) (core : Nat) : State :=
  let pod := podOf core
  let mine := fun (b : Nat) =>
    let l := b - b % 256
    Config.l1Slice l % 12 == core % 12 && Config.freeNat s.tick (2 ^ 68 + l) % 2 == 0
  let s := (((s.pod pod).l1.map fun (x : Sector) => x.base).filter mine).foldl (fun s b => s.podDrop pod b) s
  s.modPod pod fun p => { p with l1 := p.l1.filter fun c => !mine c.base }

/-- The lines of one way of an L2 slice written back and dropped. -/
def State.dropL2Way (s : State) (slice way : Nat) : State :=
  let gone := (s.l2Sets.filter fun x => x.1 / 512 == slice).filterMap fun x => NMap.get x.2.ways way
  let s := gone.foldl (fun s u => s.l2Evict u) s
  { s with l2Sets := s.l2Sets.map fun x =>
      if x.1 / 512 == slice then (x.1, { x.2 with ways := NMap.del x.2.ways way }) else x }

/-- R382: what a retirement does first, and what it writes back. -/
def State.retireSite (s : State) (site : CheckSite) : State :=
  let s := match site with
    | .reg c _ _ => s.clearCore c fun _ => true
    | .spad c _ => s.clearCore c fun t => decide (0 < t.spadSize)
    | .acc c b => s.clearCore c fun t => decide (t.accBase / 32 ≤ b) && decide (b < (t.accBase + t.accRows) / 32)
    | .l1 c _ => s.dropL1Way c
    | .l2 k w => s.dropL2Way k w
    | _ => s
  s.withdraw site State.fenceCore

/-- 600 s in cycles. -/
def retireWindow : Nat := cyclesOf 600000000

/-- R381: a failed check counted; the second within 600 s retires the structure. -/
def State.countFail (s : State) (site : CheckSite) : State :=
  let last := s.lastFail.find? fun x => x.1 == site
  let s := { s with lastFail := (site, s.clock) :: s.lastFail.filter fun x => x.1 != site }
  match last with
  | none => s
  | some x =>
    if retireWindow < s.clock - x.2 ∨ s.retired.contains site then s
    else
      let s := { s with retired := s.retired ++ [site] }
      let s := s.note (s.sitePart site) 0x07 0xFF (CheckSite.row site) (atCore ((CheckSite.core? site).getD 1023)) (BitVec.ofNat 64 (CheckSite.index site))
      s.retireSite site

/-! ## Where a failed check lands (R365, R366, R375) -/

/-- A check may still fail on a value (R365). -/
def mayFail [BEq α] (l : List (α × Nat)) (d : α) (now : Nat) : Bool :=
  l.any fun u => u.1 == d && decide (now ≤ u.2 + checkTime)

/-- A check on a register may still fail: also on one of a fibre that has ended in an open instance (R370). -/
def State.resultOpen (s : State) (f : FibId) (d : Opnd) : Bool :=
  match d, s.fib? f, s.grp? f.team f.grp with
  | .s n, _, some g => mayFail g.unproven n.val s.clock
  | .k _, _, _ => false
  | _, some b, _ => mayFail b.unproven d s.clock
  | _, none, _ => match s.team? f.team with | some t => mayFail (t.past.map fun u => ((u.1, u.2.1), u.2.2)) (f, d) s.clock | none => false

/-- The line that a way of an L2 slice holds, if it is this one. -/
def State.wayLine (s : State) (slice way line : Nat) : Option L2Line :=
  (s.l2Sets.filter fun x => x.1 / 512 == slice).findSome? fun x =>
    match NMap.get x.2.ways way with | some u => if u.line == line then some u else none | none => none

/-- A structure belongs to a team's core. -/
def State.siteOn (s : State) (site : CheckSite) (team : Nat) : Bool :=
  match s.team? team with | some t => CheckSite.core? site == some t.core | none => false

/-- The structure can hold what the check landed on. -/
def State.landsOn (s : State) (site : CheckSite) : CheckHit → Bool
  | .result f d => (CheckSite.row site ≤ 2 || CheckSite.row site == 4) && s.siteOn site f.team && s.resultOpen f d
  | .control fs => CheckSite.row site == 5 && fs.all fun f => s.siteOn site f.team
  | .accPair t pair => (CheckSite.row site == 3 || CheckSite.row site == 7) && s.siteOn site t
      && match s.team? t with
        | some t => mayFail t.unproven pair s.clock && (match site with
            -- the block holds the pair's physical row (R275)
            | .acc _ b => b == (t.accBase + pair / 32) / 32
            | _ => true)
        | none => false
  | .spadWord t _ => CheckSite.row site == 6 && s.siteOn site t
  | .rbufWord t _ => CheckSite.row site == 8 && (match s.team? t with
      | some t => (CheckSite.core? site).map podOf == some (podOf t.core) | none => false)
  | .l1Word p _ => CheckSite.row site == 8 && (CheckSite.core? site).map podOf == some p
  | .homeWord a => match site with
      | .l2 k w => (s.wayLine k w (a - a % 256)).isSome
      | .hbm st q _ _ => spaceOf a == 0 && s.channel a == st * 64 + q
      | _ => false
  | .nothing => true

/-- R375: the previous instance has committed, and the checkpoint is being written, or waits for a fault on its area. -/
def Team.betweenInstances (t : Team) : Bool := !t.rOpen && (t.writing || t.point == .split)

/-- A failed check on a team's own state: replay in a region, and otherwise as the policy says. An instance that a save
is about to abandon is not replayed (R376, R390). -/
def State.failTeam (s : State) (t : Team) (site : CheckSite) (w : Where) (clause : Word) (accept : State → State) : State :=
  if t.phase != .resident then s
  else if t.rOpen then (if s.saving t then s else s.modTeam t.id fun t => { t with failing := some site })
  else if t.betweenInstances || !s.accepts t then s.killWith t.clutch 0x18 w 0 clause
  else accept s

/-- The clause a fibre stands in, as a trap of its header. -/
def State.clauseTrap (s : State) (f : Fibre) (code : Nat) : TrapRec :=
  match s.running.find? fun r => r.fibs.contains f.fid with
  | some r => ⟨code, 0, 0, 0, r.hdr, r.next, r.took.contains f.fid, none⟩
  | none => ⟨code, 0, 0, 0, f.pc, f.pc, false, none⟩

/-- The bits of 8-byte word `i` of a sector. -/
def wordOnes (i : Nat) : BitVec 512 := ones 512 (64 * i) 64

/-- The copy of a place in a pod's L1: of several under different tags, which the word was of is open (log 194). -/
def State.l1At (s : State) (pod base : Nat) : Option Sector :=
  let l := (s.pod pod).l1.filter fun c => c.base == base
  l[Config.freeNat s.tick 7 % max l.length 1]?

/-- An uncorrectable word of an L1 line: refetched from the L2 when none of its bytes is dirty, else poisoned. A sealed
line that the L2 no longer holds is asked for again at its next load. -/
def State.failL1 (s : State) (pod addr : Nat) : State :=
  let base := secBase addr
  let i := addr % 64 / 8
  match s.l1At pod base with
  | none => s
  | some c =>
    let merge := fun (s : State) (v : SecVal) =>
      let c := { c with data := (c.data &&& ~~~wordOnes i) ||| (v.d &&& wordOnes i),
                        pois := (c.pois &&& ~~~((1 : BitVec 8) <<< i)) ||| (v.p &&& ((1 : BitVec 8) <<< i)) }
      s.modPod pod fun p => { p with l1 := secPut p.l1 c }
    if c.en &&& wordOnes i != 0 || c.wpois.getLsbD i then
      s.modPod pod fun p => { p with l1 := secPut p.l1 (c.write ⟨0, 0, 1 <<< i, 0⟩ c.part) }
    else if !c.full then s
    else
      match c.tag with
      | none => let r := s.fetch pod base; merge r.2 r.1
      | some t => (match secFind s.l2 base (some t) with
          | some x => merge s x.val
          | none => s.modPod pod fun p => { p with l1 := secDel p.l1 base (some t) })

/-- A word of a clean copy poisoned. -/
def Sector.spoil (c : Sector) (i : Nat) : Sector := { c with pois := c.pois ||| (1 <<< i) }

/-- A word of a line in an L2 poisoned whole. -/
def State.failLine (s : State) (u : L2Line) (base i : Nat) : State :=
  match u.use with
  | .home => { s with l2 := s.l2.map fun (c : Sector) =>
      if c.base == base && c.tag.isNone then c.write ⟨0, 0, 1 <<< i, 0⟩ c.part else c }
  | .guest => { s with guests := s.guests.map fun (g : Nat × Sector) =>
      if g.1 == u.die && g.2.base == base then (g.1, g.2.spoil i) else g }
  | .rep => { s with reps := s.reps.map fun (r : Nat × Nat × Sector) =>
      if r.1 == u.die && r.2.2.base == base then (r.1, r.2.1, r.2.2.spoil i) else r }
  | .sealed t => { s with l2 := s.l2.map fun (c : Sector) =>
      if c.base == base && c.tag == some t then c.spoil i else c }

/-- An uncorrectable word of the L2 or of HBM: poisoned whole. -/
def State.failHome (s : State) (site : CheckSite) (addr : Nat) : State :=
  match site with
  | .l2 k w => (match s.wayLine k w (addr - addr % 256) with
      | some u => s.failLine u (secBase addr) (addr % 64 / 8)
      | none => s)
  | .hbm _ _ _ _ =>
    if spaceOf addr = 0 ∧ !fwDead (s.frame (frameOf addr)) then { s with mem := s.mem.setPois addr true } else s
  | _ => s

/-- A failed check on control state, for each of its fibres as the fibre's own team has it. -/
def State.failControl (s : State) (site : CheckSite) (fs : List FibId) : State :=
  (fs.map (·.team)).eraseDups.foldl (fun s n =>
    match s.team? n, fs.find? fun f => f.team == n with
    | some t, some f => s.failTeam t site (s.whereIs f) (match s.fib? f with | some b => b.pc | none => 0) fun s =>
        (fs.filter fun f => f.team == n).foldl (fun s f => match s.fib? f with
          | some b => s.modFib f fun x => x.noteTrap (s.clauseTrap b 0x0E)
          | none => s) s
    | _, _ => s) s

def State.landed (s : State) (site : CheckSite) : CheckHit → State
  | .result f d => match s.fib? f, s.team? f.team with
    | some b, some t => s.failTeam t site (s.whereIs f) b.pc fun s =>
        match d with
        | .x n => s.modFib f fun b => { b with x := b.x.mod n.val fun c => { c with p := true } }
        | .t n => s.modFib f fun b => { b with t := b.t.mod n.val fun c => { c with p := true } }
        | .s n => s.modGrp f.team f.grp fun g => { g with s := g.s.mod n.val fun c => { c with p := true } }
        | .k _ => s
    -- of a fibre that has ended
    | none, some t => s.failTeam t site (s.whereIs f) 0 fun s => s
    | _, _ => s
  | .control fs => s.failControl site fs
  | .accPair n pair => match s.team? n with
    | some t => s.failTeam t site (atCore t.core) 0 fun s => s.modTeam n fun t => { t with accPois := setAdd t.accPois pair }
    | none => s
  | .spadWord n off => match s.team? n with
    | some t =>
      if t.rOpen || t.betweenInstances then s.failTeam t site (atCore t.core) 0 fun s => s
      else s.modTeam n fun t => { t with spad := t.spad.setPois off true }
    | none => s
  | .rbufWord n _ => match s.team? n with
    | some t => if t.rOpen then s.failTeam t site (atCore t.core) 0 fun s => s else s
    | none => s
  | .l1Word p a => s.failL1 p a
  | .homeWord a => s.failHome site a
  | .nothing => s

/-- CHECK_FAIL: what the failure does where it lands, and its count toward retirement. -/
def execCheckFail (site : CheckSite) (hit : CheckHit) (s : State) : Result :=
  .next (if s.landsOn site hit then (s.landed site hit).countFail site else s)

/-! ## Saving (R163, R376, R387, R388) -/

/-- A failed check or a poisoned load of the cluster waits for the sequencer. -/
def State.clusterFailing (s : State) (c : Nat) : Bool := (s.clusterTeams c).any fun t => t.failing.isSome || t.fatal

/-- The team can be taken from its core: nothing of it runs or is outstanding but what waits, and no accepted
command of it touches scratchpad. -/
def State.savable (s : State) (t : Team) : Bool :=
  t.phase == .ended || (t.phase == .resident && t.halting.isNone && s.drained t.id
    && !(s.cmds.any fun x => x.c.team == t.id && x.touches))

/-- Commands of the team in a core's queues, in queue order. -/
def State.takeQueued (s : State) (t : Team) : List QCmd × State :=
  let mine := (s.core t.core).queues.flatMap fun q => q.2.filter fun c => c.team == t.id
  let left := fun (q : Nat × List QCmd) => (q.1, q.2.filter fun x => x.team != t.id)
  let s := s.modCore t.core fun c => { c with queues := (c.queues.map left).filter fun q => !q.2.isEmpty }
  (mine, mine.foldl (fun s c => match s.op? c.op with | some o => s.finish o | none => s) s)

/-- Bytes of a team's context (R388): its registers, and its scratchpad and accumulator rows unless its checkpoint stands
for them. -/
def State.contextBytes (s : State) (t : Team) : Nat :=
  (s.teamFibres t.id).length * (8 * t.regs + 64) + 512 * t.groups + 4096
    + if t.rOpen then 0 else t.spadSize + 256 * t.accRows

/-- A team's context written to its partition's context pool; where in the pool and in what form is open (log 200). -/
def State.putContext (s : State) (t : Team) : State :=
  let p := s.part t.part
  let n := (s.contextBytes t + 63) / 64
  let room := p.cpsize / 64
  if room < n then s
  else
    let lo := p.cpbase + 64 * (Config.freeNat s.tick 8 % (room - n + 1))
    let free := fun (i : Nat) => Config.freeNat s.tick (2 ^ 67 + i)
    (List.range n).foldl (fun s i =>
      let pois := BitVec.ofNat 8 (free (2 ^ 64 + i))
      s.homeWrite (lo + 64 * i) ⟨BitVec.allOnes 512, BitVec.ofNat 512 (free i), pois, ~~~pois⟩ t.part) s

/-- A team's context taken from its core, its writes and its commands' performed at device scope (R201); its flags are
clear (R388), and its checks have completed. -/
def State.shelve (s : State) (team : Nat) : State :=
  match s.team? team with
  | none => s
  | some t =>
    if t.phase != .resident then s
    else
      let s := s.writeBack (podOf t.core) false fun f => f.team == team || (f.team == 0 && f.lane == t.clutch)
      let q := s.takeQueued t
      let s := (q.2.putContext t).modFibs (fun f => f.fid.team == team) fun f =>
        { f with t := [], parked := false, exec := 0, member := false, unproven := [] }
      let s := { s with groups := s.groups.map fun (g : Group) => if g.team == team then { g with unproven := [] } else g }
      (s.modTeam team fun t =>
        { t with phase := .saved, latch := none, unproven := [], past := [], writing := false,
                 qsaved := t.qsaved ++ q.1.map fun (c : QCmd) => { c with fault := none } }).recount team

/-- An open instance is abandoned: the team stands as its checkpoint (R376). -/
def State.abandon (s : State) (team : Nat) : State :=
  match s.team? team with
  | some t =>
    (match t.phase == .resident && t.rOpen, t.ckpt with
    | true, some k => s.fromCkpt t k fun f => f.freeTrapRegs s.tick
    | _, _ => s)
  | none => s

/-- A team saved. -/
def State.saveTeam (s : State) (team : Nat) : State := (s.abandon team).shelve team

/-- PREEMPT_SAVE. -/
def execPreemptSave (cluster : Nat) (s : State) : Result :=
  .next <| match s.cluster? cluster with
  | none => s
  | some c =>
    let ts := s.clusterTeams cluster
    if c.phase != .resident || !c.preempt || s.clusterFailing cluster || !ts.all s.savable then s
    else
      let held := ts.any (·.brkRec.isSome)
      let s := (ts.foldl (fun s t => s.saveTeam t.id) s).sweep
      let s := if held then (ts.filter (·.phase == .resident)).foldl (fun s t =>
          s.modTeam t.id fun t => { t with phase := .held }) s else s
      s.modCluster cluster fun c =>
        { c with phase := if held then .held else .saved, preempt := false, since := s.clock }

/-! ## Restoring (R163, R177, R389) -/

/-- A held translation is over: the fibre translates afresh. -/
def Fibre.retranslate (f : Fibre) : Fibre :=
  let f := { f with waits := f.waits.filter fun h => !h.translates }
  if f.hold.translates then f.release f.hold else f

/-- A team put on a core, its groups at some offsets. -/
def State.restoreTeam (s : State) (team core : Nat) (offs : List Nat) : State :=
  match s.team? team with
  | none => s
  | some t =>
    if t.phase != .saved then s
    else
      let base := (s.accRun core t.accRows).getD 0
      let s := s.modTeam team fun t =>
        { t with core := core, phase := .resident, latch := none, qsaved := [], pointFault := none, accBase := base }
      let s := { s with
        groups := s.groups.map fun (g : Group) => if g.team == team then { g with roff := offs.getD g.grp g.roff } else g
        pend := s.pend.map fun (o : MemOp) => if o.fib.team == team then { o with core := core } else o
        fibres := s.fibres.map fun (f : Fibre) => if f.fid.team == team then f.retranslate else f }
      let s := t.qsaved.foldl (fun s c => s.setQueue core c.q (s.queue core c.q ++ [{ c with core := core }])) s
      s.formPaths team

/-- Step 6 of R372, and the record of a replay when the restore places the team (R381, R424). -/
def State.noteReplay (s : State) (t : Team) (fails : Option CheckSite) (old : Nat) : State :=
  match fails with
  | some site => s.note t.part 0x06 (s.teamQueue t) (CheckSite.row site) (atCore old)
      (BitVec.ofNat 64 (match s.team? t.id with | some u => u.core | none => 0))
  | none => s

/-- A saved cluster's teams put on a rectangle. -/
def State.putCluster (s : State) (c : Cluster) (origin : Nat) (cores : List (Nat × List Nat)) : State :=
  let ts := s.clusterTeams c.id
  let s := s.podAcquire (podOf origin)
  let s := ts.foldl (fun s t => match cores[t.rank]? with
    | some k => s.restoreTeam t.id k.1 k.2
    | none => s) s
  let s := ts.foldl (fun s t => (s.noteReplay t t.failing t.core).modTeam t.id fun t => { t with failing := none }) s
  s.modCluster c.id fun c =>
    { c with phase := .resident, origin := origin, preempt := false, avoid := [], since := s.clock }

/-- Another card is chosen first (R287, R288). -/
def State.forestalled (s : State) (c : Cluster) : Bool :=
  match s.clutch? c.clutch with | some x => s.outdone x | none => false

/-- CLUSTER_RESTORE. -/
def execClusterRestore (cluster origin : Nat) (s : State) : Result :=
  .next <| match s.cluster? cluster with
  | none => s
  | some c =>
    if c.phase != .saved || s.power != .on || s.forestalled c then s
    else match s.restorable c origin with | some cores => (s.putCluster c origin cores).sweep | none => s

/-! ## Replay (R372 to R374) -/

/-- R374: the checkpoint's fibres trap with 0x18 at their resume addresses; the `eret` of a handler resets REPLAY. A trap
that the checkpoint holds for a fibre is delivered after it. -/
def State.lastReplay (s : State) (t : Team) : State :=
  let a := s.ckSlotAddr t
  s.modFibs (fun f => f.fid.team == t.id) fun f =>
    { f with trap := some ⟨0x18, 0, 0, a, f.pc, f.pc, false, some f.pc⟩, later := f.trap }

/-- Steps 2 to 5 for one team. -/
def State.replayTeam (s : State) (t : Team) : State :=
  match t.rOpen, t.ckpt with
  | true, some k =>
    let site := t.failing
    let last := t.fatal || (site.isSome && t.replay == 2)
    let s := s.fromCkpt t k fun f => f.freeTrapRegs s.tick
    let s := if last then s.lastReplay t
      else s.modTeam t.id fun t =>
        { t with failing := site, replay := if site.isSome then t.replay + 1 else t.replay }
    s.shelve t.id
  | _, _ => s.shelve t.id

/-- A team may be stopped for a replay: its clauses have ended, and one with no open instance can be saved. -/
def State.replayable (s : State) (t : Team) : Bool :=
  t.phase == .ended || (t.phase == .resident && t.halting.isNone && !(s.running.any fun r => r.team == t.id)
    && (t.rOpen || s.savable t))

/-- REGION_REPLAY: the cluster of a failing team, placed at a rectangle, or waiting for one. -/
def execRegionReplay (cluster origin : Nat) (s : State) : Result :=
  .next <| match s.cluster? cluster with
  | none => s
  | some c =>
    let ts := s.clusterTeams cluster
    if c.phase != .resident || !s.clusterFailing cluster || !ts.all s.replayable then s
    else
      let bad := (ts.filter fun t => t.failing.isSome || t.fatal).map (·.core)
      let s1 := (ts.foldl (fun s t => s.replayTeam t) s).sweep
      let s1 := s1.modCluster cluster fun c => { c with phase := .saved, preempt := false, avoid := bad, since := s1.clock }
      match s1.cluster? cluster with
      | none => s1
      | some c => match s1.restorable c origin with | some cores => s1.putCluster c origin cores | none => s1

/-! ## The watchdog (R293 to R295) -/

/-- Step 1. -/
def execWatchdogPreempt (team : Nat) (s : State) : Result :=
  .next <| match s.team? team with
  | some t =>
    let lim := s.qT1 t.part (s.teamQueue t)
    if t.phase == .resident && !t.idleActed && lim != 0 && decide (cyclesOf lim ≤ t.idle) then
      (s.modTeam team fun t => { t with idleActed := true }).requestSave t.cluster
    else s
  | none => s

/-- Step 2. -/
def execWatchdogKill (team : Nat) (s : State) : Result :=
  .next <| match s.team? team with
  | some t =>
    let lim := s.qT2 t.part (s.teamQueue t)
    if t.phase == .resident && lim != 0 && decide (cyclesOf lim ≤ t.idle) then s.killClutch t.clutch 0x102 else s
  | none => s

/-- Step 3. -/
def execWatchdogFence (team : Nat) (s : State) : Result :=
  .next <| match s.team? team with
  | some t =>
    let q := s.teamQueue t
    let lim := s.qT3 t.part q - s.qT2 t.part q
    if t.phase == .dying && decide ((s.clutchOf t).killAt + cyclesOf lim ≤ s.clock) then s.fenceCore t.core else s
  | none => s

/-- R295: 1 ms after the fence a team of the core is not saved. -/
def execFenceSaveTimeout (team : Nat) (s : State) : Result :=
  .next <| match s.team? team with
  | some t =>
    let k := s.core t.core
    if t.phase == .resident && k.fenced && decide (k.fencedAt + cyclesOf 1000 ≤ s.clock) then s.killClutch t.clutch 0x102
    else s
  | none => s

end Sys2Proof.Machine
end

