-- ==== Sys2Proof/Machine/Hbm.lean ====
section
/-! DEFINITION. Events of the memory system: expiry and write-back in the pod L1s, the walkers and fault records, dead
frames, and the upkeep of the HBM devices (R178, R179, R221, R223, R237 to R240, R349, R350, R417). -/

namespace Sys2Proof.Machine

/-! ## The pod L1s (R178, R179) -/

/-- 2^20 cycles. -/
def l1Limit : Nat := 2 ^ 20

/-- L1_CLEAN_EXPIRE: what was fetched 2^20 cycles ago is dropped; bytes written since stay. -/
def execL1CleanExpire (pod base : Nat) (s : State) : Result :=
  let old := fun (c : Sector) => c.base == base && c.full && decide (c.filled + l1Limit ≤ s.clock)
  .next (s.modPod pod fun p =>
    { p with l1 := (p.l1.filter fun c => !(old c && !c.dirty)).map fun c =>
        if old c then { c with full := false, pois := 0 } else c })

/-- L1_DIRTY_WRITEBACK: at the latest 2^20 cycles after the first write, and at any time before. -/
def execL1DirtyWriteback (pod base : Nat) (s : State) : Result := .next (s.podFlush pod base)

/-! ## Walks (R221, R223) -/

/-- The walk has a walker: of the 64, those that hold unwritten faults serve no other. -/
def State.hasWalker (s : State) (n : Nat) : Bool :=
  let held := (s.faults.filter fun f => f.num.isNone).length
  decide ((s.walks.takeWhile fun w => w.id != n).length + held < 64)

/-- What waited on a walk goes on: fibres translate again, and prefetched lines are brought in. -/
def State.endWalk (s : State) (w : Walk) (t : Tlb) : State :=
  let s := w.pods.foldl (fun s p => s.tlbFill p t) s
  let mine : Hold → Bool := fun h => match h with | .walk n _ _ => n == w.id | _ => false
  let s := s.modFibs (fun f => mine f.hold || f.waits.any mine) fun f =>
    let f : Fibre := { f with waits := f.waits.filter fun h => !mine h }
    if mine f.hold then f.release f.hold else f
  -- a line that would trap is not brought in (R97)
  w.fills.foldl (fun s x =>
    let p := s.port (podOf x.core) ⟨x.part, x.team, x.core, x.idx, x.off, 256, 0, .r, .lines, .pld, false, false⟩
    match p.1 with
    | .ok l _ => p.2.prefetch x.core x.part x.rep l
    | _ => p.2) s

/-- A walk that faulted: its fibres wait for the host (R223); one that only `pld` waits on leaves nothing (R97). -/
def State.failWalk (s : State) (w : Walk) (e : WalkFail) : State :=
  if w.quiet then s
  else
    let f := s.faultOn w.part w.va w.addr w.core w.queue w.kind e
    let move := fun (h : Hold) => match h with
      | .walk n a k => if n == w.id then .fault f.1 a k else h
      | h => h
    f.2.modFibs (fun _ => true) fun b => { b with hold := move b.hold, waits := b.waits.map move }

/-- TRANSLATION_WALK. -/
def execTranslationWalk (n : Nat) (s : State) : Result :=
  .next <| match s.walks.find? fun w => w.id == n with
  | none => s
  | some w =>
    if !s.hasWalker n then s
    else
      let r := s.walk w.part w.va
      let s := { r.2 with walks := r.2.walks.filter fun x => x.id != n }
      match r.1 with
      | .ok t => s.endWalk w t
      | .error e => s.failWalk w e

/-- FAULT_RECORD_WRITE: the oldest held fault of a slice, when its ring has room (R417). -/
def execFaultRecordWrite (part : Nat) (s : State) : Result :=
  let p := s.part part
  .next <| match s.faults.find? fun f => f.part == part && f.num.isNone with
  | none => s
  | some f =>
    if !p.configured || decide (2 ^ p.frlog ≤ p.ftail - p.fhead) then s
    else
      let s := s.hubPut (hostSpace + p.frbase + 32 * (p.ftail % 2 ^ p.frlog)) f.words part
      let s := { s with faults := s.faults.map fun (x : FaultRec) =>
        if x.walk == f.walk then { x with num := some p.ftail } else x }
      (s.modPart part fun p => { p with ftail := p.ftail + 1 }).signal part 1

/-! ## Dead frames (R237, R238, R350) -/

/-- An address lies in a frame of local HBM. -/
def inFrame (f a : Nat) : Bool := spaceOf a == 0 && frameOf a == f

/-- DEAD_FRAME_FILL: a dead frame that a write waits for is filled (R237). -/
def execDeadFrameFill (f : Nat) (s : State) : Result :=
  .next (if fwDead (s.frame f) && (s.fillWait.any fun x => x.1 == f) then s.fillFrame f else s)

/-- Every line and replica of some places dropped from every cache, without write-back. -/
def State.dropLines (s : State) (p : Nat → Bool) : State :=
  let keep := fun (c : Sector) => !p c.base
  { s with
    pods := s.pods.map fun (x : Nat × Pod) => (x.1, { x.2 with l1 := x.2.l1.filter keep })
    teams := s.teams.map fun (t : Team) => { t with rbuf := t.rbuf.filter keep }
    l2 := s.l2.filter keep
    guests := s.guests.filter fun g => keep g.2
    reps := s.reps.filter fun r => keep r.2.2 }

/-- A frame marked dead: what is cached of it, what waits to be written to it, and the sibling cells whose state lies in
it (R297), are discarded. -/
def State.killFrame (s : State) (f : Nat) : State :=
  let w := s.frame f
  let s := s.dropLines (inFrame f)
  { s with mem := s.mem.clearFrame f, frames := s.frames.put f (w ||| 0x40000000),
           fillWait := s.fillWait.filter fun x => x.1 != f
           sib := s.sib.filter fun x => !inFrame f x.1 }

/-! ## The HBM devices (R239, R240) -/

/-- A pseudo-channel failed: its guest copies are dropped, writes that wait on it are reported, and it is logged. -/
def State.failChannel (s : State) (stack q : Nat) : State :=
  let k := stack * 64 + q
  let on := fun (a : Nat) => spaceOf a == 0 && s.channel a == k
  let gone := s.fillWait.filter fun x => on x.2.base
  let s := { s with
    badPc := setAdd s.badPc k
    guests := s.guests.filter fun g => !on g.2.base
    l2 := s.l2.map fun (c : Sector) => if on c.base then { c with sharers := 0 } else c
    fillWait := s.fillWait.filter fun x => !on x.2.base
    lost := s.lost ++ gone.map fun (x : Nat × Sector) => (x.2.part, x.2.base, none) }
  s.logEvent 0x05 (stack * 2 ^ 48 + q * 2 ^ 40)

/-- CA_PARITY_REPLAY: the third replay of one history that fails fails the pseudo-channel. -/
def execCaParityReplay (stack q : Nat) (ok : Bool) (s : State) : Result :=
  let k := stack * 64 + q
  .next <|
    if s.badPc.contains k then s
    else if ok then { s with caTries := s.caTries.set k 0 }
    else
      let n := NMap.get s.caTries k + 1
      if n < 3 then { s with caTries := s.caTries.set k n }
      else { s with caTries := s.caTries.set k 0 }.failChannel stack q

/-- A row's activation count. -/
def State.actCount (s : State) (stack q bank row : Nat) : Nat :=
  match s.acts.find? fun a => a.1 == (stack, q, bank, row) with | some a => a.2 | none => 0

/-- REFRESH_MANAGEMENT: a row's count has reached 512; its neighbours are refreshed, and the count is reset. -/
def execRefreshManagement (stack q bank row : Nat) (s : State) : Result :=
  .next (if s.actCount stack q bank row < 512 then s
    else { s with acts := s.acts.filter fun a => a.1 != (stack, q, bank, row) })

/-- ACTIVATION_SATURATE: a count of 1,023, or one read with a parity error; the bank is held. -/
def execActivationSaturate (stack q bank row : Nat) (parity : Bool) (s : State) : Result :=
  .next (if !parity && (s.actCount stack q bank row < 1023 || s.heldBanks.contains (stack, q, bank)) then s
    else
      { s with
        acts := ((stack, q, bank, row), 1023) :: s.acts.filter fun a => a.1 != (stack, q, bank, row)
        heldBanks := if s.heldBanks.contains (stack, q, bank) then s.heldBanks else (stack, q, bank) :: s.heldBanks
        }.logEvent (if parity then 0x02 else 0x07) (rowWhere stack q bank row))

/-- REFRESH_MANAGEMENT_COMPLETE: activations to a held bank resume. -/
def execRefreshManagementComplete (stack q bank : Nat) (s : State) : Result :=
  .next (s.refreshed stack q bank)

end Sys2Proof.Machine
end

