-- ==== Sys2Proof/Machine/Fabric.lean ====
section
/-! DEFINITION. Events of the CXL port and of the UALink ports, and requests of other packages (R241, R242, R351 to
R354, R392 to R394). -/

namespace Sys2Proof.Machine

/-! ## Expanders (R242) -/

/-- An address lies in an expander. -/
def inCxl (e a : Nat) : Bool := spaceOf a == 1 && a / 2 ^ 40 % 2 == e

/-- The sectors of an operation listed as lost, with the address it named. -/
def State.loseSectors (s : State) (o : MemOp) : State :=
  { s with lost := s.lost ++ o.sectors.map fun a => (o.part, a, some o.addr) }

/-- An outstanding operation at an expander that is gone: loads and atomics answer poison, the others are lost. -/
def State.loseOp (s : State) (o : MemOp) : State :=
  let bad : RegCell := ⟨0, true⟩
  match o.act with
  | .atom d ps op _ _ _ => s.endAtom o d ps op bad false
  | .cwb _ _ _ => s.finish o
  | .st _ _ _ _ => (s.loseSectors o).finish o
  | .ste _ _ _ _ _ => (s.loseSectors o).finish o
  | .red _ _ _ => (s.loseSectors o).finish o
  | a => s.endLoad o (a.dests.map fun d => (d, bad))

/-- Step 4 of R242: the commands that have touched an expander fail; one that reaches it later meets step 9 of R209. -/
def State.failTouching (s : State) (e : Nat) : State :=
  { s with cmds := s.cmds.map fun (c : Cmd) =>
      match c.cxl.find? (fun x => x.1 == e), c.phase with
      | none, _ => c
      | _, .failed _ _ => c
      | some x, _ => { c with phase := .failed 0x1D x.2, hold := .free } }

/-- R242. -/
def State.cxlDown (s : State) (e : Nat) : State :=
  if !(NMap.get s.cxl e).up then s
  else
    let s := { s with cxl := s.cxl.mod e fun x => { x with up := false } }
    let on := fun (l : Loc) => match l with | .mem a _ => inCxl e a | _ => false
    let s := (s.pend.filter fun o => o.places.any on).foldl (fun s o => s.loseOp o) s
    let s := { s with pods := s.pods.map fun (x : Nat × Pod) =>
      (x.1, { x.2 with comb := x.2.comb.filter fun c => !inCxl e c.addr }) }
    let held := ((s.pods.flatMap fun (x : Nat × Pod) => x.2.l1) ++ s.l2 ++ s.teams.flatMap (·.rbuf)).filter fun (c : Sector) =>
      inCxl e c.base && c.dirty
    let gone := (held.map fun (c : Sector) => (c.part, c.base)).eraseDups
    (({ s with lost := s.lost ++ gone.map fun (x : Nat × Nat) => (x.1, x.2, none) }.dropLines (inCxl e)).failTouching e).sweep

def execCxlLinkDown (e : Nat) (s : State) : Result := .next (s.cxlDown e)

/-- CXL_TIMEOUT: a request has passed the completion timeout. -/
def execCxlTimeout (e : Nat) (s : State) : Result := .next (s.cxlDown e)

/-! ## UALink ports (R393, R394) -/

/-- PACKAGE_LOST: R354 then applies to its outstanding and later accesses. -/
def execPackageLost (pkg : Nat) (s : State) : Result :=
  .next (if pkg = s.pkg ∨ 1024 ≤ pkg then s else { s with lostPkgs := setAdd s.lostPkgs pkg })

/-- FLIT_REPLAY: of a fresh flit, or of the one resent before, at most 16 times; every 4,096th of the port is logged. -/
def execFlitReplay (r : Replay) (s : State) : Result :=
  let p := NMap.get s.ports r.port
  let tries := if r.again then p.tries + 1 else 1
  let n := p.replays + 1
  let set := fun (k : Nat) => { s with ports := s.ports.mod r.port fun p => { p with replays := k, tries := tries } }
  .next <|
    if !p.up || (r.again && (p.tries == 0 || decide (16 ≤ p.tries))) then s
    else if n < 4096 then set n else (set 0).logEvent 0x03 r.port

/-- Requests sent on a port that is gone go out on another, under their sequence numbers (R393). -/
def State.resend (s : State) (port : Nat) : State :=
  { s with pend := s.pend.map fun (o : MemOp) =>
      match o.route with
      | some (k, n) => if k = port then { o with route := (s.portFor o.dpa).map fun k => (k, n) } else o
      | none => o }

/-- PORT_DOWN: a flit is still damaged after 16 replays. -/
def execPortDown (port : Nat) (s : State) : Result :=
  let p := NMap.get s.ports port
  .next <|
    if !p.up || p.tries != 16 then s
    else ({ s with ports := s.ports.mod port fun p => { p with up := false, tries := 0 } }.resend port).logEvent 0x04 port

/-! ## Requests of other packages (R351, R352) -/

/-- Bytes of device memory as an agent at the home reads them, each with its word's poison. -/
def State.homeBytes (s : State) (a n : Nat) : List (Byte × Bool) × State :=
  (span a n).foldl (fun (acc : List (Byte × Bool) × State) x =>
    let r := acc.2.readNat (Agent.hub 0) x onCoreAttr true 1
    (acc.1 ++ [(BitVec.ofNat 8 r.1.1, r.1.2)], r.2)) ([], s)

/-- The poison of each 8-byte word of a message (R377). -/
def wordPoison (bs : List (Byte × Bool)) : List Bool :=
  (List.range ((bs.length + 7) / 8)).map fun i => ((bs.drop (8 * i)).take 8).any (·.2)

/-- The bytes of a message with the poison of its words. -/
def withPoison (bs : List Byte) (p : List Bool) : List (Byte × Bool) := bs.zipIdx.map fun x => (x.1, p.getD (x.2 / 8) false)

/-- A write of up to the rest of a sector under the enables of its bits (R179): the words that a poisoned byte lies in
are poisoned, and only those written whole are clean (R380). -/
def sectorWrite (a : Nat) (bs : List (Byte × Bool)) (en : List Byte) : SecWrite :=
  let w := secBytes (a % 64) bs.length (leNat (bs.map (·.1))) false
  let en := (List.range bs.length).map fun i => en.getD i 0xFF
  let words := fun (p : Nat → Bool) => (List.range bs.length).foldl (fun (m : BitVec 8) i =>
    if p i then m ||| (1 <<< ((a % 64 + i) / 8)) else m) 0
  let mask := w.mask &&& BitVec.ofNat 512 (leNat en <<< (8 * (a % 64)))
  let bad := words fun i => (bs.getD i (0, false)).2
  { mask := mask, d := w.d &&& mask, pois := bad, clean := w.clean &&& ~~~bad &&& ~~~words fun i => en.getD i 0xFF != 0xFF }

/-- Bytes written at the home, sector by sector; `n` sectors at most. -/
def State.homePut (s : State) (a : Nat) (bs : List (Byte × Bool)) (en : List Byte) (part : Nat) : Nat → State
  | 0 => s
  | n + 1 =>
    if bs.isEmpty then s
    else
      let k := 64 - a % 64
      (s.writeSec (Agent.hub part) a onCoreAttr true (sectorWrite a (bs.take k) en)).homePut (a + k) (bs.drop k) (en.drop k) part n

def State.putBytes (s : State) (a : Nat) (bs : List Byte) (en : List Byte) (p : List Bool) (part : Nat) : State :=
  s.homePut a (withPoison bs p) en part (bs.length / 64 + 2)

/-- `sld` and `sldx` at the home: a value, and the token. -/
def State.sibRead (s : State) (a sha : Nat) (slot : Option Nat) : (Nat × List Byte × List Bool) × State :=
  let c := s.readCell sha
  let v := c.1.read slot
  ((a, leBytes 8 v.v.toNat ++ leBytes 8 c.1.token.toNat, [v.p]), c.2)

/-- A request performed at the home, and its answer: address, bytes, and the poison of each 8-byte word. -/
def State.inbound (s : State) : InReq → (Nat × List Byte × List Bool) × State
  | .read a n =>
    let r := s.homeBytes (a % 2 ^ 39) n
    ((a, r.1.map (·.1), wordPoison r.1), r.2)
  | .write a bs en p => ((a, [], []), s.putBytes (a % 2 ^ 39) bs en p (s.ownerPart (a % 2 ^ 39)))
  | .atom op wide a b c bp cp =>
    let l := Loc.mem (a % 2 ^ 39) onCoreAttr
    let r := s.applyAtom (Agent.hub (s.ownerPart (a % 2 ^ 39))) l true op wide ⟨b, bp⟩ ⟨c, cp⟩
    ((a, leBytes 8 r.1.1.v.toNat ++ leBytes 1 (if r.1.2 then 1 else 0), [r.1.1.p]), r.2)
  | .sld a sha => s.sibRead a sha none
  | .sldx a sha slot => s.sibRead a sha (some slot)
  | .sst a sha sop v tk vp =>
    let r := s.readCell sha
    match r.1.store sop ⟨v, vp⟩ ⟨tk, false⟩ with
    | none => ((a, [0xFF], []), r.2)
    | some (_, 3) => ((a, [3], []), r.2)
    | some (c, st) => ((a, leBytes 1 st, []), r.2.putCell sha (a % 2 ^ 39) (s.ownerPart (a % 2 ^ 39)) c)
  | .srec op force val a sha tk v vp =>
    let c := s.readCell sha
    let s := c.2
    match c.1.reconcile op force tk (if val then some ⟨v, vp⟩ else none) with
    | none => ((a, leBytes 8 0 ++ [0xFF], []), s)
    | some (x, ok) =>
      let s := if x = c.1 then s else s.putCell sha (a % 2 ^ 39) (s.ownerPart (a % 2 ^ 39)) x
      ((a, leBytes 8 x.token.toNat ++ leBytes 1 (if ok then 1 else 0), []), s)

/-- UALINK_INBOUND_REQUEST: a request received before is a duplicate, and is discarded (R352). -/
def execUalinkInboundRequest (r : Inbound) (s : State) : Result :=
  .next <|
    if s.received.contains (r.src, r.seq) then s
    else
      let x := s.inbound r.req
      { x.2 with answers := x.2.answers ++ [x.1], received := (r.src, r.seq) :: x.2.received }

end Sys2Proof.Machine
end

