-- ==== Sys2Proof/Machine/Media.lean ====
section
/-! DEFINITION. Display heads and encoders: the scan of a frame, and the ring entries (R408 to R411, R435, R436). -/

namespace Sys2Proof.Machine

/-! ## Records (R408, R435) -/

def Head.w (h : Head) (i : Nat) : Word := wordAt h.words i
def Head.width (h : Head) : Nat := fieldOf (h.w 1) 63 48
def Head.height (h : Head) : Nat := fieldOf (h.w 1) 47 32
def Head.pitch (h : Head) : Nat := fieldOf (h.w 1) 31 0
def Head.period (h : Head) : Nat := fieldOf (h.w 2) 63 32
/-- RGBA8 pixels, two in a word. -/
def Head.narrow (h : Head) : Bool := fieldOf (h.w 2) 7 4 == 1
def Head.enc (h : Head) : Nat := fieldOf (h.w 2) 3 1
def Head.on (h : Head) : Bool := (h.w 2).getLsbD 0

/-- Word `i` of the encoder record, from 1. -/
def Enc.w (e : Enc) (i : Nat) : Word := wordAt e.words (i - 1)
def Enc.rlog (e : Enc) : Nat := fieldOf (e.w 3) 63 56
def Enc.keyint (e : Enc) : Nat := fieldOf (e.w 4) 47 32
def Enc.on (e : Enc) : Bool := (e.w 6).getLsbD 0

/-- The slices of a head and of an encoder (R9). -/
def State.headPart (s : State) (h : Nat) : Nat := h * s.mode / 16
def State.encPart (s : State) (e : Nat) : Nat := e * s.mode / 8

/-! ## The scan (R409, R411) -/

/-- A word of the target at its home; none when it cannot be read. Nothing is recorded or held. -/
def State.scanWord (s : State) (part : Nat) (a : Word) : Option (Word × Bool) × State :=
  let q := hubReq part a 8 8 .r (.load false)
  let read := fun (r : PortRes × State) =>
    match r.1 with
    | .ok l _ => let w := r.2.getLoc (Agent.hub part) l true 8; (some (BitVec.ofNat 64 w.1.1, w.1.2), w.2)
    | _ => (none, r.2)
  let r := s.port 0 q
  match r.1 with
  | .miss va =>
    let w := r.2.walk part va
    (match w.1 with
    | .ok t => read ((w.2.tlbFill 0 t).port 0 q)
    | .error _ => (none, w.2))
  | _ => read r

/-- The pixels that a word holds. -/
def Head.split (h : Head) (w : Word) : List Word :=
  if h.narrow then [w &&& 0xFFFFFFFF, w >>> 32] else [w]

/-- Words of a row of the target. -/
def Head.rowWords (h : Head) : Nat := h.width / if h.narrow then 2 else 1

/-- Word `i` of the target, in ascending address order. -/
def State.targetWord (s : State) (h : Head) (part i : Nat) : Option (Word × Bool) × State :=
  match addrAdd (h.w 0) ((i / h.rowWords * h.pitch + 8 * (i % h.rowWords) : Nat) : Int) with
  | some a => s.scanWord part a
  | none => (none, s)

/-- The head may read: its frame period starts, or has been read in part. -/
def State.headReads (s : State) (h : Head) : Bool :=
  s.power == .on && h.on && (NMap.get s.encs h.enc).on
    && (h.begun.isSome || match h.start with | some t => decide (t + cyclesOf h.period ≤ s.clock) | none => true)

/-- A word read before the rest of the frame: a later write leaves it old. -/
def State.headWord (s : State) (head : Nat) : State :=
  let h := NMap.get s.heads head
  if s.headReads h && decide (h.early.length < h.height * h.rowWords) then
    let r := s.targetWord h (s.headPart head) h.early.length
    { r.2 with heads := r.2.heads.mod head fun h =>
        { h with early := h.early ++ [r.1], begun := some (h.begun.getD s.clock) } }
  else s

/-- Row `y`: its pixels as the encoder receives them, and how many were substituted. -/
def State.scanRow (s : State) (h : Head) (part y : Nat) : (List Word × Nat) × State :=
  let per : Nat := if h.narrow then 2 else 1
  (List.range h.rowWords).foldl (fun (acc : (List Word × Nat) × State) (i : Nat) =>
    let k := y * h.rowWords + i
    let r := match h.early[k]? with
      | some w => (w, acc.2)
      | none => acc.2.targetWord h part k
    match r.1 with
    | some (w, false) => ((acc.1.1 ++ h.split w, acc.1.2), r.2)
    | _ =>
      let old := (List.range per).map fun k => (h.prev.getD y []).getD (per * i + k) 0
      ((acc.1.1 ++ old, acc.1.2 + per), r.2)) (([], 0), s)

/-- A whole frame. -/
def State.scanFrame (s : State) (h : Head) (part : Nat) : (List (List Word) × Nat) × State :=
  (List.range h.height).foldl (fun (acc : (List (List Word) × Nat) × State) y =>
    let r := acc.2.scanRow h part y
    ((acc.1.1 ++ [r.1.1], acc.1.2 + r.1.2), r.2)) (([], 0), s)

/-- HEAD_FRAME_SCAN: at the start of a period, for a head whose encoder is on; frames wait there in order. -/
def execHeadFrameScan (head : Nat) (s : State) : Result :=
  let h := NMap.get s.heads head
  .next <|
    if !s.headReads h then s
    else
      let time := h.begun.getD s.clock
      let r := s.scanFrame h (s.headPart head)
      let s := { r.2 with heads := r.2.heads.mod head fun h =>
        { h with prev := r.1.1, start := some time, early := [], begun := none } }
      { s with encs := s.encs.mod h.enc fun e =>
        { e with subs := e.subs + r.1.2, input := e.input ++ [⟨head, time, r.1.2, h.width, h.narrow, r.1.1.flatten⟩] } }

/-! ## The encoder's input (R410) -/

/-- A binary16 component clamped to [0, 1], in units of 2^−24; a NaN is 0. -/
def halfUnits (x : Nat) : Nat :=
  let e := x / 1024 % 32
  let f := x % 1024
  if 32768 ≤ x ∨ (e = 31 ∧ f ≠ 0) then 0 else if e = 31 then 2 ^ 24
  else min (2 ^ 24) (if e = 0 then f else (1024 + f) * 2 ^ (e - 1))

/-- R, G and B of a pixel, and the unit of which they are multiples. -/
def components (narrow : Bool) (px : Word) : (Nat × Nat × Nat) × Nat :=
  if narrow then ((fieldOf px 7 0, fieldOf px 15 8, fieldOf px 23 16), 255)
  else ((halfUnits (fieldOf px 15 0), halfUnits (fieldOf px 31 16), halfUnits (fieldOf px 47 32)), 2 ^ 24)

/-- A quotient rounded to nearest even. -/
def nearestDiv (n d : Nat) : Nat :=
  let q := n / d
  if d < 2 * (n % d) ∨ (2 * (n % d) = d ∧ q % 2 = 1) then q + 1 else q

/-- The BT.709 luma of a pixel, times 10,000 units. -/
def lumaSum (c : Nat × Nat × Nat) : Nat := 2126 * c.1 + 7152 * c.2.1 + 722 * c.2.2

/-- Y′ of a pixel, 10-bit limited range: 64 to 940 (log 12). -/
def lumaCode (narrow : Bool) (px : Word) : Nat :=
  let c := components narrow px
  64 + nearestDiv (876 * lumaSum c.1) (10000 * c.2)

/-- C′b and C′r of a pixel, exact, as what 10-bit limited range rounds: 896 (B − Y′) ÷ 1.8556 + 512 in units of
1 ÷ (18,556 units), 896 (R − Y′) ÷ 1.5748 + 512 in units of 1 ÷ (15,748 units). -/
def chromaSums (narrow : Bool) (px : Word) : Nat × Nat :=
  let c := components narrow px
  (512 * 18556 * c.2 + 8960000 * c.1.2.2 - 896 * lumaSum c.1, 512 * 15748 * c.2 + 8960000 * c.1.1 - 896 * lumaSum c.1)

/-- A 10-bit limited-range chroma code, 64 to 960, of an exact sample in units of 1 ÷ `d`. -/
def chromaCode (n d : Nat) : Nat := max 64 (min 960 (nearestDiv n d))

/-- A plane of chroma, halved both ways and rounded (R410). -/
def chromaPlane (width d : Nat) (l : List Nat) : List Nat :=
  (List.range (l.length / 4)).map fun i => chromaCode (Config.halved l width i) d

/-- What an encoder codes of a frame, in 4:2:0: Y′ of each pixel, then C′b and C′r of each block of four. -/
def frameCodes (f : Frame) : List Nat :=
  let unit := if f.narrow then 255 else 2 ^ 24
  f.px.map (lumaCode f.narrow) ++ chromaPlane f.width (18556 * unit) (f.px.map fun w => (chromaSums f.narrow w).1)
    ++ chromaPlane f.width (15748 * unit) (f.px.map fun w => (chromaSums f.narrow w).2)

/-! ## The bitstream (R410, R436) -/

/-- A number as OBU sizes are written: seven bits to a byte, the low ones first. -/
def leb128 : Nat → Nat → List Byte
  | 0, _ => []
  | n + 1, x => if x < 128 then [BitVec.ofNat 8 x] else BitVec.ofNat 8 (128 + x % 128) :: leb128 n (x / 128)

/-- Part `k` of a bitstream, which the spec leaves open (log 12). -/
def freePart (k : Nat) (args pix : List Nat) : List Byte :=
  (List.range (Config.streamLen (k :: args) pix)).map (Config.streamByte (k :: args) pix)

/-- An OBU with its size: its type in bits 6 to 3 of its header byte. -/
def obu (type : Nat) (payload : List Byte) : List Byte :=
  BitVec.ofNat 8 (8 * type + 2) :: (leb128 10 payload.length ++ payload)

/-- A NAL unit in the Annex B format: the start code, its type in bits 6 to 1 of its header's first byte, its payload. -/
def nalUnit (type : Nat) (payload : List Byte) : List Byte :=
  [0, 0, 0, 1, BitVec.ofNat 8 (2 * type), 1] ++ payload

/-- A frame's bitstream: for AV1 a temporal unit, whose temporal delimiter comes first and which has a sequence header at
a key frame; for HEVC an access unit, at a key frame an IDR picture after its VPS, SPS and PPS (R436, log 12). -/
def bitstream (hevc key : Bool) (args pix : List Nat) : List Byte :=
  if hevc then
    (if key then nalUnit 32 (freePart 1 args pix) ++ nalUnit 33 (freePart 2 args pix) ++ nalUnit 34 (freePart 3 args pix) else [])
      ++ nalUnit (if key then 19 + Config.streamLen (4 :: args) pix % 2 else Config.streamLen (4 :: args) pix % 2) (freePart 0 args pix)
  else
    obu 2 [] ++ (if key then obu 1 (freePart 1 args pix) else []) ++ obu 6 (freePart 0 args pix)

/-! ## Ring entries (R436) -/

/-- A place of the ring or of its pointers: in device HBM or host memory (R435). -/
def State.ringPlace (s : State) (part : Nat) (a : Word) (len align : Nat) : Reach × State :=
  let r := s.hubReach part a len align .w .store .engineWrite 0xFF
  match r.1 with
  | .ok (.mem p x) ps => (if spaceOf p == 0 || spaceOf p == 2 then .ok (.mem p x) ps else .trap 0x0C, r.2)
  | .ok _ _ => (.trap 0x0C, r.2)
  | x => (x, r.2)

/-- A run of bytes under the slice's table, in pieces of 32 bytes: their places, or what the first one that cannot
be reached meets. -/
def State.ringPlaces (s : State) (part : Nat) : List Word → Except (Option Nat) (List Loc) × State
  | [] => (.ok [], s)
  | a :: l =>
    let r := s.ringPlace part a 32 8
    match r.1 with
    | .trap _ => (.error none, r.2)
    | .wait f => (.error (some f), r.2)
    | .ok p _ =>
      let x := r.2.ringPlaces part l
      (match x.1 with | .ok ps => .ok (p :: ps) | .error e => .error e, x.2)

/-- Four words put at each place. -/
def State.putRing (s : State) (part : Nat) : List Loc → List Word → State
  | p :: ps, ws =>
    ((ws.take 4).zipIdx.foldl (fun s (x : Word × Nat) =>
      s.putLoc (Agent.hub part) (p.fwd (8 * x.2)) true 8 x.1.toNat false) s).putRing part ps (ws.drop 4)
  | [], _ => s

/-- The words of bytes, padded with zero bytes to 32. -/
def ringWords (bs : List Byte) : List Word :=
  (List.range ((bs.length + 31) / 32 * 4)).map fun i => BitVec.ofNat 64 (leNat ((bs.drop (8 * i)).take 8))

/-- The frame is dropped whole. -/
def Enc.drop (e : Enc) : Enc :=
  { e with dropped := e.dropped + 1, resync := true, input := e.input.tail, fault := none, frameNo := e.frameNo + 1 }

/-- The pointer block: WR and RD, with their places. -/
def State.ringPointers (s : State) (part : Nat) (e : Enc) : Except (Option Nat) (Loc × Nat × Nat) × State :=
  let r := s.ringPlace part (e.w 2) 16 16
  match r.1 with
  | .trap _ => (.error none, r.2)
  | .wait f => (.error (some f), r.2)
  | .ok p _ =>
    let wr := r.2.getLoc (Agent.hub part) p true 8
    let rd := wr.2.getLoc (Agent.hub part) (p.fwd 8) true 8
    (.ok (p, wr.1.1, rd.1.1), rd.2)

/-- The header of a PAD entry: what R436 does not say of it is free (log 8). -/
def padHeader (tick : Nat) : List Word :=
  let free := fun k => Config.freeNat tick k
  [BitVec.ofNat 64 (free 32), BitVec.ofNat 64 (free 33 % 16 * 16 + 4 + free 34 % 4), BitVec.ofNat 64 (free 35),
   BitVec.ofNat 64 (free 36 % 2 ^ 32 * 2 ^ 32)]

/-- The encoder's next frame is a key frame. -/
def Enc.keyNext (e : Enc) : Bool := e.frameNo == 0 || e.resync || decide (e.keyint ≤ e.sinceKey)

/-- The bitstream that an encoder makes of a frame at a step. -/
def Enc.stream (e : Enc) (tick : Nat) (f : Frame) : List Byte :=
  let args := [fieldOf (e.w 4) 63 0, fieldOf (e.w 5) 63 40, if e.keyNext then 1 else 0, e.frameNo, tick]
  bitstream (fieldOf (e.w 4) 63 56 == 1) e.keyNext args (frameCodes f)

/-- An encoder with a frame: the ring entry, where it fits (R436). -/
def State.writeFrame (s : State) (part n : Nat) (e : Enc) (f : Frame) : State :=
  let key := e.keyNext
  let stream := e.stream s.tick f
  let len := stream.length
  let entry := 32 + (len + 31) / 32 * 32
  let size := 2 ^ e.rlog
  let set := fun (s : State) (f : Enc → Enc) => { s with encs := s.encs.mod n f }
  let p := s.ringPointers part e
  match p.1 with
  | .error (some f) => set p.2 fun e => { e with fault := some f }
  | .error none => set p.2 Enc.drop
  | .ok (ptr, wr, rd) =>
    let off := wr % size
    let pad := if size < off + entry then size - off else 0
    if size - (wr + 2 ^ 64 - rd) % 2 ^ 64 < pad + entry then set p.2 Enc.drop
    else
      let head0 : List Word :=
        [BitVec.ofNat 64 (e.frameNo % 2 ^ 32 * 2 ^ 32 + len % 2 ^ 32),
         BitVec.ofNat 64 (f.head * 16 + (if e.resync then 2 else 0) + (if key then 1 else 0)),
         BitVec.ofNat 64 f.time, BitVec.ofNat 64 (f.subs % 2 ^ 32 * 2 ^ 32)]
      let bits := ringWords stream
      let at_ := fun (o : Nat) => mkAddr (indexOf (e.w 1)) (offsetOf (e.w 1) + o)
      let first := if pad = 0 then off else 0
      let places := (if pad = 0 then [] else [at_ off]) ++ (List.range (entry / 32)).map fun i => at_ (first + 32 * i)
      let r := p.2.ringPlaces part places
      match r.1 with
      | .error (some f) => set r.2 fun e => { e with fault := some f }
      | .error none => set r.2 Enc.drop
      | .ok ps =>
        let s := r.2.putRing part ps ((if pad = 0 then [] else padHeader r.2.tick) ++ head0 ++ bits)
        let s := s.putLoc (Agent.hub part) ptr true 8 ((wr + pad + entry) % 2 ^ 64) false
        let s := set s fun e =>
          { e with frames := e.frames + 1, bytes := e.bytes + len, frameNo := e.frameNo + 1, resync := false, input := e.input.tail,
                   sinceKey := if key then 1 else e.sinceKey + 1 }
        s.signal part 2

/-- ENCODER_RING_WRITE: the oldest frame. -/
def execEncoderRingWrite (enc : Nat) (s : State) : Result :=
  let e := NMap.get s.encs enc
  .next <| match e.input with
  | [] => s
  | f :: _ =>
    if e.fault.isSome || s.power != .on then s
    else if !e.on then { s with encs := s.encs.mod enc fun e => { e with input := [] } }
    else s.writeFrame (s.encPart enc) enc e f

end Sys2Proof.Machine
end

