-- ==== Sys2Proof/Machine/Host.lean ====
section
/-! DEFINITION. Commands of the host and its accesses to BAR0 and to device memory (R185, R232, R234, R238, R297,
R408, R412 to R417, R421, R422, R434, R435, R438, R441). -/

namespace Sys2Proof.Machine

/-! ## Taking a command (R413, R416, R441) -/

/-- How a command ends: taken and recorded, taken with no record of its own, or rejected for a reason of R441. -/
inductive Verdict where
  | ok
  | quiet
  | no (reason : Nat)
  deriving DecidableEq, Repr

/-- The function is presented (R412, R431). -/
def State.hasFn (s : State) (fn : Nat) : Bool := s.power == .on && decide (fn < s.mode) && !(s.part fn).disabled

/-- A command's record: its number and the queue it names. -/
def State.noteCommand (s : State) (fn queue n : Nat) : Verdict → State
  | .ok => s.note fn 0x01 queue 0 nowhere (BitVec.ofNat 64 (n % 2 ^ 32))
  | .quiet => s
  | .no r => s.note fn 0x02 queue 0 nowhere (BitVec.ofNat 64 (n % 2 ^ 32 + r * 2 ^ 32))

/-- A command of a function: dropped while the slice is unconfigured, unless `early`; numbered and recorded once it
is configured, the TABLES that configures it being number 0. -/
def State.hostCmd (s : State) (fn : Nat) (early : Bool) (queue : Nat) (f : Nat → State → Verdict × State) : State :=
  if !s.hasFn fn then s
  else if (s.part fn).configured then
    let n := (s.part fn).nextCmd
    let r := f n (s.modPart fn fun p => { p with nextCmd := p.nextCmd + 1 })
    r.2.noteCommand fn queue n r.1
  else if early then
    let r := f 0 s
    if (r.2.part fn).configured then
      (r.2.modPart fn fun p => { p with nextCmd := 1 }).noteCommand fn queue 0 r.1
    else r.2
  else s.modPart fn fun p => { p with unset := p.unset + 1 }

/-- A command with its checks: the first that fails rejects it. -/
def refuse (l : List (Bool × Nat)) : Option Nat := (l.find? (·.1)).map (·.2)

/-- A command of one slice's own table: word 0 [63:16] is 0, then its checks, then its effect. -/
def State.cmdOf (s : State) (fn : Nat) (early : Bool) (queue : Nat) (c : HostCmd) (checks : State → List (Bool × Nat))
    (f : State → State) : State :=
  s.hostCmd fn early queue fun _ s =>
    match refuse ((c.hi != 0, 1) :: checks s) with
    | some r => (.no r, s)
    | none => (.ok, f s)

/-- A write of BAR0 that R412 does not allow, or any other access to it: no effect, and recorded. -/
def State.barFault (s : State) (fn off : Nat) : State :=
  if s.hasFn fn then s.note fn 0x02 0xFF 0 nowhere (BitVec.ofNat 64 (off % 2 ^ 32 + 7 * 2 ^ 32)) else s

/-! ## SUBMIT (R280, R413) -/

/-- A submission joins those of its function; the front end takes it later. -/
def execSubmit (fn : Nat) (c : HostCmd) (s : State) : Result :=
  .next (s.hostCmd fn false c.queue.toNat fun n s =>
    if c.hi != 0 then (.no 1, s)
    else
      let (k, s) := s.newId
      let x : Sub :=
        { id := k, part := fn, card := c.w1, cmd := some n, queue := c.queue.toNat, fib := none, run := 0, trap := default,
          priv := false, floor := 0, hold := .free }
      (.quiet, { s with subs := s.subs ++ [x] }))

/-! ## TABLES (R415, R416) -/

/-- The frames of a run of DPAs are all mapped and owned by a slice. -/
def State.ownsRun (s : State) (fn a n : Nat) : Bool :=
  decide (a + n ≤ 2 ^ 39) && (List.range ((a + n - 1) / 2 ^ 20 + 1 - a / 2 ^ 20)).all fun i =>
    let w := s.frame (a / 2 ^ 20 + i)
    fwV w && fwOwner w == fn

/-- The runs of DPAs that a TABLES places. -/
def tableRuns (c : HostCmd) : List (Nat × Nat) :=
  [(fieldOf c.w1 55 0, 32 * 2 ^ fieldOf c.w1 63 56), (fieldOf c.w2 55 0, 8192), (fieldOf c.w4 55 0, c.w5.toNat),
   (fieldOf c.w6 55 0, 32 * 2 ^ fieldOf c.w6 63 56)]

def runsMeet (x y : Nat × Nat) : Bool := decide (x.1 < y.1 + y.2) && decide (y.1 < x.1 + x.2)

/-- Two of the runs overlap. -/
def overlap : List (Nat × Nat) → Bool
  | [] => false
  | x :: l => l.any (runsMeet x) || overlap l

/-- The limits of R415's table. -/
def tablesOk (c : HostCmd) : Bool :=
  let btlog := fieldOf c.w1 63 56
  let frlog := fieldOf c.w3 55 48
  let jlog := fieldOf c.w6 63 56
  decide (3 ≤ btlog) && decide (btlog ≤ 20) && fieldOf c.w1 55 0 % 4096 == 0 && fieldOf c.w2 55 0 % 8192 == 0
    && decide (7 ≤ frlog) && decide (frlog ≤ 16) && fieldOf c.w3 47 0 % 4096 == 0 && fieldOf c.w4 55 0 % 65536 == 0
    && c.w5.toNat % 65536 == 0 && decide (2 ^ 21 ≤ c.w5.toNat) && decide (12 ≤ jlog) && decide (jlog ≤ 20)
    && fieldOf c.w6 55 0 % 4096 == 0 && fieldOf c.w7 47 0 % 4096 == 0
    && !overlap (tableRuns c)
    && !runsMeet (fieldOf c.w3 47 0, 32 * 2 ^ frlog) (fieldOf c.w7 47 0, 32 * 2 ^ jlog)

/-- The hold of an agent is the fault's. -/
def Hold.onFault (h : Hold) (n : Nat) : Bool := match h with | .fault k _ _ => k == n | _ => false

/-- A configured slice is busy (R416). -/
def State.sliceBusy (s : State) (fn : Nat) : Bool :=
  let p := s.part fn
  p.configured && ((s.clutches.any fun c => c.part == fn && (c.phase == .intake || c.phase == .queued))
    || (s.clusters.any fun c => c.part == fn && (c.phase == .saved || c.phase == .held))
    || (s.faults.any fun f => f.part == fn && s.fibres.any fun b => b.hold.onFault f.walk || b.waits.any fun h => h.onFault f.walk) || p.fhead != p.ftail || p.jhead != p.jtail)

def State.setTables (s : State) (fn : Nat) (c : HostCmd) : State :=
  let s := (s.dropDescs fn fun _ => true).dropLeaves fun t => t.part == fn
  s.modPart fn fun p => { p with
    configured := true, btlog := fieldOf c.w1 63 56, btbase := fieldOf c.w1 55 0, ptroot := fieldOf c.w2 55 0,
    frlog := fieldOf c.w3 55 48, frbase := fieldOf c.w3 47 0, cpbase := fieldOf c.w4 55 0, cpsize := c.w5.toNat,
    jlog := fieldOf c.w6 63 56, jbase := fieldOf c.w6 55 0, jmirror := fieldOf c.w7 47 0, dcache := [] }

def execTables (fn : Nat) (c : HostCmd) (s : State) : Result :=
  .next (s.cmdOf fn true 0xFF c (fun s =>
    [(fieldOf c.w2 63 56 != 0 || fieldOf c.w3 63 56 != 0 || fieldOf c.w4 63 56 != 0 || fieldOf c.w7 63 48 != 0, 1),
     (!tablesOk c, 3), (!(tableRuns c).all fun r => s.ownsRun fn r.1 r.2, 5), (s.sliceBusy fn, 4)]) fun s => s.setTables fn c)

/-! ## FRAME, DEAD, PROFILE, SHADOW (R207, R232, R234, R235, R238, R297) -/

def frameCount : Nat := 2 ^ 19

/-- A frame has an entry, and the function's slice owns it. -/
def State.frameOwned (s : State) (fn f : Nat) : Bool :=
  !s.stacksOff.contains (f % 8) && fwOwner (s.frame f) == fn

/-- Another mapped frame lies at the place that an entry names. -/
def State.placeTaken (s : State) (f : Nat) (w : Word) : Bool :=
  let same := fun (v : Word) => fwV v && fwStack v == fwStack w && fwSfn v == fwSfn w
  let home := fwSfn w * 8 + fwStack w
  (s.frames.any fun x => x.1 != f && same x.2) || (home != f && same (s.frame home))

/-- The entry as FRAME leaves it: DEAD as it was, set by a change of PROFILE, STACK or SFN, or by V from 0 to 1. -/
def frameKept (old new : Word) : Bool :=
  fwProfile old == fwProfile new && fwStack old == fwStack new && fwSfn old == fwSfn new && !(fwV new && !fwV old)

/-- The name that a place has after a change of the frame table, named before as in `old` (R222). -/
def Loc.renamed (old new : State) (l : Loc) : Loc :=
  match l with
  | .mem a t => if spaceOf a = 0 then .mem (new.nameOf (old.frame (frameOf a)) a) t else l
  | l => l

/-- Accesses translated before a change of the frame table still go where the old entry put them (R222). -/
def State.renamed (s old : State) : State :=
  let at_ := Loc.renamed old s
  let base := fun (a : Nat) => if spaceOf a = 0 then s.nameOf (old.frame (frameOf a)) a else a
  let act := fun (a : OpAct) => match a with
    | .ldx d k e f out sc => .ldx d k e f out (sc.map at_)
    | .cwb inv ls n => .cwb inv (ls.map base) n
    | a => a
  { s with
    pend := s.pend.map fun (o : MemOp) => { o with loc := at_ o.loc, act := act o.act }
    running := s.running.map fun (r : ClauseRun) => { r with plan := r.plan.map fun (a : Access) =>
      { a with loc := at_ a.loc, scale := a.scale.map at_, lines := a.lines.map at_ } }
    pods := s.pods.map fun (x : Nat × Pod) => (x.1, { x.2 with comb := x.2.comb.map fun c => { c with addr := base c.addr } }) }

def State.setFrame (s : State) (f : Nat) (new : Word) : State :=
  let old := s.frame f
  let put := fun (s : State) => { s with frames := s.frames.put f (if fwDead old then new ||| 0x40000000 else new &&& ~~~0x40000000) }
  (if frameKept old new then put s else (put s).killFrame f).renamed s

def execFrame (fn : Nat) (c : HostCmd) (s : State) : Result :=
  let f := c.w1.toNat
  .next (s.cmdOf fn false 0xFF c (fun s =>
    [(fieldOf c.w2 63 32 != 0 || fieldOf c.w2 29 27 != 0 || c.w2.getLsbD 19, 1), (decide (frameCount ≤ f), 3),
     (!s.frameOwned fn f, 5), (s.stacksOff.contains (fwStack c.w2), 3),
     (fwOwner c.w2 != ownerOf s.mode (fwStack c.w2), 3), (fwOwner c.w2 != fn, 5), (fwV c.w2 && s.placeTaken f c.w2, 3)])
    fun s => s.setFrame f c.w2)

/-- DEAD: the frames' lines are dropped, then each is dead and its cached translations invalid. -/
def execDead (fn : Nat) (c : HostCmd) (s : State) : Result :=
  let f := c.w1.toNat
  let n := c.w2.toNat
  .next (s.cmdOf fn false 0xFF c (fun s =>
    [(decide (frameCount < f + n), 3), (!(span f n).all fun k => s.frameOwned fn k, 5)]) fun s =>
      ((span f n).foldl (fun s k => s.killFrame k) s).dropLeaves fun t => decide (0 < n) && t.reaches f n)

/-- No combination of the masks' low six bits cancels. -/
def independent (ms : List (BitVec 12)) : Bool :=
  (span 1 63).all fun k =>
    (List.range 6).foldl (fun (x : Nat) i => if k / 2 ^ i % 2 = 1 then x ^^^ ((ms.getD i 0).toNat % 64) else x) 0 != 0

def profileMasks (c : HostCmd) : List Word := [c.w2, c.w3, c.w4, c.w5, c.w6, c.w7]

def execProfile (fn : Nat) (c : HostCmd) (s : State) : Result :=
  let k := c.w1.toNat
  let ms := (profileMasks c).map fun w => w.extractLsb' 0 12
  .next (s.cmdOf fn false 0xFF c (fun s =>
    [(decide (15 < k), 3), ((profileMasks c).any fun w => fieldOf w 63 12 != 0, 3), (!independent ms, 3),
     (s.frames.any fun x => fwProfile x.2 == k && !fwDead x.2, 3)]) fun s => { s with profiles := s.profiles.put k ms })

/-- SHADOW: a zero fill of the frames, which live from then on (R203, R237, R297): every cell whose state lies there has
CLOCK 0 and no slot. -/
def execShadow (fn : Nat) (c : HostCmd) (s : State) : Result :=
  let f := c.w1.toNat
  let n := c.w2.toNat
  .next (s.cmdOf fn false 0xFF c (fun s =>
    [(decide (frameCount < f + n), 3), (!(span f n).all fun k => s.frameOwned fn k, 5)]) fun s =>
      let s := { s with sib := s.sib.filter fun x => !(decide (f * 2 ^ 20 ≤ x.1) && decide (x.1 < (f + n) * 2 ^ 20)) }
      (span f n).foldl (fun s k =>
        { (s.dropLines (inFrame k)) with fillWait := s.fillWait.filter fun x => x.1 != k }.fillFrame k) s)

/-! ## FAULT (R223, R417) -/

/-- The address and word of a hold. -/
def Hold.first (h : Hold) : Word × Nat := match h with | .fault _ a k => (a, k) | _ => (0, 0)

/-- A core's queued commands that wait on a fault go on, or are denied what they wait for. -/
def Core.answerQueued (c : Core) (n : Nat) (denied : Option Word) : Core :=
  { c with queues := c.queues.map fun (q : Nat × List QCmd) => (q.1, q.2.map fun (x : QCmd) =>
      if x.fault == some n then { x with fault := none, denied := denied } else x) }

/-- The agents of no fibre that wait on a number go on and translate again. -/
def State.resumeAgents (s : State) (n : Nat) : State :=
  let late := s.futs.filter fun x => x.fault == n
  let s := { s with
    subs := s.subs.map fun (x : Sub) => if x.hold.onFault n then { x with hold := .free } else x
    joins := s.joins.map fun (x : JoinDec) => if x.hold.onFault n then { x with hold := .free } else x
    cmds := s.cmds.map fun (x : Cmd) => if x.hold.onFault n then { x with hold := .free } else x
    cores := s.cores.map fun (x : Nat × Core) => (x.1, x.2.answerQueued n none)
    teams := s.teams.map fun (t : Team) => if t.pointFault == some n then { t with pointFault := none } else t
    encs := s.encs.map fun (x : Nat × Enc) => (x.1, if x.2.fault == some n then { x.2 with fault := none } else x.2)
    futs := s.futs.filter fun x => x.fault != n }
  -- resolutions are tried again (R267)
  late.foldl (fun s x =>
    let r := s.settleFuture x.part x.fut x.value x.failed x.queue
    match r.1 with | some k => { r.2 with futs := r.2.futs ++ [{ x with fault := k }] } | none => r.2) s

/-- The agents held on a fault go on and translate again. -/
def State.resumeFault (s : State) (f : FaultRec) : State :=
  let n := f.walk
  let s := { s with faults := s.faults.filter fun x => x.walk != n }
  (s.modFibs (fun b => b.hold.onFault n || b.waits.any fun h => h.onFault n) fun b =>
    let b := { b with waits := b.waits.filter fun h => !h.onFault n }
    if b.hold.onFault n then b.release b.hold else b).resumeAgents n

/-- What waits for a free walker tries again when there is one (R221). -/
def State.retryWalks (s : State) : State := if s.walkersFree then s.resumeAgents 0 else s

/-- A held command fails with 0x0B; one whose completion target it was leaves with its records (R162). -/
def State.failCmd (s : State) (c : Cmd) (addr : Word) : State :=
  match c.phase with
  | .finished => (s.endCmd c).cmdError c 0x0B addr
  | .failed code a => ((s.endCmd c).cmdError c code a).cmdError c 0x0B addr
  | _ => s.modCmd c.id fun c => { c with phase := .failed 0x0B addr, hold := .free }

/-- The agents held on a fault fail with 0x0B (R223, R267, R280, R306, R369). -/
def State.failFault (s : State) (f : FaultRec) : State :=
  let n := f.walk
  let s := { s with faults := s.faults.filter fun x => x.walk != n }
  let s := s.modFibs (fun b => b.hold.onFault n) fun b =>
    let a := b.hold.first
    (b.noteTrap ⟨0x0B, a.2, 0, a.1, b.pc, b.pc, false, some b.pc⟩).release b.hold
  let s := (s.subs.filter fun x => x.hold.onFault n).foldl (fun s x => s.rejectCard x x.queue 0x0B 6) s
  let s := (s.joins.filter fun x => x.hold.onFault n).foldl (fun s x =>
    (s.noteError x.part 0xFF 0x0B nowhere x.hold.first.1 0).dropJoin x.id) s
  let s := (s.futs.filter fun x => x.fault == n).foldl (fun s x => s.noteError x.part x.queue 0x0B nowhere x.fut 0) s
  let s := { s with futs := s.futs.filter fun x => x.fault != n }
  let s := (s.cmds.filter fun x => x.hold.onFault n).foldl (fun s x => s.failCmd x (f.words.getD 1 0)) s
  let s := { s with cores := s.cores.map fun (x : Nat × Core) => (x.1, x.2.answerQueued n (some (f.words.getD 1 0))) }
  let s := (s.teams.filter fun t => t.pointFault == some n).foldl (fun s t =>
    if t.point == .split then s.splitTrap t 0x0B else s.regbTrap t 0x0B) s
  { s with encs := s.encs.map fun (x : Nat × Enc) => (x.1, if x.2.fault == some n then x.2.drop else x.2) }

/-- A reply to a record that nothing waits on any more has no effect; one to a number that no record has had breaks the
table (R413, R417). -/
def State.faultReply (s : State) (fn : Nat) (c : HostCmd) (f : State → FaultRec → State) : State :=
  let i := c.w1.toNat
  s.cmdOf fn false 0xFF c (fun s => [(decide ((s.part fn).ftail ≤ i), 3)]) fun s =>
    match s.faults.find? fun x => x.part == fn && x.num == some i with
    | some x => (f s x).sweep
    | none => s

def execFaultResume (fn : Nat) (c : HostCmd) (s : State) : Result := .next (s.faultReply fn c State.resumeFault)
def execFaultFail (fn : Nat) (c : HostCmd) (s : State) : Result := .next (s.faultReply fn c State.failFault)

/-! ## HEAD, ENCODER (R408, R435) -/

/-- The limits of a head record. -/
def Head.ok (h : Head) : Bool :=
  (h.w 0).toNat % 8 == 0 && decide (8 ≤ h.width) && decide (h.width ≤ 7680) && h.width % 8 == 0 && decide (8 ≤ h.height)
    && decide (h.height ≤ 4320) && h.height % 8 == 0 && h.pitch % 8 == 0
    && decide (h.width * (if h.narrow then 4 else 8) ≤ h.pitch) && decide (1000 ≤ h.period) && decide (h.period ≤ 1000000)
    && decide (fieldOf (h.w 2) 7 4 ≤ 1)

def execHead (fn : Nat) (c : HostCmd) (s : State) : Result :=
  let n := c.w1.toNat
  let h : Head := { (default : Head) with words := [c.w2, c.w3, c.w4, c.w5] }
  .next (s.cmdOf fn false 0xFF c (fun s =>
    [(fieldOf c.w4 31 8 != 0 || c.w5 != 0, 1), (decide (15 < n), 3), (s.headPart n != fn, 5), (!h.ok, 3),
     (s.encPart h.enc != fn, 5)]) fun s =>
      { s with heads := s.heads.mod n fun old =>
          { words := h.words, prev := if old.on || !h.on then old.prev else [], start := if old.on then old.start else none,
            early := [], begun := none } })

/-- The limits of an encoder record. -/
def Enc.ok (e : Enc) : Bool :=
  let codec := fieldOf (e.w 4) 63 56
  let rc := fieldOf (e.w 4) 55 48
  let rate := fieldOf (e.w 4) 31 0
  let q := fun (n : Nat) => decide (n ≤ if codec = 0 then 255 else 63)
  let qp := fieldOf (e.w 5) 63 56
  let hi := fieldOf (e.w 5) 55 48
  let lo := fieldOf (e.w 5) 47 40
  (e.w 1).toNat % 4096 == 0 && (e.w 2).toNat % 16 == 0 && decide (16 ≤ e.rlog) && decide (e.rlog ≤ 28) && decide (codec ≤ 1)
    && decide (rc ≤ 2) && decide (1 ≤ e.keyint) && (if rc = 0 then rate == 0 else decide (100 ≤ rate) && decide (rate ≤ 200000))
    && (if rc = 0 then q qp else qp == 0) && q hi && decide (lo ≤ hi)

/-- A new stream (R435): the previous frames of its heads are cleared. -/
def State.newStream (s : State) (n : Nat) : State :=
  { s with heads := s.heads.map fun (x : Nat × Head) => (x.1, if x.2.enc == n then { x.2 with prev := [], early := [], begun := none } else x.2) }

def State.setEncoder (s : State) (n : Nat) (ws : List Word) : State :=
  let old := NMap.get s.encs n
  let new : Enc := { old with words := ws }
  if new.on && !old.on then
    { s with encs := s.encs.mod n fun e =>
        { e with words := ws, frameNo := 0, resync := false, sinceKey := 0, input := [], fault := none } }.newStream n
  else { s with encs := s.encs.mod n fun e => { e with words := ws } }

def execEncoder (fn : Nat) (c : HostCmd) (s : State) : Result :=
  let n := c.queue.toNat
  let ws := [c.w1, c.w2, c.w3, c.w4, c.w5, c.w6, c.w7]
  let e : Enc := { (default : Enc) with words := ws }
  .next (s.cmdOf fn false 0xFF c (fun s =>
    let old := NMap.get s.encs n
    [(fieldOf c.w3 55 0 != 0 || fieldOf c.w5 39 0 != 0 || fieldOf c.w6 63 1 != 0 || c.w7 != 0, 1), (decide (7 < n), 3),
     (s.encPart n != fn, 5), (!e.ok, 3), (!(s.grants fn c.w1 (2 ^ e.rlog) [.w]).1 || !(s.grants fn c.w2 16 [.w]).1, 3),
     (old.on && ws.set 5 0 != old.words.set 5 0, 3)]) fun s => s.setEncoder n ws)

/-! ## TEAM, CORE, CXL, LINK (R242, R295, R313, R354) -/

/-- The team that a break record names. -/
def State.brokenTeam (s : State) (fn n : Nat) : Option Team := s.teams.find? fun t => t.part == fn && t.brkRec == some n

/-- A held team released: with the last of its cluster's, the cluster is ready again. -/
def State.releaseTeam (s : State) (t : Team) : State :=
  let s := s.modTeam t.id fun t => { t with brkRec := none }
  if (s.clusterTeams t.cluster).any (·.brkRec.isSome) then s
  else
    let s := { s with teams := s.teams.map fun (u : Team) =>
      if u.cluster == t.cluster && u.phase == Phase.held then { u with phase := .saved } else u }
    s.modCluster t.cluster fun (c : Cluster) =>
      if c.phase == Phase.held then { c with phase := .saved, since := s.clock } else c

def execTeamRelease (fn : Nat) (c : HostCmd) (s : State) : Result :=
  .next (s.cmdOf fn false 0xFF c (fun s => [((s.brokenTeam fn c.w1.toNat).isNone, 3)]) fun s =>
    match s.brokenTeam fn c.w1.toNat with | some t => s.releaseTeam t | none => s)

def execTeamKill (fn : Nat) (c : HostCmd) (s : State) : Result :=
  .next (s.cmdOf fn false 0xFF c (fun s => [((s.brokenTeam fn c.w1.toNat).isNone, 3)]) fun s =>
    match s.brokenTeam fn c.w1.toNat with | some t => s.killClutch t.clutch 0x1F | none => s)

def execCore (fn : Nat) (c : HostCmd) (s : State) : Result :=
  let k := c.w1.toNat
  .next (s.cmdOf fn false 0xFF c (fun s => [(decide (767 < k), 3), (ownerOf s.mode (sectorOf k) != fn, 5)]) fun s =>
    s.modCore k fun x => { x with fenced := false })

def execCxlDisable (fn : Nat) (c : HostCmd) (s : State) : Result :=
  .next (s.cmdOf fn false 0xFF c
    (fun _ => [(decide (1 < c.w1.toNat), 3), (c.w3 == 0 || decide (1000 < c.w3.toNat), 3)]) fun s => s.cxlDown c.w1.toNat)

def execCxlEnable (fn : Nat) (c : HostCmd) (s : State) : Result :=
  .next (s.cmdOf fn false 0xFF c
    (fun _ => [(decide (1 < c.w1.toNat), 3), (c.w3 == 0 || decide (1000 < c.w3.toNat), 3)]) fun s =>
      { s with cxl := s.cxl.mod c.w1.toNat fun _ => ⟨true, c.w3.toNat⟩ })

def execLink (fn : Nat) (c : HostCmd) (s : State) : Result :=
  .next (s.cmdOf fn false 0xFF c (fun _ => [(decide (1023 < c.w1.toNat), 3)]) fun s =>
    { s with lostPkgs := setDel s.lostPkgs c.w1.toNat })

/-! ## MODE, POWER, QUEUE (R414, R421, R422, R438) -/

/-- A slice whose stack or sector failed at boot presents no function (R431). -/
def State.failedSlice (s : State) (mode p : Nat) : Bool :=
  (s.stacksOff.any fun k => ownerOf mode k == p) || s.sectorsOff.any fun k => ownerOf mode k == p

/-- The slices of a mode, unconfigured. -/
def State.freshParts (s : State) (mode : Nat) : NMap Part :=
  (List.range mode).foldl (fun m p => m.set p { (default : Part) with disabled := s.failedSlice mode p }) []

/-- log2 of a mode. -/
def modeLog (mode : Nat) : Nat := if mode = 1 then 0 else if mode = 2 then 1 else if mode = 4 then 2 else 3

/-- The boot record with byte 7 naming a mode. -/
def withMode (w : Word) (mode : Nat) : Word := (w &&& 0x00FFFFFFFFFFFFFF) ||| BitVec.ofNat 64 (modeLog mode * 2 ^ 56)

/-- Every frame dead and owned by the slice of its stack. -/
def remapFrame (mode : Nat) (w : Word) : Word :=
  frameWord (fwV w) true (ownerOf mode (fwStack w)) (fwProfile w) (fwStack w) (fwSfn w)

def State.setMode (s : State) (mode : Nat) : State :=
  let s := s.dropLines fun a => spaceOf a == 0
  { s with
    mode := mode, bootRec := withMode s.bootRec mode, parts := s.freshParts mode,
    frames := s.frames.map fun x => (x.1, remapFrame mode x.2),
    mem := s.mem.keep fun a => spaceOf a != 0,
    colls := [], fillWait := [], sib := [], dtlb := [], clutches := [], walks := [], faults := [],
    pods := s.pods.map fun (x : Nat × Pod) => (x.1, { x.2 with tlb := [] }) }

def execMode (fn : Nat) (c : HostCmd) (s : State) : Result :=
  let p := c.w1.toNat
  .next (s.cmdOf fn true 0xFF c (fun s =>
    [(fn != 0, 5), (!(p == 1 || p == 2 || p == 4 || p == 8), 3),
     ((List.range s.mode).any (fun k => (List.range 64).any fun q => s.qEn k q), 4),
     (s.clutches.any fun x => x.phase == .intake || x.phase == .queued, 4)]) fun s => s.setMode p)

/-- The caps of the other slices together. -/
def State.otherCaps (s : State) (fn : Nat) : Nat :=
  (List.range s.mode).foldl (fun n k => if k = fn then n else n + (s.part k).cap) 0

def execPower (fn : Nat) (c : HostCmd) (s : State) : Result :=
  let w := c.w1.toNat
  .next (s.cmdOf fn true 0xFF c (fun s => [(decide (w < 100) || decide (3600 < w + s.otherCaps fn), 3)]) fun s =>
    s.modPart fn fun p => { p with cap := w })

def execQueue (fn : Nat) (c : HostCmd) (s : State) : Result :=
  let q := c.queue.toNat
  let w := fieldOf c.w1 1 0
  .next (s.cmdOf fn true q c (fun s =>
    [(fieldOf c.w1 63 2 != 0, 1), (decide (63 < q), 3), (!s.qWriteOk fn q w c.w2, 3)]) fun s => s.qWrite fn q w c.w2)

/-! ## FIRMWARE (R433, R434) -/

/-- The limits of R434's table. -/
def firmwareOk (c : HostCmd) : Bool :=
  let n := fieldOf c.w2 31 0
  fieldOf c.w1 47 0 % 4096 == 0 && n % 4096 == 0 && decide (65536 ≤ n) && decide (n ≤ 2 ^ 26)

/-- A FIRMWARE command is in progress, the boot from its image included. -/
def State.fwBusy (s : State) : Bool := s.fwJob != [] || s.fwstat == 0x07

/-- A FIRMWARE command of function 0, in recovery or, where `always`, in normal operation. -/
def State.firmware (s : State) (fn : Nat) (c : HostCmd) (always : Bool) (f : State → State) : State :=
  let checks : List (Bool × Nat) :=
    [(fieldOf c.w1 63 48 != 0 || fieldOf c.w2 63 32 != 0 || fieldOf c.w3 63 2 != 0, 1), (fn != 0, 5), (!firmwareOk c, 3)]
  if s.power == .recovery then
    if fn = 0 ∧ c.hi = 0 ∧ (refuse checks).isNone ∧ s.fwBusy = false then f s else s
  else s.cmdOf fn true 0xFF c (fun s => checks ++ [(!always || s.fwBusy, 4)]) f

/-- A FIRMWARE command begins to read its image; the states that FWSTAT then shows. -/
def State.fwBegin (s : State) (l : List Nat) : State := { s with fwstat := 0x01, fwJob := l }

/-- The next state of the command in progress. While the flash is written its image is not good, so that power lost
then leaves it corrupt; after a failed write it is free (log 8). -/
def State.fwNext (s : State) : State :=
  match s.fwJob with
  | [] => s
  | k :: l =>
    { s with
      fwstat := k
      fwJob := l
      flashOk := if k = 4 then false else if k = 5 then true else if k = 6 then Config.freeNat s.tick 40 % 2 == 1 else s.flashOk }

/-- ACTION 0: `ok` is the outcome of the check of step 1. -/
def execFirmwareBoot (fn : Nat) (c : HostCmd) (ok : Bool) (s : State) : Result :=
  .next (s.firmware fn c false fun s => s.fwBegin (if ok then [2, 7] else [3]))

/-- The states of a command that writes the image to flash, when it passes the check, and then goes on. -/
def flashStates (ok wrote : Bool) (after : List Nat) : List Nat :=
  if !ok then [3] else if wrote then [2, 4, 5] ++ after else [2, 4, 6]

/-- ACTION 1. -/
def execFirmwareWrite (fn : Nat) (c : HostCmd) (ok wrote : Bool) (s : State) : Result :=
  .next (s.firmware fn c true fun s => s.fwBegin (flashStates ok wrote []))

/-- ACTION 2. -/
def execFirmwareWriteBoot (fn : Nat) (c : HostCmd) (ok wrote : Bool) (s : State) : Result :=
  .next (s.firmware fn c false fun s => s.fwBegin (flashStates ok wrote [7]))

/-! ## BAR0 and device memory (R185, R412, R417) -/

def execJheadWrite (fn : Nat) (v : Word) (s : State) : Result :=
  let p := s.part fn
  .next <|
    if !s.hasFn fn then s
    else if p.jhead ≤ v.toNat ∧ v.toNat ≤ p.jtail then s.modPart fn fun p => { p with jhead := v.toNat }
    else s.barFault fn 0x40

def execFheadWrite (fn : Nat) (v : Word) (s : State) : Result :=
  let p := s.part fn
  .next <|
    if !s.hasFn fn then s
    else if p.fhead ≤ v.toNat ∧ v.toNat ≤ p.ftail then s.modPart fn fun p => { p with fhead := v.toNat }
    else s.barFault fn 0x60

def execBar0OtherAccess (fn off : Nat) (s : State) : Result := .next (s.barFault fn off)

/-- HOST_MEMORY_WRITE: performed where the bytes lie, at every scope, with their poison. -/
def execHostMemoryWrite (addr : Nat) (w : Written) (s : State) : Result :=
  .next (s.putBytes addr w.bytes [] w.poison (s.ownerPart addr))

end Sys2Proof.Machine
end

