-- ==== Sys2Proof/Machine/Mgmt.lean ====
section
/-! DEFINITION. The management controller, the messages, boot, standby and the power cap (R418, R427 to R434,
R437, R438). -/

namespace Sys2Proof.Machine

/-! ## Requests (R427) -/

/-- MREQ as a request gives it. -/
def mreqWord (obj : Nat) (r : MgmtReq) : Word := r.tag ++ r.index ++ (0 : Byte) ++ BitVec.ofNat 8 obj

/-- A write of MREQ: taken where the previous request has been answered, dropped where it has not. -/
def State.mgmtAsk (s : State) (fn obj : Nat) (r : MgmtReq) : State :=
  if s.hasFn fn && (s.part fn).mqueue.isEmpty then
    s.modPart fn fun p => { p with mreq := mreqWord obj r, mqueue := [(obj, r)], mqAt := s.tick }
  else s

def execMgmtLaneRemap (fn : Nat) (r : MgmtReq) (s : State) : Result := .next (s.mgmtAsk fn 0x01 r)
def execMgmtEncoderCounters (fn : Nat) (r : MgmtReq) (s : State) : Result := .next (s.mgmtAsk fn 0x02 r)
def execMgmtEventLog (fn : Nat) (r : MgmtReq) (s : State) : Result := .next (s.mgmtAsk fn 0x03 r)
def execMgmtPackageId (fn : Nat) (r : MgmtReq) (s : State) : Result := .next (s.mgmtAsk fn 0x04 r)
def execMgmtStorePackageId (fn : Nat) (r : MgmtReq) (s : State) : Result := .next (s.mgmtAsk fn 0x84 r)

/-! ## Answers (R427 to R430) -/

/-- The lane remap word of a core (R383). -/
def Core.remapWord (c : Core) : Word := BitVec.ofNat 31 0 ++ BitVec.ofBool c.fenced ++ c.remap

/-- The four words of an event log record. -/
def eventWords (n : Nat) (e : Nat × Nat × Word) : List Word :=
  [BitVec.ofNat 64 n, BitVec.ofNat 64 (e.1 % 256 * 2 ^ 56), BitVec.ofNat 64 e.2.1, e.2.2]

/-- The slice that an event record belongs to; none for a port's, which is no slice's. -/
def State.eventPart (s : State) (e : Nat × Nat × Word) : Option Nat :=
  let core := fieldOf e.2.2 41 32
  let stack := fieldOf e.2.2 55 48
  if e.1 = 3 ∨ e.1 = 4 then none
  else if e.1 = 5 then some (ownerOf s.mode stack)
  else if e.1 = 6 then some (ownerOf s.mode (sectorOf core))
  else
    let row := fieldOf e.2.2 63 56
    some (if row = 10 then ownerOf s.mode stack else if row = 9 then ownerOf s.mode (2 * (core / 32)) else ownerOf s.mode (sectorOf core))

/-- The ids in use and stored. -/
def State.pkgWord (s : State) : Word := BitVec.ofNat 64 (s.pkg % 1024 + s.pkgNext % 1024 * 2 ^ 16)

/-- The answer to a request: status, words of MRESP and the state after. -/
def State.mgmtReply (s : State) (fn obj : Nat) (r : MgmtReq) : Nat × List Word × State :=
  let n := r.index.toNat
  if obj = 0x01 then
    if 767 < n then (0x02, [], s)
    else if fn ≠ 0 ∧ ownerOf s.mode (sectorOf n) ≠ fn then (0x03, [], s)
    else (0x00, [(s.core n).remapWord], s)
  else if obj = 0x02 then
    let e := NMap.get s.encs n
    if 7 < n then (0x02, [], s)
    else if fn ≠ 0 ∧ s.encPart n ≠ fn then (0x03, [], s)
    else (0x00, [e.subs, e.frames, e.dropped, e.bytes].map (BitVec.ofNat 64), s)
  else if obj = 0x03 then
    match s.events[n]? with
    | some e =>
      if n + 65536 < s.events.length then (0x02, [], s)
      else if fn ≠ 0 ∧ s.eventPart e ≠ some fn then (0x03, [], s)
      else (0x00, eventWords n e ++ [BitVec.ofNat 64 s.events.length], s)
    | none => (0x02, [], s)
  else if obj = 0x04 then if n = 0 then (0x00, [s.pkgWord], s) else (0x02, [], s)
  else if obj = 0x84 then
    if fn ≠ 0 then (0x03, [], s)
    else if 1023 < n then (0x02, [], s)
    else
      let s := { s with pkgNext := n }
      (0x00, [s.pkgWord], s)
  else (0x01, [], s)

/-- MSEQ of an answer. -/
def mseqWord (r : MgmtReq) (status : Nat) : Word := r.tag ++ (0 : BitVec 32) ++ BitVec.ofNat 8 status

/-- No other function's request arrived before this one's (R427). -/
def State.mgmtFirst (s : State) (fn : Nat) : Bool :=
  s.parts.all fun x => x.1 == fn || x.2.mqueue.isEmpty || decide ((s.part fn).mqAt ≤ x.2.mqAt)

/-- MGMT_ANSWER: the request that arrived first is answered: MRESP, then MSEQ, then vector 3. -/
def execMgmtAnswer (fn : Nat) (s : State) : Result :=
  .next <|
    match s.hasFn fn && s.mgmtFirst fn, (s.part fn).mqueue with
    | true, x :: rest =>
      let r := s.mgmtReply fn x.1 x.2
      (r.2.2.modPart fn fun p =>
        { p with mresp := (r.2.1 ++ List.replicate 8 0).take 8, mseq := mseqWord x.2 r.1, mqueue := rest }).signal fn 3
    | _, _ => s

/-! ## Messages (R418) -/

/-- A message of a vector may be sent: the events of the last microsecond fold into one. -/
def State.mayMessage (s : State) (fn vec : Nat) : Bool :=
  let p := s.part fn
  s.hasFn fn && decide (vec < 4) && p.msiDue.contains vec && p.msiOpen.contains vec
    && (NMap.get p.msiSent vec == 0 || decide (NMap.get p.msiLast vec + 3300 ≤ s.clock))

def State.sendMessage (s : State) (fn vec : Nat) : State :=
  s.modPart fn fun p => { p with
    msiDue := setDel p.msiDue vec, msiLast := p.msiLast.set vec s.clock, msiSent := p.msiSent.mod vec (· + 1) }

def execMsixMessage (fn vec : Nat) (s : State) : Result :=
  .next (if s.mayMessage fn vec then s.sendMessage fn vec else s)

/-- The host masks a vector: its events stay pending (R418). -/
def State.maskVector (s : State) (fn vec : Nat) : State :=
  if s.hasFn fn then s.modPart fn fun p => { p with msiOpen := setDel p.msiOpen vec } else s

/-- MSIX_VECTOR_UNMASK: a pending vector's message is sent, when the microsecond of its last one is over. -/
def execMsixVectorUnmask (fn vec : Nat) (s : State) : Result :=
  .next <|
    if s.hasFn fn && decide (vec < 4) then
      let s := s.modPart fn fun p => { p with msiOpen := setAdd p.msiOpen vec }
      if s.mayMessage fn vec then s.sendMessage fn vec else s
    else s

/-! ## Boot and standby (R430 to R433, R437) -/

/-- The outcome of a boot step (R432). -/
def outPassed : Nat := 0
def outFailed : Nat := 1
def outSkipped : Nat := 2
def outOf (ok : Bool) : Nat := if ok then outPassed else outFailed

/-- The attempt number of a step, from its byte of the last attempt: it counts on after a failure, to 15 at most, and
anew otherwise (log 186). -/
def nextAttempt (old : Nat) : Nat :=
  if old % 16 = outFailed then min 15 (old / 16 + 1) else Config.firstAttempt % 2

/-- A byte of the boot record: step 1 to 7, its attempt number and its outcome (R432). -/
def stepByte (s : State) (step out : Nat) : Byte :=
  BitVec.ofNat 8 (nextAttempt (fieldOf s.bootRec (8 * step - 1) (8 * step - 8)) * 16 + out)

def State.setStep (s : State) (step out : Nat) : State :=
  let k := 8 * (step - 1)
  { s with bootRec := (s.bootRec &&& ~~~((0xFF : Word) <<< k)) ||| ((stepByte s step out).setWidth 64 <<< k) }

/-- The mode that byte 7 names (R422). -/
def bootMode (w : Word) : Nat := 2 ^ fieldOf w 57 56

/-- The outcome of a step that is made for each of some things: skipped when it is made for none. -/
def outEach (tried failed : List Nat) : Nat :=
  if tried.isEmpty then outSkipped else outOf failed.isEmpty

/-- Step 2: the retirements. -/
def State.bootLog (s : State) : State :=
  let s := { s with events := [] }
  (s.retired.foldl (fun s x => s.withdraw x fun s c => s.modCore c fun k => { k with fenced := true }) s).setStep 2 outPassed

/-- Steps 3 and 4: the stacks, each at the rate that its failures leave it, and the sectors; one that has failed at every
rate, or its self-test, is disabled and not tried again (R431). -/
def State.bootChip (s : State) (e : BootEnv) : State :=
  let tried := (List.range 8).filter fun k => decide (NMap.get s.stackTries k < 3)
  let tested := (List.range 8).filter fun k => !s.sectorsBad.contains k
  let badStacks := tried.filter (e.badStacks.contains ·)
  let badSectors := tested.filter (e.badSectors.contains ·)
  let s := { s with
    stacksOff := (List.range 8).filter fun k => !tried.contains k || badStacks.contains k
    sectorsOff := (List.range 8).filter fun k => !tested.contains k || badSectors.contains k
    stackTries := badStacks.foldl (fun m k => m.mod k (· + 1)) s.stackTries
    sectorsBad := (List.range 8).filter fun k => !tested.contains k || badSectors.contains k }
  (s.setStep 3 (outEach tried badStacks)).setStep 4 (outEach tested badSectors)

/-- Step 6: the links of the outside world that come up. -/
def State.bootLinks (s : State) (e : BootEnv) : State :=
  let all := (List.range 2).all (e.cxlUp.contains ·) && (List.range 12).all (e.portsUp.contains ·)
  let s := { s with
    cxl := (List.range 2).map fun k => (k, ⟨e.cxlUp.contains k, 10⟩),
    ports := ((List.range 12).filter (e.portsUp.contains ·)).map fun k => (k, ⟨true, 0, 0⟩),
    pkg := s.pkgNext }
  s.setStep 6 (outOf all)

/-- Step 7: the functions of the mode in the boot record, every slice unconfigured. -/
def State.bootFunctions (s : State) : State :=
  let m := bootMode s.bootRec
  { s with mode := m, parts := s.freshParts m, fwstat := 0, power := .on }.setStep 7 outPassed

/-- BOOT: with power applied from standby, or from the image that the host supplied in recovery. -/
def execBoot (e : BootEnv) (s : State) : Result :=
  .next <|
    let image := s.power == .recovery && s.fwstat == 7 && s.fwJob.isEmpty
    if !(s.power == .off || image) then s
    else if !image && !(s.flashOk && e.fwOk) then { s with power := .recovery, fwstat := 0 }.setStep 1 outFailed
    else
      -- a step that may not fail ends the start; the flash keeps what it has recorded
      let stop := fun (t : State) (step : Nat) =>
        { s with
          bootRec := (t.setStep step outFailed).bootRec, stackTries := t.stackTries, sectorsBad := t.sectorsBad,
          pcieSlow := t.pcieSlow || step == 5, power := .off, fwstat := 0 }
      let s1 := s.setStep 1 outPassed
      if !e.logOk then stop s1 2
      else
        let s4 := s1.bootLog.bootChip e
        if !e.pcieOk then stop s4 5
        else
          let s6 := (s4.setStep 5 outPassed).bootLinks e
          if !e.fnOk then stop s6 7 else s6.bootFunctions

/-- D3COLD: every volatile state is lost; the flash records and what lies outside the device stay. -/
def execD3cold (s : State) : Result :=
  .next <|
    { State.reset with
      sched := s.sched, tick := s.tick, bootRec := s.bootRec, stackTries := s.stackTries, sectorsBad := s.sectorsBad,
      pcieSlow := s.pcieSlow, retired := s.retired, flashOk := s.flashOk, pkgNext := s.pkgNext,
      mem := s.mem.keep fun a => spaceOf a != 0 }

/-! ## The power cap (R438) -/

/-- The next of the hub's three steps. -/
def Part.throttle (p : Part) : Part :=
  if p.slow < 23 then { p with slow := p.slow + 1 }
  else if p.thr < 15 then { p with thr := p.thr + 1 }
  else { p with stopped := true }

/-- The last step taken, undone. -/
def Part.restore (p : Part) : Part :=
  if p.stopped then { p with stopped := false }
  else if 0 < p.thr then { p with thr := p.thr - 1 }
  else { p with slow := p.slow - 1 }

/-- POWER_CAP_WINDOW: `above` says whether the slice's draw of the window exceeds its cap. -/
def execPowerCapWindow (fn : Nat) (above : Bool) (s : State) : Result :=
  .next (if s.hasFn fn then s.modPart fn (if above then Part.throttle else Part.restore) else s)

end Sys2Proof.Machine
end

