-- ==== Sys2Proof/Machine/Raster.lean ====
section
/-! DEFINITION. The rasteriser (R331, R332, R403 to R405). -/

namespace Sys2Proof.Machine

/-! ## Vertices (R403, R404) -/

/-- A vertex on the target: its fixed-point coordinates, and the depth's FP32 bits. -/
structure RVert where
  x : Int
  y : Int
  z : Nat
  deriving DecidableEq, Repr, Inhabited

/-- Row `i` of the matrix applied to a position. -/
def clipRow (m p : List Nat) (i : Nat) : Nat :=
  let e := fun k => m.getD (4 * i + k) 0
  let q := fun k => p.getD k 0
  f32Add (f32Add (f32Add (f32Mul (e 0) (q 0)) (f32Mul (e 1) (q 1))) (f32Mul (e 2) (q 2))) (e 3)

/-- An exact value m × 2^e rounded to the nearest integer, ties to even. -/
def roundExact (m : Int) (e : Int) : Int :=
  let r : Int := (quantize .rn (decide (m < 0)) m.natAbs e 0).1
  if m < 0 then -r else r

/-- (1 ± v) × n, rounded once; none when v is not finite. -/
def snap (neg : Bool) (v n : Nat) : Option Int :=
  match f32Val v with
  | .fin s m e =>
    let x := exactAdd 1 0 (signed (s != neg) m) e
    some (roundExact (x.1 * n) x.2)
  | _ => none

/-- A vertex of a block as the target sees it; none when its triangles are discarded. -/
def rastVert (mat p : List Nat) (w h : Nat) : Option RVert :=
  let c := (List.range 4).map (clipRow mat p)
  let d := c.getD 3 0
  let ndc := (List.range 3).map fun i => f32Div (c.getD i 0) d
  if !((c ++ ndc).all fun b => (f32Val b).isFin) || (f32Val d).sign || (f32Val d).isZero then none
  else
    match snap false (ndc.getD 0 0) (w * 128), snap true (ndc.getD 1 0) (h * 128) with
    | some x, some y => if 2 ^ 28 < x.natAbs ∨ 2 ^ 28 < y.natAbs then none else some ⟨x, y, ndc.getD 2 0⟩
    | _, _ => none

/-! ## Coverage and depth (R404, R405) -/

/-- A triangle in screen-clockwise order; none when its area is 0. -/
def clockwise (a b c : RVert) : Option (List RVert × Int) :=
  let area := (b.x - a.x) * (c.y - a.y) - (c.x - a.x) * (b.y - a.y)
  if area = 0 then none else if area < 0 then some ([a, c, b], -area) else some ([a, b, c], area)

/-- The edge function of the edge from `a` to `b`. -/
def edgeAt (a b : RVert) (sx sy : Int) : Int := (b.x - a.x) * (sy - a.y) - (b.y - a.y) * (sx - a.x)

/-- A top or a left edge. -/
def topLeft (a b : RVert) : Bool := (a.y == b.y && decide (a.x < b.x)) || decide (b.y < a.y)

/-- The sample is covered. -/
def covered (t : List RVert) (sx sy : Int) : Bool :=
  (List.range 3).all fun i =>
    let a := t.getD i default
    let b := t.getD ((i + 1) % 3) default
    let e := edgeAt a b sx sy
    decide (0 < e) || (e == 0 && topLeft a b)

/-- n ÷ d rounded to FP32. -/
def ratio32 (n d : Int) : Nat :=
  if n = 0 then 0
  else
    let r := divBits 28 n.natAbs d.natAbs
    (binary32.round .rn false (decide (n < 0)) r.1 r.2).1

/-- The depth of a covered sample, FP32 bits. -/
def depthAt (t : List RVert) (area sx sy : Int) : Nat :=
  let v := fun i => t.getD i default
  let b1 := ratio32 (edgeAt (v 2) (v 0) sx sy) area
  let b2 := ratio32 (edgeAt (v 0) (v 1) sx sy) area
  f32Add (f32Add (v 0).z (f32Mul b1 (f32Sub (v 1).z (v 0).z))) (f32Mul b2 (f32Sub (v 2).z (v 0).z))

/-- DEPTH of R332; none outside [0, 1]. -/
def depthField (z : Nat) : Option Nat :=
  match f32Val z with
  | .fin s m e =>
    if s && m != 0 then none
    else if !magLe (m, e) (1, 0) then none
    else
      let n := if 0 ≤ e then m * 16777215 * 2 ^ e.toNat else m * 16777215 / 2 ^ (-e).toNat
      some (min (n + 1) 16777215)
  | _ => none

/-- The word of a sample (R332). -/
def visWord (depth slot tri layer : Nat) : Word := BitVec.ofNat 64 (depth * 2 ^ 40 + slot * 2 ^ 15 + tri * 2 ^ 8 + layer)

/-- Integers from `a` to `b` that lie in 0 to n − 1. -/
def pixels (a b : Int) (n : Nat) : List Nat := (List.range n).filter fun i => decide (a ≤ (i : Int)) && decide ((i : Int) ≤ b)

/-- The samples a triangle writes: pixel x, y and the word. -/
def triSamples (t : List RVert) (area : Int) (w h slot tri layer : Nat) : List (Nat × Nat × Word) :=
  let xs := t.map (·.x)
  let ys := t.map (·.y)
  let lo := fun (l : List Int) => l.foldl min (l.headD 0) / 256 - 1
  let hi := fun (l : List Int) => l.foldl max (l.headD 0) / 256 + 1
  (pixels (lo ys) (hi ys) h).flatMap fun y => (pixels (lo xs) (hi xs) w).filterMap fun x =>
    let sx : Int := (256 * x + 128 : Nat)
    let sy : Int := (256 * y + 128 : Nat)
    if covered t sx sy then (depthField (depthAt t area sx sy)).map fun d => (x, y, visWord d slot tri layer) else none

/-! ## The command -/

/-- The fields of `rast.vis` (R331). -/
structure RastArgs where
  n : Nat
  layer : Nat
  w : Nat
  h : Nat
  pitch : Nat
  deriving Repr

def rastOf (ws : List Word) : RastArgs :=
  ⟨fieldOf (wordAt ws 4) 31 0, fieldOf (wordAt ws 4) 39 32, fieldOf (wordAt ws 7) 63 48, fieldOf (wordAt ws 7) 47 32,
    fieldOf (wordAt ws 7) 31 0⟩

/-- The samples of one record's block, and how many triangles it has. -/
def blockSamples (x : RastArgs) (mat : List Nat) (b : Block) (slot : Nat) : Nat × List (Nat × Nat × Word) :=
  let vs := (List.range b.verts.length).map fun v => rastVert mat (b.pos v) x.w x.h
  (b.tris.length, b.tris.zipIdx.flatMap fun (t : List Nat × Nat) =>
    match vs.getD (t.1.getD 0 0) none, vs.getD (t.1.getD 1 0) none, vs.getD (t.1.getD 2 0) none with
    | some p, some q, some r => (match clockwise p q r with
      | some (tri, area) => triSamples tri area x.w x.h slot t.2 x.layer
      | none => [])
    | _, _, _ => [])

/-- A sample written: the maximum at the home. -/
def Cmd.sample (c : Cmd) (x : RastArgs) (m : Nat × Nat × Word) : Eng Unit :=
  match addrAdd (c.w 6) (m.2.1 * x.pitch + 8 * m.1) with
  | none => Eng.stop 0x0A (c.w 6)
  | some a =>
    Eng.bind (c.sink a 8 8 none) fun p =>
      Eng.put fun s => ((s.atPod c p.loc).applyAtom c.agent p.loc true .maxu true ⟨m.2.2, false⟩ default).2

def Cmd.raster (c : Cmd) : Eng (Cmd → Cmd) :=
  let x := rastOf c.c.words
  Eng.bind (c.cutList (c.w 2) x.n) fun cut =>
  Eng.bind (c.record (c.w 5) 8 8) fun ws =>
  let mat := ws.flatMap fun w => [fieldOf w 31 0, fieldOf w 63 32]
  Eng.bind (Eng.along (fun (acc : Nat × Nat) (r : CutRec × Nat) =>
    Eng.bind (c.block (c.w 3) r.1) fun b =>
    let s := blockSamples x mat b.2 r.2
    Eng.bind (Eng.each (c.sample x) s.2) fun _ => Eng.pure (acc.1 + s.1, acc.2 + s.2.length)) (0, 0) cut.zipIdx) fun n =>
  Eng.pure (Cmd.finish (BitVec.ofNat 64 n.1) (BitVec.ofNat 64 n.2))

def execRastVis (cmd : Nat) (s : State) : Result := .next (s.runCmd cmd [0x40] .accepted Cmd.raster)

end Sys2Proof.Machine
end

