-- ==== Sys2Proof/Machine/Ray.lean ====
section
/-! DEFINITION. The ray engine (R333 to R335, R391, R406, R407). Which triangles a ray meets is decided exactly; how
T, U and V round, and the hit that ANY finds first, are the tree's and the ray's own (log 10, 11). -/

namespace Sys2Proof.Machine

/-! ## Rays (R333) -/

/-- A ray record's eight FP32 patterns: origin, TMIN, direction, TMAX. -/
abbrev Ray := List Nat

def rayOf (ws : List Word) : Ray := ws.flatMap fun w => [fieldOf w 31 0, fieldOf w 63 32]
def Ray.origin (r : Ray) : List Nat := r.take 3
def Ray.tmin (r : Ray) : Nat := r.getD 3 0
def Ray.dir (r : Ray) : List Nat := (r.drop 4).take 3
def Ray.tmax (r : Ray) : Nat := r.getD 7 0

/-- The ray may hit something (R406). -/
def Ray.live (r : Ray) : Bool :=
  !(r.any fun b => (f32Val b).isNan) && !((Ray.dir r).all fun b => (f32Val b).isZero)
    && f32Le (Ray.tmin r) (Ray.tmax r) && (Ray.origin r ++ Ray.dir r).all fun b => (f32Val b).isFin

/-- A finite FP32 value times 2^149, exactly. -/
def exact32 (b : Nat) : Int :=
  match f32Val b with | .fin s m e => signed s (m * 2 ^ (e + 149).toNat) | _ => 0

/-! ## One triangle -/

abbrev Vec := List Int

def vAt (v : Vec) (i : Nat) : Int := v.getD i 0
def vSub (a b : Vec) : Vec := (List.range 3).map fun i => vAt a i - vAt b i
def vDot (a b : Vec) : Int := vAt a 0 * vAt b 0 + vAt a 1 * vAt b 1 + vAt a 2 * vAt b 2
def vCross (a b : Vec) : Vec :=
  [vAt a 1 * vAt b 2 - vAt a 2 * vAt b 1, vAt a 2 * vAt b 0 - vAt a 0 * vAt b 2, vAt a 0 * vAt b 1 - vAt a 1 * vAt b 0]

/-- An exact hit: t, u and v over a positive denominator. -/
structure Hit where
  id : Nat
  tri : Nat
  den : Int
  t : Int
  u : Int
  v : Int
  verts : List Int
  deriving DecidableEq, Repr, Inhabited

/-- n ÷ d, d positive, against an FP32 pattern: at least it, or at most it. -/
def atLeast32 (n d : Int) (b : Nat) : Bool :=
  match f32Val b with | .inf s => s | .fin _ _ _ => decide (exact32 b * d ≤ n * 2 ^ 149) | _ => false
def atMost32 (n d : Int) (b : Nat) : Bool :=
  match f32Val b with | .inf s => !s | .fin _ _ _ => decide (n * 2 ^ 149 ≤ exact32 b * d) | _ => false

/-- A ray in the plane of a triangle: the first point of the triangle that it meets (R406, log 11). Each weight is
f.1 + t f.2 over the square of the normal. -/
def hitFlat (r : Ray) (id tri : Nat) (o d : Vec) (v : Nat → Vec) : Option Hit :=
  let e1 := vSub (v 1) (v 0)
  let e2 := vSub (v 2) (v 0)
  let n := vCross e1 e2
  let nn := vDot n n
  let tv := vSub o (v 0)
  let u0 := vDot (vCross tv e2) n
  let u1 := vDot (vCross d e2) n
  let v0 := vDot (vCross e1 tv) n
  let v1 := vDot (vCross e1 d) n
  let fs : List (Int × Int) := [(u0, u1), (v0, v1), (nn - u0 - v0, - u1 - v1)]
  let lows := (fs.filter fun f => decide (0 < f.2)).map (fun f => (- f.1, f.2))
    ++ (if (f32Val (Ray.tmin r)).isFin then [(exact32 (Ray.tmin r), 2 ^ 149)] else [])
  match lows with
  | [] => none
  | l :: ls =>
    -- t at the last of the places where a weight becomes positive and t reaches TMIN
    let b := ls.foldl (fun (a x : Int × Int) => if a.1 * x.2 < x.1 * a.2 then x else a) l
    let h : Hit := ⟨id, tri, nn * b.2, b.1 * nn, u0 * b.2 + b.1 * u1, v0 * b.2 + b.1 * v1, v 0 ++ v 1 ++ v 2⟩
    if nn = 0 ∨ vDot n tv ≠ 0 then none
    else if (fs.all fun f => decide (0 ≤ f.1 * b.2 + b.1 * f.2)) && atLeast32 h.t h.den (Ray.tmin r)
        && atMost32 h.t h.den (Ray.tmax r) then some h else none

/-- The ray against a triangle of FP32 positions; edges and vertices belong to it. -/
def hitTri (r : Ray) (id tri : Nat) (ps : List (List Nat)) : Option Hit :=
  if !(ps.all fun p => p.all fun b => (f32Val b).isFin) then none
  else
    let v := fun i => (ps.getD i []).map exact32
    let o := (Ray.origin r).map exact32
    let d := (Ray.dir r).map exact32
    let e1 := vSub (v 1) (v 0)
    let e2 := vSub (v 2) (v 0)
    let p := vCross d e2
    let det := vDot e1 p
    let s := if det < 0 then -1 else 1
    let tv := vSub o (v 0)
    let q := vCross tv e1
    let h : Hit := ⟨id, tri, s * det, s * vDot e2 q, s * vDot tv p, s * vDot d q, v 0 ++ v 1 ++ v 2⟩
    if det = 0 then hitFlat r id tri o d v
    else if h.u < 0 ∨ h.v < 0 ∨ h.den < h.u + h.v then none
    else if atLeast32 h.t h.den (Ray.tmin r) && atMost32 h.t h.den (Ray.tmax r) then some h else none

/-- The first hit is nearer, or as near with the smaller ID, then the smaller TRI (R407). -/
def Hit.before (a b : Hit) : Bool :=
  let x := a.t * b.den
  let y := b.t * a.den
  decide (x < y) || (x == y && (decide (a.id < b.id) || (a.id == b.id && decide (a.tri ≤ b.tri))))

def nearest : List Hit → Option Hit
  | [] => none
  | h :: hs => match nearest hs with | some g => some (if h.before g then h else g) | none => some h

/-- The hits of a ray in the clusters of a tree. -/
def rayHits (r : Ray) (bs : List (CutRec × Block)) : List Hit :=
  if !Ray.live r then []
  else bs.flatMap fun x => x.2.tris.zipIdx.filterMap fun (t : List Nat × Nat) => hitTri r x.1.id t.2 (t.1.map x.2.pos)

/-- An exact value of a hit as the FP32 pattern next below or next above it, itself where it is one (log 11). -/
def hitField (k : Nat) (r : Ray) (h : Hit) (n : Int) : Nat :=
  if n = 0 then 0
  else
    let q := divBits 28 n.natAbs h.den.natAbs
    (binary32.round (if Config.hitBits k r h.verts % 2 = 0 then .rd else .ru) false (decide (n < 0)) q.1 q.2).1

/-- The four words of a hit record (R333); U and V of a miss are 0 (DEDUCED, log 155). -/
def hitWords (r : Ray) (i : Nat) : Option Hit → List Word
  | none => [0x7F800000, 0, BitVec.ofNat 64 i, 0]
  | some h =>
    [BitVec.ofNat 64 ((h.id * 128 + h.tri) * 2 ^ 32 + hitField 0 r h h.t),
     BitVec.ofNat 64 (hitField 2 r h h.v * 2 ^ 32 + hitField 1 r h h.u), BitVec.ofNat 64 i, 0]

/-! ## The commands (R334, R335) -/

structure RayArgs where
  resume : Bool
  any : Bool
  n : Nat
  hits : Word
  state : Word
  deriving Repr

def rayArgs (ws : List Word) : RayArgs :=
  let resume := cmdCode ws == 0x21
  ⟨resume, !resume && (wordAt ws 4).getLsbD 32, fieldOf (wordAt ws 4) 31 0, wordAt ws 3,
    if resume then wordAt ws 2 else wordAt ws 7⟩

/-- Record `i` of an array of records of `n` bytes. -/
def recordAddr (a : Word) (i n : Nat) : Eng Word :=
  match addrAdd a (i * n) with | some b => Eng.pure b | none => Eng.stop 0x0A a

/-- The tree's clusters with their blocks. -/
def Cmd.clusters (c : Cmd) : Eng (List Word × List (CutRec × Block)) :=
  Eng.bind (Eng.get fun (s : State) => s.trees) fun ts =>
  Eng.bind (c.treeAt (c.w 5) ts) fun t =>
  match t with
  | none => Eng.stop 0x16 (c.w 5)
  | some t =>
    Eng.bind (Eng.each (fun r => Eng.bind (c.block (c.w 6) r) fun b => Eng.pure (r, b.2)) (t.2.map CutRec.ofWord)) fun bs =>
      Eng.pure (t.2, bs)

/-- The ray of index `i`, with the ANY of the trace it is of, when the command continues it: a saved ray's is kept in the
lowest bit of the traversal state that programs do not read (log 10). -/
def Cmd.ray (c : Cmd) (x : RayArgs) (i : Nat) : Eng (Option (List Word × Bool)) :=
  if x.resume then
    Eng.bind (recordAddr x.state i 128) fun a => Eng.bind (c.record a 6 32) fun ws =>
      Eng.pure (if (wordAt ws 4).getLsbD 32 then some (ws.take 4, (wordAt ws 5).getLsbD 0) else none)
  else Eng.bind (recordAddr (c.w 2) i 32) fun a => Eng.bind (c.record a 4 32) fun ws => Eng.pure (some (ws, x.any))

/-- A ray finished: its hit, and SAVED = 0 in its state record (R391). -/
def Cmd.finishRay (c : Cmd) (x : RayArgs) (tree : List Word) (bs : List (CutRec × Block)) (i : Nat) (ws : List Word)
    (any : Bool) : Eng Unit :=
  let r := rayOf ws
  let hs := rayHits r bs
  let h := if any then hs[Config.firstHit (tree.map (·.toNat)) r % hs.length]? else nearest hs
  Eng.bind (recordAddr x.hits i 32) fun a =>
  Eng.bind (c.sink a 32 32 none) fun _ =>
  Eng.bind (c.writeWords a (hitWords r i h)) fun _ =>
  Eng.bind (recordAddr x.state i 128) fun a =>
  Eng.bind (c.sink a 128 32 none) fun _ => c.writeWords (a + 0x20) [BitVec.ofNat 64 i]

/-- A ray saved: its state record with SAVED = 1 and the engine's own bytes. -/
def Cmd.saveRay (c : Cmd) (x : RayArgs) (i : Nat) (ws : List Word) (any : Bool) : Eng Unit :=
  Eng.bind (recordAddr x.state i 128) fun a =>
  Eng.bind (c.sink a 128 32 none) fun _ =>
  Eng.bind (c.writeWords a (ws ++ [BitVec.ofNat 64 (2 ^ 32 + i)])) fun _ =>
  Eng.bind (Eng.get fun (s : State) => s.tick) fun tick =>
  Eng.bind (c.sink (a + 0x28) 0x58 8 none) fun p =>
    c.storeBytes p ((List.range 0x58).map fun k =>
      let b := Config.rayState (128 * tick + i) k
      (if k = 0 then b.extractLsb' 1 7 ++ (BitVec.ofBool any) else b, false))

/-- The rays of a command in order, those not to be finished now saved: how many were finished and saved. -/
def Cmd.rays (c : Cmd) (done : Nat → Bool) : Eng (Cmd → Cmd) :=
  let x := rayArgs c.c.words
  Eng.bind c.clusters fun t =>
  Eng.bind (Eng.along (fun (n : Nat × Nat) i =>
    Eng.bind (c.ray x i) fun r =>
    match r with
    | none => Eng.pure n
    | some (ws, any) =>
      if done i then Eng.bind (c.finishRay x t.1 t.2 i ws any) fun _ => Eng.pure (n.1 + 1, n.2)
      else Eng.bind (c.saveRay x i ws any) fun _ => Eng.pure (n.1, n.2 + 1)) (0, 0) (List.range x.n)) fun n =>
  Eng.pure (Cmd.finish (BitVec.ofNat 64 n.1) (BitVec.ofNat 64 n.2))

def execRayTrace (cmd : Nat) (s : State) : Result := .next (s.runCmd cmd [0x20] .accepted fun c => c.rays fun _ => true)
def execRayResume (cmd : Nat) (s : State) : Result := .next (s.runCmd cmd [0x21] .accepted fun c => c.rays fun _ => true)

/-- The pushing team is to be saved, or a command of higher priority waits for the pod's engine (R335). -/
def State.rayYields (s : State) (c : Cmd) : Bool :=
  let prio := fun n => match s.clutch? n with | some x => x.prio | none => 8
  let saving := match s.team? c.c.team with
    | some t => (match s.cluster? t.cluster with | some x => x.preempt | none => false)
    | none => false
  saving || (span (12 * c.pod) 12).any fun core => match s.queue core .ray with
    | q :: _ => decide (prio q.clutch < prio c.c.clutch)
    | [] => false

def execRayYield (cmd : Nat) (finished : List Nat) (s : State) : Result :=
  .next (s.runCmd cmd [0x20, 0x21] .accepted fun c =>
    Eng.bind (Eng.get fun (s : State) => s.rayYields c) fun (y : Bool) =>
      if y then c.rays finished.contains else Eng.later)

end Sys2Proof.Machine
end

