-- ==== Sys2Proof/Machine/Dispatch.lean ====
section
/-! DEFINITION. The meaning of each row of the opcode table, by its instruction. -/

namespace Sys2Proof.Machine

open Sys2Proof

def exec (i : Instr) (s : State) : Host.Outcome State Fault Refusal :=
  match i with
  | .iadd g sat u w d a b => Sys2Proof.Machine.execIadd g sat u w d a b s
  | .isub g sat u w d a b => Sys2Proof.Machine.execIsub g sat u w d a b s
  | .imul g sat u w d a b => Sys2Proof.Machine.execImul g sat u w d a b s
  | .imulh g u w d a b => Sys2Proof.Machine.execImulh g u w d a b s
  | .imad g sat u w d a b c => Sys2Proof.Machine.execImad g sat u w d a b c s
  | .imin g u w d a b => Sys2Proof.Machine.execImin g u w d a b s
  | .imax g u w d a b => Sys2Proof.Machine.execImax g u w d a b s
  | .iabs g sat w d a => Sys2Proof.Machine.execIabs g sat w d a s
  | .and g u w d a b => Sys2Proof.Machine.execAnd g u w d a b s
  | .or g u w d a b => Sys2Proof.Machine.execOr g u w d a b s
  | .xor g u w d a b => Sys2Proof.Machine.execXor g u w d a b s
  | .andn g u w d a b => Sys2Proof.Machine.execAndn g u w d a b s
  | .shl g u w d a b => Sys2Proof.Machine.execShl g u w d a b s
  | .shr g u w d a b => Sys2Proof.Machine.execShr g u w d a b s
  | .sar g u w d a b => Sys2Proof.Machine.execSar g u w d a b s
  | .rot g u w d a b => Sys2Proof.Machine.execRot g u w d a b s
  | .funl g u w d a b c => Sys2Proof.Machine.execFunl g u w d a b c s
  | .bfx g u w d a pos len => Sys2Proof.Machine.execBfx g u w d a pos len s
  | .bfi g u w d a b pos len => Sys2Proof.Machine.execBfi g u w d a b pos len s
  | .popc g u w d a => Sys2Proof.Machine.execPopc g u w d a s
  | .clz g u w d a => Sys2Proof.Machine.execClz g u w d a s
  | .ctz g u w d a => Sys2Proof.Machine.execCtz g u w d a s
  | .brev g u w d a => Sys2Proof.Machine.execBrev g u w d a s
  | .permb g u w d a b => Sys2Proof.Machine.execPermb g u w d a b s
  | .nibl g hi u w d a b => Sys2Proof.Machine.execNibl g hi u w d a b s
  | .icmp g c u w d a b => Sys2Proof.Machine.execIcmp g c u w d a b s
  | .badd g sat l16 u w d a b => Sys2Proof.Machine.execBadd g sat l16 u w d a b s
  | .bsub g sat l16 u w d a b => Sys2Proof.Machine.execBsub g sat l16 u w d a b s
  | .bcmp g c l16 u w d a b => Sys2Proof.Machine.execBcmp g c l16 u w d a b s
  | .bmaxu g l16 u w d a b => Sys2Proof.Machine.execBmaxu g l16 u w d a b s
  | .bmsk g l16 u w d a => Sys2Proof.Machine.execBmsk g l16 u w d a s
  | .mov g u w d a => Sys2Proof.Machine.execMov g u w d a s
  | .movi g u w d v => Sys2Proof.Machine.execMovi g u w d v s
  | .ldi d v => Sys2Proof.Machine.execLdi d v s
  | .ldih d v => Sys2Proof.Machine.execLdih d v s
  | .sel g u w d a b c => Sys2Proof.Machine.execSel g u w d a b c s
  | .pset g op d a b => Sys2Proof.Machine.execPset g op d a b s
  | .pmovGet g d => Sys2Proof.Machine.execPmovGet g d s
  | .pmovPut g a b => Sys2Proof.Machine.execPmovPut g a b s
  | .srd g d n => Sys2Proof.Machine.execSrd g d n s
  | .swr g a n => Sys2Proof.Machine.execSwr g a n s
  | .tset g b => Sys2Proof.Machine.execTset g b s
  | .mka g d a b => Sys2Proof.Machine.execMka g d a b s
  | .adda g d a b => Sys2Proof.Machine.execAdda g d a b s
  | .sext g d a b => Sys2Proof.Machine.execSext g d a b s
  | .zext g d a b => Sys2Proof.Machine.execZext g d a b s
  | .fadd g m d a b => Sys2Proof.Machine.execFadd g m d a b s
  | .fsub g m d a b => Sys2Proof.Machine.execFsub g m d a b s
  | .fmul g m d a b => Sys2Proof.Machine.execFmul g m d a b s
  | .ffma g m d a b c => Sys2Proof.Machine.execFfma g m d a b c s
  | .fmin g num ftz single d a b => Sys2Proof.Machine.execFmin g num ftz single d a b s
  | .fmax g num ftz single d a b => Sys2Proof.Machine.execFmax g num ftz single d a b s
  | .fcmp g c ftz single d a b => Sys2Proof.Machine.execFcmp g c ftz single d a b s
  | .fclass g ftz single d a => Sys2Proof.Machine.execFclass g ftz single d a s
  | .frint g exact m d a => Sys2Proof.Machine.execFrint g exact m d a s
  | .fcvt g f m d a => Sys2Proof.Machine.execFcvt g f m d a s
  | .fscale g m d a b => Sys2Proof.Machine.execFscale g m d a b s
  | .fexpo g mant ftz single d a => Sys2Proof.Machine.execFexpo g mant ftz single d a s
  | .f2sum g single d a b => Sys2Proof.Machine.execF2sum g single d a b s
  | .f2prod g single d a b => Sys2Proof.Machine.execF2prod g single d a b s
  | .fpack g bf m d a b => Sys2Proof.Machine.execFpack g bf m d a b s
  | .funpk g bf hi ftz single d a => Sys2Proof.Machine.execFunpk g bf hi ftz single d a s
  | .shfl g m d a b => Sys2Proof.Machine.execShfl g m d a b s
  | .vote g d a => Sys2Proof.Machine.execVote g d a s
  | .matchL g w d a => Sys2Proof.Machine.execMatchL g w d a s
  | .redl g op u w d a => Sys2Proof.Machine.execRedl g op u w d a s
  | .scanl g op excl u w d a => Sys2Proof.Machine.execScanl g op excl u w d a s
  | .first g d a => Sys2Proof.Machine.execFirst g d a s
  | .bra g off => Sys2Proof.Machine.execBra g off s
  | .bany g p off => Sys2Proof.Machine.execBany g p off s
  | .ball g p off => Sys2Proof.Machine.execBall g p off s
  | .bnone g p off => Sys2Proof.Machine.execBnone g p off s
  | .jmpr g a => Sys2Proof.Machine.execJmpr g a s
  | .call g off => Sys2Proof.Machine.execCall g off s
  | .callr g a => Sys2Proof.Machine.execCallr g a s
  | .ret g => Sys2Proof.Machine.execRet g s
  | .exit g => Sys2Proof.Machine.execExit g s
  | .fork g d a off => Sys2Proof.Machine.execFork g d a off s
  | .nop g => Sys2Proof.Machine.execNop g s
  | .yld g => Sys2Proof.Machine.execYld g s
  | .ld g m d r => Sys2Proof.Machine.execLd g m d r s
  | .st g sz o fe d r => Sys2Proof.Machine.execSt g sz o fe d r s
  | .ldx g k o f out d r => Sys2Proof.Machine.execLdx g k o f out d r s
  | .lde g k o f sx d r => Sys2Proof.Machine.execLde g k o f sx d r s
  | .ste g k o f d r => Sys2Proof.Machine.execSte g k o f d r s
  | .pld g sz rep r => Sys2Proof.Machine.execPld g sz rep r s
  | .atom g wide o op ps d a b c => Sys2Proof.Machine.execAtom g wide o op ps d a b c s
  | .red g wide o op a b => Sys2Proof.Machine.execRed g wide o op a b s
  | .fence g o => Sys2Proof.Machine.execFence g o s
  | .cwb g sz sc r => Sys2Proof.Machine.execCwb g sz sc r s
  | .cinv g sz sc r => Sys2Proof.Machine.execCinv g sz sc r s
  | .feset g a n off => Sys2Proof.Machine.execFeset g a n off s
  | .feclr g a n off => Sys2Proof.Machine.execFeclr g a n off s
  | .feqry g d a off => Sys2Proof.Machine.execFeqry g d a off s
  | .feAccessComplete op => Sys2Proof.Machine.execFeAccessComplete op s
  | .sld g o d r => Sys2Proof.Machine.execSld g o d r s
  | .sldx g o d r c => Sys2Proof.Machine.execSldx g o d r c s
  | .sst g o quiet d a b c => Sys2Proof.Machine.execSst g o quiet d a b c s
  | .srec g o op force ps d a b c => Sys2Proof.Machine.execSrec g o op force ps d a b c s
  | .mma g k m a b c => Sys2Proof.Machine.execMma g k m a b c s
  | .mmab g k m gb a b c => Sys2Proof.Machine.execMmab g k m gb a b c s
  | .mzero g a n => Sys2Proof.Machine.execMzero g a n s
  | .mrd g w d a off => Sys2Proof.Machine.execMrd g w d a off s
  | .mwr g w a b off => Sys2Proof.Machine.execMwr g w a b off s
  | .msts g a b => Sys2Proof.Machine.execMsts g a b s
  | .mlds g a b => Sys2Proof.Machine.execMlds g a b s
  | .rcp g ftz single d a => Sys2Proof.Machine.execRcp g ftz single d a s
  | .rsq g ftz single d a => Sys2Proof.Machine.execRsq g ftz single d a s
  | .sqrt g m d a => Sys2Proof.Machine.execSqrt g m d a s
  | .div g m d a b => Sys2Proof.Machine.execDiv g m d a b s
  | .exp2 g ftz single d a => Sys2Proof.Machine.execExp2 g ftz single d a s
  | .log2 g ftz single d a => Sys2Proof.Machine.execLog2 g ftz single d a s
  | .sin g ftz single d a => Sys2Proof.Machine.execSin g ftz single d a s
  | .cos g ftz single d a => Sys2Proof.Machine.execCos g ftz single d a s
  | .idiv g u w d a b => Sys2Proof.Machine.execIdiv g u w d a b s
  | .irem g u w d a b => Sys2Proof.Machine.execIrem g u w d a b s
  | .barv g b n => Sys2Proof.Machine.execBarv g b n s
  | .barw g b n => Sys2Proof.Machine.execBarw g b n s
  | .cbar g arv n => Sys2Proof.Machine.execCbar g arv n s
  | .gbar g arv n => Sys2Proof.Machine.execGbar g arv n s
  | .tsync g => Sys2Proof.Machine.execTsync g s
  | .kset g k n => Sys2Proof.Machine.execKset g k n s
  | .kwait g k => Sys2Proof.Machine.execKwait g k s
  | .kleave g m => Sys2Proof.Machine.execKleave g m s
  | .ksign g k => Sys2Proof.Machine.execKsign g k s
  | .push g q n pf slot => Sys2Proof.Machine.execPush g q n pf slot s
  | .gset g n p => Sys2Proof.Machine.execGset g n p s
  | .spawn g p a b w => Sys2Proof.Machine.execSpawn g p a b w s
  | .csub g p a => Sys2Proof.Machine.execCsub g p a s
  | .trig g => Sys2Proof.Machine.execTrig g s
  | .fres g a b => Sys2Proof.Machine.execFres g a b s
  | .freg g a b => Sys2Proof.Machine.execFreg g a b s
  | .fpoll g d a => Sys2Proof.Machine.execFpoll g d a s
  | .ffail g a b => Sys2Proof.Machine.execFfail g a b s
  | .joinDecrement n => Sys2Proof.Machine.execJoinDecrement n s
  | .regb n tag => Sys2Proof.Machine.execRegb n tag s
  | .regc => Sys2Proof.Machine.execRegc s
  | .regionCommit team => Sys2Proof.Machine.execRegionCommit team s
  | .regq d => Sys2Proof.Machine.execRegq d s
  | .trap g c => Sys2Proof.Machine.execTrap g c s
  | .eret => Sys2Proof.Machine.execEret s
  | .csrr g d n => Sys2Proof.Machine.execCsrr g d n s
  | .csrw g a n => Sys2Proof.Machine.execCsrw g a n s
  | .pchk g p a => Sys2Proof.Machine.execPchk g p a s
  | .brk g c => Sys2Proof.Machine.execBrk g c s
  | .tlbiVa g a b => Sys2Proof.Machine.execTlbiVa g a b s
  | .tlbiFrame g a b => Sys2Proof.Machine.execTlbiFrame g a b s
  | .tlbiAll g => Sys2Proof.Machine.execTlbiAll g s
  | .btinv g a b => Sys2Proof.Machine.execBtinv g a b s
  | .btinvAll g => Sys2Proof.Machine.execBtinvAll g s
  | .qctlRd g d a w => Sys2Proof.Machine.execQctlRd g d a w s
  | .qctlWr g p a b w => Sys2Proof.Machine.execQctlWr g p a b w s
  | .clauseStart fs pipe => Sys2Proof.Machine.execClauseStart fs pipe s
  | .issueStarvation fs => Sys2Proof.Machine.execIssueStarvation fs s
  | .trackedComplete op => Sys2Proof.Machine.execTrackedComplete op s
  | .pathUnpark core => Sys2Proof.Machine.execPathUnpark core s
  | .parkSteal core => Sys2Proof.Machine.execParkSteal core s
  | .trapDelivery f => Sys2Proof.Machine.execTrapDelivery f s
  | .engineAccept core q => Sys2Proof.Machine.execEngineAccept core q s
  | .engineComplete cmd => Sys2Proof.Machine.execEngineComplete cmd s
  | .seFill cmd => Sys2Proof.Machine.execSeFill cmd s
  | .seDrain cmd => Sys2Proof.Machine.execSeDrain cmd s
  | .seFillSlot cmd => Sys2Proof.Machine.execSeFillSlot cmd s
  | .seDrainSlot cmd => Sys2Proof.Machine.execSeDrainSlot cmd s
  | .cvxCopy cmd => Sys2Proof.Machine.execCvxCopy cmd s
  | .rayTrace cmd => Sys2Proof.Machine.execRayTrace cmd s
  | .rayResume cmd => Sys2Proof.Machine.execRayResume cmd s
  | .rayYield cmd finished => Sys2Proof.Machine.execRayYield cmd finished s
  | .cutSelect cmd => Sys2Proof.Machine.execCutSelect cmd s
  | .cutTree cmd => Sys2Proof.Machine.execCutTree cmd s
  | .rastVis cmd => Sys2Proof.Machine.execRastVis cmd s
  | .collAllred cmd => Sys2Proof.Machine.execCollAllred cmd s
  | .collBcast cmd => Sys2Proof.Machine.execCollBcast cmd s
  | .collBar cmd => Sys2Proof.Machine.execCollBar cmd s
  | .collGath cmd => Sys2Proof.Machine.execCollGath cmd s
  | .collComplete cmd ranks parts => Sys2Proof.Machine.execCollComplete cmd ranks parts s
  | .collMemberTimeout cmd rank => Sys2Proof.Machine.execCollMemberTimeout cmd rank s
  | .collCoordinatorLost cmd => Sys2Proof.Machine.execCollCoordinatorLost cmd s
  | .matrixOpStart core => Sys2Proof.Machine.execMatrixOpStart core s
  | .matrixOpWrite core => Sys2Proof.Machine.execMatrixOpWrite core s
  | .redCombineApply pod n => Sys2Proof.Machine.execRedCombineApply pod n s
  | .l1CleanExpire pod base => Sys2Proof.Machine.execL1CleanExpire pod base s
  | .l1DirtyWriteback pod base => Sys2Proof.Machine.execL1DirtyWriteback pod base s
  | .translationWalk n => Sys2Proof.Machine.execTranslationWalk n s
  | .faultRecordWrite part => Sys2Proof.Machine.execFaultRecordWrite part s
  | .deadFrameFill f => Sys2Proof.Machine.execDeadFrameFill f s
  | .caParityReplay stack q ok => Sys2Proof.Machine.execCaParityReplay stack q ok s
  | .refreshManagement stack q bank row => Sys2Proof.Machine.execRefreshManagement stack q bank row s
  | .activationSaturate stack q bank row parity => Sys2Proof.Machine.execActivationSaturate stack q bank row parity s
  | .cxlLinkDown e => Sys2Proof.Machine.execCxlLinkDown e s
  | .cxlTimeout e => Sys2Proof.Machine.execCxlTimeout e s
  | .remoteResponse op bytes poison => Sys2Proof.Machine.execRemoteResponse op bytes poison s
  | .remoteTimeout op => Sys2Proof.Machine.execRemoteTimeout op s
  | .packageLost pkg => Sys2Proof.Machine.execPackageLost pkg s
  | .flitReplay r => Sys2Proof.Machine.execFlitReplay r s
  | .portDown port => Sys2Proof.Machine.execPortDown port s
  | .checkFail site hit => Sys2Proof.Machine.execCheckFail site hit s
  | .correctedError site => Sys2Proof.Machine.execCorrectedError site s
  | .regionReplay cluster origin => Sys2Proof.Machine.execRegionReplay cluster origin s
  | .regionSplit fs pipe => Sys2Proof.Machine.execRegionSplit fs pipe s
  | .preemptSave cluster => Sys2Proof.Machine.execPreemptSave cluster s
  | .clusterRestore cluster origin => Sys2Proof.Machine.execClusterRestore cluster origin s
  | .watchdogPreempt team => Sys2Proof.Machine.execWatchdogPreempt team s
  | .watchdogKill team => Sys2Proof.Machine.execWatchdogKill team s
  | .watchdogFence team => Sys2Proof.Machine.execWatchdogFence team s
  | .fenceSaveTimeout team => Sys2Proof.Machine.execFenceSaveTimeout team s
  | .cardIntake n => Sys2Proof.Machine.execCardIntake n s
  | .intakeHead part => Sys2Proof.Machine.execIntakeHead part s
  | .chunkDeal clutch origins => Sys2Proof.Machine.execChunkDeal clutch origins s
  | .preemptRequest clutch victim => Sys2Proof.Machine.execPreemptRequest clutch victim s
  | .clutchRetire clutch => Sys2Proof.Machine.execClutchRetire clutch s
  | .nodeClose clutch => Sys2Proof.Machine.execNodeClose clutch s
  | .headFrameScan head => Sys2Proof.Machine.execHeadFrameScan head s
  | .encoderRingWrite enc => Sys2Proof.Machine.execEncoderRingWrite enc s
  | .submit fn c => Sys2Proof.Machine.execSubmit fn c s
  | .tables fn c => Sys2Proof.Machine.execTables fn c s
  | .frame fn c => Sys2Proof.Machine.execFrame fn c s
  | .dead fn c => Sys2Proof.Machine.execDead fn c s
  | .profile fn c => Sys2Proof.Machine.execProfile fn c s
  | .faultResume fn c => Sys2Proof.Machine.execFaultResume fn c s
  | .faultFail fn c => Sys2Proof.Machine.execFaultFail fn c s
  | .shadow fn c => Sys2Proof.Machine.execShadow fn c s
  | .head fn c => Sys2Proof.Machine.execHead fn c s
  | .teamRelease fn c => Sys2Proof.Machine.execTeamRelease fn c s
  | .teamKill fn c => Sys2Proof.Machine.execTeamKill fn c s
  | .core fn c => Sys2Proof.Machine.execCore fn c s
  | .cxlDisable fn c => Sys2Proof.Machine.execCxlDisable fn c s
  | .cxlEnable fn c => Sys2Proof.Machine.execCxlEnable fn c s
  | .link fn c => Sys2Proof.Machine.execLink fn c s
  | .mode fn c => Sys2Proof.Machine.execMode fn c s
  | .power fn c => Sys2Proof.Machine.execPower fn c s
  | .queue fn c => Sys2Proof.Machine.execQueue fn c s
  | .encoder fn c => Sys2Proof.Machine.execEncoder fn c s
  | .firmwareBoot fn c ok => Sys2Proof.Machine.execFirmwareBoot fn c ok s
  | .firmwareWrite fn c ok wrote => Sys2Proof.Machine.execFirmwareWrite fn c ok wrote s
  | .firmwareWriteBoot fn c ok wrote => Sys2Proof.Machine.execFirmwareWriteBoot fn c ok wrote s
  | .jheadWrite fn v => Sys2Proof.Machine.execJheadWrite fn v s
  | .fheadWrite fn v => Sys2Proof.Machine.execFheadWrite fn v s
  | .bar0OtherAccess fn off => Sys2Proof.Machine.execBar0OtherAccess fn off s
  | .mgmtLaneRemap fn r => Sys2Proof.Machine.execMgmtLaneRemap fn r s
  | .mgmtEncoderCounters fn r => Sys2Proof.Machine.execMgmtEncoderCounters fn r s
  | .mgmtEventLog fn r => Sys2Proof.Machine.execMgmtEventLog fn r s
  | .mgmtPackageId fn r => Sys2Proof.Machine.execMgmtPackageId fn r s
  | .mgmtStorePackageId fn r => Sys2Proof.Machine.execMgmtStorePackageId fn r s
  | .mgmtAnswer fn => Sys2Proof.Machine.execMgmtAnswer fn s
  | .msixMessage fn vec => Sys2Proof.Machine.execMsixMessage fn vec s
  | .boot e => Sys2Proof.Machine.execBoot e s
  | .d3cold => Sys2Proof.Machine.execD3cold s
  | .powerCapWindow fn above => Sys2Proof.Machine.execPowerCapWindow fn above s
  | .hostMemoryWrite addr w => Sys2Proof.Machine.execHostMemoryWrite addr w s
  | .ualinkInboundRequest r => Sys2Proof.Machine.execUalinkInboundRequest r s
  | .msixVectorUnmask fn vec => Sys2Proof.Machine.execMsixVectorUnmask fn vec s
  | .refreshManagementComplete stack q bank => Sys2Proof.Machine.execRefreshManagementComplete stack q bank s

end Sys2Proof.Machine
end

