-- ==== Sys2Proof/Machine/Advance.lean ====
section
/-! DEFINITION. One step of the package: a choice of the tape, the time that passes, the word, row or command
that acts, and what follows it at once. -/

namespace Sys2Proof.Machine

open Sys2Proof

/-! ## Time -/

/-- Cycles of the next `dt` in which step 3 of R438 does not stop a slice's cores. -/
def State.goingCycles (s : State) (part dt : Nat) : Nat :=
  if !(s.part part).stopped then dt
  else
    let first := s.clock / 3300
    (List.range ((s.clock + dt) / 3300 + 1 - first)).foldl (fun (n : Nat) i =>
      let k := first + i
      if Config.capStop part k then n else n + (min (s.clock + dt) ((k + 1) * 3300) - max s.clock (k * 3300))) 0

/-- A team's no-progress time (R293), which stands while step 3 of R438 stops its core. -/
def State.idleBy (s : State) (dt : Nat) (t : Team) : Team :=
  if t.phase == .resident then { t with idle := t.idle + s.goingCycles t.part dt } else t

/-- Cycles that pass (R58). `waitSince` of a card whose next chunk does not wait for a rectangle follows the
clock (R288). -/
def State.pass (s : State) (dt : Nat) : State :=
  if s.power == .off then s
  else
    let s := { s with clock := s.clock + dt, teams := s.teams.map (s.idleBy dt) }
    { s with clutches := s.clutches.map fun (c : Clutch) => if s.awaiting c then c else { c with waitSince := s.clock } }

/-- The choice that the next step takes (log 1). -/
def State.choice (s : State) : Choice := match s.sched with | c :: _ => c | [] => Config.freeChoice s.tick

/-- The state in which the choice acts. -/
def State.taken (s : State) : State := { s with sched := s.sched.tail, tick := s.tick + 1 }.pass s.choice.dt

/-! ## The next word of a started clause (R12) -/

/-- The words a run has still to execute. -/
def ClauseRun.rest (r : ClauseRun) : List W32 := r.words.drop r.pos

/-- The instruction at a run's place and how many words it takes. -/
def State.fetchWord (s : State) (r : ClauseRun) : Option (Decoded × Nat) :=
  match s.team? r.team, r.rest with
  | some t, w :: more =>
    some (decode ((s.decCtx t r.cls).at r.words.length (r.pos + 1) w) w (more.headD 0), if w.getLsbD 31 then 2 else 1)
  | _, _ => none

/-- The clause goes past a word of `n`; after its last word it ends. -/
def State.leaveWord (s : State) (run n : Nat) : State :=
  let s := { s with cur := 0 }.modRun run fun r => { r with pos := r.pos + n }
  match s.run? run with
  | some r => if r.words.length ≤ r.pos then s.endClause r else s
  | none => s

/-! ## Commands by their words (R413, R427) -/

/-- The row of a command, where its words name one. -/
def commandRow (fn type : Nat) (c : HostCmd) (ok wrote : Bool) : Option Instr :=
  match type with
  | 0x01 => some (.submit fn c)
  | 0x02 => some (.tables fn c)
  | 0x03 => some (.frame fn c)
  | 0x04 => some (.dead fn c)
  | 0x05 => some (.profile fn c)
  | 0x06 => if c.w2 = 0 then some (.faultResume fn c) else if c.w2 = 1 then some (.faultFail fn c) else none
  | 0x07 => some (.shadow fn c)
  | 0x08 => some (.head fn c)
  | 0x09 => if c.w2 = 0 then some (.teamRelease fn c) else if c.w2 = 1 then some (.teamKill fn c) else none
  | 0x0A => some (.core fn c)
  | 0x0B => if c.w2 = 0 then some (.cxlDisable fn c) else if c.w2 = 1 then some (.cxlEnable fn c) else none
  | 0x0C => some (.link fn c)
  | 0x0D => some (.mode fn c)
  | 0x0E => some (.power fn c)
  | 0x0F => some (.queue fn c)
  | 0x10 => some (.encoder fn c)
  | 0x11 =>
    match fieldOf c.w3 1 0 with
    | 0 => some (.firmwareBoot fn c ok)
    | 1 => some (.firmwareWrite fn c ok wrote)
    | 2 => some (.firmwareWriteBoot fn c ok wrote)
    | _ => none
  | _ => none

/-- A command that no row answers: an unknown TYPE, or an action that its table does not give. -/
def State.badCommand (s : State) (fn type : Nat) (c : HostCmd) : State :=
  let known := decide (1 ≤ type) && decide (type ≤ 0x11)
  let image := type == 0x11
  let why :=
    [(c.hi != 0 || !known, 1), (image && (fieldOf c.w1 63 48 != 0 || fieldOf c.w2 63 32 != 0 || fieldOf c.w3 63 2 != 0), 1),
     (image && fn != 0, 5)]
  s.hostCmd fn image 0xFF fun _ s => (.no ((refuse why).getD 3), s)

/-- The row of a request, where OBJ names one. -/
def requestRow (fn obj : Nat) (r : MgmtReq) : Option Instr :=
  match obj with
  | 0x01 => some (.mgmtLaneRemap fn r)
  | 0x02 => some (.mgmtEncoderCounters fn r)
  | 0x03 => some (.mgmtEventLog fn r)
  | 0x04 => some (.mgmtPackageId fn r)
  | 0x84 => some (.mgmtStorePackageId fn r)
  | _ => none

/-- A write of MREQ: its row, or the request that no object answers. -/
def State.request (s : State) (fn : Nat) (v : Word) : Result :=
  let r : MgmtReq := ⟨v.extractLsb' 40 24, v.extractLsb' 16 24⟩
  if v.extractLsb' 8 8 ≠ (0 : Byte) then exec (.bar0OtherAccess fn 0x80) s
  else
    match requestRow fn (fieldOf v 7 0) r with
    | some i => exec i s
    | none => .next (s.mgmtAsk fn (fieldOf v 7 0) r)

/-- A row that the host reaches through the command window or MREQ only. -/
def windowed : Instr → Bool
  | .submit .. | .tables .. | .frame .. | .dead .. | .profile .. | .faultResume .. | .faultFail .. | .shadow .. | .head ..
  | .teamRelease .. | .teamKill .. | .core .. | .cxlDisable .. | .cxlEnable .. | .link .. | .mode .. | .power .. | .queue ..
  | .encoder .. | .firmwareBoot .. | .firmwareWrite .. | .firmwareWriteBoot .. | .mgmtLaneRemap .. | .mgmtEncoderCounters ..
  | .mgmtEventLog .. | .mgmtPackageId .. | .mgmtStorePackageId .. => true
  | _ => false

/-! ## Drops that no rule times (R15, R178, R213, R221, R348) -/

def State.dropLeaf (s : State) (k va : Nat) : State :=
  if k < 64 then s.modPod k fun p => { p with tlb := p.tlb.filter fun t => t.va != va }
  else { s with dtlb := s.dtlb.mod (k - 64) fun l => l.filter fun t => t.va != va }

/-- An L1's clean copy leaves (log 137). -/
def State.dropClean (s : State) (pod base : Nat) : State :=
  s.modPod pod fun p => { p with l1 := p.l1.filter fun c => c.base != base || c.dirty }

/-! ## What acts -/

/-- What a choice does to the state it finds. -/
def State.act (s : State) : Act → Result
  | .word run =>
    match s.run? run with
    | none => .next s
    | some r =>
      match s.fetchWord r with
      | none => .next s
      | some (.error _, _) => .fault .undecoded
      | some (.ok i, n) =>
        match exec i { s with cur := run } with
        | .next t => .next ((t.proveWord s r i).leaveWord run n)
        | .fault f => .fault f
        | .refused x => .refused x
  | .event i => if (Instr.cls i).isSome || windowed i then .next s else exec i s
  | .command fn type c =>
    match commandRow fn type c (Config.freeNat s.tick 41 % 2 == 1) (Config.freeNat s.tick 42 % 2 == 1) with
    | some i => exec i s
    | none => .next (s.badCommand fn type c)
  | .request fn v => s.request fn v
  | .evictGuest die base => .next { s with guests := s.guests.filter fun g => !(g.1 == die && g.2.base == base) }
  | .evictL1 pod base => .next (s.dropClean pod base)
  | .evictCode core addr => .next (s.modCore core fun c => { c with icache := c.icache.filter fun b => b.addr != addr })
  | .evictDesc part idx => .next (s.modPart part fun p => { p with dcache := NMap.del p.dcache idx })
  | .evictLeaf k va => .next (s.dropLeaf k va)
  | .part op n => .next (s.performPart op n)
  | .headWord head => .next (s.headWord head)
  | .firmware => .next s.fwNext
  | .mask fn vec => .next (s.maskVector fn vec)
  | .idle => .next s

/-- What follows a step at once: halts, drained teams and finished kills, the losses to journal, the agents that
find a walker free, the loads that a fetch serves, and the lines that find a way in the caches. -/
def State.afterStep (s : State) : State := s.settle.journalLost.retryWalks.latch.fit

/-- One step. -/
def State.advance (s : State) : Result :=
  match s.taken.act s.choice.act with
  | .next t => .next t.afterStep
  | .fault f => .fault f
  | .refused r => .refused r

/-! ## One instruction placed to run next -/

/-- The privileged clutch, cluster, team, group and fibre that a placed word runs for. -/
def State.withFibre (s : State) : State :=
  let n := s.fresh
  let c : Clutch := { (default : Clutch) with id := n, priv := true, phase := .queued, card := List.replicate 16 0 }
  let k : Cluster := { (default : Cluster) with id := n + 1, clutch := n, count := 1, nteamZ := 1, rows := 1, cols := 1, phase := .resident }
  let t : Team := { (default : Team) with
    id := n + 2, cluster := n + 1, clutch := n, regs := 128, width := 8, groups := 1, spadSize := 65536, accRows := 2048,
    phase := .resident, point := .none }
  let g : Group := { (default : Group) with team := n + 2, grp := 0, width := 8 }
  let f : Fibre := { (default : Fibre) with fid := ⟨n + 2, 0, 0⟩, preds := 0x80, tile := 8, hold := .free, busy := true }
  { s with
    power := .on, fresh := n + 4, clutches := c :: s.clutches, clusters := k :: s.clusters, teams := t :: s.teams,
    groups := g :: s.groups, fibres := f :: s.fibres }

/-- A started clause that holds exactly the words. -/
def placedRun (n cls unit : Nat) (words : List W32) : ClauseRun :=
  { id := n + 3, team := n + 2, core := 0, unit := unit, hdr := 0, cls := cls, words := words, pos := 0, seta := 15, setb := 15,
    yield := false, fibs := [⟨n + 2, 0, 0⟩], took := [], stopped := [], branch := [], exits := [], plan := [], split := false }

/-- The words stored as the next to run, in the first class in which they decode. -/
def State.placeWords (s : State) (w e : W32) : State :=
  let n := s.fresh
  let s := s.withFibre
  let words := if w.getLsbD 31 then [w, e] else [w]
  let i := decodeAnyClass w e [0, 1, 2, 3, 4, 5]
  let cls := match i with | some i => (Instr.cls i).getD 0 | none => 0
  let r := placedRun n cls (if cls = 0 then 0 else cls + 3) words
  let p := match i, s.view? r ⟨n + 2, 0, 0⟩ with
    | some i, some v => if cls = 1 then s.planFibre v [(1, i)] else (.ok [], s)
    | _, _ => (.ok [], s)
  let r := match p.1 with | .ok l => { r with plan := l } | _ => r
  { p.2 with running := r :: p.2.running, sched := ⟨0, .word (n + 3)⟩ :: s.sched }

end Sys2Proof.Machine
end

