-- ==== Sys2Proof/Machine/Step.lean ====
section
/-! DEFINITION. The step of the machine, and a state in which it runs a given word next. -/

namespace Sys2Proof.Machine

/-- One step of the package. -/
def step (s : State) : Host.Outcome State Fault Refusal := s.advance

/-- `s` with the instruction of `nbits` bits `w` placed as the next word that `step` executes (log 60). -/
def State.withFetchWord (s : State) (nbits w : Nat) : State :=
  let v := w % 2 ^ nbits
  s.placeWords (BitVec.ofNat 32 v) (BitVec.ofNat 32 (v / 2 ^ 32))

end Sys2Proof.Machine
end

