-- ==== Sys2Proof/WellFormed.lean ====
section
/-! DEFINITION. Which terms of `Instr` are instructions: the limits that the pages set on operands and
modifiers and that the types of `Syntax` do not already carry. -/

namespace Sys2Proof

/-- A second source (R28, R30). -/
def Src.ok (regs : Nat) (sync : Bool) : Src → Bool
  | .opnd o => o.src regs sync
  | .imm _ => true

/-- A memory operand (R34). -/
def MemRef.ok (regs : Nat) (r : MemRef) : Bool := r.base.src regs false && r.idx.src regs false

/-- `.ftz` only in binary32 (R34, R66). -/
def FpMod.ok (m : FpMod) : Bool := !m.ftz || m.single

/-- SCOPE is 0 when ORDER is 0 (R34). -/
def Ord.plain (o : Ord) : Bool := decide (o.order = .none → o.scope = .team)

/-- The data field of an access of `bits` bits (R28, R95, R229). -/
def dataOk (regs bits : Nat) (written : Bool) (d : Opnd) : Bool :=
  if 64 < bits then d.pair regs false else if written then d.dst regs false else d.src regs false

/-- An s register holds no pair of element slots (R230). -/
def Opnd.isS : Opnd → Bool
  | .s _ => true
  | _ => false

/-- An address operand of a task instruction (R259). -/
def Opnd.taskAddr (regs : Nat) : Opnd → Bool
  | .x n => decide (n.val < regs)
  | .s _ => true
  | _ => false

/-- The modifiers and operands of `mma` and `mmab` (R245); `g` is the batch count. -/
def mmaOk (regs rows g : Nat) (m : MmaMod) (a : Fin 128) (b : Opnd) (c : Option (Fin 128)) : Bool :=
  decide (m.fmt ≠ .fp32) && (!m.fec || m.few) && mmaShapeOk m.fmt m.lb.val m.ar.toNat g
    && decide (8 * m.ar.toNat + m.fmt.mmaRows ≤ rows) && decide (a.val + 7 < regs) && b.taskAddr regs
    && (match c with | some r => m.fmt.scaled && decide (r.val < regs) | none => !m.fmt.scaled)

/-- The instruction is one that a team with `regs` x registers and `rows` accumulator rows may execute;
a row that is no instruction word is well formed. -/
def Instr.wf (regs rows : Nat) : Instr → Bool
  | .iadd _ _ _ _ d a b => d.dst regs false && a.src regs false && b.ok regs false
  | .isub _ _ _ _ d a b => d.dst regs false && a.src regs false && b.ok regs false
  | .imul _ _ _ _ d a b => d.dst regs false && a.src regs false && b.ok regs false
  | .imulh _ _ _ d a b => d.dst regs false && a.src regs false && b.ok regs false
  | .imad _ _ _ _ d a b c => d.dst regs false && a.src regs false && b.ok regs false && c.src regs false
  | .imin _ _ _ d a b => d.dst regs false && a.src regs false && b.ok regs false
  | .imax _ _ _ d a b => d.dst regs false && a.src regs false && b.ok regs false
  | .iabs _ _ _ d a => d.dst regs false && a.src regs false
  | .and _ _ _ d a b => d.dst regs false && a.src regs false && b.ok regs false
  | .or _ _ _ d a b => d.dst regs false && a.src regs false && b.ok regs false
  | .xor _ _ _ d a b => d.dst regs false && a.src regs false && b.ok regs false
  | .andn _ _ _ d a b => d.dst regs false && a.src regs false && b.ok regs false
  | .shl _ _ _ d a b => d.dst regs false && a.src regs false && b.ok regs false
  | .shr _ _ _ d a b => d.dst regs false && a.src regs false && b.ok regs false
  | .sar _ _ _ d a b => d.dst regs false && a.src regs false && b.ok regs false
  | .rot _ _ _ d a b => d.dst regs false && a.src regs false && b.ok regs false
  | .funl _ _ _ d a b c => d.dst regs false && a.src regs false && b.ok regs false && c.src regs false
  | .bfx _ _ w d a pos len => d.dst regs false && a.src regs false
      && decide (pos.toNat + len.toNat ≤ if w then 32 else 64)
  | .bfi _ _ w d a b pos len => d.dst regs false && a.src regs false && b.src regs false
      && decide (pos.toNat + len.toNat ≤ if w then 32 else 64)
  | .popc _ _ _ d a => d.dst regs false && a.src regs false
  | .clz _ _ _ d a => d.dst regs false && a.src regs false
  | .ctz _ _ _ d a => d.dst regs false && a.src regs false
  | .brev _ _ _ d a => d.dst regs false && a.src regs false
  | .permb _ _ _ d a b => d.dst regs false && a.src regs false && b.ok regs false
  | .nibl _ _ _ _ d a b => d.dst regs false && a.src regs false && b.pair regs false
  | .icmp _ _ _ _ _ a b => a.src regs false && b.ok regs false
  | .badd _ _ _ _ _ d a b => d.dst regs false && a.src regs false && b.ok regs false
  | .bsub _ _ _ _ _ d a b => d.dst regs false && a.src regs false && b.ok regs false
  | .bcmp _ _ _ _ _ d a b => d.dst regs false && a.src regs false && b.ok regs false
  | .bmaxu _ _ _ _ d a b => d.dst regs false && a.src regs false && b.ok regs false
  | .bmsk _ _ _ _ d a => d.dst regs false && a.src regs false
  | .mov _ _ _ d a => d.dst regs false && a.src regs false
  | .movi _ _ _ d _ => d.dst regs false
  | .ldi d _ => d.dst regs false
  | .ldih d _ => d.dst regs false
  | .sel _ _ _ d a b _ => d.dst regs false && a.src regs false && b.ok regs false
  | .pmovGet _ d => d.dst regs false
  | .pmovPut _ a b => a.src regs false && b.ok regs false
  | .srd _ d n => d.dst regs false && decide (n.toNat ≤ 0x19)
  | .swr _ a n => a.src regs false && decide (n.toNat ≤ 0x19)
  | .tset _ b => b.ok regs false
  | .mka _ d a b => d.dst regs false && a.src regs false && b.ok regs false
  | .adda _ d a b => d.dst regs false && a.src regs false && b.ok regs false
  | .sext _ d a b => d.dst regs false && a.src regs false && b.ok regs false
  | .zext _ d a b => d.dst regs false && a.src regs false && b.ok regs false
  | .fadd _ m d a b => m.ok && d.dst regs false && a.src regs false && b.src regs false
  | .fsub _ m d a b => m.ok && d.dst regs false && a.src regs false && b.src regs false
  | .fmul _ m d a b => m.ok && d.dst regs false && a.src regs false && b.src regs false
  | .ffma _ m d a b c => m.ok && d.dst regs false && a.src regs false && b.src regs false && c.src regs false
  | .fmin _ _ z p d a b => (!z || p) && d.dst regs false && a.src regs false && b.src regs false
  | .fmax _ _ z p d a b => (!z || p) && d.dst regs false && a.src regs false && b.src regs false
  | .fcmp _ _ z p _ a b => (!z || p) && a.src regs false && b.src regs false
  | .fclass _ z p d a => (!z || p) && d.dst regs false && a.src regs false
  | .frint _ _ m d a => m.ok && d.dst regs false && a.src regs false
  | .fcvt _ f m d a => m.ok && decide (f = .f2f → m.single = true → m.rm = .rn) && d.dst regs false
      && a.src regs false
  | .fscale _ m d a b => m.ok && d.dst regs false && a.src regs false && b.src regs false
  | .fexpo _ _ z p d a => (!z || p) && d.dst regs false && a.src regs false
  | .f2sum _ _ d a b => d.pair regs false && a.src regs false && b.src regs false
  | .f2prod _ _ d a b => d.pair regs false && a.src regs false && b.src regs false
  | .fpack _ _ m d a b => m.ok && d.dst regs false && a.src regs false && b.src regs false
  | .funpk _ _ _ z p d a => (!z || p) && d.dst regs false && a.src regs false
  | .shfl _ _ d a b => d.dst regs false && a.src regs false && b.ok regs false
  | .vote _ (.bal d) _ => d.dst regs false
  | .matchL _ _ d a => d.dst regs false && a.src regs false
  | .redl _ op u _ d a => decide (op = .fadd → u = false) && d.dst regs false && a.src regs false
  | .scanl _ op _ u _ d a => decide (op = .fadd → u = false) && d.dst regs false && a.src regs false
  | .first _ d a => d.dst regs false && a.src regs false
  | .jmpr _ a => a.src regs false
  | .callr _ a => a.src regs false
  | .fork _ d a _ => d.dst regs false && a.src regs false
  | .ld _ m d r => m.ord.plain && decide (m.ord.order ≠ .rel ∧ m.ord.order ≠ .ar) && (!m.clr || m.fe)
      && (!m.fe || (!m.rep && !m.sx && decide (m.ord.order ≠ .sc)))
      && (!m.rep || decide (m.ord.order = .none)) && (!m.sx || decide (m.sz.bytes < 8))
      && dataOk regs (8 * m.sz.bytes) true d && r.ok regs
  | .st _ sz o fe d r => o.plain && decide (o.order ≠ .acq ∧ o.order ≠ .ar) && (!fe || decide (o.order ≠ .sc))
      && dataOk regs (8 * sz.bytes) false d && r.ok regs
  | .ldx _ k o _ out d r => o.plain && decide (o.order = .none ∨ o.order = .acq)
      && decide (k.bytes * out.slot ≤ 128) && !(decide (64 < k.bytes * out.slot) && d.isS)
      && dataOk regs (k.bytes * out.slot) true d && r.ok regs
  | .lde _ k o f _ d r => o.plain && decide (o.order = .none ∨ o.order = .acq)
      && decide (k.bytes * f.slot ≤ 128) && !(decide (64 < k.bytes * f.slot) && d.isS)
      && dataOk regs (k.bytes * f.slot) true d && r.ok regs
  | .ste _ k o f d r => o.plain && decide (o.order = .none ∨ o.order = .rel)
      && decide (k.bytes * f.slot ≤ 128) && !(decide (64 < k.bytes * f.slot) && d.isS)
      && dataOk regs (k.bytes * f.slot) false d && r.ok regs
  | .pld _ _ _ r => r.ok regs
  | .atom _ _ _ op ps d a b c => d.dst regs false && a.src regs false && b.src regs false
      && (if op.hasSuccess then c.src regs false else decide (ps = 0 ∧ c = .x 0))
  | .red _ _ o op a b => decide (o.order = .none ∨ o.order = .rel)
      && decide (op ≠ .swap ∧ op ≠ .cas ∧ op ≠ .addb) && a.src regs false && b.src regs false
  | .fence _ o => decide (o.order ≠ .none)
  | .cwb _ _ _ r => r.ok regs
  | .cinv _ _ _ r => r.ok regs
  | .feset _ a n _ => a.src regs false && n.src regs false
  | .feclr _ a n _ => a.src regs false && n.src regs false
  | .feqry _ d a _ => d.dst regs false && a.src regs false
  | .sld _ o d r => o.plain && decide (o.order = .none ∨ o.order = .acq) && d.pair regs false && r.ok regs
  | .sldx _ o d r c => o.plain && decide (o.order = .none ∨ o.order = .acq) && d.pair regs false && r.ok regs
      && c.src regs false
  | .sst _ o _ d a b c => o.plain && decide (o.order = .none ∨ o.order = .rel) && d.dst regs false
      && a.src regs false && b.src regs false && c.src regs false
  | .srec _ o _ _ _ d a b c => o.plain && decide (o.order ≠ .sc) && d.dst regs false && a.src regs false
      && b.src regs false && (match c with | some r => r.src regs false | none => true)
  | .mma _ _ m a b c => mmaOk regs rows 1 m a b c
  | .mmab _ _ m gb a b c => mmaOk regs rows (2 ^ (gb.val + 1)) m a b c
  | .mzero _ a n => a.src regs false && decide (1 ≤ n.toNat ∧ n.toNat ≤ 2048)
  | .mrd _ _ d a _ => d.dst regs false && a.src regs false
  | .mwr _ _ a b _ => a.src regs false && b.src regs false
  | .msts _ a b => a.src regs false && b.src regs false
  | .mlds _ a b => a.src regs false && b.src regs false
  | .rcp _ z p d a => (!z || p) && d.dst regs false && a.src regs false
  | .rsq _ z p d a => (!z || p) && d.dst regs false && a.src regs false
  | .sqrt _ m d a => m.ok && d.dst regs false && a.src regs false
  | .div _ m d a b => m.ok && d.dst regs false && a.src regs false && b.src regs false
  | .exp2 _ z p d a => (!z || p) && d.dst regs false && a.src regs false
  | .log2 _ z p d a => (!z || p) && d.dst regs false && a.src regs false
  | .sin _ z p d a => (!z || p) && d.dst regs false && a.src regs false
  | .cos _ z p d a => (!z || p) && d.dst regs false && a.src regs false
  | .idiv _ _ _ d a b => d.dst regs false && a.src regs false && b.src regs false
  | .irem _ _ _ d a b => d.dst regs false && a.src regs false && b.src regs false
  | .barv _ b n => decide (b = 0 ↔ n = none) && (match n with | some v => v.ok regs true | none => true)
  | .barw _ b n => decide (b = 0 ↔ n = none) && (match n with | some v => v.ok regs true | none => true)
  | .kset _ _ n => n.ok regs true
  | .push _ _ n _ _ => decide (n.val + 7 < regs)
  | .spawn _ _ a b w => a.taskAddr regs && decide (1 ≤ w.val) && decide (b.val + w.val ≤ regs)
  | .csub _ _ a => a.taskAddr regs
  | .fres _ a b => a.taskAddr regs && b.src regs true
  | .freg _ a b => a.taskAddr regs && b.taskAddr regs
  | .fpoll _ d a => d.pair regs true && a.taskAddr regs
  | .ffail _ a b => a.taskAddr regs && b.src regs true
  | .regb n _ => decide (1 ≤ n.val ∧ n.val ≤ 16) && decide (8 * n.val ≤ regs)
  | .regq d => d.dst regs true
  | .csrr _ d n => d.dst regs true && decide (n.toNat ≤ 7)
  | .csrw _ a n => a.src regs true && decide (n.toNat ≤ 7)
  | .pchk _ _ a => a.src regs true
  | .tlbiVa _ a b => a.src regs true && b.src regs true
  | .tlbiFrame _ a b => a.src regs true && b.src regs true
  | .btinv _ a b => a.src regs true && b.src regs true
  | .qctlRd _ d a _ => d.dst regs true && a.src regs true
  | .qctlWr _ _ a b _ => a.src regs true && b.src regs true
  | _ => true

end Sys2Proof
end

