-- ==== Sys2Proof/Safety.lean ====
section
/-! DEFINITION. The terms that claims use: what a word leaves in the registers of its batch and what it leaves
alone, a batch of one fibre, the legal values of the package's own registers, and the exact arithmetic of the
rows R42 to R51 and R86 in terms of bit vectors. -/

namespace Sys2Proof.Machine

/-! ## Registers as a fibre sees them -/

/-- An operand of a 64-bit operation, read in a state by a fibre; an absent fibre or group reads as at reset. -/
def State.reg (s : State) (f : FibId) : Opnd → RegCell
  | .x n => match s.fib? f with | some b => NMap.get b.x n.val | none => default
  | .t n => match s.fib? f with | some b => NMap.get b.t n.val | none => default
  | .s n => match s.grp? f.team f.grp with | some g => NMap.get g.s n.val | none => default
  | .k n => ⟨const64 n.val, false⟩

/-- A register of the fibre's own. -/
def Opnd.own : Opnd → Bool
  | .x _ => true
  | .t _ => true
  | _ => false

/-- The last of some writes to a register. -/
def lastWrite (regs : List (Opnd × RegCell)) (o : Opnd) : Option RegCell := (regs.reverse.find? fun r => r.1 == o).map (·.2)

/-- A fibre without its x and t registers, and without when they were written. -/
def Fibre.bare (f : Fibre) : Fibre := { f with x := [], t := [], unproven := [] }
/-- A group without its s registers, who wrote them and when. -/
def Group.bare (g : Group) : Group := { g with s := [], marks := [], unproven := [] }
/-- A state without its fibres and groups, and without which fibres some word of a clause took effect for. -/
def State.bare (s : State) : State :=
  { s with fibres := [], groups := [], running := s.running.map fun r => { r with took := [] } }

/-- No write of this word or a later one to s register `n` of the fibre's group has been made by its execution (R29). -/
def View.firstWrite (v : View) (n : Nat) : Bool :=
  v.grp.marks.all fun m => !(m.reg == n && m.exec == v.fib.exec && m.hdr == v.run.hdr && decide (v.run.pos + 1 ≤ m.word))

/-- The fibre writes s register `n` of a group. -/
def writesS (E : View → Option WordRes) (n : Fin 64) (u : View) : Bool :=
  match E u with | some (.eff regs _ _) => (lastWrite regs (.s n)).isSome | _ => false

/-- What a word leaves, `E` being its effect on each fibre of the batch, none for a fibre it does not act on: the
registers, predicates and FP flags of `E`, or its trap, and nothing else. -/
structure Effects (s t : State) (E : View → Option WordRes) : Prop where
  /-- x and t registers: each fibre's own result, every other register as before. -/
  own : ∀ v ∈ s.views, ∀ regs ps fl, E v = some (.eff regs ps fl) → ∀ o, Opnd.own o = true →
    t.reg v.fib.fid o = (lastWrite regs o).getD (s.reg v.fib.fid o)
  /-- Predicates and FP flags, and nothing else of the fibre. -/
  fibre : ∀ v ∈ s.views, ∀ regs ps fl, E v = some (.eff regs ps fl) →
    (t.fib? v.fib.fid).map Fibre.bare
      = some { (ps.foldl (fun f p => f.setPred p.1 p.2) v.fib).bare with fflags := v.fib.fflags ||| fl }
  /-- A trapping fibre keeps everything but the trap that is noted for it. -/
  trapped : ∀ v ∈ s.views, ∀ code detail addr, E v = some (.trap code detail addr) →
    t.fib? v.fib.fid
      = some (v.fib.noteTrap ⟨code, v.run.pos + 1, detail, addr, v.run.hdr, v.run.next, false, none⟩)
  /-- Other fibres are unchanged. -/
  others : ∀ f, (∀ v ∈ s.views, (E v).isSome = true → v.fib.fid ≠ f) → t.fib? f = s.fib? f
  /-- s registers: of the fibres of one execution that write one, the lowest lane's value stays (R29). -/
  shared : ∀ v ∈ s.views, ∀ regs ps fl n c, E v = some (.eff regs ps fl) → lastWrite regs (.s n) = some c →
    v.firstWrite n.val = true →
    (∀ u ∈ s.views, writesS E n u = true → u.fib.fid.team = v.fib.fid.team → u.fib.fid.grp = v.fib.fid.grp →
      u.fib.exec = v.fib.exec ∧ v.fib.fid.lane ≤ u.fib.fid.lane) →
    t.reg v.fib.fid (.s n) = c
  /-- s registers that no fibre of the group writes keep their values. -/
  sharedKept : ∀ f n, (∀ v ∈ s.views, v.fib.fid.team = f.team → v.fib.fid.grp = f.grp → writesS E n v = false) →
    t.reg f (.s n) = s.reg f (.s n)
  groups : ∀ a b, (t.grp? a b).map Group.bare = (s.grp? a b).map Group.bare
  /-- Memory, teams, special registers and all else are unchanged. -/
  rest : t.bare = s.bare

/-- The instruction completes, and its next state is what `E` says. -/
def Does (i : Instr) (E : State → View → Option WordRes) : Prop := ∀ s, ∃ t, exec i s = .next t ∧ Effects s t (E s)

/-- The instruction acts on each guard-true fibre on its own. -/
def Each (i : Instr) (g : Guard) (e : View → WordRes) : Prop := Does i fun _ v => if v.guard g then some (e v) else none

/-- The active participants of a fibre's tile, in ascending lane order (R77). -/
def State.mates (s : State) (g : Guard) (v : View) : List View := (tileMates s.views v).filter (·.guard g)

/-- A tile-collective instruction (R77): each active fibre's effect follows from its tile's active fibres; every
participant of a group that holds several tile sizes traps 0x02. -/
def EachTile (i : Instr) (g : Guard) (e : List View → View → WordRes) : Prop :=
  Does i fun s v =>
    if tileUniform s.views v then (if v.guard g then some (e (s.mates g v) v) else none) else some v.operandTrap

/-- Some fibres updated, each by its view's change, and nothing else. -/
structure Sets (s t : State) (vs : List View) (up : View → Fibre → Fibre) : Prop where
  fibre : ∀ v ∈ vs, t.fib? v.fib.fid = (s.fib? v.fib.fid).map (up v)
  others : ∀ f, (∀ v ∈ vs, v.fib.fid ≠ f) → t.fib? f = s.fib? f
  rest : { t with fibres := [] } = { s with fibres := [] }

/-- The word takes effect for the fibre: it does not trap. -/
def WordRes.runs : WordRes → Bool
  | .eff _ _ _ => true
  | .trap _ _ _ => false

/-- The instruction writes a register that every fibre has: the guard-true fibres that `e` lets run are updated,
the others of them trap. -/
def WritesOwn (i : Instr) (g : Guard) (e : View → WordRes) (up : View → Fibre → Fibre) : Prop :=
  ∀ s, ∃ u t, exec i s = .next t ∧ Effects s u (fun v => if v.guard g then some (e v) else none)
    ∧ Sets u t (s.views.filter fun v => v.guard g && (e v).runs) up

/-- The instruction writes a register of the team: it ends holding one of the values written (R57, R310). -/
def WritesTeam (i : Instr) (g : Guard) (e : View → WordRes) (up : View → Team → Team) : Prop :=
  ∀ s, ∃ u t, exec i s = .next t ∧ Effects s u (fun v => if v.guard g then some (e v) else none)
    ∧ ((∀ v ∈ s.views, v.guard g = true → (e v).runs = false) → t = u)
    ∧ ((∃ v ∈ s.views, v.guard g = true ∧ (e v).runs = true) →
        ∃ v ∈ s.views, v.guard g = true ∧ (e v).runs = true ∧ t = u.modTeam v.team.id (up v))

/-- The instruction acts on the guard-true fibres of the batch one after another, in ascending order of group and
lane: each finds what the ones before it left. -/
def InTurn (i : Instr) (g : Guard) (f : State → View → State) : Prop :=
  ∀ s : State, exec i s = .next ((s.views.filter (·.guard g)).foldl f s)

/-- The instruction acts on the guard-true fibres of the batch one after another, in ascending order of group and lane:
`P` says of the state that a fibre's turn finds, and of the fibre as it stood before the word, what its turn leaves. -/
def Turns (i : Instr) (g : Guard) (P : State → View → State → Prop) : Prop :=
  ∃ f : State → View → State, InTurn i g f ∧ ∀ s v, P s v (f s v)

/-! ## Branches and issued operations -/

/-- Where a taken branch of the running clause sends a fibre when the clause ends. -/
def State.goesTo (s : State) (f : FibId) : Option Word :=
  match s.run? s.cur with | some r => (r.branch.find? fun b => b.1 == f).map (·.2) | none => none
/-- The fibre has executed `exit` in the running clause. -/
def State.exiting (s : State) (f : FibId) : Bool := match s.run? s.cur with | some r => r.exits.contains f | none => false
/-- A state without the branches and exits of its clauses, and without which fibres some word took effect for. -/
def State.unbranched (s : State) : State :=
  { s with running := s.running.map fun r => { r with branch := [], exits := [], took := [] } }

/-- Some fibres branch, and nothing else changes. -/
structure Goes (s t : State) (vs : List View) (dest : View → Word) : Prop where
  taken : ∀ v ∈ vs, t.goesTo v.fib.fid = some (dest v)
  kept : ∀ f, (∀ v ∈ vs, v.fib.fid ≠ f) → t.goesTo f = s.goesTo f
  exits : ∀ f, t.exiting f = s.exiting f
  rest : t.unbranched = s.unbranched

/-- A control word: of the guard-true fibres that no earlier word of the clause trapped (R384), those that `bad`
refuses trap, and each other one is updated and goes to its target when the clause ends (R13). -/
def Jumps (i : Instr) (g : Guard) (bad : View → Option WordRes) (dest : View → Word) (up : View → Fibre → Fibre) : Prop :=
  ∀ s, ∃ u w t, exec i s = .next t
    ∧ Effects s u (fun v => if v.guard g && !v.trapped then bad v else none)
    ∧ Sets u w (s.views.filter fun v => v.guard g && !v.trapped && (bad v).isNone) up
    ∧ Goes w t (s.views.filter fun v => v.guard g && !v.trapped && (bad v).isNone) dest

/-- What a word issues for a fibre: load-tracked or not, its order, the place and address, and what it will do. -/
structure Issue where
  isLoad : Bool
  ord : Ord
  loc : Loc
  addr : Word
  act : OpAct

/-- The operation issued for a fibre, numbered `n`: it counts on the clause's SETA or SETB flag (R16, R17). -/
def View.opOf (v : View) (n : Nat) (x : Issue) : MemOp :=
  { id := n, fib := v.fib.fid, part := v.team.part, core := v.team.core, run := v.run.id, word := v.run.pos + 1,
    exec := v.fib.exec, hdr := v.run.hdr, next := v.run.next, flag := if x.isLoad then v.run.seta else v.run.setb,
    isLoad := x.isLoad, ord := x.ord, loc := x.loc, addr := x.addr, act := x.act, sent := false, route := none, took := false,
    got := [], kept := [], served := [] }

/-- Operations issued for some fibres, in order, and nothing else: no register, predicate or byte changes yet. -/
structure Issues (s t : State) (l : List (View × Issue)) : Prop where
  pend : t.pend = s.pend ++ l.mapIdx fun k x => x.1.opOf (s.fresh + k) x.2
  fresh : t.fresh = s.fresh + l.length
  rest : { t with pend := [], fresh := 0 }.unbranched = { s with pend := [], fresh := 0 }.unbranched
  goes : (∀ f, t.goesTo f = s.goesTo f) ∧ (∀ f, t.exiting f = s.exiting f)

/-- A tracked word in a state: each guard-true fibre traps, issues one operation, or does neither. -/
def TracksAt (s : State) (i : Instr) (g : Guard) (bad : View → Option WordRes) (f : View → Option Issue) : Prop :=
  ∃ u t, exec i s = .next t
    ∧ Effects s u (fun v => if v.guard g then bad v else none)
    ∧ Issues u t ((s.views.filter fun v => v.guard g && (bad v).isNone).filterMap fun v => (f v).map fun x => (v, x))

/-- A tracked word that no fibre traps at: what it was planned to do is issued. -/
def Tracks (i : Instr) (g : Guard) (f : View → Option Issue) : Prop := ∀ s, TracksAt s i g (fun _ => none) f

/-- The operation of a planned access (R210). -/
def View.mem (v : View) (isLoad : Bool) (ord : Access → Ord) (act : Access → OpAct) : Option Issue :=
  v.planned.map fun a => ⟨isLoad, ord a, a.loc, a.addr, act a⟩

/-- The run of a clause about to start on a unit for one fibre, and the state its accesses are planned in. -/
def State.oneRun (s : State) (f : FibId) (t : Team) (pc : Word) (c : Clause) (pipe : Nat) (split : Bool) : ClauseRun × State :=
  let s := s.joinExec t f.grp pc c [f]
  (⟨s.fresh, t.id, t.core, pipe, pc, c.h.cls, c.words, 0, 15, 15, c.h.yield, [f], [], [], [], [], [], split⟩, s.newId.2)

/-! ## Memory as it is read -/

/-- The number in `n` bytes of one 8-byte word as its home L2 slice answers for it, and the word's poison. -/
def State.homeNat (s : State) (a n : Nat) : Nat × Bool :=
  let r := (s.homeRead (secBase a) (wordMask (a % 64) n)).1
  (r.nat (a % 64) n, r.pois (a % 64) n)

/-- The 8-byte word at an address as its home L2 slice answers for it. -/
def State.homeWord (s : State) (a : Nat) : RegCell := ⟨BitVec.ofNat 64 (s.homeNat a 8).1, (s.homeNat a 8).2⟩

/-- The same number as the cores of a pod see it through their L1. -/
def State.podNat (s : State) (pod a n : Nat) : Nat × Bool :=
  let r := (s.podRead pod (secBase a) (wordMask (a % 64) n)).1
  (r.nat (a % 64) n, r.pois (a % 64) n)

/-- The byte at an address as the cores of a pod see it through their L1, and its word's poison. -/
def State.sees (s : State) (pod a : Nat) : Byte × Bool :=
  let r := (s.podRead pod (secBase a) (wordMask (a % 64) 1)).1
  (BitVec.ofNat 8 (r.nat (a % 64) 1), r.pois (a % 64) 1)

/-- A byte of a team's scratchpad, and its word's poison. -/
def State.spadByte (s : State) (t a : Nat) : Byte × Bool :=
  match s.team? t with | some x => (x.spad.byte a, x.spad.pois a) | none => (0, false)

/-- The granule is full. -/
def State.isFull (s : State) (t g : Nat) : Bool := match s.team? t with | some x => x.full.contains g | none => false

/-- An outstanding operation may be performed, no registered range bars it, and its place is neither lost nor another
package's. -/
def State.performs (s : State) (n : Nat) (o : MemOp) : Prop :=
  s.op? n = some o ∧ s.mayPerform o = true ∧ s.barred o = false ∧ s.gone o = false ∧ s.away o = false

/-- A place in cacheable memory that the fibre's pod serves by its L1, outside an open region. -/
def State.plainPlace (s : State) (o : MemOp) (a : Nat) (x : PageAttr) : Prop :=
  o.loc = .mem a x ∧ x.tag = none ∧ x.sc = false ∧ x.bypass a = false ∧ s.isRemote a = false ∧ spaceOf a < 4
    ∧ s.regionOpen o.fib.team = false

/-- Fibres keep everything but their flags and waits. -/
def State.sameFibres (s t : State) : Prop :=
  ∀ f, (t.fib? f).map (fun b => { b with flags := [], hold := .free, waits := [], under := [] })
    = (s.fib? f).map fun b => { b with flags := [], hold := .free, waits := [], under := [] }

/-- R137: an atomic operation on `n` bits: the new value and its success. -/
def atomBits (op : AtomOp) (n : Nat) (x y z : BitVec n) : BitVec n × Bool :=
  match op with
  | .swap => (y, true)
  | .cas => if x = z then (y, true) else (x, false)
  | .add => (x + y, true)
  | .min => (if y.slt x then y else x, true)
  | .max => (if x.slt y then y else x, true)
  | .minu => (if y.ult x then y else x, true)
  | .maxu => (if x.ult y then y else x, true)
  | .and => (x &&& y, true)
  | .or => (x ||| y, true)
  | .xor => (x ^^^ y, true)
  | .incw => (if y.ule x then 0 else x + 1, true)
  | .decw => (if x = 0 ∨ y.ult x = true then y else x - 1, true)
  | .addb => if x.toNat + y.toNat ≤ z.toNat then (x + y, true) else (x, false)
  | .fadd => (BitVec.ofNat n ((fpFmt (n == 32)).add .rn false x.toNat y.toNat).1, true)
  | .fmin => (BitVec.ofNat n ((fpFmt (n == 32)).minMax false true false x.toNat y.toNat).1, true)
  | .fmax => (BitVec.ofNat n ((fpFmt (n == 32)).minMax true true false x.toNat y.toNat).1, true)

/-- The same on a number in memory and register operands, 64 bits when `wide`, else 32. -/
def atomNew (op : AtomOp) (wide : Bool) (old : Nat) (y z : Word) : Nat × Bool :=
  if wide then let r := atomBits op 64 (BitVec.ofNat 64 old) y z; (r.1.toNat, r.2)
  else let r := atomBits op 32 (BitVec.ofNat 32 old) (y.setWidth 32) (z.setWidth 32); (r.1.toNat, r.2)

/-- Some numbers folded into one by an atomic operation's lanes, each finding what the one before it left (R141). -/
def atomChain (op : AtomOp) (wide : Bool) (old : Nat) (l : List (Word × Word)) : Nat :=
  l.foldl (fun x y => (atomNew op wide x y.1 y.2).1) old

/-- The operands of an atomic or a reduction. -/
def OpAct.operands : OpAct → Word × Word
  | .atom _ _ _ _ b c => (b.v, c.v)
  | .red _ _ b => (b.v, 0)
  | _ => (0, 0)

/-- The clean operands of an FP reduction combined: two of them summed, any number of times, in any order (R141). -/
inductive Combined (wide : Bool) : List Word → List Word → Prop where
  | same (l : List Word) : Combined wide l l
  | swap (l m n : List Word) : Combined wide l m → List.Perm m n → Combined wide l n
  | sum (l : List Word) (x y : Word) (m : List Word) : Combined wide l (x :: y :: m) →
      Combined wide l (BitVec.ofNat 64 (atomNew .fadd wide x.toNat y 0).1 :: m)

/-! ## Queue control records (R286) -/

/-- Words 1 and 2 of a record that the limits allow: T1 and T2 each 0 or 100 to 10,000,000, T3 1,000 to 10,000,000, T1 at most
T2 where both are nonzero, T3 at least T2 + 1,000 where T2 is nonzero, and reserved bits 0. -/
def QueueTimes (w1 w2 : Word) : Prop :=
  let t1 := (w1.extractLsb' 0 32).toNat
  let t2 := (w1.extractLsb' 32 32).toNat
  let t3 := (w2.extractLsb' 0 32).toNat
  w2.extractLsb' 32 32 = 0 ∧ (t1 = 0 ∨ (100 ≤ t1 ∧ t1 ≤ 10000000)) ∧ (t2 = 0 ∨ (100 ≤ t2 ∧ t2 ≤ 10000000))
    ∧ 1000 ≤ t3 ∧ t3 ≤ 10000000 ∧ (t1 ≠ 0 → t2 ≠ 0 → t1 ≤ t2) ∧ (t2 ≠ 0 → t2 + 1000 ≤ t3)

/-- A write of word `w` of a queue's record that breaks no limit of the table. -/
def State.queueTakes (s : State) (part q : Nat) (w : BitVec 2) (x : Word) : Prop :=
  (w = 0 → x.extractLsb' 7 57 = 0 ∧ x.getLsbD 3 = false) ∧ (w = 1 → QueueTimes x (s.qWord part q 2))
    ∧ (w = 2 → QueueTimes (s.qWord part q 1) x)

/-! ## Engines -/

/-- A command an engine holds, in a phase, and not waiting. -/
def HeldCmd (s : State) (n : Nat) (c : Cmd) (code : List Nat) (p : CmdPhase) : Prop :=
  s.cmd? n = some c ∧ c.hold = .free ∧ c.phase = p ∧ code.contains (cmdCode c.c.words) = true

/-! ## Records of the journal -/

/-- A state without its slices' registers, its memory, and what a write on its way to memory goes through: the L2, its
guest copies, the controllers. -/
def State.unwritten (s : State) : State :=
  { s with
    parts := [], mem := ⟨[], []⟩, l2 := [], l2Sets := [], l2Used := [], guests := [], lost := [], fillWait := [], wrs := [],
    acts := [], heldBanks := [] }

/-- The state `t` is `u` with one record that no fibre caused written to a slice's journal: its words are in the mirror,
and nothing else but the places the record's bytes go through has changed. -/
structure Records (u t : State) (fn kind queue cause : Nat) (arg : Word) : Prop where
  tail : (t.part fn).jtail = (u.part fn).jtail + 1
  words : (u.part fn).jmirror % 8 = 0 → (u.part fn).jmirror + 32 * 2 ^ (u.part fn).jlog ≤ 2 ^ 52 → ∀ k, k < 4 →
    t.mem.word (2 * 2 ^ 52 + (u.part fn).jmirror + 32 * ((u.part fn).jtail % 2 ^ (u.part fn).jlog) + 8 * k)
      = [BitVec.ofNat 64 (u.part fn).jtail,
         BitVec.ofNat 64 (kind * 2 ^ 56 + queue * 2 ^ 48 + cause * 2 ^ 40 + 1023 * 2 ^ 30), BitVec.ofNat 64 u.clock, arg].getD k 0
  kept : { t.part fn with jtail := 0, jlost := 0, msiDue := [] } = { u.part fn with jtail := 0, jlost := 0, msiDue := [] }
  others : ∀ k, k ≠ fn → t.part k = u.part k
  rest : t.unwritten = u.unwritten

/-- A command of a configured function is counted, has its effect, and leaves a record with its number (R413). -/
def Takes (i : Instr) (s : State) (fn queue : Nat) (effect : State → State → Prop) : Prop :=
  ∃ u t : State, exec i s = .next t
    ∧ effect (s.modPart fn fun p => { p with nextCmd := p.nextCmd + 1 }) u
    ∧ Records u t fn 0x01 queue 0 (BitVec.ofNat 64 ((s.part fn).nextCmd % 2 ^ 32))

/-- A command is counted, changes nothing else, and leaves a record of its rejection (R413, R441). -/
def Rejects (i : Instr) (s : State) (fn queue reason : Nat) : Prop :=
  ∃ t : State, exec i s = .next t
    ∧ Records (s.modPart fn fun p => { p with nextCmd := p.nextCmd + 1 }) t fn 0x02 queue 0
        (BitVec.ofNat 64 ((s.part fn).nextCmd % 2 ^ 32 + reason * 2 ^ 32))

/-! ## The package's own registers -/

/-- Legal values: the partition mode (R9, R422), the package ids (R430) and FWSTAT (R434). -/
def State.legal (s : State) : Bool :=
  (s.mode == 1 || s.mode == 2 || s.mode == 4 || s.mode == 8) && decide (s.pkg < 1024) && decide (s.pkgNext < 1024)
    && decide (s.fwstat ≤ 7) && s.fwJob.all fun k => decide (k ≤ 7)

/-! ## Forms that every step keeps -/

/-- p7 is true (R103), `tcause`'s bits 63:36 and 19:8 are 0 (R311), and the registers are listed canonically. -/
def Fibre.formed (f : Fibre) : Bool :=
  f.preds.getLsbD 7 && f.tcause.extractLsb' 36 28 == 0 && f.tcause.extractLsb' 8 12 == 0 && NMap.wf f.x && NMap.wf f.t

/-- A checkpoint's fibres and groups have their forms. -/
def Ckpt.formed (k : Ckpt) : Bool := k.fibres.all Fibre.formed && k.groups.all fun g => NMap.wf g.s

/-- Scratchpad, accumulator pairs and granules in canonical form, and a checkpoint in its form. -/
def Team.formed (t : Team) : Bool :=
  t.spad.wf && NMap.wf t.acc && setWfFrom none t.accPois && setWfFrom none t.full
    && match t.ckpt with | some k => k.formed | none => true

/-- Every fibre, group and team has its form. -/
def State.formed (s : State) : Bool :=
  s.fibres.all Fibre.formed && s.groups.all (fun g => NMap.wf g.s) && s.teams.all Team.formed

/-! ## Exact arithmetic by widths (R42) -/

/-- The low 32 bits. -/
def lo32 (x : Word) : W32 := x.setWidth 32

/-- A 32-bit result in a 64-bit register: zero-extended with U, else sign-extended. -/
def ext32 (u : Bool) (r : W32) : Word := if u then r.setWidth 64 else r.signExtend 64

/-- An operation of one width on one, two or three operands: on the low 32 bits with W. -/
def by1 (u w : Bool) (f : (n : Nat) → BitVec n → BitVec n) (a : Word) : Word :=
  if w then ext32 u (f 32 (lo32 a)) else f 64 a
def by2 (u w : Bool) (f : (n : Nat) → BitVec n → BitVec n → BitVec n) (a b : Word) : Word :=
  if w then ext32 u (f 32 (lo32 a) (lo32 b)) else f 64 a b
def by3 (u w : Bool) (f : (n : Nat) → BitVec n → BitVec n → BitVec n → BitVec n) (a b c : Word) : Word :=
  if w then ext32 u (f 32 (lo32 a) (lo32 b) (lo32 c)) else f 64 a b c

/-- The number a bit vector stands for. -/
def numOf (u : Bool) {n : Nat} (x : BitVec n) : Int := if u then (x.toNat : Int) else x.toInt

/-- The nearest number that `n` bits hold. -/
def clampBits (u : Bool) (n : Nat) (r : Int) : BitVec n :=
  if u then BitVec.ofInt n (max 0 (min (2 ^ n - 1) r)) else BitVec.ofInt n (max (-(2 ^ (n - 1))) (min (2 ^ (n - 1) - 1) r))

def addBits (sat u : Bool) (n : Nat) (x y : BitVec n) : BitVec n := if sat then clampBits u n (numOf u x + numOf u y) else x + y
def subBits (sat u : Bool) (n : Nat) (x y : BitVec n) : BitVec n := if sat then clampBits u n (numOf u x - numOf u y) else x - y
def mulBits (sat u : Bool) (n : Nat) (x y : BitVec n) : BitVec n := if sat then clampBits u n (numOf u x * numOf u y) else x * y
def madBits (sat u : Bool) (n : Nat) (x y z : BitVec n) : BitVec n :=
  if sat then clampBits u n (numOf u x * numOf u y + numOf u z) else x * y + z
/-- The high half of the product of twice the width. -/
def mulHigh (u : Bool) (n : Nat) (x y : BitVec n) : BitVec n :=
  if u then (x.setWidth (2 * n) * y.setWidth (2 * n)).extractLsb' n n
  else (x.signExtend (2 * n) * y.signExtend (2 * n)).extractLsb' n n
def lessBits (u : Bool) (n : Nat) (x y : BitVec n) : Bool := if u then x.ult y else x.slt y
def minBits (u : Bool) (n : Nat) (x y : BitVec n) : BitVec n := if lessBits u n y x then y else x
def maxBits (u : Bool) (n : Nat) (x y : BitVec n) : BitVec n := if lessBits u n x y then y else x
def absBits (sat : Bool) (n : Nat) (x : BitVec n) : BitVec n :=
  if !x.msb then x else if sat && x == BitVec.intMin n then BitVec.intMax n else -x

/-- The shift counts of R44: bits beyond the width leave nothing, or the sign. -/
def shlBits (n : Nat) (x y : BitVec n) : BitVec n := if n ≤ y.toNat then 0 else x <<< y.toNat
def shrBits (n : Nat) (x y : BitVec n) : BitVec n := if n ≤ y.toNat then 0 else x >>> y.toNat
def sarBits (n : Nat) (x y : BitVec n) : BitVec n := x.sshiftRight (min y.toNat (n - 1))
def rotBits (n : Nat) (x y : BitVec n) : BitVec n := x.rotateLeft (y.toNat % n)
/-- The high half of a:b shifted left (R45). -/
def funnel (n : Nat) (x y z : BitVec n) : BitVec n := ((x ++ y) <<< (z.toNat % n)).extractLsb' n n

/-- Field `pos`, `len` of a word (R46). -/
def fieldBits (u : Bool) (pos len n : Nat) (x : BitVec n) : BitVec n :=
  let f := (x >>> pos).setWidth len
  if u then f.setWidth n else f.signExtend n
def insertBits (pos len n : Nat) (x y : BitVec n) : BitVec n :=
  let m := (BitVec.allOnes len).setWidth n
  (x &&& ~~~(m <<< pos)) ||| ((y &&& m) <<< pos)

def onesBits (n : Nat) (x : BitVec n) : BitVec n := BitVec.ofNat n ((List.range n).countP fun i => x.getLsbD i)
/-- The zeros above the highest one. -/
def leadBits (n : Nat) (x : BitVec n) : BitVec n :=
  BitVec.ofNat n (((List.range n).find? fun i => x.getLsbD (n - 1 - i)).getD n)
/-- The zeros below the lowest one. -/
def trailBits (n : Nat) (x : BitVec n) : BitVec n :=
  BitVec.ofNat n (((List.range n).find? fun i => x.getLsbD i).getD n)
def reverseOf (n : Nat) (x : BitVec n) : BitVec n := x.reverse

/-- A number of `n / l` lanes of `l` bits, lane 0 lowest. -/
def fromLanes (l n : Nat) (f : Nat → BitVec l) : BitVec n :=
  BitVec.ofNat n ((List.range (n / l)).foldr (fun i acc => (f i).toNat * 2 ^ (l * i) + acc) 0)
/-- Lane `i` of `l` bits. -/
def laneAt (l : Nat) {n : Nat} (x : BitVec n) (i : Nat) : BitVec l := x.extractLsb' (l * i) l

/-- R48. -/
def permBytes (n : Nat) (x y : BitVec n) : BitVec n :=
  fromLanes 8 n fun i => if (laneAt 8 y i).msb then 0 else laneAt 8 x ((laneAt 8 y i).toNat % (n / 8))
/-- R49: the table is 16 bytes, byte 0 lowest. -/
def lookNibbles (hi : Bool) (table : BitVec 128) (n : Nat) (x : BitVec n) : BitVec n :=
  fromLanes 8 n fun i =>
    let b := laneAt 8 x i
    laneAt 8 table (if hi then b.extractLsb' 4 4 else b.extractLsb' 0 4).toNat

/-- A lane operation of R51. -/
def laneWise (l16 : Bool) (f : (l : Nat) → BitVec l → BitVec l → BitVec l) (n : Nat) (x y : BitVec n) : BitVec n :=
  let l := if l16 then 16 else 8
  fromLanes l n fun i => f l (laneAt l x i) (laneAt l y i)
def lessCond (c : Cond) (u : Bool) (n : Nat) (x y : BitVec n) : Bool :=
  match c with
  | .eq => x == y | .ne => x != y | .lt => lessBits u n x y | .le => !lessBits u n y x | .gt => lessBits u n y x
  | .ge => !lessBits u n x y
/-- The top bits of the lanes. -/
def topBits (l16 : Bool) (n : Nat) (x : BitVec n) : BitVec n :=
  fromLanes 1 n fun i =>
    let l := if l16 then 16 else 8
    if i < n / l then BitVec.ofBool (laneAt l x i).msb else 0

/-- R56. -/
def signFrom (x y : Word) : Word := if y.toNat = 0 ∨ 64 ≤ y.toNat then x else (x.setWidth y.toNat).signExtend 64
def zeroFrom (x y : Word) : Word := if y.toNat = 0 ∨ 64 ≤ y.toNat then x else (x.setWidth y.toNat).setWidth 64

/-- R86. -/
def quotBits (u : Bool) (n : Nat) (x y : BitVec n) : BitVec n :=
  if y = 0 then BitVec.allOnes n else if u then x.udiv y else x.sdiv y
def remBits (u : Bool) (n : Nat) (x y : BitVec n) : BitVec n :=
  if y = 0 then x else if u then x.umod y else x.srem y

/-- The number m × 2 to e of a sign, in units of 2 to −2000. -/
def scaledNum (s : Bool) (m : Nat) (e : Int) : Int := (if s then -(m : Int) else m) * 2 ^ (e + 2000).toNat

/-! ## Exact values and one rounding (R62 to R66, R71) -/

/-- The number that a value is; 0 for what is none. -/
def FVal.rat : FVal → ℚ
  | .fin s m e => signed s m * 2 ^ e
  | _ => 0

/-- The numbers with at most `fb + 1` significant bits, none below 2 to `lo`, or without that limit. -/
def FFmt.grid (f : FFmt) (lo : Option ℤ) (y : ℝ) : Prop :=
  ∃ k j : ℤ, k.natAbs ≤ 2 ^ (f.fb + 1) ∧ (∀ l, lo = some l → l ≤ j) ∧ y = k * 2 ^ j

/-- `y` is what an attribute rounds `q` to among some numbers (R63). Of two at one distance the even multiple of what
lies between them is the even one. -/
def RoundTo (G : ℝ → Prop) (rm : Rm) (q y : ℝ) : Prop :=
  G y ∧ match rm with
    | .rn => ∀ z, G z → |q - y| ≤ |q - z| ∧ (|q - y| = |q - z| → z ≠ y → ∃ k : ℤ, y = 2 * k * |y - z|)
    | .rna => ∀ z, G z → |q - y| ≤ |q - z| ∧ (|q - y| = |q - z| → |z| ≤ |y|)
    | .rz => 0 ≤ y * q ∧ |y| ≤ |q| ∧ ∀ z, G z → |z| ≤ |q| → |z| ≤ |y|
    | .ru => q ≤ y ∧ ∀ z, G z → q ≤ z → y ≤ z
    | .rd => y ≤ q ∧ ∀ z, G z → z ≤ q → z ≤ y
    | .rdyn => False

/-- The largest finite magnitude of a format with infinities. -/
def FFmt.most (f : FFmt) : ℚ := (2 ^ (f.fb + 1) - 1) * 2 ^ ((f.bias : ℤ) - f.fb)

/-- The pattern holds the number `y`, with a sign. -/
def FFmt.holds (f : FFmt) (s : Bool) (y : ℝ) (r : Nat) : Prop :=
  r < 2 ^ f.width ∧ ∃ m e, f.val false r = .fin s m e ∧ ((FVal.fin s m e).rat : ℝ) = y

/-- The pattern and flags of the exact value `q` rounded once (R62 to R66): overflow as IEEE 754 has it, underflow judged
after rounding and raised when inexact, and with `ftz` a subnormal result flushed. An exact zero takes the sign `zs`. -/
def FFmt.Rounds (f : FFmt) (rm : Rm) (ftz zs : Bool) (q : ℝ) (r : Nat × FFlags) : Prop :=
  (q = 0 → r = (f.zero zs, 0))
  ∧ (q ≠ 0 → ∃ y u : ℝ, RoundTo (f.grid (some (f.emin - f.fb))) rm q y ∧ RoundTo (f.grid none) rm q u ∧
      let s : Bool := decide (q < 0)
      (f.most < |y| → r.2 = ofFlag ||| nxFlag
        ∧ r.1 = if rm = .rz ∨ (rm = .ru ∧ s = true) ∨ (rm = .rd ∧ s = false) then f.pack s (2 ^ f.eb - 2) (2 ^ f.fb - 1)
            else f.inf s)
      ∧ (|y| ≤ f.most → ftz = true → y ≠ 0 → |y| < 2 ^ f.emin → r = (f.zero s, ufFlag ||| nxFlag))
      ∧ (|y| ≤ f.most → ¬ (ftz = true ∧ y ≠ 0 ∧ |y| < 2 ^ f.emin) → f.holds s y r.1
          ∧ (r.2 &&& nxFlag ≠ 0 ↔ y ≠ q) ∧ (r.2 &&& ufFlag ≠ 0 ↔ y ≠ q ∧ |u| < 2 ^ f.emin)
          ∧ r.2 &&& (nvFlag ||| dzFlag ||| ofFlag) = 0))

/-! ## Patterns (R64, R66, R68 to R70, R72) -/

/-- The bits below the sign. -/
def FFmt.mag (f : FFmt) (x : Nat) : Nat := x % 2 ^ (f.eb + f.fb)
/-- The sign bit. -/
def FFmt.neg (f : FFmt) (x : Nat) : Bool := x.testBit (f.eb + f.fb)
/-- The magnitude's bits of an infinity. -/
def FFmt.infMag (f : FFmt) : Nat := 2 ^ (f.eb + f.fb) - 2 ^ f.fb
/-- A NaN, and a signalling one. -/
def FFmt.isNan (f : FFmt) (x : Nat) : Bool := decide (f.infMag < f.mag x)
def FFmt.isSig (f : FFmt) (x : Nat) : Bool := f.isNan x && !x.testBit (f.fb - 1)
/-- NV for a signalling operand. -/
def FFmt.sigs (f : FFmt) (xs : List Nat) : FFlags := if xs.any f.isSig then nvFlag else 0
/-- A pattern as Z reads it: a subnormal is the zero of its sign. -/
def FFmt.read (f : FFmt) (ftz : Bool) (x : Nat) : Nat :=
  if ftz && decide (f.mag x < 2 ^ f.fb) then x - f.mag x else x
/-- The place of a pattern that is no NaN among all, −0 with +0. -/
def FFmt.place (f : FFmt) (x : Nat) : ℤ := if f.neg x then -(f.mag x : ℤ) else f.mag x
/-- The same with −0 just below +0. -/
def FFmt.placeZ (f : FFmt) (x : Nat) : ℤ := if f.neg x then -(f.mag x : ℤ) - 1 else f.mag x

/-- R64: with a NaN among the operands the result is the first, its top significand bit set, and a signalling one raises
NV; otherwise `p` holds. -/
def FFmt.NanElse (f : FFmt) (xs : List Nat) (more : FFlags) (r : Nat × FFlags) (p : Prop) : Prop :=
  match xs.find? f.isNan with
  | some x => r = (x ||| 2 ^ (f.fb - 1), f.sigs xs ||| more)
  | none => p

/-- a + b, once rounded (R67). -/
def FFmt.Sum (f : FFmt) (rm : Rm) (ftz : Bool) (a b : FVal) (r : Nat × FFlags) : Prop :=
  match a, b with
  | .inf s, .inf t => r = if s = t then (f.inf s, 0) else (f.nan, nvFlag)
  | .inf s, .fin _ _ _ => r = (f.inf s, 0)
  | .fin _ _ _, .inf t => r = (f.inf t, 0)
  | .fin s m _, .fin t n _ =>
    f.Rounds rm ftz (if m = 0 ∧ n = 0 ∧ s = t then s else decide (rm = .rd)) ((a.rat + b.rat : ℚ) : ℝ) r
  | _, _ => False

/-- a × b + c, once rounded (R67). -/
def FFmt.MulAdd (f : FFmt) (rm : Rm) (ftz : Bool) (a b c : FVal) (r : Nat × FFlags) : Prop :=
  let s := a.sign != b.sign
  if (a.isInf && b.isZero) || (a.isZero && b.isInf) then r = (f.nan, nvFlag)
  else if a.isInf || b.isInf then r = if c = .inf (!s) then (f.nan, nvFlag) else (f.inf s, 0)
  else match c with
    | .inf t => r = (f.inf t, 0)
    | _ => f.Rounds rm ftz (if (a.isZero || b.isZero) && c.isZero && s == c.sign then s else decide (rm = .rd))
        ((a.rat * b.rat + c.rat : ℚ) : ℝ) r

/-- a × b, once rounded (R67). -/
def FFmt.Product (f : FFmt) (rm : Rm) (ftz : Bool) (a b : FVal) (r : Nat × FFlags) : Prop :=
  let s := a.sign != b.sign
  if (a.isInf && b.isZero) || (a.isZero && b.isInf) then r = (f.nan, nvFlag)
  else if a.isInf || b.isInf then r = (f.inf s, 0)
  else f.Rounds rm ftz s ((a.rat * b.rat : ℚ) : ℝ) r

/-- a ÷ b, once rounded (R84). -/
def FFmt.Quotient (f : FFmt) (rm : Rm) (ftz : Bool) (a b : FVal) (r : Nat × FFlags) : Prop :=
  let s := a.sign != b.sign
  if (a.isInf && b.isInf) || (a.isZero && b.isZero) then r = (f.nan, nvFlag)
  else if a.isInf then r = (f.inf s, 0)
  else if b.isInf then r = (f.zero s, 0)
  else if b.isZero then r = (f.inf s, dzFlag)
  else f.Rounds rm ftz s ((a.rat / b.rat : ℚ) : ℝ) r

/-- √a, once rounded (R84). -/
def FFmt.Root (f : FFmt) (rm : Rm) (ftz : Bool) (a : FVal) (r : Nat × FFlags) : Prop :=
  if a.isZero then r = (f.zero a.sign, 0)
  else if a.sign then r = (f.nan, nvFlag)
  else if a.isInf then r = (f.inf false, 0)
  else f.Rounds rm ftz false (Real.sqrt a.rat) r

/-- A value of one format narrowed or widened to another, once rounded; of a NaN the sign and the payload's top bits stay
(R72). -/
def FFmt.Converts (src dst : FFmt) (rm : Rm) (ftzIn ftzOut : Bool) (x : Nat) (r : Nat × FFlags) : Prop :=
  match src.val ftzIn x with
  | .nan _ s _ =>
    r = (dst.pack s (2 ^ dst.eb - 1) (2 ^ (dst.fb - 1)
        + if src.fb ≤ dst.fb then x % 2 ^ (src.fb - 1) * 2 ^ (dst.fb - src.fb) else x % 2 ^ (src.fb - 1) / 2 ^ (src.fb - dst.fb)),
      src.sigs [x])
  | .inf s => r = (dst.inf s, 0)
  | .fin s m e => dst.Rounds rm ftzOut s (((FVal.fin s m e).rat : ℚ) : ℝ) r

/-- An FP value rounded to an integer between two limits (R72): beyond them, or of a NaN, NV and the limit, or 0. -/
def FFmt.ToInt (f : FFmt) (rm : Rm) (ftz : Bool) (lo hi : ℤ) (x : Nat) (r : ℤ × FFlags) : Prop :=
  match f.val ftz x with
  | .nan _ _ _ => r = (0, nvFlag)
  | .inf s => r = (if s then lo else hi, nvFlag)
  | .fin s m e =>
    let q : ℝ := (((FVal.fin s m e).rat : ℚ) : ℝ)
    ∃ y : ℤ, RoundTo (fun z => ∃ k : ℤ, z = k) rm q y
      ∧ r = if y < lo then (lo, nvFlag) else if hi < y then (hi, nvFlag) else (y, if (y : ℚ) = (FVal.fin s m e).rat then 0 else nxFlag)

/-- An approximation's result within `k` units in the last place of q, to 2^−60 of one; the unit is that of q, or of a
number that differs from q by at most `δ` of it. -/
def FFmt.Within (f : FFmt) (k : Nat) (δ q : ℝ) (r : Nat) : Prop :=
  ∃ m e s, f.val false r = .fin s m e ∧ ∃ t : ℤ, (2 : ℝ) ^ t ≤ |q| * (1 + δ) ∧ |q| < 2 ^ (t + 1)
    ∧ |(((FVal.fin s m e).rat : ℚ) : ℝ) - q| ≤ (k + 2 ^ (-60 : ℤ)) * 2 ^ (max t f.emin - f.fb)

/-- Partial sums of some patterns from the first one, by an adder, with the flags of every step (R81). -/
def partialSum (add : Nat → Nat → Nat × FFlags) : List Nat → Nat × FFlags
  | [] => (0, 0)
  | x :: xs => xs.foldl (fun r y => let z := add r.1 y; (z.1, r.2 ||| z.2)) (x, 0)

/-- The lane operations that are no FP sums (R81), and the value each starts from. -/
def laneOpBits (op : LaneOp) (u : Bool) (n : Nat) (x y : BitVec n) : BitVec n :=
  match op with
  | .add => x + y
  | .min => minBits u n x y
  | .max => maxBits u n x y
  | .and => x &&& y
  | .or => x ||| y
  | .xor => x ^^^ y
  | .fadd => x
def laneUnit (op : LaneOp) (u : Bool) (n : Nat) : BitVec n :=
  match op with
  | .min => if u then BitVec.allOnes n else BitVec.intMax n
  | .max => if u then 0 else BitVec.intMin n
  | .and => BitVec.allOnes n
  | _ => 0

/-- Some cells combined, from the value the operation starts from (R81). -/
def laneFold (op : LaneOp) (u w : Bool) (l : List RegCell) : RegCell :=
  ⟨l.foldl (fun x c => by2 u w (laneOpBits op u) x c.v) (by1 u w (fun n _ => laneUnit op u n) 0), l.any (·.p)⟩

/-! ## Elements (R224 to R228) -/

/-- Exponent bits, fraction bits and bias of a format with exponent bits (R224). -/
def EFmt.fields : EFmt → Option (Nat × Nat × Nat)
  | .fp64 => some (11, 52, 1023) | .fp32 => some (8, 23, 127) | .bf16 => some (8, 7, 127) | .fp16 => some (5, 10, 15)
  | .e4m3 => some (4, 3, 7) | .e5m2 => some (5, 2, 15) | .e3m2 => some (3, 2, 3) | .e2m3 => some (2, 3, 1)
  | .e2m1 => some (2, 1, 1) | .int8 => none | .int4 => none | .cb2 => none

/-- The key of a codebook vector, its magnitudes given doubled (R227). -/
def cbKey (v : List Nat) : List Nat := (v.map (· ^ 2)).sum :: v
/-- Eight magnitudes of the codebook, doubled. -/
def cbVector (v : List Nat) : Prop := v.length = 8 ∧ ∀ x ∈ v, x = 1 ∨ x = 3 ∨ x = 5 ∨ x = 7
/-- The codebook (R227): the first 256 vectors by key. -/
def IsCodebook (T : List (List Nat)) : Prop :=
  T.length = 256 ∧ T.Pairwise (fun a b => cbKey a < cbKey b) ∧ (∀ v ∈ T, cbVector v)
    ∧ ∀ v, cbVector v → v ∉ T → ∀ w ∈ T, cbKey w < cbKey v

/-- What an element's bits stand for (R224); of a CB2 index, its weight `i` (R228). -/
def EFmt.Is (f : EFmt) (raw i : Nat) (v : FVal) : Prop :=
  match EFmt.fields f with
  | some (eb, mb, bias) =>
    let s : Bool := raw / 2 ^ (eb + mb) % 2 == 1
    let E := raw / 2 ^ mb % 2 ^ eb
    let M := raw % 2 ^ mb
    if E = 2 ^ eb - 1 ∧ M = 0 ∧ (f = .fp64 ∨ f = .fp32 ∨ f = .bf16 ∨ f = .fp16 ∨ f = .e5m2) then v = .inf s
    else if E = 2 ^ eb - 1 ∧ (f = .fp64 ∨ f = .fp32 ∨ f = .bf16 ∨ f = .fp16 ∨ f = .e5m2 ∨ (f = .e4m3 ∧ M = 7)) then
      v.isNan = true
    else ∃ m e, v = .fin s m e ∧ v.rat = (if s then -1 else 1)
      * if E = 0 then (M : ℚ) / 2 ^ mb * 2 ^ ((1 : ℤ) - bias) else (1 + (M : ℚ) / 2 ^ mb) * 2 ^ ((E : ℤ) - bias)
  | none =>
    if f = .cb2 then ∃ T, IsCodebook T
      ∧ let ones := (List.range 7).countP fun j => raw.testBit (j + 1)
        v = .fin (if i < 7 then raw.testBit (i + 1) else decide (ones % 2 = 1) != raw.testBit 0)
          ((T.getD (raw / 256 % 256) []).getD i 1) (-1)
    else ∃ s m e, v = .fin s m e ∧ v.rat = (BitVec.ofNat (EFmt.bits f) raw).toInt ∧ (s = true → v.rat < 0)

/-- A value times 2 to a scale byte (R226). -/
def FVal.scaled (v : FVal) (b : BitVec 8) : FVal :=
  if b.toInt = -128 then .fin false 0 0 else match v with | .fin s m e => .fin s m (e + b.toInt) | x => x

/-- An element's bits read out of memory as a pod sees them, and the poison of their word. -/
def State.seesElem (s : State) (pod bit : Nat) (f : EFmt) : Nat × Bool :=
  (leNat ((List.range ((bit % 8 + EFmt.bits f + 7) / 8)).map fun i => (s.sees pod (bit / 8 + i)).1) / 2 ^ (bit % 8) % 2 ^ EFmt.bits f,
    (s.sees pod (bit / 8)).2)

/-- R231: a value delivered in an output format: the default NaN, or the value rounded to nearest even. -/
def FFmt.Delivers (f : FFmt) (v : FVal) (r : Nat) : Prop :=
  match v with
  | .nan _ _ _ => r = f.nan
  | .inf s => r = f.inf s
  | .fin s _ _ => ∃ fl, f.Rounds .rn false s ((v.rat : ℚ) : ℝ) (r, fl)

/-! ## Conversion (R169) -/

/-- The largest finite magnitude (R224). -/
def EFmt.most : EFmt → ℚ
  | .fp64 => (2 - 1 / 2 ^ 52) * 2 ^ 1023 | .fp32 => (2 - 1 / 2 ^ 23) * 2 ^ 127 | .bf16 => (2 - 1 / 2 ^ 7) * 2 ^ 127
  | .fp16 => 65504 | .e4m3 => 448 | .e5m2 => 57344 | .e3m2 => 28 | .e2m3 => 15 / 2 | .e2m1 => 6 | .int8 => 127 | .int4 => 7
  | .cb2 => 5 / 2

/-- The default NaN of a format that has one (R224). -/
def EFmt.quiet : EFmt → Option Nat
  | .fp64 => some 0x7FF8000000000000 | .fp32 => some 0x7FC00000 | .bf16 => some 0x7FC0 | .fp16 => some 0x7E00
  | .e4m3 => some 0x7F | .e5m2 => some 0x7E | _ => none

/-- The numbers that a format rounds to, without an upper limit. -/
def EFmt.grid (f : EFmt) (y : ℝ) : Prop :=
  match EFmt.fields f with
  | some (_, mb, bias) => ∃ k j : ℤ, k.natAbs ≤ 2 ^ (mb + 1) ∧ (1 : ℤ) - bias - mb ≤ j ∧ y = k * 2 ^ j
  | none => ∃ k : ℤ, y = k

/-- The limit of the range on one side. -/
def EFmt.limit (f : EFmt) (neg : Bool) : ℚ := if neg && (EFmt.fields f).isNone then EFmt.most f + 1 else EFmt.most f

/-- The magnitude of a value that a block's shift `n` brings within the format; of a NaN nothing is asked (R169). -/
def EFmt.fits (f : EFmt) (n : ℤ) (v : FVal) : Prop :=
  match v with
  | .fin _ _ _ => |v.rat| * 2 ^ (-n) ≤ EFmt.most f
  | .inf _ => False
  | .nan _ _ _ => True

/-- Step 2 of R169: a block's shift. -/
def EFmt.Shift (f : EFmt) (vs : List FVal) (n : ℤ) : Prop :=
  let zero := ∀ v ∈ vs, v.isZero = true
  (zero → n = -128)
  ∧ (¬ zero → (∀ k, -127 ≤ k → k ≤ 127 → ¬ ∀ v ∈ vs, EFmt.fits f k v) → n = 127)
  ∧ (¬ zero → (∃ k, -127 ≤ k ∧ k ≤ 127 ∧ ∀ v ∈ vs, EFmt.fits f k v) →
      -127 ≤ n ∧ n ≤ 127 ∧ (∀ v ∈ vs, EFmt.fits f n v) ∧ ∀ k, -127 ≤ k → (∀ v ∈ vs, EFmt.fits f k v) → n ≤ k)

/-- Steps 3 to 5 of R169: what a value, shifted, becomes. -/
def EFmt.Takes (f : EFmt) (v : FVal) (o : Converted) : Prop :=
  match v with
  | .nan _ _ _ => o.sat = false ∧ match EFmt.quiet f with | some b => o.bits = b ∧ o.nan = false | none => o.bits = 0 ∧ o.nan = true
  | .inf s => o.sat = false ∧ o.nan = false ∧
      if f = .fp64 ∨ f = .fp32 ∨ f = .bf16 ∨ f = .fp16 ∨ f = .e5m2 then EFmt.Is f o.bits 0 (.inf s)
      else ∃ m e, EFmt.Is f o.bits 0 (.fin s m e) ∧ |(FVal.fin s m e).rat| = EFmt.limit f s
  | .fin s _ _ => o.nan = false ∧ ∃ y : ℝ, RoundTo (EFmt.grid f) .rn ((v.rat : ℚ) : ℝ) y ∧
      if |y| ≤ EFmt.limit f s then
        o.sat = false ∧ ∃ t m e, EFmt.Is f o.bits 0 (.fin t m e) ∧ (((FVal.fin t m e).rat : ℚ) : ℝ) = y
          ∧ ((EFmt.fields f).isSome = true → t = s)
      else o.sat = true ∧ ∃ m e, EFmt.Is f o.bits 0 (.fin s m e) ∧ |(FVal.fin s m e).rat| = EFmt.limit f s

/-! ## Matrix operations (R246 to R255) -/

/-- R246: m, n, k and the bytes of a column of B. -/
def EFmt.shape : EFmt → Nat × Nat × Nat × Nat
  | .fp64 => (16, 16, 16, 128)
  | .bf16 => (32, 32, 32, 64) | .fp16 => (32, 32, 32, 64)
  | .e4m3 => (32, 32, 64, 64) | .e5m2 => (32, 32, 64, 64) | .int8 => (32, 32, 64, 64)
  | .e3m2 => (32, 32, 80, 64) | .e2m3 => (32, 32, 80, 64)
  | .e2m1 => (32, 32, 128, 64) | .int4 => (32, 32, 128, 64)
  | .cb2 => (32, 32, 128, 32)
  | .fp32 => (32, 32, 0, 64)

/-- R247: the lane (mod 32) that supplies column `j` of row `i` of A, which of its registers holds it, and at which bit. -/
def EFmt.spot (f : EFmt) (i j : Nat) : Nat × Nat × Nat :=
  if f = .fp64 then (2 * i + j / 8, j % 8, 0)
  else if EFmt.bits f = 16 then (i, j / 4, 16 * (j % 4))
  else if EFmt.bits f = 8 then (i, j / 8, 8 * (j % 8))
  else if EFmt.bits f = 6 then (i, j / 10, 6 * (j % 10))
  else (i, j / 16, 4 * (j % 16))

/-- R225, R248: the bit at which element `i` lies among packed ones; of CB2, the bit of the weight's index. -/
def EFmt.packed (f : EFmt) (i : Nat) : Nat :=
  if f = .cb2 then 16 * (i / 8) else if EFmt.bits f = 6 then 32 * (i / 5) + 6 * (i % 5) else EFmt.bits f * i

/-- R247: of the signers whose lane is `l` mod 32, the one of the lowest group, then of the lowest lane. -/
def Supplies (caps : List MtxCap) (l : Nat) (c : MtxCap) : Prop :=
  c ∈ caps ∧ c.fib.lane % 32 = l
    ∧ ∀ x ∈ caps, x.fib.lane % 32 = l → c.fib.grp < x.fib.grp ∨ (c.fib.grp = x.fib.grp ∧ c.fib.lane ≤ x.fib.lane)

/-- Element (i, k) of A: its bits, its value scaled, and whether a register of it is poisoned (R247, R253). -/
def ElemA (m : MmaMod) (caps : List MtxCap) (i k raw : Nat) (v : FVal) (p : Bool) : Prop :=
  let f : EFmt := if m.fmt = .cb2 then .e2m1 else m.fmt
  let w := EFmt.spot f i k
  ((∀ c ∈ caps, c.fib.lane % 32 ≠ w.1) ∧ raw = 0 ∧ v = .fin false 0 0 ∧ p = false)
  ∨ ∃ c, Supplies caps w.1 c ∧ ∃ u, EFmt.Is f raw 0 u ∧
      let r := c.frag.getD w.2.1 default
      raw = (r.v.extractLsb' w.2.2 (EFmt.bits f)).toNat
      ∧ match c.scale with
        | none => v = u ∧ p = r.p
        | some s => v = u.scaled (s.v.extractLsb' (8 * (k / (16 * 2 ^ m.lb.val))) 8) ∧ p = (r.p || s.p)

/-- Element (k, j) of the tile at scratchpad offset `b`, with its scale and its poison (R248, R253). A block of scale
−128 is not read. -/
def ElemB (m : MmaMod) (spad : Memory) (b k j raw : Nat) (v : FVal) (p : Bool) : Prop :=
  let f := m.fmt
  let (_, n, depth, col) := EFmt.shape f
  let bit := 8 * (b + j * col) + EFmt.packed f k
  let L := 16 * 2 ^ m.lb.val
  let sa := b + n * col + j * (depth / L) + k / L
  let sc := BitVec.ofNat 8 (spad.nat sa 1)
  raw = spad.nat (bit / 8) ((bit % 8 + EFmt.bits f + 7) / 8) / 2 ^ (bit % 8) % 2 ^ EFmt.bits f
  ∧ ∃ u, EFmt.Is f raw (k % 8) u
    ∧ (f.scaled = false → v = u ∧ p = spad.pois (bit / 8))
    ∧ (f.scaled = true → v = u.scaled sc ∧ p = ((decide (sc.toInt ≠ -128) && spad.pois (bit / 8)) || spad.pois sa))

/-- The exact product of two values, none for a NaN; integers have no negative zero (R252). -/
def FVal.times (ints : Bool) (a b : FVal) : Option FVal :=
  if a.isNan || b.isNan || (a.isInf && b.isZero) || (a.isZero && b.isInf) then none
  else match a, b with
    | .fin s m e, .fin t n d => some (.fin ((s != t) && !(ints && m * n == 0)) (m * n) (e + d))
    | _, _ => some (.inf (a.sign != b.sign))

/-- Toward zero. -/
def truncInt (q : ℚ) : ℤ := if 0 ≤ q then ⌊q⌋ else ⌈q⌉

/-- R252: the binary32 pattern of the sum of some terms. -/
def WideSum (ts : List (Option FVal)) (r : Nat) : Prop :=
  let fins := ts.filterMap id
  if none ∈ ts ∨ (∃ t ∈ fins, t.isNan = true) ∨ (FVal.inf false ∈ fins ∧ FVal.inf true ∈ fins) then r = 0x7FC00000
  else if FVal.inf false ∈ fins then r = 0x7F800000
  else if FVal.inf true ∈ fins then r = 0xFF800000
  else
    ((∀ t ∈ fins, t.rat = 0) → r = if fins.all (·.sign) then 0x80000000 else 0)
    ∧ ((∃ t ∈ fins, t.rat ≠ 0) → ∃ E : ℤ, (∀ t ∈ fins, |t.rat| < 2 ^ (E + 1)) ∧ (∃ t ∈ fins, 2 ^ E ≤ |t.rat|)
        ∧ let s : ℚ := (fins.map fun t => truncInt (t.rat / 2 ^ (E - 60))).sum * 2 ^ (E - 60)
          ∃ fl, binary32.Rounds .rn false false (s : ℝ) (r, fl))

/-- A binary64 fused multiply-add, rounded to nearest even (R64, R67). -/
def IsFma (h : Nat → Nat → Nat → Nat) : Prop :=
  ∀ x y z, x < 2 ^ 64 → y < 2 ^ 64 → z < 2 ^ 64 → ∃ fl more,
    binary64.NanElse [x, y, z] more (h x y z, fl)
      (binary64.MulAdd .rn false (binary64.val false x) (binary64.val false y) (binary64.val false z) (h x y z, fl))

/-- R250 to R253, R255: what an operation writes for output (i, j): its cells, with their bits and poison. `old` reads a
cell and its poison as the operations before it leave them. -/
def MmaOutput (m : MmaMod) (batched : Bool) (gb : Nat) (caps : List MtxCap) (spad : Memory) (b : Nat)
    (old : Nat → BitVec 32 × Bool) (i j : Nat) (out : List (Nat × BitVec 32 × Bool)) : Prop :=
  let (rows, _, depth, _) := EFmt.shape m.fmt
  let G := if batched then 2 ^ (gb + 1) else 1
  let ks := (List.range (depth / G)).map (i * G / rows * (depth / G) + ·)
  let cell := 64 * (8 * m.ar.toNat + i / 2) + 32 * (i % 2) + if m.fmt = .fp64 then 2 * j else j
  ∃ (x y : Nat → Nat) (a c : Nat → FVal) (pa pc : Nat → Bool),
    (∀ k ∈ ks, ElemA m caps i k (x k) (a k) (pa k) ∧ ElemB m spad b k j (y k) (c k) (pc k))
    ∧ let p := ks.any pa || ks.any pc || (!m.set && (old cell).2)
      if m.fmt = .fp64 then
        ∃ h, IsFma h ∧
          let z := if m.set then 2 ^ 63 else (old (cell + 1)).1.toNat * 2 ^ 32 + (old cell).1.toNat
          let r := ks.foldl (fun z k => h (x k) (y k) z) z
          out = [(cell, BitVec.ofNat 32 r, p), (cell + 1, BitVec.ofNat 32 (r / 2 ^ 32), p)]
      else
        ∃ (r : Nat) (was : List FVal),
          (m.set = true → was = []) ∧ (m.set = false → ∃ u, was = [u] ∧ EFmt.Is .fp32 (old cell).1.toNat 0 u)
          ∧ WideSum (ks.map (fun k => (a k).times (m.fmt = .int8 ∨ m.fmt = .int4) (c k)) ++ was.map some) r
          ∧ out = [(cell, BitVec.ofNat 32 r, p)]

/-! ## Sibling cells (R297 to R303) -/

/-- A live slot: its value, the poison of it, its stamp. -/
def SibCell.slot? (c : SibCell) (k : Nat) : Option (Word × Bool × BitVec 32) := NMap.find c.slots k

/-- Only slots 0 to 3 are live, and their stamps differ and are at most CLOCK. -/
def SibCell.ok (c : SibCell) : Prop :=
  (∀ k x, c.slot? k = some x → k < 4 ∧ x.2.2.toNat ≤ c.clock.toNat)
    ∧ ∀ j k x y, c.slot? j = some x → c.slot? k = some y → x.2.2 = y.2.2 → j = k

/-- Slot `k` is the newest sibling. -/
def SibCell.IsNewest (c : SibCell) (k : Nat) (x : Word × Bool × BitVec 32) : Prop :=
  c.slot? k = some x ∧ ∀ j y, c.slot? j = some y → y.2.2.toNat ≤ x.2.2.toNat

/-- What the cell's bytes read as: the newest value, or 0. -/
def SibCell.Reads (c : SibCell) (r : RegCell) : Prop :=
  ((∀ k, c.slot? k = none) → r = ⟨0, false⟩) ∧ ∀ k x, c.IsNewest k x → r = ⟨x.1, x.2.1⟩

/-- The cell's token (R298). -/
def SibCell.IsToken (c : SibCell) (t : Word) : Prop :=
  t.extractLsb' 0 32 = c.clock ∧ (∀ k, k < 4 → t.getLsbD (32 + k) = (c.slot? k).isSome)
    ∧ (t.extractLsb' 36 3).toNat = (List.range 4).countP (fun k => (c.slot? k).isSome) ∧ t.extractLsb' 41 23 = 0
    ∧ ((∀ k, c.slot? k = none) → t.extractLsb' 39 2 = 0) ∧ ∀ k x, c.IsNewest k x → (t.extractLsb' 39 2).toNat = k

/-- The combining operations (R217, R302). -/
def Merges (op : SrecOp) (a b r : Word) : Prop :=
  match op with
  | .add => r = a + b
  | .min => r = if b.slt a then b else a
  | .max => r = if a.slt b then b else a
  | .or => r = a ||| b
  | .xor => r = a ^^^ b
  | .minu => r = if b.ult a then b else a
  | .maxu => r = if a.ult b then b else a
  | .fadd => ∃ fl more, binary64.NanElse [a.toNat, b.toNat] more (r.toNat, fl)
      (binary64.Sum .rn false (binary64.val false a.toNat) (binary64.val false b.toNat) (r.toNat, fl))

/-- The fibre has been given a trap. -/
def State.trapped (s : State) (f : FibId) (code : Nat) (o : MemOp) : Prop :=
  ∃ b t, s.fib? f = some b ∧ b.trap = some t ∧ t.code = code ∧ t.word = o.word ∧ t.addr = o.addr ∧ t.hdr = o.hdr

/-! ## Memory as engines see it -/

/-- A place that a command reads and writes plainly: scratchpad, or memory of this package behind its point. -/
def State.engPlain (s : State) (c : Cmd) (l : Loc) : Prop :=
  match l with
  | .spad t _ => (s.team? t).isSome = true
  | .mem a x => x.tag = none ∧ x.sc = false ∧ x.bypass a = false ∧ s.isRemote a = false ∧ spaceOf a < 4
      ∧ (EQueue.inPod c.c.q = false → s.sliceOn (secBase a) = true)
  | .nowhere => False

/-- A byte of such a place, and the poison of its word. -/
def State.engByte (s : State) (c : Cmd) (l : Loc) : Byte × Bool :=
  match l with
  | .spad t a => s.spadByte t a
  | .mem a _ => if EQueue.inPod c.c.q then s.sees c.pod a else (BitVec.ofNat 8 (s.homeNat a 1).1, (s.homeNat a 1).2)
  | .nowhere => (0, false)

/-- Two places are one byte. -/
def Loc.sameByte (a b : Loc) : Prop :=
  match a, b with
  | .spad t x, .spad u y => t = u ∧ x = y
  | .mem x _, .mem y _ => x = y
  | _, _ => False

/-! ## Collectives (R323, R395) -/

/-- One round of the tree: neighbours combined, an unpaired last value passed up. -/
def pairUp (op : Nat → Nat → Nat) (l : List Nat) : List Nat :=
  (List.range ((l.length + 1) / 2)).map fun i =>
    match l[2 * i]?, l[2 * i + 1]? with | some a, some b => op a b | some a, none => a | _, _ => 0

/-- The value of the fixed tree. -/
inductive TreeOf (op : Nat → Nat → Nat) : List Nat → Nat → Prop where
  | one (a : Nat) : TreeOf op [a] a
  | round (l : List Nat) (r : Nat) : 2 ≤ l.length → TreeOf op (pairUp op l) r → TreeOf op l r

/-- The smaller or larger of two patterns, a NaN giving the other: minimumNumber and maximumNumber (R70). -/
def FFmt.Picks (f : FFmt) (first : Nat → Nat → Bool) (x y r : Nat) : Prop :=
  r = if f.isNan x && f.isNan y then x ||| 2 ^ (f.fb - 1) else if f.isNan x then y else if f.isNan y then x
    else if first x y then x else y

/-- A call of a reduction's operation (R321, R323, R395): DT 0 INT64, 1 UINT64, 2 FP64, 3 FP32. -/
def CollCall (dt op a b r : Nat) : Prop :=
  let x := BitVec.ofNat 64 a
  let y := BitVec.ofNat 64 b
  let f := fpFmt (dt == 3)
  if 2 ≤ dt then
    (op = 0 → ∃ fl more, f.NanElse [a, b] more (r, fl) (f.Sum .rn false (f.val false a) (f.val false b) (r, fl)))
    ∧ (op = 1 → f.Picks (fun x y => decide (f.placeZ x ≤ f.placeZ y)) a b r)
    ∧ (op = 2 → f.Picks (fun x y => decide (f.placeZ y ≤ f.placeZ x)) a b r)
  else
    (op = 0 → r = (x + y).toNat)
    ∧ (op = 1 → r = if lessBits (dt == 1) 64 y x then b else a) ∧ (op = 2 → r = if lessBits (dt == 1) 64 x y then b else a)
    ∧ (op = 3 → r = (x &&& y).toNat) ∧ (op = 4 → r = (x ||| y).toNat) ∧ (op = 5 → r = (x ^^^ y).toNat)

/-! ## Selection (R400, R401) -/

/-- The projected error of a node (R400), each step rounded. -/
def projected (eye : Nat → Nat) (k dmin : Nat) (x : Node) : Nat :=
  let d := fun i => f32Sub (eye i) (x.sphere.getD i 0)
  let q := f32Add (f32Add (f32Mul (d 0) (d 0)) (f32Mul (d 1) (d 1))) (f32Mul (d 2) (d 2))
  let r := f32Sub (f32Sqrt q) (x.sphere.getD 3 0)
  f32Div (f32Mul k x.err) (if f32Le dmin r then r else dmin)

/-- What some members of a group come to (R401): the records selected in it, those of the groups below it that stand, and
the misses below it. -/
inductive Comes (N : Nat → Node) (sel res : Nat → Bool) : List Nat → List CutRec → List CutRec → List Nat → Prop where
  | done : Comes N sel res [] [] [] []
  | selected (i : Nat) (l : List Nat) (own below : List CutRec) (miss : List Nat) : sel i = true → Comes N sel res l own below miss →
      Comes N sel res (i :: l) (⟨(N i).blk, false, i⟩ :: own) below miss
  | refined (i : Nat) (l : List Nat) (o b own below : List CutRec) (m miss : List Nat) : sel i = false →
      Comes N sel res (span (N i).first (N i).nchild) o b m → (∀ r ∈ o, res r.id = true) → Comes N sel res l own below miss →
      Comes N sel res (i :: l) own (o ++ b ++ below) (m ++ miss)
  | stands (i : Nat) (l : List Nat) (o b own below : List CutRec) (m miss : List Nat) : sel i = false →
      Comes N sel res (span (N i).first (N i).nchild) o b m → (∃ r ∈ o, res r.id = false) → Comes N sel res l own below miss →
      Comes N sel res (i :: l) (⟨(N i).blk, true, i⟩ :: own) below
        (m ++ (o.filter fun r => !res r.id).map (·.id) ++ miss)

/-! ## Rays (R406) -/

/-- The number an FP32 pattern stands for. -/
def num32 (b : Nat) : ℚ := (f32Val b).rat

/-- t lies in [TMIN, TMAX]. -/
def Ray.within (r : Ray) (t : ℚ) : Prop :=
  (match f32Val (Ray.tmin r) with | .fin _ _ _ => num32 (Ray.tmin r) ≤ t | .inf s => s = true | _ => False)
  ∧ (match f32Val (Ray.tmax r) with | .fin _ _ _ => t ≤ num32 (Ray.tmax r) | .inf s => s = false | _ => False)

/-- The ray at t is the triangle's point of weights u and v. -/
def Ray.Meets (r : Ray) (ps : List (List Nat)) (t u v : ℚ) : Prop :=
  let p := fun k i => num32 ((ps.getD k []).getD i 0)
  (∀ i, i < 3 → num32 (r.getD i 0) + t * num32 (r.getD (4 + i) 0) = p 0 i + u * (p 1 i - p 0 i) + v * (p 2 i - p 0 i))
    ∧ 0 ≤ u ∧ 0 ≤ v ∧ u + v ≤ 1 ∧ Ray.within r t

end Sys2Proof.Machine
end

