-- ==== Sys2Proof/Certificates/Slice0/Obligations.lean ====
section
/-! DEFINITION. The statements for the provers. Those on words say what a word leaves in each fibre's registers
and what it leaves alone (`Effects`); those on events say when a row acts and what it then leaves. -/

open Sys2Proof Sys2Proof.Machine

/-! ## Encodings and the step -/

/-- R21, R22, R26, R30, R32, R34: every bit of every instruction's encoding is read back, for every team. -/
def Obligations.DecodeInvertsEncode : Prop :=
  ∀ (i : Instr) (c regs rows : Nat), i.cls = some c → i.wf regs rows = true →
    decode ⟨c, regs, rows, true, true, true⟩ ((encode i).headD 0) ((encode i).tail.headD 0) = .ok i

/-- R25, R28, R34, R439: whatever decodes is an instruction of its class within the limits of its page, and has
the extension word that its page requires. -/
def Obligations.DecodedIsWellFormed : Prop :=
  ∀ (c : DecCtx) (w e : W32) (i : Instr), decode c w e = .ok i →
    i.wf c.regs c.rows = true ∧ i.cls = some c.cls ∧ (∀ k f, i.fields = some (k, true, f) → w.getLsbD 31 = true)

/-- Words of the spec's own examples (R49, R82, R92, R136, R156, R245, R263, R301, R302) and the first bits of R21.
R10: the fields of a clause header; R11: what makes it raise trap 0x04 by itself. -/
def Obligations.DecodeSpecWords : Prop :=
  (decode (openCtx 0) 0x980C0414 0x70008000 = .ok (.nibl ⟨false, 7⟩ true false false (.x 12) (.x 4) (.x 20))
  ∧ decode (openCtx 0) 0xD3090800 0x2000C000 = .ok (.redl ⟨false, 2⟩ .min true false (.x 9) (.x 8))
  ∧ decode (openCtx 0) 0x6A000000 0 = .ok (.nop ⟨false, 7⟩)
  ∧ decode (openCtx 0) 0xE000FFFC 0x40000000 = .ok (.bra ⟨false, 4⟩ 0xFFFC)
  ∧ decode (openCtx 1) 0x90040205 0x706820CC
      = .ok (.atom ⟨false, 7⟩ false ⟨.none, .dev⟩ .addb 3 (.x 4) (.x 2) (.x 5) (.x 6))
  ∧ decode (openCtx 1) 0xB2060204 0x70503000
      = .ok (.sst ⟨false, 7⟩ ⟨.none, .team⟩ false (.x 6) (.x 2) (.x 4) (.x 5))
  ∧ decode (openCtx 1) 0xB3080209 0x700030C1
      = .ok (.srec ⟨false, 7⟩ ⟨.none, .team⟩ .min false 3 (.x 8) (.x 2) (.x 9) none)
  ∧ decode (openCtx 4) 0x98100000 0x70000050 = .ok (.push ⟨false, 7⟩ .se0 16 5 none)
  ∧ decode (openCtx 4) 0x23000407 0 = .ok (.fres ⟨false, 7⟩ (.x 4) (.x 7))
  ∧ decode (openCtx 2) 0x80011005 0x7C803000
      = .ok (.mma ⟨false, 7⟩ 1 ⟨false, 0, false, .bf16, false, false, 0⟩ 16 (.x 5) none)
  ∧ decode (openCtx 2) 0x80001005 0x7C801C00
      = .ok (.mma ⟨false, 7⟩ 0 ⟨false, 0, false, .fp64, true, true, 0⟩ 16 (.x 5) none))
  ∧ (∀ (n : BitVec 4) (cls : BitVec 3) (wait : BitVec 12) (seta setb : BitVec 4) (yield : BitVec 1) (res : BitVec 4),
    let h := Header.ofWord (n ++ cls ++ wait ++ seta ++ setb ++ yield ++ res)
    h = ⟨n.toNat, cls.toNat, wait, seta.toNat, setb.toNat, yield == 1, res⟩
    ∧ (h.bad = true ↔ n = 0 ∨ cls = 6 ∨ cls = 7 ∨ (12 ≤ seta.toNat ∧ seta.toNat ≤ 14)
        ∨ (12 ≤ setb.toNat ∧ setb.toNat ≤ 14) ∨ res ≠ 0)
    ∧ Header.ofWord 0xB0001FE0 = ⟨11, 0, 0, 15, 15, false, 0⟩)

/-- R26, R27: the coding of operand fields, and the patterns that constants supply. -/
def Obligations.OperandCodes : Prop :=
  (∀ n : Fin 128, Opnd.ofCode (BitVec.ofNat 8 n.val) = .x n) ∧ (∀ n : Fin 64, Opnd.ofCode (BitVec.ofNat 8 (128 + n.val)) = .s n)
  ∧ (∀ n : Fin 8, Opnd.ofCode (BitVec.ofNat 8 (192 + n.val)) = .t n)
  ∧ (∀ n : Fin 16, Opnd.ofCode (BitVec.ofNat 8 (200 + n.val)) = .k n)
  ∧ (∀ c : Byte, reservedCode c = true ↔ 216 ≤ c.toNat)
  ∧ ((List.range 16).map (constBits .q64)
      = [0x0000000000000000, 0x0000000000000001, 0x0000000000000002, 0x0000000000000004, 0x0000000000000008,
         0x0000000000000010, 0xFFFFFFFFFFFFFFFF, 0x8000000000000000, 0x3FE0000000000000, 0x3FF0000000000000,
         0x4000000000000000, 0xBFF0000000000000, 0x000000003F800000, 0x7FF0000000000000, 0x400921FB54442D18,
         0x3FE62E42FEFA39EF])
  ∧ ((List.range 16).map (constBits .int32)
      = [0, 1, 2, 4, 8, 16, 0xFFFFFFFF, 0x80000000, 0, 0, 0, 0, 0x3F800000, 0x00000000, 0x54442D18, 0xFEFA39EF])
  ∧ ((List.range 16).map (constBits .fp32)
      = [0, 1, 2, 4, 8, 16, 0xFFFFFFFF, 0x80000000, 0x3F000000, 0x3F800000, 0x40000000, 0xBF800000, 0x3F800000,
         0x7F800000, 0x40490FDB, 0x3F317218])

/-- R12: a step that takes the next word of a started clause runs the instruction it decodes to, and the clause
goes past it. Which part of the machine acts is the model's tape (log 1).
The same of the rows that are no words: events of the units, commands of the host and requests of its
management mailbox (R413, R427; log 1). -/
def Obligations.StepRunsTheInstruction : Prop :=
  (∀ (s : State) (run : Nat) (r : ClauseRun) (i : Instr) (n : Nat), s.choice.act = .word run →
    s.taken.run? run = some r → s.taken.fetchWord r = some (.ok i, n) →
    ∀ t, exec i { s.taken with cur := run } = .next t → step s = .next (t.leaveWord run n).afterStep)
  ∧ ((∀ (s : State) (i : Instr), s.choice.act = .event i → i.cls = none → windowed i = false →
    ∀ t, exec i s.taken = .next t → step s = .next t.afterStep)
  ∧ (∀ (s : State) (fn type : Nat) (c : HostCmd) (i : Instr), s.choice.act = .command fn type c →
    commandRow fn type c (Config.freeNat s.taken.tick 41 % 2 == 1) (Config.freeNat s.taken.tick 42 % 2 == 1) = some i →
    ∀ t, exec i s.taken = .next t → step s = .next t.afterStep)
  ∧ (∀ (s : State) (fn : Nat) (v : Word) (i : Instr), s.choice.act = .request fn v → v.extractLsb' 8 8 = (0 : Byte) →
    requestRow fn (fieldOf v 7 0) ⟨v.extractLsb' 40 24, v.extractLsb' 16 24⟩ = some i →
    ∀ t, exec i s.taken = .next t → step s = .next t.afterStep))

/-! ## Integer, bit and byte-lane words -/

/-- R42, R43: exact sums, differences, products, minimum, maximum and magnitude, wrapped or clamped. -/
def Obligations.IntegerArithmetic : Prop :=
  ∀ (g : Guard) (sat u w : Bool) (d a : Opnd) (b : Src) (c : Opnd),
    Each (.iadd g sat u w d a b) g (int2 w d a b (by2 u w (addBits sat u)))
    ∧ Each (.isub g sat u w d a b) g (int2 w d a b (by2 u w (subBits sat u)))
    ∧ Each (.imul g sat u w d a b) g (int2 w d a b (by2 u w (mulBits sat u)))
    ∧ Each (.imulh g u w d a b) g (int2 w d a b (by2 u w (mulHigh u)))
    ∧ Each (.imad g sat u w d a b c) g (fun v =>
        let x := v.rdAs (intRd w) a; let y := v.src (intRd w) b; let z := v.rdAs (intRd w) c
        one d (by3 u w (madBits sat u) x.v y.v z.v) (x.p || y.p || z.p))
    ∧ Each (.imin g u w d a b) g (int2 w d a b (by2 u w (minBits u)))
    ∧ Each (.imax g u w d a b) g (int2 w d a b (by2 u w (maxBits u)))
    ∧ Each (.iabs g sat w d a) g (int1 w d a (by1 false w (absBits sat)))

/-- R44, R45, R379: logic, shifts and the funnel shift; a poisoned count traps 0x0E.
R46, R47: fields, counts and bit order. The field must lie in the word: no other decodes.
R48, R49, R51: bytes selected, nibbles looked up, and lanes of 8 or 16 bits. -/
def Obligations.LogicShiftsAndFields : Prop :=
  (∀ (g : Guard) (u w : Bool) (d a : Opnd) (b : Src) (c : Opnd),
    Each (.and g u w d a b) g (int2 w d a b (by2 u w fun _ x y => x &&& y))
    ∧ Each (.or g u w d a b) g (int2 w d a b (by2 u w fun _ x y => x ||| y))
    ∧ Each (.xor g u w d a b) g (int2 w d a b (by2 u w fun _ x y => x ^^^ y))
    ∧ Each (.andn g u w d a b) g (int2 w d a b (by2 u w fun _ x y => x &&& ~~~y))
    ∧ Each (.shl g u w d a b) g (intCount w d a b (by2 u w shlBits))
    ∧ Each (.shr g u w d a b) g (intCount w d a b (by2 u w shrBits))
    ∧ Each (.sar g u w d a b) g (intCount w d a b (by2 u w sarBits))
    ∧ Each (.rot g u w d a b) g (intCount w d a b (by2 u w rotBits))
    ∧ Each (.funl g u w d a b c) g (fun v =>
        let z := v.rdAs (intRd w) c
        if z.p then poisonTrap else int2 w d a b (fun x y => by3 u w funnel x y z.v) v))
  ∧ (∀ (g : Guard) (u w : Bool) (d a b : Opnd) (pos len : BitVec 6),
    (pos.toNat + len.toNat ≤ (if w then 32 else 64) →
      Each (.bfx g u w d a pos len) g (int1 w d a (by1 u w (fieldBits u pos.toNat len.toNat)))
      ∧ Each (.bfi g u w d a b pos len) g (int2 w d a (.opnd b) (by2 u w (insertBits pos.toNat len.toNat))))
    ∧ Each (.popc g u w d a) g (int1 w d a (by1 u w onesBits))
    ∧ Each (.clz g u w d a) g (int1 w d a (by1 u w leadBits))
    ∧ Each (.ctz g u w d a) g (int1 w d a (by1 u w trailBits))
    ∧ Each (.brev g u w d a) g (int1 w d a (by1 u w reverseOf)))
  ∧ (∀ (g : Guard) (sat l16 hi u w : Bool) (c : Cond) (d a t : Opnd) (b : Src),
    Each (.permb g u w d a b) g (int2 w d a b (by2 u w permBytes))
    ∧ Each (.nibl g hi u w d a t) g (fun v =>
        let x := v.rdAs (intRd w) a; let lo := v.rd t; let up := v.rd t.succ
        one d (by1 u w (lookNibbles hi (up.v ++ lo.v)) x.v) (x.p || lo.p || up.p))
    ∧ Each (.badd g sat l16 u w d a b) g (int2 w d a b (by2 u w (laneWise l16 (addBits sat u))))
    ∧ Each (.bsub g sat l16 u w d a b) g (int2 w d a b (by2 u w (laneWise l16 (subBits sat u))))
    ∧ Each (.bcmp g c l16 u w d a b) g (int2 w d a b (by2 u w (laneWise l16 fun n x y =>
        if lessCond c u n x y then BitVec.allOnes n else 0)))
    ∧ Each (.bmaxu g l16 u w d a b) g (int2 w d a b (by2 u w (laneWise l16 (maxBits true))))
    ∧ Each (.bmsk g l16 u w d a) g (int1 w d a (by1 u w (topBits l16))))

/-- R50, R54, R55, R379: comparisons, selection and predicate words; R313: `pchk` reads poison and never traps.
R24, R52, R53, R56: moves, literals and extensions; `ldi` and `ldih` have no guard. -/
def Obligations.ComparesMovesAndExtensions : Prop :=
  (∀ (g : Guard) (u w : Bool) (c : Cond) (op : PsetOp) (p q r : Fin 8) (d a : Opnd) (b : Src),
    Each (.icmp g c u w p a b) g (fun v =>
      let x := v.rdAs (intRd w) a; let y := v.src (intRd w) b
      if x.p || y.p then poisonTrap
      else .preds [(p, if w then lessCond c u 32 (lo32 x.v) (lo32 y.v) else lessCond c u 64 x.v y.v)])
    ∧ Each (.sel g u w d a b p) g (fun v =>
      let x := if v.fib.pred p then v.rdAs (intRd w) a else v.src (intRd w) b
      one d (by1 u w (fun _ y => y) x.v) x.p)
    ∧ Each (.pset g op p q r) g (fun v =>
      let x := v.fib.pred q; let y := v.fib.pred r
      .preds [(p, match op with | .and => x && y | .or => x || y | .xor => xor x y | .andn => x && !y)])
    ∧ Each (.pmovGet g d) g (fun v => one d (((1 : BitVec 1) ++ v.fib.preds.extractLsb' 0 7).setWidth 64) false)
    ∧ Each (.pmovPut g a b) g (fun v =>
      let x := v.rd a; let y := v.src .q64 b
      if x.p || y.p then poisonTrap
      else .preds (((List.finRange 7).filter fun i => y.v.getLsbD i.val).map fun i => (i.castSucc, x.v.getLsbD i.val)))
    ∧ Each (.pchk g p a) g (fun v => .preds [(p, (v.rd a).p)]))
  ∧ (∀ (g : Guard) (u w : Bool) (d a : Opnd) (b : Src) (i : BitVec 12) (v : W32),
    Each (.mov g u w d a) g (int1 w d a (by1 u w fun _ x => x))
    ∧ Each (.movi g u w d i) g (fun _ => one d (by1 u w (fun _ x => x) (i.signExtend 64)) false)
    ∧ Each (.ldi d v) noGuard (fun _ => one d (v.signExtend 64) false)
    ∧ Each (.ldih d v) noGuard (fun x => one d (v ++ lo32 (x.rd d).v) (x.rd d).p)
    ∧ Each (.sext g d a b) g (intCount false d a b signFrom)
    ∧ Each (.zext g d a b) g (intCount false d a b zeroFrom))

/-- R60, R61: buffer addresses are built and moved within one buffer, or trap 0x0A and leave D. -/
def Obligations.BufferAddresses : Prop :=
  ∀ (g : Guard) (d a : Opnd) (b : Src),
    Each (.mka g d a b) g (fun v =>
      let x := v.rd a; let y := v.src .q64 b
      if x.v.extractLsb' 20 44 ≠ 0 ∨ y.v.extractLsb' 44 20 ≠ 0 then .trap 0x0A 0 0
      else one d (x.v.extractLsb' 0 20 ++ y.v.extractLsb' 0 44) (x.p || y.p))
    ∧ Each (.adda g d a b) g (fun v =>
      let x := v.rd a; let y := v.src .q64 b
      let off : Int := ((x.v.extractLsb' 0 44).toNat : Int) + y.v.toInt
      if off < 0 ∨ 2 ^ 44 ≤ off then .trap 0x0A 0 0
      else one d (x.v.extractLsb' 44 20 ++ BitVec.ofInt 44 off) (x.p || y.p))

/-- R57, R58, R308, R310: reads of the special registers, the region word and the control registers.
R57, R310, R379: writes of special and control registers. A read-only number, and `%prio` above 3, trap 0x02;
a register of the team ends holding one of the values written, which one being free (log 8). That a write of `tcause`
clears the bits it has no field for is the model's choice (log 109). -/
def Obligations.SpecialRegisters : Prop :=
  (∀ (g : Guard) (d : Opnd) (n : BitVec 12),
    Does (.srd g d n) (fun s v => if v.guard g then some (one d (s.special v n.toNat) false) else none)
    ∧ Each (.regq d) noGuard (fun v => one d v.team.regionWord false)
    ∧ Each (.csrr g d n) g (fun v => one d (v.csr n.toNat) false)
    ∧ (∀ (s : State) (v : View) (c : Cluster), s.cluster? v.team.cluster = some c →
        let n := fun k => BitVec.ofNat 64 k
        s.special v 0x00 = n v.fib.fid.lane ∧ s.special v 0x01 = n v.grp.width ∧ s.special v 0x02 = n v.fib.fid.grp
        ∧ s.special v 0x03 = n v.team.groups ∧ s.special v 0x04 = n (v.team.rank % c.cols)
        ∧ s.special v 0x05 = n (v.team.rank / c.cols) ∧ s.special v 0x06 = n c.chunk ∧ s.special v 0x07 = n c.cols
        ∧ s.special v 0x08 = n c.rows ∧ s.special v 0x09 = n c.nteamZ ∧ s.special v 0x0A = n c.chunk
        ∧ s.special v 0x0B = n v.team.rank ∧ s.special v 0x0C = n v.team.core ∧ s.special v 0x0D = n (v.team.core / 12 % 8)
        ∧ s.special v 0x0E = n (v.team.core / 96) ∧ s.special v 0x0F = n (v.team.core / 192) ∧ s.special v 0x10 = n s.pkg
        ∧ s.special v 0x11 = n s.clock ∧ s.special v 0x12 = n v.fib.tile
        ∧ s.special v 0x13 = n (v.grp.roff + v.fib.fid.lane % 32) ∧ s.special v 0x14 = n c.base
        ∧ s.special v 0x15 = n c.count ∧ s.special v 0x16 = c.recAddr ∧ s.special v 0x17 = n v.team.prio
        ∧ s.special v 0x18 = v.team.ustate ∧ s.special v 0x19 = v.fib.lr)
    ∧ (∀ v : View, v.csr 0 = v.fib.frm.setWidth 64 ∧ v.csr 1 = v.fib.fflags.setWidth 64 ∧ v.csr 2 = v.team.tvec
        ∧ v.csr 3 = v.fib.tcause ∧ v.csr 4 = v.fib.taddr ∧ v.csr 5 = v.fib.epc ∧ v.csr 6 = (if v.fib.h then 1 else 0)
        ∧ v.csr 7 = v.team.regionWord))
  ∧ (∀ (g : Guard) (a : Opnd) (n : BitVec 12),
    (n ≠ 0x17 → n ≠ 0x18 → n ≠ 0x19 → Each (.swr g a n) g View.operandTrap)
    ∧ WritesOwn (.swr g a 0x19) g (fun v => if (v.rd a).p then poisonTrap else .nothing)
        (fun v f => { f with lr := (v.rd a).v })
    ∧ WritesTeam (.swr g a 0x17) g
        (fun v => if (v.rd a).p then poisonTrap else if 3 < (v.rd a).v.toNat then v.operandTrap else .nothing)
        (fun v t => { t with prio := (v.rd a).v.toNat })
    ∧ WritesTeam (.swr g a 0x18) g (fun v => if (v.rd a).p then poisonTrap else .nothing)
        (fun v t => { t with ustate := (v.rd a).v })
    ∧ (5 < n.toNat → Each (.csrw g a n) g View.operandTrap)
    ∧ (n.toNat ≤ 5 → n ≠ 2 → WritesOwn (.csrw g a n) g (fun v => if (v.rd a).p then poisonTrap else .nothing)
        (fun v f => f.setCsr n.toNat (v.rd a).v))
    ∧ WritesTeam (.csrw g a 2) g (fun v => if (v.rd a).p then poisonTrap else .nothing)
        (fun v t => { t with tvec := (v.rd a).v.extractLsb' 6 58 ++ (0 : BitVec 6) })
    ∧ (∀ (f : Fibre) (x : Word), f.setCsr 0 x = { f with frm := x.setWidth 3 } ∧ f.setCsr 1 x = { f with fflags := x.setWidth 5 }
        ∧ f.setCsr 3 x = { f with tcause := (0 : BitVec 28) ++ x.extractLsb' 20 16 ++ (0 : BitVec 12) ++ x.extractLsb' 0 8 }
        ∧ f.setCsr 4 x = { f with taddr := x } ∧ f.setCsr 5 x = { f with epc := x }))

/-! ## Floating point -/

/-- R62 to R67: the four basic operations. Each result is the exact value of its operands rounded once under the
attribute that RM and `frm` give, with the flags that rounding raises; infinities, invalid operations and NaNs as R64 and R67
have them. That underflow is judged with an unbounded exponent (log 104), and that `fscale` takes B as a 64-bit integer under
either width (log 102), are the model's choices.
R64, R66, R68 to R71, R73, R74, R379: the words that select, compare, classify, round to an integral value, scale and
split. -/
def Obligations.FloatArithmetic : Prop :=
  (∀ (g : Guard) (m : FpMod) (d a b c : Opnd),
    let f := fpFmt m.single
    let binary := fun (i : Instr) (p : Rm → FVal → FVal → Nat × FFlags → Prop) =>
      ∃ h : Rm → Nat → Nat → Nat × FFlags, Each i g (fpRound2 m d a b h)
        ∧ ∀ rm x y, rm ≠ .rdyn → x < 2 ^ f.width → y < 2 ^ f.width →
            f.NanElse [x, y] 0 (h rm x y) (p rm (f.val m.ftz x) (f.val m.ftz y) (h rm x y))
    binary (.fadd g m d a b) (fun rm => f.Sum rm m.ftz)
    ∧ binary (.fsub g m d a b) (fun rm x y => f.Sum rm m.ftz x y.neg)
    ∧ binary (.fmul g m d a b) (fun rm => f.Product rm m.ftz)
    ∧ (∃ h : Rm → Nat → Nat → Nat → Nat × FFlags,
        Each (.ffma g m d a b c) g (fun v =>
          let rm := resolveRm m.rm v.fib.frm
          let x := v.rdAs (fpRd m.single) a; let y := v.rdAs (fpRd m.single) b; let z := v.rdAs (fpRd m.single) c
          let r := h rm.1 (fpBits m.single x.v) (fpBits m.single y.v) (fpBits m.single z.v)
          fpOne d (r.1, r.2 ||| rm.2) (x.p || y.p || z.p))
        ∧ ∀ rm x y z, rm ≠ .rdyn → x < 2 ^ f.width → y < 2 ^ f.width → z < 2 ^ f.width →
          let u := f.val m.ftz x; let v := f.val m.ftz y
          f.NanElse [x, y, z] (if (u.isInf && v.isZero) || (u.isZero && v.isInf) then nvFlag else 0) (h rm x y z)
            (f.MulAdd rm m.ftz u v (f.val m.ftz z) (h rm x y z)))
    ∧ (∀ k : BitVec 3, resolveRm .rdyn k = [(.rn, 0), (.rz, 0), (.ru, 0), (.rd, 0), (.rna, 0)].getD k.toNat (.rn, nvFlag))
    ∧ (∀ (rm : Rm) (k : BitVec 3), rm ≠ .rdyn → resolveRm rm k = (rm, 0)))
  ∧ (∀ (g : Guard) (m : FpMod) (big num ftz single : Bool) (c : FCond) (p : Fin 8) (d a b : Opnd),
    let f := fpFmt single
    let least := fun (first : Nat → Nat → Bool) (h : Nat → Nat → Nat × FFlags) =>
      ∀ x y, x < 2 ^ f.width → y < 2 ^ f.width → h x y =
        (if f.isNan x && (!num || f.isNan y) then x ||| 2 ^ (f.fb - 1)
          else if f.isNan x then f.read ftz y
          else if f.isNan y then (if num then f.read ftz x else y ||| 2 ^ (f.fb - 1))
          else if first (f.read ftz x) (f.read ftz y) then f.read ftz x else f.read ftz y, f.sigs [x, y])
    (∃ h, Each (.fmin g num ftz single d a b) g (fpExact2 single d a b h)
      ∧ least (fun x y => decide (f.placeZ x ≤ f.placeZ y)) h)
    ∧ (∃ h, Each (.fmax g num ftz single d a b) g (fpExact2 single d a b h)
      ∧ least (fun x y => decide (f.placeZ y ≤ f.placeZ x)) h)
    ∧ (∃ h : Nat → Nat → Bool × FFlags,
      Each (.fcmp g c ftz single p a b) g (fun v =>
        let x := v.rdAs (fpRd single) a; let y := v.rdAs (fpRd single) b
        let r := h (fpBits single x.v) (fpBits single y.v)
        if x.p || y.p then poisonTrap else .eff [] [(p, r.1)] r.2)
      ∧ ∀ x y, x < 2 ^ f.width → y < 2 ^ f.width →
        let un := f.isNan x || f.isNan y
        let i := f.place (f.read ftz x); let j := f.place (f.read ftz y)
        h x y = match c with
          | .eq => (!un && i == j, f.sigs [x, y])
          | .ne => (un || i != j, f.sigs [x, y])
          | .lt => (!un && decide (i < j), if un then nvFlag else 0)
          | .le => (!un && decide (i ≤ j), if un then nvFlag else 0)
          | .gt => (!un && decide (j < i), if un then nvFlag else 0)
          | .ge => (!un && decide (j ≤ i), if un then nvFlag else 0)
          | .un => (un, f.sigs [x, y])
          | .or => (!un, f.sigs [x, y]))
    ∧ (∃ h : Nat → Nat × FFlags, Each (.fclass g ftz single d a) g (fpExact1 single d a h)
      ∧ ∀ x, x < 2 ^ f.width → h x = (2 ^ (
          if f.isSig x then 8 else if f.isNan x then 9
          else if f.mag x = f.infMag then (if f.neg x then 0 else 7)
          else if f.mag (f.read ftz x) = 0 then (if f.neg x then 3 else 4)
          else if f.mag x < 2 ^ f.fb then (if f.neg x then 2 else 5)
          else if f.neg x then 1 else 6), 0))
    ∧ (let f := fpFmt m.single
      ∃ h : Rm → Nat → Nat × FFlags, Each (.frint g big m d a) g (fpRound1 m d a h)
      ∧ ∀ rm x, rm ≠ .rdyn → x < 2 ^ f.width → f.NanElse [x] 0 (h rm x) (match f.val m.ftz x with
        | .fin s n e => ∃ y : ℤ, RoundTo (fun z => ∃ k : ℤ, z = k) rm ((FVal.fin s n e).rat : ℚ) y ∧ f.holds s y (h rm x).1
            ∧ (h rm x).2 = if big = true ∧ (y : ℚ) ≠ (FVal.fin s n e).rat then nxFlag else 0
        | w => h rm x = (f.inf w.sign, 0)))
    ∧ (let f := fpFmt m.single
      ∃ h : Rm → Nat → ℤ → Nat × FFlags,
      Each (.fscale g m d a b) g (fun v =>
        let rm := resolveRm m.rm v.fib.frm
        let x := v.rdAs (fpRd m.single) a; let n := v.rd b
        let r := h rm.1 (fpBits m.single x.v) n.v.toInt
        fpOne d (r.1, r.2 ||| rm.2) (x.p || n.p))
      ∧ ∀ rm x (n : ℤ), rm ≠ .rdyn → x < 2 ^ f.width → f.NanElse [x] 0 (h rm x n) (match f.val m.ftz x with
        | .fin s k e => f.Rounds rm m.ftz s (((FVal.fin s k e).rat * 2 ^ n : ℚ) : ℝ) (h rm x n)
        | w => h rm x n = (f.inf w.sign, 0)))
    ∧ (∃ h : Nat → Nat × FFlags, Each (.fexpo g num ftz single d a) g (fpExact1 single d a h)
      ∧ ∀ x, x < 2 ^ f.width →
        (num = true → f.NanElse [x] 0 (h x) (match f.val ftz x with
          | .fin s n e => if n = 0 then h x = (f.zero s, 0) else ∃ (y : ℚ) (k : ℤ), f.holds s y (h x).1 ∧ (h x).2 = 0
              ∧ 1 ≤ |y| ∧ |y| < 2 ∧ (FVal.fin s n e).rat = y * 2 ^ k
          | w => h x = (f.inf w.sign, 0)))
        ∧ (num = false → match f.val ftz x with
          | .fin s n e => if n = 0 then h x = (0x8000000000000000, nvFlag)
              else ∃ k : ℤ, 2 ^ k ≤ |(FVal.fin s n e).rat| ∧ |(FVal.fin s n e).rat| < 2 ^ (k + 1) ∧ h x = ((k % 2 ^ 64).toNat, 0)
          | _ => h x = (0x7FFFFFFFFFFFFFFF, nvFlag))))

/-- R72, R75, R76: conversions between formats and to and from integers, two values packed into 32 bits, one unpacked, and
the exact pairs: the rounded sum or product, and what it leaves of the exact one. How underflow is judged (log 104), that a
narrowed pattern of 16 bits is never flushed by Z (log 105), and that `i2f` and `n2f` take A as 64 bits under either width
(log 102), are the model's choices. -/
def Obligations.FloatConversions : Prop :=
  ∀ (g : Guard) (k : CvtOp) (m : FpMod) (bf hi ftz single : Bool) (d a b : Opnd),
    let f := fpFmt m.single
    (k ≠ .i2f → k ≠ .n2f → ∃ h : Rm → Nat → Nat × FFlags, Each (.fcvt g k m d a) g (fpRound1 m d a h)
      ∧ ∀ rm x, rm ≠ .rdyn → x < 2 ^ f.width →
        let int := fun (lo hi : ℤ) => ∃ r : ℤ × FFlags, f.ToInt rm m.ftz lo hi x r ∧ h rm x = ((r.1 % 2 ^ 64).toNat, r.2)
        match k with
        | .f2f => if m.single then binary32.Converts binary64 .rn m.ftz false x (h rm x)
            else binary64.Converts binary32 rm false false x (h rm x)
        | .f2i => int (-2 ^ 63) (2 ^ 63 - 1)
        | .f2n => int 0 (2 ^ 64 - 1)
        | .f2iw => int (-2 ^ 31) (2 ^ 31 - 1)
        | .f2nw => int 0 (2 ^ 32 - 1)
        | _ => False)
    ∧ (k = .i2f ∨ k = .n2f → ∃ h : Rm → ℤ → Nat × FFlags,
      Each (.fcvt g k m d a) g (fun v =>
        let rm := resolveRm m.rm v.fib.frm
        let r := h rm.1 (if k = .i2f then (v.rd a).v.toInt else ((v.rd a).v.toNat : ℤ))
        fpOne d (r.1, r.2 ||| rm.2) (v.rd a).p)
      ∧ ∀ rm (n : ℤ), rm ≠ .rdyn → f.Rounds rm m.ftz false n (h rm n))
    ∧ (∃ h : Rm → Nat → Nat × FFlags,
      Each (.fpack g bf m d a b) g (fpRound2 m d a b fun rm x y =>
        ((h rm x).1 + (h rm y).1 * 2 ^ 16, (h rm x).2 ||| (h rm y).2))
      ∧ ∀ rm x, rm ≠ .rdyn → x < 2 ^ f.width → f.Converts (halfFmt bf) rm m.ftz false x (h rm x))
    ∧ (∃ h : Nat → Nat × FFlags,
      Each (.funpk g bf hi ftz single d a) g (fpExact1 single d a fun x => h (if hi then x / 2 ^ 16 % 2 ^ 16 else x % 2 ^ 16))
      ∧ ∀ x, x < 2 ^ 16 → (halfFmt bf).Converts (fpFmt single) .rn false ftz x (h x))
    ∧ (∀ prod : Bool, ∃ h : Nat → Nat → Nat × Nat × FFlags,
      Each (if prod then .f2prod g single d a b else .f2sum g single d a b) g (fun v =>
        let x := v.rdAs (fpRd single) a; let y := v.rdAs (fpRd single) b
        let p := x.p || y.p
        let r := h (fpBits single x.v) (fpBits single y.v)
        .eff [(d, ⟨BitVec.ofNat 64 r.1, p⟩), (d.succ, ⟨BitVec.ofNat 64 r.2.1, p⟩)] [] (if p then 0 else r.2.2))
      ∧ ∀ x y, x < 2 ^ (fpFmt single).width → y < 2 ^ (fpFmt single).width →
        let f := fpFmt single
        let u := f.val false x; let v := f.val false y
        let r := h x y
        f.NanElse [x, y] 0 (r.1, r.2.2) (if prod then f.Product .rn false u v (r.1, r.2.2) else f.Sum .rn false u v (r.1, r.2.2))
        ∧ match f.val false r.1 with
          | .fin s n e => ∃ fl : FFlags, f.Rounds .rn false false
              (((if prod then u.rat * v.rat else u.rat + v.rat) - (FVal.fin s n e).rat : ℚ) : ℝ) (r.2.1, fl)
          | _ => r.2.1 = f.zero false)

/-- R62, R63: a pattern of binary64 or binary32 that is a number is its own rounding, exactly, under every
attribute;
rounding to nearest returns a number of the format to which no other of the format is closer; rounding
down and up return the numbers on that side, toward zero the one not beyond. -/
def Obligations.Rounding : Prop :=
  (∀ (single : Bool) (rm : Rm) (x : Nat) (s : Bool) (m : Nat) (e : Int), x < 2 ^ (fpFmt single).width →
    (fpFmt single).val false x = .fin s m e → (fpFmt single).round rm false s m e = (x, 0))
  ∧ (∀ (single : Bool) (rm : Rm) (s : Bool) (m : Nat) (e : Int) (x : Nat) (fl : FFlags) (t : Bool) (n : Nat) (d : Int),
    0 < m → -2000 ≤ e → (fpFmt single).round rm false s m e = (x, fl) → (fpFmt single).val false x = .fin t n d →
    let v := scaledNum s m e
    let r := scaledNum t n d
    (fl &&& ofFlag = 0 → rm = .rn ∨ rm = .rna → ∀ (y : Nat) (t' : Bool) (n' : Nat) (d' : Int), y < 2 ^ (fpFmt single).width →
      (fpFmt single).val false y = .fin t' n' d' → |v - r| ≤ |v - scaledNum t' n' d'|)
    ∧ (rm = .rd → r ≤ v) ∧ (rm = .ru → v ≤ r) ∧ (rm = .rz → |r| ≤ |v|)
    ∧ (fl &&& nxFlag = 0 ↔ v = r))

/-- R83, R84: the quotient and the square root, each rounded once.
R83, R85: the approximating words. What each returns follows from its operand's bits alone. The special cases of each row are
exact; `rcp` and `rsq` are within their bound, here to 2 to −60 of a unit; an integral power of 2, and the logarithm of a power,
are exact; beyond 2 to 22, which is beyond 2 to 20 times π, `sin` and `cos` lie in [−1, 1]; no other flag is raised than the row
names. How the quotient's underflow is judged (log 104) and the flags and Z of the approximations (log 105) are the model's
choices.
R86: division and remainder by exact arithmetic, and their edge cases. -/
def Obligations.SpecialFunctionUnit : Prop :=
  (∀ (g : Guard) (m : FpMod) (ftz single : Bool) (d a b : Opnd),
    let f := fpFmt single
    let unary := fun (i : Instr) (p : Nat → FVal → Nat × FFlags → Prop) =>
      ∃ h : Nat → Nat × FFlags, Each i g (fpExact1 single d a h)
        ∧ ∀ x, x < 2 ^ f.width → f.NanElse [x] 0 (h x) (p x (f.val ftz x) (h x))
    (let f := fpFmt m.single;
      (∃ h : Rm → Nat → Nat → Nat × FFlags, Each (.div g m d a b) g (fpRound2 m d a b h)
        ∧ ∀ rm x y, rm ≠ .rdyn → x < 2 ^ f.width → y < 2 ^ f.width →
          f.NanElse [x, y] 0 (h rm x y) (f.Quotient rm m.ftz (f.val m.ftz x) (f.val m.ftz y) (h rm x y)))
      ∧ (∃ h : Rm → Nat → Nat × FFlags, Each (.sqrt g m d a) g (fpRound1 m d a h)
        ∧ ∀ rm x, rm ≠ .rdyn → x < 2 ^ f.width → f.NanElse [x] 0 (h rm x) (f.Root rm m.ftz (f.val m.ftz x) (h rm x))))
    ∧ unary (.rcp g ftz single d a) (fun _ v r => match v with
      | .fin s n e => let q : ℝ := ((1 / (FVal.fin s n e).rat : ℚ) : ℝ)
          if n = 0 then r = (f.inf s, dzFlag)
          else (2 ^ (f.bias + 1) ≤ |q| → r = (f.inf s, ofFlag))
            ∧ (|q| ≤ f.most → ∃ z, f.Within 1 0 q z ∧ r = (f.read ftz z, 0))
      | w => r = (f.zero w.sign, 0))
    ∧ unary (.rsq g ftz single d a) (fun _ v r => match v with
      | .fin s n e => if n = 0 then r = (f.inf s, dzFlag) else if s then r = (f.nan, nvFlag)
          else ∃ z, f.Within 1 0 (1 / Real.sqrt ((FVal.fin s n e).rat : ℚ)) z ∧ r = (f.read ftz z, 0)
      | w => r = if w.sign then (f.nan, nvFlag) else (f.zero false, 0))
    ∧ unary (.exp2 g ftz single d a) (fun _ v r => match v with
      | .fin s n e => let q := (FVal.fin s n e).rat
          (∀ k : ℤ, q = k → k ≤ f.bias → (f.emin ≤ k ∨ (ftz = false ∧ f.emin - f.fb ≤ k)) → f.holds false (2 ^ k) r.1 ∧ r.2 = 0)
          ∧ ((f.bias : ℚ) + 1 ≤ q → r = (f.inf false, ofFlag))
          ∧ (q < f.emin - f.fb → f.mag r.1 < 2 ^ f.fb ∧ r.2 = ufFlag)
          ∧ f.isNan r.1 = false ∧ r.2 &&& ~~~(ofFlag ||| ufFlag) = 0
      | w => r = (if w.sign then f.zero false else f.inf false, 0))
    ∧ unary (.log2 g ftz single d a) (fun _ v r => match v with
      | .fin s n e => if n = 0 then r = (f.inf true, dzFlag) else if s then r = (f.nan, nvFlag)
          else (∀ k : ℤ, (FVal.fin s n e).rat = 2 ^ k → f.holds (decide (k < 0)) k r.1) ∧ f.isNan r.1 = false ∧ r.2 = 0
      | w => r = if w.sign then (f.nan, nvFlag) else (f.inf false, 0))
    ∧ (∀ cosine : Bool, unary (if cosine then .cos g ftz single d a else .sin g ftz single d a) (fun _ v r => match v with
      | .fin s n e =>
          (n = 0 → if cosine then f.holds false 1 r.1 else r.1 = f.zero s)
          ∧ (2 ^ 22 ≤ |(FVal.fin s n e).rat| → ∃ t y, |y| ≤ 1 ∧ f.holds t y r.1) ∧ f.isNan r.1 = false ∧ r.2 = 0
      | _ => r = (f.nan, nvFlag))))
  ∧ (∀ (g : Guard) (u w : Bool) (d a b : Opnd),
    Each (.idiv g u w d a b) g (int2 w d a (.opnd b) (by2 u w (quotBits u)))
    ∧ Each (.irem g u w d a b) g (int2 w d a (.opnd b) (by2 u w (remBits u))))

/-- R83, R85: `exp2`, `log2`, `sin` and `cos` lie within two units in the last place of the exact value, here to 2 to −60 of
one, the unit being that of the value or of a number that differs from it by at most 2 to −60 of it: of a finite operand where
2 to it is no more than the largest finite number, of a positive one other than 1, and of one of magnitude at most 2 to 20
times π. A subnormal result is flushed with Z (log 105). -/
def Obligations.ApproximationsAreClose : Prop :=
  ∀ (g : Guard) (ftz single : Bool) (d a : Opnd),
    let f := fpFmt single
    let close := fun (i : Instr) (on : ℝ → Prop) (exact : ℝ → ℝ) =>
      ∃ h : Nat → Nat × FFlags, Each i g (fpExact1 single d a h)
        ∧ ∀ (x : Nat) (s : Bool) (n : Nat) (e : ℤ), x < 2 ^ f.width → f.val ftz x = .fin s n e →
          on ((FVal.fin s n e).rat : ℚ) →
          ∃ z, f.Within 2 (2 ^ (-60 : ℤ)) (exact ((FVal.fin s n e).rat : ℚ)) z ∧ (h x).1 = f.read ftz z
    close (.exp2 g ftz single d a) (fun q => (2 : ℝ) ^ q ≤ (f.most : ℚ)) (fun q => (2 : ℝ) ^ q)
    ∧ close (.log2 g ftz single d a) (fun q => 0 < q ∧ q ≠ 1) (fun q => Real.logb 2 q)
    ∧ close (.sin g ftz single d a) (fun q => q ≠ 0 ∧ |q| ≤ 2 ^ 20 * Real.pi) Real.sin
    ∧ close (.cos g ftz single d a) (fun q => |q| ≤ 2 ^ 20 * Real.pi) Real.cos

/-! ## Lane operations -/

/-- R77 to R80, R82, R379: shuffles, votes, matches and `first` among the active fibres of a tile.
R81: reductions and scans over the active fibres in ascending lane order: every fibre gets the value combined from all
of them, or from those up to its own, or from those before it and the identity. An FP chain starts from the lowest lane's
value and rounds each step to nearest even; all its flags go to every fibre. -/
def Obligations.LaneWords : Prop :=
  (∀ (g : Guard) (m : ShflMode) (w : Bool) (p q : Fin 8) (d a : Opnd) (b : Src),
    EachTile (.shfl g m d a b) g (fun active v =>
      let k := v.src .q64 b
      let l := v.fib.fid.lane; let tb := v.fib.tileBase; let n := v.fib.tile
      let source : Option Nat := match m with
        | .idx => some (tb + k.v.toNat % n)
        | .up => if (l : Int) - k.v.toNat < tb then none else some (l - k.v.toNat)
        | .down => if tb + n - 1 < l + k.v.toNat then none else some (l + k.v.toNat)
        | .xor => some (tb + ((l - tb) ^^^ (k.v.toNat % n)))
      let r := match source.bind fun j => active.find? fun u => u.fib.fid.lane == j with
        | some u => u.rd a
        | none => v.rd a
      if k.p then poisonTrap else one d r.v r.p)
    ∧ EachTile (.vote g (.any p) q) g (fun active _ => .preds [(p, active.any fun u => u.fib.pred q)])
    ∧ EachTile (.vote g (.all p) q) g (fun active _ => .preds [(p, active.all fun u => u.fib.pred q)])
    ∧ EachTile (.vote g (.bal d) q) g (fun active v => one d (laneMask active v.fib.tileBase fun u => u.fib.pred q) false)
    ∧ EachTile (.matchL g w d a) g (fun active v =>
        let x := fun (u : View) => u.rdAs (intRd w) a
        one d (laneMask active v.fib.tileBase fun u => if w then lo32 (x u).v == lo32 (x v).v else (x u).v == (x v).v)
          (active.any fun u => (x u).p))
    ∧ EachTile (.first g d a) g (fun active v =>
        one d ((active.map (·.rd a)).headD (v.rd a)).v ((active.map (·.rd a)).headD (v.rd a)).p))
  ∧ (∀ (g : Guard) (op : LaneOp) (excl u w : Bool) (d a : Opnd),
    let f := fpFmt w
    let cells := fun (rd : Rd) (active : List View) => active.map fun x => x.rdAs rd a
    let upTo := fun (active : List View) (v : View) => (active.findIdx fun x => x.fib.fid == v.fib.fid) + if excl then 0 else 1
    (op ≠ .fadd →
      EachTile (.redl g op u w d a) g (fun active _ =>
        let r := laneFold op u w (cells (intRd w) active)
        one d r.v r.p)
      ∧ EachTile (.scanl g op excl u w d a) g (fun active v =>
        let r := laneFold op u w ((cells (intRd w) active).take (upTo active v))
        one d r.v r.p))
    ∧ ∃ add : Nat → Nat → Nat × FFlags,
      (∀ x y, x < 2 ^ f.width → y < 2 ^ f.width →
        f.NanElse [x, y] 0 (add x y) (f.Sum .rn false (f.val false x) (f.val false y) (add x y)))
      ∧ EachTile (.redl g .fadd u w d a) g (fun active _ =>
        let l := cells (fpRd w) active
        fpOne d (partialSum add (l.map fun c => fpBits w c.v)) (l.any (·.p)))
      ∧ EachTile (.scanl g .fadd excl u w d a) g (fun active v =>
        let l := cells (fpRd w) active
        let i := upTo active v
        fpOne d (if i = 0 then f.zero true else (partialSum add ((l.take i).map fun c => fpBits w c.v)).1,
            (partialSum add ((if excl then l.dropLast else l).map fun c => fpBits w c.v)).2)
          ((l.take i).any (·.p))))

/-! ## Tiles and control -/

/-- R59, R379: the lowest guard-true lane of a tile gives it a new size, whatever the guards of the others; a size
that is not allowed traps 0x02 and poison 0x0E for the whole tile; with no guard-true fibre nothing changes.
R88: a tile decides once, and every participant follows, whatever its guard. -/
def Obligations.TileWords : Prop :=
  (∀ (g : Guard) (b : Src) (s : State), ∃ u t : State, exec (.tset g b) s = .next t
    ∧ Effects s u (fun v =>
        if tileUniform s.views v then
          (s.mates g v).head?.bind fun sup =>
            let x := sup.src .q64 b
            if x.p then some poisonTrap
            else if [2, 4, 8, 16, 32].contains x.v.toNat && decide (x.v.toNat ≤ sup.grp.width) then none
            else some v.operandTrap
        else some v.operandTrap)
    ∧ Sets u t (s.views.filter fun v => tileUniform s.views v && match (s.mates g v).head? with
        | some sup => let x := sup.src .q64 b
          !x.p && [2, 4, 8, 16, 32].contains x.v.toNat && decide (x.v.toNat ≤ sup.grp.width)
        | none => false)
      (fun v f => match (s.mates g v).head? with | some sup => { f with tile := (sup.src .q64 b).v.toNat } | none => f))
  ∧ (∀ (g : Guard) (p : Fin 8) (off : BitVec 16) (s : State),
    let acts := fun (v : View) => (s.mates g v).map fun u => u.fib.pred p
    let goes := fun (d : List Bool → Bool) => s.views.filter fun v => tileUniform s.views v && !v.trapped && d (acts v)
    let target := fun (v : View) => (v.run.hdr &&& ~~~0x3F) + off.signExtend 64 * 64
    let mixed := fun (v : View) => if tileUniform s.views v then none else some v.operandTrap
    (∃ u t : State, exec (.bany g p off) s = .next t ∧ Effects s u mixed ∧ Goes u t (goes fun l => l.any id) target)
    ∧ (∃ u t : State, exec (.ball g p off) s = .next t ∧ Effects s u mixed ∧ Goes u t (goes fun l => l.all id) target)
    ∧ (∃ u t : State, exec (.bnone g p off) s = .next t ∧ Effects s u mixed ∧ Goes u t (goes fun l => !l.any id) target))

/-- R31, R87, R89: branches, jumps, calls and returns. A misaligned register target or `lr` traps 0x03 with it in
`taddr`, poison 0x0E; a call first sets `lr` to the header after its clause. -/
def Obligations.BranchesAndCalls : Prop :=
  ∀ (g : Guard) (off : BitVec 16) (a : Opnd),
    let target := fun (v : View) => (v.run.hdr &&& ~~~0x3F) + off.signExtend 64 * 64
    let bad := fun (v : View) =>
      if (v.rd a).p then some poisonTrap
      else if (v.rd a).v.extractLsb' 0 6 ≠ 0 then some (.trap 0x03 0 (v.rd a).v) else none
    let next := fun (v : View) => v.run.hdr + 4 * BitVec.ofNat 64 (v.run.words.length + 1)
    Jumps (.bra g off) g (fun _ => none) target (fun _ f => f)
    ∧ Jumps (.jmpr g a) g bad (fun v => (v.rd a).v) (fun _ f => f)
    ∧ Jumps (.call g off) g (fun _ => none) target (fun v f => { f with lr := next v })
    ∧ Jumps (.callr g a) g bad (fun v => (v.rd a).v) (fun v f => { f with lr := next v })
    ∧ Jumps (.ret g) g (fun v => if v.fib.lr.extractLsb' 0 2 ≠ 0 then some (.trap 0x03 0 v.fib.lr) else none)
        (fun v => v.fib.lr) (fun _ f => f)

/-- R90, R92, R116, R384: `exit` marks the guard-true fibres that no earlier word trapped, `yld` lowers their issue
preference, `nop` does nothing.
R91, R105: `fork` by the guard-true fibres of a batch of one group, in ascending order of lane: the k-th of them takes the
k-th lowest free lane of the group, which becomes a fibre at the target, clean but for x0 and x1, the creator's mode and
tile, and its D names the lane; when no lane is left its D is −1. -/
def Obligations.ExitYieldNopFork : Prop :=
  (∀ (g : Guard) (s : State),
    (∃ t : State, exec (.exit g) s = .next t ∧ t.unbranched = s.unbranched ∧ (∀ f, t.goesTo f = s.goesTo f)
      ∧ ∀ f, t.exiting f = (s.exiting f || s.views.any fun v => v.guard g && !v.trapped && v.fib.fid == f))
    ∧ (∃ u t : State, exec (.yld g) s = .next t ∧ Sets s u (s.views.filter fun v => v.guard g && !v.trapped)
        (fun _ f => { f with yielded := true }) ∧ Goes u t [] fun _ => 0)
    ∧ Each (.nop g) g (fun _ => .eff [] [] 0))
  ∧ (∀ (g : Guard) (d a : Opnd) (off : BitVec 12) (s : State) (vs : List View) (team grp width : Nat),
    vs = s.views.filter (fun v => v.guard g && !v.trapped) → (vs.map (·.fib.fid)).Nodup →
    (∀ v ∈ vs, v.fib.fid.team = team ∧ v.fib.fid.grp = grp ∧ v.grp.width = width) → Opnd.own d = true →
    let free := (List.range width).filter fun l => (s.fib? ⟨team, grp, l⟩).isNone
    ∃ t : State, exec (.fork g d a off) s = .next t
      ∧ (∀ (k : Nat) (v : View), vs[k]? = some v →
        (free.length ≤ k → t.reg v.fib.fid d = ⟨0xFFFFFFFFFFFFFFFF, false⟩)
        ∧ (∀ l, free[k]? = some l → t.reg v.fib.fid d = ⟨BitVec.ofNat 64 l, false⟩
          ∧ ∃ f, t.fib? ⟨team, grp, l⟩ = some f
            ∧ f.pc = (v.run.hdr &&& ~~~0x3F) + off.signExtend 64 * 64
            ∧ (∀ n, NMap.get f.x n = if n = 0 then v.rd a else if n = 1 then ⟨BitVec.ofNat 64 v.fib.fid.lane, false⟩ else ⟨0, false⟩)
            ∧ f.preds = 0x80 ∧ f.lr = 0 ∧ f.flags = [] ∧ f.fflags = 0 ∧ f.tile = v.fib.tile ∧ f.frm = v.fib.frm ∧ f.tcause = 0
            ∧ f.taddr = 0 ∧ f.epc = 0 ∧ f.h = false ∧ f.kleft = 0 ∧ f.ksig = 0 ∧ f.hold = .free))
      ∧ t.fibres.length = s.fibres.length + min vs.length free.length
      ∧ t.mem = s.mem ∧ t.teams = s.teams ∧ t.pend = s.pend)

/-! ## Traps -/

/-- R313, R318: the sys word `trap` raises 0x1A with its detail. R309, R311, R312: `eret` takes a fibre with H = 1 out of its handler
to `epc`, and traps 0x01 with H = 0 and 0x03 at an `epc` that is not word-aligned.
R311, R312, R384, R385: a trap is delivered at the boundary once nothing of the fibre is outstanding: the cause,
address and return header are saved, H is set and the fibre continues at `tvec`; with no handler, or inside one, the
team begins to halt instead. -/
def Obligations.TrapsTakenAndLeft : Prop :=
  ((∀ (g : Guard) (c : BitVec 12), Each (.trap g c) g (fun _ => .trap 0x1A c.toNat 0))
  ∧ (∀ s : State, ∃ u w t, exec .eret s = .next t
    ∧ Effects s u (fun v => if !v.fib.h then some (.trap 0x01 0 v.run.hdr)
        else if v.fib.epc.extractLsb' 0 2 ≠ 0 then some (.trap 0x03 0 v.fib.epc) else none)
    ∧ Sets u w (s.views.filter fun v => v.fib.h && v.fib.epc.extractLsb' 0 2 == 0) (fun _ f => { f with h := false })
    ∧ Goes w t (s.views.filter fun v => v.fib.h && v.fib.epc.extractLsb' 0 2 == 0) (fun v => v.fib.epc)))
  ∧ (∀ (f : FibId) (s : State) (b : Fibre) (t : Team) (r : TrapRec), s.fib? f = some b → s.team? f.team = some t →
    b.trap = some r → b.busy = false → b.hold = .free → t.phase = .resident → t.halting = none →
    (∀ o ∈ s.pend, o.fib ≠ f) → ∃ u, exec (.trapDelivery f) s = .next u
      ∧ (t.tvec ≠ 0 → b.h = false → ∃ b', u.fib? f = some b' ∧ b'.pc = t.tvec ∧ b'.h = true ∧ b'.trap = none
          ∧ b'.tcause = BitVec.ofNat 64 (r.code % 256 + r.detail % 4096 * 2 ^ 20 + r.word % 16 * 2 ^ 32)
          ∧ b'.taddr = r.addr ∧ (r.epc = none → b'.epc = if r.took then r.next else r.hdr)
          ∧ (∀ e, r.epc = some e → b'.epc = e) ∧ b'.x = b.x ∧ b'.preds = b.preds ∧ b'.lr = b.lr ∧ b'.fflags = b.fflags
          ∧ b'.frm = b.frm)
      ∧ (t.tvec = 0 ∨ b.h = true → u.fib? f = some b ∧ (u.team? t.id).map (·.halting) = some (some (f, r)))
      ∧ u.mem = s.mem ∧ u.pend = s.pend)

/-! ## Memory words -/

/-- R17, R93, R95, R131, R146, R210, R229 to R231: each guard-true fibre issues the access that planning gave this
word, on the clause's SETA flag for a load and its SETB flag for a store; nothing is written yet.
R97, R143, R355: a prefetch brings each planned line that a pod's L1 may hold into it, asks for a sealed line of another
package on no flag, and changes nothing else that a program reads (a frame that waits to be filled with zeros may be filled
first, R237); a fence empties the pod's combining buffer and is issued on no flag.
R17, R136 to R139, R144, R147, R148: atomics and reductions with their operands as read now, the lines of a
write-back or an invalidation, and full/empty operations, are issued.
R298 to R303, R379: sibling words. A malformed token traps 0x02, a poisoned slot number 0x0E, and nothing is
issued for that fibre. -/
def Obligations.MemoryWordsIssue : Prop :=
  (∀ (g : Guard) (k : Sz) (o : Ord) (f : EFmt) (d : Opnd) (r : MemRef),
    (∀ m : LdMod, Tracks (.ld g m d r) g fun v => v.mem true
      (fun a => if m.fe then feOrd m.ord false a.addr else m.ord)
      (fun _ => .ld (some d) (Sz.bytes m.sz) m.sx m.fe m.clr m.rep))
    ∧ (∀ fe : Bool, Tracks (.st g k o fe d r) g fun v => v.mem false
      (fun a => if fe then feOrd o true a.addr else o)
      (fun _ => .st (Sz.bytes k) (v.rdAs (if k == .w then .int32 else .q64) d) (v.rd d.succ) fe))
    ∧ (∀ out : OutFmt, Tracks (.ldx g k o f out d r) g fun v => v.mem true (fun _ => o)
      (fun a => .ldx (some d) (Sz.bytes k) a.e f out a.scale))
    ∧ (∀ sx : Bool, Tracks (.lde g k o f sx d r) g fun v => v.mem true (fun _ => o)
      (fun a => .lde (some d) (Sz.bytes k) a.e f sx))
    ∧ Tracks (.ste g k o f d r) g fun v => v.mem false (fun _ => o)
      (fun a => .ste (Sz.bytes k) a.e f (v.rd d) (v.rd d.succ)))
  ∧ (∀ (g : Guard) (z : Sz) (rep : Bool) (r : MemRef) (o : Ord) (s : State),
    (∃ t : State, exec (.pld g z rep r) s = .next t ∧ t.fibres = s.fibres ∧ t.groups = s.groups ∧ t.teams = s.teams
      ∧ (∃ l, t.pend = s.pend ++ l ∧ ∀ x ∈ l, x.flag = 15 ∧ x.act.dests = [] ∧ ∃ a y, x.loc = .mem a y ∧ s.isRemote a = true)
      ∧ (s.fillWait = [] → t.mem = s.mem) ∧ t.sib = s.sib
      ∧ ∀ v ∈ s.views, v.guard g = true → ∀ a, v.planned = some a → ∀ dpa x, Loc.mem dpa x ∈ a.lines →
          PageAttr.bypass x dpa = false → x.sc = false → spaceOf dpa ≤ 1 → ∀ i, i < 4 →
          ∃ c, secFind (t.pod (podOf v.team.core)).l1 (dpa - dpa % 256 + 64 * i) none = some c ∧ c.covers 0xFF = true)
    ∧ Turns (.fence g o) g fun s v t =>
      let w := s.flushComb (podOf v.team.core)
      (t.pod (podOf v.team.core)).comb = [] ∧ t.pend = w.pend ++ [{ v.opOf w.fresh ⟨false, o, .nowhere, 0, .fence⟩ with flag := 15 }]
      ∧ t.fibres = w.fibres ∧ t.mem = w.mem)
  ∧ (∀ (g : Guard) (wide : Bool) (o : Ord) (op : AtomOp) (ps : Fin 8) (d a b c : Opnd) (z : Sz) (sc : Scope) (r : MemRef)
    (off : BitVec 12),
    let k := if wide then Rd.q64 else if op == .fadd || op == .fmin || op == .fmax then .fp32 else .int32
    Tracks (.atom g wide o op ps d a b c) g (fun v => v.mem false (fun _ => o)
      (fun _ => .atom (some d) ps op wide (v.rdAs k b) (v.rdAs k c)))
    ∧ Tracks (.red g wide o op a b) g (fun v => v.mem false (fun _ => o) (fun _ => .red op wide (v.rdAs k b)))
    ∧ Tracks (.cwb g z sc r) g (fun v => v.mem false (fun _ => ⟨.none, sc⟩) (fun x => .cwb false (lineBases sc x) x.e))
    ∧ Tracks (.cinv g z sc r) g (fun v => v.mem false (fun _ => ⟨.none, sc⟩) (fun x => .cwb true (lineBases sc x) x.e))
    ∧ Tracks (.feset g a b off) g (fun v => v.mem false (fun x => feOrd plainOrd true x.addr) (fun x => .fe true x.e))
    ∧ Tracks (.feclr g a b off) g (fun v => v.mem false (fun x => feOrd plainOrd true x.addr) (fun x => .fe false x.e))
    ∧ Tracks (.feqry g d a off) g (fun v => v.mem true (fun _ => plainOrd) (fun _ => .feqry (some d))))
  ∧ (∀ (g : Guard) (o : Ord) (d a b c : Opnd) (r : MemRef) (s : State),
    let badIf := fun (p : View → Bool) (e : View → WordRes) (v : View) =>
      if v.planned.isSome && p v then some (e v) else none
    let malformed := fun (x : Opnd) (v : View) =>
      (v.rd x).v.extractLsb' 41 23 != 0 || decide (4 < ((v.rd x).v.extractLsb' 36 3).toNat)
    Tracks (.sld g o d r) g (fun v => v.mem true (fun _ => o) (fun _ => .sld (some d) none))
    ∧ TracksAt s (.sldx g o d r c) g (badIf (fun v => (v.rd c).p) fun _ => poisonTrap)
      (fun v => v.mem true (fun _ => o) (fun _ => .sld (some d) (some ((v.rd c).v.toNat % 4))))
    ∧ (∀ quiet : Bool, TracksAt s (.sst g o quiet d a b c) g (badIf (malformed c) View.operandTrap)
      (fun v => v.mem false (fun _ => o) (fun _ => .sst (some d) quiet (v.rd b) (v.rd c))))
    ∧ (∀ (op : SrecOp) (force : Bool) (ps : Fin 8) (val : Option Opnd),
      TracksAt s (.srec g o op force ps d a b val) g (badIf (fun v => !force && malformed b v) View.operandTrap)
        (fun v => v.mem false (fun _ => o) (fun _ => .srec (some d) ps op force (v.rd b) (val.map v.rd)))))

/-! ## Matrix words -/

/-- R245, R247 to R249: the guard-true fibres sign in turn. A signer whose B it may read and whose arrival is allowed captures
its eight fragment registers, its scales and B's address with the phase, and its instruction is outstanding until the operation
ends; the last signer queues the operation on the core when all signed alike, else all of them trap 0x15. An arrival that R123
refuses, or at a register that all its members have left (R124), traps 0x15.
R17, R256, R257: accumulator moves are issued; a cell or row beyond the declared rows traps 0x06, an odd cell
without `.w` 0x0F, poison 0x0E. That `taddr` then holds the cell or row is the model's choice (log 21). -/
def Obligations.MatrixWordsIssue : Prop :=
  (∀ (g : Guard) (k : Fin 8) (m : MmaMod) (gb : Fin 3) (a : Fin 128) (b : Opnd) (c : Option (Fin 128)) (batched : Bool),
    Turns (if batched then .mmab g k m gb a b c else .mma g k m a b c) g fun s v u =>
      ∀ (p : Fibre) (t : Team) (x : KReg) (caps : List MtxCap), s.fib? v.fib.fid = some p → s.team? v.fib.fid.team = some t →
      NMap.get t.kregs k.val = x →
      let o := offsetOf (v.rd b).v
      let bad : Option WordRes :=
        if (v.rd b).p then some poisonTrap
        else if indexOf (v.rd b).v ≠ 0 then some (.trap 0x0C 0 (v.rd b).v)
        else if o % 64 ≠ 0 then some (.trap 0x0F 0 (v.rd b).v)
        else if v.team.spadSize < o + MmaMod.span m then some (.trap 0x06 0 (v.rd b).v)
        else if s.locked (podOf v.team.core) .fe ⟨v.team.part, none, v.team.id, o, o + MmaMod.span m⟩ then
          some (.trap 0x0D 0 (v.rd b).v)
        else none
      let refused := x.n ≤ x.left ∨ p.kleft.getLsbD k.val = true ∨ p.ksig.getLsbD k.val = true
      let cap : MtxCap :=
        { fib := v.fib.fid, k := k.val, batched := batched, gb := if batched then gb.val else 0, mods := m,
          frag := (List.range 8).map fun n => NMap.get v.fib.x (a.val + n), scale := c.map fun r => NMap.get v.fib.x r.val,
          baddr := o, op := s.fresh, hdr := v.run.hdr, next := v.run.next, word := v.run.pos + 1 }
      let alike := ∀ y ∈ caps, ∀ z ∈ caps, MtxCap.same y z = true
      let reg := (u.team? v.fib.fid.team).map fun y => NMap.get y.kregs k.val
      let signed := (u.fib? v.fib.fid).map fun f => f.ksig.getLsbD k.val
      caps = x.caps ++ [cap] →
      (∀ w, bad = some w → u = s.apply v w)
      ∧ (bad = none → refused → u = s.apply v (.trap 0x15 0 0))
      ∧ (bad = none → ¬ refused →
        (x.arr + 1 < x.n - x.left ∨ alike → ∃ q ∈ u.pend, q.id = s.fresh ∧ q.fib = v.fib.fid ∧ q.flag = v.run.setb
          ∧ q.isLoad = false ∧ q.act = .mma (MmaMod.span m) (512 * m.ar.toNat) (512 * m.ar.toNat + 64 * m.fmt.mmaRows))
        ∧ (x.arr + 1 < x.n - x.left → reg = some { x with arr := x.arr + 1, caps := caps } ∧ u.cores = s.cores
            ∧ signed = some true)
        ∧ (x.n - x.left ≤ x.arr + 1 → reg = some { x with arr := 0, caps := [] } ∧ signed = some false
          ∧ (alike → (u.core t.core).mtx = (s.core t.core).mtx ++ [⟨v.fib.fid.team, caps, false, []⟩])
          ∧ (¬ alike → u.cores = s.cores ∧ ∀ y ∈ caps, u.op? y.op = none ∧ ∀ q, u.fib? y.fib = some q → q.trap.isSome = true))))
  ∧ (∀ (g : Guard) (w : Bool) (d a b : Opnd) (off : BitVec 12) (s : State),
    let cell := fun (v : View) => (v.rd a).v.toNat + off.toNat
    let bad := fun (v : View) =>
      if (v.rd a).p then some poisonTrap
      else if !w && cell v % 2 == 1 then some (.trap 0x0F 0 (BitVec.ofNat 64 (cell v)))
      else if 64 * v.team.accRows < cell v + (if w then 1 else 2) then
        some (.trap 0x06 0 (BitVec.ofNat 64 (cell v)))
      else none
    let moved := fun (store : Bool) (v : View) =>
      match s.rowMove v a b store with
      | .error e => some e
      | .ok _ => none
    let move := fun (store : Bool) (act : Nat → OpAct) (v : View) =>
      match s.rowMove v a b store with
      | .error _ => none
      | .ok x => some (⟨false, plainOrd, x.2, (v.rd a).v, act x.1⟩ : Issue)
    TracksAt s (.mrd g w d a off) g bad (fun v => some ⟨true, plainOrd, .nowhere, 0, .mrd (some d) w (cell v)⟩)
    ∧ TracksAt s (.mwr g w a b off) g bad
      (fun v => some ⟨false, plainOrd, .nowhere, 0, .mwr w (cell v) (v.rdAs (if w then .int32 else .q64) b)⟩)
    ∧ TracksAt s (.mzero g a off) g
      (fun v => if (v.rd a).p then some poisonTrap else if v.team.accRows < cell v then some (.trap 0x06 0 (v.rd a).v) else none)
      (fun v => some ⟨false, plainOrd, .nowhere, 0, .mzero (v.rd a).v.toNat off.toNat⟩)
    ∧ TracksAt s (.msts g a b) g (moved true) (move true .msts)
    ∧ TracksAt s (.mlds g a b) g (moved false) (move false .mlds))

/-! ## Meeting -/

/-- R150, R151, R379: the guard-true fibres arrive at team barrier b in turn. A bad count traps 0x02, another count than the
open phase's 0x14, poison 0x0E. The arrival that completes the phase closes the barrier and lets every fibre that waited on it
go on; b0 counts the team's live fibres. `barw` waits, `barv` does not.
R132, R150, R152, R153: cluster barriers count the cluster's live fibres, grid barriers the clutch's, and only in a
co-resident clutch (else trap 0x1C); the guard-true fibres arrive in turn. An arrival releases: the fibre's dirty sectors are
written back; `.arv` does not wait; the end of a grid barrier's phase is an acquire of every pod whose fibres waited; `tsync`
has no effect of its own. -/
def Obligations.Barriers : Prop :=
  (∀ (g : Guard) (b : Fin 16) (n : Option Src) (wait : Bool),
    Turns (if wait then .barw g b n else .barv g b n) g fun s v u =>
      ∀ (p : Fibre) (t : Team), s.fib? v.fib.fid = some p → s.team? v.team.id = some t → v.fib.fid.team = v.team.id →
      let c : RegCell := match n with | some x => v.src .q64 x | none => ⟨0, false⟩
      let k := c.v.toNat
      let bar := NMap.get t.bars b.val
      let named := if bar.isOpen then bar.expect else if b.val = 0 then bar.expect else k
      let expect := if b.val = 0 then (s.teamFibres v.team.id).length else named
      let arr := if bar.isOpen then bar.arr + 1 else 1
      let now := (u.team? v.team.id).map fun y => NMap.get y.bars b.val
      (c.p = true → u = s.apply v poisonTrap)
      ∧ (c.p = false → b.val ≠ 0 → (k = 0 ∨ 1024 < k) → u = s.apply v v.operandTrap)
      ∧ (c.p = false → b.val ≠ 0 → 0 < k → k ≤ 1024 → bar.isOpen = true → k ≠ bar.expect → u = s.apply v (.trap 0x14 0 0))
      ∧ (c.p = false → (b.val = 0 ∨ (0 < k ∧ k ≤ 1024 ∧ (bar.isOpen = true → k = bar.expect))) →
          (arr < expect → now = some ⟨true, named, arr⟩
            ∧ u.fib? v.fib.fid = some (if wait then p.await (.bar b.val) else p) ∧ ∀ f, f ≠ v.fib.fid → u.fib? f = s.fib? f)
          ∧ (expect ≤ arr → now = some ⟨false, 0, 0⟩
            ∧ (p.hold = .free → p.waits = [] →
                u.fib? v.fib.fid = some { p with under := p.under.erase (.bar b.val) })
            ∧ (∀ f, f ≠ v.fib.fid → f.team = v.team.id → u.fib? f = (s.fib? f).map fun x =>
                if x.awaits (.bar b.val) then x.release (.bar b.val) else x)
            ∧ ∀ f, f.team ≠ v.team.id → u.fib? f = s.fib? f)
          ∧ u.mem = s.mem ∧ u.pend = s.pend))
  ∧ (∀ (g : Guard) (arv : Bool),
    let back := fun (s : State) (v : View) => s.writeBack (podOf v.team.core) false (· == v.fib.fid)
    EachTile (.tsync g) g (fun _ _ => .nothing)
    ∧ (∀ n : Fin 4, Turns (.cbar g arv n) g fun s v u =>
      ∀ (p : Fibre) (t : Team) (c : Cluster), s.fib? v.fib.fid = some p → s.team? v.fib.fid.team = some t →
      t.cluster = v.team.cluster → s.cluster? v.team.cluster = some c →
      let bar := NMap.get c.bars n.val
      let arr := if bar.isOpen then bar.arr + 1 else 1
      let live := s.liveIn (·.cluster == v.team.cluster)
      let now := (u.cluster? v.team.cluster).map fun y => NMap.get y.bars n.val
      u.pend = s.pend ∧ u.mem = (back s v).mem ∧ u.l2 = (back s v).l2 ∧ u.pods = (back s v).pods
      ∧ (arr < live → now = some ⟨true, bar.expect, arr⟩
          ∧ u.fib? v.fib.fid = some (if arv then p else p.await (.cbar n.val)) ∧ ∀ f, f ≠ v.fib.fid → u.fib? f = s.fib? f)
      ∧ (live ≤ arr → now = some ⟨false, 0, 0⟩
          ∧ (p.hold = .free → p.waits = [] → u.fib? v.fib.fid = some { p with under := p.under.erase (.cbar n.val) })
          ∧ ∀ y ∈ s.teams, y.cluster = v.team.cluster → ∀ f, f ≠ v.fib.fid → f.team = y.id →
              u.fib? f = (s.fib? f).map fun x => if x.awaits (.cbar n.val) then x.release (.cbar n.val) else x))
    ∧ (∀ n : Fin 2, Turns (.gbar g arv n) g fun s v u =>
      ∀ (p : Fibre) (t : Team) (c : Clutch), s.fib? v.fib.fid = some p → s.team? v.fib.fid.team = some t →
      t.clutch = v.team.clutch → s.clutch? v.team.clutch = some c →
      let bar := NMap.get c.bars n.val
      let arr := if bar.isOpen then bar.arr + 1 else 1
      let live := s.liveIn (·.clutch == v.team.clutch)
      let now := (u.clutch? v.team.clutch).map fun y => NMap.get y.bars n.val
      (c.coResident = false → u = s.apply v (.trap 0x1C 0 0))
      ∧ (c.coResident = true → u.pend = s.pend
        ∧ (arr < live → u.mem = (back s v).mem ∧ u.l2 = (back s v).l2 ∧ u.pods = (back s v).pods
            ∧ now = some ⟨true, bar.expect, arr⟩
            ∧ u.fib? v.fib.fid = some (if arv then p else p.await (.gbar n.val)) ∧ ∀ f, f ≠ v.fib.fid → u.fib? f = s.fib? f)
        ∧ (live ≤ arr → now = some ⟨false, 0, 0⟩
            ∧ (p.hold = .free → p.waits = [] → u.fib? v.fib.fid = some { p with under := p.under.erase (.gbar n.val) })
            ∧ ∀ y ∈ s.teams, y.clutch = v.team.clutch →
              (∀ f, f ≠ v.fib.fid → f.team = y.id →
                u.fib? f = (s.fib? f).map fun x => if x.awaits (.gbar n.val) then x.release (.gbar n.val) else x)
              ∧ ((∃ f ∈ s.fibres, f.fid.team = y.id ∧ f.awaits (.gbar n.val) = true) →
                ∀ b ∈ (u.pod (podOf y.core)).l1, b.dirty = true ∧ b.full = false)))))

/-- R122 to R124, R249, R379: the guard-true fibres act in turn. `kset` gives a register its count and forgets who left and
signed; an arrival is counted, waits with `kwait`, and the one that completes the phase lets every waiter go; `kleave` counts a
fibre out of each register its mask names, once, takes back its arrival and its capture, and may complete the phase. An arrival
that R123 refuses, or at a register that all its members have left (R124), traps 0x15. -/
def Obligations.ConvergenceRegisters : Prop :=
  ∀ (g : Guard) (k : Fin 8),
    let bit : Byte := 1 <<< k.val
    (∀ n : Src, Turns (.kset g k n) g fun s v u =>
      ∀ t : Team, s.team? v.team.id = some t →
      let x := NMap.get t.kregs k.val
      let c := v.src .q64 n
      (c.p = true → u = s.apply v poisonTrap)
      ∧ (c.p = false → (0 < x.arr ∨ c.v.toNat = 0 ∨ 1024 < c.v.toNat) → u = s.apply v (.trap 0x15 0 0))
      ∧ (c.p = false → x.arr = 0 → 0 < c.v.toNat → c.v.toNat ≤ 1024 →
          (u.team? v.team.id).map (fun y => NMap.get y.kregs k.val) = some { x with n := c.v.toNat, left := 0 }
          ∧ u.mem = s.mem ∧ u.pend = s.pend
          ∧ ∀ f, u.fib? f = (s.fib? f).map fun y =>
              if f.team = v.team.id then { y with kleft := y.kleft &&& ~~~bit, ksig := y.ksig &&& ~~~bit } else y))
    ∧ (∀ wait : Bool, Turns (if wait then .kwait g k else .ksign g k) g fun s v u =>
      ∀ (p : Fibre) (t : Team), s.fib? v.fib.fid = some p → s.team? v.fib.fid.team = some t →
      let x := NMap.get t.kregs k.val
      let refused := x.n ≤ x.left ∨ p.kleft.getLsbD k.val = true ∨ p.ksig.getLsbD k.val = true
      let reg := (u.team? v.fib.fid.team).map fun y => NMap.get y.kregs k.val
      (refused → u = s.apply v (.trap 0x15 0 0))
      ∧ (¬ refused →
          (x.arr + 1 < x.n - x.left → reg = some { x with arr := x.arr + 1 } ∧ u.pend = s.pend
              ∧ (u.fib? v.fib.fid).map (fun y => (y.awaits (.kwait k.val), y.ksig))
                = some (wait || p.awaits (.kwait k.val), p.ksig ||| bit) ∧ ∀ f, f ≠ v.fib.fid → u.fib? f = s.fib? f)
          ∧ (x.n - x.left ≤ x.arr + 1 → reg = some { x with arr := 0, caps := [] }
              ∧ (p.hold = .free → p.waits = [] → (u.fib? v.fib.fid).map (·.hold) = some .free)
              ∧ (∀ c cs, x.caps = c :: cs → (∀ y ∈ x.caps, MtxCap.same y c = true) →
                  (u.core t.core).mtx = (s.core t.core).mtx ++ [⟨v.fib.fid.team, x.caps, false, []⟩])
              ∧ (x.caps = [] → u.pend = s.pend ∧ ∀ f, f ≠ v.fib.fid → u.fib? f = (s.fib? f).map fun y =>
                  if f.team = v.fib.fid.team then { y.release (.kwait k.val) with ksig := y.ksig &&& ~~~bit } else y))))
    ∧ (∀ m : BitVec 8, Turns (.kleave g m) g fun s v u =>
      ∀ (p : Fibre) (t : Team), s.fib? v.fib.fid = some p → s.team? v.fib.fid.team = some t →
      let x := NMap.get t.kregs k.val
      let out := m.getLsbD k.val && !p.kleft.getLsbD k.val && x.n != 0
      let y : KReg := { x with left := x.left + 1, arr := if p.ksig.getLsbD k.val then x.arr - 1 else x.arr,
                               caps := x.caps.filter (·.fib != v.fib.fid) }
      let ends := y.n - y.left ≤ y.arr
      let reg := (u.team? v.fib.fid.team).map fun z => NMap.get z.kregs k.val
      (u.fib? v.fib.fid).map (·.kleft) = some (p.kleft ||| m)
      ∧ (out = false → reg = some x)
      ∧ (out = true → ¬ ends → reg = some y)
      ∧ (out = true → ends → reg = some { y with arr := 0, caps := [] }
        ∧ ∀ f b q, f.team = v.fib.fid.team → s.fib? f = some b → u.fib? f = some q →
          q.ksig.getLsbD k.val = false ∧ (b.hold = .kwait k.val → b.waits = [] → q.hold = .free)))

/-! ## Queues and slots -/

/-- R156, R157, R159, R379: the guard-true fibres push in turn, each eight clean registers that make a legal command: a full
queue answers true and takes nothing; else the command joins the queue with the team's next number, and the push is
outstanding. `gset` makes a slot pending, or decides a pending one: the lowest lane does.
R286, R316, R317, R441: queue control records, by the guard-true fibres in turn. A queue above 63 traps 0x02. That
`qctl.rd` passes the poison of A on is the model's choice (log 118). A write that breaks no limit of R286 lands, and word 3 ignores it; one that does is journaled and answers false. -/
def Obligations.PushAndSlots : Prop :=
  (∀ (g : Guard),
    (∀ (q : EQueue) (n : Fin 128) (pf : Fin 8) (slot : Option (Fin 16)), Turns (.push g q n pf slot) g fun s v u =>
      ∀ (p : Fibre) (t : Team), s.fib? v.fib.fid = some p → s.team? v.team.id = some t →
      let cs := (List.range 8).map fun k => NMap.get v.fib.x (n.val + k)
      let ws := cs.map (·.v)
      let legal := commandOk v.team.spadSize q ws
      let held := s.queue v.team.core q
      (cs.any (·.p) = true → u = s.apply v poisonTrap)
      ∧ (cs.any (·.p) = false → legal = false → u = s.apply v (.trap 0x16 0 0))
      ∧ (cs.any (·.p) = false → legal = true → 16 ≤ held.length → u = s.apply v (.preds [(pf, true)]))
      ∧ (cs.any (·.p) = false → legal = true → held.length < 16 →
          u.queue v.team.core q = held ++ [⟨q, v.team.part, v.team.id, v.team.clutch, v.fib.fid,
              v.team.core, slot.map (·.val), ws, NMap.get t.seqs (EQueue.code q), s.fresh, s.clock, none, none, false⟩]
          ∧ u.pend = s.pend ++ [v.opOf s.fresh ⟨false, plainOrd, .nowhere, 0, .push⟩]
          ∧ (u.team? v.team.id).map (fun y => NMap.get y.seqs (EQueue.code q)) = some (NMap.get t.seqs (EQueue.code q) + 1)
          ∧ u.fib? v.fib.fid = some (p.setPred pf false) ∧ u.mem = s.mem))
    ∧ (∀ (n : Fin 16) (c : Option (Fin 8)), Turns (.gset g n c) g fun s v u =>
      ∀ t : Team, s.team? v.team.id = some t →
        u.team? v.team.id = some { t with slots := match c with
          | none => t.slots.set n.val .pending
          | some a => if NMap.get t.slots n.val = .pending then t.slots.set n.val (if v.fib.pred a then .go else .drop)
              else t.slots }
        ∧ u.fibres = s.fibres ∧ u.mem = s.mem ∧ u.pend = s.pend))
  ∧ (∀ (g : Guard) (d a b : Opnd) (p : Fin 8) (w : BitVec 2),
    let held := fun (s : State) (v : View) (u : State) =>
      (v.team.rOpen = true → u = s.apply v (.trap 0x17 0 v.run.hdr))
      ∧ (v.team.rOpen = false → 63 < (v.rd a).v.toNat → u = s.apply v v.operandTrap)
    (Turns (.qctlRd g d a w) g fun s v u => held s v u ∧ (v.team.rOpen = false → (v.rd a).v.toNat ≤ 63 →
      u = s.apply v (.eff [(d, ⟨s.qWord v.team.part (v.rd a).v.toNat w.toNat, (v.rd a).p⟩)] [] 0)))
    ∧ (Turns (.qctlWr g p a b w) g fun s v u => held s v u ∧ ∀ f : Fibre, s.fib? v.fib.fid = some f →
      let q := (v.rd a).v.toNat
      let x := (v.rd b).v
      v.team.rOpen = false → q ≤ 63 →
      (s.queueTakes v.team.part q w x → u.qWord v.team.part q w.toNat = (if w = 3 then s.qWord v.team.part q 3 else x)
        ∧ (∀ r k, k < 3 → (r, k) ≠ (q, w.toNat) → u.qWord v.team.part r k = s.qWord v.team.part r k)
        ∧ u.fib? v.fib.fid = some (f.setPred p true) ∧ u.mem = s.mem)
      ∧ (¬ s.queueTakes v.team.part q w x → (∀ r k, u.qWord v.team.part r k = s.qWord v.team.part r k)
        ∧ u.fib? v.fib.fid = some (f.setPred p false)
        ∧ ((s.part v.team.part).configured = true → (u.part v.team.part).jtail = (s.part v.team.part).jtail + 1))))

/-! ## Tasks -/

/-- R259, R263, R265, R266: a future's words at its home, as each guard-true fibre in turn finds them. `fres` and `ffail` of a
pending future write its value and its final state, counting GEN, and send the registered join; of a final one they trap 0x10.
`freg` registers a join that it may reach on a pending future, sends one for a final one, and traps 0x11 on a registered one.
`fpoll` reads words 0 and 1.
R264, R265: a decrement at a join's home lowers PEND and keeps FAILED once set; the last one submits the card,
which stays where it is read, and clears PEND. -/
def Obligations.FuturesAndJoins : Prop :=
  (∀ (g : Guard) (d a b : Opnd),
    -- a fibre's future, where it may be reached, is a record in local memory whose home slice holds it
    let at_ := fun (s s1 : State) (v : View) (p : Fibre) (dpa : Nat) (x : PageAttr) =>
      s.taskPlace v (v.rd a).v 32 32 .a = (.ok (.mem dpa x), s1) ∧ s1.fib? v.fib.fid = some p ∧ (v.rd a).p = false
        ∧ x.bypass dpa = false ∧ s1.isRemote dpa = false ∧ dpa % 32 = 0
    let trapped := fun (v : View) (p : Fibre) (code : Nat) =>
      some (p.noteTrap ⟨code, v.run.pos + 1, 0, (v.rd a).v, v.run.hdr, v.run.next, false, none⟩)
    (∀ failed : Bool, Turns (if failed then .ffail g a b else .fres g a b) g fun s v u =>
      ((v.rd a).p = true → u = s.apply v poisonTrap)
      ∧ (∀ (n : Nat) (s1 : State), (v.rd a).p = false → s.taskPlace v (v.rd a).v 32 32 .a = (.error n, s1) →
          u = s1.apply v (.trap n 0 (v.rd a).v))
      ∧ ∀ (s1 : State) (p : Fibre) (dpa : Nat) (x : PageAttr) (w : Nat), at_ s s1 v p dpa x → s1.sliceOn (secBase dpa) = true →
        w = ((s1.taskRelease v).recWord v.agent (.mem dpa x) 0).1.1 →
        let done := w / 65536 * 65536 + (w / 256 % 256 + 1) % 256 * 256 + w % 256 / 4 * 4 + if failed then 3 else 1
        (w % 4 = 0 ∨ w % 4 = 2 → u.homeWord dpa = ⟨BitVec.ofNat 64 done, false⟩ ∧ u.homeWord (dpa + 8) = v.rd b
          ∧ u.fibres = s1.fibres ∧ (w % 4 = 0 → u.joins = s1.joins)
          ∧ (w % 4 = 2 → ∃ j : JoinDec, u.joins = s1.joins ++ [j] ∧ j.part = v.team.part ∧ j.failed = failed ∧ j.hold = .free))
        ∧ (w % 4 = 1 ∨ w % 4 = 3 → u.joins = s1.joins ∧ u.fib? v.fib.fid = trapped v p 0x10))
    ∧ (Turns (.freg g a b) g fun s v u =>
      ∀ (s1 : State) (p : Fibre) (dpa : Nat) (x : PageAttr), at_ s s1 v p dpa x → (v.rd b).p = false →
        (∀ (n : Nat) (s2 : State), s1.taskPlace v (v.rd b).v 32 32 .a = (.error n, s2) → u = s2.apply v (.trap n 0 (v.rd b).v))
        ∧ (∀ (l : Loc) (s2 : State) (w : Nat), s1.taskPlace v (v.rd b).v 32 32 .a = (.ok l, s2) → s2.fib? v.fib.fid = some p →
          s2.sliceOn (secBase dpa) = true → w = ((s2.taskRelease v).recWord v.agent (.mem dpa x) 0).1.1 →
          (w % 4 = 0 → u.homeWord dpa = ⟨BitVec.ofNat 64 (w + 2), false⟩ ∧ u.homeWord (dpa + 16) = ⟨(v.rd b).v, false⟩
            ∧ u.joins = s2.joins)
          ∧ (w % 4 = 1 ∨ w % 4 = 3 → u.joins = s2.joins ++ [⟨s2.fresh, v.team.part, (v.rd b).v, w % 4 == 3, .free⟩])
          ∧ (w % 4 = 2 → u.joins = s2.joins ∧ u.fib? v.fib.fid = trapped v p 0x11)))
    ∧ (Opnd.own d = true → Opnd.own d.succ = true → d.succ ≠ d → Turns (.fpoll g d a) g fun s v u =>
      ∀ (s1 : State) (p : Fibre) (dpa : Nat) (x : PageAttr), at_ s s1 v p dpa x →
        let r := s1.recWord v.agent (.mem dpa x) 0
        let q := r.2.recWord v.agent (.mem dpa x) 1
        u.reg v.fib.fid d = ⟨BitVec.ofNat 64 r.1.1, r.1.2⟩ ∧ u.reg v.fib.fid d.succ = ⟨BitVec.ofNat 64 q.1.1, q.1.2⟩
        ∧ u.joins = s1.joins
        ∧ ((r.1.1 % 4 = 1 ∨ r.1.1 % 4 = 3) → ∀ c ∈ (u.pod (podOf v.team.core)).l1, c.dirty = true ∧ c.full = false)))
  ∧ (∀ (n : Nat) (s s1 : State) (j : JoinDec) (dpa : Nat) (x : PageAttr) (ps : List Piece) (w : Nat),
    s.joins.find? (fun j => j.id == n) = some j → j.hold = .free → s.hubRecord j.part j.join 0xFF = (.ok (.mem dpa x) ps, s1) →
    x.bypass dpa = false → s1.isRemote dpa = false → dpa % 32 = 0 → s1.sliceOn (secBase dpa) = true →
    w = (s1.recWord (Agent.hub j.part) (.mem dpa x) 0).1.1 →
    let failed := j.failed || w / 2 ^ 32 % 2 == 1
    let word := fun (k : Nat) => (⟨BitVec.ofNat 64 (w / 2 ^ 33 * 2 ^ 33 + (if failed then 2 ^ 32 else 0) + k), false⟩ : RegCell)
    (1 < w % 2 ^ 32 → ∃ t : State, exec (.joinDecrement n) s = .next t ∧ t.homeWord dpa = word (w % 2 ^ 32 - 1)
      ∧ t.joins = s1.joins.filter (fun y => y.id != j.id) ∧ t.subs = s1.subs)
    ∧ (w % 2 ^ 32 = 1 → failed = false → ∀ (c : State) (card : Word) (ws : List Word) (s2 : State), c = (s1.recWord (Agent.hub j.part) (.mem dpa x) 0).2 →
        card = BitVec.ofNat 64 (c.recWord (Agent.hub j.part) (.mem dpa x) 1).1.1 →
        (c.recWord (Agent.hub j.part) (.mem dpa x) 1).2.readCard j.part card 0xFF = (.ok ws, none, s2) →
        s2.sliceOn (secBase dpa) = true → ∃ (t : State) (y : Sub), exec (.joinDecrement n) s = .next t ∧ t.homeWord dpa = word 0
          ∧ t.subs = s2.subs ++ [y] ∧ y.card = card ∧ y.part = j.part ∧ y.fib = none ∧ y.priv = false))

/-- R260 to R262: the guard-true fibres act in turn. `csub` sends the card to the front end at its clutch's priority and waits
for the answer; `spawn` appends a record to a target node's pool, or answers false when the team's share or the pool is used up,
and traps 0x1B when the card names no target in flight or another record size; `trig` writes back what the team's fibres wrote
and triggers the team. -/
def Obligations.TaskWords : Prop :=
  ∀ (g : Guard) (p : Fin 8) (a : Opnd) (b : Fin 128) (n : Fin 33),
    (Turns (.trig g) g fun s v u =>
      let w := s.writeBack (podOf v.team.core) false (·.team == v.team.id)
      ∀ t : Team, s.team? v.team.id = some t → u.team? v.team.id = some { t with triggered := true } ∧ u.fibres = s.fibres
        ∧ u.pend = s.pend ∧ u.clutches = s.clutches ∧ u.mem = w.mem ∧ u.l2 = w.l2 ∧ u.pods = w.pods)
    ∧ (Turns (.csub g p a) g fun s v u =>
      ∀ (s1 : State) (l : Loc) (c : Clutch) (f : Fibre), (v.rd a).p = false →
        s.taskPlace v (v.rd a).v 128 128 .r = (.ok l, s1) → s1.clutch? v.team.clutch = some c → s1.fib? v.fib.fid = some f →
        ∃ x : Sub, u.subs = s1.subs ++ [x] ∧ x.card = (v.rd a).v ∧ x.part = v.team.part
          ∧ x.fib = some (v.fib.fid, p) ∧ x.floor = c.prio ∧ x.priv = s1.teamPriv v.team ∧ x.hold = .free
          ∧ x.trap.code = 0x1B ∧ u.fib? v.fib.fid = some (f.await (.answer x.id)))
    ∧ (Turns (.spawn g p a b n) g fun s v u =>
      ∀ (s1 : State) (l : Loc) (c : Clutch) (t : Team) (f : Fibre), (v.rd a).p = false →
        ((List.range n.val).any fun k => (NMap.get v.fib.x (b.val + k)).p) = false →
        s.taskPlace v (v.rd a).v 128 128 .r = (.ok l, s1) → s1.clutch? v.team.clutch = some c →
        s1.team? v.team.id = some t → s1.fib? v.fib.fid = some f →
        let refused := u.clutches = s1.clutches
          ∧ u.fib? v.fib.fid = some (f.noteTrap ⟨0x1B, v.run.pos + 1, 0, (v.rd a).v, v.run.hdr, v.run.next, false, none⟩)
        (c.targets.contains (v.rd a).v = false ∨ s1.nodeAt v.team.part (v.rd a).v = none → refused)
        ∧ (∀ node : Clutch, c.targets.contains (v.rd a).v = true → s1.nodeAt v.team.part (v.rd a).v = some node →
          (8 * n.val ≠ node.rsize → refused)
          ∧ (8 * n.val = node.rsize → (c.smax ≤ t.appended ∨ node.count ≤ node.pool) →
              u.clutches = s1.clutches ∧ u.fib? v.fib.fid = some (f.setPred p false))
          ∧ (8 * n.val = node.rsize → t.appended < c.smax → node.pool < node.count →
            ∀ (dpa : Nat) (x : PageAttr) (ps : List Piece) (s2 : State),
            (s1.taskRelease v).hubReach v.team.part (node.slotAddr node.poolTail) node.rsize 8 .w .store .store c.queue
              = (.ok (.mem dpa x) ps, s2) →
              (u.clutch? node.id).map (fun y => (y.pool, y.undealt, y.poolTail))
                  = (s1.clutch? node.id).map (fun y => (y.pool + 1, y.undealt + 1, (y.poolTail + 1) % y.count))
              ∧ (u.team? v.team.id).map (·.appended) = some (t.appended + 1)
              ∧ u.fib? v.fib.fid = some (f.setPred p true))))

/-! ## Regions, breaks and privileged words -/

/-- R304, R305, R307, R370: the batch's fibres arrive in turn. `regb` traps 0x17 in a clutch without a checkpoint area; else
the fibre waits at the point, which is reached when every live fibre of the team waits at one of its kind.
R305, R307, R308, R365, R367 to R370: at a team point whose team has nothing outstanding, the checks on the instance's
results have completed, its buffered sectors go to the pod's L1 and the region closes; `regb` then, in a row of its own, makes
the checkpoint and opens the next instance, `regc` lets the fibres go on, the last fibre's end ends the team, and a split opens
the next instance where the fibres stand. -/
def Obligations.RegionsOpenAndCommit : Prop :=
  (∀ (n : Fin 17) (tag : BitVec 12),
    let arrives := fun (s : State) (v : View) (u : State) (kind : Hold → Bool) (h : Hold) (k : Point) =>
      ∀ (p : Fibre) (t : Team), s.fib? v.fib.fid = some p → s.team? v.team.id = some t → v.fib.fid.team = v.team.id →
        p.hold = .free → p.waits = [] →
        u.fib? v.fib.fid = some { p with hold := h } ∧ (∀ f, f ≠ v.fib.fid → u.fib? f = s.fib? f) ∧ u.mem = s.mem ∧ u.pend = s.pend
        ∧ ((∀ f ∈ s.teamFibres v.team.id, f.fid = v.fib.fid ∨ kind f.hold = true) → t.point = .none →
            (u.team? v.team.id).map (·.point) = some k)
        ∧ ((∃ f ∈ s.teamFibres v.team.id, f.fid ≠ v.fib.fid ∧ kind f.hold = false) → u.teams = s.teams)
    Turns (.regb n tag) noGuard (fun s v u => ∀ c : Clutch, s.clutch? v.team.clutch = some c →
      (c.ckpt = false → u = s.apply v (.trap 0x17 0 v.run.hdr))
      ∧ (c.ckpt = true → arrives s v u Hold.isRegb (.regb (8 * n.val) tag.toNat) .regb))
    ∧ Turns .regc noGuard (fun s v u => arrives s v u (fun h => h == .regc) .regc .regc))
  ∧ (∀ (s s1 : State) (t : Team) (l : Loc) (ps : List Piece), s.team? t.id = some t → s.pointReady t = true →
    let opened := fun (u : State) => (u.team? t.id).map fun y => (y.rOpen, y.inst, y.replay, y.point)
    let closed := fun (u : State) => t.rOpen = true →
      (∀ b ∈ t.rbuf, ∃ x, secFind (u.pod (podOf t.core)).l1 b.base none = some x ∧ b.en &&& ~~~x.en = 0)
      ∧ (u.team? t.id).map (·.rbuf) = some [] ∧ ∀ f ∈ u.fibres, f.fid.team = t.id → f.unproven = []
    (t.point = .regc → ∃ u : State, exec (.regionCommit t.id) s = .next u ∧ closed u
      ∧ (u.team? t.id).map (fun y => (y.rOpen, y.point)) = some (false, .none)
      ∧ ∀ f, (u.fib? f).map (fun x => { x with unproven := [] }) = (s.fib? f).map fun x =>
          { (if f.team = t.id && (x.hold.isRegb || x.hold == .regc) then x.release x.hold else x) with unproven := [] })
    ∧ (t.point = .regb → s.heldByCmd t = true → exec (.regionCommit t.id) s = .next s)
    ∧ (t.point = .regb → s.heldByCmd t = false → t.writing = false → ∃ u : State, exec (.regionCommit t.id) s = .next u
      ∧ closed u ∧ (u.team? t.id).map (fun y => (y.rOpen, y.point, y.writing)) = some (false, .regb, true)
      ∧ ∀ f, (u.fib? f).map (·.hold) = (s.fib? f).map (·.hold))
    ∧ (t.point = .regb → s.heldByCmd t = false → t.writing = true → s.reachHalf t = (.ok l ps, s1) → ∃ (u : State) (k : Ckpt),
      exec (.regionCommit t.id) s = .next u ∧ opened u = some (true, t.inst + 1, 0, .none)
      ∧ (u.team? t.id).map (·.ckpt) = some (some k)
      ∧ k.kregs = t.kregs ∧ k.slots = t.slots ∧ k.bars = t.bars ∧ k.prio = t.prio ∧ k.ustate = t.ustate ∧ k.tvec = t.tvec
      ∧ k.fibres = (s.teamFibres t.id).map fun f => (f.saved f.regbCount).release f.hold)
    ∧ (t.point = .ending → ∃ u : State, exec (.regionCommit t.id) s = .next u ∧ (u.team? t.id).map (·.phase) = some .ended
      ∧ u.teamFibres t.id = [])
    ∧ (t.point = .split → s.teamFibres t.id ≠ [] → s.reachHalf t = (.ok l ps, s1) → ∃ (u : State) (k : Ckpt),
      exec (.regionCommit t.id) s = .next u ∧ opened u = some (true, t.inst + 1, 0, .none)
      ∧ (u.team? t.id).map (fun y => (y.tag, y.ckpt)) = some (t.tag, some k)
      ∧ k.fibres = (s.teamFibres t.id).map fun f => f.saved t.regs))

/-- R313, R317: the guard-true fibres break in turn. `brk` traps 0x17 in an open region; else its clause ends for the fibre,
the team's first break is journaled and the cluster is to be saved. That one record stands for a held team's breaks, and that
the clause ends for the fibre, are the model's readings (log 119).
R314 to R317, R356: privileged words trap 0x17 in an open region. Elsewhere `tlbi` drops from every pod's and
die's cache the partition's leaves that it names and no other, and `btinv` the descriptors. -/
def Obligations.BreaksAndPrivilege : Prop :=
  (∀ (g : Guard) (c : BitVec 12), Turns (.brk g c) g fun s v u =>
    ∀ (t : Team) (r : ClauseRun), s.team? v.team.id = some t → s.run? v.run.id = some r →
    (v.team.rOpen = true → u = s.apply v (.trap 0x17 0 v.run.hdr))
    ∧ (v.team.rOpen = false →
      (u.run? v.run.id).map (fun r => r.stopped.contains v.fib.fid) = some true
      ∧ u.fibres = s.fibres ∧ u.pend = s.pend
      ∧ (t.brkRec = none → (u.team? v.team.id).map (·.brkRec) = some (some (s.part t.part).jtail)
        ∧ (∀ x, u.cluster? t.cluster = some x → x.preempt = true)
        ∧ ((s.part t.part).configured = true → (u.part t.part).jtail = (s.part t.part).jtail + 1))
      ∧ (t.brkRec ≠ none → u.teams = s.teams ∧ u.clusters = s.clusters)))
  ∧ (∀ (g : Guard) (a b : Opnd),
    let drops := fun (i : Instr) (p : View → Nat → Nat → Tlb → Bool) => Turns i g fun s v u =>
      let q := p v (v.rd a).v.toNat (v.rd b).v.toNat
      (v.team.rOpen = true → u = s.apply v (.trap 0x17 0 v.run.hdr))
      ∧ (v.team.rOpen = false → (∀ k, (u.pod k).tlb = (s.pod k).tlb.filter fun e => !q e)
        ∧ (∀ k, ∀ e ∈ NMap.get u.dtlb k, q e = false) ∧ (∀ k, ∀ e ∈ NMap.get s.dtlb k, q e = false → e ∈ NMap.get u.dtlb k)
        ∧ { u with pods := [], dtlb := [] }.unbranched = { s with pods := [], dtlb := [] }.unbranched)
    let forgets := fun (i : Instr) (p : Nat → Nat → Nat → Bool) => Turns i g fun s v u =>
      let q := p (v.rd a).v.toNat (v.rd b).v.toNat
      (v.team.rOpen = true → u = s.apply v (.trap 0x17 0 v.run.hdr))
      ∧ (v.team.rOpen = false → u.fibres = s.fibres ∧ (s.fillWait = [] → u.mem = s.mem)
        ∧ ∀ k, NMap.find (u.part v.team.part).dcache k = if q k then none else NMap.find (s.part v.team.part).dcache k)
    drops (.tlbiVa g a b) (fun v x y e => e.part == v.team.part && decide (e.page < x + y) && decide (x < e.page + e.pageSize)
        && decide (0 < y))
    ∧ drops (.tlbiFrame g a b) (fun v x y e => e.part == v.team.part && e.reaches x y)
    ∧ drops (.tlbiAll g) (fun v _ _ e => e.part == v.team.part)
    ∧ forgets (.btinv g a b) (fun x y k => decide (x ≤ k) && decide (k < x + y))
    ∧ forgets (.btinvAll g) (fun _ _ _ => true))

/-! ## Issue -/

/-- R10 to R16, R108, R115, R210, R369, R384: a clause that fetches and decodes starts for a standing fibre whose WAIT
holds, on a free unit, when its accesses were planned: the fibre is busy, its clause temporaries are clean and its flags
rise. In an open region a splitting clause starts by REGION_SPLIT, once nothing of the team is under way, and closes the
region first. A fetch or decode failure becomes the fibre's trap at the header.
R116, R118, R119: a batch ready for 4,096 cycles without a start is starved; a free entry, or its group's own, goes to the
set that has been parked longest, and after 65,536 cycles it takes the entry of its group's longest-running path, once none of
the path's fibres is within a clause. Which of several is the longest is the model's choice (log 193). -/
def Obligations.ClausesStart : Prop :=
  (∀ (f : FibId) (pipe : Nat) (split : Bool) (s s1 s3 : State) (b : Fibre) (t : Team), s.fibres = [b] → b.fid = f →
    s.pend = [] → s.team? f.team = some t → (s.grp? f.team f.grp).isSome = true → b.stands = true →
    s.teamIssues t = true →
    (∀ (c : Clause) (plan : List Access), s.clauseAt t b.pc = (.ok c, s1) → s.unitFor t.core c.h.cls = some pipe →
      b.waited c.h.wait = true → b.room c = true → s.mtxRoom t c 1 = true → (split = true → s.pointReady t = true) →
      (s1.oneRun f t b.pc c pipe split).2.planBatch (s1.oneRun f t b.pc c pipe split).1 c [f] = ⟨[f], plan, s3⟩ →
      (t.rOpen && s3.needsSplit t c ([f].filterMap (s3.view? (s1.oneRun f t b.pc c pipe split).1)) plan) = split →
      ∃ (u : State) (r : ClauseRun) (x : Fibre),
        exec (if split then .regionSplit [f] pipe else .clauseStart [f] pipe) s = .next u
        ∧ u.running = s.running ++ [r] ∧ r.hdr = b.pc ∧ r.words = c.words ∧ r.cls = c.h.cls ∧ r.fibs = [f] ∧ r.pos = 0
        ∧ r.unit = pipe ∧ r.core = t.core ∧ r.branch = [] ∧ r.exits = [] ∧ r.plan = plan ∧ r.split = split
        ∧ u.fib? f = some x ∧ x.busy = true ∧ x.t = [] ∧ x.pc = b.pc ∧ x.x = b.x ∧ x.preds = b.preds ∧ x.lastStart = s.clock
        ∧ (∀ k, k < 12 → NMap.get x.flags k = NMap.get b.flags k + c.adds k) ∧ (s.fillWait = [] → u.mem = s.mem)
        ∧ (split = true → (u.team? t.id).map (·.rOpen) = some false))
    ∧ (∀ (code k : Nat) (addr : Word), s.clauseAt t b.pc = (.trap code k addr, s1) → ∃ u : State,
        exec (.clauseStart [f] pipe) s = .next u
        ∧ u.fib? f = some { b.noteTrap ⟨code, k, 0, addr, b.pc, b.pc + 4, false, none⟩ with exec := 0, member := false }
        ∧ u.running = s.running))
  ∧ ((∀ (fs : List FibId) (s : State), (∀ f ∈ fs, ∃ b t, s.fib? f = some b ∧ s.team? f.team = some t
      ∧ b.lastStart + 4096 ≤ s.clock ∧ (s.readyAt t b).isSome = true) →
    ∃ t : State, exec (.issueStarvation fs) s = .next t ∧ { t with fibres := [] } = { s with fibres := [] }
      ∧ ∀ f, t.fib? f = (s.fib? f).map fun b => if fs.contains f then { b with starved := true } else b)
  ∧ (∀ (core : Nat) (s : State) (b : Fibre) (t : Team), b ∈ s.fibres → b.parked = true → s.team? b.fid.team = some t →
      t.core = core → t.phase = .resident → ∃ x ∈ s.fibres, s.longestParked core = some x ∧ x.parked = true
        ∧ x.entryAt ≤ b.entryAt)
  ∧ (∀ (core : Nat) (s : State) (b : Fibre), s.longestParked core = some b → (s.fibres.map (·.fid)).Nodup →
    let set := fun (x : Fibre) => x.fid.team == b.fid.team && x.fid.grp == b.fid.grp && x.pc == b.pc && x.parked
    let s1 := s.unpark b.fid.team b.fid.grp b.pc
    let mates := s.grpFibres b.fid.team b.fid.grp
    let path := fun (y : Fibre) => mates.filter fun z => !z.parked && s.pathPc z == s.pathPc y
    -- an execution that a tile's new fibre loosens forms again
    let bare := fun (x : Fibre) => { x with exec := 0, member := false }
    s1.fibres.map bare = s.fibres.map (fun x => bare (if set x then { x with parked := false, entryAt := s.clock } else x))
    ∧ { s1 with fibres := [] } = { s with fibres := [] }
    ∧ exec (.pathUnpark core) s = .next (if s1.poolUsed core ≤ 48 ∨ s1.poolUsed core = s.poolUsed core then s1 else s)
    ∧ (s.clock < b.entryAt + 65536 → exec (.parkSteal core) s = .next s)
    ∧ (b.entryAt + 65536 ≤ s.clock → b.parked = true → (∀ y ∈ mates, y.parked = false → y.pc ≠ b.pc) →
      (∃ y ∈ mates, y.parked = false) → ∃ y ∈ mates, y.parked = false ∧ (∀ z ∈ mates, z.parked = false → y.entryAt ≤ z.entryAt)
        ∧ ((∃ z ∈ path y, z.busy = true) → exec (.parkSteal core) s = .next s)
        ∧ ((∀ z ∈ path y, z.busy = false) → ∃ t : State, exec (.parkSteal core) s = .next t
          ∧ (∀ z ∈ path y, (t.fib? z.fid).map (·.parked) = some true)
          ∧ ∀ x ∈ mates, x.pc = b.pc → (t.fib? x.fid).map (·.parked) = some false))))

/-! ## Operations are performed -/

/-- R17, R95, R178, R181, R183, R380: a load that may be performed completes: its register holds the bytes of its
place, extended, with their poison, and no byte changes. In memory the bytes are those its pod sees.
R17, R95, R132, R179, R380: a clean store that may be performed completes: its bytes are those of its registers,
whole words lose their poison, every other byte reads as before, and no register changes. -/
def Obligations.LoadsAndStoresComplete : Prop :=
  (∀ (n k : Nat) (s : State) (o : MemOp) (r : Fin 128) (sx clr : Bool) (a : Nat), s.performs n o → o.got = [] → o.served = [] →
    (s.fib? o.fib).isSome = true → (k = 1 ∨ k = 2 ∨ k = 4 ∨ k = 8) → a % k = 0 →
    o.act = .ld (some (.x r)) k sx false clr false → o.ord.order = .none →
    let value := fun (m : Nat) => if sx then (BitVec.ofNat (8 * k) m).signExtend 64 else BitVec.ofNat 64 m
    (∀ (t : Nat) (x : Team), o.loc = .spad t a → s.team? t = some x → ∃ u : State, exec (.trackedComplete n) s = .next u.sweep
      ∧ u.reg o.fib (.x r) = ⟨value (leNat ((List.range k).map fun i => (s.spadByte t (a + i)).1)), (s.spadByte t a).2⟩
      ∧ u.op? n = none ∧ u.mem = s.mem ∧ u.pods = s.pods ∧ (∀ t' b, u.spadByte t' b = s.spadByte t' b)
      ∧ (∀ f, f ≠ o.fib → u.fib? f = s.fib? f) ∧ u.groups = s.groups)
    ∧ (∀ x : PageAttr, s.plainPlace o a x → s.reps = [] → ∃ u : State, exec (.trackedComplete n) s = .next u.sweep
      ∧ u.reg o.fib (.x r) = ⟨value (leNat ((List.range k).map fun i => (s.sees (podOf o.core) (a + i)).1)),
          (s.sees (podOf o.core) a).2⟩
      ∧ u.op? n = none ∧ (s.fillWait = [] → u.mem = s.mem
          ∧ ((∀ c, secFind (s.pod (podOf o.core)).l1 (secBase a) none = some c → c.full = true) →
            ∀ b, u.sees (podOf o.core) b = s.sees (podOf o.core) b))
      ∧ (∀ t' b, u.spadByte t' b = s.spadByte t' b) ∧ (∀ f, f ≠ o.fib → u.fib? f = s.fib? f) ∧ u.groups = s.groups))
  ∧ (∀ (n k : Nat) (s : State) (o : MemOp) (lo hi : RegCell) (a : Nat), s.performs n o → o.got = [] →
    (k = 1 ∨ k = 2 ∨ k = 4 ∨ k = 8 ∨ k = 16) → a % k = 0 → lo.p = false → (k = 16 → hi.p = false) →
    o.act = .st k lo hi false → o.ord.order = .none →
    let new := fun (b : Nat) => if b - a < 8 then lo.v.extractLsb' (8 * (b - a)) 8 else hi.v.extractLsb' (8 * (b - a - 8)) 8
    let inside := fun (b : Nat) => decide (a ≤ b) && decide (b < a + k)
    let bad := fun (b : Nat) (p : Bool) => if decide (8 ≤ k) && inside b then false else p
    (∀ (t : Nat) (x : Team), o.loc = .spad t a → s.team? t = some x → ∃ u : State, exec (.trackedComplete n) s = .next u.sweep
      ∧ (∀ t' b, u.spadByte t' b = if t' = t ∧ inside b = true then (new b, bad b (s.spadByte t b).2) else s.spadByte t' b)
      ∧ u.op? n = none ∧ u.mem = s.mem ∧ u.pods = s.pods ∧ s.sameFibres u ∧ u.groups = s.groups)
    ∧ (∀ x : PageAttr, s.plainPlace o a x → ∃ u : State, exec (.trackedComplete n) s = .next u.sweep
      ∧ (∀ b, inside b = true → u.sees (podOf o.core) b = (new b, bad b (s.sees (podOf o.core) b).2))
      ∧ (∀ pod b, pod ≠ podOf o.core ∨ inside b = false → u.sees pod b = s.sees pod b)
      ∧ u.op? n = none ∧ u.mem = s.mem ∧ u.teams = s.teams ∧ s.sameFibres u ∧ u.groups = s.groups))

/-- R136, R137, R140 to R142, R189, R190: the lanes of one atomic at one place, on clean operands, are applied one after another
in ascending order: each returns the old value its own step finds, and its success predicate where the operation has one; the
place is left the last one's new value. The place is the scratchpad, the pod's L1 at a scope within the cluster, or the home at a
wider one.
R138, R141, R142, R190: an entry of a combining buffer is applied at the home as one operation: integer operands one after
another, which is the result in every order; FP sums of operands combined two by two, in an order that no rule fixes (log 8). Its
reductions have then completed, and the entry is gone. -/
def Obligations.AtomicsComplete : Prop :=
  (∀ (n : Nat) (s : State) (o : MemOp) (os : List MemOp) (r : Fin 128) (ps : Fin 8) (op : AtomOp) (wide : Bool),
    s.performs n o → s.atomMates o = os → (os.map (·.fib)).Nodup →
    (∀ q ∈ os, s.unblocked q = true ∧ q.ord.order = .none ∧ q.core = o.core ∧ (s.fib? q.fib).isSome = true
      ∧ ∃ b c : RegCell, q.act = .atom (some (.x r)) ps op wide b c ∧ b.p = false ∧ c.p = false) →
    let k := if wide then 8 else 4
    -- what the place holds once the first `i` lanes have acted on `m`
    let after := fun (m i : Nat) => atomChain op wide m ((os.take i).map fun q => q.act.operands)
    let lanes := fun (m : Nat) (u : State) => ∀ (i : Nat) (q : MemOp) (f : Fibre), os[i]? = some q → s.fib? q.fib = some f →
      u.reg q.fib (.x r) = ⟨BitVec.ofNat 64 (after m i), false⟩ ∧ u.op? q.id = none
      ∧ (u.fib? q.fib).map (·.pred ps) = some (if op.hasSuccess then
          ps == 7 || (atomNew op wide (after m i) q.act.operands.1 q.act.operands.2).2 else f.pred ps)
    (∀ (t a : Nat) (x : Team), o.loc = .spad t a → s.team? t = some x → a % k = 0 → x.spad.anyPois a k = false →
      let m := x.spad.nat a k
      ∃ u : State, exec (.trackedComplete n) s = .next u.sweep ∧ lanes m u
      ∧ (u.team? t).map (fun y => y.spad.nat a k) = some (after m os.length) ∧ u.mem = s.mem
      ∧ (∀ t' e, t' ≠ t ∨ e < a ∨ a + k ≤ e → (u.spadByte t' e).1 = (s.spadByte t' e).1))
    ∧ (∀ (a : Nat) (x : PageAttr), s.plainPlace o a x → x.far = false → (∀ q ∈ os, Scope.wide q.ord.scope = false) → a % k = 0 →
      (s.podNat (podOf o.core) a k).2 = false →
      let m := (s.podNat (podOf o.core) a k).1
      ∃ u : State, exec (.trackedComplete n) s = .next u.sweep ∧ lanes m u
      ∧ u.podNat (podOf o.core) a k = (after m os.length, false))
    ∧ (∀ (a : Nat) (x : PageAttr), s.plainPlace o a x → (∀ q ∈ os, Scope.wide q.ord.scope = true) → a % k = 0 →
      s.sliceOn (secBase a) = true →
      -- what the pod itself has written of the sector reaches the home first
      let m := (s.podDrop (podOf o.core) (secBase a)).homeNat a k
      m.2 = false → ∃ u : State, exec (.trackedComplete n) s = .next u.sweep ∧ lanes m.1 u
      ∧ u.homeNat a k = (after m.1 os.length, false)))
  ∧ (∀ (pod n : Nat) (s : State) (c : Comb) (o : MemOp) (os : List MemOp) (x : PageAttr), (s.pod pod).comb[n]? = some c →
    c.ops.filterMap s.op? = o :: os → (∀ q ∈ o :: os, s.lockedOut q = false ∧ q.loc = .mem c.addr x ∧ q.ord.order = .none
      ∧ podOf q.core = pod ∧ ∃ b : RegCell, q.act = .red c.op c.wide b ∧ b.p = false) →
    c.op.hasSuccess = false → s.plainPlace o c.addr x → s.sliceOn (secBase c.addr) = true →
    let k := if c.wide then 8 else 4
    let m := (s.podDrop pod (secBase c.addr)).homeNat c.addr k
    let vals := (o :: os).map fun q => q.act.operands.1
    c.addr % k = 0 → m.2 = false → ∃ u : State, exec (.redCombineApply pod n) s = .next u.sweep
      ∧ (c.op ≠ .fadd → u.homeNat c.addr k = (atomChain c.op c.wide m.1 (vals.map fun b => (b, 0)), false))
      ∧ (c.op = .fadd → ∃ l, Combined c.wide vals l
          ∧ u.homeNat c.addr k = (atomChain .fadd c.wide m.1 (l.map fun b => (b, 0)), false))
      ∧ (∀ q ∈ o :: os, u.op? q.id = none) ∧ (∀ e ∈ (u.pod pod).comb, ¬ (e.addr = c.addr ∧ e.op = c.op ∧ e.wide = c.wide)))

/-- R145, R146: a full/empty load waits for its granule to be full and, with CLR, empties it; a full/empty store waits
for it to be empty and fills it. -/
def Obligations.FullEmptyCompletes : Prop :=
  ∀ (n k : Nat) (s : State) (o : MemOp) (t a : Nat) (x : Team), s.op? n = some o → s.inPlace o = true →
    s.mayPerform o = true → s.barred o = false → s.feFirst o = true → o.loc = .spad t a → s.team? t = some x →
    (k = 1 ∨ k = 2 ∨ k = 4 ∨ k = 8) → a % k = 0 →
    (∀ (r : Fin 128) (sx clr rep : Bool), o.act = .ld (some (.x r)) k sx true clr rep → (s.fib? o.fib).isSome = true →
      (s.isFull t (a / 16) = false → exec (.feAccessComplete n) s = .next s)
      ∧ (s.isFull t (a / 16) = true → ∃ u : State, exec (.feAccessComplete n) s = .next u.sweep
        ∧ u.reg o.fib (.x r) = ⟨if sx then (BitVec.ofNat (8 * k) (x.spad.nat a k)).signExtend 64
            else BitVec.ofNat 64 (x.spad.nat a k), x.spad.anyPois a k⟩
        ∧ u.isFull t (a / 16) = !clr ∧ (∀ t' g, t' ≠ t ∨ g ≠ a / 16 → u.isFull t' g = s.isFull t' g)
        ∧ (∀ t' b, u.spadByte t' b = s.spadByte t' b) ∧ u.op? n = none))
    ∧ (∀ lo hi : RegCell, o.act = .st k lo hi true → lo.p = false →
      (s.isFull t (a / 16) = true → exec (.feAccessComplete n) s = .next s)
      ∧ (s.isFull t (a / 16) = false → ∃ u : State, exec (.feAccessComplete n) s = .next u.sweep
        ∧ u.isFull t (a / 16) = true ∧ (∀ t' g, t' ≠ t ∨ g ≠ a / 16 → u.isFull t' g = s.isFull t' g)
        ∧ (∀ t' b, (u.spadByte t' b).1 = if t' = t ∧ a ≤ b ∧ b < a + k then lo.v.extractLsb' (8 * (b - a)) 8
            else (s.spadByte t' b).1)
        ∧ s.sameFibres u ∧ u.op? n = none))

/-- R246 to R255, R276, R279: the core's first operation not started, with its granules full where FEW asks for it, computes
each output from its captures (for R = 1 from the latched A of its format), the tile without its signers' later stores, and the
cells as the team's earlier operations leave them; it fills the latch and, with FEC, empties the tile's granules. The oldest one,
once started, writes its cells with the poison of each pair, and its signers' instructions complete. -/
def Obligations.MatrixOperations : Prop :=
  ∀ (core : Nat) (s : State) (o : MtxOp) (t : Team), s.team? o.team = some t →
    (∀ (done rest : List MtxOp) (sup c : MtxCap) (cs : List MtxCap), (s.core core).mtx = done ++ o :: rest →
      (∀ x ∈ done, x.started = true) → o.started = false → o.caps = c :: cs → mtxSupplier o.caps = some sup →
      let m := c.mods
      (m.few = true → ∀ g ∈ tileGranules m sup.baddr, t.full.contains g = true) →
      (∀ x ∈ o.caps, ∀ p, s.op? x.op = some p → s.mayPerform p = true) →
      let a := match t.latch with | some l => if m.ra ∧ l.fmt = m.fmt then l.caps else o.caps | none => o.caps
      (a.map (·.fib)).Nodup → (∀ x ∈ a, x.fib.team = o.team) →
      let now := (done.filter fun x => x.team == o.team).foldl (fun y x => y.putOuts x.outs) t
      ∃ (u : State) (out : Nat → Nat → List (Nat × BitVec 32 × Bool)), exec (.matrixOpStart core) s = .next u
        ∧ (∀ i j, i < (EFmt.shape m.fmt).1 → j < (EFmt.shape m.fmt).2.1 →
            MmaOutput m c.batched c.gb a (t.tileFor (o.caps.map (·.op))) sup.baddr now.cell i j (out i j))
        ∧ (u.core core).mtx = done ++ { o with
            started := true, outs := (List.range (EFmt.shape m.fmt).1).flatMap fun i => (List.range (EFmt.shape m.fmt).2.1).flatMap (out i) } :: rest
        ∧ (u.team? o.team).map (fun y => (y.latch, y.acc, y.accPois, y.spad)) = some (some ⟨m.fmt, a⟩, t.acc, t.accPois, t.spad)
        ∧ (∀ g, u.isFull o.team g = (t.full.contains g && !(m.fec && (tileGranules m sup.baddr).contains g)))
        ∧ u.fibres = s.fibres ∧ u.mem = s.mem)
    ∧ (∀ rest : List MtxOp, (s.core core).mtx = o :: rest → o.started = true → (o.outs.map (·.1)).Nodup →
      (∀ c ∈ o.caps, ∀ p, s.op? c.op = some p → p.act.dests = []) →
      ∃ (u : State) (y : Team), exec (.matrixOpWrite core) s = .next u.sweep ∧ (u.core core).mtx = rest
        ∧ u.team? o.team = some y
        ∧ (∀ e ∈ o.outs, y.cell e.1 = (e.2.1, o.outs.any fun d => d.1 / 2 == e.1 / 2 && d.2.2))
        ∧ (∀ k, (∀ e ∈ o.outs, e.1 / 2 ≠ k / 2) → y.cell k = t.cell k)
        ∧ { y with acc := [], accPois := [], unproven := [] } = { t with acc := [], accPois := [], unproven := [] }
        ∧ (∀ c ∈ o.caps, u.op? c.op = none) ∧ s.sameFibres u ∧ u.mem = s.mem)

/-- R144, R178, R179: write-back and invalidation of some lines, whose home slices have ways, complete: the pod keeps no dirty
sector of them, its written bits are at the home, and at system scope in memory; after an invalidation it keeps none of them at
all. Other sectors of the pod stay as they were. -/
def Obligations.LinesComplete : Prop :=
  ∀ (n : Nat) (s : State) (o : MemOp) (inv : Bool) (ls : List Nat) (cnt : Nat), s.performs n o → o.act = .cwb inv ls cnt →
    (∀ l ∈ ls, l % 256 = 0) →
    let pod := podOf o.core
    let inside := fun (a : Nat) => ls.any fun l => decide (l ≤ a) && decide (a < l + 256)
    (∀ a, inside a = true → s.sliceOn (secBase a) = true) →
    let own := fun (a : Nat) => secFind (s.pod pod).l1 (secBase a) none
    let home := fun (a : Nat) => secFind s.l2 (secBase a) none
    -- the pod's writes of the lines are clean, and the words it wrote whole have all their bits written
    (∀ a c, inside a = true → own a = some c → c.wpois = 0 ∧ ∀ b, c.wclean.getLsbD (b / 64) = true → c.en.getLsbD b = true) →
    -- a bit as the first of two copies has written it, else as `old` has it
    let bit := fun (c : Option Sector) (a t : Nat) (old : Bool) => match c with
      | some c => if c.en.getLsbD (8 * (a % 64) + t) then c.data.getLsbD (8 * (a % 64) + t) else old
      | none => old
    ∃ u : State, exec (.trackedComplete n) s = .next u.sweep ∧ u.op? n = none ∧ s.sameFibres u ∧ u.groups = s.groups
      ∧ u.teams = s.teams
      ∧ (∀ a, inside a = true → ∀ c, secFind (u.pod pod).l1 (secBase a) none = some c → inv = false ∧ c.dirty = false)
      ∧ (∀ b, inside b = false → b % 64 = 0 → secFind (u.pod pod).l1 b none = own b)
      ∧ (inv = true → ∀ a, inside a = true → (∀ c ∈ (u.pod pod).l1, c.base ≠ secBase a)
          ∧ ∀ r ∈ u.reps, ¬ (r.1 = dieOf o.core ∧ r.2.2.base = secBase a))
      ∧ (o.ord.scope ≠ .sys → u.mem = s.mem ∧ ∀ a t, inside a = true → t < 8 →
          (u.homeNat a 1).1.testBit t = bit (own a) a t ((s.homeNat a 1).1.testBit t))
      ∧ (o.ord.scope = .sys →
          (∀ a, inside a = true → ∀ c, secFind u.l2 (secBase a) none = some c → inv = false ∧ c.dirty = false)
          ∧ ∀ a t, inside a = true → t < 8 → spaceOf a = 0 → s.badPc.contains (s.channel (secBase a)) = false →
            fwDead (s.frame (frameOf a)) = false →
            (u.mem.byte a).getLsbD t = bit (own a) a t (bit (home a) a t ((s.mem.byte a).getLsbD t)))

/-- R224 to R226, R228 to R231, R380: element loads and stores of a place that its pod serves complete. `lde` writes the
elements' bits in slots, sign- or zero-extended; `ldx` their values, scaled and rounded; a poisoned word or scale byte poisons
the destination. `ste` writes the elements' bits and no other bit. -/
def Obligations.ElementsComplete : Prop :=
  ∀ (n k a e : Nat) (s : State) (o : MemOp) (x : PageAttr) (f : EFmt) (r : Fin 128), s.performs n o → o.got = [] → o.served = [] →
    s.plainPlace o a x → a % 65536 = 0 → o.ord.order = .none → s.fillWait = [] → s.reps = [] → (s.fib? o.fib).isSome = true →
    let pod := podOf o.core
    let el := fun (i : Nat) => s.seesElem pod (8 * a + EFmt.packed f i) f
    let step := if f = .cb2 then 8 else 1
    -- the destination pair holds slots of `w` bits, and nothing above them
    let writes := fun (u : State) (w : Nat) (slot : Nat → Nat) (p : Bool) =>
      ∃ lo hi : Word, u.reg o.fib (.x r) = ⟨lo, p⟩
        ∧ (if 64 < k * w then u.reg o.fib (Opnd.x r).succ = ⟨hi, p⟩ else hi = 0)
        ∧ (∀ j, j < k → ((hi ++ lo).extractLsb' (w * j) w).toNat = slot j) ∧ ∀ b, k * w ≤ b → (hi ++ lo).getLsbD b = false
    (k = 1 ∨ k = 2 ∨ k = 4 ∨ k = 8 ∨ k = 16) →
    (∀ sx, o.act = .lde (some (.x r)) k e f sx → k * f.slot ≤ 128 → ∃ u : State, exec (.trackedComplete n) s = .next u.sweep
      ∧ u.op? n = none ∧ (∀ g, g ≠ o.fib → u.fib? g = s.fib? g)
      ∧ writes u f.slot (fun j => let v := BitVec.ofNat (EFmt.bits f) (el (e + j * step)).1
          if sx then (v.signExtend f.slot).toNat else (v.setWidth f.slot).toNat) ((List.range k).any fun j => (el (e + j * step)).2))
    ∧ (∀ out sc, o.act = .ldx (some (.x r)) k e f out sc → k * out.slot ≤ 128 →
      (sc = none ∨ ∃ b y, sc = some (.mem b y) ∧ s.plainPlace { o with loc := .mem b y } b y) →
      let scale : Option (Byte × Bool) := match sc with | some (.mem b _) => some (s.sees pod b) | _ => none
      let zero : Bool := match scale with | some b => b.1.toInt == -128 | none => false
      ∃ (u : State) (v : Nat → FVal) (slot : Nat → Nat), exec (.trackedComplete n) s = .next u.sweep ∧ u.op? n = none
        ∧ (∀ g, g ≠ o.fib → u.fib? g = s.fib? g)
        ∧ (∀ j, j < k → EFmt.Is f (el (e + j)).1 ((e + j) % 8) (v j)
          ∧ (OutFmt.ffmt out).Delivers (match scale with | some b => (v j).scaled b.1 | none => v j) (slot j))
        ∧ writes u out.slot slot ((!zero && (List.range k).any fun j => (el (e + j)).2)
            || match scale with | some b => b.2 | none => false))
    ∧ (∀ lo hi, o.act = .ste k e f lo hi → k * f.slot ≤ 128 →
      let at_ := fun (j : Nat) => 8 * a + EFmt.packed f (e + j * step)
      let bad := lo.p || (decide (64 < k * f.slot) && hi.p)
      ∃ u : State, exec (.trackedComplete n) s = .next u.sweep ∧ u.op? n = none ∧ u.mem = s.mem ∧ s.sameFibres u
        ∧ (bad = false → ∀ c t, t < 8 → (u.sees pod c).1.getLsbD t
            = match (List.range k).find? fun j => decide (at_ j ≤ 8 * c + t) && decide (8 * c + t < at_ j + EFmt.bits f) with
              | some j => (hi.v ++ lo.v).getLsbD (f.slot * j + (8 * c + t - at_ j))
              | none => (s.sees pod c).1.getLsbD t)
        ∧ (∀ c, (u.sees pod c).2 = ((s.sees pod c).2 || (bad && (List.range k).any fun j => at_ j / 64 == c / 8)))
        ∧ ∀ p c, p ≠ pod → u.sees p c = s.sees p c)

/-- R203, R297 to R303, R343, R344: sibling operations take effect at the cell's home. `sld` and `sldx` return a value and the
cell's token. `sst` frees what its token supersedes, then takes the lowest free slot, folds into the oldest or fails; `srec`
combines the live values in the order of their stamps. Either rewrites the cell's bytes with its newest value; an exhausted
clock traps. -/
def Obligations.SiblingsComplete : Prop :=
  ∀ (n a : Nat) (s : State) (o : MemOp) (x : PageAttr) (r : Fin 128) (f : Fibre), s.performs n o → o.loc = .mem a x →
    o.ord.order = .none → s.fib? o.fib = some f → f.trap = none → isVoid a = false → a % 8 = 0 →
    let c := s.sibCell x.shadow
    c.ok →
    let sole := fun (u : State) => u.op? n = none ∧ ∀ g, g ≠ o.fib → u.fib? g = s.fib? g
    let spent := c.clock = 0xFFFFFFFF → ∃ u : State, exec (.trackedComplete n) s = .next u.sweep ∧ u.op? n = none
      ∧ u.sib = s.sib ∧ u.reg o.fib (.x r) = s.reg o.fib (.x r) ∧ u.trapped o.fib 0x13 o
    let bytes := fun (u : State) => s.sliceOn (secBase a) = true → ∃ v : RegCell, (u.sibCell x.shadow).Reads v
      ∧ u.homeNat a 8 = (v.v.toNat, v.p)
    let next := c.clock + 1
    (∀ slot, o.act = .sld (some (.x r)) slot → ∃ (u : State) (v : RegCell) (t : Word), exec (.trackedComplete n) s = .next u.sweep
      ∧ sole u ∧ u.sib = s.sib ∧ u.reg o.fib (.x r) = v ∧ u.reg o.fib (Opnd.x r).succ = ⟨t, false⟩ ∧ c.IsToken t
      ∧ (slot = none → c.Reads v)
      ∧ ∀ k, slot = some k → v = match c.slot? k with | some y => ⟨y.1, y.2.1⟩ | none => ⟨0, false⟩)
    ∧ (∀ quiet b tk, o.act = .sst (some (.x r)) quiet b tk → spent ∧ (c.clock ≠ 0xFFFFFFFF →
      let seen := (tk.v.extractLsb' 0 32).toNat
      let left := fun (k : Nat) => match c.slot? k with
        | some y => if seen ≤ c.clock.toNat ∧ tk.v.getLsbD (32 + k) = true ∧ y.2.2.toNat ≤ seen then none else some y
        | none => none
      ∃ (u : State) (w : SibCell) (st : Nat), exec (.trackedComplete n) s = .next u.sweep ∧ sole u ∧ u.sibCell x.shadow = w
        ∧ w.ok ∧ u.reg o.fib (.x r) = ⟨BitVec.ofNat 64 st, false⟩ ∧ (st ≠ 3 → bytes u ∧ (u.fib? o.fib).map (·.trap) = some none)
        ∧ (∀ k, k < 4 → left k = none → (∀ j, j < k → left j ≠ none) →
            st = (if (List.range 4).all fun j => (left j).isNone then 0 else 1) ∧ w.clock = next
            ∧ w.slot? k = some (b.v, b.p, next) ∧ ∀ j, j ≠ k → w.slot? j = left j)
        ∧ ((∀ k, k < 4 → left k ≠ none) → x.sop = 6 → st = 3 ∧ w = c
            ∧ (quiet = false → u.trapped o.fib 0x12 o) ∧ (quiet = true → (u.fib? o.fib).map (·.trap) = some none))
        ∧ ((∀ k, k < 4 → left k ≠ none) → x.sop < 6 → ∀ k y, c.slot? k = some y →
            (∀ j z, c.slot? j = some z → y.2.2.toNat ≤ z.2.2.toNat) → st = 2 ∧ w.clock = next
            ∧ (∃ v, Merges ([.add, .min, .max, .or, .xor, .fadd].getD x.sop .add) y.1 b.v v
              ∧ w.slot? k = some (v, y.2.1 || b.p, next)) ∧ ∀ j, j ≠ k → w.slot? j = c.slot? j)))
    ∧ (∀ ps op force tk val, o.act = .srec (some (.x r)) ps op force tk val → spent ∧ (c.clock ≠ 0xFFFFFFFF →
      let good : Bool := force || tk.v.extractLsb' 0 32 == c.clock
      ∃ (u : State) (w : SibCell) (t : Word), exec (.trackedComplete n) s = .next u.sweep ∧ sole u ∧ u.sibCell x.shadow = w
        ∧ w.ok ∧ u.reg o.fib (.x r) = ⟨t, false⟩ ∧ w.IsToken t ∧ (u.fib? o.fib).map (fun b => b.pred ps) = some (ps == 7 || good)
        ∧ (good = false ∨ ((∀ k, c.slot? k = none) ∧ val = none) → w = c)
        ∧ ∀ ks : List Nat, good = true → ks.Pairwise (fun i j => ∀ y z, c.slot? i = some y → c.slot? j = some z → y.2.2.toNat < z.2.2.toNat) →
          (∀ k, k ∈ ks ↔ (c.slot? k).isSome = true) →
          ∀ (v : RegCell) (vs : List RegCell),
          (ks.filterMap fun k => (c.slot? k).map fun y => (⟨y.1, y.2.1⟩ : RegCell)) ++ val.toList = v :: vs →
          bytes u ∧ w.clock = next ∧ (∀ k, k ≠ 0 → w.slot? k = none)
          ∧ ∃ h : Word → Word → Word, (∀ i j, Merges op i j (h i j))
            ∧ w.slot? 0 = some (vs.foldl (fun i j => h i j.v) v.v, (v :: vs).any (·.p), next)))

/-- R257, R277, R380: the accumulator moves, performed while no operation of the core's engine runs: `mrd` reads a cell or a
pair, `mwr` writes them, `mzero` clears rows, `msts` stores a row's cells and `mlds` loads them, with the poison of each pair.
While one runs they wait. -/
def Obligations.AccumulatorMoves : Prop :=
  ∀ (n : Nat) (s : State) (o : MemOp) (t : Team), s.performs n o → s.team? o.fib.team = some t → o.ord.order = .none →
    let pair := fun (k : Nat) => ((t.cell (k + 1)).1 ++ (t.cell k).1 : Word)
    let after := fun (cells : Nat → BitVec 32 × Bool) => ∃ (u : State) (y : Team), exec (.trackedComplete n) s = .next u.sweep
      ∧ u.op? n = none ∧ u.team? o.fib.team = some y ∧ (∀ k, y.cell k = cells k) ∧ s.sameFibres u ∧ u.groups = s.groups
      ∧ u.mem = s.mem ∧ ∀ q b, u.spadByte q b = s.spadByte q b
    (o.act.isMove = true → (s.core o.core).mtx.any (·.started) = true →
      ∃ u : State, exec (.trackedComplete n) s = .next u.sweep ∧ u.op? n = some o ∧ u.teams = s.teams ∧ u.fibres = s.fibres)
    ∧ ((s.core o.core).mtx.any (·.started) = false →
      (∀ r w ci, o.act = .mrd (some (.x r)) w ci → (w = false → ci % 2 = 0) → (s.fib? o.fib).isSome = true →
        ∃ (u : State) (y : Team), exec (.trackedComplete n) s = .next u.sweep ∧ u.op? n = none
          ∧ u.reg o.fib (.x r) = ⟨if w then (t.cell ci).1.setWidth 64 else pair ci, (t.cell ci).2⟩
          ∧ u.team? o.fib.team = some y ∧ (∀ k, y.cell k = t.cell k) ∧ (∀ g, g ≠ o.fib → u.fib? g = s.fib? g) ∧ u.mem = s.mem)
      ∧ (∀ w ci b, o.act = .mwr w ci b → (w = false → ci % 2 = 0) → after fun k =>
          if w then ((if k = ci then b.v.extractLsb' 0 32 else (t.cell k).1), (t.cell k).2 || (b.p && k / 2 == ci / 2))
          else if k = ci then (b.v.extractLsb' 0 32, b.p) else if k = ci + 1 then (b.v.extractLsb' 32 32, b.p) else t.cell k)
      ∧ (∀ row m, o.act = .mzero row m → after fun k => if 64 * row ≤ k ∧ k < 64 * (row + m) then (0, false) else t.cell k)
      ∧ (∀ row q a, o.act = .msts row → o.loc = .spad q a → a % 16 = 0 → (s.team? q).isSome = true →
          ∃ u : State, exec (.trackedComplete n) s = .next u.sweep ∧ u.op? n = none ∧ s.sameFibres u ∧ u.mem = s.mem
          ∧ (∀ p b, u.spadByte p b = if p = q ∧ a ≤ b ∧ b < a + 256 then
              ((pair (64 * row + 2 * ((b - a) / 8))).extractLsb' (8 * ((b - a) % 8)) 8, (t.cell (64 * row + 2 * ((b - a) / 8))).2)
              else s.spadByte p b)
          ∧ (u.team? o.fib.team).map (fun y => (y.acc, y.accPois)) = some (t.acc, t.accPois))
      ∧ (∀ row q a, o.act = .mlds row → o.loc = .spad q a → a % 16 = 0 → (s.team? q).isSome = true → after fun k =>
          if 64 * row ≤ k ∧ k < 64 * (row + 1) then
            let at_ := a + 4 * (k - 64 * row)
            (BitVec.ofNat 32 (leNat ((List.range 4).map fun i => (s.spadByte q (at_ + i)).1)), (s.spadByte q at_).2)
          else t.cell k))

/-! ## Engines -/

/-- R157 to R160, R170, R171, R193, R420: the head command of a queue leaves it: dropped by its slot, or accepted with its
range-lock entries when its predecessors allow it, a shared engine has come to its slice, the table has room and nothing conflicts; a pending slot or a conflict
holds it. Its push completes. One whose header or member table cannot be read, or that the host denied, is accepted
and fails.
R161, R162, R440: a finished command without a target, or with granules it can reach, ends with its signal given;
a failed one ends with an error record. Its range-lock entries are released. -/
def Obligations.CommandsAcceptedAndComplete : Prop :=
  (∀ (core : Nat) (q : EQueue) (s : State) (c : QCmd) (rest : List QCmd), s.queue core q = c :: rest →
    (∀ o, s.op? c.op = some o → o.act = .push) →
    let slot := match c.slot, s.team? c.team with | some k, some t => NMap.get t.slots k | _, _ => .go
    let i := Instr.engineAccept core q
    (c.fault ≠ none ∨ slot = .pending → exec i s = .next s)
    ∧ (c.fault = none → slot = .drop → ∃ u : State, exec i s = .next u.sweep ∧ u.queue core q = rest ∧ u.op? c.op = none
        ∧ u.cmds = s.cmds ∧ u.mem = s.mem)
    ∧ (c.fault = none → slot = .go →
      let x := newCmd s.fresh c s.clock
      let s1 := if EQueue.inPod q then s.newId.2 else s.newId.2.writeBack (podOf core) false (· == c.fib)
      let held := (s.pod (podOf core)).locks
      let taken := fun (y : Cmd) (locks : List Lock) => ∃ u : State, exec i s = .next u.sweep ∧ u.queue core q = rest
        ∧ u.op? c.op = none ∧ u.cmds = s.cmds ++ [y] ∧ (u.pod (podOf core)).locks = held ++ locks
      (s.serReady c = false ∨ s.turnOk core q c.part = false → exec i s = .next s)
      ∧ (s.serReady c = true → s.turnOk core q c.part = true → ∀ a, c.denied = some a → taken { x with phase := .failed 0x0B a } [])
      ∧ (s.serReady c = true → s.turnOk core q c.part = true → c.denied = none →
        (∀ (code : Nat) (a : Word) (s2 : State), x.extra s1 = (.fail code a, s2) → taken { x with phase := .failed code a } [])
        ∧ (∀ (e : Extra) (s2 : State), x.extra s1 = (.ok e, s2) →
          let locks := (cmdSpans c.words e).flatMap (s1.locksOf x)
          let fits := lockCount held + lockCount locks ≤ 128 ∧ ∀ l ∈ locks, ∀ m ∈ held, l.conflicts m = false
          (fits → taken { x with nodes := if cmdCode c.words = 0x30 then some e.nodes else none } locks)
          ∧ (¬ fits → exec i s = .next s.sweep)))))
  ∧ (∀ (n : Nat) (s : State) (c : Cmd), s.cmd? n = some c → c.hold = .free → s.writesOut c = false →
    let kind := fieldOf (wordAt c.c.words 0) 19 16
    let gone := fun (u : State) => u.cmds = s.cmds.filter (fun x => x.id != n)
      ∧ (u.pod c.pod).locks = (s.pod c.pod).locks.filter fun l => l.cmd != n
    (c.phase = .finished → kind = 0 → ∃ u : State, exec (.engineComplete n) s = .next u.sweep ∧ gone u ∧ u.fibres = s.fibres)
    ∧ (c.phase = .finished → kind = 1 → ∀ (team o : Nat) (ps : List Piece) (t : State),
        c.target (s.performAt c) = (.ok ⟨.spad team o, ps⟩, t) → (s.team? team).isSome = true →
        ∃ u : State, exec (.engineComplete n) s = .next u.sweep
        ∧ gone u ∧ u.fibres = s.fibres ∧ ∀ k, k < fieldOf (wordAt c.c.words 1) 43 30 + 1 → u.isFull team (o / 16 + k) = true)
    ∧ (∀ (code : Nat) (a : Word) (x : Clutch), c.phase = .failed code a → (kind = 0 ∨ kind = 1 ∨ kind = 3) →
        s.clutch? c.c.clutch = some x → x.accept = true → ∃ u : State, exec (.engineComplete n) s = .next u.sweep ∧ gone u
        ∧ ((s.part c.c.part).configured = true → (u.part c.c.part).jtail = (s.part c.c.part).jtail + 2)))

/-- R161, R162, R166 to R169, R223, R321 to R335: an engine's row for a command in its phase. It does its work; or
the command fails with a code and an address, keeping the writes made; or it waits for an answered fault, with nothing
done.
R166 to R168, R330, R331, R334: what an engine's work leaves of its command when it succeeds: a stream begins; a stream slot
fills, or empties, its granules, and the last one ends the command with the bytes moved; a copy ends with its count, a trace with
its rays and none saved; a selection, a tree and a raster end; a collective begins. That the work is one step is the model's
choice (log 150). -/
def Obligations.EngineRowsRun : Prop :=
  (∀ (n rank : Nat) (ranks fin : List Nat) (parts : List (Nat × List Word)) (s : State) (c : Cmd),
    let colls := [0x50, 0x51, 0x52, 0x53]
    let rows : List (Instr × List Nat × CmdPhase × Eng (Cmd → Cmd)) :=
      [(.seFill n, [0x01], .accepted, c.streamBegin), (.seDrain n, [0x02], .accepted, c.streamBegin),
       (.seFillSlot n, [0x01], .running, c.fillSlot), (.seDrainSlot n, [0x02], .running, c.drainSlot),
       (.cvxCopy n, [0x10], .accepted, c.copy), (.rayTrace n, [0x20], .accepted, c.rays fun _ => true),
       (.rayResume n, [0x21], .accepted, c.rays fun _ => true), (.cutSelect n, [0x30], .accepted, c.select),
       (.cutTree n, [0x31], .accepted, c.buildTree), (.rastVis n, [0x40], .accepted, c.raster),
       (.collAllred n, [0x50], .accepted, c.collBegin), (.collBcast n, [0x51], .accepted, c.collBegin),
       (.collBar n, [0x52], .accepted, c.collBegin), (.collGath n, [0x53], .accepted, c.collBegin),
       (.collComplete n ranks parts, colls, .running, c.collEnd ranks parts)]
    (∀ r ∈ rows, HeldCmd s n c r.2.1 r.2.2.1 →
      (∀ (g : Cmd → Cmd) (t : State), r.2.2.2 s = (.ok g, t) → exec r.1 s = .next ((t.forgetFar c).modCmd n g))
      ∧ (∀ (code : Nat) (a : Word) (t : State), r.2.2.2 s = (.fail code a, t) →
          exec r.1 s = .next ((t.forgetFar c).modCmd n fun x => { x with phase := .failed code a }))
      ∧ (∀ (l : Loc) (t : State), r.2.2.2 s = (.ask l, t) → exec r.1 s = .next (s.askFar c l))
      ∧ (∀ (k : Nat) (t : State), r.2.2.2 s = (.wait k, t) → ∃ u : State, exec r.1 s = .next u ∧ u.mem = s.mem
          ∧ u.l2 = s.l2 ∧ u.pods = s.pods ∧ u.teams = s.teams ∧ u.faults = t.faults
          ∧ (u.cmd? n).map (fun x => (x.phase, x.hold)) = some (c.phase, .fault k 0 0))
      ∧ (∀ t : State, r.2.2.2 s = (.idle, t) → exec r.1 s = .next s))
    ∧ (HeldCmd s n c [0x20, 0x21] .accepted → s.rayYields c = true → ∀ (g : Cmd → Cmd) (t : State),
        c.rays fin.contains s = (.ok g, t) → exec (.rayYield n fin) s = .next ((t.forgetFar c).modCmd n g))
    ∧ (HeldCmd s n c colls .running →
      (s.coordinator c = some (tabSelf c.kept) → rank ≠ tabSelf c.kept → rank ∈ tabLive c.kept → rank ∉ c.lost →
        s.sinceCmd c c.since (collOf c.c.words).tout = true →
        exec (.collMemberTimeout n rank) s = .next ((s.forgetFar c).modCmd n fun x => { x with lost := x.lost ++ [rank] }))
      ∧ (∀ r : Nat, s.coordinator c = some r → r ≠ tabSelf c.kept → s.sinceCmd c c.c.at_ (2 * (collOf c.c.words).tout) = true →
        exec (.collCoordinatorLost n) s
          = .next ((s.forgetFar c).modCmd n fun x => { x with lost := x.lost ++ [r], again := some s.clock }))))
  ∧ (∀ (s t : State) (c : Cmd) (g : Cmd → Cmd) (done : Nat → Bool),
    let l := layoutOf c.c.words
    let n := fieldOf (wordAt c.c.words 4) 31 0
    let ended := (g c).phase = .finished
    let slot := fun (now : Bool) => (g c).slot = c.slot + 1
      ∧ (c.slot + 1 < l.slots → (g c).phase = c.phase)
      ∧ (l.slots ≤ c.slot + 1 → ended ∧ (g c).result = BitVec.ofNat 64 (l.count * l.esz))
      ∧ ∃ team o, ∀ k, k < l.ssize → s.isFull team (o / 16 + k) = !now ∧ t.isFull team (o / 16 + k) = now
    (c.streamBegin s = (.ok g, t) → (g c).phase = .running)
    ∧ ((∃ x, s.team? c.c.team = some x) → c.fillSlot s = (.ok g, t) → slot true)
    ∧ ((∃ x, s.team? c.c.team = some x) → c.drainSlot s = (.ok g, t) → slot false)
    ∧ (c.copy s = (.ok g, t) → ended ∧ (g c).result = BitVec.ofNat 64 n)
    ∧ (c.rays (fun _ => true) s = (.ok g, t) → ended ∧ (g c).word3 = 0
        ∧ (cmdCode c.c.words = 0x20 → (g c).result = BitVec.ofNat 64 n))
    ∧ (c.rays done s = (.ok g, t) → ended)
    ∧ (c.select s = (.ok g, t) → ended)
    ∧ (c.buildTree s = (.ok g, t) → ended ∧ ∃ tree, t.trees = tree :: s.trees
        ∧ (g c).result = BitVec.ofNat 64 tree.1.length)
    ∧ (c.raster s = (.ok g, t) → ended)
    ∧ (c.collBegin s = (.ok g, t) → (g c).phase = .running))

/-- R166, R167: a stream's elements lie at BASE and multiples of the strides, its slots in the ring one after another, and what a
filled slot holds is its elements' bytes as they were read, back to back, with zeros after the last.
R162, R169, R192: an engine's loads and stores of a place, clean and of 1, 2, 4 or 8 bytes, read and write its bytes and no
others; `cvx.copy` between formats 0 copies its bytes unchanged. -/
def Obligations.StreamsMoveBytes : Prop :=
  ((∀ (l : Layout) (idx : List Nat), idx.length = l.ndim → l.ndim ≤ l.ext.length → l.ndim ≤ l.str.length →
    (∀ x ∈ idx.zip l.ext, x.1 < x.2) →
    l.elemAddr ((idx.zip l.ext).foldr (fun x n => x.1 + x.2 * n) 0)
      = addrAdd l.base (((idx.zip l.str).map fun x => (x.1 : ℤ) * x.2).sum * l.esz))
  ∧ (∀ (l : Layout) (m : Nat), l.first < l.scount → ∃ k, k < l.scount
      ∧ (if l.down then (k + m) % l.scount = l.first else k = (l.first + m) % l.scount)
      ∧ l.slotAddr m = mkAddr (indexOf l.ring.1) (l.rbase + k * (16 * l.ssize)))
  ∧ ∀ (s t s1 : State) (c : Cmd) (g : Cmd → Cmd) (ring : Place) (q o : Nat), EQueue.inPod c.c.q = true →
    let l := layoutOf c.c.words
    let n := 16 * l.ssize
    c.sink (l.slotAddr c.slot) n 16 none s = (.ok ring, s1) → ring.loc = .spad q o → ring.ps = [] →
    c.fillSlot s = (.ok g, t) → 0 < l.esz → l.esz ∣ n →
    ∃ (bs : List (List (Byte × Bool))) (s2 : State),
      Eng.each (fun j => c.elemIn l j) ((List.range (n / l.esz)).map (c.slot * (n / l.esz) + ·) |>.filter fun j => decide (j < l.count)) s1 = (.ok bs, s2)
      ∧ (∀ b ∈ bs, b.length = l.esz)
      ∧ ∀ k, k < n → (t.spadByte q (o + k)).1 = ((bs.flatten)[k]?.map (·.1)).getD 0)
  ∧ (∀ (s : State) (c : Cmd), s.regionOpen 0 = false → s.fillWait = [] →
    (∀ (l : Loc) (n : Nat), (n = 1 ∨ n = 2 ∨ n = 4 ∨ n = 8) → (∀ i, i < n → s.engPlain c (l.fwd i)) →
      (match l with | .spad _ a => a % n = 0 | .mem a _ => a % n = 0 | .nowhere => False) →
      (∃ v u, c.load l n s = (.ok v, u) ∧ v.1 = leNat ((List.range n).map fun i => (s.engByte c (l.fwd i)).1)
        ∧ v.2 = (s.engByte c l).2 ∧ ∀ k, s.engPlain c k → (u.engByte c k).2 = (s.engByte c k).2
          ∧ ((s.engByte c k).2 = false → (u.engByte c k).1 = (s.engByte c k).1))
      ∧ ∀ v : Nat, ∃ u, c.store l n v false s = (.ok (), u)
        ∧ (∀ i, i < n → (u.engByte c (l.fwd i)).1 = BitVec.ofNat 8 (v / 2 ^ (8 * i)))
        ∧ ∀ k, s.engPlain c k → (∀ i, i < n → ¬ k.sameByte (l.fwd i)) → (u.engByte c k).1 = (s.engByte c k).1)
    ∧ ∀ (t s1 s2 : State) (g : Cmd → Cmd) (sp dp : Place), c.c.q = .cvx →
      let x := cvxOf c.c.words
      x.sfmt = 0 → x.dfmt = 0 → c.side x.src 0 x.n false s = (.ok sp, s1) → c.side x.dst 0 x.n true s1 = (.ok dp, s2) →
      c.copy s = (.ok g, t) →
      (∀ i, i < x.n → s.engPlain c (sp.at i) ∧ s.engPlain c (dp.at i) ∧ (s.engByte c (sp.at i)).2 = false) →
      (∀ i j, i < x.n → j < x.n → ¬ (sp.at i).sameByte (dp.at j) ∧ (i ≠ j → ¬ (dp.at i).sameByte (dp.at j))) →
      -- bytes that share an aligned word of the destination lie together
      (∀ i, i < x.n → (offsetOf x.dst + i) % 8 ≠ 0 → 0 < i → (dp.at i).sameByte ((dp.at (i - 1)).fwd 1)
        ∧ match dp.at i with | .mem a _ => a % 8 = (offsetOf x.dst + i) % 8 | _ => True) →
      (g c).phase = .finished ∧ (g c).result = BitVec.ofNat 64 x.n
        ∧ (∀ i, i < x.n → (t.engByte c (dp.at i)).1 = (s.engByte c (sp.at i)).1)
        ∧ ∀ k, s.engPlain c k → (∀ i, i < x.n → ¬ k.sameByte (dp.at i)) → (s.engByte c k).2 = false →
          (t.engByte c k).1 = (s.engByte c k).1)

/-- R169, R224: a block converted: its shift is the least that brings its largest magnitude within the format, −128 for zeros;
each element is rounded to nearest even among the format's numbers, beyond the range takes its end, and is counted where it
replaces a NaN or, judged after rounding, has saturated (log 153). -/
def Obligations.BlocksAreConverted : Prop :=
  ∀ (f : EFmt) (vs : List (FVal × Bool)), f ≠ .cb2 →
    let r := convertBlock f vs
    (f.scaled = false → r.1 = 0) ∧ (f.scaled = true → EFmt.Shift f (vs.map (·.1)) r.1) ∧ r.2.length = vs.length
    ∧ ∀ (i : Nat) (v : FVal) (p : Bool), vs[i]? = some (v, p) → ∃ o : Converted, r.2[i]? = some (o, p)
      ∧ (r.1 = -128 → o.bits = 0 ∧ o.sat = false ∧ o.nan = false)
      ∧ (r.1 ≠ -128 → EFmt.Takes f (match v with | .fin s m e => .fin s m (e - r.1) | w => w) o)

/-- R321, R323, R324, R395 to R398: a collective that completes for a member takes the contributions of a set L of live ranks in
ascending order, its own among them; its result counts them, with a new VERSION where a live rank is not among them. Reductions
are the value of the fixed tree over L, a broadcast is the root's, a gather puts each rank's at its place. How poison is
carried is the model's choice (log 156). -/
def Obligations.CollectiveResults : Prop :=
  (∀ (s t : State) (c : Cmd) (g : Cmd → Cmd) (ranks : List Nat) (parts : List (Nat × List Word)),
    c.collEnd ranks parts s = (.ok g, t) → ∃ L : List Nat, L.Pairwise (· < ·) ∧ (∀ r ∈ L, r ∈ tabLive c.kept) ∧ L ≠ []
      ∧ tabSelf c.kept ∈ L ∧ (s.colls = [] → L = ranks)
      ∧ let lost := (tabLive c.kept).filter fun r => !L.contains r
        let version := tabVersion c.kept + if lost = [] then 0 else 1
        (g c).phase = .finished ∧ (g c).status = (if lost = [] then 0 else 0x1E)
        ∧ (g c).result = BitVec.ofNat 64 (version % 2 ^ 32 * 2 ^ 32 + L.length)
        ∧ (∀ r, r < 64 → (g c).word3.getLsbD r = L.contains r)
        ∧ ((cmdCode c.c.words = 0x51 ∨ cmdCode c.c.words = 0x53) → (collOf c.c.words).root ∈ L))
  ∧ ∀ (x : CollArgs) (self : Nat) (ms : List CollMsg), ms ≠ [] →
    let w := if x.dt = 3 then 32 else 64
    let cells := fun (m : CollMsg) => (List.range x.n).map fun i => (m.elem i, m.pois x.n i)
    (x.code = 0x50 → x.dt ≤ 3 → (x.op ≤ 2 ∨ (x.op ≤ 5 ∧ x.dt ≤ 1)) → (∀ m ∈ ms, ∀ i, i < x.n → m.elem i < 2 ^ w) →
      ∃ (h : Nat → Nat → Nat) (out : List (Nat × Bool)), (∀ a b, a < 2 ^ w → b < 2 ^ w → CollCall x.dt x.op a b (h a b))
        ∧ collResult x self ms = [(0, out)] ∧ out.length = x.n
        ∧ ∀ i r p, out[i]? = some (r, p) → TreeOf h (ms.map fun m => m.elem i) r ∧ p = ms.any fun m => m.pois x.n i)
    ∧ (x.code = 0x51 → ∀ m, ms.find? (fun m => m.rank == x.root) = some m → collResult x self ms = [(0, cells m)])
    ∧ (x.code = 0x52 → collResult x self ms = [])
    ∧ (x.code = 0x53 → collResult x self ms = if x.root = self then ms.map fun m => (m.rank * x.n, cells m) else [])

/-- R329, R399 to R402: a selection visits the groups below the roots; a node is selected where its projected error is at most
TAU or it has no children. A group with a selected member that is not resident is abandoned: its parent stands for it, with FB;
in the root group such a member is dropped. The cut and the misses are written by rising id and counted. -/
def Obligations.CutsAreSelected : Prop :=
  ∀ (s t : State) (c : Cmd) (g : Cmd → Cmd), c.select s = (.ok g, t) →
    ∃ (gr : Graph) (v : ViewRec) (N : Nat → Node) (p : Place) (map : List (Nat × Bool)) (own below cut : List CutRec)
      (miss lost : List Nat) (s1 s2 s0 s3 : State) (vs : List Visit) (s4 : State),
      let bytes := (gr.n + 7) / 8
      let res := fun (i : Nat) => (map.getD (i / 8) (0, false)).1.testBit (i % 8)
      c.graph s = (.ok gr, s1) ∧ c.viewRec s1 = (.ok v, s2)
      ∧ c.source (c.w 5) bytes 1 none s2 = (.ok p, s0) ∧ Eng.each (fun i => c.load (p.at i) 1) (List.range bytes) s0 = (.ok map, s3)
      ∧ c.visit gr v (fieldOf (c.w 4) 63 32) (gr.n + 1) [(none, 0, gr.roots)] [] s3 = (.ok vs, s4)
      ∧ (∀ x ∈ vs, ∀ m ∈ x.members, N m.1.id = m.1)
      ∧ let sel := fun (i : Nat) => (N i).nchild == 0
            || f32Le (projected (fun k => v.eye.getD k 0) v.k v.dmin (N i)) (fieldOf (c.w 4) 63 32)
        Comes N sel res (List.range gr.roots) own below miss
        ∧ cut.Perm (own.filter (fun r => res r.id) ++ below) ∧ cut.Pairwise (fun a b => a.id < b.id)
        ∧ lost.Perm (miss ++ (own.filter fun r => !res r.id).map (·.id)) ∧ lost.Pairwise (· < ·)
        ∧ (∃ s5, c.writeWords (c.w 6) (cut.map CutRec.word) s4 = (.ok (), s5)
          ∧ c.writeWords (c.w 7) ((lost.take (fieldOf (c.w 0) 63 44)).map (BitVec.ofNat 64)) s5 = (.ok (), t))
        ∧ (∀ r ∈ cut, r.blk < 2 ^ 32 → r.id < 2 ^ 25 → r.word.extractLsb' 32 32 = BitVec.ofNat 32 r.blk
          ∧ r.word.extractLsb' 26 6 = 0 ∧ r.word.getLsbD 25 = r.fb ∧ r.word.extractLsb' 0 25 = BitVec.ofNat 25 r.id)
        ∧ (g c).phase = .finished ∧ (g c).result = BitVec.ofNat 64 cut.length
        ∧ (g c).word3 = BitVec.ofNat 64 (lost.length * 2 ^ 32 + (cut.filter (·.fb)).length)

/-- R332, R403 to R405: a vertex is transformed in FP32 steps and snapped once to 1/256 pixel; triangles are put in clockwise
order; a sample is written where all three edges hold it, top and left ones included, and its depth lies in [0, 1]; the word
carries the depth, the record's place, the triangle and the layer.
R333, R406, R407: a ray meets a triangle exactly where a point of the ray within [TMIN, TMAX] is the point of weights U and V
of the triangle; the nearest hit is the one of smallest t, then ID, then TRI; a ray with a NaN, without a direction or with
TMIN above TMAX meets none. T, U and V are written as FP32 numbers next to the exact ones (log 11), and a miss leaves 0 for U
and V (log 155). -/
def Obligations.RastersAndRays : Prop :=
  ((∀ (mat p : List Nat) (w h : Nat),
    let e := fun i k => mat.getD (4 * i + k) 0
    let clip := fun i => f32Add (f32Add (f32Add (f32Mul (e i 0) (p.getD 0 0)) (f32Mul (e i 1) (p.getD 1 0))) (f32Mul (e i 2) (p.getD 2 0))) (e i 3)
    let ndc := fun i => f32Div (clip i) (clip 3)
    let fine := (∀ i, i < 4 → (f32Val (clip i)).isFin = true) ∧ (∀ i, i < 3 → (f32Val (ndc i)).isFin = true) ∧ 0 < num32 (clip 3)
    let snaps := fun (q : ℚ) (x : ℤ) => RoundTo (fun z => ∃ k : ℤ, z = k) .rn (q : ℝ) x
    (∀ v, rastVert mat p w h = some v → fine ∧ snaps ((num32 (ndc 0) + 1) * w * 128) v.x ∧ snaps ((1 - num32 (ndc 1)) * h * 128) v.y
      ∧ v.z = ndc 2 ∧ v.x.natAbs ≤ 2 ^ 28 ∧ v.y.natAbs ≤ 2 ^ 28)
    ∧ (rastVert mat p w h = none → fine → ∃ x : ℤ, 2 ^ 28 < x.natAbs
      ∧ (snaps ((num32 (ndc 0) + 1) * w * 128) x ∨ snaps ((1 - num32 (ndc 1)) * h * 128) x)))
  ∧ (∀ a b c : RVert, let A := (b.x - a.x) * (c.y - a.y) - (c.x - a.x) * (b.y - a.y)
      clockwise a b c = if A = 0 then none else if A < 0 then some ([a, c, b], -A) else some ([a, b, c], A))
  ∧ (∀ (v0 v1 v2 : RVert) (area : ℤ) (w h slot tri layer x y : Nat) (word : Word),
    area = (v1.x - v0.x) * (v2.y - v0.y) - (v2.x - v0.x) * (v1.y - v0.y) → 0 < area →
    let sx : ℤ := 256 * x + 128
    let sy : ℤ := 256 * y + 128
    let E := fun (a b : RVert) => (b.x - a.x) * (sy - a.y) - (b.y - a.y) * (sx - a.x)
    let holds := fun (a b : RVert) => 0 < E a b ∨ (E a b = 0 ∧ ((a.y = b.y ∧ a.x < b.x) ∨ b.y < a.y))
    let ratio := fun (n : ℤ) (r : Nat) => ∃ fl, binary32.Rounds .rn false false (((n : ℚ) / area : ℚ) : ℝ) (r, fl)
    ((x, y, word) ∈ triSamples [v0, v1, v2] area w h slot tri layer ↔ x < w ∧ y < h ∧ holds v0 v1 ∧ holds v1 v2 ∧ holds v2 v0
      ∧ ∃ b1 b2 d : Nat, ratio (E v2 v0) b1 ∧ ratio (E v0 v1) b2
        ∧ let z := f32Add (f32Add v0.z (f32Mul b1 (f32Sub v1.z v0.z))) (f32Mul b2 (f32Sub v2.z v0.z))
          (f32Val z).isFin = true ∧ 0 ≤ num32 z ∧ num32 z ≤ 1 ∧ d = min (⌊num32 z * 16777215⌋₊ + 1) 16777215
        ∧ word = BitVec.ofNat 64 (d * 2 ^ 40 + slot * 2 ^ 15 + tri * 2 ^ 8 + layer)))
  ∧ (∀ a b, a < 2 ^ 32 → b < 2 ^ 32 →
    (∃ fl more, binary32.NanElse [a, b] more (f32Add a b, fl) (binary32.Sum .rn false (f32Val a) (f32Val b) (f32Add a b, fl)))
    ∧ (∃ fl more, binary32.NanElse [a, b] more (f32Mul a b, fl) (binary32.Product .rn false (f32Val a) (f32Val b) (f32Mul a b, fl)))
    ∧ ∃ fl more, binary32.NanElse [a, b] more (f32Div a b, fl) (binary32.Quotient .rn false (f32Val a) (f32Val b) (f32Div a b, fl))))
  ∧ ((∀ (r : Ray) (id tri : Nat) (ps : List (List Nat)), r.length = 8 → Ray.live r = true → ps.length = 3 →
    (∀ p ∈ ps, p.length = 3 ∧ ∀ b ∈ p, (f32Val b).isFin = true) →
    let p := fun k i => num32 ((ps.getD k []).getD i 0)
    let cross := fun i j => (p 1 i - p 0 i) * (p 2 j - p 0 j) - (p 1 j - p 0 j) * (p 2 i - p 0 i)
    (∀ h, hitTri r id tri ps = some h → h.id = id ∧ h.tri = tri ∧ 0 < h.den
      ∧ Ray.Meets r ps ((h.t : ℚ) / h.den) ((h.u : ℚ) / h.den) ((h.v : ℚ) / h.den)
      ∧ ∀ t u v, Ray.Meets r ps t u v → (h.t : ℚ) / h.den ≤ t)
    ∧ (hitTri r id tri ps = none → (cross 0 1 ≠ 0 ∨ cross 1 2 ≠ 0 ∨ cross 2 0 ≠ 0) → ∀ t u v, ¬ Ray.Meets r ps t u v))
  ∧ (∀ hs : List Hit, (∀ h ∈ hs, 0 < h.den) → (nearest hs = none ↔ hs = []) ∧ ∀ h, nearest hs = some h → h ∈ hs ∧ ∀ g ∈ hs,
      (h.t : ℚ) / h.den < (g.t : ℚ) / g.den ∨ ((h.t : ℚ) / h.den = (g.t : ℚ) / g.den
        ∧ (h.id < g.id ∨ (h.id = g.id ∧ h.tri ≤ g.tri))))
  ∧ (∀ (r : Ray) (bs : List (CutRec × Block)), r.length = 8 →
      ((∃ b ∈ r, (f32Val b).isNan = true) ∨ (∀ i, i < 3 → (f32Val (r.getD (4 + i) 0)).isZero = true)
        ∨ f32Le (r.getD 3 0) (r.getD 7 0) = false) → rayHits r bs = [])
  ∧ ∀ (r : Ray) (i : Nat), hitWords r i none = [0x7F800000, 0, BitVec.ofNat 64 i, 0]
    ∧ ∀ h : Hit, 0 < h.den → ∃ T U V : Nat, hitWords r i (some h)
        = [BitVec.ofNat 64 ((h.id * 128 + h.tri) * 2 ^ 32 + T), BitVec.ofNat 64 (V * 2 ^ 32 + U), BitVec.ofNat 64 i, 0]
      ∧ ∀ x ∈ [(h.t, T), (h.u, U), (h.v, V)], ∃ rm fl, (rm = .rd ∨ rm = .ru)
        ∧ binary32.Rounds rm false false (((x.1 : ℚ) / h.den : ℚ) : ℝ) (x.2, fl))

/-! ## The memory system -/

/-- R178, R179, R221, R223, R237, R417: clean L1 bytes leave after 2^20 cycles; a dirty sector's bytes go to their home;
a walk fills the caches of the pods that wait on it and frees its fibres, or leaves a fault that the slice writes to its
ring; a dead frame's fill makes it live and zero but for the bytes of waiting writes.
R239, R240, R242, R354, R392 to R394, R429: failed command replays, row activations, a lost expander, a lost
package and the ports. The third failed replay of a history fails the pseudo-channel; a saturated or misread count holds
the bank; an expander that goes down leaves no cached line and no outstanding operation; each is logged where the spec says so (log 173: events that only devices can show are inputs of the tape). -/
def Obligations.MemoryEvents : Prop :=
  ((∀ (pod base : Nat) (s : State), ∃ t : State, exec (.l1CleanExpire pod base) s = .next t
    ∧ (∀ c ∈ (t.pod pod).l1, c.base = base → c.full = true → s.clock < c.filled + 2 ^ 20)
    ∧ (∀ c ∈ (s.pod pod).l1, c.dirty = true → ∃ x ∈ (t.pod pod).l1, x.base = c.base ∧ x.tag = c.tag ∧ x.en = c.en
        ∧ x.data = c.data ∧ x.wpois = c.wpois ∧ x.wclean = c.wclean)
    ∧ (∀ k, k ≠ pod → t.pod k = s.pod k) ∧ { t with pods := [] } = { s with pods := [] })
  ∧ (∀ (pod base : Nat) (s : State) (c : Sector), secFind (s.pod pod).l1 base none = some c → c.dirty = true →
    s.sliceOn base = true → ∃ t : State, exec (.l1DirtyWriteback pod base) s = .next t
    ∧ (∀ x, secFind (t.pod pod).l1 base none = some x → x.dirty = false)
    ∧ (∃ x, secFind t.l2 base none = some x ∧ x.data &&& c.en = c.data &&& c.en)
    ∧ t.mem = s.mem ∧ t.fibres = s.fibres ∧ t.teams = s.teams)
  ∧ (∀ (n : Nat) (s s1 : State) (w : Walk), s.walks.find? (fun w => w.id == n) = some w → s.hasWalker n = true →
    (∀ l : Tlb, s.walk w.part w.va = (.ok l, s1) → ∃ t : State, exec (.translationWalk n) s = .next t
      ∧ (w.fills = [] → ∀ p ∈ w.pods, l ∈ (t.pod p).tlb) ∧ t.walks = s.walks.filter (fun x => x.id != n)
      ∧ (s.fillWait = [] → t.mem = s.mem)
      ∧ (∀ b ∈ t.fibres, ∀ a k, b.hold ≠ .walk n a k ∧ b.waits.contains (.walk n a k) = false))
    ∧ (∀ e : WalkFail, s.walk w.part w.va = (.error e, s1) → w.quiet = false →
      (∀ f ∈ s.faults, ¬ (f.part = w.part ∧ f.page = w.va / 65536)) → ∃ t : State, exec (.translationWalk n) s = .next t
      ∧ t.faults = s.faults ++ [⟨s.fresh, w.part, faultWords w.va w.addr w.core w.queue w.kind e s.clock, none, w.va / 65536⟩]
      ∧ t.walks = s.walks.filter (fun x => x.id != n)
      ∧ (∀ b ∈ s.fibres, ∀ a k, b.hold = .walk n a k → ∃ x ∈ t.fibres, x.fid = b.fid ∧ x.hold = .fault s.fresh a k)))
  ∧ (∀ (part : Nat) (s : State) (f : FaultRec), s.faults.find? (fun f => f.part == part && f.num.isNone) = some f →
    let p := s.part part
    p.configured = true → p.ftail - p.fhead < 2 ^ p.frlog → p.frbase % 8 = 0 → p.frbase + 32 * 2 ^ p.frlog < 2 ^ 52 →
    f.words.length = 4 → ∃ t : State, exec (.faultRecordWrite part) s = .next t
    ∧ (∀ k, k < 4 → t.mem.word (hostSpace + p.frbase + 32 * (p.ftail % 2 ^ p.frlog) + 8 * k) = f.words.getD k 0)
    ∧ (t.part part).ftail = p.ftail + 1 ∧ (t.part part).msiDue.contains 1 = true
    ∧ (∃ x ∈ t.faults, x.walk = f.walk ∧ x.num = some p.ftail) ∧ t.fibres = s.fibres)
  ∧ (∀ (f : Nat) (s : State), fwDead (s.frame f) = true → s.stacksOff.contains (f % 8) = false →
    (∃ x ∈ s.fillWait, x.1 = f) → ∃ t : State, exec (.deadFrameFill f) s = .next t ∧ fwDead (t.frame f) = false
    ∧ (∀ a, inFrame f a = true → (∀ x ∈ s.fillWait, x.1 = f → x.2.base ≤ a → a < x.2.base + 64 →
        x.2.en.extractLsb' (8 * (a - x.2.base)) 8 = 0) → t.mem.byte a = 0)
    ∧ t.fibres = s.fibres ∧ t.teams = s.teams))
  ∧ (∀ (s : State) (stack q bank row e port pkg : Nat),
    let k := stack * 64 + q
    let here : Nat × Nat × Nat × Nat := (stack, q, bank, row)
    (s.badPc.contains k = false →
      exec (.caParityReplay stack q true) s = .next { s with caTries := s.caTries.set k 0 }
      ∧ (NMap.get s.caTries k < 2 → exec (.caParityReplay stack q false) s
          = .next { s with caTries := s.caTries.set k (NMap.get s.caTries k + 1) })
      ∧ (2 ≤ NMap.get s.caTries k → ∃ t : State, exec (.caParityReplay stack q false) s = .next t
          ∧ t.badPc.contains k = true ∧ t.events.getLast? = some (0x05, s.clock, BitVec.ofNat 64 (stack * 2 ^ 48 + q * 2 ^ 40))
          ∧ t.mem = s.mem))
    ∧ (s.actCount stack q bank row < 512 → exec (.refreshManagement stack q bank row) s = .next s)
    ∧ (512 ≤ s.actCount stack q bank row → ∃ t : State, exec (.refreshManagement stack q bank row) s = .next t ∧ (∀ a ∈ t.acts, a.1 ≠ here)
        ∧ (∀ a ∈ s.acts, a.1 ≠ here → a ∈ t.acts) ∧ { t with acts := [] } = { s with acts := [] })
    ∧ (s.actCount stack q bank row < 1023 → exec (.activationSaturate stack q bank row false) s = .next s)
    ∧ (∀ parity : Bool, parity = true ∨ (1023 ≤ s.actCount stack q bank row ∧ s.heldBanks.contains (stack, q, bank) = false) →
        ∃ t : State, exec (.activationSaturate stack q bank row parity) s = .next t
        ∧ (here, 1023) ∈ t.acts ∧ t.heldBanks.contains (stack, q, bank) = true
        ∧ t.events = s.events ++ [(if parity then 0x02 else 0x07, s.clock,
            BitVec.ofNat 64 (10 * 2 ^ 56 + stack * 2 ^ 48 + q * 2 ^ 40 + bank * 2 ^ 32 + row))] ∧ t.mem = s.mem)
    ∧ (∃ t : State, exec (.refreshManagementComplete stack q bank) s = .next t
        ∧ t.heldBanks.contains (stack, q, bank) = false ∧ t.mem = s.mem ∧ t.events = s.events
        ∧ (∀ a ∈ t.acts, a.1.1 = stack → a.1.2.1 = q → a.1.2.2.1 = bank → a.2 ≠ 1023)
        ∧ ∀ a ∈ s.acts, (a.1.1 ≠ stack ∨ a.1.2.1 ≠ q ∨ a.1.2.2.1 ≠ bank ∨ a.2 ≠ 1023) → a ∈ t.acts)
    ∧ ((NMap.get s.ports port).up = true →
      (∀ again : Bool, (again = true → 0 < (NMap.get s.ports port).tries ∧ (NMap.get s.ports port).tries < 16) →
        let tries := if again then (NMap.get s.ports port).tries + 1 else 1
        ((NMap.get s.ports port).replays + 1 < 4096 → ∃ t : State, exec (.flitReplay ⟨port, again⟩) s = .next t
          ∧ NMap.get t.ports port = ⟨true, (NMap.get s.ports port).replays + 1, tries⟩ ∧ t.events = s.events)
        ∧ (4096 ≤ (NMap.get s.ports port).replays + 1 → ∃ t : State, exec (.flitReplay ⟨port, again⟩) s = .next t
          ∧ NMap.get t.ports port = ⟨true, 0, tries⟩ ∧ t.events = s.events ++ [(0x03, s.clock, BitVec.ofNat 64 port)]))
      ∧ (16 ≤ (NMap.get s.ports port).tries → exec (.flitReplay ⟨port, true⟩) s = .next s)
      ∧ ((NMap.get s.ports port).tries ≠ 16 → exec (.portDown port) s = .next s)
      ∧ ((NMap.get s.ports port).tries = 16 → ∃ t : State, exec (.portDown port) s = .next t
        ∧ (NMap.get t.ports port).up = false ∧ (∀ j, j ≠ port → NMap.get t.ports j = NMap.get s.ports j)
        ∧ t.events = s.events ++ [(0x04, s.clock, BitVec.ofNat 64 port)]
        ∧ ∀ o ∈ t.pend, ∀ k, o.route = some k → k.1 ≠ port))
    ∧ (pkg ≠ s.pkg → pkg < 1024 → ∃ t : State, exec (.packageLost pkg) s = .next t ∧ t.lostPkgs.contains pkg = true
        ∧ (∀ j, j ≠ pkg → t.lostPkgs.contains j = s.lostPkgs.contains j) ∧ { t with lostPkgs := [] } = { s with lostPkgs := [] })
    ∧ ((NMap.get s.cxl e).up = true → ∀ i ∈ [Instr.cxlLinkDown e, .cxlTimeout e], ∃ t : State, exec i s = .next t.sweep
        ∧ (NMap.get t.cxl e).up = false ∧ (∀ c ∈ t.l2, inCxl e c.base = false)
        ∧ (∀ p, ∀ c ∈ (t.pod p).l1, inCxl e c.base = false)
        ∧ (∀ o ∈ t.pend, o.act.isFollow = false → ∀ l ∈ o.places, ∀ a x, l = .mem a x → inCxl e a = false) ∧ t.mem = s.mem))

/-- R351 to R354: an access to another package waits sent until its answer, which it then takes its value from; without
one its registers are poisoned. A request from another package is performed at the home here, and answered; a
second arrival of it is discarded. -/
def Obligations.PackageAccesses : Prop :=
  (∀ (n : Nat) (s : State) (o : MemOp), s.op? n = some o → s.away o = true →
    (s.mayPerform o = true → s.barred o = false → s.gone o = false → o.sent = false → ∃ t : State,
      exec (.trackedComplete n) s = .next t ∧ (∃ x, t.op? n = some x ∧ x.sent = true) ∧ t.fibres = s.fibres
      ∧ t.groups = s.groups)
    ∧ (∀ (r : Fin 128) (k : Nat) (bs : List Byte) (p : List Bool) (a : Nat) (x : PageAttr), o.sent = true →
      o.act = .ld (some (.x r)) k false false false false → (k = 1 ∨ k = 2 ∨ k = 4 ∨ k = 8) → o.loc = .mem a x →
      x.tag = none → (s.fib? o.fib).isSome = true →
      (∃ u : State, exec (.remoteResponse n bs p) s = .next u.sweep
        ∧ u.reg o.fib (.x r) = ⟨BitVec.ofNat 64 (leNat (bs.take k)), p.getD 0 false⟩ ∧ u.op? n = none)
      ∧ (∃ u : State, exec (.remoteTimeout n) s = .next u.sweep ∧ u.reg o.fib (.x r) = ⟨0, true⟩ ∧ u.op? n = none)))
  ∧ (∀ (s : State) (src seq a : Nat), s.received.contains (src, seq) = false →
    (∀ n : Nat, ∃ (t : State) (bs : List Byte) (p : List Bool), exec (.ualinkInboundRequest ⟨src, seq, .read a n⟩) s = .next t
      ∧ bs.length = n ∧ t.answers = s.answers ++ [(a, bs, p)] ∧ t.received.contains (src, seq) = true
      ∧ (s.fillWait = [] → t.mem = s.mem) ∧ t.fibres = s.fibres)
    ∧ (∀ v : Word, a % 8 = 0 → s.sliceOn (secBase (a % 2 ^ 39)) = true → ∃ t : State,
      exec (.ualinkInboundRequest ⟨src, seq, .write a (leBytes 8 v.toNat) [] []⟩) s = .next t
      ∧ t.homeWord (a % 2 ^ 39) = ⟨v, false⟩ ∧ t.answers = s.answers ++ [(a, [], [])] ∧ t.fibres = s.fibres))
  ∧ (∀ (s : State) (src seq : Nat) (r : InReq), s.received.contains (src, seq) = true →
    exec (.ualinkInboundRequest ⟨src, seq, r⟩) s = .next s)

/-! ## Recovery and the front end -/

/-- R364 to R366, R381, R382, R429: a corrected error is logged, and a row's repair counted as a write. An uncorrectable
result outside a region poisons its register under ACCEPT, and inside an open region makes the team await replay; a
structure that fails twice within 600 s is retired, and one of the core's own units then fences the core. -/
def Obligations.ChecksFail : Prop :=
  ∀ (s : State) (site : CheckSite),
    exec (.correctedError site) s
      = .next { s with
          wrs := (match site with | .hbm st q _ _ => s.wrs.mod (st * 64 + q) (· + 1) | _ => s.wrs)
          events := s.events ++ [(0x01, s.clock, BitVec.ofNat 64 (CheckSite.place site))] }
    ∧ (∀ (f : FibId) (r : Fin 128) (b : Fibre) (t : Team), s.fib? f = some b → s.team? f.team = some t →
        CheckSite.core? site = some t.core → (CheckSite.row site ≤ 2 ∨ CheckSite.row site = 4) → t.phase = .resident →
        (∀ x ∈ s.lastFail, x.1 ≠ site) → s.resultOpen f (.x r) = true →
        (t.rOpen = true → s.saving t = false → ∃ u : State, exec (.checkFail site (.result f (.x r))) s = .next u
          ∧ (u.team? t.id).map (·.failing) = some (some site) ∧ u.fibres = s.fibres)
        ∧ (t.rOpen = false → t.betweenInstances = false → s.accepts t = true → ∃ u : State,
          exec (.checkFail site (.result f (.x r))) s = .next u
          ∧ u.reg f (.x r) = ⟨(s.reg f (.x r)).v, true⟩ ∧ (∀ n, n ≠ r → u.reg f (.x n) = s.reg f (.x n)) ∧ u.teams = s.teams))
    ∧ (∀ core last : Nat, site = .sfu core → s.lastFail.find? (fun x => x.1 == site) = some (site, last) → last ≤ s.clock →
        s.clock - last ≤ 3300 * 600000000 → s.retired.contains site = false → (s.core core).fenced = false → ∃ u : State,
        exec (.checkFail site .nothing) s = .next u ∧ u.retired = s.retired ++ [site] ∧ (u.core core).fenced = true
        ∧ (0x06, s.clock, BitVec.ofNat 64 (core * 2 ^ 32)) ∈ u.events)

/-- R163, R372 to R376, R387 to R389: a cluster that is to be saved is, when its teams can be, and its open instances
stand at their checkpoints; a saved one is placed at a rectangle that admits it; a failed check replays the team from its
checkpoint, counting the replay.
R293 to R295: a team without progress for T1 has its cluster saved, for T2 its clutch killed; a killed clutch whose
team has not stopped T3 − T2 later has its core fenced; and a team that a fenced core still holds after 1 ms is killed. -/
def Obligations.ClustersMove : Prop :=
  (∀ (s : State) (n origin : Nat) (c : Cluster), s.cluster? n = some c →
    (c.phase = .resident → c.preempt = true → s.clusterFailing n = false → (∀ t ∈ s.clusterTeams n, s.savable t = true) →
      ∃ u : State, exec (.preemptSave n) s = .next u
        ∧ (∀ x, u.cluster? n = some x → x.preempt = false
            ∧ x.phase = if (s.clusterTeams n).any (·.brkRec.isSome) then .held else .saved)
        ∧ (∀ t : Team, s.clusterTeams n = [t] → s.team? t.id = some t → t.phase = .resident → ∀ x, u.team? t.id = some x →
            x.phase = .saved ∨ x.phase = .held ∨ x.phase = .ended))
    ∧ (∀ cores : List (Nat × List Nat), c.phase = .saved → s.power = .on → s.forestalled c = false → s.restorable c origin = some cores →
      ∃ u : State, exec (.clusterRestore n origin) s = .next u.sweep
        ∧ (∀ x, u.cluster? n = some x → x.phase = .resident ∧ x.origin = origin))
    ∧ (∀ (t : Team) (k : Ckpt) (site : CheckSite), c.phase = .resident → s.clusterTeams n = [t] → s.team? t.id = some t →
      s.replayable t = true → t.phase = .resident → t.rOpen = true → t.ckpt = some k → t.failing = some site →
      t.fatal = false → t.replay < 2 → (∀ f ∈ k.fibres, f.hold ≠ .exit ∧ f.waits = [] ∧ f.fid.team = t.id) →
      ∃ u : State, exec (.regionReplay n origin) s = .next u
        ∧ (u.team? t.id).map (fun x => (x.replay, x.rOpen, x.inst, x.tag, x.tvec, x.ustate, x.prio))
            = some (t.replay + 1, true, t.inst, t.tag, k.tvec, k.ustate, k.prio)
        ∧ (∀ x, u.cluster? n = some x → x.phase = .saved ∨ x.phase = .resident)))
  ∧ (∀ (s : State) (t : Team), s.team? t.id = some t →
    let q := s.teamQueue t
    (t.phase = .resident → t.idleActed = false → s.qT1 t.part q ≠ 0 → 3300 * s.qT1 t.part q ≤ t.idle → ∃ u : State,
      exec (.watchdogPreempt t.id) s = .next u ∧ (u.team? t.id).map (·.idleActed) = some true
      ∧ (∀ c, s.cluster? t.cluster = some c → c.phase = .resident → (u.cluster? t.cluster).map (·.preempt) = some true)
      ∧ u.fibres = s.fibres)
    ∧ (∀ c : Clutch, s.clutch? t.clutch = some c → c.killed = none →
      (t.phase = .resident → s.qT2 t.part q ≠ 0 → 3300 * s.qT2 t.part q ≤ t.idle → ∃ u : State,
        exec (.watchdogKill t.id) s = .next u ∧ (u.clutch? t.clutch).map (·.killed) = some (some 0x102)
        ∧ u.teamFibres t.id = [])
      ∧ (t.phase = .resident → (s.core t.core).fenced = true → (s.core t.core).fencedAt + 3300 * 1000 ≤ s.clock →
        ∃ u : State, exec (.fenceSaveTimeout t.id) s = .next u ∧ (u.clutch? t.clutch).map (·.killed) = some (some 0x102)
        ∧ u.teamFibres t.id = []))
    ∧ (t.phase = .dying → (s.clutchOf t).killAt + 3300 * (s.qT3 t.part q - s.qT2 t.part q) ≤ s.clock →
      (s.core t.core).fenced = false → ∃ u : State, exec (.watchdogFence t.id) s = .next u
        ∧ (u.core t.core).fenced = true ∧ (u.core t.core).fencedAt = s.clock))

/-! ## The front end -/

/-- R258, R280 to R283: a card that its table allows, whose places its queue's slice may reach, is taken in order of its
submission, numbered, and joins the intake; one that breaks its table is rejected. The head of the intake, when the range
dependence table has room, depends on the earlier cards in flight whose ranges its own meet.
R104, R284 to R288, R291, R292, R336: the chosen card's next chunk is launched on a free rectangle, one team a core in rank
order (the chunk base of a node is the count dealt so far, log 161), its fibres at ENTRY with clear registers; a waiting chunk has the least urgent, youngest cluster saved; a clutch with
every team ended and every command complete retires, and its RFUT is resolved or failed. -/
def Obligations.CardsAndChunks : Prop :=
  ((∀ (s s1 : State) (n : Nat) (x : Sub) (ws : List Word), s.subs.find? (fun x => x.id == n) = some x → x.hold = .free →
    (∀ y ∈ s.subs, y.id < x.id → Sub.sameOrigin y x = false) → s.readCard x.part x.card x.queue = (.ok ws, none, s1) →
    let c : Clutch := { (default : Clutch) with card := ws, part := x.part }
    (c.fieldsOk = true → c.shapeOk = true → s1.coresOk c = true → (s1.addressesOk x.part c.addresses).1 = true →
      let sa := (s1.addressesOk x.part c.addresses).2
      sa.qEn x.part c.queue = true → ∀ (ts : List Word) (w : Option Nat) (s2 : State),
      (if c.smax = 0 then ((.ok [] : Except Nat (List Word)), (none : Option Nat), sa) else sa.readTargets x.part (c.word 7) c.queue 8)
        = (.ok ts, w, s2) → s2.depth x.part c.queue < 4096 → ∃ (t : State) (k : Clutch),
        exec (.cardIntake n) s = .next t ∧ t.clutches = s2.clutches ++ [k] ∧ (∀ y ∈ t.subs, y.id ≠ n)
        ∧ k.id = n ∧ k.card = ws ∧ k.targets = ts ∧ k.cardAddr = x.card ∧ k.part = x.part ∧ k.phase = .intake ∧ k.waiter = x.fib
        ∧ k.seq = (s2.part x.part).nextSeq ∧ (t.part x.part).nextSeq = (s2.part x.part).nextSeq + 1
        ∧ k.prio = max (fieldOf (c.word 4) 2 0) (max (s2.qFloor x.part c.queue) x.floor)
        ∧ k.priv = (s2.qPriv x.part c.queue && (x.cmd.isSome || (x.fib.isSome && x.priv))))
    ∧ (∀ m : Nat, c.fieldsOk = false → x.fib = none → x.cmd = some m → (s1.part x.part).configured = true → ∃ t : State,
        exec (.cardIntake n) s = .next t
        ∧ Records { s1 with subs := s1.subs.filter fun y => y.id != n } t x.part 0x02 c.queue 0x1B
            (BitVec.ofNat 64 (m % 2 ^ 32 + 6 * 2 ^ 32))))
  ∧ (∀ (s : State) (part : Nat) (c : Clutch), s.intakeFirst part = some c → s.rangeEntries + c.nrange ≤ 4096 →
    ∃ t : State, exec (.intakeHead part) s = .next t
      ∧ (t.clutch? c.id).map (fun k => (k.phase, k.waiter, k.spans)) = some (.queued, none, (s.virtualSpans c).1)
      ∧ (t.clutch? c.id).map (·.deps) = some ((s.clutches.filter fun e => e.part == part && e.inFlight && decide (e.seq < c.seq)
          && e.spans.any fun x => (s.virtualSpans c).1.any fun y => spansMeet x y).map (·.id))
      ∧ (c.waiter = none → t.fibres = s.fibres)
      ∧ (∀ f p, c.waiter = some (f, p) →
          t.fibres = (s.modFib f fun b => (b.setPred p true).release (.answer c.id)).fibres)))
  ∧ ((∀ (s : State) (id o slot : Nat) (c : Clutch) (cores : List (Nat × List Nat)), s.clutch? id = some c → s.power = .on →
    s.awaiting c = true → s.savedOf c = [] → s.outdone c = false → (c.coRes = false ∨ s.chunksNow c = 1) →
    s.placeable c o = some cores → s.freeSlot c (c.slots.getD (s.slotCount c)) = some slot →
    let size := if c.node then min (chunkSize c.remaining c.minch (c.slots.getD (s.slotCount c))) (c.count - c.poolHead)
      else chunkSize c.remaining c.minch (c.slots.getD (s.slotCount c))
    ∃ (t : State) (k : Cluster), exec (.chunkDeal id [o]) s = .next t ∧ k ∈ t.clusters ∧ k.clutch = id ∧ k.chunk = c.chunks
      ∧ k.base = c.dealt ∧ k.count = size ∧ k.phase = .resident ∧ k.origin = o ∧ k.prio = c.prio ∧ k.ckSlot = slot
      ∧ (t.clutch? id).map (fun x => (x.dealt, x.chunks, x.slots))
          = some (c.dealt + size, c.chunks + 1, some (c.slots.getD (s.slotCount c)))
      ∧ (∀ i, i < cores.length → ∃ x ∈ t.teams, x.cluster = k.id ∧ x.clutch = c.id ∧ x.rank = i ∧ x.core = (cores.getD i (0, [])).1
          ∧ x.regs = c.regs ∧ x.width = c.width ∧ x.groups = c.groups ∧ x.spadSize = c.spadBytes ∧ x.accRows = c.accRows
          ∧ x.phase = .resident ∧ (∀ g l, g < c.groups → l < c.width → ∃ f ∈ t.fibres, f.fid = ⟨x.id, g, l⟩ ∧ f.pc = c.entry
            ∧ (∀ r, NMap.get f.x r = ⟨0, false⟩) ∧ f.preds = 0x80 ∧ f.tile = min c.width 32 ∧ f.hold = .free)))
  ∧ (∀ (s : State) (id victim : Nat) (c : Clutch) (x : Cluster), s.clutch? id = some c → s.cluster? victim = some x →
    s.starves c = true → c.displaces x = true → (∀ y ∈ s.clusters, c.displaces y = true →
      y.prio < x.prio ∨ (y.prio = x.prio ∧ y.since ≤ x.since)) → s.rectFree c = false →
    exec (.preemptRequest id victim) s = .next (s.modCluster victim fun x => { x with preempt := true }))
  ∧ (∀ (s : State) (id : Nat) (c : Clutch) (i : Instr), s.clutch? id = some c → s.allDone c = true →
    (i = .clutchRetire id ∧ c.node = false ∧ c.remaining = 0
      ∨ i = .nodeClose id ∧ c.node = true ∧ c.undealt = 0 ∧ s.producers c = []) → (s.part c.part).configured = true →
    ∃ u : State, exec i s = .next (u.endFuture c (c.halted.getD 0) c.halted.isSome)
      ∧ (u.clutch? id).map (·.phase) = some .retired ∧ (∀ t ∈ u.teams, t.clutch ≠ id) ∧ (∀ k ∈ u.clusters, k.clutch ≠ id)
      ∧ (u.part c.part).jtail = (s.part c.part).jtail + 1 ∧ u.fibres = s.fibres))

/-! ## Media -/

/-- R409 to R411, R435, R436: a head's frame goes to its encoder, one pixel for each place of the frame, with the number of those
substituted. A word of it may be read before the others, once the period has started (log 185). A pixel's luma and its chroma,
before that is halved, are those of BT.709 in 10-bit limited range, each rounded once; these numbers are the model's (log 12). A
written frame is counted, a dropped one leaves a resynchronization, and frames whose encoder is off are lost. -/
def Obligations.FramesAreEncoded : Prop :=
  (∀ (s : State) (n : Nat), let h := NMap.get s.heads n
    let e := NMap.get s.encs h.enc
    s.power = .on → h.on = true → e.on = true → h.width % 8 = 0 →
    (h.begun = none → ∀ t, h.start = some t → t + 3300 * h.period ≤ s.clock) →
    ∃ (t : State) (k : Nat) (px : List Word), exec (.headFrameScan n) s = .next t ∧ px.length = h.width * h.height
      ∧ NMap.get t.encs h.enc = { e with subs := e.subs + k, input := e.input ++ [⟨n, h.begun.getD s.clock, k, h.width, h.narrow, px⟩] }
      ∧ k ≤ h.width * h.height
      ∧ (NMap.get t.heads n).start = some (h.begun.getD s.clock) ∧ (NMap.get t.heads n).words = h.words
      ∧ (NMap.get t.heads n).prev.flatten = px ∧ (∀ j, j ≠ h.enc → NMap.get t.encs j = NMap.get s.encs j)
      ∧ (s.fillWait = [] → t.mem = s.mem) ∧ t.fibres = s.fibres ∧ t.teams = s.teams)
  ∧ (∀ (s : State) (n : Nat), let h := NMap.get s.heads n
    s.headReads h = true → h.early.length < h.height * h.rowWords → ∃ w : Option (Word × Bool),
      NMap.get (s.headWord n).heads n = { h with early := h.early ++ [w], begun := some (h.begun.getD s.clock) }
      ∧ (s.headWord n).encs = s.encs ∧ (s.headWord n).fibres = s.fibres)
  ∧ (∀ px : Word, RoundTo (fun z => ∃ k : ℤ, z = k) .rn
      (64 + 876 * ((2126 * fieldOf px 7 0 + 7152 * fieldOf px 15 8 + 722 * fieldOf px 23 16 : Nat) : ℝ) / (10000 * 255))
      (lumaCode true px : ℝ))
  ∧ (∀ px : Word, let c := fun (i : Nat) => (fieldOf px (8 * i + 7) (8 * i) : ℝ) / 255
      let y := (2126 * c 0 + 7152 * c 1 + 722 * c 2) / 10000
      ((chromaSums true px).1 : ℝ) / (18556 * 255) = 512 + 896 * ((c 2 - y) / (18556 / 10000))
      ∧ ((chromaSums true px).2 : ℝ) / (15748 * 255) = 512 + 896 * ((c 0 - y) / (15748 / 10000)))
  ∧ (∀ n d : Nat, 0 < d → 64 * d ≤ n → n ≤ 960 * d → RoundTo (fun z => ∃ k : ℤ, z = k) .rn ((n : ℝ) / d) (chromaCode n d : ℝ))
  ∧ (∀ (s : State) (n : Nat) (f : Frame) (rest : List Frame), let e := NMap.get s.encs n
    e.input = f :: rest → e.fault = none → s.power = .on →
    (e.on = false → exec (.encoderRingWrite n) s = .next { s with encs := s.encs.set n { e with input := [] } })
    ∧ (e.on = true → ∀ s1 : State, s.ringPointers (s.encPart n) e = (.error none, s1) → ∃ t : State,
        exec (.encoderRingWrite n) s = .next t ∧ NMap.get t.encs n
          = { NMap.get s1.encs n with dropped := (NMap.get s1.encs n).dropped + 1, resync := true, input := rest, fault := none,
                                       frameNo := (NMap.get s1.encs n).frameNo + 1 })
    ∧ (e.on = true → ∀ (s1 s2 : State) (ptr : Loc) (wr rd : Nat) (ps : List Loc),
        s.ringPointers (s.encPart n) e = (.ok (ptr, wr, rd), s1) →
        let len := (e.stream s.tick f).length
        let entry := 32 + (len + 31) / 32 * 32
        let size := 2 ^ e.rlog
        let pad := if size < wr % size + entry then size - wr % size else 0
        let first := if pad = 0 then wr % size else 0
        let at_ := fun o : Nat => mkAddr (indexOf (e.w 1)) (offsetOf (e.w 1) + o)
        ((wr + 2 ^ 64 - rd) % 2 ^ 64) + pad + entry ≤ size →
        s1.ringPlaces (s.encPart n) ((if pad = 0 then [] else [at_ (wr % size)])
          ++ (List.range (entry / 32)).map fun i => at_ (first + 32 * i)) = (.ok ps, s2) → ∃ t : State,
        exec (.encoderRingWrite n) s = .next t ∧ (NMap.get t.encs n).frames = (NMap.get s2.encs n).frames + 1
        ∧ (NMap.get t.encs n).bytes = (NMap.get s2.encs n).bytes + len ∧ (NMap.get t.encs n).input = rest
        ∧ (NMap.get t.encs n).resync = false ∧ (NMap.get t.encs n).frameNo = (NMap.get s2.encs n).frameNo + 1
        ∧ (t.part (s.encPart n)).msiDue.contains 2 = true))

/-! ## Commands of the host -/

/-- R203, R222, R232 to R235, R238, R280, R297, R413: SUBMIT sends a card to the front end; FRAME, DEAD, PROFILE and SHADOW change the
frame table, the profiles and the shadow cells of frames that the function's slice owns, and nothing else but what is cached
of them. Which commands change what, where the table is silent, is log 183.
R242, R286, R295, R313, R354, R408, R414, R435, R438: each of these commands, where its limits hold, sets the record or
register that it names, and changes nothing else (logs 182, 183 and 184). -/
def Obligations.MemoryAndUnitCommands : Prop :=
  (∀ (s : State) (fn : Nat) (c : HostCmd), s.hasFn fn = true → (s.part fn).configured = true → c.hi = 0 →
    let f := c.w1.toNat
    let n := c.w2.toNat
    let bare := fun u : State => { u with frames := [], mem := ⟨[], []⟩, fillWait := [], pods := [], dtlb := [], teams := [], l2 := [],
                                          guests := [], reps := [], sib := [] }
    -- accesses already translated keep the place that the old entry gave them (R222)
    let moved := fun u : State => { bare u with pend := [], running := [] }
    (∃ x : Sub, exec (.submit fn c) s = .next { (s.modPart fn fun p => { p with nextCmd := p.nextCmd + 1 }) with
        fresh := s.fresh + 1, subs := s.subs ++ [x] }
      ∧ x.id = s.fresh ∧ x.part = fn ∧ x.card = c.w1 ∧ x.queue = c.queue.toNat ∧ x.cmd = some (s.part fn).nextCmd ∧ x.fib = none
      ∧ x.hold = .free)
    ∧ (fieldOf c.w2 63 32 = 0 → fieldOf c.w2 29 27 = 0 → c.w2.getLsbD 19 = false → f < 2 ^ 19 → s.frameOwned fn f = true →
        s.stacksOff.contains (fwStack c.w2) = false → fwOwner c.w2 = ownerOf s.mode (fwStack c.w2) → fwOwner c.w2 = fn →
        (fwV c.w2 = true → s.placeTaken f c.w2 = false) →
        Takes (.frame fn c) s fn 0xFF fun s' u =>
          u.frame f &&& ~~~0x40000000 = c.w2 &&& ~~~0x40000000
          ∧ fwDead (u.frame f) = (fwDead (s.frame f) || !frameKept (s.frame f) c.w2)
          ∧ (frameKept (s.frame f) c.w2 = false → ∀ a, inFrame f a = true → u.mem.byte a = 0)
          ∧ (∀ g, g ≠ f → u.frame g = s.frame g) ∧ (∀ a, inFrame f a = false → u.mem.byte a = s.mem.byte a) ∧ moved u = moved s')
    ∧ (f + n ≤ 2 ^ 19 → (∀ k ∈ span f n, s.frameOwned fn k = true) →
        (Takes (.dead fn c) s fn 0xFF fun s' u =>
          (∀ k ∈ span f n, fwDead (u.frame k) = true ∧ u.frame k &&& ~~~0x40000000 = s.frame k &&& ~~~0x40000000
            ∧ ∀ a, inFrame k a = true → u.mem.byte a = 0)
          ∧ (∀ g, g ∉ span f n → u.frame g = s.frame g)
          ∧ (∀ a, (∀ k ∈ span f n, inFrame k a = false) → u.mem.byte a = s.mem.byte a) ∧ bare u = bare s')
        ∧ (Takes (.shadow fn c) s fn 0xFF fun s' u =>
          (∀ a, f * 2 ^ 20 ≤ a → a < (f + n) * 2 ^ 20 → NMap.get u.sib a = default ∧ u.mem.byte a = 0)
          ∧ (∀ a, (a < f * 2 ^ 20 ∨ (f + n) * 2 ^ 20 ≤ a) → NMap.get u.sib a = NMap.get s.sib a)
          ∧ (∀ k ∈ span f n, fwDead (u.frame k) = false ∧ u.frame k &&& ~~~0x40000000 = s.frame k &&& ~~~0x40000000)
          ∧ (∀ g, g ∉ span f n → u.frame g = s.frame g)
          ∧ (∀ k, NMap.get u.wrs k = NMap.get s.wrs k + 256 * (span f n).countP fun g => fwStack (s.frame g) == k / 64)
          ∧ (∀ a, (∀ k ∈ span f n, inFrame k a = false) → u.mem.byte a = s.mem.byte a)
          ∧ { bare u with wrs := [] } = { bare s' with wrs := [] }))
    ∧ ((∀ w ∈ [c.w2, c.w3, c.w4, c.w5, c.w6, c.w7], fieldOf w 63 12 = 0) → f ≤ 15 →
        independent ([c.w2, c.w3, c.w4, c.w5, c.w6, c.w7].map fun w => w.extractLsb' 0 12) = true →
        (∀ x ∈ s.frames, fwProfile x.2 = f → fwDead x.2 = true) →
        Takes (.profile fn c) s fn 0xFF fun s' u =>
          u.profile f = [c.w2, c.w3, c.w4, c.w5, c.w6, c.w7].map (fun w => w.extractLsb' 0 12)
          ∧ (∀ k, k ≠ f → u.profile k = s.profile k) ∧ { u with profiles := [] } = { s' with profiles := [] }))
  ∧ (∀ (s : State) (fn : Nat) (c : HostCmd), s.hasFn fn = true → (s.part fn).configured = true → c.hi = 0 →
    let n := c.w1.toNat
    (let h : Head := { (default : Head) with words := [c.w2, c.w3, c.w4, c.w5] };
      fieldOf c.w4 31 8 = 0 → c.w5 = 0 → n ≤ 15 → s.headPart n = fn → h.ok = true → s.encPart h.enc = fn →
      Takes (.head fn c) s fn 0xFF fun s' u => (NMap.get u.heads n).words = h.words
        ∧ (∀ j, j ≠ n → NMap.get u.heads j = NMap.get s.heads j) ∧ { u with heads := [] } = { s' with heads := [] })
    ∧ (let k := c.queue.toNat
      let ws := [c.w1, c.w2, c.w3, c.w4, c.w5, c.w6, c.w7]
      let e : Enc := { (default : Enc) with words := ws };
      fieldOf c.w3 55 0 = 0 → fieldOf c.w5 39 0 = 0 → fieldOf c.w6 63 1 = 0 → c.w7 = 0 → k ≤ 7 → s.encPart k = fn → e.ok = true →
      let s' := s.modPart fn fun p => { p with nextCmd := p.nextCmd + 1 };
      (s'.grants fn c.w1 (2 ^ e.rlog) [.w]).1 = true → (s'.grants fn c.w2 16 [.w]).1 = true →
      ((NMap.get s.encs k).on = false ∨ ws.set 5 0 = (NMap.get s.encs k).words.set 5 0) →
      Takes (.encoder fn c) s fn 0xFF fun s' u => (NMap.get u.encs k).words = ws
        ∧ (e.on = true → (NMap.get s.encs k).on = false → (NMap.get u.encs k).frameNo = 0 ∧ (NMap.get u.encs k).input = []
            ∧ ∀ x ∈ u.heads, x.2.enc = k → x.2.prev = [])
        ∧ (∀ j, j ≠ k → NMap.get u.encs j = NMap.get s.encs j)
        ∧ { u with encs := [], heads := [] } = { s' with encs := [], heads := [] })
    ∧ (n ≤ 767 → ownerOf s.mode (sectorOf n) = fn →
      Takes (.core fn c) s fn 0xFF fun s' u => (u.core n).fenced = false ∧ (∀ j, j ≠ n → u.core j = s.core j)
        ∧ { u with cores := [] } = { s' with cores := [] })
    ∧ (n ≤ 1 → c.w3 ≠ 0 → c.w3.toNat ≤ 1000 → Takes (.cxlDisable fn c) s fn 0xFF fun _ u => (NMap.get u.cxl n).up = false)
    ∧ (n ≤ 1 → c.w3 ≠ 0 → c.w3.toNat ≤ 1000 →
      Takes (.cxlEnable fn c) s fn 0xFF fun s' u => NMap.get u.cxl n = ⟨true, c.w3.toNat⟩
        ∧ (∀ j, j ≠ n → NMap.get u.cxl j = NMap.get s.cxl j) ∧ { u with cxl := [] } = { s' with cxl := [] })
    ∧ (n ≤ 1023 → Takes (.link fn c) s fn 0xFF fun s' u => u.lostPkgs.contains n = false
        ∧ (∀ j, j ≠ n → u.lostPkgs.contains j = s.lostPkgs.contains j) ∧ { u with lostPkgs := [] } = { s' with lostPkgs := [] })
    ∧ (∀ t : Team, s.brokenTeam fn n = some t → s.team? t.id = some t →
      (Takes (.teamRelease fn c) s fn 0xFF fun s' u => (u.team? t.id).map (·.brkRec) = some none
        ∧ ((∀ x ∈ s.teams, x.cluster = t.cluster → x.brkRec = none ∨ x.id = t.id) → ∀ k, s.cluster? t.cluster = some k →
            k.phase = .held → (u.cluster? t.cluster).map (·.phase) = some .saved)
        ∧ { u with teams := [], clusters := [] } = { s' with teams := [], clusters := [] })
      ∧ (∀ k : Clutch, s.clutch? t.clutch = some k → k.killed = none →
        Takes (.teamKill fn c) s fn 0xFF fun _ u => (u.clutch? t.clutch).map (·.killed) = some (some 0x1F)))
    ∧ (100 ≤ n → n + s.otherCaps fn ≤ 3600 →
      Takes (.power fn c) s fn 0xFF fun s' u => u = s'.modPart fn fun p => { p with cap := n })
    ∧ (let q := c.queue.toNat
      let w := c.w1.extractLsb' 0 2;
      fieldOf c.w1 63 2 = 0 → q ≤ 63 →
      (s.queueTakes fn q w c.w2 → Takes (.queue fn c) s fn q fun s' u => (w ≠ 3 → u.qWord fn q w.toNat = c.w2) ∧ (w = 3 → u = s')
        ∧ (∀ p r v, v < 3 → (p, r, v) ≠ (fn, q, w.toNat) → u.qWord p r v = s.qWord p r v))
      ∧ (¬ s.queueTakes fn q w c.w2 → Rejects (.queue fn c) s fn q 3)))

/-- R415, R416, R422: TABLES configures its slice, and its first command is number 0; a command of an unconfigured slice
that R416 does not name is dropped and counted. MODE sets the partition mode: every slice is unconfigured, every frame
dead and owned by the slice of its stack, and no byte of HBM is other than zero (that MODE needs every slice idle and what it clears are logs 5, 6 and 183). -/
def Obligations.TablesAndMode : Prop :=
  ∀ (s : State) (fn : Nat) (c : HostCmd), s.hasFn fn = true → c.hi = 0 →
    (fieldOf c.w2 63 56 = 0 → fieldOf c.w3 63 56 = 0 → fieldOf c.w4 63 56 = 0 → fieldOf c.w7 63 48 = 0 → tablesOk c = true →
      (∀ r ∈ tableRuns c, s.ownsRun fn r.1 r.2 = true) →
      ((s.part fn).configured = false → ∃ u t : State, exec (.tables fn c) s = .next t ∧ Records u t fn 0x01 0xFF 0 0
        ∧ u.part fn = { s.part fn with
            configured := true, btlog := fieldOf c.w1 63 56, btbase := fieldOf c.w1 55 0, ptroot := fieldOf c.w2 55 0,
            frlog := fieldOf c.w3 55 48, frbase := fieldOf c.w3 47 0, cpbase := fieldOf c.w4 55 0, cpsize := c.w5.toNat,
            jlog := fieldOf c.w6 63 56, jbase := fieldOf c.w6 55 0, jmirror := fieldOf c.w7 47 0, dcache := [], nextCmd := 1 })
      ∧ ((s.part fn).configured = true → (s.modPart fn fun p => { p with nextCmd := p.nextCmd + 1 }).sliceBusy fn = false →
        Takes (.tables fn c) s fn 0xFF fun s' u => u.part fn = { s'.part fn with
            btlog := fieldOf c.w1 63 56, btbase := fieldOf c.w1 55 0, ptroot := fieldOf c.w2 55 0,
            frlog := fieldOf c.w3 55 48, frbase := fieldOf c.w3 47 0, cpbase := fieldOf c.w4 55 0, cpsize := c.w5.toNat,
            jlog := fieldOf c.w6 63 56, jbase := fieldOf c.w6 55 0, jmirror := fieldOf c.w7 47 0, dcache := [] }))
    ∧ ((s.part fn).configured = false → ∀ i ∈ [Instr.submit fn c, .frame fn c, .dead fn c, .profile fn c, .shadow fn c, .head fn c,
        .encoder fn c, .teamRelease fn c, .teamKill fn c, .core fn c, .cxlDisable fn c, .cxlEnable fn c, .link fn c,
        .faultResume fn c, .faultFail fn c], exec i s = .next (s.modPart fn fun p => { p with unset := p.unset + 1 }))
    ∧ (let m := c.w1.toNat;
      fn = 0 → (m = 1 ∨ m = 2 ∨ m = 4 ∨ m = 8) → (∀ k q, k < s.mode → q < 64 → s.qEn k q = false) →
      (∀ x ∈ s.clutches, x.phase ≠ .intake ∧ x.phase ≠ .queued) → ∃ t : State, exec (.mode fn c) s = .next t ∧ t.mode = m
        ∧ (∀ k, k < m → t.part k = { (default : Part) with disabled := s.failedSlice m k })
        ∧ (∀ f, s.stacksOff.contains (f % 8) = false → fwDead (t.frame f) = true
            ∧ fwOwner (t.frame f) = ownerOf m (fwStack (t.frame f)) ∧ fwStack (t.frame f) = fwStack (s.frame f))
        ∧ (∀ a, spaceOf a = 0 → t.mem.byte a = 0) ∧ (∀ a, spaceOf a ≠ 0 → t.mem.byte a = s.mem.byte a)
        ∧ bootMode t.bootRec = m ∧ t.pkg = s.pkg ∧ t.fibres = s.fibres ∧ t.stacksOff = s.stacksOff)

/-- R413, R441: a command of a configured slice whose reserved bits are set is rejected for reason 1, and one whose
operands its table does not allow for reason 3; FRAME of a frame of another slice for reason 5. None has an effect (the reasons and their order are logs 181, 182 and 192).
R223, R413, R417: the host's reply to a fault record lets the fibres that wait on it translate again, or has them trap
with 0x0B at their clause headers; the record then waits for nothing. A reply to a number at which nothing waits any more is
accepted and has no effect; one to a number that no record has had yet breaks the table's limit (reason 3, log 182). -/
def Obligations.CommandsAreRejected : Prop :=
  (∀ (s : State) (fn : Nat) (c : HostCmd), s.hasFn fn = true → (s.part fn).configured = true →
    (c.hi ≠ 0 → ∀ i ∈ [Instr.tables fn c, .frame fn c, .dead fn c, .profile fn c, .shadow fn c, .head fn c, .encoder fn c,
        .teamRelease fn c, .teamKill fn c, .core fn c, .cxlDisable fn c, .cxlEnable fn c, .link fn c, .faultResume fn c,
        .faultFail fn c, .power fn c, .mode fn c], Rejects i s fn 0xFF 1)
    ∧ (c.hi = 0 → (767 < c.w1.toNat → Rejects (.core fn c) s fn 0xFF 3)
      ∧ (1 < c.w1.toNat → Rejects (.cxlDisable fn c) s fn 0xFF 3 ∧ Rejects (.cxlEnable fn c) s fn 0xFF 3)
      ∧ (c.w1.toNat ≤ 1 → (c.w3 = 0 ∨ 1000 < c.w3.toNat) → Rejects (.cxlDisable fn c) s fn 0xFF 3 ∧ Rejects (.cxlEnable fn c) s fn 0xFF 3)
      ∧ (1023 < c.w1.toNat → Rejects (.link fn c) s fn 0xFF 3)
      ∧ (s.brokenTeam fn c.w1.toNat = none → Rejects (.teamRelease fn c) s fn 0xFF 3 ∧ Rejects (.teamKill fn c) s fn 0xFF 3)
      ∧ (15 < c.w1.toNat → Rejects (.profile fn c) s fn 0xFF 3)
      ∧ ((c.w1.toNat < 100 ∨ 3600 < c.w1.toNat + s.otherCaps fn) → Rejects (.power fn c) s fn 0xFF 3)
      ∧ (fn ≠ 0 → Rejects (.mode fn c) s fn 0xFF 5)
      ∧ (fieldOf c.w2 63 32 = 0 → fieldOf c.w2 29 27 = 0 → c.w2.getLsbD 19 = false → c.w1.toNat < 2 ^ 19 →
          s.frameOwned fn c.w1.toNat = false → Rejects (.frame fn c) s fn 0xFF 5)))
  ∧ (∀ (s : State) (fn : Nat) (c : HostCmd), s.hasFn fn = true → (s.part fn).configured = true → c.hi = 0 →
    ((s.part fn).ftail ≤ c.w1.toNat → Rejects (.faultResume fn c) s fn 0xFF 3 ∧ Rejects (.faultFail fn c) s fn 0xFF 3)
    ∧ (c.w1.toNat < (s.part fn).ftail → s.faults.find? (fun x => x.part == fn && x.num == some c.w1.toNat) = none →
      (Takes (.faultResume fn c) s fn 0xFF fun s' u => u = s') ∧ (Takes (.faultFail fn c) s fn 0xFF fun s' u => u = s'))
    ∧ ∀ x : FaultRec, c.w1.toNat < (s.part fn).ftail → s.faults.find? (fun x => x.part == fn && x.num == some c.w1.toNat) = some x →
    (Takes (.faultResume fn c) s fn 0xFF fun _ u => ∃ w : State, u = w.sweep
      ∧ (∀ b ∈ w.fibres, ∀ a k, b.hold ≠ .fault x.walk a k ∧ b.waits.contains (.fault x.walk a k) = false)
      ∧ (∀ b ∈ s.fibres, ∀ a k, b.hold = .fault x.walk a k → b.waits = [] → ∃ y ∈ w.fibres,
          y = { b with hold := .free, under := b.under.erase (.fault x.walk a k) }))
    ∧ ((∀ y ∈ s.cmds, y.hold.onFault x.walk = false) → (∀ y ∈ s.subs, y.hold.onFault x.walk = false) →
        (∀ y ∈ s.joins, y.hold.onFault x.walk = false) → (∀ y ∈ s.futs, y.fault ≠ x.walk) →
        (∀ y ∈ s.teams, y.pointFault ≠ some x.walk) →
      Takes (.faultFail fn c) s fn 0xFF fun _ u => ∃ w : State, u = w.sweep ∧ (∀ y ∈ w.faults, y.walk ≠ x.walk)
        ∧ (∀ b ∈ s.fibres, ∀ a k, b.hold = .fault x.walk a k → b.trap = none → b.waits = [] →
            ∃ y ∈ w.fibres, y = { b with
              hold := .free, under := b.under.erase (.fault x.walk a k)
              trap := some ⟨0x0B, k, 0, a, b.pc, b.pc, false, some b.pc⟩ })))

/-! ## Boot, firmware and the power cap -/

/-- R418, R430 to R434, R437, R438: a good image boots the steps in order and presents the functions of the mode that the
boot record names; a stack or a sector that fails is disabled, a stack tried again at a lower rate by the next start (log 186); a step
that may not fail ends the start. Without a good image the device is in recovery, where function 0's FIRMWARE answers in FWSTAT alone. FIRMWARE shows its
states one after another; no second one begins meanwhile, and while the flash is written its image is not good. D3cold loses
everything but the flash records and what lies outside the device (log 214). The hub takes and undoes its steps in order, and a write
of the host to device memory is what every reader finds. -/
def Obligations.BootAndPower : Prop :=
  ∀ (s : State),
    (∀ e : BootEnv, s.power = .off →
      -- a step's attempt number counts on after a failure (log 186)
      let attempt := fun (t : State) (k : Nat) => fieldOf t.bootRec (8 * k + 7) (8 * k + 4)
        = if fieldOf s.bootRec (8 * k + 3) (8 * k) = 1 then min 15 (fieldOf s.bootRec (8 * k + 7) (8 * k + 4) + 1) else Config.firstAttempt % 2
      let out := fun (t : State) (k : Nat) => fieldOf t.bootRec (8 * k + 3) (8 * k)
      let off := fun (t : State) => ∀ k, k < 8 →
        t.stacksOff.contains k = (decide (3 ≤ NMap.get s.stackTries k) || e.badStacks.contains k)
        ∧ t.sectorsOff.contains k = (s.sectorsBad.contains k || e.badSectors.contains k)
      let kept := fun (t : State) => ∀ k, k < 8 →
        NMap.get t.stackTries k = NMap.get s.stackTries k + (if NMap.get s.stackTries k < 3 ∧ e.badStacks.contains k = true then 1 else 0)
        ∧ t.sectorsBad.contains k = (s.sectorsBad.contains k || e.badSectors.contains k)
      let stopped := fun (t : State) (k : Nat) => exec (.boot e) s = .next t ∧ t.power = .off ∧ t.fwstat = 0 ∧ out t k = 1
        ∧ (∀ j, j ≤ k → attempt t j) ∧ (∀ j, k < j → j < 8 → fieldOf t.bootRec (8 * j + 7) (8 * j) = fieldOf s.bootRec (8 * j + 7) (8 * j))
        ∧ { t with power := .off, fwstat := 0, bootRec := 0, stackTries := [], sectorsBad := [], pcieSlow := false }
          = { s with power := .off, fwstat := 0, bootRec := 0, stackTries := [], sectorsBad := [], pcieSlow := false }
      (s.flashOk = true → e.fwOk = true →
        (e.logOk = true → e.pcieOk = true → e.fnOk = true → ∃ t : State, exec (.boot e) s = .next t ∧ t.power = .on
          ∧ t.mode = 2 ^ fieldOf s.bootRec 57 56 ∧ fieldOf t.bootRec 57 56 = fieldOf s.bootRec 57 56 ∧ t.pkg = s.pkgNext
          ∧ t.fwstat = 0 ∧ t.events = [] ∧ t.mem = s.mem ∧ t.retired = s.retired ∧ off t ∧ kept t
          ∧ (∀ k, k < t.mode → t.part k = { (default : Part) with disabled := t.failedSlice t.mode k })
          ∧ (∀ k, k < 12 → (NMap.get t.ports k).up = e.portsUp.contains k) ∧ (∀ k, k < 2 → (NMap.get t.cxl k).up = e.cxlUp.contains k)
          ∧ (∀ k, k < 7 → attempt t k ∧ (k ≠ 2 → k ≠ 3 → k ≠ 5 → out t k = 0))
          ∧ out t 2 = (if (List.range 8).all (fun k => 3 ≤ NMap.get s.stackTries k) then 2
              else if (List.range 8).any (fun k => NMap.get s.stackTries k < 3 && e.badStacks.contains k) then 1 else 0)
          ∧ out t 3 = (if (List.range 8).all (fun k => s.sectorsBad.contains k) then 2
              else if (List.range 8).any (fun k => !s.sectorsBad.contains k && e.badSectors.contains k) then 1 else 0)
          ∧ out t 5 = if (List.range 2).all (e.cxlUp.contains ·) && (List.range 12).all (e.portsUp.contains ·) then 0 else 1)
        ∧ (e.logOk = false → ∃ t : State, stopped t 1 ∧ t.stackTries = s.stackTries ∧ t.pcieSlow = s.pcieSlow)
        ∧ (e.logOk = true → e.pcieOk = false → ∃ t : State, stopped t 4 ∧ kept t ∧ t.pcieSlow = true)
        ∧ (e.logOk = true → e.pcieOk = true → e.fnOk = false → ∃ t : State, stopped t 6 ∧ kept t ∧ t.pcieSlow = s.pcieSlow))
      ∧ ((s.flashOk = false ∨ e.fwOk = false) → ∃ t : State, exec (.boot e) s = .next t ∧ t.power = .recovery ∧ t.fwstat = 0
        ∧ fieldOf t.bootRec 3 0 = 1 ∧ t.bootRec &&& ~~~0xFF = s.bootRec &&& ~~~0xFF
        ∧ { t with power := .off, fwstat := 0, bootRec := 0 } = { s with power := .off, fwstat := 0, bootRec := 0 }))
    ∧ (∃ t : State, exec .d3cold s = .next t ∧ t.power = .off ∧ t.fibres = [] ∧ t.clutches = [] ∧ t.parts = [] ∧ t.l2 = []
        ∧ t.events = [] ∧ t.bootRec = s.bootRec ∧ t.retired = s.retired ∧ t.flashOk = s.flashOk ∧ t.pkgNext = s.pkgNext
        ∧ t.stackTries = s.stackTries ∧ t.sectorsBad = s.sectorsBad ∧ t.pcieSlow = s.pcieSlow
        ∧ (∀ a, spaceOf a = 0 → t.mem.byte a = 0) ∧ (∀ a, spaceOf a ≠ 0 → t.mem.byte a = s.mem.byte a))
    ∧ (∀ c : HostCmd, c.hi = 0 → fieldOf c.w1 63 48 = 0 → fieldOf c.w2 63 32 = 0 → fieldOf c.w3 63 2 = 0 → firmwareOk c = true →
      ∀ ok wrote : Bool,
      let boot : List Nat := if ok then [2, 7] else [3]
      let write : List Nat := if !ok then [3] else if wrote then [2, 4, 5] else [2, 4, 6]
      let both : List Nat := if !ok then [3] else if wrote then [2, 4, 5, 7] else [2, 4, 6]
      (s.power = .recovery →
        (s.fwJob = [] → s.fwstat ≠ 7 → exec (.firmwareBoot 0 c ok) s = .next { s with fwstat := 1, fwJob := boot }
          ∧ exec (.firmwareWrite 0 c ok wrote) s = .next { s with fwstat := 1, fwJob := write }
          ∧ exec (.firmwareWriteBoot 0 c ok wrote) s = .next { s with fwstat := 1, fwJob := both })
        ∧ ((s.fwJob ≠ [] ∨ s.fwstat = 7) → ∀ i ∈ [Instr.firmwareBoot 0 c ok, .firmwareWrite 0 c ok wrote, .firmwareWriteBoot 0 c ok wrote],
            exec i s = .next s))
      ∧ (s.hasFn 0 = true → (s.part 0).configured = true →
        Rejects (.firmwareBoot 0 c ok) s 0 0xFF 4 ∧ Rejects (.firmwareWriteBoot 0 c ok wrote) s 0 0xFF 4
        ∧ (s.fwJob = [] → s.fwstat ≠ 7 → Takes (.firmwareWrite 0 c ok wrote) s 0 0xFF fun s' u => u = { s' with fwstat := 1, fwJob := write })
        ∧ ((s.fwJob ≠ [] ∨ s.fwstat = 7) → Rejects (.firmwareWrite 0 c ok wrote) s 0 0xFF 4)))
    ∧ (s.choice.act = .firmware → step s = .next s.taken.fwNext.afterStep)
    ∧ (∀ (k : Nat) (l : List Nat), s.fwJob = k :: l → s.fwNext.fwstat = k ∧ s.fwNext.fwJob = l
        ∧ (k = 4 → s.fwNext.flashOk = false) ∧ (k = 5 → s.fwNext.flashOk = true)
        ∧ (k ≠ 4 → k ≠ 5 → k ≠ 6 → s.fwNext.flashOk = s.flashOk)
        ∧ { s.fwNext with fwstat := 0, fwJob := [], flashOk := true } = { s with fwstat := 0, fwJob := [], flashOk := true })
    ∧ (∀ e : BootEnv, s.power = .recovery → s.fwstat = 7 → s.fwJob = [] → e.logOk = true → e.pcieOk = true → e.fnOk = true → ∃ t : State,
        exec (.boot e) s = .next t ∧ t.power = .on ∧ t.fwstat = 0 ∧ fieldOf t.bootRec 3 0 = 0)
    ∧ (∀ fn : Nat, s.hasFn fn = true → ∀ above : Bool, let p := s.part fn
      exec (.powerCapWindow fn above) s = .next (s.modPart fn fun _ =>
        if above then (if p.slow < 23 then { p with slow := p.slow + 1 } else if p.thr < 15 then { p with thr := p.thr + 1 }
          else { p with stopped := true })
        else (if p.stopped then { p with stopped := false } else if 0 < p.thr then { p with thr := p.thr - 1 }
          else { p with slow := p.slow - 1 })))
    ∧ (∀ (a : Nat) (v : Word), a < 2 ^ 39 → a % 8 = 0 → s.sliceOn (secBase a) = true → ∃ t : State,
      exec (.hostMemoryWrite a ⟨leBytes 8 v.toNat, []⟩) s = .next t ∧ t.homeWord a = ⟨v, false⟩
      ∧ (∀ b, b % 8 = 0 → b < 2 ^ 39 → b ≠ a → t.homeWord b = s.homeWord b) ∧ t.mem = s.mem ∧ t.fibres = s.fibres ∧ t.parts = s.parts)

/-! ## Registers, the management controller and the messages -/

/-- R412, R418, R427 to R430, R441: JHEAD and FHEAD move within their rings; any other access to BAR0 is recorded for reason
7 (log 188). A request of the mailbox is taken when the one before it is answered, and the answer stands in MRESP and MSEQ. Requests
are answered in the order in which they came. A vector's message is sent once a microsecond, and only when it is unmasked; the
host may mask it again (log 6). -/
def Obligations.RegistersAndMailbox : Prop :=
  ∀ (s : State) (fn : Nat), s.hasFn fn = true →
    let p := s.part fn
    (∀ v : Word,
      (p.jhead ≤ v.toNat → v.toNat ≤ p.jtail →
        exec (.jheadWrite fn v) s = .next (s.modPart fn fun p => { p with jhead := v.toNat }))
      ∧ (p.fhead ≤ v.toNat → v.toNat ≤ p.ftail →
        exec (.fheadWrite fn v) s = .next (s.modPart fn fun p => { p with fhead := v.toNat }))
      ∧ (p.configured = true → (v.toNat < p.jhead ∨ p.jtail < v.toNat) → ∃ t : State, exec (.jheadWrite fn v) s = .next t
        ∧ Records s t fn 0x02 0xFF 0 (BitVec.ofNat 64 (0x40 + 7 * 2 ^ 32)))
      ∧ (p.configured = true → (v.toNat < p.fhead ∨ p.ftail < v.toNat) → ∃ t : State, exec (.fheadWrite fn v) s = .next t
        ∧ Records s t fn 0x02 0xFF 0 (BitVec.ofNat 64 (0x60 + 7 * 2 ^ 32))))
    ∧ (p.configured = true → ∀ off : Nat, off < 2 ^ 32 → ∃ t : State, exec (.bar0OtherAccess fn off) s = .next t
        ∧ Records s t fn 0x02 0xFF 0 (BitVec.ofNat 64 (off + 7 * 2 ^ 32)))
    ∧ (∀ r : MgmtReq, ∀ x ∈ [(0x01, Instr.mgmtLaneRemap fn r), (0x02, .mgmtEncoderCounters fn r), (0x03, .mgmtEventLog fn r),
        (0x04, .mgmtPackageId fn r), (0x84, .mgmtStorePackageId fn r)],
        (p.mqueue = [] → exec x.2 s = .next (s.modPart fn fun p =>
          { p with mreq := r.tag ++ r.index ++ (0 : Byte) ++ BitVec.ofNat 8 x.1, mqueue := [(x.1, r)], mqAt := s.tick }))
        ∧ (p.mqueue ≠ [] → exec x.2 s = .next s))
    ∧ ((∃ x ∈ s.parts, x.1 ≠ fn ∧ x.2.mqueue ≠ [] ∧ x.2.mqAt < p.mqAt) → exec (.mgmtAnswer fn) s = .next s)
    ∧ (∀ (obj : Nat) (r : MgmtReq), p.mqueue = [(obj, r)] → (∀ x ∈ s.parts, x.1 = fn ∨ x.2.mqueue = [] ∨ p.mqAt ≤ x.2.mqAt) →
      let n := r.index.toNat
      let Answer : Nat → List Word → Prop := fun status ws => ∃ t : State, exec (.mgmtAnswer fn) s = .next t
        ∧ (t.part fn).mseq = r.tag ++ (0 : BitVec 32) ++ BitVec.ofNat 8 status ∧ (t.part fn).mqueue = []
        ∧ (∀ k, k < 8 → (t.part fn).mresp.getD k 0 = ws.getD k 0) ∧ (t.part fn).msiDue.contains 3 = true
        ∧ { t with parts := [], pkgNext := 0 } = { s with parts := [], pkgNext := 0 }
        ∧ (obj ≠ 0x84 → t.pkgNext = s.pkgNext)
      (obj = 0x01 → (767 < n → Answer 0x02 [])
        ∧ (n ≤ 767 → fn ≠ 0 → ownerOf s.mode (sectorOf n) ≠ fn → Answer 0x03 [])
        ∧ (n ≤ 767 → (fn = 0 ∨ ownerOf s.mode (sectorOf n) = fn) →
            Answer 0x00 [(0 : BitVec 31) ++ BitVec.ofBool (s.core n).fenced ++ (s.core n).remap]))
      ∧ (obj = 0x02 → (7 < n → Answer 0x02 [])
        ∧ (n ≤ 7 → (fn = 0 ∨ s.encPart n = fn) → Answer 0x00 [BitVec.ofNat 64 (NMap.get s.encs n).subs,
            BitVec.ofNat 64 (NMap.get s.encs n).frames, BitVec.ofNat 64 (NMap.get s.encs n).dropped,
            BitVec.ofNat 64 (NMap.get s.encs n).bytes]))
      ∧ (obj = 0x03 → (s.events.length ≤ n → Answer 0x02 [])
        ∧ (∀ e, s.events[n]? = some e → s.events.length ≤ n + 65536 → fn = 0 → Answer 0x00 [BitVec.ofNat 64 n,
            BitVec.ofNat 64 (e.1 % 256 * 2 ^ 56), BitVec.ofNat 64 e.2.1, e.2.2, BitVec.ofNat 64 s.events.length]))
      ∧ (obj = 0x04 → n = 0 → s.pkg < 1024 → s.pkgNext < 1024 → Answer 0x00 [BitVec.ofNat 64 (s.pkg + s.pkgNext * 2 ^ 16)])
      ∧ (obj = 0x84 → (fn ≠ 0 → Answer 0x03 []) ∧ (fn = 0 → 1023 < n → Answer 0x02 [])
        ∧ (fn = 0 → n ≤ 1023 → s.pkg < 1024 → Answer 0x00 [BitVec.ofNat 64 (s.pkg + n * 2 ^ 16)]
            ∧ ∃ t : State, exec (.mgmtAnswer fn) s = .next t ∧ t.pkgNext = n ∧ t.pkg = s.pkg)))
    ∧ (∀ v : Nat, ((s.maskVector fn v).part fn).msiOpen = setDel p.msiOpen v ∧ ((s.maskVector fn v).part fn).msiDue = p.msiDue)
    ∧ (∀ v : Nat, s.choice.act = .mask fn v → step s = .next (s.taken.maskVector fn v).afterStep)
    ∧ (∀ v : Nat, v < 4 → p.msiDue.contains v = true → (NMap.get p.msiSent v = 0 ∨ NMap.get p.msiLast v + 3300 ≤ s.clock) →
        (p.msiOpen.contains v = true → ∀ i ∈ [Instr.msixMessage fn v, .msixVectorUnmask fn v], ∃ t : State, exec i s = .next t
          ∧ (t.part fn).msiDue.contains v = false ∧ NMap.get (t.part fn).msiLast v = s.clock
          ∧ NMap.get (t.part fn).msiSent v = NMap.get p.msiSent v + 1 ∧ (∀ k, k ≠ fn → t.part k = s.part k)
          ∧ { t with parts := [] } = { s with parts := [] })
        ∧ (p.msiOpen.contains v = false → exec (.msixMessage fn v) s = .next s ∧ ∃ t : State, exec (.msixVectorUnmask fn v) s = .next t
          ∧ (t.part fn).msiOpen.contains v = true ∧ (t.part fn).msiDue.contains v = false
          ∧ NMap.get (t.part fn).msiSent v = NMap.get p.msiSent v + 1))

/-! ## Reset and the invariant of every step -/

/-- R58, R104, R232, R234, R241, R286, R432: what reset leaves. Nothing runs and no power is applied; `%clock` is 0; every
frame is mapped, dead, in profile 0, at its own place and with its stack's slice; profile 5 is the plain one and the others the
hashed one; queues 0 to 31 stand at priority floor 0 and the rest at 4, each enabled with the limits of R286. That all of memory reads 0, the
host's and the expanders' too (log 2), that power is off (log 7) and that nothing was retired before (log 189) are the model's
choices.
R9, R28, R103, R311, R422, R430, R434: at reset the partition mode is 1, 2, 4 or 8, both package ids lie below 1,024, FWSTAT's
value is one of the table's, and memory, fibres, groups and teams have their forms. -/
def Obligations.ResetLeaves : Prop :=
  (State.reset.power = .off ∧ State.reset.clock = 0 ∧ State.reset.fibres = [] ∧ State.reset.clutches = []
  ∧ (∀ f, f < 2 ^ 19 → let w := State.reset.frame f
      fwV w = true ∧ fwDead w = true ∧ fwProfile w = 0 ∧ fwStack w = f % 8 ∧ fwSfn w = f / 8
        ∧ fwOwner w = ownerOf State.reset.mode (f % 8))
  ∧ (∀ k, k < 16 → State.reset.profile k = if k = 5 then [0x002, 0x004, 0x008, 0x010, 0x020, 0x001]
      else [0x042, 0x084, 0x108, 0x210, 0x420, 0x801])
  ∧ (∀ p q, q < 64 → State.reset.qWord p q 0 = (if q < 32 then 0x1 else 0x41) ∧ State.reset.qT1 p q = 2000
      ∧ State.reset.qT2 p q = 50000 ∧ State.reset.qT3 p q = 200000)
  ∧ (∀ a, State.reset.mem.byte a = 0) ∧ (∀ k, (NMap.get State.reset.sib k).clock = 0)
  ∧ State.reset.mode = 1 ∧ State.reset.fwstat = 0 ∧ State.reset.retired = [])
  ∧ (State.reset.legal = true ∧ State.reset.mem.wf = true ∧ State.reset.formed = true)

/-- R9, R422, R430, R434: no step of the machine leaves those values. -/
def Obligations.StepKeepsLegal : Prop := ∀ s t : State, s.legal = true → step s = .next t → t.legal = true

/-- Every step keeps memory in its canonical form: bytes listed once, rising, none that reads 0; poisoned words rising. The form is
the model's, and with it equal memories are equal data (R181, R377). -/
def Obligations.StepKeepsMemory : Prop := ∀ s t : State, s.mem.wf = true → step s = .next t → t.mem.wf = true

/-- R28, R103, R311: p7 is true in every fibre and the bits of `tcause` that have no field are 0, in checkpoints too; registers,
scratchpads, accumulators and granules keep the model's canonical form. Every step keeps this. -/
def Obligations.StepKeepsForms : Prop := ∀ s t : State, s.formed = true → step s = .next t → t.formed = true
end

