-- ==== Sys2Proof/Laws/Tables.lean ====
section
/-! SUPPORT. What the sparse tables, sorted sets and memory do: reads after writes, and the canonical form. -/

namespace Sys2Proof

theorem NMap.get_del_self {α : Type} [Inhabited α] (m : NMap α) (k : Nat) : NMap.get (NMap.del m k) k = default := by
  induction m with
  | nil => rfl
  | cons c m ih =>
    obtain ⟨j, v⟩ := c
    simp only [NMap.del]
    split
    · exact ih
    · next h => simp [NMap.get, h, ih]

theorem NMap.get_del_other {α : Type} [Inhabited α] (m : NMap α) (k j : Nat) (h : j ≠ k) :
    NMap.get (NMap.del m k) j = NMap.get m j := by
  induction m with
  | nil => rfl
  | cons c m ih =>
    obtain ⟨i, v⟩ := c
    simp only [NMap.del]
    split
    · next hi => subst hi; simp [NMap.get, ih, Ne.symm h]
    · simp [NMap.get, ih]

theorem NMap.get_put_self {α : Type} [Inhabited α] (m : NMap α) (k : Nat) (v : α) :
    NMap.get (NMap.put m k v) k = v := by
  induction m with
  | nil => simp [NMap.put, NMap.get]
  | cons c m ih =>
    obtain ⟨j, u⟩ := c
    simp only [NMap.put]
    split
    · simp [NMap.get]
    · split
      · simp [NMap.get]
      · next h => simp [NMap.get, Ne.symm h, ih]

theorem NMap.get_put_other {α : Type} [Inhabited α] (m : NMap α) (k j : Nat) (v : α) (h : j ≠ k) :
    NMap.get (NMap.put m k v) j = NMap.get m j := by
  induction m with
  | nil => simp [NMap.put, NMap.get, Ne.symm h]
  | cons c m ih =>
    obtain ⟨i, u⟩ := c
    simp only [NMap.put]
    split
    · simp [NMap.get, Ne.symm h]
    · split
      · next hk => subst hk; simp [NMap.get, Ne.symm h]
      · simp [NMap.get, ih]

/-- Reading the key just set. -/
@[simp] theorem NMap.get_set_self {α : Type} [DecidableEq α] [Inhabited α] (m : NMap α) (k : Nat) (v : α) :
    NMap.get (NMap.set m k v) k = v := by
  unfold NMap.set
  split
  · next h => subst h; exact NMap.get_del_self m k
  · exact NMap.get_put_self m k v

/-- Reading another key. -/
theorem NMap.get_set_other {α : Type} [DecidableEq α] [Inhabited α] (m : NMap α) (k j : Nat) (v : α) (h : j ≠ k) :
    NMap.get (NMap.set m k v) j = NMap.get m j := by
  unfold NMap.set
  split
  · exact NMap.get_del_other m k j h
  · exact NMap.get_put_other m k j v h

theorem NMap.get_set {α : Type} [DecidableEq α] [Inhabited α] (m : NMap α) (k j : Nat) (v : α) :
    NMap.get (NMap.set m k v) j = if j = k then v else NMap.get m j := by
  split
  · next h => subst h; simp
  · next h => exact NMap.get_set_other m k j v h

/-! ## The canonical form of tables -/

theorem NMap.wfFrom_mono {α : Type} [DecidableEq α] [Inhabited α] {m : NMap α} {l l' : Nat}
    (h : NMap.wfFrom (some l) m = true) (hl : l' ≤ l) : NMap.wfFrom (some l') m = true := by
  cases m with
  | nil => rfl
  | cons c m =>
    obtain ⟨j, v⟩ := c
    simp only [NMap.wfFrom, Bool.and_eq_true, decide_eq_true_eq] at h ⊢
    exact ⟨⟨by omega, h.1.2⟩, h.2⟩

theorem NMap.wfFrom_none {α : Type} [DecidableEq α] [Inhabited α] {m : NMap α} {l : Nat}
    (h : NMap.wfFrom (some l) m = true) : NMap.wfFrom none m = true := by
  cases m with
  | nil => rfl
  | cons c m =>
    obtain ⟨j, v⟩ := c
    simp only [NMap.wfFrom, Bool.and_eq_true, decide_eq_true_eq] at h ⊢
    exact ⟨⟨trivial, h.1.2⟩, h.2⟩

theorem NMap.wfFrom_del {α : Type} [DecidableEq α] [Inhabited α] (m : NMap α) (k : Nat) :
    ∀ lo, NMap.wfFrom lo m = true → NMap.wfFrom lo (NMap.del m k) = true := by
  induction m with
  | nil => intro lo h; exact h
  | cons c m ih =>
    obtain ⟨j, v⟩ := c
    intro lo h
    simp only [NMap.wfFrom, Bool.and_eq_true] at h
    simp only [NMap.del]
    split
    · have h2 := ih _ h.2
      cases lo with
      | none => exact NMap.wfFrom_none h2
      | some l => exact NMap.wfFrom_mono h2 (by have := h.1.1; simp at this; omega)
    · simp only [NMap.wfFrom, Bool.and_eq_true]
      exact ⟨h.1, ih _ h.2⟩

theorem NMap.wfFrom_put {α : Type} [DecidableEq α] [Inhabited α] (m : NMap α) (k : Nat) (v : α) (hv : v ≠ default) :
    ∀ lo, NMap.wfFrom lo m = true → (∀ l, lo = some l → l < k) → NMap.wfFrom lo (NMap.put m k v) = true := by
  induction m with
  | nil =>
    intro lo _ hlo
    cases lo <;> simp_all [NMap.put, NMap.wfFrom]
  | cons c m ih =>
    obtain ⟨j, u⟩ := c
    intro lo h hlo
    have hw := h
    simp only [NMap.wfFrom, Bool.and_eq_true] at h
    simp only [NMap.put]
    split
    · next hk =>
      cases lo <;> simp_all [NMap.wfFrom]
    · split
      · next hk => subst hk; cases lo <;> simp_all [NMap.wfFrom]
      · next h1 h2 =>
        simp only [NMap.wfFrom, Bool.and_eq_true]
        exact ⟨h.1, ih _ h.2 (by intro l hl; cases hl; omega)⟩

/-- Every write keeps the canonical form. -/
theorem NMap.wf_set {α : Type} [DecidableEq α] [Inhabited α] (m : NMap α) (k : Nat) (v : α) (h : NMap.wf m = true) :
    NMap.wf (NMap.set m k v) = true := by
  unfold NMap.set
  split
  · exact NMap.wfFrom_del m k _ h
  · next hv => exact NMap.wfFrom_put m k v hv _ h (by simp)

namespace Machine

/-! ## Sets -/

theorem setWfFrom_mono {m : List Nat} {l l' : Nat} (h : setWfFrom (some l) m = true) (hl : l' ≤ l) :
    setWfFrom (some l') m = true := by
  cases m with
  | nil => rfl
  | cons j m =>
    simp only [setWfFrom, Bool.and_eq_true, decide_eq_true_eq] at h ⊢
    exact ⟨by omega, h.2⟩

theorem setWfFrom_none {m : List Nat} {l : Nat} (h : setWfFrom (some l) m = true) : setWfFrom none m = true := by
  cases m with
  | nil => rfl
  | cons j m =>
    simp only [setWfFrom, Bool.and_eq_true] at h ⊢
    exact ⟨trivial, h.2⟩

theorem setWfFrom_del (m : List Nat) (k : Nat) : ∀ lo, setWfFrom lo m = true → setWfFrom lo (setDel m k) = true := by
  induction m with
  | nil => intro lo h; exact h
  | cons j m ih =>
    intro lo h
    simp only [setWfFrom, Bool.and_eq_true] at h
    simp only [setDel]
    split
    · have h2 := ih _ h.2
      cases lo with
      | none => exact setWfFrom_none h2
      | some l => exact setWfFrom_mono h2 (by have := h.1; simp at this; omega)
    · simp only [setWfFrom, Bool.and_eq_true]
      exact ⟨h.1, ih _ h.2⟩

theorem setWfFrom_add (m : List Nat) (k : Nat) :
    ∀ lo, setWfFrom lo m = true → (∀ l, lo = some l → l < k) → setWfFrom lo (setAdd m k) = true := by
  induction m with
  | nil => intro lo _ hlo; cases lo <;> simp_all [setAdd, setWfFrom]
  | cons j m ih =>
    intro lo h hlo
    have hw := h
    simp only [setWfFrom, Bool.and_eq_true] at h
    simp only [setAdd]
    split
    · cases lo <;> simp_all [setWfFrom]
    · split
      · exact hw
      · simp only [setWfFrom, Bool.and_eq_true]
        exact ⟨h.1, ih _ h.2 (by intro l hl; cases hl; omega)⟩

theorem setHas_add (l : List Nat) (k j : Nat) : setHas (setAdd l k) j = (setHas l j || decide (j = k)) := by
  induction l with
  | nil => simp [setAdd, setHas]
  | cons i l ih =>
    simp only [setAdd, setHas] at *
    split
    · by_cases h : j = k <;> simp [h]
    · split
      · next h => subst h; by_cases h : j = k <;> simp [h]
      · by_cases h : j = i
        · simp [h]
        · simp only [List.contains_cons] at *; rw [ih, Bool.or_assoc]

theorem setHas_del (l : List Nat) (k j : Nat) : setHas (setDel l k) j = (setHas l j && decide (j ≠ k)) := by
  induction l with
  | nil => simp [setDel, setHas]
  | cons i l ih =>
    simp only [setDel, setHas] at *
    split
    · next h => rw [ih]; by_cases h2 : j = k <;> simp [h2, h]
    · by_cases h2 : j = i
      · simp only [List.contains_cons]; rw [ih]; simp [h2]; intro h3; exact absurd h3 (by assumption)
      · simp only [List.contains_cons] at *; rw [ih]; simp [beq_eq_false_iff_ne.mpr h2]

/-! ## Memory -/

theorem Memory.byte_setByte (m : Memory) (a x : Nat) (b : Byte) :
    (m.setByte a b).byte x = if x = a then b else m.byte x := NMap.get_set (α := Byte) m.cells a x b

@[simp] theorem Memory.byte_setPois (m : Memory) (a x : Nat) (p : Bool) : (m.setPois a p).byte x = m.byte x := rfl
@[simp] theorem Memory.pois_setByte (m : Memory) (a x : Nat) (b : Byte) : (m.setByte a b).pois x = m.pois x := rfl

/-- Poison is set or cleared for one 8-byte word. -/
theorem Memory.pois_setPois (m : Memory) (a x : Nat) (p : Bool) :
    (m.setPois a p).pois x = if x / 8 = a / 8 then p else m.pois x := by
  unfold Memory.setPois Memory.pois setPut
  cases p
  · simp only [Bool.false_eq_true, if_false, setHas_del]; by_cases h : x / 8 = a / 8 <;> simp [h]
  · simp only [if_true, setHas_add]; by_cases h : x / 8 = a / 8 <;> simp [h]

theorem Memory.wf_setByte (m : Memory) (a : Nat) (b : Byte) (h : m.wf = true) : (m.setByte a b).wf = true := by
  unfold Memory.wf Memory.setByte at *
  simp only [Bool.and_eq_true] at *
  exact ⟨NMap.wf_set (α := Byte) _ _ _ h.1, h.2⟩

theorem Memory.wf_setPois (m : Memory) (a : Nat) (p : Bool) (h : m.wf = true) : (m.setPois a p).wf = true := by
  unfold Memory.wf Memory.setPois setPut at *
  simp only [Bool.and_eq_true] at *
  refine ⟨h.1, ?_⟩
  cases p
  · exact setWfFrom_del _ _ _ h.2
  · exact setWfFrom_add _ _ _ h.2 (by simp)

theorem Memory.byte_setBytes (bs : List Byte) : ∀ (m : Memory) (a x : Nat),
    (m.setBytes a bs).byte x = if a ≤ x ∧ x < a + bs.length then bs.getD (x - a) 0 else m.byte x := by
  induction bs with
  | nil => intro m a x; simp only [Memory.setBytes, List.length_nil]; rw [if_neg (by omega)]
  | cons b bs ih =>
    intro m a x
    simp only [Memory.setBytes, ih, Memory.byte_setByte, List.length_cons]
    by_cases h : x = a
    · subst h; simp [show ¬ (x + 1 ≤ x) by omega]
    · by_cases h2 : a + 1 ≤ x ∧ x < a + 1 + bs.length
      · rw [if_pos h2, if_pos (by omega)]
        obtain ⟨k, rfl⟩ : ∃ k, x = a + 1 + k := ⟨x - a - 1, by omega⟩
        simp [show a + 1 + k - a = k + 1 by omega]
      · rw [if_neg h2, if_neg h, if_neg (by omega)]

theorem Memory.wf_setBytes (bs : List Byte) : ∀ (m : Memory) (a : Nat), m.wf = true → (m.setBytes a bs).wf = true := by
  induction bs with
  | nil => intro m a h; exact h
  | cons b bs ih => intro m a h; exact ih _ _ (Memory.wf_setByte m a b h)

/-- Every store keeps the canonical form. -/
theorem Memory.wf_store (m : Memory) (a : Nat) (bs : List Byte) (p : Bool) (h : m.wf = true) :
    (m.store a bs p).wf = true := by
  unfold Memory.store
  generalize wordsOf a bs.length = l
  have h2 := Memory.wf_setBytes bs m a h
  revert h2
  generalize m.setBytes a bs = q
  induction l generalizing q with
  | nil => intro h2; exact h2
  | cons w l ih =>
    intro h2
    simp only [List.foldl_cons]
    apply ih
    cases p
    · simp only [Bool.false_eq_true, if_false]
      split
      · exact Memory.wf_setPois _ _ _ h2
      · exact h2
    · exact Memory.wf_setPois _ _ _ h2

/-- What a store leaves in every byte. -/
theorem Memory.byte_store (m : Memory) (a : Nat) (bs : List Byte) (p : Bool) (x : Nat) :
    (m.store a bs p).byte x = if a ≤ x ∧ x < a + bs.length then bs.getD (x - a) 0 else m.byte x := by
  rw [← Memory.byte_setBytes bs m a x]
  unfold Memory.store
  generalize wordsOf a bs.length = l
  generalize m.setBytes a bs = q
  induction l generalizing q with
  | nil => rfl
  | cons w l ih =>
    simp only [List.foldl_cons]
    rw [ih]
    cases p
    · simp only [Bool.false_eq_true, if_false]
      split <;> simp
    · simp

theorem leBytes_length (n v : Nat) : (leBytes n v).length = n := by
  induction n generalizing v with
  | zero => rfl
  | succ n ih => simp [leBytes, ih]

/-- Little-endian bytes are read back as the number they hold. -/
theorem leNat_leBytes (n v : Nat) : leNat (leBytes n v) = v % 256 ^ n := by
  induction n generalizing v with
  | zero => simp [leBytes, leNat, Nat.mod_one]
  | succ n ih =>
    simp only [leBytes, leNat, ih, BitVec.toNat_ofNat]
    have h : 256 ^ (n + 1) = 256 * 256 ^ n := pow_succ' 256 n
    rw [h, Nat.mod_mul]

end Machine
end Sys2Proof
end

