-- ==== Sys2Proof/Laws/Memory.lean ====
section
/-! SUPPORT. Memory under every operation that writes it: its canonical form is kept, and what each leaves in a byte.
Then the reads and writes of the caches and of the agents, which keep the form too. -/

namespace Sys2Proof.Machine

/-! ## Folds, filters -/

theorem foldl_keeps {α β : Type} (P : α → Prop) (f : α → β → α) (h : ∀ a b, P a → P (f a b)) :
    ∀ (l : List β) (a : α), P a → P (l.foldl f a)
  | [], _, ha => ha
  | b :: l, a, ha => foldl_keeps P f h l (f a b) (h a b ha)

theorem cells_filter (p : Nat → Bool) : ∀ (m : NMap Byte) (lo : Option Nat),
    NMap.wfFrom (α := Byte) lo m = true → NMap.wfFrom (α := Byte) lo (m.filter fun c => p c.1) = true
  | [], _, _ => rfl
  | (j, v) :: m, lo, h => by
    simp only [NMap.wfFrom, Bool.and_eq_true] at h
    have ih := cells_filter p m (some j) h.2
    by_cases hp : p j = true
    · rw [List.filter_cons_of_pos (by simpa using hp)]
      simp only [NMap.wfFrom, Bool.and_eq_true]; exact ⟨h.1, ih⟩
    · rw [List.filter_cons_of_neg (by simpa using hp)]
      cases lo with
      | none => exact NMap.wfFrom_none ih
      | some l => exact NMap.wfFrom_mono ih (Nat.le_of_lt (by simpa using h.1.1))

theorem set_filter (p : Nat → Bool) : ∀ (m : List Nat) (lo : Option Nat),
    setWfFrom lo m = true → setWfFrom lo (m.filter p) = true
  | [], _, _ => rfl
  | j :: m, lo, h => by
    simp only [setWfFrom, Bool.and_eq_true] at h
    have ih := set_filter p m (some j) h.2
    by_cases hp : p j = true
    · rw [List.filter_cons_of_pos hp]
      simp only [setWfFrom, Bool.and_eq_true]; exact ⟨h.1, ih⟩
    · rw [List.filter_cons_of_neg hp]
      cases lo with
      | none => exact setWfFrom_none ih
      | some l => exact setWfFrom_mono ih (Nat.le_of_lt (by simpa using h.1))

theorem get_filter (p : Nat → Bool) (a : Nat) : ∀ m : NMap Byte,
    NMap.get (α := Byte) (m.filter fun c => p c.1) a = if p a then NMap.get (α := Byte) m a else 0
  | [] => by cases p a <;> rfl
  | (j, v) :: m => by
    have ih := get_filter p a m
    by_cases hp : p j = true
    · rw [List.filter_cons_of_pos (by simpa using hp)]
      by_cases h : j = a
      · subst h; simp [NMap.get, hp]
      · simp [NMap.get, h, ih]
    · rw [List.filter_cons_of_neg (by simpa using hp)]
      by_cases h : j = a
      · subst h; simp [ih, hp]
      · simp [NMap.get, h, ih]

/-! ## What a memory operation does -/

theorem Memory.wf_keep (m : Memory) (p : Nat → Bool) (h : m.wf = true) : (m.keep p).wf = true := by
  simp only [Memory.wf, Memory.keep, Bool.and_eq_true] at *
  exact ⟨cells_filter p _ _ h.1, set_filter _ _ _ h.2⟩

/-- A byte that is not kept reads 0. -/
theorem Memory.byte_keep (m : Memory) (p : Nat → Bool) (a : Nat) : (m.keep p).byte a = if p a then m.byte a else 0 :=
  get_filter p a m.cells

theorem Memory.wf_writeSec (m : Memory) (base : Nat) (w : SecWrite) (h : m.wf = true) : (m.writeSec base w).wf = true := by
  unfold Memory.writeSec
  refine foldl_keeps (fun m => Memory.wf m = true) _ (fun m i hm => ?_) _ _
    (foldl_keeps (fun m => Memory.wf m = true) _ (fun m i hm => ?_) _ _ h)
  · split
    · exact Memory.wf_setPois _ _ _ hm
    · split
      · exact Memory.wf_setPois _ _ _ hm
      · exact hm
  · dsimp only
    split
    · exact hm
    · exact Memory.wf_setByte _ _ _ hm

theorem Memory.wf_clearFrame (m : Memory) (f : Nat) (h : m.wf = true) : (m.clearFrame f).wf = true := Memory.wf_keep m _ h

/-! ## The controllers and the L2 -/

@[simp] theorem activate_mem (s : State) (a : Nat) : (s.activate a).mem = s.mem := rfl
@[simp] theorem dropGuests_mem (s : State) (a : Nat) : (s.dropGuests a).mem = s.mem := rfl
@[simp] theorem modPod_mem (s : State) (p : Nat) (f : Pod → Pod) : (s.modPod p f).mem = s.mem := rfl
@[simp] theorem useL2_mem (s : State) (d : Nat) (u : L2Use) (a : Nat) : (s.useL2 d u a).mem = s.mem := by
  simp only [State.useL2]; split <;> rfl

theorem hbmWrite_wf (s : State) (a : Nat) (w : SecWrite) (h : s.mem.wf = true) : (s.hbmWrite a w).mem.wf = true :=
  Memory.wf_writeSec _ _ _ h

theorem fillFrame_wf (s : State) (f : Nat) (h : s.mem.wf = true) : (s.fillFrame f).mem.wf = true := by
  unfold State.fillFrame
  refine foldl_keeps (fun s : State => s.mem.wf = true) _ (fun s x hs => ?_) _ _ (Memory.wf_clearFrame _ _ h)
  dsimp only
  split
  · exact hs
  · exact hbmWrite_wf s _ _ hs

theorem memRead_wf (s : State) (a : Nat) (h : s.mem.wf = true) : (s.memRead a).2.mem.wf = true := by
  unfold State.memRead
  dsimp only
  split
  · split
    · exact h
    · split <;> split <;> first | exact h | exact fillFrame_wf s _ h
  · exact h

theorem memWrite_wf (s : State) (a : Nat) (w : SecWrite) (part : Nat) (h : s.mem.wf = true) :
    (s.memWrite a w part).mem.wf = true := by
  unfold State.memWrite
  dsimp only
  split
  · split
    · exact h
    · split
      · exact h
      · exact hbmWrite_wf s _ _ h
  · exact Memory.wf_writeSec _ _ _ h

theorem homeRead_wf (s : State) (a : Nat) (ws : BitVec 8) (h : s.mem.wf = true) : (s.homeRead a ws).2.mem.wf = true := by
  unfold State.homeRead
  dsimp only
  split
  · simpa using h
  · split
    · simpa using memRead_wf s a h
    · exact memRead_wf s a h

theorem homeWrite_wf (s : State) (a : Nat) (w : SecWrite) (part : Nat) (h : s.mem.wf = true) :
    (s.homeWrite a w part).mem.wf = true := by
  unfold State.homeWrite
  dsimp only
  split
  · simpa using h
  · exact memWrite_wf _ _ _ _ (by simpa using h)

theorem l2Flush_wf (s : State) (a : Nat) (h : s.mem.wf = true) : (s.l2Flush a).mem.wf = true := by
  unfold State.l2Flush
  split
  · exact h
  · split
    · exact memWrite_wf _ _ _ _ h
    · exact h

theorem l2Drop_wf (s : State) (a : Nat) (h : s.mem.wf = true) : (s.l2Drop a).mem.wf = true := l2Flush_wf s a h

theorem fetch_wf (s : State) (pod a : Nat) (h : s.mem.wf = true) : (s.fetch pod a).2.mem.wf = true := by
  unfold State.fetch
  dsimp only
  split
  · simpa using h
  · split
    · exact homeRead_wf s a _ h
    · simpa using homeRead_wf s a _ h

/-! ## The pods and the agents -/

theorem podRead_wf (s : State) (pod a : Nat) (ws : BitVec 8) (h : s.mem.wf = true) : (s.podRead pod a ws).2.mem.wf = true := by
  unfold State.podRead
  dsimp only
  split
  · exact h
  · exact fetch_wf s pod a h

theorem podFlush_wf (s : State) (pod a : Nat) (h : s.mem.wf = true) : (s.podFlush pod a).mem.wf = true := by
  unfold State.podFlush
  split
  · exact h
  · split
    · exact homeWrite_wf _ _ _ _ h
    · exact h

theorem podDrop_wf (s : State) (pod a : Nat) (h : s.mem.wf = true) : (s.podDrop pod a).mem.wf = true := podFlush_wf s pod a h

theorem installSealed_mem (s : State) (pod a : Nat) (t : SealTag) (v : SecVal) : (s.installSealed pod a t v).mem = s.mem := by
  unfold State.installSealed
  dsimp only
  split <;> simp

theorem remoteSec_mem (s : State) (a : Nat) : (s.remoteSec a).2.mem = s.mem := by unfold State.remoteSec; split <;> rfl

/-- A read by any agent keeps memory's form. -/
theorem readSec_wf (s : State) (g : Agent) (a : Nat) (t : PageAttr) (home : Bool) (ws : BitVec 8) (h : s.mem.wf = true) :
    (s.readSec g a t home ws).2.mem.wf = true := by
  simp only [State.readSec]
  split
  · exact h
  split
  · exact h
  split
  · split
    · split
      · exact h
      · rw [installSealed_mem, remoteSec_mem]; exact h
    · rw [remoteSec_mem]; exact h
  split
  · exact memRead_wf s _ h
  split
  · exact homeRead_wf s _ _ h
  split
  · exact homeRead_wf _ _ _ (podDrop_wf s _ _ h)
  · exact podRead_wf s _ _ _ h

/-- A write by any agent keeps memory's form. -/
theorem writeSec_wf (s : State) (g : Agent) (a : Nat) (t : PageAttr) (home : Bool) (w : SecWrite) (h : s.mem.wf = true) :
    (s.writeSec g a t home w).mem.wf = true := by
  have through : ∀ (b : Bool) (base : Nat) (u : State), u.mem.wf = true → (if b = true then u.l2Flush base else u).mem.wf = true := by
    intro b base u hu
    split
    · exact l2Flush_wf u base hu
    · exact hu
  simp only [State.writeSec]
  split
  · exact h
  split
  · split
    · exact h
    · exact h
  split
  · exact memWrite_wf s _ _ _ h
  split
  · exact through _ _ _ (homeWrite_wf s _ _ _ h)
  split
  · exact h
  split
  · exact through _ _ _ (homeWrite_wf _ _ _ _ (podDrop_wf s _ _ h))
  · exact h

theorem readNat_wf (s : State) (g : Agent) (a : Nat) (t : PageAttr) (home : Bool) (n : Nat) (h : s.mem.wf = true) :
    (s.readNat g a t home n).2.mem.wf = true := readSec_wf s g a t home _ h

theorem writeNat_wf (s : State) (g : Agent) (a : Nat) (t : PageAttr) (home : Bool) (n v : Nat) (p : Bool) (h : s.mem.wf = true) :
    (s.writeNat g a t home n v p).mem.wf = true := writeSec_wf s g a t home _ h

theorem getLoc_wf (s : State) (g : Agent) (l : Loc) (home : Bool) (n : Nat) (h : s.mem.wf = true) :
    (s.getLoc g l home n).2.mem.wf = true := by
  unfold State.getLoc
  split
  · split <;> exact h
  · exact readNat_wf _ _ _ _ _ _ h
  · exact h

theorem putLoc_wf (s : State) (g : Agent) (l : Loc) (home : Bool) (n v : Nat) (p : Bool) (h : s.mem.wf = true) :
    (s.putLoc g l home n v p).mem.wf = true := by
  unfold State.putLoc
  split
  · exact h
  · exact writeNat_wf _ _ _ _ _ _ _ _ h
  · exact h

end Sys2Proof.Machine
end

