-- ==== Sys2Proof/Laws/State.lean ====
section
/-! SUPPORT. Each named update of a part of the state leaves every other field as it is. One lemma a field, all by
`rfl`, so that no proof unfolds a record update. -/

namespace Sys2Proof.Machine

variable (s : State)

/-! ### `modFib` -/

@[simp] theorem State.modFib_sched (f : FibId) (g : Fibre → Fibre) : (s.modFib f g).sched = s.sched := rfl
@[simp] theorem State.modFib_tick (f : FibId) (g : Fibre → Fibre) : (s.modFib f g).tick = s.tick := rfl
@[simp] theorem State.modFib_clock (f : FibId) (g : Fibre → Fibre) : (s.modFib f g).clock = s.clock := rfl
@[simp] theorem State.modFib_power (f : FibId) (g : Fibre → Fibre) : (s.modFib f g).power = s.power := rfl
@[simp] theorem State.modFib_fresh (f : FibId) (g : Fibre → Fibre) : (s.modFib f g).fresh = s.fresh := rfl
@[simp] theorem State.modFib_cur (f : FibId) (g : Fibre → Fibre) : (s.modFib f g).cur = s.cur := rfl
@[simp] theorem State.modFib_groups (f : FibId) (g : Fibre → Fibre) : (s.modFib f g).groups = s.groups := rfl
@[simp] theorem State.modFib_teams (f : FibId) (g : Fibre → Fibre) : (s.modFib f g).teams = s.teams := rfl
@[simp] theorem State.modFib_clusters (f : FibId) (g : Fibre → Fibre) : (s.modFib f g).clusters = s.clusters := rfl
@[simp] theorem State.modFib_clutches (f : FibId) (g : Fibre → Fibre) : (s.modFib f g).clutches = s.clutches := rfl
@[simp] theorem State.modFib_running (f : FibId) (g : Fibre → Fibre) : (s.modFib f g).running = s.running := rfl
@[simp] theorem State.modFib_pend (f : FibId) (g : Fibre → Fibre) : (s.modFib f g).pend = s.pend := rfl
@[simp] theorem State.modFib_cores (f : FibId) (g : Fibre → Fibre) : (s.modFib f g).cores = s.cores := rfl
@[simp] theorem State.modFib_pods (f : FibId) (g : Fibre → Fibre) : (s.modFib f g).pods = s.pods := rfl
@[simp] theorem State.modFib_dtlb (f : FibId) (g : Fibre → Fibre) : (s.modFib f g).dtlb = s.dtlb := rfl
@[simp] theorem State.modFib_l2 (f : FibId) (g : Fibre → Fibre) : (s.modFib f g).l2 = s.l2 := rfl
@[simp] theorem State.modFib_guests (f : FibId) (g : Fibre → Fibre) : (s.modFib f g).guests = s.guests := rfl
@[simp] theorem State.modFib_l2WaysOff (f : FibId) (g : Fibre → Fibre) : (s.modFib f g).l2WaysOff = s.l2WaysOff := rfl
@[simp] theorem State.modFib_l2Sets (f : FibId) (g : Fibre → Fibre) : (s.modFib f g).l2Sets = s.l2Sets := rfl
@[simp] theorem State.modFib_l2Used (f : FibId) (g : Fibre → Fibre) : (s.modFib f g).l2Used = s.l2Used := rfl
@[simp] theorem State.modFib_mem (f : FibId) (g : Fibre → Fibre) : (s.modFib f g).mem = s.mem := rfl
@[simp] theorem State.modFib_missed (f : FibId) (g : Fibre → Fibre) : (s.modFib f g).missed = s.missed := rfl
@[simp] theorem State.modFib_reps (f : FibId) (g : Fibre → Fibre) : (s.modFib f g).reps = s.reps := rfl
@[simp] theorem State.modFib_lost (f : FibId) (g : Fibre → Fibre) : (s.modFib f g).lost = s.lost := rfl
@[simp] theorem State.modFib_stacksOff (f : FibId) (g : Fibre → Fibre) : (s.modFib f g).stacksOff = s.stacksOff := rfl
@[simp] theorem State.modFib_sectorsOff (f : FibId) (g : Fibre → Fibre) : (s.modFib f g).sectorsOff = s.sectorsOff := rfl
@[simp] theorem State.modFib_fillWait (f : FibId) (g : Fibre → Fibre) : (s.modFib f g).fillWait = s.fillWait := rfl
@[simp] theorem State.modFib_frames (f : FibId) (g : Fibre → Fibre) : (s.modFib f g).frames = s.frames := rfl
@[simp] theorem State.modFib_profiles (f : FibId) (g : Fibre → Fibre) : (s.modFib f g).profiles = s.profiles := rfl
@[simp] theorem State.modFib_rds (f : FibId) (g : Fibre → Fibre) : (s.modFib f g).rds = s.rds := rfl
@[simp] theorem State.modFib_wrs (f : FibId) (g : Fibre → Fibre) : (s.modFib f g).wrs = s.wrs := rfl
@[simp] theorem State.modFib_badPc (f : FibId) (g : Fibre → Fibre) : (s.modFib f g).badPc = s.badPc := rfl
@[simp] theorem State.modFib_caTries (f : FibId) (g : Fibre → Fibre) : (s.modFib f g).caTries = s.caTries := rfl
@[simp] theorem State.modFib_acts (f : FibId) (g : Fibre → Fibre) : (s.modFib f g).acts = s.acts := rfl
@[simp] theorem State.modFib_heldBanks (f : FibId) (g : Fibre → Fibre) : (s.modFib f g).heldBanks = s.heldBanks := rfl
@[simp] theorem State.modFib_spares (f : FibId) (g : Fibre → Fibre) : (s.modFib f g).spares = s.spares := rfl
@[simp] theorem State.modFib_sib (f : FibId) (g : Fibre → Fibre) : (s.modFib f g).sib = s.sib := rfl
@[simp] theorem State.modFib_walks (f : FibId) (g : Fibre → Fibre) : (s.modFib f g).walks = s.walks := rfl
@[simp] theorem State.modFib_faults (f : FibId) (g : Fibre → Fibre) : (s.modFib f g).faults = s.faults := rfl
@[simp] theorem State.modFib_subs (f : FibId) (g : Fibre → Fibre) : (s.modFib f g).subs = s.subs := rfl
@[simp] theorem State.modFib_joins (f : FibId) (g : Fibre → Fibre) : (s.modFib f g).joins = s.joins := rfl
@[simp] theorem State.modFib_futs (f : FibId) (g : Fibre → Fibre) : (s.modFib f g).futs = s.futs := rfl
@[simp] theorem State.modFib_cmds (f : FibId) (g : Fibre → Fibre) : (s.modFib f g).cmds = s.cmds := rfl
@[simp] theorem State.modFib_trees (f : FibId) (g : Fibre → Fibre) : (s.modFib f g).trees = s.trees := rfl
@[simp] theorem State.modFib_parts (f : FibId) (g : Fibre → Fibre) : (s.modFib f g).parts = s.parts := rfl
@[simp] theorem State.modFib_mode (f : FibId) (g : Fibre → Fibre) : (s.modFib f g).mode = s.mode := rfl
@[simp] theorem State.modFib_pkg (f : FibId) (g : Fibre → Fibre) : (s.modFib f g).pkg = s.pkg := rfl
@[simp] theorem State.modFib_pkgNext (f : FibId) (g : Fibre → Fibre) : (s.modFib f g).pkgNext = s.pkgNext := rfl
@[simp] theorem State.modFib_bootRec (f : FibId) (g : Fibre → Fibre) : (s.modFib f g).bootRec = s.bootRec := rfl
@[simp] theorem State.modFib_stackTries (f : FibId) (g : Fibre → Fibre) : (s.modFib f g).stackTries = s.stackTries := rfl
@[simp] theorem State.modFib_sectorsBad (f : FibId) (g : Fibre → Fibre) : (s.modFib f g).sectorsBad = s.sectorsBad := rfl
@[simp] theorem State.modFib_pcieSlow (f : FibId) (g : Fibre → Fibre) : (s.modFib f g).pcieSlow = s.pcieSlow := rfl
@[simp] theorem State.modFib_hubLast (f : FibId) (g : Fibre → Fibre) : (s.modFib f g).hubLast = s.hubLast := rfl
@[simp] theorem State.modFib_retired (f : FibId) (g : Fibre → Fibre) : (s.modFib f g).retired = s.retired := rfl
@[simp] theorem State.modFib_flashOk (f : FibId) (g : Fibre → Fibre) : (s.modFib f g).flashOk = s.flashOk := rfl
@[simp] theorem State.modFib_fwstat (f : FibId) (g : Fibre → Fibre) : (s.modFib f g).fwstat = s.fwstat := rfl
@[simp] theorem State.modFib_fwJob (f : FibId) (g : Fibre → Fibre) : (s.modFib f g).fwJob = s.fwJob := rfl
@[simp] theorem State.modFib_lastFail (f : FibId) (g : Fibre → Fibre) : (s.modFib f g).lastFail = s.lastFail := rfl
@[simp] theorem State.modFib_events (f : FibId) (g : Fibre → Fibre) : (s.modFib f g).events = s.events := rfl
@[simp] theorem State.modFib_heads (f : FibId) (g : Fibre → Fibre) : (s.modFib f g).heads = s.heads := rfl
@[simp] theorem State.modFib_engTurn (f : FibId) (g : Fibre → Fibre) : (s.modFib f g).engTurn = s.engTurn := rfl
@[simp] theorem State.modFib_encs (f : FibId) (g : Fibre → Fibre) : (s.modFib f g).encs = s.encs := rfl
@[simp] theorem State.modFib_cxl (f : FibId) (g : Fibre → Fibre) : (s.modFib f g).cxl = s.cxl := rfl
@[simp] theorem State.modFib_ports (f : FibId) (g : Fibre → Fibre) : (s.modFib f g).ports = s.ports := rfl
@[simp] theorem State.modFib_lostPkgs (f : FibId) (g : Fibre → Fibre) : (s.modFib f g).lostPkgs = s.lostPkgs := rfl
@[simp] theorem State.modFib_sentSeq (f : FibId) (g : Fibre → Fibre) : (s.modFib f g).sentSeq = s.sentSeq := rfl
@[simp] theorem State.modFib_far (f : FibId) (g : Fibre → Fibre) : (s.modFib f g).far = s.far := rfl
@[simp] theorem State.modFib_colls (f : FibId) (g : Fibre → Fibre) : (s.modFib f g).colls = s.colls := rfl
@[simp] theorem State.modFib_received (f : FibId) (g : Fibre → Fibre) : (s.modFib f g).received = s.received := rfl
@[simp] theorem State.modFib_answers (f : FibId) (g : Fibre → Fibre) : (s.modFib f g).answers = s.answers := rfl

/-! ### `modFibs` -/

@[simp] theorem State.modFibs_sched (p : Fibre → Bool) (g : Fibre → Fibre) : (s.modFibs p g).sched = s.sched := rfl
@[simp] theorem State.modFibs_tick (p : Fibre → Bool) (g : Fibre → Fibre) : (s.modFibs p g).tick = s.tick := rfl
@[simp] theorem State.modFibs_clock (p : Fibre → Bool) (g : Fibre → Fibre) : (s.modFibs p g).clock = s.clock := rfl
@[simp] theorem State.modFibs_power (p : Fibre → Bool) (g : Fibre → Fibre) : (s.modFibs p g).power = s.power := rfl
@[simp] theorem State.modFibs_fresh (p : Fibre → Bool) (g : Fibre → Fibre) : (s.modFibs p g).fresh = s.fresh := rfl
@[simp] theorem State.modFibs_cur (p : Fibre → Bool) (g : Fibre → Fibre) : (s.modFibs p g).cur = s.cur := rfl
@[simp] theorem State.modFibs_groups (p : Fibre → Bool) (g : Fibre → Fibre) : (s.modFibs p g).groups = s.groups := rfl
@[simp] theorem State.modFibs_teams (p : Fibre → Bool) (g : Fibre → Fibre) : (s.modFibs p g).teams = s.teams := rfl
@[simp] theorem State.modFibs_clusters (p : Fibre → Bool) (g : Fibre → Fibre) : (s.modFibs p g).clusters = s.clusters := rfl
@[simp] theorem State.modFibs_clutches (p : Fibre → Bool) (g : Fibre → Fibre) : (s.modFibs p g).clutches = s.clutches := rfl
@[simp] theorem State.modFibs_running (p : Fibre → Bool) (g : Fibre → Fibre) : (s.modFibs p g).running = s.running := rfl
@[simp] theorem State.modFibs_pend (p : Fibre → Bool) (g : Fibre → Fibre) : (s.modFibs p g).pend = s.pend := rfl
@[simp] theorem State.modFibs_cores (p : Fibre → Bool) (g : Fibre → Fibre) : (s.modFibs p g).cores = s.cores := rfl
@[simp] theorem State.modFibs_pods (p : Fibre → Bool) (g : Fibre → Fibre) : (s.modFibs p g).pods = s.pods := rfl
@[simp] theorem State.modFibs_dtlb (p : Fibre → Bool) (g : Fibre → Fibre) : (s.modFibs p g).dtlb = s.dtlb := rfl
@[simp] theorem State.modFibs_l2 (p : Fibre → Bool) (g : Fibre → Fibre) : (s.modFibs p g).l2 = s.l2 := rfl
@[simp] theorem State.modFibs_guests (p : Fibre → Bool) (g : Fibre → Fibre) : (s.modFibs p g).guests = s.guests := rfl
@[simp] theorem State.modFibs_l2WaysOff (p : Fibre → Bool) (g : Fibre → Fibre) : (s.modFibs p g).l2WaysOff = s.l2WaysOff := rfl
@[simp] theorem State.modFibs_l2Sets (p : Fibre → Bool) (g : Fibre → Fibre) : (s.modFibs p g).l2Sets = s.l2Sets := rfl
@[simp] theorem State.modFibs_l2Used (p : Fibre → Bool) (g : Fibre → Fibre) : (s.modFibs p g).l2Used = s.l2Used := rfl
@[simp] theorem State.modFibs_mem (p : Fibre → Bool) (g : Fibre → Fibre) : (s.modFibs p g).mem = s.mem := rfl
@[simp] theorem State.modFibs_missed (p : Fibre → Bool) (g : Fibre → Fibre) : (s.modFibs p g).missed = s.missed := rfl
@[simp] theorem State.modFibs_reps (p : Fibre → Bool) (g : Fibre → Fibre) : (s.modFibs p g).reps = s.reps := rfl
@[simp] theorem State.modFibs_lost (p : Fibre → Bool) (g : Fibre → Fibre) : (s.modFibs p g).lost = s.lost := rfl
@[simp] theorem State.modFibs_stacksOff (p : Fibre → Bool) (g : Fibre → Fibre) : (s.modFibs p g).stacksOff = s.stacksOff := rfl
@[simp] theorem State.modFibs_sectorsOff (p : Fibre → Bool) (g : Fibre → Fibre) : (s.modFibs p g).sectorsOff = s.sectorsOff := rfl
@[simp] theorem State.modFibs_fillWait (p : Fibre → Bool) (g : Fibre → Fibre) : (s.modFibs p g).fillWait = s.fillWait := rfl
@[simp] theorem State.modFibs_frames (p : Fibre → Bool) (g : Fibre → Fibre) : (s.modFibs p g).frames = s.frames := rfl
@[simp] theorem State.modFibs_profiles (p : Fibre → Bool) (g : Fibre → Fibre) : (s.modFibs p g).profiles = s.profiles := rfl
@[simp] theorem State.modFibs_rds (p : Fibre → Bool) (g : Fibre → Fibre) : (s.modFibs p g).rds = s.rds := rfl
@[simp] theorem State.modFibs_wrs (p : Fibre → Bool) (g : Fibre → Fibre) : (s.modFibs p g).wrs = s.wrs := rfl
@[simp] theorem State.modFibs_badPc (p : Fibre → Bool) (g : Fibre → Fibre) : (s.modFibs p g).badPc = s.badPc := rfl
@[simp] theorem State.modFibs_caTries (p : Fibre → Bool) (g : Fibre → Fibre) : (s.modFibs p g).caTries = s.caTries := rfl
@[simp] theorem State.modFibs_acts (p : Fibre → Bool) (g : Fibre → Fibre) : (s.modFibs p g).acts = s.acts := rfl
@[simp] theorem State.modFibs_heldBanks (p : Fibre → Bool) (g : Fibre → Fibre) : (s.modFibs p g).heldBanks = s.heldBanks := rfl
@[simp] theorem State.modFibs_spares (p : Fibre → Bool) (g : Fibre → Fibre) : (s.modFibs p g).spares = s.spares := rfl
@[simp] theorem State.modFibs_sib (p : Fibre → Bool) (g : Fibre → Fibre) : (s.modFibs p g).sib = s.sib := rfl
@[simp] theorem State.modFibs_walks (p : Fibre → Bool) (g : Fibre → Fibre) : (s.modFibs p g).walks = s.walks := rfl
@[simp] theorem State.modFibs_faults (p : Fibre → Bool) (g : Fibre → Fibre) : (s.modFibs p g).faults = s.faults := rfl
@[simp] theorem State.modFibs_subs (p : Fibre → Bool) (g : Fibre → Fibre) : (s.modFibs p g).subs = s.subs := rfl
@[simp] theorem State.modFibs_joins (p : Fibre → Bool) (g : Fibre → Fibre) : (s.modFibs p g).joins = s.joins := rfl
@[simp] theorem State.modFibs_futs (p : Fibre → Bool) (g : Fibre → Fibre) : (s.modFibs p g).futs = s.futs := rfl
@[simp] theorem State.modFibs_cmds (p : Fibre → Bool) (g : Fibre → Fibre) : (s.modFibs p g).cmds = s.cmds := rfl
@[simp] theorem State.modFibs_trees (p : Fibre → Bool) (g : Fibre → Fibre) : (s.modFibs p g).trees = s.trees := rfl
@[simp] theorem State.modFibs_parts (p : Fibre → Bool) (g : Fibre → Fibre) : (s.modFibs p g).parts = s.parts := rfl
@[simp] theorem State.modFibs_mode (p : Fibre → Bool) (g : Fibre → Fibre) : (s.modFibs p g).mode = s.mode := rfl
@[simp] theorem State.modFibs_pkg (p : Fibre → Bool) (g : Fibre → Fibre) : (s.modFibs p g).pkg = s.pkg := rfl
@[simp] theorem State.modFibs_pkgNext (p : Fibre → Bool) (g : Fibre → Fibre) : (s.modFibs p g).pkgNext = s.pkgNext := rfl
@[simp] theorem State.modFibs_bootRec (p : Fibre → Bool) (g : Fibre → Fibre) : (s.modFibs p g).bootRec = s.bootRec := rfl
@[simp] theorem State.modFibs_stackTries (p : Fibre → Bool) (g : Fibre → Fibre) : (s.modFibs p g).stackTries = s.stackTries := rfl
@[simp] theorem State.modFibs_sectorsBad (p : Fibre → Bool) (g : Fibre → Fibre) : (s.modFibs p g).sectorsBad = s.sectorsBad := rfl
@[simp] theorem State.modFibs_pcieSlow (p : Fibre → Bool) (g : Fibre → Fibre) : (s.modFibs p g).pcieSlow = s.pcieSlow := rfl
@[simp] theorem State.modFibs_hubLast (p : Fibre → Bool) (g : Fibre → Fibre) : (s.modFibs p g).hubLast = s.hubLast := rfl
@[simp] theorem State.modFibs_retired (p : Fibre → Bool) (g : Fibre → Fibre) : (s.modFibs p g).retired = s.retired := rfl
@[simp] theorem State.modFibs_flashOk (p : Fibre → Bool) (g : Fibre → Fibre) : (s.modFibs p g).flashOk = s.flashOk := rfl
@[simp] theorem State.modFibs_fwstat (p : Fibre → Bool) (g : Fibre → Fibre) : (s.modFibs p g).fwstat = s.fwstat := rfl
@[simp] theorem State.modFibs_fwJob (p : Fibre → Bool) (g : Fibre → Fibre) : (s.modFibs p g).fwJob = s.fwJob := rfl
@[simp] theorem State.modFibs_lastFail (p : Fibre → Bool) (g : Fibre → Fibre) : (s.modFibs p g).lastFail = s.lastFail := rfl
@[simp] theorem State.modFibs_events (p : Fibre → Bool) (g : Fibre → Fibre) : (s.modFibs p g).events = s.events := rfl
@[simp] theorem State.modFibs_heads (p : Fibre → Bool) (g : Fibre → Fibre) : (s.modFibs p g).heads = s.heads := rfl
@[simp] theorem State.modFibs_engTurn (p : Fibre → Bool) (g : Fibre → Fibre) : (s.modFibs p g).engTurn = s.engTurn := rfl
@[simp] theorem State.modFibs_encs (p : Fibre → Bool) (g : Fibre → Fibre) : (s.modFibs p g).encs = s.encs := rfl
@[simp] theorem State.modFibs_cxl (p : Fibre → Bool) (g : Fibre → Fibre) : (s.modFibs p g).cxl = s.cxl := rfl
@[simp] theorem State.modFibs_ports (p : Fibre → Bool) (g : Fibre → Fibre) : (s.modFibs p g).ports = s.ports := rfl
@[simp] theorem State.modFibs_lostPkgs (p : Fibre → Bool) (g : Fibre → Fibre) : (s.modFibs p g).lostPkgs = s.lostPkgs := rfl
@[simp] theorem State.modFibs_sentSeq (p : Fibre → Bool) (g : Fibre → Fibre) : (s.modFibs p g).sentSeq = s.sentSeq := rfl
@[simp] theorem State.modFibs_far (p : Fibre → Bool) (g : Fibre → Fibre) : (s.modFibs p g).far = s.far := rfl
@[simp] theorem State.modFibs_colls (p : Fibre → Bool) (g : Fibre → Fibre) : (s.modFibs p g).colls = s.colls := rfl
@[simp] theorem State.modFibs_received (p : Fibre → Bool) (g : Fibre → Fibre) : (s.modFibs p g).received = s.received := rfl
@[simp] theorem State.modFibs_answers (p : Fibre → Bool) (g : Fibre → Fibre) : (s.modFibs p g).answers = s.answers := rfl

/-! ### `modGrp` -/

@[simp] theorem State.modGrp_sched (t k : Nat) (g : Group → Group) : (s.modGrp t k g).sched = s.sched := rfl
@[simp] theorem State.modGrp_tick (t k : Nat) (g : Group → Group) : (s.modGrp t k g).tick = s.tick := rfl
@[simp] theorem State.modGrp_clock (t k : Nat) (g : Group → Group) : (s.modGrp t k g).clock = s.clock := rfl
@[simp] theorem State.modGrp_power (t k : Nat) (g : Group → Group) : (s.modGrp t k g).power = s.power := rfl
@[simp] theorem State.modGrp_fresh (t k : Nat) (g : Group → Group) : (s.modGrp t k g).fresh = s.fresh := rfl
@[simp] theorem State.modGrp_cur (t k : Nat) (g : Group → Group) : (s.modGrp t k g).cur = s.cur := rfl
@[simp] theorem State.modGrp_fibres (t k : Nat) (g : Group → Group) : (s.modGrp t k g).fibres = s.fibres := rfl
@[simp] theorem State.modGrp_teams (t k : Nat) (g : Group → Group) : (s.modGrp t k g).teams = s.teams := rfl
@[simp] theorem State.modGrp_clusters (t k : Nat) (g : Group → Group) : (s.modGrp t k g).clusters = s.clusters := rfl
@[simp] theorem State.modGrp_clutches (t k : Nat) (g : Group → Group) : (s.modGrp t k g).clutches = s.clutches := rfl
@[simp] theorem State.modGrp_running (t k : Nat) (g : Group → Group) : (s.modGrp t k g).running = s.running := rfl
@[simp] theorem State.modGrp_pend (t k : Nat) (g : Group → Group) : (s.modGrp t k g).pend = s.pend := rfl
@[simp] theorem State.modGrp_cores (t k : Nat) (g : Group → Group) : (s.modGrp t k g).cores = s.cores := rfl
@[simp] theorem State.modGrp_pods (t k : Nat) (g : Group → Group) : (s.modGrp t k g).pods = s.pods := rfl
@[simp] theorem State.modGrp_dtlb (t k : Nat) (g : Group → Group) : (s.modGrp t k g).dtlb = s.dtlb := rfl
@[simp] theorem State.modGrp_l2 (t k : Nat) (g : Group → Group) : (s.modGrp t k g).l2 = s.l2 := rfl
@[simp] theorem State.modGrp_guests (t k : Nat) (g : Group → Group) : (s.modGrp t k g).guests = s.guests := rfl
@[simp] theorem State.modGrp_l2WaysOff (t k : Nat) (g : Group → Group) : (s.modGrp t k g).l2WaysOff = s.l2WaysOff := rfl
@[simp] theorem State.modGrp_l2Sets (t k : Nat) (g : Group → Group) : (s.modGrp t k g).l2Sets = s.l2Sets := rfl
@[simp] theorem State.modGrp_l2Used (t k : Nat) (g : Group → Group) : (s.modGrp t k g).l2Used = s.l2Used := rfl
@[simp] theorem State.modGrp_mem (t k : Nat) (g : Group → Group) : (s.modGrp t k g).mem = s.mem := rfl
@[simp] theorem State.modGrp_missed (t k : Nat) (g : Group → Group) : (s.modGrp t k g).missed = s.missed := rfl
@[simp] theorem State.modGrp_reps (t k : Nat) (g : Group → Group) : (s.modGrp t k g).reps = s.reps := rfl
@[simp] theorem State.modGrp_lost (t k : Nat) (g : Group → Group) : (s.modGrp t k g).lost = s.lost := rfl
@[simp] theorem State.modGrp_stacksOff (t k : Nat) (g : Group → Group) : (s.modGrp t k g).stacksOff = s.stacksOff := rfl
@[simp] theorem State.modGrp_sectorsOff (t k : Nat) (g : Group → Group) : (s.modGrp t k g).sectorsOff = s.sectorsOff := rfl
@[simp] theorem State.modGrp_fillWait (t k : Nat) (g : Group → Group) : (s.modGrp t k g).fillWait = s.fillWait := rfl
@[simp] theorem State.modGrp_frames (t k : Nat) (g : Group → Group) : (s.modGrp t k g).frames = s.frames := rfl
@[simp] theorem State.modGrp_profiles (t k : Nat) (g : Group → Group) : (s.modGrp t k g).profiles = s.profiles := rfl
@[simp] theorem State.modGrp_rds (t k : Nat) (g : Group → Group) : (s.modGrp t k g).rds = s.rds := rfl
@[simp] theorem State.modGrp_wrs (t k : Nat) (g : Group → Group) : (s.modGrp t k g).wrs = s.wrs := rfl
@[simp] theorem State.modGrp_badPc (t k : Nat) (g : Group → Group) : (s.modGrp t k g).badPc = s.badPc := rfl
@[simp] theorem State.modGrp_caTries (t k : Nat) (g : Group → Group) : (s.modGrp t k g).caTries = s.caTries := rfl
@[simp] theorem State.modGrp_acts (t k : Nat) (g : Group → Group) : (s.modGrp t k g).acts = s.acts := rfl
@[simp] theorem State.modGrp_heldBanks (t k : Nat) (g : Group → Group) : (s.modGrp t k g).heldBanks = s.heldBanks := rfl
@[simp] theorem State.modGrp_spares (t k : Nat) (g : Group → Group) : (s.modGrp t k g).spares = s.spares := rfl
@[simp] theorem State.modGrp_sib (t k : Nat) (g : Group → Group) : (s.modGrp t k g).sib = s.sib := rfl
@[simp] theorem State.modGrp_walks (t k : Nat) (g : Group → Group) : (s.modGrp t k g).walks = s.walks := rfl
@[simp] theorem State.modGrp_faults (t k : Nat) (g : Group → Group) : (s.modGrp t k g).faults = s.faults := rfl
@[simp] theorem State.modGrp_subs (t k : Nat) (g : Group → Group) : (s.modGrp t k g).subs = s.subs := rfl
@[simp] theorem State.modGrp_joins (t k : Nat) (g : Group → Group) : (s.modGrp t k g).joins = s.joins := rfl
@[simp] theorem State.modGrp_futs (t k : Nat) (g : Group → Group) : (s.modGrp t k g).futs = s.futs := rfl
@[simp] theorem State.modGrp_cmds (t k : Nat) (g : Group → Group) : (s.modGrp t k g).cmds = s.cmds := rfl
@[simp] theorem State.modGrp_trees (t k : Nat) (g : Group → Group) : (s.modGrp t k g).trees = s.trees := rfl
@[simp] theorem State.modGrp_parts (t k : Nat) (g : Group → Group) : (s.modGrp t k g).parts = s.parts := rfl
@[simp] theorem State.modGrp_mode (t k : Nat) (g : Group → Group) : (s.modGrp t k g).mode = s.mode := rfl
@[simp] theorem State.modGrp_pkg (t k : Nat) (g : Group → Group) : (s.modGrp t k g).pkg = s.pkg := rfl
@[simp] theorem State.modGrp_pkgNext (t k : Nat) (g : Group → Group) : (s.modGrp t k g).pkgNext = s.pkgNext := rfl
@[simp] theorem State.modGrp_bootRec (t k : Nat) (g : Group → Group) : (s.modGrp t k g).bootRec = s.bootRec := rfl
@[simp] theorem State.modGrp_stackTries (t k : Nat) (g : Group → Group) : (s.modGrp t k g).stackTries = s.stackTries := rfl
@[simp] theorem State.modGrp_sectorsBad (t k : Nat) (g : Group → Group) : (s.modGrp t k g).sectorsBad = s.sectorsBad := rfl
@[simp] theorem State.modGrp_pcieSlow (t k : Nat) (g : Group → Group) : (s.modGrp t k g).pcieSlow = s.pcieSlow := rfl
@[simp] theorem State.modGrp_hubLast (t k : Nat) (g : Group → Group) : (s.modGrp t k g).hubLast = s.hubLast := rfl
@[simp] theorem State.modGrp_retired (t k : Nat) (g : Group → Group) : (s.modGrp t k g).retired = s.retired := rfl
@[simp] theorem State.modGrp_flashOk (t k : Nat) (g : Group → Group) : (s.modGrp t k g).flashOk = s.flashOk := rfl
@[simp] theorem State.modGrp_fwstat (t k : Nat) (g : Group → Group) : (s.modGrp t k g).fwstat = s.fwstat := rfl
@[simp] theorem State.modGrp_fwJob (t k : Nat) (g : Group → Group) : (s.modGrp t k g).fwJob = s.fwJob := rfl
@[simp] theorem State.modGrp_lastFail (t k : Nat) (g : Group → Group) : (s.modGrp t k g).lastFail = s.lastFail := rfl
@[simp] theorem State.modGrp_events (t k : Nat) (g : Group → Group) : (s.modGrp t k g).events = s.events := rfl
@[simp] theorem State.modGrp_heads (t k : Nat) (g : Group → Group) : (s.modGrp t k g).heads = s.heads := rfl
@[simp] theorem State.modGrp_engTurn (t k : Nat) (g : Group → Group) : (s.modGrp t k g).engTurn = s.engTurn := rfl
@[simp] theorem State.modGrp_encs (t k : Nat) (g : Group → Group) : (s.modGrp t k g).encs = s.encs := rfl
@[simp] theorem State.modGrp_cxl (t k : Nat) (g : Group → Group) : (s.modGrp t k g).cxl = s.cxl := rfl
@[simp] theorem State.modGrp_ports (t k : Nat) (g : Group → Group) : (s.modGrp t k g).ports = s.ports := rfl
@[simp] theorem State.modGrp_lostPkgs (t k : Nat) (g : Group → Group) : (s.modGrp t k g).lostPkgs = s.lostPkgs := rfl
@[simp] theorem State.modGrp_sentSeq (t k : Nat) (g : Group → Group) : (s.modGrp t k g).sentSeq = s.sentSeq := rfl
@[simp] theorem State.modGrp_far (t k : Nat) (g : Group → Group) : (s.modGrp t k g).far = s.far := rfl
@[simp] theorem State.modGrp_colls (t k : Nat) (g : Group → Group) : (s.modGrp t k g).colls = s.colls := rfl
@[simp] theorem State.modGrp_received (t k : Nat) (g : Group → Group) : (s.modGrp t k g).received = s.received := rfl
@[simp] theorem State.modGrp_answers (t k : Nat) (g : Group → Group) : (s.modGrp t k g).answers = s.answers := rfl

/-! ### `modTeam` -/

@[simp] theorem State.modTeam_sched (t : Nat) (g : Team → Team) : (s.modTeam t g).sched = s.sched := rfl
@[simp] theorem State.modTeam_tick (t : Nat) (g : Team → Team) : (s.modTeam t g).tick = s.tick := rfl
@[simp] theorem State.modTeam_clock (t : Nat) (g : Team → Team) : (s.modTeam t g).clock = s.clock := rfl
@[simp] theorem State.modTeam_power (t : Nat) (g : Team → Team) : (s.modTeam t g).power = s.power := rfl
@[simp] theorem State.modTeam_fresh (t : Nat) (g : Team → Team) : (s.modTeam t g).fresh = s.fresh := rfl
@[simp] theorem State.modTeam_cur (t : Nat) (g : Team → Team) : (s.modTeam t g).cur = s.cur := rfl
@[simp] theorem State.modTeam_fibres (t : Nat) (g : Team → Team) : (s.modTeam t g).fibres = s.fibres := rfl
@[simp] theorem State.modTeam_groups (t : Nat) (g : Team → Team) : (s.modTeam t g).groups = s.groups := rfl
@[simp] theorem State.modTeam_clusters (t : Nat) (g : Team → Team) : (s.modTeam t g).clusters = s.clusters := rfl
@[simp] theorem State.modTeam_clutches (t : Nat) (g : Team → Team) : (s.modTeam t g).clutches = s.clutches := rfl
@[simp] theorem State.modTeam_running (t : Nat) (g : Team → Team) : (s.modTeam t g).running = s.running := rfl
@[simp] theorem State.modTeam_pend (t : Nat) (g : Team → Team) : (s.modTeam t g).pend = s.pend := rfl
@[simp] theorem State.modTeam_cores (t : Nat) (g : Team → Team) : (s.modTeam t g).cores = s.cores := rfl
@[simp] theorem State.modTeam_pods (t : Nat) (g : Team → Team) : (s.modTeam t g).pods = s.pods := rfl
@[simp] theorem State.modTeam_dtlb (t : Nat) (g : Team → Team) : (s.modTeam t g).dtlb = s.dtlb := rfl
@[simp] theorem State.modTeam_l2 (t : Nat) (g : Team → Team) : (s.modTeam t g).l2 = s.l2 := rfl
@[simp] theorem State.modTeam_guests (t : Nat) (g : Team → Team) : (s.modTeam t g).guests = s.guests := rfl
@[simp] theorem State.modTeam_l2WaysOff (t : Nat) (g : Team → Team) : (s.modTeam t g).l2WaysOff = s.l2WaysOff := rfl
@[simp] theorem State.modTeam_l2Sets (t : Nat) (g : Team → Team) : (s.modTeam t g).l2Sets = s.l2Sets := rfl
@[simp] theorem State.modTeam_l2Used (t : Nat) (g : Team → Team) : (s.modTeam t g).l2Used = s.l2Used := rfl
@[simp] theorem State.modTeam_mem (t : Nat) (g : Team → Team) : (s.modTeam t g).mem = s.mem := rfl
@[simp] theorem State.modTeam_missed (t : Nat) (g : Team → Team) : (s.modTeam t g).missed = s.missed := rfl
@[simp] theorem State.modTeam_reps (t : Nat) (g : Team → Team) : (s.modTeam t g).reps = s.reps := rfl
@[simp] theorem State.modTeam_lost (t : Nat) (g : Team → Team) : (s.modTeam t g).lost = s.lost := rfl
@[simp] theorem State.modTeam_stacksOff (t : Nat) (g : Team → Team) : (s.modTeam t g).stacksOff = s.stacksOff := rfl
@[simp] theorem State.modTeam_sectorsOff (t : Nat) (g : Team → Team) : (s.modTeam t g).sectorsOff = s.sectorsOff := rfl
@[simp] theorem State.modTeam_fillWait (t : Nat) (g : Team → Team) : (s.modTeam t g).fillWait = s.fillWait := rfl
@[simp] theorem State.modTeam_frames (t : Nat) (g : Team → Team) : (s.modTeam t g).frames = s.frames := rfl
@[simp] theorem State.modTeam_profiles (t : Nat) (g : Team → Team) : (s.modTeam t g).profiles = s.profiles := rfl
@[simp] theorem State.modTeam_rds (t : Nat) (g : Team → Team) : (s.modTeam t g).rds = s.rds := rfl
@[simp] theorem State.modTeam_wrs (t : Nat) (g : Team → Team) : (s.modTeam t g).wrs = s.wrs := rfl
@[simp] theorem State.modTeam_badPc (t : Nat) (g : Team → Team) : (s.modTeam t g).badPc = s.badPc := rfl
@[simp] theorem State.modTeam_caTries (t : Nat) (g : Team → Team) : (s.modTeam t g).caTries = s.caTries := rfl
@[simp] theorem State.modTeam_acts (t : Nat) (g : Team → Team) : (s.modTeam t g).acts = s.acts := rfl
@[simp] theorem State.modTeam_heldBanks (t : Nat) (g : Team → Team) : (s.modTeam t g).heldBanks = s.heldBanks := rfl
@[simp] theorem State.modTeam_spares (t : Nat) (g : Team → Team) : (s.modTeam t g).spares = s.spares := rfl
@[simp] theorem State.modTeam_sib (t : Nat) (g : Team → Team) : (s.modTeam t g).sib = s.sib := rfl
@[simp] theorem State.modTeam_walks (t : Nat) (g : Team → Team) : (s.modTeam t g).walks = s.walks := rfl
@[simp] theorem State.modTeam_faults (t : Nat) (g : Team → Team) : (s.modTeam t g).faults = s.faults := rfl
@[simp] theorem State.modTeam_subs (t : Nat) (g : Team → Team) : (s.modTeam t g).subs = s.subs := rfl
@[simp] theorem State.modTeam_joins (t : Nat) (g : Team → Team) : (s.modTeam t g).joins = s.joins := rfl
@[simp] theorem State.modTeam_futs (t : Nat) (g : Team → Team) : (s.modTeam t g).futs = s.futs := rfl
@[simp] theorem State.modTeam_cmds (t : Nat) (g : Team → Team) : (s.modTeam t g).cmds = s.cmds := rfl
@[simp] theorem State.modTeam_trees (t : Nat) (g : Team → Team) : (s.modTeam t g).trees = s.trees := rfl
@[simp] theorem State.modTeam_parts (t : Nat) (g : Team → Team) : (s.modTeam t g).parts = s.parts := rfl
@[simp] theorem State.modTeam_mode (t : Nat) (g : Team → Team) : (s.modTeam t g).mode = s.mode := rfl
@[simp] theorem State.modTeam_pkg (t : Nat) (g : Team → Team) : (s.modTeam t g).pkg = s.pkg := rfl
@[simp] theorem State.modTeam_pkgNext (t : Nat) (g : Team → Team) : (s.modTeam t g).pkgNext = s.pkgNext := rfl
@[simp] theorem State.modTeam_bootRec (t : Nat) (g : Team → Team) : (s.modTeam t g).bootRec = s.bootRec := rfl
@[simp] theorem State.modTeam_stackTries (t : Nat) (g : Team → Team) : (s.modTeam t g).stackTries = s.stackTries := rfl
@[simp] theorem State.modTeam_sectorsBad (t : Nat) (g : Team → Team) : (s.modTeam t g).sectorsBad = s.sectorsBad := rfl
@[simp] theorem State.modTeam_pcieSlow (t : Nat) (g : Team → Team) : (s.modTeam t g).pcieSlow = s.pcieSlow := rfl
@[simp] theorem State.modTeam_hubLast (t : Nat) (g : Team → Team) : (s.modTeam t g).hubLast = s.hubLast := rfl
@[simp] theorem State.modTeam_retired (t : Nat) (g : Team → Team) : (s.modTeam t g).retired = s.retired := rfl
@[simp] theorem State.modTeam_flashOk (t : Nat) (g : Team → Team) : (s.modTeam t g).flashOk = s.flashOk := rfl
@[simp] theorem State.modTeam_fwstat (t : Nat) (g : Team → Team) : (s.modTeam t g).fwstat = s.fwstat := rfl
@[simp] theorem State.modTeam_fwJob (t : Nat) (g : Team → Team) : (s.modTeam t g).fwJob = s.fwJob := rfl
@[simp] theorem State.modTeam_lastFail (t : Nat) (g : Team → Team) : (s.modTeam t g).lastFail = s.lastFail := rfl
@[simp] theorem State.modTeam_events (t : Nat) (g : Team → Team) : (s.modTeam t g).events = s.events := rfl
@[simp] theorem State.modTeam_heads (t : Nat) (g : Team → Team) : (s.modTeam t g).heads = s.heads := rfl
@[simp] theorem State.modTeam_engTurn (t : Nat) (g : Team → Team) : (s.modTeam t g).engTurn = s.engTurn := rfl
@[simp] theorem State.modTeam_encs (t : Nat) (g : Team → Team) : (s.modTeam t g).encs = s.encs := rfl
@[simp] theorem State.modTeam_cxl (t : Nat) (g : Team → Team) : (s.modTeam t g).cxl = s.cxl := rfl
@[simp] theorem State.modTeam_ports (t : Nat) (g : Team → Team) : (s.modTeam t g).ports = s.ports := rfl
@[simp] theorem State.modTeam_lostPkgs (t : Nat) (g : Team → Team) : (s.modTeam t g).lostPkgs = s.lostPkgs := rfl
@[simp] theorem State.modTeam_sentSeq (t : Nat) (g : Team → Team) : (s.modTeam t g).sentSeq = s.sentSeq := rfl
@[simp] theorem State.modTeam_far (t : Nat) (g : Team → Team) : (s.modTeam t g).far = s.far := rfl
@[simp] theorem State.modTeam_colls (t : Nat) (g : Team → Team) : (s.modTeam t g).colls = s.colls := rfl
@[simp] theorem State.modTeam_received (t : Nat) (g : Team → Team) : (s.modTeam t g).received = s.received := rfl
@[simp] theorem State.modTeam_answers (t : Nat) (g : Team → Team) : (s.modTeam t g).answers = s.answers := rfl

/-! ### `modCluster` -/

@[simp] theorem State.modCluster_sched (c : Nat) (g : Cluster → Cluster) : (s.modCluster c g).sched = s.sched := rfl
@[simp] theorem State.modCluster_tick (c : Nat) (g : Cluster → Cluster) : (s.modCluster c g).tick = s.tick := rfl
@[simp] theorem State.modCluster_clock (c : Nat) (g : Cluster → Cluster) : (s.modCluster c g).clock = s.clock := rfl
@[simp] theorem State.modCluster_power (c : Nat) (g : Cluster → Cluster) : (s.modCluster c g).power = s.power := rfl
@[simp] theorem State.modCluster_fresh (c : Nat) (g : Cluster → Cluster) : (s.modCluster c g).fresh = s.fresh := rfl
@[simp] theorem State.modCluster_cur (c : Nat) (g : Cluster → Cluster) : (s.modCluster c g).cur = s.cur := rfl
@[simp] theorem State.modCluster_fibres (c : Nat) (g : Cluster → Cluster) : (s.modCluster c g).fibres = s.fibres := rfl
@[simp] theorem State.modCluster_groups (c : Nat) (g : Cluster → Cluster) : (s.modCluster c g).groups = s.groups := rfl
@[simp] theorem State.modCluster_teams (c : Nat) (g : Cluster → Cluster) : (s.modCluster c g).teams = s.teams := rfl
@[simp] theorem State.modCluster_clutches (c : Nat) (g : Cluster → Cluster) : (s.modCluster c g).clutches = s.clutches := rfl
@[simp] theorem State.modCluster_running (c : Nat) (g : Cluster → Cluster) : (s.modCluster c g).running = s.running := rfl
@[simp] theorem State.modCluster_pend (c : Nat) (g : Cluster → Cluster) : (s.modCluster c g).pend = s.pend := rfl
@[simp] theorem State.modCluster_cores (c : Nat) (g : Cluster → Cluster) : (s.modCluster c g).cores = s.cores := rfl
@[simp] theorem State.modCluster_pods (c : Nat) (g : Cluster → Cluster) : (s.modCluster c g).pods = s.pods := rfl
@[simp] theorem State.modCluster_dtlb (c : Nat) (g : Cluster → Cluster) : (s.modCluster c g).dtlb = s.dtlb := rfl
@[simp] theorem State.modCluster_l2 (c : Nat) (g : Cluster → Cluster) : (s.modCluster c g).l2 = s.l2 := rfl
@[simp] theorem State.modCluster_guests (c : Nat) (g : Cluster → Cluster) : (s.modCluster c g).guests = s.guests := rfl
@[simp] theorem State.modCluster_l2WaysOff (c : Nat) (g : Cluster → Cluster) : (s.modCluster c g).l2WaysOff = s.l2WaysOff := rfl
@[simp] theorem State.modCluster_l2Sets (c : Nat) (g : Cluster → Cluster) : (s.modCluster c g).l2Sets = s.l2Sets := rfl
@[simp] theorem State.modCluster_l2Used (c : Nat) (g : Cluster → Cluster) : (s.modCluster c g).l2Used = s.l2Used := rfl
@[simp] theorem State.modCluster_mem (c : Nat) (g : Cluster → Cluster) : (s.modCluster c g).mem = s.mem := rfl
@[simp] theorem State.modCluster_missed (c : Nat) (g : Cluster → Cluster) : (s.modCluster c g).missed = s.missed := rfl
@[simp] theorem State.modCluster_reps (c : Nat) (g : Cluster → Cluster) : (s.modCluster c g).reps = s.reps := rfl
@[simp] theorem State.modCluster_lost (c : Nat) (g : Cluster → Cluster) : (s.modCluster c g).lost = s.lost := rfl
@[simp] theorem State.modCluster_stacksOff (c : Nat) (g : Cluster → Cluster) : (s.modCluster c g).stacksOff = s.stacksOff := rfl
@[simp] theorem State.modCluster_sectorsOff (c : Nat) (g : Cluster → Cluster) : (s.modCluster c g).sectorsOff = s.sectorsOff := rfl
@[simp] theorem State.modCluster_fillWait (c : Nat) (g : Cluster → Cluster) : (s.modCluster c g).fillWait = s.fillWait := rfl
@[simp] theorem State.modCluster_frames (c : Nat) (g : Cluster → Cluster) : (s.modCluster c g).frames = s.frames := rfl
@[simp] theorem State.modCluster_profiles (c : Nat) (g : Cluster → Cluster) : (s.modCluster c g).profiles = s.profiles := rfl
@[simp] theorem State.modCluster_rds (c : Nat) (g : Cluster → Cluster) : (s.modCluster c g).rds = s.rds := rfl
@[simp] theorem State.modCluster_wrs (c : Nat) (g : Cluster → Cluster) : (s.modCluster c g).wrs = s.wrs := rfl
@[simp] theorem State.modCluster_badPc (c : Nat) (g : Cluster → Cluster) : (s.modCluster c g).badPc = s.badPc := rfl
@[simp] theorem State.modCluster_caTries (c : Nat) (g : Cluster → Cluster) : (s.modCluster c g).caTries = s.caTries := rfl
@[simp] theorem State.modCluster_acts (c : Nat) (g : Cluster → Cluster) : (s.modCluster c g).acts = s.acts := rfl
@[simp] theorem State.modCluster_heldBanks (c : Nat) (g : Cluster → Cluster) : (s.modCluster c g).heldBanks = s.heldBanks := rfl
@[simp] theorem State.modCluster_spares (c : Nat) (g : Cluster → Cluster) : (s.modCluster c g).spares = s.spares := rfl
@[simp] theorem State.modCluster_sib (c : Nat) (g : Cluster → Cluster) : (s.modCluster c g).sib = s.sib := rfl
@[simp] theorem State.modCluster_walks (c : Nat) (g : Cluster → Cluster) : (s.modCluster c g).walks = s.walks := rfl
@[simp] theorem State.modCluster_faults (c : Nat) (g : Cluster → Cluster) : (s.modCluster c g).faults = s.faults := rfl
@[simp] theorem State.modCluster_subs (c : Nat) (g : Cluster → Cluster) : (s.modCluster c g).subs = s.subs := rfl
@[simp] theorem State.modCluster_joins (c : Nat) (g : Cluster → Cluster) : (s.modCluster c g).joins = s.joins := rfl
@[simp] theorem State.modCluster_futs (c : Nat) (g : Cluster → Cluster) : (s.modCluster c g).futs = s.futs := rfl
@[simp] theorem State.modCluster_cmds (c : Nat) (g : Cluster → Cluster) : (s.modCluster c g).cmds = s.cmds := rfl
@[simp] theorem State.modCluster_trees (c : Nat) (g : Cluster → Cluster) : (s.modCluster c g).trees = s.trees := rfl
@[simp] theorem State.modCluster_parts (c : Nat) (g : Cluster → Cluster) : (s.modCluster c g).parts = s.parts := rfl
@[simp] theorem State.modCluster_mode (c : Nat) (g : Cluster → Cluster) : (s.modCluster c g).mode = s.mode := rfl
@[simp] theorem State.modCluster_pkg (c : Nat) (g : Cluster → Cluster) : (s.modCluster c g).pkg = s.pkg := rfl
@[simp] theorem State.modCluster_pkgNext (c : Nat) (g : Cluster → Cluster) : (s.modCluster c g).pkgNext = s.pkgNext := rfl
@[simp] theorem State.modCluster_bootRec (c : Nat) (g : Cluster → Cluster) : (s.modCluster c g).bootRec = s.bootRec := rfl
@[simp] theorem State.modCluster_stackTries (c : Nat) (g : Cluster → Cluster) : (s.modCluster c g).stackTries = s.stackTries := rfl
@[simp] theorem State.modCluster_sectorsBad (c : Nat) (g : Cluster → Cluster) : (s.modCluster c g).sectorsBad = s.sectorsBad := rfl
@[simp] theorem State.modCluster_pcieSlow (c : Nat) (g : Cluster → Cluster) : (s.modCluster c g).pcieSlow = s.pcieSlow := rfl
@[simp] theorem State.modCluster_hubLast (c : Nat) (g : Cluster → Cluster) : (s.modCluster c g).hubLast = s.hubLast := rfl
@[simp] theorem State.modCluster_retired (c : Nat) (g : Cluster → Cluster) : (s.modCluster c g).retired = s.retired := rfl
@[simp] theorem State.modCluster_flashOk (c : Nat) (g : Cluster → Cluster) : (s.modCluster c g).flashOk = s.flashOk := rfl
@[simp] theorem State.modCluster_fwstat (c : Nat) (g : Cluster → Cluster) : (s.modCluster c g).fwstat = s.fwstat := rfl
@[simp] theorem State.modCluster_fwJob (c : Nat) (g : Cluster → Cluster) : (s.modCluster c g).fwJob = s.fwJob := rfl
@[simp] theorem State.modCluster_lastFail (c : Nat) (g : Cluster → Cluster) : (s.modCluster c g).lastFail = s.lastFail := rfl
@[simp] theorem State.modCluster_events (c : Nat) (g : Cluster → Cluster) : (s.modCluster c g).events = s.events := rfl
@[simp] theorem State.modCluster_heads (c : Nat) (g : Cluster → Cluster) : (s.modCluster c g).heads = s.heads := rfl
@[simp] theorem State.modCluster_engTurn (c : Nat) (g : Cluster → Cluster) : (s.modCluster c g).engTurn = s.engTurn := rfl
@[simp] theorem State.modCluster_encs (c : Nat) (g : Cluster → Cluster) : (s.modCluster c g).encs = s.encs := rfl
@[simp] theorem State.modCluster_cxl (c : Nat) (g : Cluster → Cluster) : (s.modCluster c g).cxl = s.cxl := rfl
@[simp] theorem State.modCluster_ports (c : Nat) (g : Cluster → Cluster) : (s.modCluster c g).ports = s.ports := rfl
@[simp] theorem State.modCluster_lostPkgs (c : Nat) (g : Cluster → Cluster) : (s.modCluster c g).lostPkgs = s.lostPkgs := rfl
@[simp] theorem State.modCluster_sentSeq (c : Nat) (g : Cluster → Cluster) : (s.modCluster c g).sentSeq = s.sentSeq := rfl
@[simp] theorem State.modCluster_far (c : Nat) (g : Cluster → Cluster) : (s.modCluster c g).far = s.far := rfl
@[simp] theorem State.modCluster_colls (c : Nat) (g : Cluster → Cluster) : (s.modCluster c g).colls = s.colls := rfl
@[simp] theorem State.modCluster_received (c : Nat) (g : Cluster → Cluster) : (s.modCluster c g).received = s.received := rfl
@[simp] theorem State.modCluster_answers (c : Nat) (g : Cluster → Cluster) : (s.modCluster c g).answers = s.answers := rfl

/-! ### `modClutch` -/

@[simp] theorem State.modClutch_sched (c : Nat) (g : Clutch → Clutch) : (s.modClutch c g).sched = s.sched := rfl
@[simp] theorem State.modClutch_tick (c : Nat) (g : Clutch → Clutch) : (s.modClutch c g).tick = s.tick := rfl
@[simp] theorem State.modClutch_clock (c : Nat) (g : Clutch → Clutch) : (s.modClutch c g).clock = s.clock := rfl
@[simp] theorem State.modClutch_power (c : Nat) (g : Clutch → Clutch) : (s.modClutch c g).power = s.power := rfl
@[simp] theorem State.modClutch_fresh (c : Nat) (g : Clutch → Clutch) : (s.modClutch c g).fresh = s.fresh := rfl
@[simp] theorem State.modClutch_cur (c : Nat) (g : Clutch → Clutch) : (s.modClutch c g).cur = s.cur := rfl
@[simp] theorem State.modClutch_fibres (c : Nat) (g : Clutch → Clutch) : (s.modClutch c g).fibres = s.fibres := rfl
@[simp] theorem State.modClutch_groups (c : Nat) (g : Clutch → Clutch) : (s.modClutch c g).groups = s.groups := rfl
@[simp] theorem State.modClutch_teams (c : Nat) (g : Clutch → Clutch) : (s.modClutch c g).teams = s.teams := rfl
@[simp] theorem State.modClutch_clusters (c : Nat) (g : Clutch → Clutch) : (s.modClutch c g).clusters = s.clusters := rfl
@[simp] theorem State.modClutch_running (c : Nat) (g : Clutch → Clutch) : (s.modClutch c g).running = s.running := rfl
@[simp] theorem State.modClutch_pend (c : Nat) (g : Clutch → Clutch) : (s.modClutch c g).pend = s.pend := rfl
@[simp] theorem State.modClutch_cores (c : Nat) (g : Clutch → Clutch) : (s.modClutch c g).cores = s.cores := rfl
@[simp] theorem State.modClutch_pods (c : Nat) (g : Clutch → Clutch) : (s.modClutch c g).pods = s.pods := rfl
@[simp] theorem State.modClutch_dtlb (c : Nat) (g : Clutch → Clutch) : (s.modClutch c g).dtlb = s.dtlb := rfl
@[simp] theorem State.modClutch_l2 (c : Nat) (g : Clutch → Clutch) : (s.modClutch c g).l2 = s.l2 := rfl
@[simp] theorem State.modClutch_guests (c : Nat) (g : Clutch → Clutch) : (s.modClutch c g).guests = s.guests := rfl
@[simp] theorem State.modClutch_l2WaysOff (c : Nat) (g : Clutch → Clutch) : (s.modClutch c g).l2WaysOff = s.l2WaysOff := rfl
@[simp] theorem State.modClutch_l2Sets (c : Nat) (g : Clutch → Clutch) : (s.modClutch c g).l2Sets = s.l2Sets := rfl
@[simp] theorem State.modClutch_l2Used (c : Nat) (g : Clutch → Clutch) : (s.modClutch c g).l2Used = s.l2Used := rfl
@[simp] theorem State.modClutch_mem (c : Nat) (g : Clutch → Clutch) : (s.modClutch c g).mem = s.mem := rfl
@[simp] theorem State.modClutch_missed (c : Nat) (g : Clutch → Clutch) : (s.modClutch c g).missed = s.missed := rfl
@[simp] theorem State.modClutch_reps (c : Nat) (g : Clutch → Clutch) : (s.modClutch c g).reps = s.reps := rfl
@[simp] theorem State.modClutch_lost (c : Nat) (g : Clutch → Clutch) : (s.modClutch c g).lost = s.lost := rfl
@[simp] theorem State.modClutch_stacksOff (c : Nat) (g : Clutch → Clutch) : (s.modClutch c g).stacksOff = s.stacksOff := rfl
@[simp] theorem State.modClutch_sectorsOff (c : Nat) (g : Clutch → Clutch) : (s.modClutch c g).sectorsOff = s.sectorsOff := rfl
@[simp] theorem State.modClutch_fillWait (c : Nat) (g : Clutch → Clutch) : (s.modClutch c g).fillWait = s.fillWait := rfl
@[simp] theorem State.modClutch_frames (c : Nat) (g : Clutch → Clutch) : (s.modClutch c g).frames = s.frames := rfl
@[simp] theorem State.modClutch_profiles (c : Nat) (g : Clutch → Clutch) : (s.modClutch c g).profiles = s.profiles := rfl
@[simp] theorem State.modClutch_rds (c : Nat) (g : Clutch → Clutch) : (s.modClutch c g).rds = s.rds := rfl
@[simp] theorem State.modClutch_wrs (c : Nat) (g : Clutch → Clutch) : (s.modClutch c g).wrs = s.wrs := rfl
@[simp] theorem State.modClutch_badPc (c : Nat) (g : Clutch → Clutch) : (s.modClutch c g).badPc = s.badPc := rfl
@[simp] theorem State.modClutch_caTries (c : Nat) (g : Clutch → Clutch) : (s.modClutch c g).caTries = s.caTries := rfl
@[simp] theorem State.modClutch_acts (c : Nat) (g : Clutch → Clutch) : (s.modClutch c g).acts = s.acts := rfl
@[simp] theorem State.modClutch_heldBanks (c : Nat) (g : Clutch → Clutch) : (s.modClutch c g).heldBanks = s.heldBanks := rfl
@[simp] theorem State.modClutch_spares (c : Nat) (g : Clutch → Clutch) : (s.modClutch c g).spares = s.spares := rfl
@[simp] theorem State.modClutch_sib (c : Nat) (g : Clutch → Clutch) : (s.modClutch c g).sib = s.sib := rfl
@[simp] theorem State.modClutch_walks (c : Nat) (g : Clutch → Clutch) : (s.modClutch c g).walks = s.walks := rfl
@[simp] theorem State.modClutch_faults (c : Nat) (g : Clutch → Clutch) : (s.modClutch c g).faults = s.faults := rfl
@[simp] theorem State.modClutch_subs (c : Nat) (g : Clutch → Clutch) : (s.modClutch c g).subs = s.subs := rfl
@[simp] theorem State.modClutch_joins (c : Nat) (g : Clutch → Clutch) : (s.modClutch c g).joins = s.joins := rfl
@[simp] theorem State.modClutch_futs (c : Nat) (g : Clutch → Clutch) : (s.modClutch c g).futs = s.futs := rfl
@[simp] theorem State.modClutch_cmds (c : Nat) (g : Clutch → Clutch) : (s.modClutch c g).cmds = s.cmds := rfl
@[simp] theorem State.modClutch_trees (c : Nat) (g : Clutch → Clutch) : (s.modClutch c g).trees = s.trees := rfl
@[simp] theorem State.modClutch_parts (c : Nat) (g : Clutch → Clutch) : (s.modClutch c g).parts = s.parts := rfl
@[simp] theorem State.modClutch_mode (c : Nat) (g : Clutch → Clutch) : (s.modClutch c g).mode = s.mode := rfl
@[simp] theorem State.modClutch_pkg (c : Nat) (g : Clutch → Clutch) : (s.modClutch c g).pkg = s.pkg := rfl
@[simp] theorem State.modClutch_pkgNext (c : Nat) (g : Clutch → Clutch) : (s.modClutch c g).pkgNext = s.pkgNext := rfl
@[simp] theorem State.modClutch_bootRec (c : Nat) (g : Clutch → Clutch) : (s.modClutch c g).bootRec = s.bootRec := rfl
@[simp] theorem State.modClutch_stackTries (c : Nat) (g : Clutch → Clutch) : (s.modClutch c g).stackTries = s.stackTries := rfl
@[simp] theorem State.modClutch_sectorsBad (c : Nat) (g : Clutch → Clutch) : (s.modClutch c g).sectorsBad = s.sectorsBad := rfl
@[simp] theorem State.modClutch_pcieSlow (c : Nat) (g : Clutch → Clutch) : (s.modClutch c g).pcieSlow = s.pcieSlow := rfl
@[simp] theorem State.modClutch_hubLast (c : Nat) (g : Clutch → Clutch) : (s.modClutch c g).hubLast = s.hubLast := rfl
@[simp] theorem State.modClutch_retired (c : Nat) (g : Clutch → Clutch) : (s.modClutch c g).retired = s.retired := rfl
@[simp] theorem State.modClutch_flashOk (c : Nat) (g : Clutch → Clutch) : (s.modClutch c g).flashOk = s.flashOk := rfl
@[simp] theorem State.modClutch_fwstat (c : Nat) (g : Clutch → Clutch) : (s.modClutch c g).fwstat = s.fwstat := rfl
@[simp] theorem State.modClutch_fwJob (c : Nat) (g : Clutch → Clutch) : (s.modClutch c g).fwJob = s.fwJob := rfl
@[simp] theorem State.modClutch_lastFail (c : Nat) (g : Clutch → Clutch) : (s.modClutch c g).lastFail = s.lastFail := rfl
@[simp] theorem State.modClutch_events (c : Nat) (g : Clutch → Clutch) : (s.modClutch c g).events = s.events := rfl
@[simp] theorem State.modClutch_heads (c : Nat) (g : Clutch → Clutch) : (s.modClutch c g).heads = s.heads := rfl
@[simp] theorem State.modClutch_engTurn (c : Nat) (g : Clutch → Clutch) : (s.modClutch c g).engTurn = s.engTurn := rfl
@[simp] theorem State.modClutch_encs (c : Nat) (g : Clutch → Clutch) : (s.modClutch c g).encs = s.encs := rfl
@[simp] theorem State.modClutch_cxl (c : Nat) (g : Clutch → Clutch) : (s.modClutch c g).cxl = s.cxl := rfl
@[simp] theorem State.modClutch_ports (c : Nat) (g : Clutch → Clutch) : (s.modClutch c g).ports = s.ports := rfl
@[simp] theorem State.modClutch_lostPkgs (c : Nat) (g : Clutch → Clutch) : (s.modClutch c g).lostPkgs = s.lostPkgs := rfl
@[simp] theorem State.modClutch_sentSeq (c : Nat) (g : Clutch → Clutch) : (s.modClutch c g).sentSeq = s.sentSeq := rfl
@[simp] theorem State.modClutch_far (c : Nat) (g : Clutch → Clutch) : (s.modClutch c g).far = s.far := rfl
@[simp] theorem State.modClutch_colls (c : Nat) (g : Clutch → Clutch) : (s.modClutch c g).colls = s.colls := rfl
@[simp] theorem State.modClutch_received (c : Nat) (g : Clutch → Clutch) : (s.modClutch c g).received = s.received := rfl
@[simp] theorem State.modClutch_answers (c : Nat) (g : Clutch → Clutch) : (s.modClutch c g).answers = s.answers := rfl

/-! ### `modRun` -/

@[simp] theorem State.modRun_sched (r : Nat) (g : ClauseRun → ClauseRun) : (s.modRun r g).sched = s.sched := rfl
@[simp] theorem State.modRun_tick (r : Nat) (g : ClauseRun → ClauseRun) : (s.modRun r g).tick = s.tick := rfl
@[simp] theorem State.modRun_clock (r : Nat) (g : ClauseRun → ClauseRun) : (s.modRun r g).clock = s.clock := rfl
@[simp] theorem State.modRun_power (r : Nat) (g : ClauseRun → ClauseRun) : (s.modRun r g).power = s.power := rfl
@[simp] theorem State.modRun_fresh (r : Nat) (g : ClauseRun → ClauseRun) : (s.modRun r g).fresh = s.fresh := rfl
@[simp] theorem State.modRun_cur (r : Nat) (g : ClauseRun → ClauseRun) : (s.modRun r g).cur = s.cur := rfl
@[simp] theorem State.modRun_fibres (r : Nat) (g : ClauseRun → ClauseRun) : (s.modRun r g).fibres = s.fibres := rfl
@[simp] theorem State.modRun_groups (r : Nat) (g : ClauseRun → ClauseRun) : (s.modRun r g).groups = s.groups := rfl
@[simp] theorem State.modRun_teams (r : Nat) (g : ClauseRun → ClauseRun) : (s.modRun r g).teams = s.teams := rfl
@[simp] theorem State.modRun_clusters (r : Nat) (g : ClauseRun → ClauseRun) : (s.modRun r g).clusters = s.clusters := rfl
@[simp] theorem State.modRun_clutches (r : Nat) (g : ClauseRun → ClauseRun) : (s.modRun r g).clutches = s.clutches := rfl
@[simp] theorem State.modRun_pend (r : Nat) (g : ClauseRun → ClauseRun) : (s.modRun r g).pend = s.pend := rfl
@[simp] theorem State.modRun_cores (r : Nat) (g : ClauseRun → ClauseRun) : (s.modRun r g).cores = s.cores := rfl
@[simp] theorem State.modRun_pods (r : Nat) (g : ClauseRun → ClauseRun) : (s.modRun r g).pods = s.pods := rfl
@[simp] theorem State.modRun_dtlb (r : Nat) (g : ClauseRun → ClauseRun) : (s.modRun r g).dtlb = s.dtlb := rfl
@[simp] theorem State.modRun_l2 (r : Nat) (g : ClauseRun → ClauseRun) : (s.modRun r g).l2 = s.l2 := rfl
@[simp] theorem State.modRun_guests (r : Nat) (g : ClauseRun → ClauseRun) : (s.modRun r g).guests = s.guests := rfl
@[simp] theorem State.modRun_l2WaysOff (r : Nat) (g : ClauseRun → ClauseRun) : (s.modRun r g).l2WaysOff = s.l2WaysOff := rfl
@[simp] theorem State.modRun_l2Sets (r : Nat) (g : ClauseRun → ClauseRun) : (s.modRun r g).l2Sets = s.l2Sets := rfl
@[simp] theorem State.modRun_l2Used (r : Nat) (g : ClauseRun → ClauseRun) : (s.modRun r g).l2Used = s.l2Used := rfl
@[simp] theorem State.modRun_mem (r : Nat) (g : ClauseRun → ClauseRun) : (s.modRun r g).mem = s.mem := rfl
@[simp] theorem State.modRun_missed (r : Nat) (g : ClauseRun → ClauseRun) : (s.modRun r g).missed = s.missed := rfl
@[simp] theorem State.modRun_reps (r : Nat) (g : ClauseRun → ClauseRun) : (s.modRun r g).reps = s.reps := rfl
@[simp] theorem State.modRun_lost (r : Nat) (g : ClauseRun → ClauseRun) : (s.modRun r g).lost = s.lost := rfl
@[simp] theorem State.modRun_stacksOff (r : Nat) (g : ClauseRun → ClauseRun) : (s.modRun r g).stacksOff = s.stacksOff := rfl
@[simp] theorem State.modRun_sectorsOff (r : Nat) (g : ClauseRun → ClauseRun) : (s.modRun r g).sectorsOff = s.sectorsOff := rfl
@[simp] theorem State.modRun_fillWait (r : Nat) (g : ClauseRun → ClauseRun) : (s.modRun r g).fillWait = s.fillWait := rfl
@[simp] theorem State.modRun_frames (r : Nat) (g : ClauseRun → ClauseRun) : (s.modRun r g).frames = s.frames := rfl
@[simp] theorem State.modRun_profiles (r : Nat) (g : ClauseRun → ClauseRun) : (s.modRun r g).profiles = s.profiles := rfl
@[simp] theorem State.modRun_rds (r : Nat) (g : ClauseRun → ClauseRun) : (s.modRun r g).rds = s.rds := rfl
@[simp] theorem State.modRun_wrs (r : Nat) (g : ClauseRun → ClauseRun) : (s.modRun r g).wrs = s.wrs := rfl
@[simp] theorem State.modRun_badPc (r : Nat) (g : ClauseRun → ClauseRun) : (s.modRun r g).badPc = s.badPc := rfl
@[simp] theorem State.modRun_caTries (r : Nat) (g : ClauseRun → ClauseRun) : (s.modRun r g).caTries = s.caTries := rfl
@[simp] theorem State.modRun_acts (r : Nat) (g : ClauseRun → ClauseRun) : (s.modRun r g).acts = s.acts := rfl
@[simp] theorem State.modRun_heldBanks (r : Nat) (g : ClauseRun → ClauseRun) : (s.modRun r g).heldBanks = s.heldBanks := rfl
@[simp] theorem State.modRun_spares (r : Nat) (g : ClauseRun → ClauseRun) : (s.modRun r g).spares = s.spares := rfl
@[simp] theorem State.modRun_sib (r : Nat) (g : ClauseRun → ClauseRun) : (s.modRun r g).sib = s.sib := rfl
@[simp] theorem State.modRun_walks (r : Nat) (g : ClauseRun → ClauseRun) : (s.modRun r g).walks = s.walks := rfl
@[simp] theorem State.modRun_faults (r : Nat) (g : ClauseRun → ClauseRun) : (s.modRun r g).faults = s.faults := rfl
@[simp] theorem State.modRun_subs (r : Nat) (g : ClauseRun → ClauseRun) : (s.modRun r g).subs = s.subs := rfl
@[simp] theorem State.modRun_joins (r : Nat) (g : ClauseRun → ClauseRun) : (s.modRun r g).joins = s.joins := rfl
@[simp] theorem State.modRun_futs (r : Nat) (g : ClauseRun → ClauseRun) : (s.modRun r g).futs = s.futs := rfl
@[simp] theorem State.modRun_cmds (r : Nat) (g : ClauseRun → ClauseRun) : (s.modRun r g).cmds = s.cmds := rfl
@[simp] theorem State.modRun_trees (r : Nat) (g : ClauseRun → ClauseRun) : (s.modRun r g).trees = s.trees := rfl
@[simp] theorem State.modRun_parts (r : Nat) (g : ClauseRun → ClauseRun) : (s.modRun r g).parts = s.parts := rfl
@[simp] theorem State.modRun_mode (r : Nat) (g : ClauseRun → ClauseRun) : (s.modRun r g).mode = s.mode := rfl
@[simp] theorem State.modRun_pkg (r : Nat) (g : ClauseRun → ClauseRun) : (s.modRun r g).pkg = s.pkg := rfl
@[simp] theorem State.modRun_pkgNext (r : Nat) (g : ClauseRun → ClauseRun) : (s.modRun r g).pkgNext = s.pkgNext := rfl
@[simp] theorem State.modRun_bootRec (r : Nat) (g : ClauseRun → ClauseRun) : (s.modRun r g).bootRec = s.bootRec := rfl
@[simp] theorem State.modRun_stackTries (r : Nat) (g : ClauseRun → ClauseRun) : (s.modRun r g).stackTries = s.stackTries := rfl
@[simp] theorem State.modRun_sectorsBad (r : Nat) (g : ClauseRun → ClauseRun) : (s.modRun r g).sectorsBad = s.sectorsBad := rfl
@[simp] theorem State.modRun_pcieSlow (r : Nat) (g : ClauseRun → ClauseRun) : (s.modRun r g).pcieSlow = s.pcieSlow := rfl
@[simp] theorem State.modRun_hubLast (r : Nat) (g : ClauseRun → ClauseRun) : (s.modRun r g).hubLast = s.hubLast := rfl
@[simp] theorem State.modRun_retired (r : Nat) (g : ClauseRun → ClauseRun) : (s.modRun r g).retired = s.retired := rfl
@[simp] theorem State.modRun_flashOk (r : Nat) (g : ClauseRun → ClauseRun) : (s.modRun r g).flashOk = s.flashOk := rfl
@[simp] theorem State.modRun_fwstat (r : Nat) (g : ClauseRun → ClauseRun) : (s.modRun r g).fwstat = s.fwstat := rfl
@[simp] theorem State.modRun_fwJob (r : Nat) (g : ClauseRun → ClauseRun) : (s.modRun r g).fwJob = s.fwJob := rfl
@[simp] theorem State.modRun_lastFail (r : Nat) (g : ClauseRun → ClauseRun) : (s.modRun r g).lastFail = s.lastFail := rfl
@[simp] theorem State.modRun_events (r : Nat) (g : ClauseRun → ClauseRun) : (s.modRun r g).events = s.events := rfl
@[simp] theorem State.modRun_heads (r : Nat) (g : ClauseRun → ClauseRun) : (s.modRun r g).heads = s.heads := rfl
@[simp] theorem State.modRun_engTurn (r : Nat) (g : ClauseRun → ClauseRun) : (s.modRun r g).engTurn = s.engTurn := rfl
@[simp] theorem State.modRun_encs (r : Nat) (g : ClauseRun → ClauseRun) : (s.modRun r g).encs = s.encs := rfl
@[simp] theorem State.modRun_cxl (r : Nat) (g : ClauseRun → ClauseRun) : (s.modRun r g).cxl = s.cxl := rfl
@[simp] theorem State.modRun_ports (r : Nat) (g : ClauseRun → ClauseRun) : (s.modRun r g).ports = s.ports := rfl
@[simp] theorem State.modRun_lostPkgs (r : Nat) (g : ClauseRun → ClauseRun) : (s.modRun r g).lostPkgs = s.lostPkgs := rfl
@[simp] theorem State.modRun_sentSeq (r : Nat) (g : ClauseRun → ClauseRun) : (s.modRun r g).sentSeq = s.sentSeq := rfl
@[simp] theorem State.modRun_far (r : Nat) (g : ClauseRun → ClauseRun) : (s.modRun r g).far = s.far := rfl
@[simp] theorem State.modRun_colls (r : Nat) (g : ClauseRun → ClauseRun) : (s.modRun r g).colls = s.colls := rfl
@[simp] theorem State.modRun_received (r : Nat) (g : ClauseRun → ClauseRun) : (s.modRun r g).received = s.received := rfl
@[simp] theorem State.modRun_answers (r : Nat) (g : ClauseRun → ClauseRun) : (s.modRun r g).answers = s.answers := rfl

/-! ### `modCore` -/

@[simp] theorem State.modCore_sched (c : Nat) (g : Core → Core) : (s.modCore c g).sched = s.sched := rfl
@[simp] theorem State.modCore_tick (c : Nat) (g : Core → Core) : (s.modCore c g).tick = s.tick := rfl
@[simp] theorem State.modCore_clock (c : Nat) (g : Core → Core) : (s.modCore c g).clock = s.clock := rfl
@[simp] theorem State.modCore_power (c : Nat) (g : Core → Core) : (s.modCore c g).power = s.power := rfl
@[simp] theorem State.modCore_fresh (c : Nat) (g : Core → Core) : (s.modCore c g).fresh = s.fresh := rfl
@[simp] theorem State.modCore_cur (c : Nat) (g : Core → Core) : (s.modCore c g).cur = s.cur := rfl
@[simp] theorem State.modCore_fibres (c : Nat) (g : Core → Core) : (s.modCore c g).fibres = s.fibres := rfl
@[simp] theorem State.modCore_groups (c : Nat) (g : Core → Core) : (s.modCore c g).groups = s.groups := rfl
@[simp] theorem State.modCore_teams (c : Nat) (g : Core → Core) : (s.modCore c g).teams = s.teams := rfl
@[simp] theorem State.modCore_clusters (c : Nat) (g : Core → Core) : (s.modCore c g).clusters = s.clusters := rfl
@[simp] theorem State.modCore_clutches (c : Nat) (g : Core → Core) : (s.modCore c g).clutches = s.clutches := rfl
@[simp] theorem State.modCore_running (c : Nat) (g : Core → Core) : (s.modCore c g).running = s.running := rfl
@[simp] theorem State.modCore_pend (c : Nat) (g : Core → Core) : (s.modCore c g).pend = s.pend := rfl
@[simp] theorem State.modCore_pods (c : Nat) (g : Core → Core) : (s.modCore c g).pods = s.pods := rfl
@[simp] theorem State.modCore_dtlb (c : Nat) (g : Core → Core) : (s.modCore c g).dtlb = s.dtlb := rfl
@[simp] theorem State.modCore_l2 (c : Nat) (g : Core → Core) : (s.modCore c g).l2 = s.l2 := rfl
@[simp] theorem State.modCore_guests (c : Nat) (g : Core → Core) : (s.modCore c g).guests = s.guests := rfl
@[simp] theorem State.modCore_l2WaysOff (c : Nat) (g : Core → Core) : (s.modCore c g).l2WaysOff = s.l2WaysOff := rfl
@[simp] theorem State.modCore_l2Sets (c : Nat) (g : Core → Core) : (s.modCore c g).l2Sets = s.l2Sets := rfl
@[simp] theorem State.modCore_l2Used (c : Nat) (g : Core → Core) : (s.modCore c g).l2Used = s.l2Used := rfl
@[simp] theorem State.modCore_mem (c : Nat) (g : Core → Core) : (s.modCore c g).mem = s.mem := rfl
@[simp] theorem State.modCore_missed (c : Nat) (g : Core → Core) : (s.modCore c g).missed = s.missed := rfl
@[simp] theorem State.modCore_reps (c : Nat) (g : Core → Core) : (s.modCore c g).reps = s.reps := rfl
@[simp] theorem State.modCore_lost (c : Nat) (g : Core → Core) : (s.modCore c g).lost = s.lost := rfl
@[simp] theorem State.modCore_stacksOff (c : Nat) (g : Core → Core) : (s.modCore c g).stacksOff = s.stacksOff := rfl
@[simp] theorem State.modCore_sectorsOff (c : Nat) (g : Core → Core) : (s.modCore c g).sectorsOff = s.sectorsOff := rfl
@[simp] theorem State.modCore_fillWait (c : Nat) (g : Core → Core) : (s.modCore c g).fillWait = s.fillWait := rfl
@[simp] theorem State.modCore_frames (c : Nat) (g : Core → Core) : (s.modCore c g).frames = s.frames := rfl
@[simp] theorem State.modCore_profiles (c : Nat) (g : Core → Core) : (s.modCore c g).profiles = s.profiles := rfl
@[simp] theorem State.modCore_rds (c : Nat) (g : Core → Core) : (s.modCore c g).rds = s.rds := rfl
@[simp] theorem State.modCore_wrs (c : Nat) (g : Core → Core) : (s.modCore c g).wrs = s.wrs := rfl
@[simp] theorem State.modCore_badPc (c : Nat) (g : Core → Core) : (s.modCore c g).badPc = s.badPc := rfl
@[simp] theorem State.modCore_caTries (c : Nat) (g : Core → Core) : (s.modCore c g).caTries = s.caTries := rfl
@[simp] theorem State.modCore_acts (c : Nat) (g : Core → Core) : (s.modCore c g).acts = s.acts := rfl
@[simp] theorem State.modCore_heldBanks (c : Nat) (g : Core → Core) : (s.modCore c g).heldBanks = s.heldBanks := rfl
@[simp] theorem State.modCore_spares (c : Nat) (g : Core → Core) : (s.modCore c g).spares = s.spares := rfl
@[simp] theorem State.modCore_sib (c : Nat) (g : Core → Core) : (s.modCore c g).sib = s.sib := rfl
@[simp] theorem State.modCore_walks (c : Nat) (g : Core → Core) : (s.modCore c g).walks = s.walks := rfl
@[simp] theorem State.modCore_faults (c : Nat) (g : Core → Core) : (s.modCore c g).faults = s.faults := rfl
@[simp] theorem State.modCore_subs (c : Nat) (g : Core → Core) : (s.modCore c g).subs = s.subs := rfl
@[simp] theorem State.modCore_joins (c : Nat) (g : Core → Core) : (s.modCore c g).joins = s.joins := rfl
@[simp] theorem State.modCore_futs (c : Nat) (g : Core → Core) : (s.modCore c g).futs = s.futs := rfl
@[simp] theorem State.modCore_cmds (c : Nat) (g : Core → Core) : (s.modCore c g).cmds = s.cmds := rfl
@[simp] theorem State.modCore_trees (c : Nat) (g : Core → Core) : (s.modCore c g).trees = s.trees := rfl
@[simp] theorem State.modCore_parts (c : Nat) (g : Core → Core) : (s.modCore c g).parts = s.parts := rfl
@[simp] theorem State.modCore_mode (c : Nat) (g : Core → Core) : (s.modCore c g).mode = s.mode := rfl
@[simp] theorem State.modCore_pkg (c : Nat) (g : Core → Core) : (s.modCore c g).pkg = s.pkg := rfl
@[simp] theorem State.modCore_pkgNext (c : Nat) (g : Core → Core) : (s.modCore c g).pkgNext = s.pkgNext := rfl
@[simp] theorem State.modCore_bootRec (c : Nat) (g : Core → Core) : (s.modCore c g).bootRec = s.bootRec := rfl
@[simp] theorem State.modCore_stackTries (c : Nat) (g : Core → Core) : (s.modCore c g).stackTries = s.stackTries := rfl
@[simp] theorem State.modCore_sectorsBad (c : Nat) (g : Core → Core) : (s.modCore c g).sectorsBad = s.sectorsBad := rfl
@[simp] theorem State.modCore_pcieSlow (c : Nat) (g : Core → Core) : (s.modCore c g).pcieSlow = s.pcieSlow := rfl
@[simp] theorem State.modCore_hubLast (c : Nat) (g : Core → Core) : (s.modCore c g).hubLast = s.hubLast := rfl
@[simp] theorem State.modCore_retired (c : Nat) (g : Core → Core) : (s.modCore c g).retired = s.retired := rfl
@[simp] theorem State.modCore_flashOk (c : Nat) (g : Core → Core) : (s.modCore c g).flashOk = s.flashOk := rfl
@[simp] theorem State.modCore_fwstat (c : Nat) (g : Core → Core) : (s.modCore c g).fwstat = s.fwstat := rfl
@[simp] theorem State.modCore_fwJob (c : Nat) (g : Core → Core) : (s.modCore c g).fwJob = s.fwJob := rfl
@[simp] theorem State.modCore_lastFail (c : Nat) (g : Core → Core) : (s.modCore c g).lastFail = s.lastFail := rfl
@[simp] theorem State.modCore_events (c : Nat) (g : Core → Core) : (s.modCore c g).events = s.events := rfl
@[simp] theorem State.modCore_heads (c : Nat) (g : Core → Core) : (s.modCore c g).heads = s.heads := rfl
@[simp] theorem State.modCore_engTurn (c : Nat) (g : Core → Core) : (s.modCore c g).engTurn = s.engTurn := rfl
@[simp] theorem State.modCore_encs (c : Nat) (g : Core → Core) : (s.modCore c g).encs = s.encs := rfl
@[simp] theorem State.modCore_cxl (c : Nat) (g : Core → Core) : (s.modCore c g).cxl = s.cxl := rfl
@[simp] theorem State.modCore_ports (c : Nat) (g : Core → Core) : (s.modCore c g).ports = s.ports := rfl
@[simp] theorem State.modCore_lostPkgs (c : Nat) (g : Core → Core) : (s.modCore c g).lostPkgs = s.lostPkgs := rfl
@[simp] theorem State.modCore_sentSeq (c : Nat) (g : Core → Core) : (s.modCore c g).sentSeq = s.sentSeq := rfl
@[simp] theorem State.modCore_far (c : Nat) (g : Core → Core) : (s.modCore c g).far = s.far := rfl
@[simp] theorem State.modCore_colls (c : Nat) (g : Core → Core) : (s.modCore c g).colls = s.colls := rfl
@[simp] theorem State.modCore_received (c : Nat) (g : Core → Core) : (s.modCore c g).received = s.received := rfl
@[simp] theorem State.modCore_answers (c : Nat) (g : Core → Core) : (s.modCore c g).answers = s.answers := rfl

/-! ### `modPod` -/

@[simp] theorem State.modPod_sched (p : Nat) (g : Pod → Pod) : (s.modPod p g).sched = s.sched := rfl
@[simp] theorem State.modPod_tick (p : Nat) (g : Pod → Pod) : (s.modPod p g).tick = s.tick := rfl
@[simp] theorem State.modPod_clock (p : Nat) (g : Pod → Pod) : (s.modPod p g).clock = s.clock := rfl
@[simp] theorem State.modPod_power (p : Nat) (g : Pod → Pod) : (s.modPod p g).power = s.power := rfl
@[simp] theorem State.modPod_fresh (p : Nat) (g : Pod → Pod) : (s.modPod p g).fresh = s.fresh := rfl
@[simp] theorem State.modPod_cur (p : Nat) (g : Pod → Pod) : (s.modPod p g).cur = s.cur := rfl
@[simp] theorem State.modPod_fibres (p : Nat) (g : Pod → Pod) : (s.modPod p g).fibres = s.fibres := rfl
@[simp] theorem State.modPod_groups (p : Nat) (g : Pod → Pod) : (s.modPod p g).groups = s.groups := rfl
@[simp] theorem State.modPod_teams (p : Nat) (g : Pod → Pod) : (s.modPod p g).teams = s.teams := rfl
@[simp] theorem State.modPod_clusters (p : Nat) (g : Pod → Pod) : (s.modPod p g).clusters = s.clusters := rfl
@[simp] theorem State.modPod_clutches (p : Nat) (g : Pod → Pod) : (s.modPod p g).clutches = s.clutches := rfl
@[simp] theorem State.modPod_running (p : Nat) (g : Pod → Pod) : (s.modPod p g).running = s.running := rfl
@[simp] theorem State.modPod_pend (p : Nat) (g : Pod → Pod) : (s.modPod p g).pend = s.pend := rfl
@[simp] theorem State.modPod_cores (p : Nat) (g : Pod → Pod) : (s.modPod p g).cores = s.cores := rfl
@[simp] theorem State.modPod_dtlb (p : Nat) (g : Pod → Pod) : (s.modPod p g).dtlb = s.dtlb := rfl
@[simp] theorem State.modPod_l2 (p : Nat) (g : Pod → Pod) : (s.modPod p g).l2 = s.l2 := rfl
@[simp] theorem State.modPod_guests (p : Nat) (g : Pod → Pod) : (s.modPod p g).guests = s.guests := rfl
@[simp] theorem State.modPod_l2WaysOff (p : Nat) (g : Pod → Pod) : (s.modPod p g).l2WaysOff = s.l2WaysOff := rfl
@[simp] theorem State.modPod_l2Sets (p : Nat) (g : Pod → Pod) : (s.modPod p g).l2Sets = s.l2Sets := rfl
@[simp] theorem State.modPod_l2Used (p : Nat) (g : Pod → Pod) : (s.modPod p g).l2Used = s.l2Used := rfl
@[simp] theorem State.modPod_mem (p : Nat) (g : Pod → Pod) : (s.modPod p g).mem = s.mem := rfl
@[simp] theorem State.modPod_missed (p : Nat) (g : Pod → Pod) : (s.modPod p g).missed = s.missed := rfl
@[simp] theorem State.modPod_reps (p : Nat) (g : Pod → Pod) : (s.modPod p g).reps = s.reps := rfl
@[simp] theorem State.modPod_lost (p : Nat) (g : Pod → Pod) : (s.modPod p g).lost = s.lost := rfl
@[simp] theorem State.modPod_stacksOff (p : Nat) (g : Pod → Pod) : (s.modPod p g).stacksOff = s.stacksOff := rfl
@[simp] theorem State.modPod_sectorsOff (p : Nat) (g : Pod → Pod) : (s.modPod p g).sectorsOff = s.sectorsOff := rfl
@[simp] theorem State.modPod_fillWait (p : Nat) (g : Pod → Pod) : (s.modPod p g).fillWait = s.fillWait := rfl
@[simp] theorem State.modPod_frames (p : Nat) (g : Pod → Pod) : (s.modPod p g).frames = s.frames := rfl
@[simp] theorem State.modPod_profiles (p : Nat) (g : Pod → Pod) : (s.modPod p g).profiles = s.profiles := rfl
@[simp] theorem State.modPod_rds (p : Nat) (g : Pod → Pod) : (s.modPod p g).rds = s.rds := rfl
@[simp] theorem State.modPod_wrs (p : Nat) (g : Pod → Pod) : (s.modPod p g).wrs = s.wrs := rfl
@[simp] theorem State.modPod_badPc (p : Nat) (g : Pod → Pod) : (s.modPod p g).badPc = s.badPc := rfl
@[simp] theorem State.modPod_caTries (p : Nat) (g : Pod → Pod) : (s.modPod p g).caTries = s.caTries := rfl
@[simp] theorem State.modPod_acts (p : Nat) (g : Pod → Pod) : (s.modPod p g).acts = s.acts := rfl
@[simp] theorem State.modPod_heldBanks (p : Nat) (g : Pod → Pod) : (s.modPod p g).heldBanks = s.heldBanks := rfl
@[simp] theorem State.modPod_spares (p : Nat) (g : Pod → Pod) : (s.modPod p g).spares = s.spares := rfl
@[simp] theorem State.modPod_sib (p : Nat) (g : Pod → Pod) : (s.modPod p g).sib = s.sib := rfl
@[simp] theorem State.modPod_walks (p : Nat) (g : Pod → Pod) : (s.modPod p g).walks = s.walks := rfl
@[simp] theorem State.modPod_faults (p : Nat) (g : Pod → Pod) : (s.modPod p g).faults = s.faults := rfl
@[simp] theorem State.modPod_subs (p : Nat) (g : Pod → Pod) : (s.modPod p g).subs = s.subs := rfl
@[simp] theorem State.modPod_joins (p : Nat) (g : Pod → Pod) : (s.modPod p g).joins = s.joins := rfl
@[simp] theorem State.modPod_futs (p : Nat) (g : Pod → Pod) : (s.modPod p g).futs = s.futs := rfl
@[simp] theorem State.modPod_cmds (p : Nat) (g : Pod → Pod) : (s.modPod p g).cmds = s.cmds := rfl
@[simp] theorem State.modPod_trees (p : Nat) (g : Pod → Pod) : (s.modPod p g).trees = s.trees := rfl
@[simp] theorem State.modPod_parts (p : Nat) (g : Pod → Pod) : (s.modPod p g).parts = s.parts := rfl
@[simp] theorem State.modPod_mode (p : Nat) (g : Pod → Pod) : (s.modPod p g).mode = s.mode := rfl
@[simp] theorem State.modPod_pkg (p : Nat) (g : Pod → Pod) : (s.modPod p g).pkg = s.pkg := rfl
@[simp] theorem State.modPod_pkgNext (p : Nat) (g : Pod → Pod) : (s.modPod p g).pkgNext = s.pkgNext := rfl
@[simp] theorem State.modPod_bootRec (p : Nat) (g : Pod → Pod) : (s.modPod p g).bootRec = s.bootRec := rfl
@[simp] theorem State.modPod_stackTries (p : Nat) (g : Pod → Pod) : (s.modPod p g).stackTries = s.stackTries := rfl
@[simp] theorem State.modPod_sectorsBad (p : Nat) (g : Pod → Pod) : (s.modPod p g).sectorsBad = s.sectorsBad := rfl
@[simp] theorem State.modPod_pcieSlow (p : Nat) (g : Pod → Pod) : (s.modPod p g).pcieSlow = s.pcieSlow := rfl
@[simp] theorem State.modPod_hubLast (p : Nat) (g : Pod → Pod) : (s.modPod p g).hubLast = s.hubLast := rfl
@[simp] theorem State.modPod_retired (p : Nat) (g : Pod → Pod) : (s.modPod p g).retired = s.retired := rfl
@[simp] theorem State.modPod_flashOk (p : Nat) (g : Pod → Pod) : (s.modPod p g).flashOk = s.flashOk := rfl
@[simp] theorem State.modPod_fwstat (p : Nat) (g : Pod → Pod) : (s.modPod p g).fwstat = s.fwstat := rfl
@[simp] theorem State.modPod_fwJob (p : Nat) (g : Pod → Pod) : (s.modPod p g).fwJob = s.fwJob := rfl
@[simp] theorem State.modPod_lastFail (p : Nat) (g : Pod → Pod) : (s.modPod p g).lastFail = s.lastFail := rfl
@[simp] theorem State.modPod_events (p : Nat) (g : Pod → Pod) : (s.modPod p g).events = s.events := rfl
@[simp] theorem State.modPod_heads (p : Nat) (g : Pod → Pod) : (s.modPod p g).heads = s.heads := rfl
@[simp] theorem State.modPod_engTurn (p : Nat) (g : Pod → Pod) : (s.modPod p g).engTurn = s.engTurn := rfl
@[simp] theorem State.modPod_encs (p : Nat) (g : Pod → Pod) : (s.modPod p g).encs = s.encs := rfl
@[simp] theorem State.modPod_cxl (p : Nat) (g : Pod → Pod) : (s.modPod p g).cxl = s.cxl := rfl
@[simp] theorem State.modPod_ports (p : Nat) (g : Pod → Pod) : (s.modPod p g).ports = s.ports := rfl
@[simp] theorem State.modPod_lostPkgs (p : Nat) (g : Pod → Pod) : (s.modPod p g).lostPkgs = s.lostPkgs := rfl
@[simp] theorem State.modPod_sentSeq (p : Nat) (g : Pod → Pod) : (s.modPod p g).sentSeq = s.sentSeq := rfl
@[simp] theorem State.modPod_far (p : Nat) (g : Pod → Pod) : (s.modPod p g).far = s.far := rfl
@[simp] theorem State.modPod_colls (p : Nat) (g : Pod → Pod) : (s.modPod p g).colls = s.colls := rfl
@[simp] theorem State.modPod_received (p : Nat) (g : Pod → Pod) : (s.modPod p g).received = s.received := rfl
@[simp] theorem State.modPod_answers (p : Nat) (g : Pod → Pod) : (s.modPod p g).answers = s.answers := rfl

/-! ### `modPart` -/

@[simp] theorem State.modPart_sched (p : Nat) (g : Part → Part) : (s.modPart p g).sched = s.sched := rfl
@[simp] theorem State.modPart_tick (p : Nat) (g : Part → Part) : (s.modPart p g).tick = s.tick := rfl
@[simp] theorem State.modPart_clock (p : Nat) (g : Part → Part) : (s.modPart p g).clock = s.clock := rfl
@[simp] theorem State.modPart_power (p : Nat) (g : Part → Part) : (s.modPart p g).power = s.power := rfl
@[simp] theorem State.modPart_fresh (p : Nat) (g : Part → Part) : (s.modPart p g).fresh = s.fresh := rfl
@[simp] theorem State.modPart_cur (p : Nat) (g : Part → Part) : (s.modPart p g).cur = s.cur := rfl
@[simp] theorem State.modPart_fibres (p : Nat) (g : Part → Part) : (s.modPart p g).fibres = s.fibres := rfl
@[simp] theorem State.modPart_groups (p : Nat) (g : Part → Part) : (s.modPart p g).groups = s.groups := rfl
@[simp] theorem State.modPart_teams (p : Nat) (g : Part → Part) : (s.modPart p g).teams = s.teams := rfl
@[simp] theorem State.modPart_clusters (p : Nat) (g : Part → Part) : (s.modPart p g).clusters = s.clusters := rfl
@[simp] theorem State.modPart_clutches (p : Nat) (g : Part → Part) : (s.modPart p g).clutches = s.clutches := rfl
@[simp] theorem State.modPart_running (p : Nat) (g : Part → Part) : (s.modPart p g).running = s.running := rfl
@[simp] theorem State.modPart_pend (p : Nat) (g : Part → Part) : (s.modPart p g).pend = s.pend := rfl
@[simp] theorem State.modPart_cores (p : Nat) (g : Part → Part) : (s.modPart p g).cores = s.cores := rfl
@[simp] theorem State.modPart_pods (p : Nat) (g : Part → Part) : (s.modPart p g).pods = s.pods := rfl
@[simp] theorem State.modPart_dtlb (p : Nat) (g : Part → Part) : (s.modPart p g).dtlb = s.dtlb := rfl
@[simp] theorem State.modPart_l2 (p : Nat) (g : Part → Part) : (s.modPart p g).l2 = s.l2 := rfl
@[simp] theorem State.modPart_guests (p : Nat) (g : Part → Part) : (s.modPart p g).guests = s.guests := rfl
@[simp] theorem State.modPart_l2WaysOff (p : Nat) (g : Part → Part) : (s.modPart p g).l2WaysOff = s.l2WaysOff := rfl
@[simp] theorem State.modPart_l2Sets (p : Nat) (g : Part → Part) : (s.modPart p g).l2Sets = s.l2Sets := rfl
@[simp] theorem State.modPart_l2Used (p : Nat) (g : Part → Part) : (s.modPart p g).l2Used = s.l2Used := rfl
@[simp] theorem State.modPart_mem (p : Nat) (g : Part → Part) : (s.modPart p g).mem = s.mem := rfl
@[simp] theorem State.modPart_missed (p : Nat) (g : Part → Part) : (s.modPart p g).missed = s.missed := rfl
@[simp] theorem State.modPart_reps (p : Nat) (g : Part → Part) : (s.modPart p g).reps = s.reps := rfl
@[simp] theorem State.modPart_lost (p : Nat) (g : Part → Part) : (s.modPart p g).lost = s.lost := rfl
@[simp] theorem State.modPart_stacksOff (p : Nat) (g : Part → Part) : (s.modPart p g).stacksOff = s.stacksOff := rfl
@[simp] theorem State.modPart_sectorsOff (p : Nat) (g : Part → Part) : (s.modPart p g).sectorsOff = s.sectorsOff := rfl
@[simp] theorem State.modPart_fillWait (p : Nat) (g : Part → Part) : (s.modPart p g).fillWait = s.fillWait := rfl
@[simp] theorem State.modPart_frames (p : Nat) (g : Part → Part) : (s.modPart p g).frames = s.frames := rfl
@[simp] theorem State.modPart_profiles (p : Nat) (g : Part → Part) : (s.modPart p g).profiles = s.profiles := rfl
@[simp] theorem State.modPart_rds (p : Nat) (g : Part → Part) : (s.modPart p g).rds = s.rds := rfl
@[simp] theorem State.modPart_wrs (p : Nat) (g : Part → Part) : (s.modPart p g).wrs = s.wrs := rfl
@[simp] theorem State.modPart_badPc (p : Nat) (g : Part → Part) : (s.modPart p g).badPc = s.badPc := rfl
@[simp] theorem State.modPart_caTries (p : Nat) (g : Part → Part) : (s.modPart p g).caTries = s.caTries := rfl
@[simp] theorem State.modPart_acts (p : Nat) (g : Part → Part) : (s.modPart p g).acts = s.acts := rfl
@[simp] theorem State.modPart_heldBanks (p : Nat) (g : Part → Part) : (s.modPart p g).heldBanks = s.heldBanks := rfl
@[simp] theorem State.modPart_spares (p : Nat) (g : Part → Part) : (s.modPart p g).spares = s.spares := rfl
@[simp] theorem State.modPart_sib (p : Nat) (g : Part → Part) : (s.modPart p g).sib = s.sib := rfl
@[simp] theorem State.modPart_walks (p : Nat) (g : Part → Part) : (s.modPart p g).walks = s.walks := rfl
@[simp] theorem State.modPart_faults (p : Nat) (g : Part → Part) : (s.modPart p g).faults = s.faults := rfl
@[simp] theorem State.modPart_subs (p : Nat) (g : Part → Part) : (s.modPart p g).subs = s.subs := rfl
@[simp] theorem State.modPart_joins (p : Nat) (g : Part → Part) : (s.modPart p g).joins = s.joins := rfl
@[simp] theorem State.modPart_futs (p : Nat) (g : Part → Part) : (s.modPart p g).futs = s.futs := rfl
@[simp] theorem State.modPart_cmds (p : Nat) (g : Part → Part) : (s.modPart p g).cmds = s.cmds := rfl
@[simp] theorem State.modPart_trees (p : Nat) (g : Part → Part) : (s.modPart p g).trees = s.trees := rfl
@[simp] theorem State.modPart_mode (p : Nat) (g : Part → Part) : (s.modPart p g).mode = s.mode := rfl
@[simp] theorem State.modPart_pkg (p : Nat) (g : Part → Part) : (s.modPart p g).pkg = s.pkg := rfl
@[simp] theorem State.modPart_pkgNext (p : Nat) (g : Part → Part) : (s.modPart p g).pkgNext = s.pkgNext := rfl
@[simp] theorem State.modPart_bootRec (p : Nat) (g : Part → Part) : (s.modPart p g).bootRec = s.bootRec := rfl
@[simp] theorem State.modPart_stackTries (p : Nat) (g : Part → Part) : (s.modPart p g).stackTries = s.stackTries := rfl
@[simp] theorem State.modPart_sectorsBad (p : Nat) (g : Part → Part) : (s.modPart p g).sectorsBad = s.sectorsBad := rfl
@[simp] theorem State.modPart_pcieSlow (p : Nat) (g : Part → Part) : (s.modPart p g).pcieSlow = s.pcieSlow := rfl
@[simp] theorem State.modPart_hubLast (p : Nat) (g : Part → Part) : (s.modPart p g).hubLast = s.hubLast := rfl
@[simp] theorem State.modPart_retired (p : Nat) (g : Part → Part) : (s.modPart p g).retired = s.retired := rfl
@[simp] theorem State.modPart_flashOk (p : Nat) (g : Part → Part) : (s.modPart p g).flashOk = s.flashOk := rfl
@[simp] theorem State.modPart_fwstat (p : Nat) (g : Part → Part) : (s.modPart p g).fwstat = s.fwstat := rfl
@[simp] theorem State.modPart_fwJob (p : Nat) (g : Part → Part) : (s.modPart p g).fwJob = s.fwJob := rfl
@[simp] theorem State.modPart_lastFail (p : Nat) (g : Part → Part) : (s.modPart p g).lastFail = s.lastFail := rfl
@[simp] theorem State.modPart_events (p : Nat) (g : Part → Part) : (s.modPart p g).events = s.events := rfl
@[simp] theorem State.modPart_heads (p : Nat) (g : Part → Part) : (s.modPart p g).heads = s.heads := rfl
@[simp] theorem State.modPart_engTurn (p : Nat) (g : Part → Part) : (s.modPart p g).engTurn = s.engTurn := rfl
@[simp] theorem State.modPart_encs (p : Nat) (g : Part → Part) : (s.modPart p g).encs = s.encs := rfl
@[simp] theorem State.modPart_cxl (p : Nat) (g : Part → Part) : (s.modPart p g).cxl = s.cxl := rfl
@[simp] theorem State.modPart_ports (p : Nat) (g : Part → Part) : (s.modPart p g).ports = s.ports := rfl
@[simp] theorem State.modPart_lostPkgs (p : Nat) (g : Part → Part) : (s.modPart p g).lostPkgs = s.lostPkgs := rfl
@[simp] theorem State.modPart_sentSeq (p : Nat) (g : Part → Part) : (s.modPart p g).sentSeq = s.sentSeq := rfl
@[simp] theorem State.modPart_far (p : Nat) (g : Part → Part) : (s.modPart p g).far = s.far := rfl
@[simp] theorem State.modPart_colls (p : Nat) (g : Part → Part) : (s.modPart p g).colls = s.colls := rfl
@[simp] theorem State.modPart_received (p : Nat) (g : Part → Part) : (s.modPart p g).received = s.received := rfl
@[simp] theorem State.modPart_answers (p : Nat) (g : Part → Part) : (s.modPart p g).answers = s.answers := rfl

/-! ### `newId` -/

@[simp] theorem State.newId_fst : s.newId.1 = s.fresh := rfl
@[simp] theorem State.newId_sched : s.newId.2.sched = s.sched := rfl
@[simp] theorem State.newId_tick : s.newId.2.tick = s.tick := rfl
@[simp] theorem State.newId_clock : s.newId.2.clock = s.clock := rfl
@[simp] theorem State.newId_power : s.newId.2.power = s.power := rfl
@[simp] theorem State.newId_fresh : s.newId.2.fresh = s.fresh + 1 := rfl
@[simp] theorem State.newId_cur : s.newId.2.cur = s.cur := rfl
@[simp] theorem State.newId_fibres : s.newId.2.fibres = s.fibres := rfl
@[simp] theorem State.newId_groups : s.newId.2.groups = s.groups := rfl
@[simp] theorem State.newId_teams : s.newId.2.teams = s.teams := rfl
@[simp] theorem State.newId_clusters : s.newId.2.clusters = s.clusters := rfl
@[simp] theorem State.newId_clutches : s.newId.2.clutches = s.clutches := rfl
@[simp] theorem State.newId_running : s.newId.2.running = s.running := rfl
@[simp] theorem State.newId_pend : s.newId.2.pend = s.pend := rfl
@[simp] theorem State.newId_cores : s.newId.2.cores = s.cores := rfl
@[simp] theorem State.newId_pods : s.newId.2.pods = s.pods := rfl
@[simp] theorem State.newId_dtlb : s.newId.2.dtlb = s.dtlb := rfl
@[simp] theorem State.newId_l2 : s.newId.2.l2 = s.l2 := rfl
@[simp] theorem State.newId_guests : s.newId.2.guests = s.guests := rfl
@[simp] theorem State.newId_l2WaysOff : s.newId.2.l2WaysOff = s.l2WaysOff := rfl
@[simp] theorem State.newId_l2Sets : s.newId.2.l2Sets = s.l2Sets := rfl
@[simp] theorem State.newId_l2Used : s.newId.2.l2Used = s.l2Used := rfl
@[simp] theorem State.newId_mem : s.newId.2.mem = s.mem := rfl
@[simp] theorem State.newId_missed : s.newId.2.missed = s.missed := rfl
@[simp] theorem State.newId_reps : s.newId.2.reps = s.reps := rfl
@[simp] theorem State.newId_lost : s.newId.2.lost = s.lost := rfl
@[simp] theorem State.newId_stacksOff : s.newId.2.stacksOff = s.stacksOff := rfl
@[simp] theorem State.newId_sectorsOff : s.newId.2.sectorsOff = s.sectorsOff := rfl
@[simp] theorem State.newId_fillWait : s.newId.2.fillWait = s.fillWait := rfl
@[simp] theorem State.newId_frames : s.newId.2.frames = s.frames := rfl
@[simp] theorem State.newId_profiles : s.newId.2.profiles = s.profiles := rfl
@[simp] theorem State.newId_rds : s.newId.2.rds = s.rds := rfl
@[simp] theorem State.newId_wrs : s.newId.2.wrs = s.wrs := rfl
@[simp] theorem State.newId_badPc : s.newId.2.badPc = s.badPc := rfl
@[simp] theorem State.newId_caTries : s.newId.2.caTries = s.caTries := rfl
@[simp] theorem State.newId_acts : s.newId.2.acts = s.acts := rfl
@[simp] theorem State.newId_heldBanks : s.newId.2.heldBanks = s.heldBanks := rfl
@[simp] theorem State.newId_spares : s.newId.2.spares = s.spares := rfl
@[simp] theorem State.newId_sib : s.newId.2.sib = s.sib := rfl
@[simp] theorem State.newId_walks : s.newId.2.walks = s.walks := rfl
@[simp] theorem State.newId_faults : s.newId.2.faults = s.faults := rfl
@[simp] theorem State.newId_subs : s.newId.2.subs = s.subs := rfl
@[simp] theorem State.newId_joins : s.newId.2.joins = s.joins := rfl
@[simp] theorem State.newId_futs : s.newId.2.futs = s.futs := rfl
@[simp] theorem State.newId_cmds : s.newId.2.cmds = s.cmds := rfl
@[simp] theorem State.newId_trees : s.newId.2.trees = s.trees := rfl
@[simp] theorem State.newId_parts : s.newId.2.parts = s.parts := rfl
@[simp] theorem State.newId_mode : s.newId.2.mode = s.mode := rfl
@[simp] theorem State.newId_pkg : s.newId.2.pkg = s.pkg := rfl
@[simp] theorem State.newId_pkgNext : s.newId.2.pkgNext = s.pkgNext := rfl
@[simp] theorem State.newId_bootRec : s.newId.2.bootRec = s.bootRec := rfl
@[simp] theorem State.newId_stackTries : s.newId.2.stackTries = s.stackTries := rfl
@[simp] theorem State.newId_sectorsBad : s.newId.2.sectorsBad = s.sectorsBad := rfl
@[simp] theorem State.newId_pcieSlow : s.newId.2.pcieSlow = s.pcieSlow := rfl
@[simp] theorem State.newId_hubLast : s.newId.2.hubLast = s.hubLast := rfl
@[simp] theorem State.newId_retired : s.newId.2.retired = s.retired := rfl
@[simp] theorem State.newId_flashOk : s.newId.2.flashOk = s.flashOk := rfl
@[simp] theorem State.newId_fwstat : s.newId.2.fwstat = s.fwstat := rfl
@[simp] theorem State.newId_fwJob : s.newId.2.fwJob = s.fwJob := rfl
@[simp] theorem State.newId_lastFail : s.newId.2.lastFail = s.lastFail := rfl
@[simp] theorem State.newId_events : s.newId.2.events = s.events := rfl
@[simp] theorem State.newId_heads : s.newId.2.heads = s.heads := rfl
@[simp] theorem State.newId_engTurn : s.newId.2.engTurn = s.engTurn := rfl
@[simp] theorem State.newId_encs : s.newId.2.encs = s.encs := rfl
@[simp] theorem State.newId_cxl : s.newId.2.cxl = s.cxl := rfl
@[simp] theorem State.newId_ports : s.newId.2.ports = s.ports := rfl
@[simp] theorem State.newId_lostPkgs : s.newId.2.lostPkgs = s.lostPkgs := rfl
@[simp] theorem State.newId_sentSeq : s.newId.2.sentSeq = s.sentSeq := rfl
@[simp] theorem State.newId_far : s.newId.2.far = s.far := rfl
@[simp] theorem State.newId_colls : s.newId.2.colls = s.colls := rfl
@[simp] theorem State.newId_received : s.newId.2.received = s.received := rfl
@[simp] theorem State.newId_answers : s.newId.2.answers = s.answers := rfl

/-! ### What an update finds again -/

theorem State.fib?_modFib (f : FibId) (g : Fibre → Fibre) (hg : ∀ b, (g b).fid = b.fid) (h : FibId) :
    (s.modFib f g).fib? h = (s.fib? h).map fun b => if b.fid == f then g b else b := by
  simp only [State.fib?, State.modFib, List.find?_map]
  congr 2
  funext b
  simp only [Function.comp_apply]
  split <;> simp [hg]

theorem State.team?_modTeam (t : Nat) (g : Team → Team) (hg : ∀ x, (g x).id = x.id) (u : Nat) :
    (s.modTeam t g).team? u = (s.team? u).map fun x => if x.id == t then g x else x := by
  simp only [State.team?, State.modTeam, List.find?_map]
  congr 2
  funext x
  simp only [Function.comp_apply]
  split <;> simp [hg]

theorem State.clutch?_modClutch (c : Nat) (g : Clutch → Clutch) (hg : ∀ x, (g x).id = x.id) (u : Nat) :
    (s.modClutch c g).clutch? u = (s.clutch? u).map fun x => if x.id == c then g x else x := by
  simp only [State.clutch?, State.modClutch, List.find?_map]
  congr 2
  funext x
  simp only [Function.comp_apply]
  split <;> simp [hg]

theorem State.cluster?_modCluster (c : Nat) (g : Cluster → Cluster) (hg : ∀ x, (g x).id = x.id) (u : Nat) :
    (s.modCluster c g).cluster? u = (s.cluster? u).map fun x => if x.id == c then g x else x := by
  simp only [State.cluster?, State.modCluster, List.find?_map]
  congr 2
  funext x
  simp only [Function.comp_apply]
  split <;> simp [hg]

end Sys2Proof.Machine
end

