-- ==== Sys2Proof/Laws/Word.lean ====
section
/-! SUPPORT. What a word does over its batch, said once: `applyAll_effects`, and from it `word_effects` for the
words that act on each guard-true fibre on its own and `tileWord_effects` for the tile-collective ones. -/

namespace Sys2Proof.Machine

open Sys2Proof

/-! ## Finding after a change -/

theorem list_find_map {α : Type} (p : α → Bool) (h : α → α) (hp : ∀ b, p (h b) = p b) (l : List α) :
    (l.map h).find? p = (l.find? p).map h := by
  induction l with
  | nil => rfl
  | cons b l ih => simp only [List.map_cons, List.find?_cons, hp, ih]; cases p b <;> rfl

theorem fib?_fid {s : State} {f : FibId} {b : Fibre} (h : s.fib? f = some b) : b.fid = f := by
  have := List.find?_some h; simpa using this

/-- A change of one fibre, seen by every reader. -/
theorem modFib_fib? (s : State) (f f' : FibId) (g : Fibre → Fibre) (hg : ∀ b, (g b).fid = b.fid) :
    (s.modFib f g).fib? f' = if f' = f then (s.fib? f').map g else s.fib? f' := by
  unfold State.modFib State.fib?
  dsimp only
  rw [list_find_map]
  · cases h : s.fibres.find? (fun b => b.fid == f') with
    | none => simp
    | some b =>
      have hb := List.find?_some h
      simp only [beq_iff_eq] at hb
      simp only [Option.map_some, hb, beq_iff_eq]
      split <;> rfl
  · intro b; split <;> simp [hg]

/-- A change of one group, seen by every reader. -/
theorem modGrp_grp? (s : State) (a b a' b' : Nat) (g : Group → Group)
    (hg : ∀ x, (g x).team = x.team ∧ (g x).grp = x.grp) :
    (s.modGrp a b g).grp? a' b' = if a' = a ∧ b' = b then (s.grp? a' b').map g else s.grp? a' b' := by
  unfold State.modGrp State.grp?
  dsimp only
  rw [list_find_map]
  · cases h : s.groups.find? (fun x => x.team == a' && x.grp == b') with
    | none => simp
    | some x =>
      have hx := List.find?_some h
      simp only [Bool.and_eq_true, beq_iff_eq] at hx
      simp only [Option.map_some, hx.1, hx.2, Bool.and_eq_true, beq_iff_eq]
      split <;> rfl
  · intro x; split <;> simp [hg]

/-! ## The batch -/

/-- How a view comes about. -/
theorem view?_some {s : State} {r : ClauseRun} {f : FibId} {v : View} (h : s.view? r f = some v) :
    v.run = r ∧ v.fib.fid = f ∧ s.fib? f = some v.fib ∧ s.grp? f.team f.grp = some v.grp := by
  unfold State.view? at h
  split at h
  · next b g t hb hg ht =>
    split at h
    · cases h
    · cases h; exact ⟨rfl, fib?_fid hb, hb, hg⟩
  · cases h

theorem mem_views {s : State} {v : View} (h : v ∈ s.views) :
    ∃ r, s.run? s.cur = some r ∧ ∃ f ∈ r.fibs, s.view? r f = some v := by
  unfold State.views at h
  split at h
  · next r hr =>
    rw [List.mem_filterMap] at h
    obtain ⟨f, hf, hv⟩ := h
    exact ⟨r, hr, f, hf, hv⟩
  · cases h

/-- A view holds the fibre as the state has it. -/
theorem views_fib {s : State} {v : View} (h : v ∈ s.views) : s.fib? v.fib.fid = some v.fib := by
  obtain ⟨r, _, f, _, hv⟩ := mem_views h
  obtain ⟨_, h2, h3, _⟩ := view?_some hv
  rw [h2]; exact h3

/-- A view holds the fibre's group as the state has it. -/
theorem views_grp {s : State} {v : View} (h : v ∈ s.views) :
    s.grp? v.fib.fid.team v.fib.fid.grp = some v.grp := by
  obtain ⟨r, _, f, _, hv⟩ := mem_views h
  obtain ⟨_, h2, _, h4⟩ := view?_some hv
  rw [h2]; exact h4

/-- Every view of a batch shows the same clause. -/
theorem views_run {s : State} {u v : View} (hu : u ∈ s.views) (hv : v ∈ s.views) : u.run = v.run := by
  obtain ⟨r, hr, f, _, h⟩ := mem_views hu
  obtain ⟨r', hr', f', _, h'⟩ := mem_views hv
  rw [hr] at hr'; cases hr'
  rw [(view?_some h).1, (view?_some h').1]

/-- A fibre is seen one way only. -/
theorem views_unique {s : State} {u v : View} (hu : u ∈ s.views) (hv : v ∈ s.views)
    (h : u.fib.fid = v.fib.fid) : u = v := by
  obtain ⟨r, hr, f, _, hf⟩ := mem_views hu
  obtain ⟨r', hr', f', _, hf'⟩ := mem_views hv
  rw [hr] at hr'; cases hr'
  have e : f = f' := by rw [← (view?_some hf).2.1, ← (view?_some hf').2.1, h]
  subst e
  rw [hf] at hf'; exact Option.some.inj hf'

/-! ## One fibre's effect -/

variable {now : Nat}

/-- A fibre's own register written at a cycle. -/
def Fibre.writeOwn (now : Nat) (b : Fibre) (w : Opnd × RegCell) : Fibre :=
  match w.1 with
  | .x n => { b with x := b.x.set n.val w.2, unproven := addUnproven b.unproven (.x n) now }
  | .t n => { b with t := b.t.set n.val w.2, unproven := addUnproven b.unproven (.t n) now }
  | _ => b

/-- What a word's effect makes of the fibre itself. -/
def WordRes.upd (now : Nat) (v : View) : WordRes → Fibre → Fibre
  | .trap code detail addr, b => b.noteTrap ⟨code, v.run.pos + 1, detail, addr, v.run.hdr, v.run.next, false, none⟩
  | .eff regs ps fl, b =>
    let f := ps.foldl (fun f p => f.setPred p.1 p.2) (regs.foldl (Fibre.writeOwn now) b)
    { f with fflags := f.fflags ||| fl }

/-- What a register write makes of the fibre's group. -/
def View.writeGrp (v : View) (now : Nat) (x : Group) (w : Opnd × RegCell) : Group :=
  match w.1 with
  | .s n => { x.writeS v.key v.fib.fid.lane n.val w.2 with unproven := addUnproven x.unproven n.val now }
  | _ => x

/-- What a word's effect makes of the fibre's group. -/
def WordRes.updGrp (now : Nat) (v : View) : WordRes → Group → Group
  | .trap _ _ _, x => x
  | .eff regs _ _, x => regs.foldl (v.writeGrp now) x

@[simp] theorem writeOwn_fid (b : Fibre) (w : Opnd × RegCell) : (b.writeOwn now w).fid = b.fid := by
  unfold Fibre.writeOwn; split <;> rfl
@[simp] theorem setPred_fid (b : Fibre) (p : Fin 8) (x : Bool) : (b.setPred p x).fid = b.fid := by
  unfold Fibre.setPred; split <;> rfl
@[simp] theorem noteTrap_fid (b : Fibre) (t : TrapRec) : (b.noteTrap t).fid = b.fid := by
  unfold Fibre.noteTrap; split
  · rfl
  · split <;> rfl
theorem foldl_writeOwn_fid (regs : List (Opnd × RegCell)) : ∀ b : Fibre, (regs.foldl (Fibre.writeOwn now) b).fid = b.fid := by
  induction regs with
  | nil => intro b; rfl
  | cons w regs ih => intro b; simp [ih]
theorem foldl_setPred_fid (ps : List (Fin 8 × Bool)) :
    ∀ b : Fibre, (ps.foldl (fun f p => f.setPred p.1 p.2) b).fid = b.fid := by
  induction ps with
  | nil => intro b; rfl
  | cons w ps ih => intro b; simp [ih]
@[simp] theorem upd_fid (v : View) (r : WordRes) (b : Fibre) : (r.upd now v b).fid = b.fid := by
  cases r <;> simp [WordRes.upd, foldl_setPred_fid, foldl_writeOwn_fid]
theorem writeS_keys (x : Group) (k : WriteKey) (l n : Nat) (c : RegCell) :
    (x.writeS k l n c).team = x.team ∧ (x.writeS k l n c).grp = x.grp := by
  unfold Group.writeS; dsimp only; split
  · exact ⟨rfl, rfl⟩
  · split <;> exact ⟨rfl, rfl⟩
theorem writeGrp_keys (v : View) (x : Group) (w : Opnd × RegCell) :
    (v.writeGrp now x w).team = x.team ∧ (v.writeGrp now x w).grp = x.grp := by
  unfold View.writeGrp; split
  · exact writeS_keys _ _ _ _ _
  · exact ⟨rfl, rfl⟩
theorem updGrp_keys (v : View) (r : WordRes) (x : Group) :
    (r.updGrp now v x).team = x.team ∧ (r.updGrp now v x).grp = x.grp := by
  cases r with
  | trap => exact ⟨rfl, rfl⟩
  | eff regs ps fl =>
    simp only [WordRes.updGrp]
    induction regs generalizing x with
    | nil => exact ⟨rfl, rfl⟩
    | cons w regs ih =>
      rw [List.foldl_cons]
      have := writeGrp_keys (now := now) v x w
      rw [← this.1, ← this.2]; exact ih _

/-! ## Readers of the state after one fibre's effect -/

theorem writeRegs_clock (v : View) (regs : List (Opnd × RegCell)) : ∀ s : State, (s.writeRegs v regs).clock = s.clock := by
  induction regs with
  | nil => intro s; rfl
  | cons w regs ih => intro s; obtain ⟨o, c⟩ := w; rw [State.writeRegs, ih]; cases o <;> rfl

theorem writeReg_clock (v : View) (s : State) (o : Opnd) (c : RegCell) : (s.writeReg v.fib.fid v.key o c).clock = s.clock := by
  cases o <;> rfl

theorem writeRegs_fib? (v : View) (regs : List (Opnd × RegCell)) : ∀ (s : State) (f : FibId),
    (s.writeRegs v regs).fib? f
      = if f = v.fib.fid then (s.fib? f).map (regs.foldl (Fibre.writeOwn s.clock)) else s.fib? f := by
  induction regs with
  | nil => intro s f; simp [State.writeRegs]
  | cons w regs ih =>
    intro s f
    obtain ⟨o, c⟩ := w
    rw [State.writeRegs, ih, writeReg_clock]
    cases o with
    | x n =>
      have hm := modFib_fib? s v.fib.fid f
        (fun b => { b with x := b.x.set n.val c, unproven := addUnproven b.unproven (.x n) s.clock }) (fun _ => rfl)
      simp only [State.writeReg]; rw [hm]
      by_cases h : f = v.fib.fid
      · simp only [h, if_true, Option.map_map]; rfl
      · simp [h]
    | t n =>
      have hm := modFib_fib? s v.fib.fid f
        (fun b => { b with t := b.t.set n.val c, unproven := addUnproven b.unproven (.t n) s.clock }) (fun _ => rfl)
      simp only [State.writeReg]; rw [hm]
      by_cases h : f = v.fib.fid
      · simp only [h, if_true, Option.map_map]; rfl
      · simp [h]
    | s n => rfl
    | k n => rfl

theorem apply_clock (s : State) (v : View) (r : WordRes) : (s.apply v r).clock = s.clock := by
  cases r with
  | trap c d a => rfl
  | eff regs ps fl => exact writeRegs_clock v regs s

theorem apply_fib? (s : State) (v : View) (r : WordRes) (f : FibId) :
    (s.apply v r).fib? f = if f = v.fib.fid then (s.fib? f).map (r.upd s.clock v) else s.fib? f := by
  cases r with
  | trap c d a =>
    simp only [State.apply, State.raise]
    rw [modFib_fib? _ _ _ _ (by intro b; simp)]; rfl
  | eff regs ps fl =>
    simp only [State.apply]
    show ((State.modFib _ _ _).fib? f) = _
    rw [modFib_fib? _ _ _ _ (by intro b; simp [foldl_setPred_fid]), writeRegs_fib?]
    by_cases h : f = v.fib.fid
    · simp only [h, if_true, Option.map_map]; rfl
    · simp [h]

theorem writeRegs_grp? (v : View) (regs : List (Opnd × RegCell)) : ∀ (s : State) (a b : Nat),
    (s.writeRegs v regs).grp? a b
      = if a = v.fib.fid.team ∧ b = v.fib.fid.grp then (s.grp? a b).map (regs.foldl (v.writeGrp s.clock)) else s.grp? a b := by
  induction regs with
  | nil => intro s a b; simp [State.writeRegs]
  | cons w regs ih =>
    intro s a b
    obtain ⟨o, c⟩ := w
    rw [State.writeRegs, ih, writeReg_clock]
    cases o with
    | s n =>
      have hm := modGrp_grp? s v.fib.fid.team v.fib.fid.grp a b
        (fun g => { g.writeS v.key v.fib.fid.lane n.val c with unproven := addUnproven g.unproven n.val s.clock })
        (fun x => writeS_keys x _ _ _ _)
      simp only [State.writeReg]; rw [hm]
      by_cases h : a = v.fib.fid.team ∧ b = v.fib.fid.grp
      · simp only [h, and_self, if_true, Option.map_map]; rfl
      · simp [h]
    | x n => rfl
    | t n => rfl
    | k n => rfl

theorem apply_grp? (s : State) (v : View) (r : WordRes) (a b : Nat) :
    (s.apply v r).grp? a b
      = if a = v.fib.fid.team ∧ b = v.fib.fid.grp then (s.grp? a b).map (r.updGrp s.clock v) else s.grp? a b := by
  cases r with
  | trap c d e =>
    show s.grp? a b = if _ then (s.grp? a b).map (fun x => x) else s.grp? a b
    split
    · cases s.grp? a b <;> rfl
    · rfl
  | eff regs ps fl =>
    simp only [State.apply]
    exact writeRegs_grp? v regs s a b

theorem writeRegs_bare (v : View) (regs : List (Opnd × RegCell)) : ∀ s : State,
    (s.writeRegs v regs).bare = s.bare := by
  induction regs with
  | nil => intro s; rfl
  | cons w regs ih => intro s; obtain ⟨o, c⟩ := w; rw [State.writeRegs, ih]; cases o <;> rfl

theorem markTook_bare (s : State) (v : View) : (s.markTook v).bare = s.bare := by
  unfold State.markTook State.modRun State.bare
  simp only [List.map_map]
  congr 1
  apply List.map_congr_left
  intro r _
  simp only [Function.comp]
  split <;> rfl

theorem apply_bare (s : State) (v : View) (r : WordRes) : (s.apply v r).bare = s.bare := by
  cases r with
  | trap c d e => rfl
  | eff regs ps fl =>
    simp only [State.apply]
    rw [markTook_bare]
    exact writeRegs_bare v regs s

/-! ## All the effects of a word -/

/-- Effects applied in order. -/
def State.applyAll (s : State) (l : List (View × WordRes)) : State := l.foldl (fun acc vr => acc.apply vr.1 vr.2) s

theorem applyAll_bare (l : List (View × WordRes)) : ∀ s : State, (s.applyAll l).bare = s.bare := by
  induction l with
  | nil => intro s; rfl
  | cons p l ih => intro s; show (State.applyAll _ l).bare = _; rw [ih, apply_bare]

theorem applyAll_fib? (l : List (View × WordRes)) : ∀ (s : State) (f : FibId),
    (s.applyAll l).fib? f
      = (s.fib? f).map fun b => (l.filter fun p => p.1.fib.fid == f).foldl (fun b p => p.2.upd s.clock p.1 b) b := by
  induction l with
  | nil => intro s f; simp [State.applyAll]
  | cons p l ih =>
    intro s f
    show (State.applyAll _ l).fib? f = _
    rw [ih, apply_clock, apply_fib?]
    by_cases h : f = p.1.fib.fid
    · subst h; simp only [if_true, Option.map_map, List.filter_cons, beq_self_eq_true, List.foldl_cons]; rfl
    · rw [if_neg h]
      have h2 : (p.1.fib.fid == f) = false := by simpa using Ne.symm h
      simp only [List.filter_cons, h2, Bool.false_eq_true, if_false]

theorem applyAll_grp? (l : List (View × WordRes)) : ∀ (s : State) (a b : Nat),
    (s.applyAll l).grp? a b
      = (s.grp? a b).map fun x => (l.filter fun p => decide (a = p.1.fib.fid.team ∧ b = p.1.fib.fid.grp)).foldl
          (fun x p => p.2.updGrp s.clock p.1 x) x := by
  induction l with
  | nil => intro s a b; simp [State.applyAll]
  | cons p l ih =>
    intro s a b
    show (State.applyAll _ l).grp? a b = _
    rw [ih, apply_clock, apply_grp?]
    by_cases h : a = p.1.fib.fid.team ∧ b = p.1.fib.fid.grp
    · simp only [h, and_self, if_true, Option.map_map, List.filter_cons, decide_true, List.foldl_cons]; rfl
    · simp [h]

/-! ## The same effect twice is the effect -/

theorem fold_replicate {α : Type} (u : α → α) (hu : ∀ b, u (u b) = u b) :
    ∀ (n : Nat) (b : α), (List.replicate (n + 1) ()).foldl (fun b _ => u b) b = u b := by
  intro n
  induction n with
  | zero => intro b; rfl
  | succ n ih =>
    intro b
    rw [List.replicate_succ, List.foldl_cons, ih, hu]

theorem fold_same {α β : Type} (u : β → α → α) (p : β) (hu : ∀ b, u p (u p b) = u p b) :
    ∀ (l : List β) (b : α), (∀ q ∈ l, q = p) → l ≠ [] → l.foldl (fun b q => u q b) b = u p b := by
  intro l
  induction l with
  | nil => intro b _ h; exact absurd rfl h
  | cons q l ih =>
    intro b h _
    have hq : q = p := h q List.mem_cons_self
    subst hq
    rw [List.foldl_cons]
    by_cases hl : l = []
    · subst hl; rfl
    · rw [ih _ (fun q' hq' => h q' (List.mem_cons_of_mem _ hq')) hl, hu]

/-- A fibre's own register, read. -/
def Fibre.readOwn (b : Fibre) : Opnd → RegCell
  | .x n => NMap.get b.x n.val
  | .t n => NMap.get b.t n.val
  | _ => default

theorem readOwn_writeOwn (b : Fibre) (w : Opnd × RegCell) (o : Opnd) (ho : Opnd.own o = true) :
    (b.writeOwn now w).readOwn o = if w.1 = o then w.2 else b.readOwn o := by
  obtain ⟨p, c⟩ := w
  cases o <;> cases p <;> simp_all [Fibre.writeOwn, Fibre.readOwn, Opnd.own, NMap.get_set, Fin.ext_iff, eq_comm]

theorem readOwn_writes (regs : List (Opnd × RegCell)) (o : Opnd) (ho : Opnd.own o = true) : ∀ b : Fibre,
    (regs.foldl (Fibre.writeOwn now) b).readOwn o = (lastWrite regs o).getD (b.readOwn o) := by
  induction regs with
  | nil => intro b; rfl
  | cons w regs ih =>
    intro b
    rw [List.foldl_cons, ih, readOwn_writeOwn _ _ _ ho]
    unfold lastWrite
    rw [List.reverse_cons, List.find?_append]
    cases h : regs.reverse.find? (fun r => r.1 == o) with
    | some r => rfl
    | none =>
      by_cases h2 : w.1 = o
      · simp [h2]
      · simp [h2]

theorem readOwn_setPred (b : Fibre) (p : Fin 8) (x : Bool) (o : Opnd) : (b.setPred p x).readOwn o = b.readOwn o := by
  unfold Fibre.setPred; split <;> rfl

theorem readOwn_preds (ps : List (Fin 8 × Bool)) (o : Opnd) : ∀ b : Fibre,
    (ps.foldl (fun f p => f.setPred p.1 p.2) b).readOwn o = b.readOwn o := by
  induction ps with
  | nil => intro b; rfl
  | cons p ps ih => intro b; rw [List.foldl_cons, ih, readOwn_setPred]

theorem readOwn_upd (v : View) (regs : List (Opnd × RegCell)) (ps : List (Fin 8 × Bool)) (fl : BitVec 5) (o : Opnd)
    (ho : Opnd.own o = true) (b : Fibre) :
    ((WordRes.eff regs ps fl).upd now v b).readOwn o = (lastWrite regs o).getD (b.readOwn o) := by
  show (ps.foldl (fun f p => f.setPred p.1 p.2) (regs.foldl (Fibre.writeOwn now) b)).readOwn o = _
  rw [readOwn_preds, readOwn_writes _ _ ho]

/-- Predicates after a list of writes. -/
def setPreds (ps : List (Fin 8 × Bool)) (x : BitVec 8) : BitVec 8 :=
  ps.foldl (fun x p => if p.1.val == 7 then x
    else if p.2 then x ||| ((1 : Byte) <<< p.1.val) else x &&& ~~~((1 : Byte) <<< p.1.val)) x

theorem foldl_setPred (ps : List (Fin 8 × Bool)) : ∀ b : Fibre,
    ps.foldl (fun f p => f.setPred p.1 p.2) b = { b with preds := setPreds ps b.preds } := by
  induction ps with
  | nil => intro b; rfl
  | cons p ps ih =>
    intro b
    rw [List.foldl_cons, ih]
    unfold Fibre.setPred setPreds
    rw [List.foldl_cons]
    split <;> rfl

theorem setPreds_bit (ps : List (Fin 8 × Bool)) (i : Fin 8) : ∀ x : BitVec 8,
    (setPreds ps x).getLsbD i.val
      = ((ps.reverse.find? fun p => p.1 == i && p.1.val != 7).map (·.2)).getD (x.getLsbD i.val) := by
  induction ps with
  | nil => intro x; rfl
  | cons p ps ih =>
    intro x
    unfold setPreds
    rw [List.foldl_cons]
    show (setPreds ps _).getLsbD _ = _
    rw [ih, List.reverse_cons, List.find?_append]
    cases h : ps.reverse.find? (fun p => p.1 == i && p.1.val != 7) with
    | some q => rfl
    | none =>
      obtain ⟨q, c⟩ := p
      have hone : ∀ (q i : Fin 8), ((1 : Byte) <<< q.val).getLsbD i.val = decide (q = i) := by decide
      have hi : decide (i.val < 8) = true := by simp
      have ha := BitVec.getLsbD_and (x := x) (y := ~~~((1 : Byte) <<< q.val)) (i := i.val)
      have hor := BitVec.getLsbD_or (x := x) (y := (1 : Byte) <<< q.val) (i := i.val)
      rw [BitVec.getLsbD_not, hone] at ha
      rw [hone] at hor
      by_cases h7 : q.val = 7
      · simp [h7]
      · by_cases hq : q = i
        · subst hq
          have h7' : (q.val == 7) = false := by simpa using h7
          cases c
          · simp only [h7', Bool.false_eq_true, if_false, ha]; simp [h7]
          · simp only [h7', Bool.false_eq_true, if_false, if_true, hor]; simp [h7]
        · have h7' : (q.val == 7) = false := by simpa using h7
          cases c
          · simp only [h7', Bool.false_eq_true, if_false, ha]; simp [hq]
          · simp only [h7', Bool.false_eq_true, if_false, if_true, hor]; simp [hq]

theorem setPreds_idem (ps : List (Fin 8 × Bool)) (x : BitVec 8) : setPreds ps (setPreds ps x) = setPreds ps x := by
  apply BitVec.eq_of_getLsbD_eq
  intro i hi
  have h1 := setPreds_bit ps ⟨i, hi⟩ (setPreds ps x)
  have h2 := setPreds_bit ps ⟨i, hi⟩ x
  simp only at h1 h2
  rw [h1, h2]
  cases ps.reverse.find? (fun p => p.1 == (⟨i, hi⟩ : Fin 8) && p.1.val != 7) <;> rfl

/-- The fibre but for its x and t registers, after a word's effect. -/
theorem bare_upd (v : View) (regs : List (Opnd × RegCell)) (ps : List (Fin 8 × Bool)) (fl : BitVec 5) (b : Fibre) :
    ((WordRes.eff regs ps fl).upd now v b).bare
      = { b.bare with preds := setPreds ps b.preds, fflags := b.fflags ||| fl } := by
  have hw : ∀ (b : Fibre), (regs.foldl (Fibre.writeOwn now) b).bare = b.bare := by
    induction regs with
    | nil => intro b; rfl
    | cons w regs ih =>
      intro b; rw [List.foldl_cons, ih]; unfold Fibre.writeOwn; split <;> rfl
  have h := hw b
  simp only [WordRes.upd, foldl_setPred]
  generalize regs.foldl (Fibre.writeOwn now) b = c at h
  unfold Fibre.bare at *
  simp only [Fibre.mk.injEq] at h ⊢
  simp_all

theorem noteTrap_idem (b : Fibre) (t : TrapRec) : (b.noteTrap t).noteTrap t = b.noteTrap t := by
  cases h : b.trap with
  | none => simp [Fibre.noteTrap, h]
  | some u =>
    by_cases hc : (t.hdr == u.hdr && decide (t.word < u.word)) = true
    · have h1 : b.noteTrap t = { b with trap := some t } := by simp only [Fibre.noteTrap, h, hc, if_true]
      rw [h1]; simp [Fibre.noteTrap]
    · have h1 : b.noteTrap t = b := by simp only [Fibre.noteTrap, h, hc, Bool.false_eq_true, if_false]
      rw [h1, h1]

/-! ## s registers (R29) -/

theorem writeS_other (x : Group) (k : WriteKey) (l n m : Nat) (c : RegCell) (h : m ≠ n) :
    NMap.get (x.writeS k l n c).s m = NMap.get x.s m := by
  unfold Group.writeS; dsimp only; split
  · rfl
  · split
    · rfl
    · exact NMap.get_set_other _ _ _ _ h

theorem writeS_bare (x : Group) (k : WriteKey) (l n : Nat) (c : RegCell) : (x.writeS k l n c).bare = x.bare := by
  unfold Group.writeS; dsimp only; split
  · rfl
  · split <;> rfl

theorem updGrp_bare (v : View) (r : WordRes) (x : Group) : (r.updGrp now v x).bare = x.bare := by
  cases r with
  | trap => rfl
  | eff regs ps fl =>
    simp only [WordRes.updGrp]
    induction regs generalizing x with
    | nil => rfl
    | cons w regs ih =>
      rw [List.foldl_cons, ih]
      unfold View.writeGrp; split
      · exact writeS_bare _ _ _ _ _
      · rfl

/-- A word that writes no s register `n` for a fibre leaves it. -/
theorem updGrp_other (v : View) (regs : List (Opnd × RegCell)) (ps : List (Fin 8 × Bool)) (fl : BitVec 5) (n : Fin 64)
    (h : lastWrite regs (.s n) = none) (x : Group) :
    NMap.get ((WordRes.eff regs ps fl).updGrp now v x).s n.val = NMap.get x.s n.val := by
  have h2 : ∀ w ∈ regs, w.1 ≠ .s n := by
    intro w hw he
    unfold lastWrite at h
    rw [Option.map_eq_none_iff, List.find?_eq_none] at h
    exact h w (List.mem_reverse.mpr hw) (by simp [he])
  simp only [WordRes.updGrp]
  clear h
  induction regs generalizing x with
  | nil => rfl
  | cons w regs ih =>
    rw [List.foldl_cons, ih _ (fun u hu => h2 u (List.mem_cons_of_mem _ hu))]
    have hw := h2 w List.mem_cons_self
    unfold View.writeGrp; split
    · next m hm =>
      apply writeS_other
      intro e; apply hw; rw [hm]; congr 1; exact Fin.ext e.symm
    · rfl

/-- A mark of one register, execution, clause and word. -/
def SMark.at (m : SMark) (k : WriteKey) (n : Nat) : Bool := m.reg == n && m.exec == k.exec && m.hdr == k.hdr && m.word == k.word

/-- A mark of one register, execution and clause, of that word or a later one. -/
def SMark.past (m : SMark) (k : WriteKey) (n : Nat) : Bool :=
  m.reg == n && m.exec == k.exec && m.hdr == k.hdr && decide (k.word ≤ m.word)

theorem SMark.past_at {m : SMark} {k : WriteKey} {n : Nat} (h : m.at k n = true) : m.past k n = true := by
  simp only [SMark.at, SMark.past, Bool.and_eq_true, beq_iff_eq, decide_eq_true_eq] at *
  exact ⟨h.1, Nat.le_of_eq h.2.symm⟩

/-- A write by a lane that no mark is below or at, of a word that no later one has marked. -/
theorem writeS_first (x : Group) (k : WriteKey) (l n : Nat) (c : RegCell)
    (h : ∀ m ∈ x.marks, m.past k n = true → m.word = k.word ∧ l < m.lane) :
    NMap.get (x.writeS k l n c).s n = c ∧ ∃ m ∈ (x.writeS k l n c).marks, m.at k n = true ∧ m.lane = l := by
  have key : ∀ m ∈ x.marks, m.of k n = true → k.word ≤ m.word → m.word = k.word ∧ l < m.lane := by
    intro m hm ho hw
    apply h m hm
    simp only [SMark.of, SMark.past, Bool.and_eq_true, beq_iff_eq, decide_eq_true_eq] at *
    exact ⟨ho, hw⟩
  unfold Group.writeS; dsimp only
  rw [if_neg, if_neg]
  · refine ⟨NMap.get_set_self _ _ _, _, List.mem_cons_self, ?_, rfl⟩
    simp [SMark.at]
  · intro hh
    rw [List.any_eq_true] at hh
    obtain ⟨m, hm, hb⟩ := hh
    rw [List.mem_filter] at hm
    have hb := of_decide_eq_true hb
    have := key m hm.1 hm.2 (by omega)
    omega
  · intro hh
    rw [List.any_eq_true] at hh
    obtain ⟨m, hm, hb⟩ := hh
    rw [List.mem_filter] at hm
    simp only [Bool.and_eq_true, beq_iff_eq, decide_eq_true_eq] at hb
    have := key m hm.1 hm.2 (by omega)
    omega

/-- A write that finds a mark at or below its lane changes nothing. -/
theorem writeS_later (x : Group) (k : WriteKey) (l n : Nat) (c : RegCell)
    (h : ∃ m ∈ x.marks, m.at k n = true ∧ m.lane ≤ l) : x.writeS k l n c = x := by
  unfold Group.writeS; dsimp only
  rw [if_pos]
  obtain ⟨m, hm, h1, h2⟩ := h
  rw [List.any_eq_true]
  simp only [SMark.at, Bool.and_eq_true, beq_iff_eq] at h1
  refine ⟨m, List.mem_filter.mpr ⟨hm, ?_⟩, ?_⟩
  · simp only [SMark.of, Bool.and_eq_true, beq_iff_eq]; exact h1.1
  · simp only [Bool.and_eq_true, beq_iff_eq, decide_eq_true_eq]; exact ⟨h1.2, h2⟩

/-- A mark after a write was there before, or is the write's own. -/
theorem writeS_marks (x : Group) (k : WriteKey) (l n : Nat) (c : RegCell) (m : SMark)
    (h : m ∈ (x.writeS k l n c).marks) : m ∈ x.marks ∨ (m.at k n = true ∧ m.lane = l) := by
  have own : ∀ old, m ∈ (⟨n, k.exec, k.hdr, k.word, l, c, old⟩ : SMark) :: x.marks.filter (fun y => !(y.of k n && y.word == k.word)) →
      m ∈ x.marks ∨ (m.at k n = true ∧ m.lane = l) := by
    intro old h
    rw [List.mem_cons] at h
    rcases h with h | h
    · right; subst h; simp [SMark.at]
    · exact Or.inl (List.mem_filter.mp h).1
  unfold Group.writeS at h; dsimp only at h
  split at h
  · exact Or.inl h
  · split at h <;> exact own _ h

/-- Marks of other registers stay. -/
theorem writeS_marks_other (x : Group) (k k' : WriteKey) (l n n' : Nat) (c : RegCell) (m : SMark) (hn : n ≠ n')
    (hm : m.at k' n' = true) (h : m ∈ x.marks) : m ∈ (x.writeS k l n c).marks := by
  have stay : ∀ y : SMark, m ∈ y :: x.marks.filter (fun y => !(y.of k n && y.word == k.word)) := by
    intro y
    rw [List.mem_cons]; right
    rw [List.mem_filter]
    refine ⟨h, ?_⟩
    simp only [SMark.at, Bool.and_eq_true, beq_iff_eq] at hm
    have : (m.reg == n) = false := by rw [hm.1.1.1]; simpa using Ne.symm hn
    simp [SMark.of, this]
  unfold Group.writeS; dsimp only
  split
  · exact h
  · split <;> exact stay _

/-- s registers written once each. -/
def WordRes.once : WordRes → Bool
  | .eff regs _ _ => decide ((regs.map (·.1)).filter Opnd.isS).Nodup
  | .trap _ _ _ => true

/-- No mark of the key at or below lane `l`, and none of a later word. -/
def Group.above (x : Group) (k : WriteKey) (n l : Nat) : Prop :=
  ∀ m ∈ x.marks, m.past k n = true → m.word = k.word ∧ l < m.lane
/-- The register holds `c`, with a mark at lane `l`. -/
def Group.settled (x : Group) (k : WriteKey) (n l : Nat) (c : RegCell) : Prop :=
  NMap.get x.s n = c ∧ ∃ m ∈ x.marks, m.at k n = true ∧ m.lane = l

theorem above_step (v : View) (k : WriteKey) (n : Fin 64) (l : Nat) (x : Group) (w : Opnd × RegCell)
    (hx : x.above k n.val l) (hw : w.1 = .s n → v.key = k ∧ l < v.fib.fid.lane) : (v.writeGrp now x w).above k n.val l := by
  unfold View.writeGrp
  split
  · next p hp =>
    intro m hm ha
    rcases writeS_marks _ _ _ _ _ _ hm with h | h
    · exact hx m h ha
    · have h1 := h.1
      simp only [SMark.at, SMark.past, Bool.and_eq_true, beq_iff_eq] at h1 ha
      have := hw (by rw [hp]; congr 1; exact Fin.ext (h1.1.1.1.symm.trans ha.1.1.1))
      exact ⟨by rw [h1.2, this.1], by rw [h.2]; exact this.2⟩
  · exact hx

theorem settled_step (v : View) (k : WriteKey) (n : Fin 64) (l : Nat) (c : RegCell) (x : Group) (w : Opnd × RegCell)
    (hx : x.settled k n.val l c) (hw : w.1 = .s n → v.key = k ∧ l ≤ v.fib.fid.lane) :
    (v.writeGrp now x w).settled k n.val l c := by
  unfold View.writeGrp
  split
  · next p hp =>
    obtain ⟨h1, m, hm, h2, h3⟩ := hx
    by_cases hpn : p = n
    · subst hpn
      obtain ⟨hk, hl⟩ := hw hp
      rw [hk, writeS_later _ _ _ _ _ ⟨m, hm, h2, by omega⟩]
      exact ⟨h1, m, hm, h2, h3⟩
    · have hv : p.val ≠ n.val := fun e => hpn (Fin.ext e)
      exact ⟨by rw [writeS_other _ _ _ _ _ _ (Ne.symm hv)]; exact h1, m,
        writeS_marks_other _ _ _ _ _ _ _ _ hv h2 hm, h2, h3⟩
  · exact hx

theorem above_upd (v : View) (k : WriteKey) (n : Fin 64) (l : Nat) (x : Group) (r : WordRes)
    (hx : x.above k n.val l)
    (hw : ∀ regs ps fl, r = .eff regs ps fl → (lastWrite regs (.s n)).isSome = true → v.key = k ∧ l < v.fib.fid.lane) :
    (r.updGrp now v x).above k n.val l := by
  cases r with
  | trap => exact hx
  | eff regs ps fl =>
    have hw2 : ∀ w ∈ regs, w.1 = .s n → v.key = k ∧ l < v.fib.fid.lane := by
      intro w hm he
      apply hw regs ps fl rfl
      unfold lastWrite
      rw [Option.isSome_map, List.find?_isSome]
      exact ⟨w, List.mem_reverse.mpr hm, by simp [he]⟩
    simp only [WordRes.updGrp]
    clear hw
    induction regs generalizing x with
    | nil => exact hx
    | cons w regs ih =>
      rw [List.foldl_cons]
      exact ih _ (above_step v k n l x w hx (hw2 w List.mem_cons_self))
        (fun u hu => hw2 u (List.mem_cons_of_mem _ hu))

theorem settled_upd (v : View) (k : WriteKey) (n : Fin 64) (l : Nat) (c : RegCell) (x : Group) (r : WordRes)
    (hx : x.settled k n.val l c)
    (hw : ∀ regs ps fl, r = .eff regs ps fl → (lastWrite regs (.s n)).isSome = true → v.key = k ∧ l ≤ v.fib.fid.lane) :
    (r.updGrp now v x).settled k n.val l c := by
  cases r with
  | trap => exact hx
  | eff regs ps fl =>
    have hw2 : ∀ w ∈ regs, w.1 = .s n → v.key = k ∧ l ≤ v.fib.fid.lane := by
      intro w hm he
      apply hw regs ps fl rfl
      unfold lastWrite
      rw [Option.isSome_map, List.find?_isSome]
      exact ⟨w, List.mem_reverse.mpr hm, by simp [he]⟩
    simp only [WordRes.updGrp]
    clear hw
    induction regs generalizing x with
    | nil => exact hx
    | cons w regs ih =>
      rw [List.foldl_cons]
      exact ih _ (settled_step v k n l c x w hx (hw2 w List.mem_cons_self))
        (fun u hu => hw2 u (List.mem_cons_of_mem _ hu))

/-- The fibre's own write, on a group that no mark stands in the way of. -/
theorem settle_upd (v : View) (n : Fin 64) (c : RegCell) (x : Group) (regs : List (Opnd × RegCell))
    (ps : List (Fin 8 × Bool)) (fl : BitVec 5) (ho : (WordRes.eff regs ps fl).once = true)
    (hx : x.above v.key n.val v.fib.fid.lane) (hc : lastWrite regs (.s n) = some c) :
    ((WordRes.eff regs ps fl).updGrp now v x).settled v.key n.val v.fib.fid.lane c := by
  simp only [WordRes.updGrp]
  simp only [WordRes.once, decide_eq_true_eq] at ho
  induction regs generalizing x with
  | nil => simp [lastWrite] at hc
  | cons w regs ih =>
    rw [List.foldl_cons]
    rw [List.map_cons, List.filter_cons] at ho
    by_cases hw : w.1 = .s n
    · rw [hw, if_pos (show (Opnd.s n).isS = true from rfl), List.nodup_cons] at ho
      have hnot : ∀ u ∈ regs, u.1 ≠ .s n := by
        intro u hu he
        exact ho.1 (List.mem_filter.mpr ⟨List.mem_map.mpr ⟨u, hu, he⟩, rfl⟩)
      have hwc : w.2 = c := by
        unfold lastWrite at hc
        rw [List.reverse_cons, List.find?_append] at hc
        have : regs.reverse.find? (fun r => r.1 == .s n) = none := by
          rw [List.find?_eq_none]; intro u hu; simpa using hnot u (List.mem_reverse.mp hu)
        simpa [this, hw] using hc
      have h1 : (v.writeGrp now x w).settled v.key n.val v.fib.fid.lane c := by
        unfold View.writeGrp; rw [hw]; simp only; rw [hwc]
        exact writeS_first _ _ _ _ _ hx
      clear ih hc ho
      generalize v.writeGrp now x w = y at h1
      induction regs generalizing y with
      | nil => exact h1
      | cons u regs ih =>
        rw [List.foldl_cons]
        exact ih (fun q hq => hnot q (List.mem_cons_of_mem _ hq)) _
          (settled_step v _ n _ c y u h1 (fun he => absurd he (hnot u List.mem_cons_self)))
    · have ho2 : ((regs.map (·.1)).filter Opnd.isS).Nodup := by
        split at ho
        · exact (List.nodup_cons.mp ho).2
        · exact ho
      apply ih _ (above_step v _ n _ x w hx (fun he => absurd he hw)) _ ho2
      unfold lastWrite at hc ⊢
      rw [List.reverse_cons, List.find?_append] at hc
      cases h : regs.reverse.find? (fun r => r.1 == .s n) with
      | some r => simpa [h] using hc
      | none => simp [h, hw] at hc

/-! ## The lemma -/

/-- The effects of a word, in the order its fibres are taken. -/
def State.effs (s : State) (E : View → Option WordRes) : List (View × WordRes) :=
  s.views.filterMap fun v => (E v).map fun r => (v, r)

theorem mem_effs {s : State} {E : View → Option WordRes} {p : View × WordRes} :
    p ∈ s.effs E ↔ p.1 ∈ s.views ∧ E p.1 = some p.2 := by
  unfold State.effs
  rw [List.mem_filterMap]
  constructor
  · rintro ⟨v, hv, h⟩
    rw [Option.map_eq_some_iff] at h
    obtain ⟨r, hr, he⟩ := h
    cases he; exact ⟨hv, hr⟩
  · rintro ⟨hv, h⟩
    exact ⟨p.1, hv, by rw [h]; rfl⟩

/-- Of a batch's effects, those on one fibre are its own, as often as it stands in the batch. -/
theorem effs_fid {s : State} {E : View → Option WordRes} {v : View} {r : WordRes} (hv : v ∈ s.views) (hr : E v = some r) :
    (∀ q ∈ (s.effs E).filter (fun p => p.1.fib.fid == v.fib.fid), q = (v, r))
      ∧ (s.effs E).filter (fun p => p.1.fib.fid == v.fib.fid) ≠ [] := by
  constructor
  · intro q hq
    rw [List.mem_filter, mem_effs] at hq
    obtain ⟨⟨h1, h2⟩, h3⟩ := hq
    have e : q.1 = v := views_unique h1 hv (by simpa using h3)
    obtain ⟨q1, q2⟩ := q
    simp only at e h2
    subst e
    rw [h2] at hr; cases hr; rfl
  · intro h
    have : (v, r) ∈ (s.effs E).filter (fun p => p.1.fib.fid == v.fib.fid) := by
      rw [List.mem_filter, mem_effs]; exact ⟨⟨hv, hr⟩, by simp⟩
    rw [h] at this; cases this

theorem reg_own {s : State} {f : FibId} {b : Fibre} {o : Opnd} (ho : Opnd.own o = true) (h : s.fib? f = some b) :
    s.reg f o = b.readOwn o := by
  cases o <;> simp_all [State.reg, Fibre.readOwn, Opnd.own]

theorem fold_group (v : View) (n : Fin 64) (c : RegCell) (P : View × WordRes → Prop) :
    ∀ (l : List (View × WordRes)) (x : Group),
      (∀ p ∈ l, P p) →
      (∀ p, P p → ∀ regs ps fl, p.2 = .eff regs ps fl → (lastWrite regs (.s n)).isSome = true →
        p.1.key = v.key ∧ v.fib.fid.lane ≤ p.1.fib.fid.lane) →
      (∀ p, P p → ¬ v.fib.fid.lane < p.1.fib.fid.lane → ∀ y : Group, y.above v.key n.val v.fib.fid.lane →
        (∀ regs ps fl, p.2 = .eff regs ps fl → (lastWrite regs (.s n)).isSome = false) ∨
          (p.2.updGrp now p.1 y).settled v.key n.val v.fib.fid.lane c) →
      (x.settled v.key n.val v.fib.fid.lane c ∨
        (x.above v.key n.val v.fib.fid.lane ∧ ∃ p ∈ l, ∀ y : Group, y.above v.key n.val v.fib.fid.lane →
          (p.2.updGrp now p.1 y).settled v.key n.val v.fib.fid.lane c)) →
      (l.foldl (fun x p => p.2.updGrp now p.1 x) x).settled v.key n.val v.fib.fid.lane c := by
  intro l
  induction l with
  | nil =>
    intro x _ _ _ h
    rcases h with h | ⟨_, p, hp, _⟩
    · exact h
    · cases hp
  | cons q l ih =>
    intro x hP hk hs h
    rw [List.foldl_cons]
    apply ih _ (fun p hp => hP p (List.mem_cons_of_mem _ hp)) hk hs
    have hq := hP q List.mem_cons_self
    rcases h with h | ⟨ha, p, hp, hset⟩
    · left; exact settled_upd q.1 _ n _ c x q.2 h (hk q hq)
    · rw [List.mem_cons] at hp
      rcases hp with rfl | hp
      · left; exact hset x ha
      · by_cases hlt : v.fib.fid.lane < q.1.fib.fid.lane
        · right; exact ⟨above_upd q.1 _ n _ x q.2 ha (fun _ _ _ he h1 => ⟨(hk q hq _ _ _ he h1).1, hlt⟩), p, hp, hset⟩
        · rcases hs q hq hlt x ha with h0 | h0
          · right
            refine ⟨above_upd q.1 _ n _ x q.2 ha ?_, p, hp, hset⟩
            intro regs ps fl he h1
            rw [h0 regs ps fl he] at h1; cases h1
          · left; exact h0

/-- A word's effects, fibre by fibre, are all that it leaves. -/
theorem applyAll_effects (s : State) (E : View → Option WordRes)
    (ho : ∀ v ∈ s.views, ∀ r, E v = some r → r.once = true) : Effects s (s.applyAll (s.effs E)) E where
  own := by
    intro v hv regs ps fl he o hown
    obtain ⟨h1, h2⟩ := effs_fid hv he
    have hb := views_fib hv
    have ht := applyAll_fib? (s.effs E) s v.fib.fid
    rw [hb, Option.map_some] at ht
    rw [reg_own hown ht, reg_own hown hb]
    generalize (s.effs E).filter (fun p => p.1.fib.fid == v.fib.fid) = l at h1 h2
    clear ht hb he
    generalize v.fib = b
    induction l generalizing b with
    | nil => exact absurd rfl h2
    | cons q l ih =>
      have hq := h1 q List.mem_cons_self
      subst hq
      rw [List.foldl_cons]
      by_cases hl : l = []
      · subst hl; exact readOwn_upd v regs ps fl o hown b
      · rw [ih (fun q hq => h1 q (List.mem_cons_of_mem _ hq)) hl, readOwn_upd v regs ps fl o hown]
        cases lastWrite regs o <;> rfl
  fibre := by
    intro v hv regs ps fl he
    obtain ⟨h1, h2⟩ := effs_fid hv he
    rw [applyAll_fib?, views_fib hv, Option.map_some, Option.map_some, foldl_setPred]
    congr 1
    generalize (s.effs E).filter (fun p => p.1.fib.fid == v.fib.fid) = l at h1 h2
    clear he
    generalize v.fib = b
    induction l generalizing b with
    | nil => exact absurd rfl h2
    | cons q l ih =>
      have hq := h1 q List.mem_cons_self
      subst hq
      rw [List.foldl_cons]
      by_cases hl : l = []
      · subst hl; rw [List.foldl_nil, bare_upd]; rfl
      · rw [ih (fun q hq => h1 q (List.mem_cons_of_mem _ hq)) hl]
        have hu := bare_upd (now := s.clock) v regs ps fl b
        generalize (WordRes.eff regs ps fl).upd s.clock v b = d at hu
        unfold Fibre.bare at *
        simp only [Fibre.mk.injEq] at hu ⊢
        simp_all [setPreds_idem, BitVec.or_assoc]
  trapped := by
    intro v hv code detail addr he
    obtain ⟨h1, h2⟩ := effs_fid hv he
    rw [applyAll_fib?, views_fib hv, Option.map_some]
    congr 1
    exact fold_same (fun p b => p.2.upd s.clock p.1 b) (v, .trap code detail addr) (fun b => noteTrap_idem b _) _ _ h1 h2
  others := by
    intro f hf
    rw [applyAll_fib?]
    have : (s.effs E).filter (fun p => p.1.fib.fid == f) = [] := by
      rw [List.filter_eq_nil_iff]
      intro p hp
      rw [mem_effs] at hp
      have := hf p.1 hp.1 (by rw [hp.2]; rfl)
      simpa using this
    rw [this]; simp
  shared := by
    intro v hv regs ps fl n c he hc hfirst hlow
    have hg := views_grp hv
    have ht := applyAll_grp? (s.effs E) s v.fib.fid.team v.fib.fid.grp
    rw [hg, Option.map_some] at ht
    have key : ∀ u ∈ s.views, u.fib.exec = v.fib.exec → u.key = v.key := by
      intro u hu he2; unfold View.key; rw [he2, views_run hu hv]
    have hset := fold_group (now := s.clock) v n c (fun p => p.1 ∈ s.views ∧ E p.1 = some p.2 ∧ p.1.fib.fid.team = v.fib.fid.team
        ∧ p.1.fib.fid.grp = v.fib.fid.grp)
      ((s.effs E).filter fun p => decide (v.fib.fid.team = p.1.fib.fid.team ∧ v.fib.fid.grp = p.1.fib.fid.grp)) v.grp
      (by
        intro p hp
        rw [List.mem_filter, mem_effs, decide_eq_true_eq] at hp
        exact ⟨hp.1.1, hp.1.2, hp.2.1.symm, hp.2.2.symm⟩)
      (by
        intro p hp regs' ps' fl' he' hs'
        have hw : writesS E n p.1 = true := by unfold writesS; rw [hp.2.1, he']; exact hs'
        have := hlow p.1 hp.1 hw hp.2.2.1 hp.2.2.2
        exact ⟨key p.1 hp.1 this.1, this.2⟩)
      (by
        intro p hp hlt y hy
        by_cases hw : writesS E n p.1 = true
        · right
          have hl := hlow p.1 hp.1 hw hp.2.2.1 hp.2.2.2
          have hlane : p.1.fib.fid.lane = v.fib.fid.lane := by omega
          have hfid : p.1.fib.fid = v.fib.fid := by
            have h1 := hp.2.2.1; have h2 := hp.2.2.2
            revert h1 h2 hlane
            generalize p.1.fib.fid = a; generalize v.fib.fid = b
            intro h3 h1 h2; cases a; cases b; simp_all
          have hpv : p.1 = v := views_unique hp.1 hv hfid
          have hp2 := hp.2.1
          rw [hpv, he] at hp2
          rw [hpv, ← Option.some.inj hp2]
          exact settle_upd v n c y regs ps fl (ho v hv _ he) hy hc
        · left
          intro regs' ps' fl' he'
          unfold writesS at hw
          rw [hp.2.1, he'] at hw
          simpa using hw)
      (by
        right
        refine ⟨?_, (v, .eff regs ps fl), ?_, ?_⟩
        · intro m hm ha
          unfold View.firstWrite at hfirst
          rw [List.all_eq_true] at hfirst
          have := hfirst m hm
          have ha' : (m.reg == n.val && m.exec == v.fib.exec && m.hdr == v.run.hdr
              && decide (v.run.pos + 1 ≤ m.word)) = true := ha
          rw [Bool.not_eq_true'] at this
          exact absurd ha' (ne_true_of_eq_false this)
        · rw [List.mem_filter, mem_effs]
          exact ⟨⟨hv, he⟩, by simp⟩
        · intro y hy
          exact settle_upd v n c y regs ps fl (ho v hv _ he) hy hc)
    unfold State.reg
    simp only [ht]
    exact hset.1
  sharedKept := by
    intro f n hn
    unfold State.reg
    simp only [applyAll_grp?]
    cases h : s.grp? f.team f.grp with
    | none => rfl
    | some x =>
      simp only [Option.map_some]
      have : ∀ p ∈ (s.effs E).filter (fun p => decide (f.team = p.1.fib.fid.team ∧ f.grp = p.1.fib.fid.grp)),
          ∀ x : Group, NMap.get (p.2.updGrp s.clock p.1 x).s n.val = NMap.get x.s n.val := by
        intro p hp x
        rw [List.mem_filter, mem_effs, decide_eq_true_eq] at hp
        have hw := hn p.1 hp.1.1 hp.2.1.symm hp.2.2.symm
        cases hr : p.2 with
        | trap => rfl
        | eff regs ps fl =>
          apply updGrp_other
          unfold writesS at hw
          rw [hp.1.2, hr] at hw
          simpa using hw
      generalize (s.effs E).filter (fun p => decide (f.team = p.1.fib.fid.team ∧ f.grp = p.1.fib.fid.grp)) = l at this
      clear h
      induction l generalizing x with
      | nil => rfl
      | cons p l ih =>
        rw [List.foldl_cons, ih _ (fun q hq => this q (List.mem_cons_of_mem _ hq)), this p List.mem_cons_self]
  groups := by
    intro a b
    rw [applyAll_grp?, Option.map_map]
    congr 1
    funext x
    simp only [Function.comp]
    generalize (s.effs E).filter _ = l
    induction l generalizing x with
    | nil => rfl
    | cons p l ih => rw [List.foldl_cons, ih, updGrp_bare]
  rest := applyAll_bare _ s

/-- A word that acts on each guard-true fibre on its own does what its function says to each, and nothing else. -/
theorem word_effects (s : State) (g : Guard) (f : View → WordRes) (ho : ∀ v, (f v).once = true) :
    Effects s (s.word g f) fun v => if v.guard g then some (f v) else none := by
  have h : s.word g f = s.applyAll (s.effs fun v => if v.guard g then some (f v) else none) := by
    unfold State.word State.onViews State.applyAll State.effs
    generalize s.views = l
    induction l generalizing s with
    | nil => rfl
    | cons v l ih =>
      by_cases hg : v.guard g = true
      · simp only [List.filter_cons, hg, if_true, List.foldl_cons, List.filterMap_cons, Option.map_some]
        exact ih _
      · simp only [List.filter_cons, hg, List.filterMap_cons]
        exact ih _
  rw [h]
  apply applyAll_effects
  intro v _ r hr
  split at hr
  · cases hr; exact ho v
  · cases hr

/-- A word whose fibres act in turn: what one turn leaves is what its function does to any state it finds. -/
theorem wordSeq_turns {i : Instr} {g : Guard} {f : State → View → State} {P : State → View → State → Prop}
    (h : ∀ s, exec i s = .next (s.wordSeq g f)) (hp : ∀ s v, P s v (f s v)) : Turns i g P := ⟨f, h, hp⟩

/-- A tile-collective word. -/
theorem tileWord_effects (s : State) (f : List View → View → Option WordRes)
    (ho : ∀ l v r, f l v = some r → r.once = true) :
    Effects s (s.tileWord f) fun v =>
      if tileUniform s.views v then f (tileMates s.views v) v else some v.operandTrap := by
  have h : s.tileWord f = s.applyAll (s.effs fun v =>
      if tileUniform s.views v then f (tileMates s.views v) v else some v.operandTrap) := rfl
  rw [h]
  apply applyAll_effects
  intro v _ r hr
  split at hr
  · exact ho _ _ _ hr
  · cases hr; rfl

end Sys2Proof.Machine
end

