-- ==== Sys2Proof/Tests/Slice0.lean ====
section
/-! SUPPORT. Words written out from the encodings of R21 and R22 and their pages, terms that no check lets pass, single
steps on a small state, and for each statement with hypotheses a state and operands that meet them. -/

namespace Sys2Proof.Machine

-- each test waits for the kernel: one after another they need one thread, not one each
set_option Elab.async false

/-! ## A small world

One privileged fibre of one team on core 0, in the batch of a started clause; buffer 4 has one page at frame 0. -/

def tg : Guard := ⟨false, 7⟩
def labFib : FibId := ⟨3, 0, 0⟩
def labPart : Part :=
  { (default : Part) with configured := true, btlog := 10, frlog := 7, jlog := 12, cpsize := 2 ^ 21,
                          dcache := [(4, [0, 0x100000, 0x20000F, 0])] }
def labLeaf : Tlb := ⟨0, 0, 65536, 0, 0x10003, 0, 0x80000000⟩
def labBare : State :=
  { State.reset with clock := 10000, parts := [(0, labPart)], frames := [(0, 0x80000000)],
                     pods := [(0, { (default : Pod) with tlb := [labLeaf] })], ports := [(1, ⟨true, 0, 0⟩)] }
def lab : State := { labBare.placeWords 0x6A000000 0 with cur := 4 }
/-- The lab with the registers of its fibre. -/
def labX (x : NMap RegCell) : State := lab.modFib labFib fun f => { f with x := x }
def labView (s : State) : View := (s.views.head?).getD ⟨placedRun 0 0 0 [], default, default, default⟩
def buf4 (off : Nat) : Word := mkAddr 4 off
def labMem (a : Nat) : Loc := .mem a onCoreAttr
def labOp (loc : Loc) (act : OpAct) : MemOp :=
  { id := 0, fib := labFib, part := 0, core := 0, run := 4, word := 1, exec := 0, hdr := 0, next := 8, flag := 15, isLoad := true,
    ord := plainOrd, loc := loc, addr := 0, act := act, sent := false, took := false, route := none,
    got := [], kept := [], served := [] }
def labCmd (w1 w2 w3 : Word) : HostCmd := ⟨0, 0, w1, w2, w3, 0, 0, 0, 0⟩

theorem test_lab_views : lab.views = [labView lab] ∧ (labView lab).fib.fid = labFib ∧ (labView lab).trapped = false := by
  decide +kernel

/-! ## Words written out from their encodings -/

/-- R21 without an extension word (class alu): OP 0x00 `iadd`, D = x1, A = x2, B = x3. -/
theorem test_decode_iadd : decode (openCtx 0) (0#1 ++ 0x00#7 ++ 1#8 ++ 2#8 ++ 3#8) 0
    = .ok (.iadd tg false false false (.x 1) (.x 2) (.opnd (.x 3))) := by decide +kernel

/-- OP 0x30 `fadd`, D = t0 (code 192), A = s1 (code 129), B = 1.0 (code 209). -/
theorem test_decode_fadd : decode (openCtx 0) (0#1 ++ 0x30#7 ++ 192#8 ++ 129#8 ++ 209#8) 0
    = .ok (.fadd tg ⟨.rn, false, false⟩ (.t 0) (.s 1) (.k 9)) := by decide +kernel

/-- R87: OP 0x60 `bra`, the offset in A and B. -/
theorem test_decode_bra : decode (openCtx 0) (0#1 ++ 0x60#7 ++ 0#8 ++ 0x0003#16) 0 = .ok (.bra tg 3) := by decide +kernel

/-- R95 (class mem): OP 0x00 `ld` of one byte, D = x1, base x2, no index (code 200). -/
theorem test_decode_ld : decode (openCtx 1) (0#1 ++ 0x00#7 ++ 1#8 ++ 2#8 ++ 200#8) 0
    = .ok (.ld tg ⟨.b, plainOrd, false, false, false, false⟩ (.x 1) ⟨.x 2, .k 0, 0⟩) := by decide +kernel

/-- R257 (class mtx): OP 0x03 `mrd`, D = x1, A = x2. -/
theorem test_decode_mrd : decode (openCtx 2) (0#1 ++ 0x03#7 ++ 1#8 ++ 2#8 ++ 0#8) 0 = .ok (.mrd tg false (.x 1) (.x 2) 0) := by
  decide +kernel

/-- R85 (class sfu): OP 0x00 `rcp`, D = x1, A = x2. -/
theorem test_decode_rcp : decode (openCtx 3) (0#1 ++ 0x00#7 ++ 1#8 ++ 2#8 ++ 0#8) 0 = .ok (.rcp tg false false (.x 1) (.x 2)) := by
  decide +kernel

/-- R151 (class sync): OP 0x01 `barw`, D = b1, B = x3. -/
theorem test_decode_barw : decode (openCtx 4) (0#1 ++ 0x01#7 ++ 1#8 ++ 0#8 ++ 3#8) 0 = .ok (.barw tg 1 (some (.opnd (.x 3)))) := by
  decide +kernel

/-- R310 (class sys): OP 0x0A `csrr` with an extension word: GS = 0, GP = p7, C = 0, SUB = 0, IMM12 = 5. -/
theorem test_decode_csrr : decode (openCtx 5) (1#1 ++ 0x0A#7 ++ 1#8 ++ 0#8 ++ 0#8) (0#1 ++ 7#3 ++ 0#8 ++ 0#8 ++ 5#12)
    = .ok (.csrr tg (.x 1) 5) := by decide +kernel

/-- R25, R32: OP 0x1F of class alu is not listed, a nonzero unused field and a missing extension word are illegal. -/
theorem test_decode_refused : decode (openCtx 0) 0x1F000000 0 = .error .illegalInstruction
    ∧ decode (openCtx 0) 0x6A000001 0 = .error .illegalInstruction ∧ decode (openCtx 5) 0x0A010000 0 = .error .illegalInstruction := by
  decide +kernel

/-- Class mem and its tables' numbering: bit 0 of the first word is bit 0. -/
theorem test_table_word : decodeTableWord 32 0x6A000000 = some (.nop tg) ∧ decodeTableWord 64 0x8000000090040205
    = decodeAnyClass 0x90040205 0x80000000 [0, 1, 2, 3, 4, 5] := by decide +kernel

/-! ## Terms that no check lets pass -/

/-- Each term breaks one limit of a team of 64 x registers and 32 accumulator rows. -/
theorem test_wf_refuses : [Instr.iadd tg false false false (.k 0) (.x 0) (.imm 0), .iadd tg false false false (.x 64) (.x 0) (.imm 0),
    .iadd tg false false false (.x 0) (.x 64) (.imm 0), .iadd tg false false false (.x 0) (.x 0) (.opnd (.x 64)),
    .bfx tg false true (.x 0) (.x 0) 1 32, .bfi tg false false (.x 0) (.x 0) (.x 0) 32 33, .nibl tg false false false (.x 0) (.x 0) (.x 63),
    .srd tg (.x 0) 0x1A, .swr tg (.x 0) 0x1A, .fadd tg ⟨.rn, true, false⟩ (.x 0) (.x 0) (.x 0), .fmin tg false true false (.x 0) (.x 0) (.x 0),
    .fcvt tg .f2f ⟨.rz, false, true⟩ (.x 0) (.x 0), .f2sum tg false (.s 63) (.x 0) (.x 0), .redl tg .fadd true false (.x 0) (.x 0),
    .ld tg ⟨.b, ⟨.none, .dev⟩, false, false, false, false⟩ (.x 0) ⟨.x 0, .k 0, 0⟩,
    .ld tg ⟨.b, ⟨.rel, .team⟩, false, false, false, false⟩ (.x 0) ⟨.x 0, .k 0, 0⟩,
    .ld tg ⟨.b, plainOrd, true, false, false, false⟩ (.x 0) ⟨.x 0, .k 0, 0⟩,
    .ld tg ⟨.b, plainOrd, false, true, true, false⟩ (.x 0) ⟨.x 0, .k 0, 0⟩,
    .ld tg ⟨.b, ⟨.acq, .team⟩, false, false, true, false⟩ (.x 0) ⟨.x 0, .k 0, 0⟩,
    .ld tg ⟨.d, plainOrd, false, false, false, true⟩ (.x 0) ⟨.x 0, .k 0, 0⟩,
    .ld tg ⟨.q, plainOrd, false, false, false, false⟩ (.x 63) ⟨.x 0, .k 0, 0⟩, .st tg .b ⟨.acq, .team⟩ false (.x 0) ⟨.x 0, .k 0, 0⟩,
    .st tg .b ⟨.sc, .team⟩ true (.x 0) ⟨.x 0, .k 0, 0⟩, .ldx tg .q plainOrd .e4m3 .f32 (.x 0) ⟨.x 0, .k 0, 0⟩,
    .ldx tg .w plainOrd .e4m3 .f32 (.s 0) ⟨.x 0, .k 0, 0⟩, .atom tg false plainOrd .add 1 (.x 0) (.x 0) (.x 0) (.x 0),
    .red tg false plainOrd .swap (.x 0) (.x 0), .fence tg plainOrd, .srec tg ⟨.sc, .team⟩ .add false 0 (.x 0) (.x 0) (.x 0) none,
    .mma tg 0 ⟨false, 0, false, .fp32, false, false, 0⟩ 0 (.x 0) none, .mma tg 0 ⟨false, 0, false, .bf16, true, false, 0⟩ 0 (.x 0) none,
    .mma tg 0 ⟨false, 1, false, .bf16, false, false, 0⟩ 0 (.x 0) none, .mma tg 0 ⟨false, 0, false, .bf16, false, false, 4⟩ 0 (.x 0) none,
    .mma tg 0 ⟨false, 0, false, .bf16, false, false, 0⟩ 57 (.x 0) none, .mma tg 0 ⟨false, 0, false, .bf16, false, false, 0⟩ 0 (.t 0) none,
    .mma tg 0 ⟨false, 0, false, .bf16, false, false, 0⟩ 0 (.x 0) (some 0), .mmab tg 0 ⟨false, 0, false, .e4m3, false, false, 0⟩ 0 0 (.x 0) none,
    .mzero tg (.x 0) 0, .mzero tg (.x 0) 2049, .barw tg 0 (some (.imm 1)), .barw tg 1 none, .barw tg 1 (some (.opnd (.t 0))),
    .push tg .se0 57 0 none, .spawn tg 0 (.x 0) 0 0, .spawn tg 0 (.x 0) 32 32 |> fun i => if i.wf 64 32 then .spawn tg 0 (.k 0) 0 1 else i,
    .csub tg 0 (.t 0), .regb 0 0, .regb 9 0, .csrr tg (.x 0) 8, .csrw tg (.t 0) 0, .pchk tg 0 (.t 0)].all (fun i => !i.wf 64 32) = true := by
  decide +kernel

/-! ## Single steps -/

/-- What a row answers, if it is a next state. -/
def nextOf (r : Result) : Option State := match r with | .next t => some t | _ => none

/-- R43: 32-bit unsigned addition wraps: 0xFFFFFFFF + 1 = 0. -/
theorem test_iadd_wraps : (nextOf (exec (.iadd tg false true true (.x 1) (.x 2) (.opnd (.k 1))) (labX [(2, ⟨0xFFFFFFFF, false⟩)]))).map
    (·.reg labFib (.x 1)) = some ⟨0, false⟩ := by decide +kernel

/-- R43: the saturating signed sum of the largest number and 1 is the largest number. -/
theorem test_iadd_clamps : (nextOf (exec (.iadd tg true false false (.x 1) (.x 2) (.opnd (.k 1))) (labX [(2, ⟨0x7FFFFFFFFFFFFFFF, false⟩)]))).map
    (·.reg labFib (.x 1)) = some ⟨0x7FFFFFFFFFFFFFFF, false⟩ := by decide +kernel

/-- R44: a shift by the width leaves nothing. -/
theorem test_shl_width : (nextOf (exec (.shl tg false false (.x 1) (.x 2) (.imm 64)) (labX [(2, ⟨1, false⟩)]))).map
    (·.reg labFib (.x 1)) = some ⟨0, false⟩ := by decide +kernel

/-- R67: 1.0 + 1.0 = 2.0 in binary64, with no flag. -/
theorem test_fadd : (nextOf (exec (.fadd tg ⟨.rn, false, false⟩ (.x 1) (.k 9) (.k 9)) lab)).map
    (fun t => (t.reg labFib (.x 1), (t.fib? labFib).map (·.fflags))) = some (⟨0x4000000000000000, false⟩, some 0) := by decide +kernel

/-- R86: a quotient by zero is all ones. -/
theorem test_idiv_zero : (nextOf (exec (.idiv tg false false (.x 1) (.k 1) (.k 0)) lab)).map
    (·.reg labFib (.x 1)) = some ⟨0xFFFFFFFFFFFFFFFF, false⟩ := by decide +kernel

/-- R60: an index above 2^20 − 1 traps 0x0A. -/
theorem test_mka_traps : (nextOf (exec (.mka tg (.x 1) (.x 2) (.imm 0)) (labX [(2, ⟨0x100000, false⟩)]))).map
    (fun t => (t.fib? labFib).bind fun f => f.trap.map (·.code)) = some (some 0x0A) := by decide +kernel

/-- R313: `trap` raises 0x1A with its detail. -/
theorem test_trap : (nextOf (exec (.trap tg 5) lab)).map (fun t => (t.fib? labFib).bind fun f => f.trap.map fun r => (r.code, r.detail))
    = some (some (0x1A, 5)) := by decide +kernel

/-- R286: queue 32 stands at priority floor 4. -/
theorem test_qctl : (nextOf (exec (.qctlRd tg (.x 1) (.x 2) 0) (labX [(2, ⟨32, false⟩)]))).map
    (·.reg labFib (.x 1)) = some ⟨0x41, false⟩ := by decide +kernel

/-- A step of a placed word runs it: `movi` writes its register. -/
theorem test_step_movi : (nextOf (step (State.reset.withFetchWord 64 ((0x70002007 <<< 32) + 0xA1010000)))).map
    (·.reg labFib (.x 1)) = some ⟨7, false⟩ := by decide +kernel

/-! ## Witnesses: states and operands that meet the statements' hypotheses -/

theorem witness_DecodeInvertsEncode : (Instr.bfx tg false false (.x 127) (.x 0) 1 63).cls = some 0
    ∧ (Instr.bfx tg false false (.x 127) (.x 0) 1 63).wf 128 2048 = true := by decide +kernel

theorem witness_DecodedIsWellFormed : decode (openCtx 5) 0x8A010000 0x70000005 = .ok (.csrr tg (.x 1) 5)
    ∧ ((Instr.csrr tg (.x 1) 5).fields).map (·.2.1) = some true := by decide +kernel

def placed : State := State.reset.placeWords 0x6A000000 0
def doing (a : Act) : State := { State.reset with sched := [⟨0, a⟩] }

theorem witness_StepRunsTheInstruction :
    (placed.choice.act = .word 4 ∧ (placed.taken.run? 4).bind placed.taken.fetchWord = some (.ok (.nop tg), 1)
      ∧ (nextOf (exec (.nop tg) { placed.taken with cur := 4 })).isSome = true)
    ∧ ((doing (.event .d3cold)).choice.act = .event .d3cold ∧ Instr.d3cold.cls = none ∧ windowed .d3cold = false
      ∧ (nextOf (exec .d3cold (doing (.event .d3cold)).taken)).isSome = true)
    ∧ (commandRow 0 0x0C (labCmd 5 0 0) true true = some (.link 0 (labCmd 5 0 0))
      ∧ (doing (.command 0 0x0C (labCmd 5 0 0))).choice.act = .command 0 0x0C (labCmd 5 0 0)
      ∧ (nextOf (exec (.link 0 (labCmd 5 0 0)) (doing .idle).taken)).isSome = true)
    ∧ (requestRow 0 4 ⟨0, 0⟩ = some (.mgmtPackageId 0 ⟨0, 0⟩) ∧ (doing (.request 0 4)).choice.act = .request 0 4
      ∧ (4 : Word).extractLsb' 8 8 = (0 : Byte) ∧ (nextOf (exec (.mgmtPackageId 0 ⟨0, 0⟩) (doing .idle).taken)).isSome = true) := by
  decide +kernel

theorem witness_LogicShiftsAndFields : (1 : BitVec 6).toNat + (63 : BitVec 6).toNat ≤ 64 ∧ (0 : BitVec 6).toNat + (32 : BitVec 6).toNat ≤ 32 := by
  decide

theorem witness_SpecialRegisters : (lab.cluster? (labView lab).team.cluster).isSome = true ∧ labView lab ∈ lab.views
    ∧ (0x16 : BitVec 12) ≠ 0x17 ∧ (0x1A : BitVec 12) ≠ 0x19 ∧ 5 < (6 : BitVec 12).toNat ∧ (5 : BitVec 12).toNat ≤ 5 ∧ (5 : BitVec 12) ≠ 2 := by
  decide +kernel

/-- 1.5 and −1.0 are patterns of binary64; a float above its largest integral step is one too. -/
theorem witness_FloatArithmetic : Rm.rn ≠ .rdyn ∧ 0x3FF8000000000000 < 2 ^ (fpFmt false).width ∧ 0xBF800000 < 2 ^ (fpFmt true).width
    ∧ (fpFmt false).val false 0x3FF8000000000000 = .fin false 0x18000000000000 (-52)
    ∧ (fpFmt true).isNan 0x7FC00000 = true ∧ (fpFmt true).isSig 0x7F800001 = true := by decide +kernel

theorem witness_FloatConversions : CvtOp.f2f ≠ .i2f ∧ CvtOp.f2f ≠ .n2f ∧ (CvtOp.n2f = .i2f ∨ CvtOp.n2f = .n2f) := by decide

/-- The largest binary32 number, and the smallest. -/
theorem witness_Rounding_exact : (0x7F7FFFFF < 2 ^ (fpFmt true).width ∧ (fpFmt true).val false 0x7F7FFFFF = .fin false 0xFFFFFF 104)
    ∧ (fpFmt true).val false 0x80000001 = .fin true 1 (-149) := by decide +kernel

/-- 2^24 + 1 rounds to 2^24 by ties to even, with NX. -/
theorem witness_Rounding_nearest : (fpFmt true).round .rn false false 16777217 0 = (0x4B800000, nxFlag)
    ∧ (fpFmt true).val false 0x4B800000 = .fin false 0x800000 1 ∧ nxFlag &&& ofFlag = 0
    ∧ (fpFmt true).round .rd false true 1 (-2000) = (0x80000001, ufFlag ||| nxFlag) := by decide +kernel

theorem witness_SpecialFunctionUnit : (fpFmt true).val false 0 = .fin false 0 ((fpFmt true).emin - (fpFmt true).fb)
    ∧ (fpFmt false).val true 0x8000000000000000 = .fin true 0 ((fpFmt false).emin - (fpFmt false).fb)
    ∧ (fpFmt true).val false 0xFF800000 = .inf true := by decide +kernel

/-- 0.5: its exponential, sine and cosine, and its logarithm, are of interest. -/
theorem witness_ApproximationsAreClose : 0x3FE0000000000000 < 2 ^ (fpFmt false).width
    ∧ (fpFmt false).val false 0x3FE0000000000000 = .fin false 0x10000000000000 (-53)
    ∧ 2 * (1 : Nat) < 2 ^ 20 * 3 ∧ (1 : Nat) ≠ 2 := by decide +kernel

theorem witness_LaneWords : LaneOp.add ≠ .fadd ∧ 0 < [(⟨1, false⟩ : RegCell)].length := by decide

/-- A group with every lane taken. -/
def labFull : State := { lab with fibres := (List.range 8).map fun l => newFibre ⟨3, 0, l⟩ 0 default default 0 8 0 }

/-- The lab with a second fibre, of lane 2, in its batch. -/
def lab2 : State :=
  ({ lab with fibres := lab.fibres ++ [{ newFibre ⟨3, 0, 2⟩ 0 default default 0 8 0 with busy := true }] } : State).modRun 4 fun r =>
    { r with fibs := [labFib, ⟨3, 0, 2⟩] }
theorem witness_ExitYieldNopFork_two : (lab2.views.map (·.fib.fid)) = [⟨3, 0, 0⟩, ⟨3, 0, 2⟩]
    ∧ (lab2.views.all fun v => v.guard tg && !v.trapped && v.grp.width == 8) = true
    ∧ ((List.range 8).filter fun l => (lab2.fib? ⟨3, 0, l⟩).isNone) = [1, 3, 4, 5, 6, 7] := by decide +kernel

theorem witness_ExitYieldNopFork : lab.views = [labView lab] ∧ (labView lab).guard tg = true ∧ (labView lab).trapped = false
    ∧ Opnd.own (.x 1) = true ∧ lab.fib? ⟨3, 0, 0⟩ ≠ none ∧ lab.fib? ⟨3, 0, 1⟩ = none ∧ 1 < (labView lab).grp.width
    ∧ labFull.views = [labView labFull] ∧ (∀ k ∈ List.range (labView labFull).grp.width, labFull.fib? ⟨3, 0, k⟩ ≠ none) := by
  decide +kernel

def labTrap : TrapRec := ⟨0x1A, 1, 5, 0, 64, 128, false, none⟩
/-- The fibre stands with a trap to deliver, its team with a handler. -/
def labTrapped (h : Bool) (tvec : Word) : State :=
  (lab.modFib labFib fun f => { f with trap := some labTrap, busy := false, h := h }).modTeam 3 fun t => { t with tvec := tvec }

theorem witness_TrapsTakenAndLeft : ∀ s ∈ [labTrapped false 0x1000, labTrapped false 0, labTrapped true 0x1000],
    (s.fib? labFib).map (fun b => (b.trap, b.busy, b.hold)) = some (some labTrap, false, .free)
    ∧ (s.team? 3).map (fun t => (t.phase, t.halting.isNone)) = some (.resident, true) ∧ s.pend = [] := by decide +kernel

/-- The clause's first word has a planned access to the start of buffer 4. -/
def labPlan : State := lab.modRun 4 fun r => { r with plan := [⟨labFib, 1, buf4 0, labMem 0x10000, none, 0, [labMem 0x10000]⟩] }

theorem witness_MemoryWordsIssue : labPlan.views = [labView labPlan] ∧ (labView labPlan).guard tg = true
    ∧ (labView labPlan).planned = some ⟨labFib, 1, buf4 0, labMem 0x10000, none, 0, [labMem 0x10000]⟩
    ∧ PageAttr.bypass onCoreAttr 0x10000 = false ∧ onCoreAttr.sc = false ∧ spaceOf 0x10000 ≤ 1 ∧ 3 < 4 ∧ labPlan.fillWait = [] := by decide +kernel

def labMma : MmaMod := ⟨false, 0, false, .bf16, false, false, 0⟩
def labK (n left arr : Nat) : State := lab.modTeam 3 fun t => { t with kregs := [(1, ⟨n, left, arr, []⟩)] }
/-- A capture of the fibre with the given modifiers, as operation `op`. -/
def labCapOf (m : MmaMod) (op : Nat) : MtxCap := ⟨labFib, 1, false, 0, m, [], none, 0, op, 0, 8, 1⟩
/-- Two members of a register, of which another one has signed with the given modifiers. -/
def labK2 (m : MmaMod) : State := lab.modTeam 3 fun t => { t with kregs := [(1, ⟨2, 0, 1, [labCapOf m 70]⟩)] }
/-- B's address, or what is wrong with it. -/
def labB (c : RegCell) : View := labView (labX [(5, c)])

theorem witness_MatrixWordsIssue : (∀ s ∈ [labK 0 0 0, labK 2 0 0, labK 1 0 0, labK 3 3 0, labK2 labMma, labK2 { labMma with ar := 1 }],
      s.views = [labView s] ∧ (labView s).guard tg = true ∧ ((labView s).rd (.x 5)).p = false ∧ indexOf ((labView s).rd (.x 5)).v = 0
      ∧ offsetOf ((labView s).rd (.x 5)).v % 64 = 0 ∧ offsetOf ((labView s).rd (.x 5)).v + MmaMod.span labMma ≤ (labView s).team.spadSize
      ∧ s.locked 0 .fe ⟨0, none, 3, 0, MmaMod.span labMma⟩ = false)
    ∧ ((labB ⟨0, true⟩).rd (.x 5)).p = true ∧ indexOf ((labB ⟨buf4 0, false⟩).rd (.x 5)).v ≠ 0
    ∧ offsetOf ((labB ⟨8, false⟩).rd (.x 5)).v % 64 ≠ 0
    ∧ (labB ⟨0, false⟩).team.spadSize < offsetOf ((labB ⟨0x40000, false⟩).rd (.x 5)).v + MmaMod.span labMma
    ∧ NMap.get (labView (labK 0 0 0)).team.kregs 1 = default ∧ NMap.get (labView (labK 3 3 0)).team.kregs 1 = ⟨3, 3, 0, []⟩
    ∧ NMap.get (labView (labK 2 0 0)).team.kregs 1 = ⟨2, 0, 0, []⟩ ∧ 0 + 1 < 2 - 0
    ∧ NMap.get (labView (labK 1 0 0)).team.kregs 1 = ⟨1, 0, 0, []⟩ ∧ 1 - 0 ≤ 0 + 1
    ∧ (labView lab).fib.kleft.getLsbD 1 = false ∧ (labView lab).fib.ksig.getLsbD 1 = false
    ∧ MtxCap.same (labCapOf labMma 70) (labCapOf labMma 71) = true
    ∧ MtxCap.same (labCapOf { labMma with ar := 1 } 70) (labCapOf labMma 71) = false := by decide +kernel

/-- The last pair of cells lies in the rows, the next does not. -/
theorem witness_MatrixWordsIssue_cells : 131070 % 2 = 0 ∧ 131070 + 2 ≤ 64 * (labView lab).team.accRows
    ∧ 64 * (labView lab).team.accRows < 131071 + 2 ∧ (131071 + 1 : Nat) ≤ 64 * (labView lab).team.accRows
    ∧ ((labView (labX [(5, ⟨0, true⟩)])).rd (.x 5)).p = true
    ∧ (lab.modPod 0 fun p => { p with locks := [⟨99, .w, 0, none, 3, 0, 4096, false⟩] }).locked 0 .fe ⟨0, none, 3, 0, MmaMod.span labMma⟩ = true := by
  decide +kernel

def labBar (b : Bar) : State := lab.modTeam 3 fun t => { t with bars := [(1, b)] }
def labCo : State := lab.modClutch 1 fun c => { c with card := [0, 0, 0, 0x0200000000000000] }

theorem witness_Barriers : lab.views = [labView lab] ∧ (labView lab).guard tg = true ∧ ((labView lab).src .q64 (.imm 0)).p = false
    ∧ ((labView (labX [(2, ⟨1, true⟩)])).src .q64 (.opnd (.x 2))).p = true ∧ (labX [(2, ⟨1, true⟩)]).views = [labView (labX [(2, ⟨1, true⟩)])]
    ∧ ((labView lab).src .q64 (.imm 0)).v.toNat = 0 ∧ 1024 < ((labView lab).src .q64 (.imm 1025)).v.toNat
    ∧ (labBar ⟨true, 4, 1⟩).views = [labView (labBar ⟨true, 4, 1⟩)] ∧ NMap.get (labView (labBar ⟨true, 4, 1⟩)).team.bars 1 = ⟨true, 4, 1⟩
    ∧ ((labView lab).src .q64 (.imm 1024)).v.toNat = 1024 ∧ ((labView lab).src .q64 (.imm 1)).v.toNat = 1
    ∧ (lab.teamFibres 3).length = 1 ∧ (lab.cluster? 2).isSome = true ∧ lab.liveIn (·.cluster == 2) = 1
    ∧ (lab.clutch? 1).map (·.coResident) = some false ∧ (labCo.clutch? 1).map (·.coResident) = some true
    ∧ labCo.views = [labView labCo] ∧ labFull.liveIn (·.cluster == 2) = 8 := by decide +kernel

/-- A member that has signed, or that has left, register 1. -/
def labSigned (x : KReg) (sig left : Byte) : State :=
  (lab.modFib labFib fun f => { f with ksig := sig, kleft := left }).modTeam 3 fun t => { t with kregs := [(1, x)] }
theorem witness_ConvergenceRegisters_leave : (∀ x ∈ [(⟨3, 0, 1, []⟩ : KReg), ⟨1, 0, 0, []⟩, ⟨2, 0, 2, [labCapOf labMma 70]⟩],
      ∀ l ∈ [(0 : Byte), 2], let s := labSigned x 0 l
      (s.fib? labFib).map (·.kleft) = some l ∧ (s.team? 3).map (fun t => NMap.get t.kregs 1) = some x ∧ x.n ≠ 0)
    ∧ (2 : BitVec 8).getLsbD 1 = true ∧ ¬ (3 - (0 + 1) ≤ 1) ∧ 1 - (0 + 1) ≤ 0
    ∧ (labSigned ⟨2, 0, 1, []⟩ 2 0).views = [labView (labSigned ⟨2, 0, 1, []⟩ 2 0)]
    ∧ ((labSigned ⟨2, 0, 1, []⟩ 2 0).fib? labFib).map (·.ksig.getLsbD 1) = some true
    ∧ (NMap.get (labView (labSigned ⟨1, 1, 0, []⟩ 0 0)).team.kregs 1).n ≤ 1
    ∧ 2 - 0 ≤ 1 + 1 ∧ MtxCap.same (labCapOf labMma 70) (labCapOf labMma 70) = true := by decide +kernel

theorem witness_ConvergenceRegisters : (∀ s ∈ [labK 0 0 0, labK 3 0 1, labK 2 0 1, labK 1 0 0], s.views = [labView s] ∧ (labView s).guard tg = true
      ∧ (labView s).fib.kleft.getLsbD 1 = false ∧ (labView s).fib.ksig.getLsbD 1 = false)
    ∧ NMap.get (labView (labK 3 0 1)).team.kregs 1 = ⟨3, 0, 1, []⟩ ∧ 1 + 1 < 3 - 0
    ∧ NMap.get (labView (labK 2 0 1)).team.kregs 1 = ⟨2, 0, 1, []⟩ ∧ 2 - 0 ≤ 1 + 1
    ∧ ((labView lab).src .q64 (.imm 1024)).p = false ∧ ((labView lab).src .q64 (.imm 1024)).v.toNat ≤ 1024
    ∧ ((labView (labX [(2, ⟨1, true⟩)])).src .q64 (.opnd (.x 2))).p = true := by decide +kernel

/-- `cvx.copy` of one byte within buffer 4, with no target. -/
def labCopy : List Word := [0x10, 0, buf4 0, buf4 0x100, 1, 0, 0, 0]
def labRegs (ws : List Word) : NMap RegCell := ws.zipIdx.map fun w => (w.2, ⟨w.1, false⟩)
def labQCmd (ws : List Word) (slot : Option Nat) : QCmd := ⟨.cvx, 0, 3, 1, labFib, 0, slot, ws, 0, 77, 0, none, none, false⟩
def labQueue (n : Nat) (slot : Option Nat) : State :=
  (labX (labRegs labCopy)).setQueue 0 .cvx (List.replicate n (labQCmd labCopy slot))

theorem witness_PushAndSlots : (∀ s ∈ [labQueue 0 none, labQueue 15 none, labQueue 16 none], s.views = [labView s]
      ∧ (labView s).guard tg = true ∧ ((List.range 8).map fun k => (NMap.get (labView s).fib.x (0 + k)).v) = labCopy)
    ∧ commandOk (labView lab).team.spadSize .cvx labCopy = true ∧ commandOk (labView lab).team.spadSize .se0 labCopy = false
    ∧ ((labQueue 15 none).queue 0 .cvx).length < 16 ∧ 16 ≤ ((labQueue 16 none).queue 0 .cvx).length
    ∧ (NMap.get (labView (labX [(7, ⟨0, true⟩)])).fib.x 7).p = true := by decide +kernel

/-- The place the port answers. -/
def placeOf (r : Reach) : Option Loc := match r with | .ok l _ => some l | _ => none

/-- Buffer 4 holds a word; x2 names it. -/
def labWord (w : Nat) : State :=
  { labX [(2, ⟨buf4 0, false⟩)] with mem := Memory.empty.setBytes 0x10000 (leBytes 8 w) }
/-- A join at the start of buffer 4, its card at 0x1000. -/
def labJoin (w : Nat) : State :=
  { labWord w with joins := [⟨9, 0, buf4 0, false, .free⟩],
                   mem := (Memory.empty.setBytes 0x10000 (leBytes 8 w)).setBytes 0x10008 (leBytes 8 (buf4 0x1000).toNat) }

theorem witness_FuturesAndJoins : (∀ w ∈ [0, 1, 2, 3], let s := labWord w
      s.views = [labView s] ∧ (labView s).guard tg = true ∧ ((labView s).rd (.x 2)).p = false
      ∧ (s.taskPlace (labView s) ((labView s).rd (.x 2)).v 32 32 .a).1 = .ok (labMem 0x10000)
      ∧ (s.taskPlace (labView s) ((labView s).rd (.x 2)).v 32 32 .a).2.sliceOn 0x10000 = true
      ∧ (((s.taskPlace (labView s) ((labView s).rd (.x 2)).v 32 32 .a).2.taskRelease (labView s)).recWord (labView s).agent (labMem 0x10000) 0).1.1 = w)
    ∧ (∀ w ∈ [0, 1, 2], let s := (labWord w).modFib labFib fun f => { f with x := [(2, ⟨buf4 0, false⟩), (3, ⟨buf4 0x20, false⟩), (4, ⟨buf4 8, false⟩)] }
      let s1 := (s.taskPlace (labView s) (buf4 0) 32 32 .a).2
      s.views = [labView s] ∧ (labView s).rd (.x 3) = ⟨buf4 0x20, false⟩ ∧ (labView s).rd (.x 4) = ⟨buf4 8, false⟩
        ∧ (s1.taskPlace (labView s) (buf4 0x20) 32 32 .a).1 = .ok (.mem 0x10020 { onCoreAttr with off := 0x20 })
        ∧ (s1.taskPlace (labView s) (buf4 0x20) 32 32 .a).2.sliceOn 0x10000 = true
        ∧ (s1.taskPlace (labView s) (buf4 8) 32 32 .a).1 = .error 0x0F)
    ∧ ((labView (labWord 0)).rd (.x 3)).p = false ∧ Opnd.own (.x 4) = true ∧ Opnd.own (Opnd.succ (.x 4)) = true ∧ Opnd.succ (.x 4) ≠ .x 4
    ∧ PageAttr.bypass onCoreAttr 0x10000 = false ∧ (labWord 0).isRemote 0x10000 = false ∧ 0x10000 % 32 = 0
    ∧ (∀ w ∈ [2, 1], let s := labJoin w
      s.joins.find? (fun j => j.id == 9) = some ⟨9, 0, buf4 0, false, .free⟩
      ∧ placeOf (s.hubRecord 0 (buf4 0) 0xFF).1 = some (labMem 0x10000)
      ∧ ((s.hubRecord 0 (buf4 0) 0xFF).2.recWord (Agent.hub 0) (labMem 0x10000) 0).1.1 = w)
    ∧ (((labJoin 1).hubRecord 0 (buf4 0) 0xFF).2.readCard 0 (buf4 0x1000) 0xFF).1 = .ok (List.replicate 16 0)
    ∧ (((labJoin 1).hubRecord 0 (buf4 0) 0xFF).2.readCard 0 (buf4 0x1000) 0xFF).2.1 = none := by decide +kernel
/-- A place in buffer 4. -/
def labAt (o : Nat) : Loc := .mem (0x10000 + o) { onCoreAttr with off := o }

/-- The clutch names the node at 0x200 of buffer 4 as its target; the node's pool is at 0x400. -/
def labNode (appended rs pool : Nat) : State :=
  let n : Clutch := { (default : Clutch) with
    id := 50, cardAddr := buf4 0x200, phase := .queued, pool := pool,
    card := [0, buf4 0x400, BitVec.ofNat 64 (rs * 2 ^ 32 + 4), 0, 0, 0, 8] }
  let s := (labX [(2, ⟨buf4 0x200, false⟩)]).modClutch 1 fun c => { c with targets := [buf4 0x200], card := [0, 0, 0, 0, 0, 0, 0x20000] }
  ({ s with clutches := s.clutches ++ [n] } : State).modTeam 3 fun t => { t with appended := appended }

theorem witness_TaskWords : (∀ s ∈ [labNode 0 8 0, labNode 0 16 0, labNode 2 8 0, labNode 0 8 4], s.views = [labView s] ∧ (labView s).guard tg = true
      ∧ (labView s).rd (.x 2) = ⟨buf4 0x200, false⟩ ∧ (s.taskPlace (labView s) (buf4 0x200) 128 128 .r).1 = .ok (labAt 0x200)
      ∧ ((s.taskPlace (labView s) (buf4 0x200) 128 128 .r).2.clutch? 1).map (fun c => (c.targets, c.smax)) = some ([buf4 0x200], 2)
      ∧ ((s.taskPlace (labView s) (buf4 0x200) 128 128 .r).2.team? 3).isSome = true
      ∧ ((s.taskPlace (labView s) (buf4 0x200) 128 128 .r).2.nodeAt 0 (buf4 0x200)).map (fun n => (n.id, n.count)) = some (50, 4))
    ∧ (NMap.get (labView (labNode 0 8 0)).fib.x 5).p = false ∧ (lab.clutch? 1).map (·.targets) = some []
    ∧ ((labNode 0 8 0).nodeAt 0 (buf4 0x200)).map (·.rsize) = some 8 ∧ ((labNode 0 16 0).nodeAt 0 (buf4 0x200)).map (·.rsize) = some 16
    ∧ ((labNode 2 8 0).team? 3).map (·.appended) = some 2 ∧ ((labNode 0 8 4).nodeAt 0 (buf4 0x200)).map (·.pool) = some 4 := by
  decide +kernel

theorem witness_TaskWords_slot : placeOf ((((labNode 0 8 0).taskPlace (labView (labNode 0 8 0)) (buf4 0x200) 128 128 .r).2.taskRelease
      (labView (labNode 0 8 0))).hubReach 0 (buf4 0x400) 8 8 .w .store .store 0).1 = some (labAt 0x400) := by decide +kernel

/-- A team whose fibres stand at a point, with a checkpoint area in buffer 4. -/
def labPoint (p : Point) (h : Hold) (o : Bool) : State :=
  let s := { lab with running := [], pods := [(0, { (default : Pod) with tlb := [⟨0, 0, 2 ^ 20, 0, 0x200003, 0, 0x80000000⟩] })] }
  ((s.modFib labFib fun f => { f with hold := h, busy := false }).modClutch 1 fun c =>
    { c with card := [0, 0, 0, 1 <<< 58, buf4 0] }).modTeam 3 fun t => { t with point := p, rOpen := o }

theorem witness_RegionsOpenAndCommit : (let s := lab.modClutch 1 fun c => { c with card := [0, 0, 0, 1 <<< 58] }
      s.views = [labView s] ∧ (s.clutch? 1).map (·.ckpt) = some true)
    ∧ lab.views = [labView lab] ∧ (lab.clutch? 1).map (·.ckpt) = some false ∧ (labView lab).fib.hold = .free ∧ (labView lab).fib.waits = []
    ∧ (labView lab).team.point = .none ∧ (∀ f ∈ lab.teamFibres 3, f = (labView lab).fib)
    ∧ (∃ f ∈ labFull.teamFibres (labView labFull).team.id, f.fid ≠ (labView labFull).fib.fid ∧ f.hold.isRegb = false)
    ∧ (∀ s ∈ [labPoint .regc .regc true, labPoint .regb (.regb 8 0) true, labPoint .ending .free false, labPoint .split .free false],
        (s.team? 3).map (fun t => (t.id, s.pointReady t, s.heldByCmd t, t.writing)) = some (3, true, false, false) ∧ s.teamFibres 3 ≠ []
          ∧ placeOf (s.reachHalf ((s.team? 3).getD default)).1 ≠ none ∧ placeOf ((s.commit 3).reachHalf ((s.team? 3).getD default)).1 ≠ none) := by
  decide +kernel

/-- The team writes its checkpoint; a command of its writes to its scratchpad at the point. -/
def labWriting : State := (labPoint .regb (.regb 8 0) false).modTeam 3 fun t => { t with writing := true }
def labSpadCopy : State :=
  { labPoint .regb (.regb 8 0) true with
    cmds := [newCmd 80 ⟨.cvx, 0, 3, 1, labFib, 0, none, [0x10, 0, buf4 0, 0x100, 1, 0, 0, 0], 0, 77, 0, none, none, false⟩ 0] }
theorem witness_RegionsOpenAndCommit_regb : (labWriting.team? 3).map (fun t => (labWriting.pointReady t, labWriting.heldByCmd t, t.writing))
      = some (true, false, true) ∧ placeOf (labWriting.reachHalf ((labWriting.team? 3).getD default)).1 ≠ none
    ∧ (labSpadCopy.team? 3).map (fun t => (labSpadCopy.pointReady t, labSpadCopy.heldByCmd t)) = some (true, true) := by decide +kernel

def labOpen : State := lab.modTeam 3 fun t => { t with rOpen := true }

theorem witness_BreaksAndPrivilege : (∀ s ∈ [lab, labOpen, lab.modTeam 3 fun t => { t with brkRec := some 0 }], s.views = [labView s]
      ∧ (labView s).guard tg = true)
    ∧ (labView lab).team.rOpen = false ∧ (labView labOpen).team.rOpen = true ∧ (labView lab).team.brkRec = none
    ∧ (labView (lab.modTeam 3 fun t => { t with brkRec := some 0 })).team.brkRec ≠ none
    ∧ (lab.part (labView lab).team.part).configured = true := by decide +kernel

theorem witness_QueueControlWords : (∀ s ∈ [labX [(2, ⟨63, false⟩)], labX [(2, ⟨64, false⟩)]], s.views = [labView s] ∧ (labView s).guard tg = true
      ∧ (labView s).team.rOpen = false)
    ∧ (labView labOpen).team.rOpen = true ∧ labOpen.views = [labView labOpen]
    ∧ ((labView (labX [(2, ⟨63, false⟩)])).rd (.x 2)).v.toNat = 63 ∧ ((labView (labX [(2, ⟨64, false⟩)])).rd (.x 2)).v.toNat = 64
    ∧ (lab.qWord 0 63 1).extractLsb' 0 32 = 2000 ∧ (lab.qWord 0 63 1).extractLsb' 32 32 = 50000 ∧ lab.qWord 0 63 2 = 200000 := by
  decide +kernel
/-- Floor 5 and no limit broken, reserved bit 7 set, no timers, a T2 below T1. -/
theorem witness_QueueControlWords_limits : lab.queueTakes 0 63 0 0x51 ∧ ¬ lab.queueTakes 0 63 0 0x80 ∧ lab.queueTakes 0 63 1 0
    ∧ ¬ lab.queueTakes 0 63 1 0x00000064000000C8 ∧ lab.queueTakes 0 63 3 0xFF := by
  have h : lab.qWord 0 63 2 = 200000 := by decide +kernel
  refine ⟨⟨fun _ => by decide, fun h => absurd h (by decide), fun h => absurd h (by decide)⟩, fun w => ?_, ?_, fun w => ?_, ?_⟩
  · exact absurd (w.1 rfl).1 (by decide)
  · exact ⟨fun h => absurd h (by decide), fun _ => by rw [h]; simp only [QueueTimes]; decide, fun h => absurd h (by decide)⟩
  · exact absurd (w.2.1 rfl) (by rw [h]; simp only [QueueTimes]; decide)
  · exact ⟨fun h => absurd h (by decide), fun h => absurd h (by decide), fun h => absurd h (by decide)⟩

/-- The fibre stands at code in buffer 4: a header and the words after it. -/
def labCode (ws : List Nat) (o : Bool) : State :=
  let m := (ws.zipIdx.foldl (fun m w => m.setBytes (0x10000 + 4 * w.2) (leBytes 4 w.1)) Memory.empty)
  let s := (lab.modFib labFib fun f => { f with pc := buf4 0, busy := false }).modTeam 3 fun t => { t with rOpen := o }
  { s with running := [], mem := m } 

def clauseOf (r : Fetched Clause) : Option (List W32 × Nat) := match r with | .ok c => some (c.words, c.h.cls) | _ => none
def trapOf (r : Fetched Clause) : Option Nat := match r with | .trap c _ _ => some c | _ => none
def planned (s : State) (pipe : Nat) (split : Bool) : Option (List FibId × List Access × Bool) :=
  match s.fib? labFib, s.team? 3 with
  | some b, some t =>
    (match s.clauseAt t b.pc with
     | (.ok c, s1) =>
       let q := s1.oneRun labFib t b.pc c pipe split
       let p := q.2.planBatch q.1 c [labFib]
       if b.waited c.h.wait && b.room c && s.mtxRoom t c 1 && decide (s.unitFor t.core c.h.cls = some pipe) then
         some (p.fibs, p.plan, t.rOpen && p.s.needsSplit t c ([labFib].filterMap (p.s.view? q.1)) p.plan)
       else none
     | _ => none)
  | _, _ => none

/-- A `nop` clause, an acquire fence in an open region, and a header of zeros. -/
theorem witness_ClausesStart : (∀ s ∈ [labCode [0x10001FE0, 0x6A000000] false, labCode [0x22001FE0, 0xA0000000, 0x70088000] true, labCode [0] false],
      (s.fibres.map (·.fid)) = [labFib] ∧ s.pend = [] ∧ (s.team? 3).map (s.pointReady ·) = some true ∧ (s.grp? 3 0).isSome = true ∧ (s.core 0).mtx = [] ∧ s.running = []
        ∧ (s.fib? labFib).map (·.stands) = some true ∧ (s.team? 3).map (s.teamIssues ·) = some true)
    ∧ planned (labCode [0x10001FE0, 0x6A000000] false) 0 false = some ([labFib], [], false)
    ∧ planned (labCode [0x22001FE0, 0xA0000000, 0x70088000] true) 4 true = some ([labFib], [], true)
    ∧ trapOf ((labCode [0] false).clauseAt (((labCode [0] false).team? 3).getD default) (buf4 0)).1 = some 0x04 := by decide +kernel

/-- Two paths of one group, the second parked at cycle 0. -/
def labParked (clock : Nat) : State :=
  { lab with clock := clock, running := [],
             fibres := [{ newFibre ⟨3, 0, 0⟩ 0 default default 0 8 0 with entryAt := 5 }, { newFibre ⟨3, 0, 1⟩ 64 default default 0 8 0 with parked := true }] }

theorem witness_StarvationAndParking : (let s := labCode [0x10001FE0, 0x6A000000] false
      (s.fib? labFib).map (fun b => (decide (b.lastStart + 4096 ≤ s.clock), (s.team? 3).map fun t => (s.readyAt t b).isSome)) = some (true, some true))
    ∧ (labParked 70000).longestParked 0 = some { newFibre ⟨3, 0, 1⟩ 64 default default 0 8 0 with parked := true }
    ∧ (labParked 70000).poolUsed 0 ≤ 48 ∧ ((labParked 70000).team? 3).map (fun t => (t.core, t.phase)) = some (0, .resident)
    ∧ 0 + 65536 ≤ (labParked 70000).clock
    ∧ ((labParked 70000).grpFibres 3 0).map (fun y => (y.parked, y.pc, y.busy)) = [(false, 0, false), (true, 64, false)]
    ∧ ((labParked 70000).fibres.map (·.fid)).Nodup ∧ (labParked 60000).clock < 0 + 65536
    ∧ (let s := (labParked 70000).modFib ⟨3, 0, 0⟩ fun f => { f with busy := true }
       (s.grpFibres 3 0).map (fun y => (y.parked, y.busy, s.pathPc y)) = [(false, true, 0), (true, false, 64)]) := by decide +kernel

/-- One outstanding operation of the fibre at scratchpad or memory, number 70. -/
def labPend (loc : Loc) (act : OpAct) : State := { lab with pend := [{ labOp loc act with id := 70 }] }
def labSpad (b : Nat) (full : List Nat) (s : State) : State :=
  s.modTeam 3 fun t => { t with spad := Memory.empty.setBytes 0 (leBytes 8 b), full := full }

theorem witness_LoadsAndStoresComplete : (∀ loc ∈ [.spad 3 8, labMem 0x10000], ∀ act ∈ [OpAct.ld (some (.x 5)) 8 true false false false,
        .st 8 ⟨7, false⟩ default false],
      let s := labPend loc act
      let o : MemOp := { labOp loc act with id := 70 }
      s.op? 70 = some o ∧ s.mayPerform o = true ∧ s.barred o = false ∧ s.gone o = false ∧ s.away o = false
        ∧ (s.fib? o.fib).isSome = true ∧ (s.team? 3).isSome = true ∧ s.reps = [] ∧ s.regionOpen o.fib.team = false
        ∧ o.ord.order = .none)
    ∧ onCoreAttr.tag = none ∧ onCoreAttr.sc = false ∧ PageAttr.bypass onCoreAttr 0x10000 = false ∧ lab.isRemote 0x10000 = false
    ∧ spaceOf 0x10000 ≠ 4 := by decide +kernel

def labAtom : OpAct := .atom (some (.x 5)) 1 .cas true ⟨7, false⟩ ⟨0, false⟩
/-- The pod's combining buffer holds one reduction at the start of buffer 4. -/
def labComb : State :=
  { labPend (labMem 0x10000) (.red .add true ⟨7, false⟩) with
    pods := [(0, { (default : Pod) with tlb := [labLeaf], comb := [⟨0x10000, .add, true, 0, [70]⟩] })] }

theorem witness_AtomicsComplete : (let s := labPend (.spad 3 8) labAtom
      let o : MemOp := { labOp (.spad 3 8) labAtom with id := 70 }
      s.op? 70 = some o ∧ s.mayPerform o = true ∧ s.barred o = false ∧ s.gone o = false ∧ s.away o = false
        ∧ s.atomMates o = [o] ∧ (s.team? 3).map (fun x => x.spad.anyPois 8 8) = some false)
    ∧ ((labComb.pod 0).comb[0]?).map (·.ops) = some [70] ∧ (labComb.op? 70).map (·.act) = some (.red .add true ⟨7, false⟩)
    ∧ AtomOp.hasSuccess .add = false ∧ labComb.sliceOn (secBase 0x10000) = true
    ∧ secFind (labComb.pod 0).l1 (secBase 0x10000) none = none ∧ labComb.regionOpen 3 = false ∧ (labComb.homeNat 0x10000 8).2 = false := by
  decide +kernel

theorem witness_FullEmptyCompletes : (∀ act ∈ [OpAct.ld (some (.x 5)) 8 true true true false, .st 8 ⟨7, false⟩ default true],
      ∀ full ∈ [[], [0]],
      let s := labSpad 9 full (labPend (.spad 3 0) act)
      let o : MemOp := { labOp (.spad 3 0) act with id := 70 }
      s.op? 70 = some o ∧ s.inPlace o = true ∧ s.mayPerform o = true ∧ s.barred o = false ∧ s.feFirst o = true ∧ (s.fib? o.fib).isSome = true
        ∧ (s.team? 3).isSome = true ∧ s.isFull 3 (0 / 16) = !full.isEmpty) := by decide +kernel

/-- One operation of a signer on core 0. -/
def labCap : MtxCap := ⟨labFib, 1, false, 0, labMma, [], none, 0, 70, 0, 8, 1⟩
def labMtx (b : Bool) : State :=
  ({ lab with pend := [{ labOp (.spad 3 0) (.mma 0 0 0) with id := 70 }] } : State).modCore 0 fun c => { c with mtx := [⟨3, [labCap], b, []⟩] }

theorem witness_MatrixOperations : ((labMtx false).core 0).mtx = [] ++ ⟨3, [labCap], false, []⟩ :: [] ∧ ((labMtx true).core 0).mtx = ⟨3, [labCap], true, []⟩ :: []
    ∧ ((labMtx false).team? 3).isSome = true ∧ (mtxSupplier [labCap]).isSome = true ∧ labCap.mods.few = false
    ∧ (∀ p, (labMtx false).op? 70 = some p → (labMtx false).mayPerform p = true) := by
  refine ⟨by decide +kernel, by decide +kernel, by decide +kernel, by decide +kernel, by decide +kernel, fun p h => ?_⟩
  have e : (labMtx false).op? 70 = some { labOp (.spad 3 0) (.mma 0 0 0) with id := 70 } := by decide +kernel
  rw [e] at h; cases h; decide +kernel

/-- A command at the head of the copy engine's queue; commands of the engines, and what they leave. -/
def labCmdAt (p : CmdPhase) (w0 w1 : Nat) : Cmd :=
  { newCmd 80 { labQCmd labCopy none with words := [BitVec.ofNat 64 w0, BitVec.ofNat 64 w1] ++ labCopy.drop 2 } 0 with phase := p }
def labEng (c : Cmd) : State := { lab with cmds := [c] }
def labLock : Lock := ⟨99, .w, 0, some 4, 0, 0, 4096, false⟩
def labHeldQ : State := (labQueue 1 none).modPod 0 fun p => { p with locks := [labLock] }
def labAccept : State :=
  (labEng (labCmdAt (.failed 0x16 0) 0x10 0)).modClutch 1 fun c => { c with card := [0, 0, 0, 0, 8] }

def ranKind {α : Type} (r : Ran α) : Nat := match r with | .ok _ => 0 | .fail _ _ => 1 | .wait _ => 2 | .idle => 3 | .ask _ => 4
def placeAns (r : Ran Place) : Option Loc := match r with | .ok p => some p.loc | _ => none

/-- The host denied the copy; the header of a graph lies in no buffer. -/
def labDenied : State := (labQueue 0 none).setQueue 0 .cvx [{ labQCmd labCopy none with denied := some (buf4 0) }]
def labGraphless : State :=
  (labQueue 0 none).setQueue 0 .cut [{ labQCmd [0x30, 0, mkAddr 5 0, buf4 0x100, 1, buf4 0x200, buf4 0x300, buf4 0x380] none with q := .cut }]
/-- How the reading of the record that sizes each queued command's ranges ends. -/
def extraKind (s : State) (code : Nat) (q : EQueue) : List Nat :=
  ((s.queue 0 q).filter fun c => cmdCode c.words == code).map fun c => ranKind ((newCmd s.fresh c s.clock).extra s.newId.2).1

/-- Mode 2: denied commands of both slices wait for the collective engine, which last took one of slice 0. -/
def labTurn (part : Nat) : QCmd := { labQCmd labCopy none with q := .coll, part := part, denied := some (buf4 0) }
def labTwo : State := (({ lab with mode := 2 } : State).setQueue 0 .coll [labTurn 0]).setQueue 400 .coll [labTurn 1]
theorem witness_CommandsAcceptedAndComplete_turn : labTwo.turnOk 0 .coll 0 = false ∧ labTwo.turnOk 400 .coll 1 = true
    ∧ labTwo.serReady (labTurn 0) = true ∧ (labQueue 1 none).turnOk 0 .cvx 0 = true ∧ labGraphless.turnOk 0 .cut 0 = true := by decide +kernel

theorem witness_CommandsAcceptedAndComplete : (labQueue 1 none).queue 0 .cvx = [labQCmd labCopy none]
    ∧ (labQueue 1 (some 0)).queue 0 .cvx = [labQCmd labCopy (some 0)]
    ∧ ((labQueue 1 (some 0)).team? 3).map (fun t => NMap.get t.slots 0) = some .pending
    ∧ (((labQueue 1 (some 0)).modTeam 3 fun t => { t with slots := [(0, .drop)] }).team? 3).map (fun t => NMap.get t.slots 0) = some .drop
    ∧ (labQueue 1 none).serReady (labQCmd labCopy none) = true
    ∧ ((labQueue 1 none).pod (podOf 0)).locks = [] ∧ lockCount ((labQueue 1 none).pod (podOf 0)).locks = 0
    ∧ (∀ c ∈ labDenied.queue 0 .cvx, labDenied.serReady c = true ∧ c.fault = none ∧ c.slot = none)
    ∧ (∀ c ∈ labGraphless.queue 0 .cut, labGraphless.serReady c = true ∧ c.fault = none ∧ c.slot = none)
    ∧ (labDenied.queue 0 .cvx).map (·.denied) = [some (buf4 0)]
    ∧ extraKind labGraphless 0x30 .cut = [1] ∧ extraKind (labQueue 1 none) 0x10 .cvx = [0]
    ∧ (let x := newCmd labHeldQ.fresh (labQCmd labCopy none) labHeldQ.clock
       ∃ l ∈ (cmdSpans labCopy default).flatMap (labHeldQ.newId.2.locksOf x), ∃ m ∈ (labHeldQ.pod (podOf 0)).locks, l.conflicts m = true)
    ∧ (∀ c ∈ [labCmdAt .finished 0x10 0, labCmdAt .finished 0x10010 0, labCmdAt (.failed 0x16 0) 0x10 0],
        (labEng c).cmd? 80 = some c ∧ c.hold = .free)
    ∧ fieldOf (wordAt (labCmdAt .finished 0x10 0).c.words 0) 19 16 = 0 ∧ fieldOf (wordAt (labCmdAt .finished 0x10010 0).c.words 0) 19 16 = 1
    ∧ (let c := labCmdAt .finished 0x10010 0
       placeAns (c.target ((labEng c).performAt c)).1 = some (.spad 3 0))
    ∧ (labAccept.clutch? 1).map (·.accept) = some true := by decide +kernel

/-- A copy that its engine finds well formed, one whose element size is not listed, one whose page is missing. -/
def labRun (ws : List Word) : Cmd := newCmd 80 { labQCmd labCopy none with words := ws } 0

theorem witness_EngineRowsRun : (∀ c ∈ [labRun labCopy, labRun [0x10, 0, buf4 0, mkAddr 5 0, 1, 0, 0, 0], labRun [0x10, 0, buf4 0, buf4 0x80000, 1, 0, 0, 0]],
      (labEng c).cmd? 80 = some c ∧ c.hold = .free ∧ c.phase = .accepted ∧ cmdCode c.c.words = 0x10)
    ∧ [labRun labCopy, labRun [0x10, 0, buf4 0, mkAddr 5 0, 1, 0, 0, 0], labRun [0x10, 0, buf4 0, buf4 0x80000, 1, 0, 0, 0]].map
        (fun c => ranKind (c.copy (labEng c)).1) = [0, 1, 2] := by decide +kernel

/-- Words at places of buffer 4. -/
def labWords (ws : List (Nat × Nat)) : Memory := ws.foldl (fun m w => m.setBytes (0x10000 + w.1) (leBytes 8 w.2)) Memory.empty
/-- A stream of two 8-byte elements, its ring one slot of one granule. -/
def labStream (code : Nat) : List Word := [BitVec.ofNat 64 code, 0, buf4 0, 0x20003, 0x800000000, 0, 0, 0x10001]
/-- A graph of one root without children, and a view. -/
def labGraph : Memory :=
  labWords [(0, (buf4 0x400).toNat), (16, 1), (24, 1), (0x408, 0x01FFFFFF00000000), (0x108, 0x3F80000000000000), (0x110, 0x3F800000), (0x200, 1)]
/-- A table of two live members, of which this package is rank 0. -/
def labTable : Memory := labWords [(0x1000, 2), (0x1040, 3), (0x1100, 0x100000000)]
def labSelect : Cmd := labRun [0x30, 0, buf4 0, buf4 0x100, 0x3F80000000000001, buf4 0x200, buf4 0x300, buf4 0x380]
def labTrace : Cmd := labRun [0x20, 0, buf4 0, buf4 0x100, 0, buf4 0x200, buf4 0x300, 0]
def labTreed : State := { labEng labTrace with trees := [([0], [])] }
def labRaster : Cmd := labRun [0x40, 0, buf4 0, buf4 0x100, 0, buf4 0x200, buf4 0x300, 0x0001000100000000]
def labColl (p : CmdPhase) (snap : List Byte) : Cmd :=
  { labRun [0x52, 0, 0, 0, 0, buf4 0x1000, 0, 0] with phase := p, snap := snap }
def labSnap : List Byte := bytesOfWords ([2, 0, 0, 0, 0, 0, 0, 0, 3] ++ List.replicate 23 0 ++ [0x100000000])

theorem witness_EngineWorkResults : ([0x01, 0x02].map fun k => ranKind ((labRun (labStream k)).streamBegin (labEng (labRun (labStream k)))).1) = [0, 0]
    ∧ ranKind (Cmd.fillSlot { labRun (labStream 1) with phase := .running } (labEng (labRun (labStream 1)))).1 = 0
    ∧ ranKind (Cmd.drainSlot { labRun (labStream 2) with phase := .running } (labSpad 5 [0] (labEng (labRun (labStream 2))))).1 = 0
    ∧ ranKind ((labRun labCopy).copy (labEng (labRun labCopy))).1 = 0 ∧ ranKind (labTrace.rays (fun _ => true) labTreed).1 = 0
    ∧ ((labEng (labRun (labStream 1))).team? 3).isSome = true := by decide +kernel
theorem witness_EngineWorkResults_cut : ranKind (labSelect.select { labEng labSelect with mem := labGraph }).1 = 0
    ∧ ranKind (labRaster.raster (labEng labRaster)).1 = 0 := by decide +kernel
theorem witness_EngineWorkResults_coll : ranKind ((labColl .accepted []).collBegin { labEng (labColl .accepted []) with mem := labTable }).1 = 0
    ∧ ranKind ((labColl .running labSnap).collEnd [0, 1] [(1, [0, 1, 3])] { labEng (labColl .running labSnap) with mem := labTable }).1 = 0 := by
  decide +kernel

/-- A dirty sector of buffer 4 in the pod's L1. -/
def labDirty : Sector := { (default : Sector) with base := 0x10000, full := true, en := 0xFF, data := 0x55, writers := [labFib] }
def labL1 : State := { lab with pods := [(0, { (default : Pod) with l1 := [labDirty] })] }
/-- A page table that maps the first pages; a walk for buffer 4, and one for a page that is not mapped. -/
def labPt : State :=
  { lab with parts := [(0, { labPart with ptroot := 0x20000, frbase := 0x100000 })],
             mem := ((Memory.empty.setBytes 0x20000 (leBytes 8 0x30001)).setBytes 0x30000 (leBytes 8 0x40001)).setBytes 0x40000 (leBytes 8 0x200003) }
def labWalk (va : Nat) : Walk := ⟨60, 0, va, buf4 0, 0, 0, .load, [0], false, []⟩
def labWalks (va : Nat) : State := { labPt with walks := [labWalk va] }
def labFault (num : Option Nat) : FaultRec := ⟨60, 0, [1, 2, 3, 4], num, 0⟩
def leafAns (r : Except WalkFail Tlb) : Bool := match r with | .ok _ => true | _ => false

theorem witness_MemoryEvents : secFind (labL1.pod 0).l1 0x10000 none = some labDirty ∧ labDirty.dirty = true ∧ labL1.sliceOn 0x10000 = true
    ∧ (∀ va ∈ [0, 0x40000000], (labWalks va).walks.find? (fun w => w.id == 60) = some (labWalk va) ∧ (labWalks va).hasWalker 60 = true
      ∧ (labWalk va).quiet = false ∧ (labWalk va).fills = [] ∧ (labWalks va).fillWait = [])
    ∧ leafAns ((labWalks 0).walk 0 0).1 = true ∧ leafAns ((labWalks 0x40000000).walk 0 0x40000000).1 = false
    ∧ (labWalks 0x40000000).faults = []
    ∧ (let s : State := { labPt with faults := [labFault none] }
       s.faults.find? (fun f => f.part == 0 && f.num.isNone) = some (labFault none) ∧ (s.part 0).configured = true
         ∧ (s.part 0).ftail - (s.part 0).fhead < 2 ^ (s.part 0).frlog ∧ (s.part 0).frbase + 32 * 2 ^ (s.part 0).frlog < 2 ^ 52)
    ∧ (let s : State := { lab with fillWait := [(1, labDirty)] }
       fwDead (s.frame 1) = true ∧ s.stacksOff.contains 1 = false ∧ ∃ x ∈ s.fillWait, x.1 = 1) := by decide +kernel

theorem witness_DeviceEvents : lab.badPc.contains 70 = false ∧ NMap.get lab.caTries 70 = 0
    ∧ NMap.get { lab with caTries := [(70, 2)] }.caTries 70 = 2 ∧ lab.actCount 1 6 3 9 < 512
    ∧ (let s : State := { lab with acts := [((1, 6, 3, 9), 1023)] }
       512 ≤ s.actCount 1 6 3 9 ∧ 1023 ≤ s.actCount 1 6 3 9 ∧ s.heldBanks.contains (1, 6, 3) = false)
    ∧ (let s : State := { lab with ports := [(1, ⟨true, 4095, 15⟩), (2, ⟨true, 0, 16⟩)], cxl := [(0, ⟨true, 10⟩)] }
       (NMap.get s.ports 1).up = true ∧ 4096 ≤ (NMap.get s.ports 1).replays + 1 ∧ (NMap.get s.ports 2).replays + 1 < 4096
         ∧ (NMap.get s.ports 1).tries = 15 ∧ (NMap.get s.ports 2).up = true ∧ (NMap.get s.ports 2).tries = 16
         ∧ (NMap.get s.cxl 0).up = true ∧ 5 ≠ s.pkg) := by decide +kernel

/-- A load of another package's memory, before and after its request was sent. -/
def labAway (sent : Bool) : State :=
  { lab with pend := [{ labOp (.mem (3 * 2 ^ 52 + 5 * 2 ^ 39) onCoreAttr) (.ld (some (.x 5)) 8 false false false false) with id := 70, sent := sent }] }

theorem witness_PackageAccesses : (∀ b ∈ [false, true],
      let o : MemOp := { labOp (.mem (3 * 2 ^ 52 + 5 * 2 ^ 39) onCoreAttr) (.ld (some (.x 5)) 8 false false false false) with id := 70, sent := b }
      (labAway b).op? 70 = some o ∧ (labAway b).away o = true ∧ (labAway b).mayPerform o = true ∧ (labAway b).barred o = false
        ∧ (labAway b).gone o = false ∧ ((labAway b).fib? o.fib).isSome = true)
    ∧ onCoreAttr.tag = none ∧ lab.received.contains (7, 2) = false ∧ lab.fillWait = []
    ∧ ({ lab with received := [(7, 2)] } : State).received.contains (7, 2) = true
    ∧ lab.sliceOn (secBase (0x10000 % 2 ^ 39)) = true := by decide +kernel

/-- The fibre has just written x5. -/
def labProof : State := lab.modFib labFib fun f => { f with unproven := [(.x 5, 10000)] }

theorem witness_ChecksFail : (lab.fib? labFib).isSome = true ∧ CheckSite.core? (.pipe 0 0 0) = some 0 ∧ CheckSite.row (.pipe 0 0 0) ≤ 2
    ∧ lab.lastFail = [] ∧ labProof.resultOpen labFib (.x 5) = true ∧ lab.saving (labView labOpen).team = false ∧ (labView lab).team.phase = .resident ∧ (labView lab).team.rOpen = false ∧ (labView labOpen).team.rOpen = true
    ∧ (labView lab).team.betweenInstances = false ∧ labAccept.accepts (labView lab).team = true
    ∧ (let s : State := { lab with lastFail := [(.sfu 0, 5)] }
       s.lastFail.find? (fun x => x.1 == .sfu 0) = some (.sfu 0, 5) ∧ 5 ≤ s.clock ∧ s.clock - 5 ≤ 3300 * 600000000
         ∧ s.retired.contains (.sfu 0) = false ∧ (s.core 0).fenced = false) := by decide +kernel

/-- The cluster of the lab to be saved, and saved. -/
def labSaving : State := ({ lab with running := [] } : State).modCluster 2 fun c => { c with preempt := true }
def labSaved : State := (({ lab with running := [] } : State).modCluster 2 fun c => { c with phase := .saved }).modTeam 3 fun t => { t with phase := .saved }
def labFailed : State :=
  ({ lab with running := [] } : State).modTeam 3 fun t => { t with rOpen := true, failing := some (.sfu 0), ckpt := some { (default : Ckpt) with fibres := [newFibre labFib 0 default default 0 8 0] } }

theorem witness_ClustersMove : (∀ s ∈ [labSaving, labSaved, labFailed], (s.cluster? 2).isSome = true)
    ∧ (labSaving.cluster? 2).map (fun c => (c.phase, c.preempt)) = some (.resident, true) ∧ labSaving.clusterFailing 2 = false
    ∧ (∀ t ∈ labSaving.clusterTeams 2, labSaving.savable t = true)
    ∧ (labSaved.cluster? 2).map (fun c => (c.phase, labSaved.forestalled c, (labSaved.restorable c 5).isSome)) = some (.saved, false, true)
    ∧ labSaved.power = .on ∧ (labFailed.cluster? 2).map (·.phase) = some .resident := by
  decide +kernel
theorem witness_ClustersMove_replay : ((labFailed.team? 3).map fun t => decide (labFailed.clusterTeams 2 = [t])) = some true
    ∧ ((labFailed.team? 3).map fun t => (labFailed.replayable t, t.rOpen, t.fatal, t.replay)) = some (true, true, false, 0)
    ∧ (labFailed.team? 3).bind (·.failing) = some (.sfu 0) := by decide +kernel

def labIdle (p : Phase) : State := (lab.modTeam 3 fun t => { t with idle := 3300 * 60000, phase := p }).modCore 0 fun c => { c with fenced := false }

theorem witness_Watchdog : ((labIdle .resident).team? 3).map (fun t => (t.phase, t.idleActed, decide ((labIdle .resident).qT1 t.part ((labIdle .resident).teamQueue t) ≠ 0),
        decide (3300 * (labIdle .resident).qT2 t.part ((labIdle .resident).teamQueue t) ≤ t.idle))) = some (.resident, false, true, true)
    ∧ ((labIdle .resident).clutch? 1).map (·.killed) = some none
    ∧ (let s : State := ({ lab with clock := 3300 * 1000 }).modCore 0 fun c => { c with fenced := true }
       (s.core 0).fenced = true ∧ (s.core 0).fencedAt + 3300 * 1000 ≤ s.clock)
    ∧ (let s : State := { labIdle .dying with clock := 3300 * 200000 }
       (s.team? 3).map (fun t => (t.phase, decide ((s.clutchOf t).killAt + 3300 * (s.qT3 t.part (s.teamQueue t) - s.qT2 t.part (s.teamQueue t)) ≤ s.clock)))
         = some (.dying, true) ∧ (s.core 0).fenced = false) := by decide +kernel

/-- A small card: 8 fibres of 16 registers on one core, eight records at 0x1000, entry at the start of buffer 4. -/
def labCard (w2 : Nat) : List Word := [buf4 0, buf4 0x1000, BitVec.ofNat 64 w2, 0x11010100] ++ List.replicate 12 0
def labOk : List Word := labCard (2 ^ 48 + 8 * 2 ^ 32 + 8)
def labSub : Sub := ⟨90, 0, buf4 0, some 3, 0, none, 0, labTrap, false, 0, .free⟩
def labSubmitted (ws : List Word) : State :=
  { lab with subs := [labSub], mem := ws.zipIdx.foldl (fun m w => m.setBytes (0x10000 + 8 * w.2) (leBytes 8 w.1.toNat)) Memory.empty }
def labClutch (p : CardPhase) : Clutch := { (default : Clutch) with id := 91, card := labOk, phase := p, seq := 5, spans := [(0, 64, true)] }

/-- A card with a list of targets at 0x2000 of buffer 4. -/
def labTargets : State := { lab with mem := labWords [(0x2000, 2), (0x2008, 0x400000000000), (0x2010, 0x400000000080)] }
theorem witness_CardsAreTaken_targets : (match labTargets.readTargets 0 (buf4 0x2000) 0 8 with | (.ok l, none, _) => l.length | _ => 0) = 8 := by
  decide +kernel

theorem witness_CardsAreTaken : (∀ ws ∈ [labOk, labCard 0], (labSubmitted ws).subs.find? (fun x => x.id == 90) = some labSub
      ∧ (match (labSubmitted ws).readCard 0 (buf4 0) 0 with | (.ok v, none, _) => v | _ => []) = ws)
    ∧ (let c : Clutch := { (default : Clutch) with card := labOk }
       c.fieldsOk = true ∧ c.shapeOk = true ∧ lab.coresOk c = true ∧ (lab.addressesOk 0 c.addresses).1 = true ∧ c.smax = 0 ∧ c.queue = 0)
    ∧ ({ (default : Clutch) with card := labCard 0 } : Clutch).fieldsOk = false
    ∧ lab.qEn 0 0 = true ∧ lab.depth 0 0 < 4096
    ∧ ({ lab with clutches := [labClutch .intake] } : State).intakeFirst 0 = some (labClutch .intake)
    ∧ ({ lab with clutches := [labClutch .intake] } : State).rangeEntries + (labClutch .intake).nrange ≤ 4096 := by decide +kernel

/-- The card in flight on an idle device; a card that no core admits, and a cluster of less urgency. -/
def labFlight : State := { labBare with power := .on, clutches := [labClutch .queued] }
def labBig : Clutch := { labClutch .queued with card := [buf4 0, buf4 0x1000, 0x1000800000008, 0xFFFF11010100], prio := 0 }
def labStarve : State :=
  { labFlight with clock := 10 ^ 7, clutches := [labBig], clusters := [{ (default : Cluster) with id := 92, prio := 3, phase := .resident }] }
def labDone : Clutch := { labClutch .queued with dealt := 8 }

theorem witness_ChunksAndRetirement : labFlight.clutch? 91 = some (labClutch .queued) ∧ labFlight.power = .on
    ∧ labFlight.awaiting (labClutch .queued) = true ∧ labFlight.savedOf (labClutch .queued) = [] ∧ labFlight.outdone (labClutch .queued) = false
    ∧ (labClutch .queued).coRes = false
    ∧ ((labClutch .queued).word 3).getLsbD 57 = false ∧ (labFlight.placeable (labClutch .queued) 0).isSome = true
    ∧ (labFlight.freeSlot (labClutch .queued) ((labClutch .queued).slots.getD (labFlight.slotCount (labClutch .queued)))).isSome = true := by
  decide +kernel
theorem witness_ChunksAndRetirement_preempt : labStarve.starves labBig = true
    ∧ (∀ y ∈ labStarve.clusters, labBig.displaces y = true ∧ y.prio = 3) ∧ labStarve.rectFree labBig = false := by decide +kernel
theorem witness_ChunksAndRetirement_retire : let s : State := { labFlight with clutches := [labDone] }
    s.clutch? 91 = some labDone ∧ s.allDone labDone = true ∧ labDone.node = false ∧ labDone.remaining = 0 ∧ (s.part labDone.part).configured = true := by
  decide +kernel

/-- A head of 8 by 8 pixels on encoder 0, and an encoder with its ring at 0x8000 and pointers at 0. -/
def labHead : Head := { (default : Head) with words := [buf4 0x1000, 0x0008000800000040, 0x000003E800000001, 0] }
def labEncW (p : Word) (on : Nat) : List Word := [buf4 0x1000, p, 0x1000000000000000, 0x0000000100000000, 0, BitVec.ofNat 64 on, 0]
def labEnc (p : Word) (on : Nat) (i : List Frame) : Enc := { (default : Enc) with words := labEncW p on, input := i }
def labFrame : Frame := ⟨0, 0, 0, 8, true, List.replicate 64 0⟩
def labMedia (p : Word) (on : Nat) (i : List Frame) : State :=
  { lab with heads := [(0, labHead)], encs := [(0, labEnc p on i)] }
def ringAns (r : Except (Option Nat) (Loc × Nat × Nat)) : Option (Nat × Nat) := match r with | .ok x => some x.2 | _ => none
def ringErr (r : Except (Option Nat) (Loc × Nat × Nat)) : Bool := match r with | .error none => true | _ => false

/-- The places of an entry's words cannot be computed here: its length is the free one of log 12. -/
theorem witness_FramesAreEncoded_read : (labMedia (buf4 0) 1 []).headReads labHead = true
    ∧ labHead.early.length < labHead.height * labHead.rowWords ∧ labHead.begun = none := by decide +kernel
/-- White and black of BT.709 in 10-bit limited range are 940 and 64; a NaN and a negative component are 0 (R410). -/
theorem test_luma : lumaCode false 0x3C003C003C003C00 = 940 ∧ lumaCode false 0x3C007E00BC000000 = 64 ∧ lumaCode true 0x00FFFFFF = 940
    ∧ chromaSums true 0x00FFFFFF = (512 * 18556 * 255, 512 * 15748 * 255)
    ∧ chromaCode (512 * 18556 * 255) (18556 * 255) = 512 := by decide +kernel
theorem witness_FramesAreEncoded_chroma : 0 < 18556 * 255 ∧ 64 * (18556 * 255) ≤ 512 * 18556 * 255 ∧ 512 * 18556 * 255 ≤ 960 * (18556 * 255) := by
  decide
theorem witness_FramesAreEncoded : labHead.on = true ∧ labHead.enc = 0 ∧ labHead.width % 8 = 0 ∧ labHead.width = 8 ∧ labHead.start = none
    ∧ (labEnc (buf4 0) 1 []).on = true ∧ (labEnc (buf4 0) 1 []).input = [] ∧ (labEnc (buf4 0) 0 []).on = false
    ∧ ringAns ((labMedia (buf4 0) 1 [labFrame]).ringPointers 0 (labEnc (buf4 0) 1 [labFrame])).1 = some (0, 0)
    ∧ ringErr ((labMedia (mkAddr 5 0) 1 [labFrame]).ringPointers 0 (labEnc (mkAddr 5 0) 1 [labFrame])).1 = true := by
  decide +kernel

/-- A command of seven words. -/
def cmd7 (q : Byte) (ws : List Nat) : HostCmd :=
  let w := fun k => BitVec.ofNat 64 (ws.getD k 0)
  ⟨0, q, w 0, w 1, w 2, w 3, w 4, w 5, w 6⟩

/-- FRAME 9: mapped at its own place, in profile 5; PROFILE 5 with the plain masks. -/
theorem witness_MemoryCommands : lab.hasFn 0 = true ∧ (lab.part 0).configured = true
    ∧ (let c := cmd7 0 [9, 0x80510001]
       fieldOf c.w2 63 32 = 0 ∧ fieldOf c.w2 29 27 = 0 ∧ c.w2.getLsbD 19 = false ∧ lab.frameOwned 0 c.w1.toNat = true
        ∧ lab.stacksOff.contains (fwStack c.w2) = false ∧ fwOwner c.w2 = ownerOf lab.mode (fwStack c.w2) ∧ fwOwner c.w2 = 0)
    ∧ (let c := cmd7 0 [8, 2]
       c.w1.toNat + c.w2.toNat ≤ 2 ^ 19 ∧ ∀ k ∈ span c.w1.toNat c.w2.toNat, lab.frameOwned 0 k = true)
    ∧ ([2, 4, 8, 16, 32, 1] : List Word).all (fun w => fieldOf w 63 12 == 0) = true ∧ independent [2, 4, 8, 16, 32, 1] = true
    ∧ (∀ x ∈ lab.frames, fwProfile x.2 = 5 → fwDead x.2 = true) := by decide +kernel

theorem witness_UnitCommands : labHead.ok = true ∧ lab.headPart 15 = 0 ∧ lab.encPart 7 = 0
    ∧ (labEnc (buf4 0) 1 []).ok = true ∧ (lab.grants 0 (buf4 0x1000) (2 ^ (labEnc (buf4 0) 1 []).rlog) [.w]).1 = true
    ∧ (lab.grants 0 (buf4 0) 16 [.w]).1 = true
    ∧ (NMap.get lab.encs 7).on = false ∧ ownerOf lab.mode (sectorOf 767) = 0
    ∧ (let s := lab.modTeam 3 fun t => { t with brkRec := some 4 }
       (s.brokenTeam 0 4).map (·.id) = some 3 ∧ (s.clutch? 1).map (·.killed) = some none)
    ∧ 100 + lab.otherCaps 0 ≤ 3600 ∧ (1 : Word) ≠ 0 ∧ (1000 : Word).toNat ≤ 1000 ∧ 1000 < (1001 : Word).toNat := by decide +kernel

/-- Tables in the first frames: buffers at 0, page table at 0x2000, checkpoints at 0x200000, journal at 0x10000. -/
def labTables : HostCmd := cmd7 0 [0x0300000000000000, 0x2000, 0x0007000000000000, 0x200000, 0x200000, 0x0C00000000020000, 0x100000]
def labOff : State := { lab with parts := [] }
def labIdleDev : State := { labBare with power := .on, parts := (List.range 1).map fun k => (k, { labPart with qrec := (List.range 64).map fun q => (3 * q, 0) }) }

theorem witness_TablesAndMode : tablesOk labTables = true ∧ (∀ r ∈ tableRuns labTables, lab.ownsRun 0 r.1 r.2 = true)
    ∧ labOff.hasFn 0 = true ∧ (labOff.part 0).configured = false ∧ (labBare.part 0).configured = true
    ∧ (labBare.modPart 0 fun p => { p with nextCmd := p.nextCmd + 1 }).sliceBusy 0 = false
    ∧ labIdleDev.clutches = [] ∧ labIdleDev.mode = 1 ∧ (∀ q ∈ List.range 64, labIdleDev.qEn 0 q = false) := by decide +kernel

theorem witness_CommandsAreRejected : lab.hasFn 0 = true ∧ (lab.part 0).configured = true ∧ lab.brokenTeam 0 9 = none
    ∧ (let s : State := { lab with mode := 2, parts := [(0, labPart), (1, labPart)] }
       s.hasFn 1 = true ∧ (s.part 1).configured = true ∧ s.frameOwned 1 0 = false) := by decide +kernel

/-- The fibre waits on record 0 of the fault ring. -/
def labReply : State :=
  ({ lab with faults := [labFault (some 0)], parts := [(0, { labPart with ftail := 1 })] } : State).modFib labFib fun f => { f with hold := .fault 60 0 1, busy := false }

theorem witness_FaultReplies_numbers : (lab.part 0).ftail ≤ (0 : Word).toNat ∧ (0 : Word).toNat < (labReply.part 0).ftail
    ∧ (let s : State := { lab with parts := [(0, { labPart with ftail := 1 })] }
       (0 : Word).toNat < (s.part 0).ftail ∧ s.faults.find? (fun x => x.part == 0 && x.num == some (0 : Word).toNat) = none) := by
  decide +kernel
theorem witness_FaultReplies : labReply.hasFn 0 = true ∧ (labReply.part 0).configured = true ∧ lab.faults.find? (fun x => x.part == 0 && x.num == some (0 : Word).toNat) = none
    ∧ labReply.faults.find? (fun x => x.part == 0 && x.num == some (0 : Word).toNat) = some (labFault (some 0))
    ∧ labReply.cmds = [] ∧ labReply.subs = [] ∧ labReply.joins = [] ∧ labReply.futs = [] ∧ (labReply.team? 3).map (·.pointFault) = some none
    ∧ (labReply.fib? labFib).map (fun b => (b.hold, b.trap, b.waits)) = some (.fault 60 0 1, none, []) := by decide +kernel

/-- A start in recovery after a FIRMWARE that booted, and one under way. -/
theorem witness_BootAndPower_firmware : (let s : State := { State.reset with power := .recovery, fwstat := 7 }
       s.power = .recovery ∧ s.fwstat = 7 ∧ s.fwJob = [])
    ∧ (let s : State := { State.reset with power := .recovery, fwJob := [4, 5] }
       s.power = .recovery ∧ s.fwJob ≠ [] ∧ s.fwstat ≠ 7)
    ∧ (let e : BootEnv := ⟨true, true, true, [3], [2], true, [0], [1, 2]⟩
       e.fwOk = true ∧ e.logOk = true ∧ e.pcieOk = true ∧ e.fnOk = true ∧ e.badStacks.contains 3 = true)
    ∧ ({ State.reset with flashOk := false } : State).power = .off ∧ 8 < 2 ^ 39 := by decide +kernel
theorem witness_BootAndPower : State.reset.power = .off ∧ State.reset.flashOk = true
    ∧ (let c := cmd7 0 [0x1000, 65536]
       fieldOf c.w1 63 48 = 0 ∧ fieldOf c.w2 63 32 = 0 ∧ fieldOf c.w3 63 2 = 0 ∧ firmwareOk c = true)
    ∧ lab.hasFn 0 = true ∧ (lab.part 0).configured = true ∧ lab.sliceOn (secBase 8) = true ∧ lab.fwJob = []
    ∧ ({ lab with sched := [⟨0, .firmware⟩] } : State).choice.act = .firmware := by decide +kernel

def labMail (obj : Nat) : State := { lab with parts := [(0, { labPart with mqueue := [(obj, ⟨1, 0⟩)], msiDue := [2], msiOpen := [2] })],
                                              events := [(4, 5, 6)] }

theorem witness_RegistersAndMailbox : lab.hasFn 0 = true ∧ (lab.part 0).jhead ≤ (0 : Word).toNat ∧ (0 : Word).toNat ≤ (lab.part 0).jtail
    ∧ (lab.part 0).jtail < (1 : Word).toNat ∧ (lab.part 0).fhead ≤ (0 : Word).toNat ∧ (0 : Word).toNat ≤ (lab.part 0).ftail
    ∧ (lab.part 0).mqueue = [] ∧ (∀ k ∈ [1, 2, 3, 4, 0x84], ((labMail k).part 0).mqueue = [(k, ⟨1, 0⟩)])
    ∧ lab.encPart 0 = 0 ∧ (labMail 3).events[0]? = some (4, 5, 6) ∧ (labMail 3).pkg < 1024 ∧ (labMail 3).pkgNext < 1024
    ∧ ((labMail 3).part 0).msiDue.contains 2 = true ∧ ((labMail 3).part 0).msiOpen.contains 2 = true
    ∧ NMap.get ((labMail 3).part 0).msiSent 2 = 0 := by decide +kernel

/-- A function whose request came later than another's; a tape that masks a vector; a message due at a masked vector. -/
theorem witness_RegistersAndMailbox_order : (let s : State := { lab with
        parts := [(0, { labPart with mqueue := [(1, ⟨1, 0⟩)], mqAt := 7 }), (1, { labPart with mqueue := [(1, ⟨1, 0⟩)], mqAt := 3 })], mode := 2 }
       (∃ x ∈ s.parts, x.1 ≠ 0 ∧ x.2.mqueue ≠ [] ∧ x.2.mqAt < (s.part 0).mqAt)
        ∧ ∀ x ∈ s.parts, x.1 = 1 ∨ x.2.mqueue = [] ∨ (s.part 1).mqAt ≤ x.2.mqAt)
    ∧ (doing (.mask 0 2)).choice.act = .mask 0 2
    ∧ (let s : State := { lab with parts := [(0, { labPart with msiDue := [1] })] }
       (s.part 0).msiDue.contains 1 = true ∧ (s.part 0).msiOpen.contains 1 = false ∧ NMap.get (s.part 0).msiSent 1 = 0) := by
  decide +kernel

theorem witness_StepKeepsMemory : (doing .idle).mem.wf = true ∧ lab.mem.wf = true := by decide +kernel
theorem witness_StepKeepsForms : (doing .idle).formed = true ∧ lab.formed = true ∧ (labPoint .regb (.regb 8 0) true).formed = true := by
  decide +kernel
theorem witness_StepKeepsLegal : (doing .idle).legal = true ∧ (nextOf (step (doing .idle))).isSome = true := by decide +kernel

/-! ## More witnesses: places in memory, lines, elements, siblings, accumulator cells -/

/-- One `atom` of two lanes at the start of buffer 4, at device scope or within the cluster. -/
def labAtoms (sc : Scope) : State :=
  { lab2 with pend := [{ labOp (labMem 0x10000) labAtom with id := 70, ord := ⟨.none, sc⟩ },
      { labOp (labMem 0x10000) labAtom with id := 71, fib := ⟨3, 0, 2⟩, ord := ⟨.none, sc⟩ }] }
theorem witness_AtomicsComplete_places : (∀ sc ∈ [Scope.dev, .team], let s := labAtoms sc
      let o : MemOp := { labOp (labMem 0x10000) labAtom with id := 70, ord := ⟨.none, sc⟩ }
      s.op? 70 = some o ∧ s.mayPerform o = true ∧ s.barred o = false ∧ s.gone o = false ∧ s.away o = false
        ∧ (s.atomMates o).map (·.id) = [70, 71] ∧ ((s.atomMates o).map (·.fib)).Nodup
        ∧ ((s.atomMates o).all fun q => s.unblocked q && q.core == o.core && (s.fib? q.fib).isSome) = true
        ∧ s.regionOpen 3 = false ∧ s.sliceOn (secBase 0x10000) = true ∧ (s.podNat 0 0x10000 8).2 = false
        ∧ ((s.podDrop 0 (secBase 0x10000)).homeNat 0x10000 8).2 = false)
    ∧ Scope.wide .dev = true ∧ Scope.wide .team = false ∧ onCoreAttr.far = false ∧ lab.isRemote 0x10000 = false ∧ podOf 0 = 0
    ∧ (labComb.op? 70).map (fun o => (labComb.lockedOut o, o.ord.order)) = some (false, .none)
    ∧ ((labComb.podDrop 0 (secBase 0x10000)).homeNat 0x10000 8).2 = false := by decide +kernel

/-- A write-back or an invalidation of the line whose first sector the pod has written. -/
def labLines (inv : Bool) (sc : Scope) : State :=
  { labL1 with pend := [{ labOp (labMem 0x10000) (.cwb inv [0x10000] 0) with id := 70, ord := ⟨.none, sc⟩, isLoad := false }] }
theorem witness_LinesComplete : (∀ inv ∈ [false, true], ∀ sc ∈ [Scope.dev, .sys], let s := labLines inv sc
      (s.op? 70).map (fun o => (s.mayPerform o, s.barred o, s.gone o, s.away o, o.ord.scope)) = some (true, false, false, false, sc)
      ∧ (s.op? 70).map (·.act) = some (.cwb inv [0x10000] 0))
    ∧ 0x10000 % 256 = 0 ∧ (∀ i ∈ List.range 4, labL1.sliceOn (secBase (0x10000 + 64 * i)) = true)
    ∧ labDirty.wpois = 0 ∧ labDirty.wclean = 0 ∧ labL1.badPc = [] ∧ fwDead (labL1.frame (frameOf 0x10000)) = false := by decide +kernel

/-- An element access at the start of buffer 4. -/
def labElem (act : OpAct) : State := labPend (labMem 0x10000) act
theorem witness_ElementsComplete : (∀ act ∈ [OpAct.lde (some (.x 6)) 16 0 .e2m1 true, .lde (some (.x 6)) 1 3 .cb2 false, .ldx (some (.x 6)) 4 0 .e4m3 .f32 none,
        .ldx (some (.x 6)) 1 7 .bf16 .f64 (some (labMem 0x18000)), .ste 8 0 .e4m3 ⟨7, false⟩ ⟨0, false⟩, .ste 1 0 .bf16 ⟨7, true⟩ ⟨0, false⟩],
      let s := labElem act
      let o : MemOp := { labOp (labMem 0x10000) act with id := 70 }
      s.op? 70 = some o ∧ s.mayPerform o = true ∧ s.barred o = false ∧ s.gone o = false ∧ s.away o = false ∧ o.got = [] ∧ o.served = []
        ∧ s.fillWait = [] ∧ s.reps = [] ∧ (s.fib? o.fib).isSome = true ∧ s.regionOpen 3 = false ∧ o.ord.order = .none)
    ∧ 0x10000 % 65536 = 0 ∧ 16 * EFmt.slot .e2m1 ≤ 128 ∧ 1 * EFmt.slot .cb2 ≤ 128 ∧ 4 * OutFmt.slot .f32 ≤ 128 ∧ 1 * OutFmt.slot .f64 ≤ 128
    ∧ 8 * EFmt.slot .e4m3 ≤ 128 ∧ lab.isRemote 0x18000 = false ∧ spaceOf 0x18000 < 4 := by decide +kernel

/-- A sibling page's attributes with the given operation when it is full, and cells: one with two slots, and a full one. -/
def labSibAttr (sop : Nat) : PageAttr := { onCoreAttr with sib := true, sop := sop, aux := 0x30000 }
def labSibOp (sop : Nat) (act : OpAct) : MemOp := { labOp (.mem 0x10000 (labSibAttr sop)) act with id := 70 }
def labSib (sop : Nat) (c : SibCell) (act : OpAct) : State := { lab with sib := [(0x30000, c)], pend := [labSibOp sop act] }
def labCell2 : SibCell := ⟨2, [(0, 5, false, 1), (1, 6, true, 2)]⟩
def labCell4 : SibCell := ⟨4, [(0, 5, false, 1), (1, 6, false, 2), (2, 7, false, 3), (3, 8, false, 4)]⟩
def labTok (seen slots : Nat) : RegCell := ⟨BitVec.ofNat 64 (seen + slots * 2 ^ 32), false⟩
theorem witness_SiblingsComplete : (∀ act ∈ [OpAct.sld (some (.x 6)) none, .sld (some (.x 6)) (some 1), .sst (some (.x 6)) true ⟨9, false⟩ (labTok 2 3),
        .srec (some (.x 6)) 1 .min false (labTok 2 3) none, .srec (some (.x 6)) 1 .add true (labTok 0 0) (some ⟨9, true⟩)],
      ∀ c ∈ [labCell2, labCell4, ⟨0xFFFFFFFF, []⟩, default], ∀ sop ∈ [0, 6], let s := labSib sop c act
      let o := labSibOp sop act
      s.op? 70 = some o ∧ s.mayPerform o = true ∧ s.barred o = false ∧ s.gone o = false ∧ s.away o = false ∧ o.ord.order = .none
        ∧ (s.fib? o.fib).map (·.trap) = some none ∧ s.sibCell (labSibAttr sop).shadow = c)
    ∧ isVoid 0x10000 = false ∧ 0x10000 % 8 = 0 ∧ lab.sliceOn (secBase 0x10000) = true ∧ labCell2.clock ≠ 0xFFFFFFFF := by decide +kernel

theorem witness_SiblingsComplete_ok : labCell4.ok := by
  refine ⟨fun k x h => ?_, fun j k x y h g e => ?_⟩
  · simp only [labCell4, SibCell.slot?, NMap.find] at h
    repeat' split at h
    all_goals cases h
    all_goals subst_vars; decide
  · simp only [labCell4, SibCell.slot?, NMap.find] at h g
    repeat' split at h
    all_goals cases h
    all_goals repeat' split at g
    all_goals cases g
    all_goals first | (subst_vars; rfl) | exact absurd e (by decide)

/-- An accumulator move of a team; an operation of the core's engine has started, or none. -/
def labMove (b : Bool) (loc : Loc) (act : OpAct) : State :=
  ({ lab with pend := [{ labOp loc act with id := 70 }] } : State).modCore 0 fun c => { c with mtx := if b then [⟨3, [labCap], true, []⟩] else [] }
theorem witness_AccumulatorMoves : (∀ x ∈ [(Loc.nowhere, OpAct.mrd (some (.x 5)) true 3), (.nowhere, .mrd (some (.x 5)) false 2), (.nowhere, .mwr false 2 ⟨7, true⟩),
        (.nowhere, .mwr true 3 ⟨7, false⟩), (.nowhere, .mzero 1 1), (.spad 3 16, .msts 1), (.spad 3 16, .mlds 1)], ∀ b ∈ [false, true],
      let s := labMove b x.1 x.2
      let o : MemOp := { labOp x.1 x.2 with id := 70 }
      s.op? 70 = some o ∧ s.mayPerform o = true ∧ s.barred o = false ∧ s.gone o = false ∧ s.away o = false ∧ (s.team? 3).isSome = true
        ∧ o.act.isMove = true ∧ (s.core 0).mtx.any (·.started) = b ∧ (s.fib? o.fib).isSome = true) := by decide +kernel

/-! ## More witnesses: what the engines compute -/

def placeOk (r : Ran Place) : Option (Loc × List Piece) := match r with | .ok p => some (p.loc, p.ps) | _ => none
def firstOf (r : Ran (Cmd → Cmd)) : Bool := match r with | .ok _ => true | _ => false

/-- The stream of two elements of 8 bytes fills its one slot, whose ring is the start of the scratchpad. -/
theorem witness_StreamsMoveBytes : (let c : Cmd := { labRun (labStream 1) with phase := .running }
      let l := layoutOf c.c.words
      EQueue.inPod c.c.q = true ∧ placeOk (c.sink (l.slotAddr c.slot) (16 * l.ssize) 16 none (labEng c)).1 = some (.spad 3 0, [])
        ∧ firstOf (c.fillSlot (labEng c)).1 = true ∧ 0 < l.esz ∧ 16 * l.ssize % l.esz = 0 ∧ l.first < l.scount ∧ l.ndim ≤ l.ext.length
        ∧ l.ndim ≤ l.str.length ∧ l.ext.take l.ndim = [2])
    ∧ lab.regionOpen 0 = false ∧ lab.fillWait = [] ∧ lab.isRemote 0x10000 = false ∧ (lab.team? 3).isSome = true
    ∧ (let c := labRun labCopy
       placeAns (c.side (buf4 0) 0 1 false (labEng c)).1 = some (labMem 0x10000)
        ∧ placeAns (c.side (buf4 0x100) 0 1 true (labEng c)).1 = some (.mem 0x10100 { onCoreAttr with off := 0x100 })
        ∧ firstOf (c.copy (labEng c)).1 = true ∧ (cvxOf labCopy).sfmt = 0 ∧ (cvxOf labCopy).dfmt = 0
        ∧ ((labEng c).sees c.pod 0x10000).2 = false) := by decide +kernel

/-- Zeros only, a number that fits a scaled format when shifted, and an infinity. -/
theorem witness_BlocksAreConverted : EFmt.e4m3 ≠ .cb2 ∧ EFmt.scaled .e4m3 = true ∧ EFmt.scaled .fp32 = false
    ∧ (convertBlock .e4m3 [(.fin false 0 0, false)]).1 = -128 ∧ (convertBlock .e4m3 [(.fin false 3 0, true)]).1 ≠ -128
    ∧ ([((FVal.fin false 3 0), true), (.inf true, false)] : List (FVal × Bool))[1]? = some (.inf true, false) := by decide +kernel

/-- Two members' messages of one element each. -/
def labMsgs : List CollMsg := [⟨0, 0, [3], [5, 0]⟩, ⟨1, 0, [3], [7, 1]⟩]
theorem witness_CollectiveResults : firstOf ((labColl .running labSnap).collEnd [0, 1] [(1, [0, 1, 3])]
      { labEng (labColl .running labSnap) with mem := labTable }).1 = true
    ∧ (labEng (labColl .running labSnap)).colls = [] ∧ labMsgs ≠ [] ∧ (∀ m ∈ labMsgs, CollMsg.elem m 0 < 2 ^ 32)
    ∧ (labMsgs.find? fun m => m.rank == 1).isSome = true ∧ CollMsg.pois ⟨1, 0, [3], [7, 1]⟩ 1 0 = true := by decide +kernel

/-- The unit matrix, FP32, and vertices of a triangle of a window of 16 by 16. -/
def labMat : List Nat := [0x3F800000, 0, 0, 0, 0, 0x3F800000, 0, 0, 0, 0, 0x3F800000, 0, 0, 0, 0, 0x3F800000]
def labRay (dz : Nat) : Ray := [0, 0, 0, 0, 0, 0, dz, 0x41200000]
def labTri (z : Nat) : List (List Nat) := [[0xBF800000, 0xBF800000, z], [0x3F800000, 0xBF800000, z], [0, 0x3F800000, z]]

theorem witness_RastersAndRays : (rastVert labMat [0, 0, 0] 16 16).isSome = true
    ∧ rastVert labMat [0x50000000, 0, 0] 16 16 = none ∧ (f32Val 0x50000000).isFin = true
    ∧ (triSamples [⟨0, 0, 0⟩, ⟨1024, 0, 0⟩, ⟨0, 1024, 0⟩] (1024 * 1024) 16 16 0 0 0) ≠ []
    ∧ (0 : Int) < (1024 - 0) * (1024 - 0) - (0 - 0) * (0 - 0)
    ∧ (labRay 0x3F800000).length = 8 ∧ Ray.live (labRay 0x3F800000) = true ∧ Ray.live (labRay 0) = false
    ∧ (hitTri (labRay 0x3F800000) 1 2 (labTri 0x3F800000)).isSome = true ∧ hitTri (labRay 0x3F800000) 1 2 (labTri 0xBF800000) = none
    ∧ ((hitTri (labRay 0x3F800000) 1 2 (labTri 0x3F800000)).map fun h => decide (0 < h.den)) = some true
    ∧ (labTri 0x3F800000).length = 3 ∧ (∀ p ∈ labTri 0x3F800000, p.length = 3 ∧ ∀ b ∈ p, (f32Val b).isFin = true)
    ∧ rayHits (labRay 0) [] = [] := by decide +kernel

/-- The copy's source lies in another package; a trace whose cluster is to be saved; a collective whose time is over. -/
def labFar : State :=
  { labEng (labRun labCopy) with pods := [(0, { (default : Pod) with tlb := [{ labLeaf with w0 := 3 * 2 ^ 52 + 5 * 2 ^ 39 + 0x10003 }] })] }
theorem witness_EngineRowsRun_more : ranKind ((labRun labCopy).copy labFar).1 = 4
    ∧ (let s := ({ labTreed with cmds := [labTrace] } : State).modCluster 2 fun c => { c with preempt := true }
       s.rayYields labTrace = true ∧ s.cmd? 80 = some labTrace ∧ labTrace.phase = .accepted ∧ cmdCode labTrace.c.words = 0x20
        ∧ ranKind (labTrace.rays ([0].contains) s).1 = 0)
    ∧ (let c := labColl .running labSnap
       let s : State := { labEng c with clock := 10 ^ 10 }
       s.cmd? 80 = some c ∧ s.coordinator c = some (tabSelf c.kept) ∧ 1 ≠ tabSelf c.kept ∧ 1 ∈ tabLive c.kept ∧ 1 ∉ c.lost
        ∧ s.sinceCmd c c.since (collOf c.c.words).tout = true)
    ∧ (∀ c ∈ [labCmdAt .finished 0x10 0, labCmdAt .finished 0x10010 0, labCmdAt (.failed 0x16 0) 0x10 0], (labEng c).writesOut c = false) := by
  decide +kernel

end Sys2Proof.Machine
end

section
/-! SUPPORT. The package's own registers (the partition mode, the package ids, FWSTAT) under every operation of the model:
`ownRegs` names them, one lemma an operation says that it leaves them as they are, and the few rows that write them keep
their values legal. O58 is assembled from these at the end.

Nearly every proof here has one shape. An operation is a tree of branches, and each branch updates other fields or calls
operations that have their lemma already: unfold, split along the branches, `simp` with the lemmas of what is called.
In a few proofs a callee is first made a variable of which only its lemma is known: the kernel would otherwise evaluate
it where it compares two branches. -/

namespace Sys2Proof.Machine

/-! ## The registers -/

/-- The package's own registers, of which `State.legal` speaks. -/
structure OwnRegs where
  mode : Nat
  pkg : Nat
  pkgNext : Nat
  fwstat : Nat
  fwJob : List Nat

def State.ownRegs (s : State) : OwnRegs := ⟨s.mode, s.pkg, s.pkgNext, s.fwstat, s.fwJob⟩

/-- An update of any other fields leaves them. -/
@[simp] theorem ownRegs_update (s : State) (a1 : List Choice) (a2 a3 : Nat) (a4 : Power) (a5 a6 : Nat) (a7 : List Fibre)
    (a8 : List Group) (a9 : List Team) (a10 : List Cluster) (a11 : List Clutch) (a12 : List ClauseRun)
    (a13 : List MemOp) (a14 : NMap Core) (a15 : NMap Pod) (a16 : NMap (List Tlb)) (a17 : List Sector)
    (a18 : List (Nat × Sector)) (a19 : List Nat) (a20 : NMap L2Set) (a21 : List L2Line) (a22 : Memory)
    (a23 : List (Nat × Sector)) (a24 : List (Nat × Nat × Sector)) (a25 : List (Nat × Nat × Option Word))
    (a26 a27 : List Nat) (a28 : List (Nat × Sector)) (a29 : NMap Word) (a30 : NMap (List (BitVec 12)))
    (a31 a32 : NMap Nat) (a33 : List Nat) (a34 : NMap Nat) (a35 : List ((Nat × Nat × Nat × Nat) × Nat))
    (a36 : List (Nat × Nat × Nat)) (a37 : List ((Nat × Nat × Nat) × Nat)) (a38 : NMap SibCell) (a39 : List Walk)
    (a40 : List FaultRec) (a41 : List Sub) (a42 : List JoinDec) (a43 : List FutDec) (a44 : List Cmd)
    (a45 : List (List Byte × List Word)) (a46 : NMap Part) (a47 : Word) (a48 : NMap Nat) (a49 : List Nat) (a50 : Bool)
    (a51 : NMap Nat) (a52 : List CheckSite) (a53 : Bool) (a54 : List (CheckSite × Nat))
    (a55 : List (Nat × Nat × Word)) (a56 : NMap Head) (a57 : NMap Nat) (a58 : NMap Enc) (a59 : NMap Cxl)
    (a60 : NMap Port) (a61 : List Nat) (a62 : Nat) (a63 : List (Nat × Sector)) (a64 : List CollFix)
    (a65 : List (Nat × Nat)) (a66 : List (Nat × List Byte × List Bool)) :
    State.ownRegs { s with
        sched := a1, tick := a2, clock := a3, power := a4, fresh := a5, cur := a6, fibres := a7,
        groups := a8, teams := a9, clusters := a10, clutches := a11, running := a12, pend := a13, cores := a14,
        pods := a15, dtlb := a16, l2 := a17, guests := a18, l2WaysOff := a19, l2Sets := a20, l2Used := a21,
        mem := a22, missed := a23, reps := a24, lost := a25, stacksOff := a26, sectorsOff := a27, fillWait := a28,
        frames := a29, profiles := a30, rds := a31, wrs := a32, badPc := a33, caTries := a34, acts := a35,
        heldBanks := a36, spares := a37, sib := a38, walks := a39, faults := a40, subs := a41, joins := a42,
        futs := a43, cmds := a44, trees := a45, parts := a46, bootRec := a47, stackTries := a48, sectorsBad := a49,
        pcieSlow := a50, hubLast := a51, retired := a52, flashOk := a53, lastFail := a54, events := a55,
        heads := a56, engTurn := a57, encs := a58, cxl := a59, ports := a60, lostPkgs := a61, sentSeq := a62,
        far := a63, colls := a64, received := a65, answers := a66 } = s.ownRegs := rfl

@[simp] theorem ownRegs_ite (p : Prop) [Decidable p] (s t : State) :
    (if p then s else t).ownRegs = if p then s.ownRegs else t.ownRegs := apply_ite ..

@[simp] theorem snd_ownRegs_ite {α : Type} (p : Prop) [Decidable p] (s t : α × State) :
    (if p then s else t).2.ownRegs = if p then s.2.ownRegs else t.2.ownRegs := by
  split <;> rfl

@[simp] theorem snd_snd_ownRegs_ite {α β : Type} (p : Prop) [Decidable p] (s t : α × β × State) :
    (if p then s else t).2.2.ownRegs = if p then s.2.2.ownRegs else t.2.2.ownRegs := by
  split <;> rfl

@[simp] theorem foldl_ownRegs {α : Type} (f : State → α → State) (h : ∀ s x, (f s x).ownRegs = s.ownRegs)
    (l : List α) (s : State) : (l.foldl f s).ownRegs = s.ownRegs := by
  induction l generalizing s with
  | nil => rfl
  | cons x l ih => rw [List.foldl_cons, ih, h]

@[simp] theorem foldl_snd_ownRegs {α β : Type} (f : β × State → α → β × State)
    (h : ∀ p x, (f p x).2.ownRegs = p.2.ownRegs) (l : List α) (p : β × State) :
    (l.foldl f p).2.ownRegs = p.2.ownRegs := by
  induction l generalizing p with
  | nil => rfl
  | cons x l ih => rw [List.foldl_cons, ih, h]

/-- The state that a pattern takes out of a pair. -/
theorem ownRegs_of_eq {α : Type} {p : α × State} {t : State} {x : α} (h : p = (x, t)) : t.ownRegs = p.2.ownRegs := by
  rw [h]

theorem ownRegs_of_eq_triple {α β : Type} {p : α × β × State} {t : State} {x : α} {y : β} (h : p = (x, y, t)) :
    t.ownRegs = p.2.2.ownRegs := by
  rw [h]

/-! ## Steps of an engine -/

/-- A step of an engine leaves the registers, however it ends. -/
def Eng.Keeps {α : Type} (m : Eng α) : Prop := ∀ s, (m s).2.ownRegs = s.ownRegs

@[simp] theorem Eng.pure_keeps {α : Type} (a : α) : (Eng.pure a).Keeps := fun _ => rfl
@[simp] theorem Eng.stop_keeps {α : Type} (code : Nat) (addr : Word) : (Eng.stop code addr : Eng α).Keeps := fun _ => rfl
@[simp] theorem Eng.later_keeps {α : Type} : (Eng.later : Eng α).Keeps := fun _ => rfl
@[simp] theorem Eng.get_keeps {α : Type} (f : State → α) : (Eng.get f).Keeps := fun _ => rfl
@[simp] theorem Eng.put_keeps (f : State → State) (h : ∀ s, (f s).ownRegs = s.ownRegs) : (Eng.put f).Keeps := h

@[simp] theorem Eng.bind_keeps {α β : Type} {m : Eng α} {f : α → Eng β} (hm : m.Keeps) (hf : ∀ a, (f a).Keeps) :
    (Eng.bind m f).Keeps := by
  intro s
  unfold Eng.bind
  split
  · next h => rw [hf, ownRegs_of_eq h, hm]
  all_goals
    next h => exact (ownRegs_of_eq h).trans (hm s)

@[simp] theorem Eng.ite_keeps {α : Type} (p : Prop) [Decidable p] {m n : Eng α} (hm : m.Keeps) (hn : n.Keeps) :
    (if p then m else n).Keeps := by
  split <;> assumption

@[simp] theorem Eng.need_keeps (b : Bool) (code : Nat) (addr : Word) : (Eng.need b code addr).Keeps := by
  simp [Eng.need]

@[simp] theorem Eng.each_keeps {α β : Type} (f : α → Eng β) (h : ∀ a, (f a).Keeps) (l : List α) :
    (Eng.each f l).Keeps := by
  induction l with
  | nil => simp [Eng.each]
  | cons a l ih => simp [Eng.each, h, ih]

@[simp] theorem Eng.along_keeps {α β : Type} (f : β → α → Eng β) (h : ∀ b a, (f b a).Keeps) (l : List α) (b : β) :
    (Eng.along f b l).Keeps := by
  induction l generalizing b with
  | nil => simp [Eng.along]
  | cons a l ih => simp [Eng.along, h, ih]

section

variable (s : State)

/-! ### Fibres, groups, teams and the words of a clause -/

@[simp] theorem modFib_ownRegs (f : FibId) (g : Fibre → Fibre) : (s.modFib f g).ownRegs = s.ownRegs := by
  simp [State.modFib]

@[simp] theorem modFibs_ownRegs (p : Fibre → Bool) (g : Fibre → Fibre) : (s.modFibs p g).ownRegs = s.ownRegs := by
  simp [State.modFibs]

@[simp] theorem modGrp_ownRegs (team grp : Nat) (g : Group → Group) : (s.modGrp team grp g).ownRegs = s.ownRegs := by
  simp [State.modGrp]

@[simp] theorem modTeam_ownRegs (t : Nat) (g : Team → Team) : (s.modTeam t g).ownRegs = s.ownRegs := by
  simp [State.modTeam]

@[simp] theorem modCluster_ownRegs (c : Nat) (g : Cluster → Cluster) : (s.modCluster c g).ownRegs = s.ownRegs := by
  simp [State.modCluster]

@[simp] theorem modClutch_ownRegs (c : Nat) (g : Clutch → Clutch) : (s.modClutch c g).ownRegs = s.ownRegs := by
  simp [State.modClutch]

@[simp] theorem modRun_ownRegs (r : Nat) (g : ClauseRun → ClauseRun) : (s.modRun r g).ownRegs = s.ownRegs := by
  simp [State.modRun]

@[simp] theorem modCore_ownRegs (c : Nat) (g : Core → Core) : (s.modCore c g).ownRegs = s.ownRegs := by
  simp [State.modCore]

@[simp] theorem modPod_ownRegs (p : Nat) (g : Pod → Pod) : (s.modPod p g).ownRegs = s.ownRegs := by
  simp [State.modPod]

@[simp] theorem modPart_ownRegs (p : Nat) (g : Part → Part) : (s.modPart p g).ownRegs = s.ownRegs := by
  simp [State.modPart]

@[simp] theorem newId_ownRegs : s.newId.2.ownRegs = s.ownRegs := by
  simp [State.newId]

@[simp] theorem writeReg_ownRegs (f : FibId) (k : WriteKey) (o : Opnd) (c : RegCell) :
    (s.writeReg f k o c).ownRegs = s.ownRegs := by
  unfold State.writeReg
  split <;> simp

@[simp] theorem raise_ownRegs (v : View) (code detail : Nat) (addr : Word) :
    (s.raise v code detail addr).ownRegs = s.ownRegs := by
  simp [State.raise]

@[simp] theorem markTook_ownRegs (v : View) : (s.markTook v).ownRegs = s.ownRegs := by
  simp [State.markTook]

@[simp] theorem writeRegs_ownRegs (v : View) (ws : List (Opnd × RegCell)) : (s.writeRegs v ws).ownRegs = s.ownRegs := by
  induction ws generalizing s with
  | nil => rfl
  | cons w ws ih => exact (ih _).trans (writeReg_ownRegs ..)

@[simp] theorem apply_ownRegs (v : View) (r : WordRes) : (s.apply v r).ownRegs = s.ownRegs := by
  unfold State.apply
  split <;> simp

@[simp] theorem onViews_ownRegs (vs : List View) (f : View → WordRes) : (s.onViews vs f).ownRegs = s.ownRegs := by
  simp [State.onViews]

@[simp] theorem word_ownRegs (g : Guard) (f : View → WordRes) : (s.word g f).ownRegs = s.ownRegs := by
  simp [State.word]

@[simp] theorem wordSeq_ownRegs (g : Guard) (f : State → View → State) (h : ∀ s v, (f s v).ownRegs = s.ownRegs) :
    (s.wordSeq g f).ownRegs = s.ownRegs := by
  simp [State.wordSeq, h]

/-! ### Lane operations -/

@[simp] theorem tileWord_ownRegs (f : List View → View → Option WordRes) : (s.tileWord f).ownRegs = s.ownRegs := by
  simp [State.tileWord]

@[simp] theorem laneWord_ownRegs (g : Guard) (f : List View → View → WordRes) :
    (s.laneWord g f).ownRegs = s.ownRegs := by
  simp [State.laneWord]

/-! ### Executions and paths -/

@[simp] theorem loosen_ownRegs (f : FibId) : (s.loosen f).ownRegs = s.ownRegs := by
  simp [State.loosen]

@[simp] theorem claimEntry_ownRegs (core : Nat) (fs : List FibId) : (s.claimEntry core fs).ownRegs = s.ownRegs := by
  simp [State.claimEntry]

@[simp] theorem parkAll_ownRegs (fs : List FibId) : (s.parkAll fs).ownRegs = s.ownRegs := by
  simp [State.parkAll]

@[simp] theorem moveTo_ownRegs (f : FibId) (pc : Word) : (s.moveTo f pc).ownRegs = s.ownRegs := by
  simp [State.moveTo]

@[simp] theorem unpark_ownRegs (team grp : Nat) (pc : Word) : (s.unpark team grp pc).ownRegs = s.ownRegs := by
  simp [State.unpark]

@[simp] theorem reserve_ownRegs (t g : Nat) : (s.reserve t g).ownRegs = s.ownRegs := by
  unfold State.reserve
  repeat' split
  all_goals simp

@[simp] theorem closeExec_ownRegs (core t g e : Nat) (next : Word) :
    (s.closeExec core t g e next).ownRegs = s.ownRegs := by
  simp [State.closeExec]

@[simp] theorem leaveExec_ownRegs (core : Nat) (f : FibId) (next : Word) :
    (s.leaveExec core f next).ownRegs = s.ownRegs := by
  unfold State.leaveExec
  split <;> simp

/-! ### Control flow -/

@[simp] theorem branchTo_ownRegs (v : View) (target : Word) : (s.branchTo v target).ownRegs = s.ownRegs := by
  simp [State.branchTo]

@[simp] theorem control_ownRegs (g : Guard) (f : State → View → State) (h : ∀ s v, (f s v).ownRegs = s.ownRegs) :
    (s.control g f).ownRegs = s.ownRegs := by
  simp [State.control, h]

@[simp] theorem tileBranch_ownRegs (g : Guard) (p : Fin 8) (off : BitVec 16) (decision : List Bool → Bool) :
    (s.tileBranch g p off decision).ownRegs = s.ownRegs := by
  simp [State.tileBranch]

@[simp] theorem link_ownRegs (v : View) : (s.link v).ownRegs = s.ownRegs := by
  simp [State.link]

@[simp] theorem fillLane_ownRegs (core : Nat) (n : Fibre) : (s.fillLane core n).ownRegs = s.ownRegs := by
  simp [State.fillLane]

/-! ### Memory and the caches -/

@[simp] theorem refreshed_ownRegs (stack q bank : Nat) : (s.refreshed stack q bank).ownRegs = s.ownRegs := by
  simp [State.refreshed]

@[simp] theorem activate_ownRegs (base : Nat) : (s.activate base).ownRegs = s.ownRegs := by
  simp [State.activate]

@[simp] theorem hbmWrite_ownRegs (base : Nat) (w : SecWrite) : (s.hbmWrite base w).ownRegs = s.ownRegs := by
  simp [State.hbmWrite]

@[simp] theorem fillFrame_ownRegs (f : Nat) : (s.fillFrame f).ownRegs = s.ownRegs := by
  simp [State.fillFrame]

@[simp] theorem memRead_ownRegs (base : Nat) : (s.memRead base).2.ownRegs = s.ownRegs := by
  simp [State.memRead]

@[simp] theorem memWrite_ownRegs (base : Nat) (w : SecWrite) (part : Nat) :
    (s.memWrite base w part).ownRegs = s.ownRegs := by
  simp [State.memWrite]

@[simp] theorem useL2_ownRegs (die : Nat) (use : L2Use) (base : Nat) : (s.useL2 die use base).ownRegs = s.ownRegs := by
  simp [State.useL2]

@[simp] theorem homeRead_ownRegs (base : Nat) (words : BitVec 8) : (s.homeRead base words).2.ownRegs = s.ownRegs := by
  simp [State.homeRead]

@[simp] theorem dropGuests_ownRegs (base : Nat) : (s.dropGuests base).ownRegs = s.ownRegs := by
  simp [State.dropGuests]

@[simp] theorem homeWrite_ownRegs (base : Nat) (w : SecWrite) (part : Nat) :
    (s.homeWrite base w part).ownRegs = s.ownRegs := by
  simp [State.homeWrite]

@[simp] theorem l2Flush_ownRegs (base : Nat) : (s.l2Flush base).ownRegs = s.ownRegs := by
  unfold State.l2Flush
  split <;> simp

@[simp] theorem l2Drop_ownRegs (base : Nat) : (s.l2Drop base).ownRegs = s.ownRegs := by
  simp [State.l2Drop]

@[simp] theorem fetch_ownRegs (pod base : Nat) : (s.fetch pod base).2.ownRegs = s.ownRegs := by
  unfold State.fetch
  dsimp only
  split <;> simp

@[simp] theorem podRead_ownRegs (pod base : Nat) (words : BitVec 8) :
    (s.podRead pod base words).2.ownRegs = s.ownRegs := by
  simp [State.podRead]

@[simp] theorem podWrite_ownRegs (pod base : Nat) (w : SecWrite) (f : FibId) (part : Nat) :
    (s.podWrite pod base w f part).ownRegs = s.ownRegs := by
  simp [State.podWrite]

@[simp] theorem podFlush_ownRegs (pod base : Nat) : (s.podFlush pod base).ownRegs = s.ownRegs := by
  unfold State.podFlush
  split <;> simp

@[simp] theorem podDrop_ownRegs (pod base : Nat) : (s.podDrop pod base).ownRegs = s.ownRegs := by
  simp [State.podDrop]

@[simp] theorem dropSealed_ownRegs (pod base : Nat) (l2 : Bool) : (s.dropSealed pod base l2).ownRegs = s.ownRegs := by
  simp [State.dropSealed]

@[simp] theorem flushCxl_ownRegs : s.flushCxl.ownRegs = s.ownRegs := by
  simp [State.flushCxl]

@[simp] theorem podForget_ownRegs (pod base : Nat) : (s.podForget pod base).ownRegs = s.ownRegs := by
  simp [State.podForget]

@[simp] theorem writeBack_ownRegs (pod : Nat) (sys : Bool) (p : FibId → Bool) :
    (s.writeBack pod sys p).ownRegs = s.ownRegs := by
  simp [State.writeBack]

@[simp] theorem podAcquire_ownRegs (pod : Nat) : (s.podAcquire pod).ownRegs = s.ownRegs := by
  simp [State.podAcquire]

@[simp] theorem replicate_ownRegs (die clutch base : Nat) (tag : Option SealTag) (v : SecVal) :
    (s.replicate die clutch base tag v).ownRegs = s.ownRegs := by
  simp [State.replicate]

@[simp] theorem installSealed_ownRegs (pod base : Nat) (tag : SealTag) (v : SecVal) :
    (s.installSealed pod base tag v).ownRegs = s.ownRegs := by
  simp [State.installSealed]

@[simp] theorem remoteSec_ownRegs (base : Nat) : (s.remoteSec base).2.ownRegs = s.ownRegs := by
  simp [State.remoteSec]

@[simp] theorem sendWrite_ownRegs (fib : FibId) (part dpa : Nat) (attr : PageAttr) :
    (s.sendWrite fib part dpa attr).ownRegs = s.ownRegs := by
  simp [State.sendWrite]

@[simp] theorem readSec_ownRegs (g : Agent) (dpa : Nat) (attr : PageAttr) (home : Bool) (words : BitVec 8) :
    (s.readSec g dpa attr home words).2.ownRegs = s.ownRegs := by
  unfold State.readSec
  dsimp only
  repeat' split
  all_goals simp

@[simp] theorem writeSec_ownRegs (g : Agent) (dpa : Nat) (attr : PageAttr) (home : Bool) (w : SecWrite) :
    (s.writeSec g dpa attr home w).ownRegs = s.ownRegs := by
  unfold State.writeSec
  repeat' split
  all_goals simp

@[simp] theorem readNat_ownRegs (g : Agent) (dpa : Nat) (attr : PageAttr) (home : Bool) (n : Nat) :
    (s.readNat g dpa attr home n).2.ownRegs = s.ownRegs := by
  simp [State.readNat]

@[simp] theorem writeNat_ownRegs (g : Agent) (dpa : Nat) (attr : PageAttr) (home : Bool) (n v : Nat) (p : Bool) :
    (s.writeNat g dpa attr home n v p).ownRegs = s.ownRegs := by
  simp [State.writeNat]

@[simp] theorem hubWords_ownRegs (dpa n : Nat) : (s.hubWords dpa n).2.ownRegs = s.ownRegs := by
  simp [State.hubWords]

@[simp] theorem hubPut_ownRegs (dpa : Nat) (ws : List Word) (part : Nat) :
    (s.hubPut dpa ws part).ownRegs = s.ownRegs := by
  simp [State.hubPut]

@[simp] theorem l2Evict_ownRegs (u : L2Line) : (s.l2Evict u).ownRegs = s.ownRegs := by
  unfold State.l2Evict
  split <;> simp

@[simp] theorem fitLine_ownRegs (u : L2Line) : (s.fitLine u).ownRegs = s.ownRegs := by
  unfold State.fitLine
  dsimp only
  split <;> simp

@[simp] theorem fitL2_ownRegs : s.fitL2.ownRegs = s.ownRegs := by
  simp [State.fitL2]

@[simp] theorem fitPod_ownRegs (pod : Nat) : (s.fitPod pod).ownRegs = s.ownRegs := by
  simp [State.fitPod]

@[simp] theorem fit_ownRegs : s.fit.ownRegs = s.ownRegs := by
  simp [State.fit]

/-! ### The journal -/

@[simp] theorem signal_ownRegs (part vec : Nat) : (s.signal part vec).ownRegs = s.ownRegs := by
  simp [State.signal]

@[simp] theorem journal_ownRegs (part : Nat) (r : JRec) : (s.journal part r).ownRegs = s.ownRegs := by
  simp [State.journal]

@[simp] theorem note_ownRegs (part kind queue cause : Nat) (w : Where) (arg : Word) :
    (s.note part kind queue cause w arg).ownRegs = s.ownRegs := by
  simp [State.note]

@[simp] theorem noteError_ownRegs (part queue cause : Nat) (w : Where) (arg cont : Word) :
    (s.noteError part queue cause w arg cont).ownRegs = s.ownRegs := by
  simp [State.noteError]

@[simp] theorem journalLost_ownRegs : s.journalLost.ownRegs = s.ownRegs := by
  unfold State.journalLost
  rw [foldl_ownRegs]
  · simp
  · intro s l
    dsimp only
    split <;> simp

@[simp] theorem logEvent_ownRegs (kind wh : Nat) : (s.logEvent kind wh).ownRegs = s.ownRegs := by
  simp [State.logEvent]

/-! ### Translation and the memory port -/

@[simp] theorem desc_ownRegs (part idx : Nat) : (s.desc part idx).2.ownRegs = s.ownRegs := by
  unfold State.desc
  split <;> simp

@[simp] theorem walkFrom_ownRegs (table va : Nat) (levels : List Level) :
    (s.walkFrom table va levels).2.ownRegs = s.ownRegs := by
  induction levels generalizing s table with
  | nil => rfl
  | cons l ls ih => simp [State.walkFrom, ih]

@[simp] theorem walk_ownRegs (part va : Nat) : (s.walk part va).2.ownRegs = s.ownRegs := by
  unfold State.walk
  dsimp only
  split <;> simp

@[simp] theorem tlbFill_ownRegs (pod : Nat) (t : Tlb) : (s.tlbFill pod t).ownRegs = s.ownRegs := by
  simp [State.tlbFill]

@[simp] theorem lookup_ownRegs (pod part va : Nat) : (s.lookup pod part va).2.ownRegs = s.ownRegs := by
  unfold State.lookup
  repeat' split
  all_goals simp

@[simp] theorem translateAll_ownRegs (pod part : Nat) (vas : List Nat) :
    (s.translateAll pod part vas).2.ownRegs = s.ownRegs := by
  induction vas generalizing s with
  | nil => rfl
  | cons va vas ih =>
    unfold State.translateAll
    dsimp only
    split
    · simp
    · split <;> simp [ih]

@[simp] theorem port_ownRegs (pod : Nat) (q : PortReq) : (s.port pod q).2.ownRegs = s.ownRegs := by
  unfold State.port
  split
  · rfl
  split
  · rfl
  split
  · rfl
  dsimp only
  iterate 8
    split
    · simp
  split <;> simp

@[simp] theorem faultOn_ownRegs (part va : Nat) (addr : Word) (core queue : Nat) (k : FaultKind) (e : WalkFail) :
    (s.faultOn part va addr core queue k e).2.ownRegs = s.ownRegs := by
  unfold State.faultOn
  split <;> simp

@[simp] theorem startWalk_ownRegs (part va : Nat) (addr : Word) (core queue : Nat) (k : FaultKind) (pod : Nat)
    (quiet : Bool) : (s.startWalk part va addr core queue k pod quiet).2.ownRegs = s.ownRegs := by
  unfold State.startWalk
  split <;> simp

@[simp] theorem reach_ownRegs (pod : Nat) (q : PortReq) (addr : Word) (queue : Nat) (k : FaultKind) (fuel : Nat) :
    (s.reach pod q addr queue k fuel).2.ownRegs = s.ownRegs := by
  induction fuel generalizing s with
  | zero => rfl
  | succ n ih =>
    unfold State.reach
    dsimp only
    split
    · simp
    · simp
    · split
      · simp
      · split <;> simp [ih]

/-! ### Planned accesses -/

@[simp] theorem planForm_ownRegs (v : View) (k : Nat) (m : MemForm) : (s.planForm v k m).2.ownRegs = s.ownRegs := by
  unfold State.planForm
  dsimp only
  repeat' split
  all_goals simp

@[simp] theorem planScale_ownRegs (v : View) (f : EFmt) (l : Loc) (e : Nat) :
    (s.planScale v f l e).2.ownRegs = s.ownRegs := by
  unfold State.planScale
  dsimp only
  repeat' split
  all_goals simp

@[simp] theorem planElem_ownRegs (v : View) (k : Nat) (r : MemRef) (z : Sz) (f : EFmt) (whole write scaled : Bool) :
    (s.planElem v k r z f whole write scaled).2.ownRegs = s.ownRegs := by
  unfold State.planElem
  dsimp only
  repeat' split
  all_goals simp

@[simp] theorem planLines_ownRegs (v : View) (k : Nat) (r : MemRef) (z : Sz) :
    (s.planLines v k r z).2.ownRegs = s.ownRegs := by
  unfold State.planLines
  dsimp only
  repeat' split
  all_goals simp

@[simp] theorem planPrefetch_ownRegs (v : View) (k : Nat) (r : MemRef) (z : Sz) (rep : Bool) :
    (s.planPrefetch v k r z rep).2.ownRegs = s.ownRegs := by
  unfold State.planPrefetch
  split
  · rfl
  split
  · rfl
  split
  · rfl
  refine foldl_snd_ownRegs _ (fun p i => ?_) _ _
  dsimp only
  split <;> simp

@[simp] theorem planAccess_ownRegs (v : View) (k : Nat) (i : Instr) : (s.planAccess v k i).2.ownRegs = s.ownRegs := by
  unfold State.planAccess
  repeat' split
  all_goals simp

@[simp] theorem planWord_ownRegs (v : View) (written : List (Fin 8)) (k : Nat) (i : Instr) :
    (s.planWord v written k i).2.ownRegs = s.ownRegs := by
  unfold State.planWord
  dsimp only
  repeat' split
  all_goals simp

@[simp] theorem planFrom_ownRegs (v : View) (written : List (Fin 8)) (is : List (Nat × Instr)) :
    (s.planFrom v written is).2.ownRegs = s.ownRegs := by
  induction is generalizing s written with
  | nil => rfl
  | cons a is ih =>
    unfold State.planFrom
    dsimp only
    split
    · simp
    · simp
    · simp [ih]
    · split <;> simp [ih]

@[simp] theorem planFibre_ownRegs (v : View) (is : List (Nat × Instr)) : (s.planFibre v is).2.ownRegs = s.ownRegs := by
  simp [State.planFibre]

@[simp] theorem issue_ownRegs (v : View) (isLoad : Bool) (flag : Nat) (o : Ord) (loc : Loc) (addr : Word)
    (act : OpAct) : (s.issue v isLoad flag o loc addr act).ownRegs = s.ownRegs := by
  unfold State.issue
  dsimp only
  split <;> simp

@[simp] theorem issueWord_ownRegs (g : Guard) (isLoad : Bool) (o : Ord) (f : View → Access → OpAct) :
    (s.issueWord g isLoad o f).ownRegs = s.ownRegs := by
  refine wordSeq_ownRegs s g _ fun s v => ?_
  split <;> simp

@[simp] theorem askLine_ownRegs (core part : Nat) (rep : Option (Nat × Nat)) (dpa : Nat) (t : PageAttr) :
    (s.askLine core part rep dpa t).ownRegs = s.ownRegs := by
  simp [State.askLine]

@[simp] theorem prefetch_ownRegs (core part : Nat) (rep : Option (Nat × Nat)) (l : Loc) :
    (s.prefetch core part rep l).ownRegs = s.ownRegs := by
  unfold State.prefetch
  repeat' split
  all_goals simp

/-! ### Meetings, phases and the ends of fibres and teams -/

@[simp] theorem keep_ownRegs (o : MemOp) (r : Opnd × RegCell) : (s.keep o r).ownRegs = s.ownRegs := by
  simp [State.keep]

@[simp] theorem freeFe_ownRegs (f : FibId) : (s.freeFe f).ownRegs = s.ownRegs := by
  simp [State.freeFe]

@[simp] theorem finishOne_ownRegs (o : MemOp) : (s.finishOne o).ownRegs = s.ownRegs := by
  simp [State.finishOne]

@[simp] theorem finish_ownRegs (o : MemOp) : (s.finish o).ownRegs = s.ownRegs := by
  simp [State.finish]

@[simp] theorem forsake_ownRegs (o : MemOp) : (s.forsake o).ownRegs = s.ownRegs := by
  unfold State.forsake
  dsimp only
  split <;> simp

@[simp] theorem releaseHeld_ownRegs (p : Team → Bool) (h : Hold) : (s.releaseHeld p h).ownRegs = s.ownRegs := by
  simp [State.releaseHeld]

@[simp] theorem barCheck_ownRegs (team b : Nat) : (s.barCheck team b).ownRegs = s.ownRegs := by
  unfold State.barCheck
  split <;> simp

@[simp] theorem cbarCheck_ownRegs (cluster b : Nat) : (s.cbarCheck cluster b).ownRegs = s.ownRegs := by
  unfold State.cbarCheck
  split <;> simp

@[simp] theorem gbarCheck_ownRegs (clutch b : Nat) : (s.gbarCheck clutch b).ownRegs = s.ownRegs := by
  unfold State.gbarCheck
  split <;> simp

@[simp] theorem aimB_ownRegs (team : Nat) (caps : List MtxCap) : (s.aimB team caps).ownRegs = s.ownRegs := by
  unfold State.aimB
  split <;> simp

@[simp] theorem phaseOp_ownRegs (team : Nat) (caps : List MtxCap) : (s.phaseOp team caps).ownRegs = s.ownRegs := by
  unfold State.phaseOp
  split
  · split
    · simp
    · rw [foldl_ownRegs]
      intro s c
      dsimp only
      split <;> simp
  · rfl

@[simp] theorem phaseCheck_ownRegs (team k : Nat) : (s.phaseCheck team k).ownRegs = s.ownRegs := by
  unfold State.phaseCheck
  split <;> simp

@[simp] theorem leave_ownRegs (f : FibId) (k : Nat) : (s.leave f k).ownRegs = s.ownRegs := by
  unfold State.leave
  split
  · split
    · rfl
    · dsimp only
      split
      · simp
      · rw [phaseCheck_ownRegs, foldl_ownRegs]
        · simp
        · intro s c
          split <;> simp
  · rfl

@[simp] theorem leaveAll_ownRegs (f : FibId) (m : BitVec 8) : (s.leaveAll f m).ownRegs = s.ownRegs := by
  simp [State.leaveAll]

@[simp] theorem pointCheck_ownRegs (team : Nat) : (s.pointCheck team).ownRegs = s.ownRegs := by
  simp [State.pointCheck]

@[simp] theorem endCluster_ownRegs (cluster : Nat) : (s.endCluster cluster).ownRegs = s.ownRegs := by
  unfold State.endCluster
  split <;> simp

@[simp] theorem endTeam_ownRegs (team : Nat) : (s.endTeam team).ownRegs = s.ownRegs := by
  unfold State.endTeam
  split <;> simp

@[simp] theorem endFibre_ownRegs (f : FibId) : (s.endFibre f).ownRegs = s.ownRegs := by
  unfold State.endFibre
  split <;> simp

@[simp] theorem sweepN_ownRegs (n : Nat) : (s.sweepN n).ownRegs = s.ownRegs := by
  induction n generalizing s with
  | zero => rfl
  | succ n ih =>
    unfold State.sweepN
    split <;> simp [ih]

@[simp] theorem sweep_ownRegs : s.sweep.ownRegs = s.ownRegs := by
  simp [State.sweep]

/-! ### Sibling cells -/

@[simp] theorem readCell_ownRegs (sha : Nat) : (s.readCell sha).2.ownRegs = s.ownRegs := by
  simp [State.readCell]

@[simp] theorem putCell_ownRegs (sha dpa part : Nat) (c : SibCell) :
    (s.putCell sha dpa part c).ownRegs = s.ownRegs := by
  simp [State.putCell]

/-! ### What an operation does when it is performed -/

@[simp] theorem putBlock_ownRegs (t : Team) (a : Word) (ws : List W32) : (s.putBlock t a ws).ownRegs = s.ownRegs := by
  simp [State.putBlock]

@[simp] theorem releaseFor_ownRegs (o : MemOp) : (s.releaseFor o).ownRegs = s.ownRegs := by
  simp [State.releaseFor]

@[simp] theorem acquireFor_ownRegs (o : MemOp) : (s.acquireFor o).ownRegs = s.ownRegs := by
  simp [State.acquireFor]

@[simp] theorem onward_ownRegs (o : MemOp) : (s.onward o).ownRegs = s.ownRegs := by
  simp [State.onward]

@[simp] theorem getLoc_ownRegs (g : Agent) (l : Loc) (home : Bool) (n : Nat) :
    (s.getLoc g l home n).2.ownRegs = s.ownRegs := by
  unfold State.getLoc
  repeat' split
  all_goals simp

@[simp] theorem spadStore_ownRegs (t o : Nat) (bs : List Byte) (p : Bool) :
    (s.spadStore t o bs p).ownRegs = s.ownRegs := by
  simp [State.spadStore]

@[simp] theorem putLoc_ownRegs (g : Agent) (l : Loc) (home : Bool) (n v : Nat) (p : Bool) :
    (s.putLoc g l home n v p).ownRegs = s.ownRegs := by
  unfold State.putLoc
  split <;> simp

@[simp] theorem useSealed_ownRegs (pod : Nat) (c : Sector) : (s.useSealed pod c).ownRegs = s.ownRegs := by
  unfold State.useSealed
  repeat' split
  all_goals simp

@[simp] theorem loadNat_ownRegs (o : MemOp) (l : Loc) (n : Nat) : (s.loadNat o l n).2.ownRegs = s.ownRegs := by
  unfold State.loadNat
  repeat' split
  all_goals simp

@[simp] theorem latch_ownRegs : s.latch.ownRegs = s.ownRegs := by
  simp [State.latch]

@[simp] theorem deliver_ownRegs (o : MemOp) (regs : List (Opnd × RegCell)) (preds : List (Fin 8 × Bool)) :
    (s.deliver o regs preds).ownRegs = s.ownRegs := by
  unfold State.deliver
  dsimp only
  rw [modFib_ownRegs, foldl_ownRegs]
  intro s r
  repeat' split
  all_goals simp

@[simp] theorem tookHome_ownRegs (o : MemOp) : (s.tookHome o).ownRegs = s.ownRegs := by
  simp [State.tookHome]

@[simp] theorem homeTrap_ownRegs (o : MemOp) (code : Nat) (took : Bool) :
    (s.homeTrap o code took).ownRegs = s.ownRegs := by
  simp [State.homeTrap]

@[simp] theorem poisonLoad_ownRegs (o : MemOp) (p : Bool) : (s.poisonLoad o p).ownRegs = s.ownRegs := by
  unfold State.poisonLoad
  split <;> simp

@[simp] theorem endLoad_ownRegs (o : MemOp) (regs : List (Opnd × RegCell)) :
    (s.endLoad o regs).ownRegs = s.ownRegs := by
  unfold State.endLoad
  split <;> simp

@[simp] theorem leaveReplica_ownRegs (o : MemOp) (rep : Bool) : (s.leaveReplica o rep).ownRegs = s.ownRegs := by
  simp [State.leaveReplica]

@[simp] theorem loadSpan_ownRegs (o : MemOp) (l : Loc) (n : Nat) : (s.loadSpan o l n).2.ownRegs = s.ownRegs := by
  unfold State.loadSpan
  split <;> simp

@[simp] theorem tookPort_ownRegs (o : MemOp) : (s.tookPort o).ownRegs = s.ownRegs := by
  unfold State.tookPort
  split <;> simp

@[simp] theorem readPart_ownRegs (o : MemOp) (j : Nat) : (s.readPart o j).2.ownRegs = s.ownRegs := by
  unfold State.readPart
  split <;> simp

@[simp] theorem readParts_ownRegs (o : MemOp) (js : List Nat) : (s.readParts o js).2.ownRegs = s.ownRegs := by
  unfold State.readParts
  rw [foldl_snd_ownRegs]
  intro p j
  dsimp only
  split <;> simp

@[simp] theorem performLoad_ownRegs (o : MemOp) : (s.performLoad o).ownRegs = s.ownRegs := by
  simp [State.performLoad]

@[simp] theorem endStore_ownRegs (o : MemOp) : (s.endStore o).ownRegs = s.ownRegs := by
  simp [State.endStore]

@[simp] theorem writePart_ownRegs (o : MemOp) (j : Nat) : (s.writePart o j).ownRegs = s.ownRegs := by
  unfold State.writePart
  repeat' split
  all_goals simp

@[simp] theorem performStore_ownRegs (o : MemOp) : (s.performStore o).ownRegs = s.ownRegs := by
  simp [State.performStore]

@[simp] theorem shading_ownRegs (o : MemOp) (f : State → State) (h : ∀ s, (f s).ownRegs = s.ownRegs) :
    (s.shading o f).ownRegs = s.ownRegs := by
  simp [State.shading, h]

@[simp] theorem applyAtom_ownRegs (g : Agent) (l : Loc) (home : Bool) (op : AtomOp) (wide : Bool) (b c : RegCell) :
    (s.applyAtom g l home op wide b c).2.ownRegs = s.ownRegs := by
  simp [State.applyAtom]

@[simp] theorem endAtom_ownRegs (o : MemOp) (d : Option Opnd) (ps : Fin 8) (op : AtomOp) (old : RegCell) (ok : Bool) :
    (s.endAtom o d ps op old ok).ownRegs = s.ownRegs := by
  simp [State.endAtom]

@[simp] theorem performAtoms_ownRegs (os : List MemOp) : (s.performAtoms os).ownRegs = s.ownRegs := by
  refine foldl_ownRegs _ (fun s o => ?_) os s
  split
  · simp
  · rfl

@[simp] theorem lockTrap_ownRegs (o : MemOp) : (s.lockTrap o).ownRegs = s.ownRegs := by
  simp [State.lockTrap]

theorem combine_ownRegs {s t : State} {o : MemOp} {dpa : Nat} {op : AtomOp} {wide : Bool}
    (h : s.combine o dpa op wide = some t) : t.ownRegs = s.ownRegs := by
  unfold State.combine at h
  dsimp only at h
  split at h
  · cases h
    simp
  · split at h
    · cases h
    · cases h
      simp

@[simp] theorem applyComb_ownRegs (pod : Nat) (c : Comb) : (s.applyComb pod c).ownRegs = s.ownRegs := by
  unfold State.applyComb
  dsimp only
  split <;> simp

@[simp] theorem flushComb_ownRegs (pod : Nat) : (s.flushComb pod).ownRegs = s.ownRegs := by
  simp [State.flushComb]

@[simp] theorem performRed_ownRegs (o : MemOp) (op : AtomOp) (wide : Bool) (b : RegCell) :
    (s.performRed o op wide b).ownRegs = s.ownRegs := by
  unfold State.performRed
  dsimp only
  split
  · split
    · split
      · next h => simp [combine_ownRegs h]
      · simp
    · simp
  · simp

@[simp] theorem performFence_ownRegs (o : MemOp) : (s.performFence o).ownRegs = s.ownRegs := by
  simp [State.performFence]

@[simp] theorem performLines_ownRegs (o : MemOp) (inv : Bool) (lines : List Nat) :
    (s.performLines o inv lines).ownRegs = s.ownRegs := by
  simp [State.performLines]

@[simp] theorem setGranules_ownRegs (t lo n : Nat) (b : Bool) : (s.setGranules t lo n b).ownRegs = s.ownRegs := by
  simp [State.setGranules]

@[simp] theorem deliverSaved_ownRegs (o : MemOp) (regs : List (Opnd × RegCell)) :
    (s.deliverSaved o regs).ownRegs = s.ownRegs := by
  simp [State.deliverSaved]

@[simp] theorem performFe_ownRegs (o : MemOp) : (s.performFe o).ownRegs = s.ownRegs := by
  unfold State.performFe
  split <;> simp

@[simp] theorem performSet_ownRegs (o : MemOp) (set : Bool) (n : Nat) : (s.performSet o set n).ownRegs = s.ownRegs := by
  unfold State.performSet
  split <;> simp

@[simp] theorem performQuery_ownRegs (o : MemOp) (d : Option Opnd) : (s.performQuery o d).ownRegs = s.ownRegs := by
  unfold State.performQuery
  split <;> simp

@[simp] theorem endSld_ownRegs (o : MemOp) (d : Option Opnd) (v : RegCell) (tk : Word) :
    (s.endSld o d v tk).ownRegs = s.ownRegs := by
  simp [State.endSld]

@[simp] theorem endSst_ownRegs (o : MemOp) (d : Option Opnd) (quiet : Bool) (st : Nat) :
    (s.endSst o d quiet st).ownRegs = s.ownRegs := by
  simp [State.endSst]

@[simp] theorem endSrec_ownRegs (o : MemOp) (d : Option Opnd) (ps : Fin 8) (tk : RegCell) (ok : Bool) :
    (s.endSrec o d ps tk ok).ownRegs = s.ownRegs := by
  simp [State.endSrec]

@[simp] theorem exhausted_ownRegs (o : MemOp) : (s.exhausted o).ownRegs = s.ownRegs := by
  simp [State.exhausted]

@[simp] theorem performSib_ownRegs (o : MemOp) : (s.performSib o).ownRegs = s.ownRegs := by
  unfold State.performSib
  dsimp only
  repeat' split
  all_goals simp

@[simp] theorem performMove_ownRegs (o : MemOp) : (s.performMove o).ownRegs = s.ownRegs := by
  unfold State.performMove
  dsimp only
  repeat' split
  all_goals simp

@[simp] theorem send_ownRegs (o : MemOp) : (s.send o).ownRegs = s.ownRegs := by
  simp [State.send]

@[simp] theorem performFill_ownRegs (o : MemOp) (rep : Option (Nat × Nat)) :
    (s.performFill o rep).ownRegs = s.ownRegs := by
  unfold State.performFill
  split
  · dsimp only
    rw [finish_ownRegs, foldl_ownRegs]
    intro s b
    split
    · split <;> simp
    · rfl
  · simp

@[simp] theorem performHere_ownRegs (o : MemOp) : (s.performHere o).ownRegs = s.ownRegs := by
  unfold State.performHere
  split <;> simp

@[simp] theorem endAsk_ownRegs (o : MemOp) (v : SecVal) : (s.endAsk o v).ownRegs = s.ownRegs := by
  unfold State.endAsk
  repeat' split
  all_goals simp

@[simp] theorem unanswered_ownRegs (o : MemOp) : (s.unanswered o).ownRegs = s.ownRegs := by
  unfold State.unanswered
  split <;> simp

@[simp] theorem performPart_ownRegs (n j : Nat) : (s.performPart n j).ownRegs = s.ownRegs := by
  unfold State.performPart
  repeat' split
  all_goals simp

@[simp] theorem keepSealed_ownRegs (o : MemOp) (n : Nat) (bytes : List Byte) (p : List Bool) :
    (s.keepSealed o n bytes p).2.ownRegs = s.ownRegs := by
  unfold State.keepSealed
  split <;> simp

@[simp] theorem answerParts_ownRegs (o : MemOp) (bytes : List Byte) (p : List Bool) :
    (s.answerParts o bytes p).2.ownRegs = s.ownRegs := by
  simp [State.answerParts]

@[simp] theorem answered_ownRegs (o : MemOp) (bytes : List Byte) (p : List Bool) :
    (s.answered o bytes p).ownRegs = s.ownRegs := by
  unfold State.answered
  dsimp only
  repeat' split
  all_goals simp

/-! ### The matrix engine -/

@[simp] theorem arrive_ownRegs (f : FibId) (k : Nat) (cap : Option MtxCap) :
    (s.arrive f k cap).ownRegs = s.ownRegs := by
  simp [State.arrive]

@[simp] theorem sign_ownRegs (v : View) (k : Fin 8) (m : MmaMod) (batched : Bool) (gb : Nat) (a : Fin 128)
    (b : Opnd) (c : Option (Fin 128)) : (s.sign v k m batched gb a b c).ownRegs = s.ownRegs := by
  unfold State.sign
  split <;> simp

@[simp] theorem readB_ownRegs (ops : List Nat) : (s.readB ops).ownRegs = s.ownRegs := by
  simp [State.readB]

@[simp] theorem mtxStart_ownRegs (core n : Nat) (o : MtxOp) : (s.mtxStart core n o).ownRegs = s.ownRegs := by
  unfold State.mtxStart
  split <;> simp

/-! ### Barriers and queues -/

@[simp] theorem barArrive_ownRegs (v : View) (b : Nat) (n : Option Src) (wait : Bool) :
    (s.barArrive v b n wait).ownRegs = s.ownRegs := by
  simp [State.barArrive]

@[simp] theorem setQueue_ownRegs (core : Nat) (q : EQueue) (l : List QCmd) :
    (s.setQueue core q l).ownRegs = s.ownRegs := by
  simp [State.setQueue]

@[simp] theorem pushOne_ownRegs (v : View) (q : EQueue) (n : Nat) (pf : Fin 8) (slot : Option Nat) :
    (s.pushOne v q n pf slot).ownRegs = s.ownRegs := by
  simp [State.pushOne]

/-! ### Tasks, futures and joins -/

@[simp] theorem hubReach_ownRegs (part : Nat) (a : Word) (len align : Nat) (rt : Right) (u : PageUse)
    (k : FaultKind) (queue : Nat) : (s.hubReach part a len align rt u k queue).2.ownRegs = s.ownRegs := by
  simp [State.hubReach]

@[simp] theorem hubRecord_ownRegs (part : Nat) (a : Word) (queue : Nat) :
    (s.hubRecord part a queue).2.ownRegs = s.ownRegs := by
  unfold State.hubRecord
  dsimp only
  split <;> simp

@[simp] theorem taskPlace_ownRegs (v : View) (a : Word) (len align : Nat) (rt : Right) :
    (s.taskPlace v a len align rt).2.ownRegs = s.ownRegs := by
  unfold State.taskPlace
  dsimp only
  repeat' split
  all_goals simp

@[simp] theorem taskRelease_ownRegs (v : View) : (s.taskRelease v).ownRegs = s.ownRegs := by
  simp [State.taskRelease]

@[simp] theorem recWord_ownRegs (g : Agent) (l : Loc) (i : Nat) : (s.recWord g l i).2.ownRegs = s.ownRegs := by
  simp [State.recWord]

@[simp] theorem putRec_ownRegs (g : Agent) (l : Loc) (i v : Nat) (p : Bool) :
    (s.putRec g l i v p).ownRegs = s.ownRegs := by
  simp [State.putRec]

@[simp] theorem sendJoin_ownRegs (part : Nat) (join : Word) (failed : Bool) :
    (s.sendJoin part join failed).ownRegs = s.ownRegs := by
  simp [State.sendJoin]

@[simp] theorem resolve_ownRegs (g : Agent) (l : Loc) (v : RegCell) (failed : Bool) :
    (s.resolve g l v failed).2.ownRegs = s.ownRegs := by
  simp [State.resolve]

@[simp] theorem fibreResolve_ownRegs (v : View) (a b : Opnd) (failed : Bool) :
    (s.fibreResolve v a b failed).ownRegs = s.ownRegs := by
  unfold State.fibreResolve
  dsimp only
  repeat' split
  all_goals simp

@[simp] theorem spawnOne_ownRegs (v : View) (p : Fin 8) (a : Opnd) (b n : Nat) :
    (s.spawnOne v p a b n).ownRegs = s.ownRegs := by
  obtain ⟨reach, hreach⟩ : ∃ reach, reach = State.hubReach := ⟨_, rfl⟩
  have hr := hubReach_ownRegs
  rw [← hreach] at hr
  unfold State.spawnOne
  rw [← hreach]
  dsimp only
  repeat' split
  all_goals simp [hr]

@[simp] theorem readCard_ownRegs (part : Nat) (a : Word) (queue : Nat) :
    (s.readCard part a queue).2.2.ownRegs = s.ownRegs := by
  unfold State.readCard
  dsimp only
  split <;> simp

@[simp] theorem settleFuture_ownRegs (part : Nat) (fut v : Word) (failed : Bool) (queue : Nat) :
    (s.settleFuture part fut v failed queue).2.ownRegs = s.ownRegs := by
  unfold State.settleFuture
  dsimp only
  split <;> simp

@[simp] theorem dropJoin_ownRegs (n : Nat) : (s.dropJoin n).ownRegs = s.ownRegs := by
  simp [State.dropJoin]

@[simp] theorem holdJoin_ownRegs (n : Nat) (h : Hold) : (s.holdJoin n h).ownRegs = s.ownRegs := by
  simp [State.holdJoin]

@[simp] theorem joinZero_ownRegs (j : JoinDec) (failed : Bool) (card : Word) (ws : List Word) :
    (s.joinZero j failed card ws).2.ownRegs = s.ownRegs := by
  simp [State.joinZero]

@[simp] theorem decrement_ownRegs (j : JoinDec) : (s.decrement j).ownRegs = s.ownRegs := by
  unfold State.decrement
  dsimp only
  split
  · simp
  · simp
  · split
    · simp
    · split
      · split
        · next h => simp [ownRegs_of_eq_triple h]
        · next h => simp [ownRegs_of_eq_triple h]
        · next h => split <;> simp [ownRegs_of_eq_triple h]
      · simp

/-! ### Kills, holds and halts -/

@[simp] theorem dropQueued_ownRegs (p : QCmd → Bool) : (s.dropQueued p).ownRegs = s.ownRegs := by
  unfold State.dropQueued
  rw [foldl_ownRegs]
  · simp
  · intro s c
    split <;> simp

@[simp] theorem killTeam_ownRegs (team : Nat) : (s.killTeam team).ownRegs = s.ownRegs := by
  unfold State.killTeam
  split <;> simp

@[simp] theorem killClutch_ownRegs (clutch code : Nat) : (s.killClutch clutch code).ownRegs = s.ownRegs := by
  unfold State.killClutch
  split <;> simp

@[simp] theorem underFail_ownRegs (clutch code : Nat) : (s.underFail clutch code).ownRegs = s.ownRegs := by
  unfold State.underFail
  split <;> simp

@[simp] theorem endFuture_ownRegs (c : Clutch) (value : Nat) (failed : Bool) :
    (s.endFuture c value failed).ownRegs = s.ownRegs := by
  unfold State.endFuture
  dsimp only
  repeat' split
  all_goals simp

@[simp] theorem leaveTable_ownRegs (clutch : Nat) (p : CardPhase) : (s.leaveTable clutch p).ownRegs = s.ownRegs := by
  simp [State.leaveTable]

@[simp] theorem finishKill_ownRegs (c : Clutch) (code : Nat) : (s.finishKill c code).ownRegs = s.ownRegs := by
  simp [State.finishKill]

@[simp] theorem clutchRelease_ownRegs (clutch : Nat) : (s.clutchRelease clutch).ownRegs = s.ownRegs := by
  simp [State.clutchRelease]

@[simp] theorem halt_ownRegs (t : Team) (f : FibId) (r : TrapRec) : (s.halt t f r).ownRegs = s.ownRegs := by
  unfold State.halt
  dsimp only
  split <;> simp

@[simp] theorem settle_ownRegs : s.settle.ownRegs = s.ownRegs := by
  unfold State.settle
  rw [foldl_ownRegs, foldl_ownRegs, foldl_ownRegs]
  · intro s t
    split <;> simp
  · simp
  · intro s c
    repeat' split
    all_goals simp

/-! ### Cards and their queues -/

@[simp] theorem qWrite_ownRegs (part q w : Nat) (v : Word) : (s.qWrite part q w v).ownRegs = s.ownRegs := by
  simp [State.qWrite]

/-! ### System words -/

@[simp] theorem privWord_ownRegs (g : Guard) (f : State → View → State) (h : ∀ s v, (f s v).ownRegs = s.ownRegs) :
    (s.privWord g f).ownRegs = s.ownRegs := by
  simp [State.privWord, h]

@[simp] theorem dropLeaves_ownRegs (p : Tlb → Bool) : (s.dropLeaves p).ownRegs = s.ownRegs := by
  simp [State.dropLeaves]

@[simp] theorem dropStale_ownRegs (part : Nat) (p : Nat → Bool) : (s.dropStale part p).ownRegs = s.ownRegs := by
  simp [State.dropStale]

@[simp] theorem dropDescs_ownRegs (part : Nat) (p : Nat → Bool) : (s.dropDescs part p).ownRegs = s.ownRegs := by
  simp [State.dropDescs]

/-! ### Regions and checkpoints -/

@[simp] theorem commitSector_ownRegs (pod : Nat) (c : Sector) : (s.commitSector pod c).ownRegs = s.ownRegs := by
  simp [State.commitSector]

@[simp] theorem clean_ownRegs (team : Nat) : (s.clean team).ownRegs = s.ownRegs := by
  simp [State.clean]

@[simp] theorem commit_ownRegs (team : Nat) : (s.commit team).ownRegs = s.ownRegs := by
  unfold State.commit
  split <;> simp

@[simp] theorem reachHalf_ownRegs (t : Team) : (s.reachHalf t).2.ownRegs = s.ownRegs := by
  simp [State.reachHalf]

@[simp] theorem putOpen_ownRegs (g : Agent) (l : Loc) (ps : List Piece) (n : Nat) :
    (s.putOpen g l ps n).ownRegs = s.ownRegs := by
  unfold State.putOpen
  dsimp only
  split
  · simp
  · rw [foldl_ownRegs]
    intro s i
    split <;> simp

@[simp] theorem openRegion_ownRegs (team : Nat) (fibres : List Fibre) (tag : BitVec 12) :
    (s.openRegion team fibres tag).ownRegs = s.ownRegs := by
  unfold State.openRegion
  dsimp only
  split <;> simp

@[simp] theorem leavePoint_ownRegs (team : Nat) : (s.leavePoint team).ownRegs = s.ownRegs := by
  simp [State.leavePoint]

@[simp] theorem regbTrap_ownRegs (t : Team) (code : Nat) : (s.regbTrap t code).ownRegs = s.ownRegs := by
  simp [State.regbTrap]

@[simp] theorem splitTrap_ownRegs (t : Team) (code : Nat) : (s.splitTrap t code).ownRegs = s.ownRegs := by
  simp [State.splitTrap]

@[simp] theorem regbCkpt_ownRegs (t : Team) : (s.regbCkpt t).ownRegs = s.ownRegs := by
  unfold State.regbCkpt
  dsimp only
  split <;> simp

@[simp] theorem splitCkpt_ownRegs (t : Team) : (s.splitCkpt t).ownRegs = s.ownRegs := by
  unfold State.splitCkpt
  dsimp only
  split <;> simp

@[simp] theorem recount_ownRegs (team : Nat) : (s.recount team).ownRegs = s.ownRegs := by
  simp [State.recount]

@[simp] theorem formPaths_ownRegs (team : Nat) : (s.formPaths team).ownRegs = s.ownRegs := by
  unfold State.formPaths
  split <;> simp

@[simp] theorem fromCkpt_ownRegs (t : Team) (k : Ckpt) (fibre : Fibre → Fibre) :
    (s.fromCkpt t k fibre).ownRegs = s.ownRegs := by
  simp [State.fromCkpt]

/-! ### Fetch, issue and the end of a clause -/

@[simp] theorem codeWord_ownRegs (t : Team) (a : Word) : (s.codeWord t a).2.ownRegs = s.ownRegs := by
  unfold State.codeWord
  dsimp only
  repeat' split
  all_goals simp

@[simp] theorem codeRun_ownRegs (t : Team) (a : Word) (n : Nat) : (s.codeRun t a n).2.ownRegs = s.ownRegs := by
  induction n generalizing s a with
  | zero => rfl
  | succ n ih =>
    unfold State.codeRun
    dsimp only
    split
    · split <;> simp [ih]
    all_goals simp

@[simp] theorem clauseAt_ownRegs (t : Team) (pc : Word) : (s.clauseAt t pc).2.ownRegs = s.ownRegs := by
  unfold State.clauseAt
  dsimp only
  repeat' split
  all_goals simp

@[simp] theorem joinExec_ownRegs (t : Team) (grp : Nat) (pc : Word) (c : Clause) (ids : List FibId) :
    (s.joinExec t grp pc c ids).ownRegs = s.ownRegs := by
  simp [State.joinExec]

@[simp] theorem headerTrap_ownRegs (f : FibId) (pc next : Word) (code word : Nat) (addr : Word) :
    (s.headerTrap f pc next code word addr).ownRegs = s.ownRegs := by
  simp [State.headerTrap]

@[simp] theorem addrWalk_ownRegs (v : View) (is : List (Nat × Instr)) (k : Nat)
    (l : List (Guard × Opnd × Nat × Right)) : (s.addrWalk v is k l).2.ownRegs = s.ownRegs := by
  induction l generalizing s with
  | nil => rfl
  | cons x l ih =>
    unfold State.addrWalk
    dsimp only
    split
    · exact ih s
    · split <;> simp [ih]

@[simp] theorem slotWalk_ownRegs (v : View) (is : List (Nat × Instr)) (k : Nat) (i : Instr) :
    (s.slotWalk v is k i).2.ownRegs = s.ownRegs := by
  obtain ⟨port, hport⟩ : ∃ port, port = State.port := ⟨_, rfl⟩
  have hp := port_ownRegs
  rw [← hport] at hp
  unfold State.slotWalk
  rw [← hport]
  split
  · dsimp only
    split
    · rfl
    · split <;> simp [hp]
  · rfl

@[simp] theorem taskWalk_ownRegs (v : View) (all is : List (Nat × Instr)) :
    (s.taskWalk v all is).2.ownRegs = s.ownRegs := by
  induction is generalizing s with
  | nil => rfl
  | cons x is ih =>
    unfold State.taskWalk
    dsimp only
    split
    · simp
    · split <;> simp [ih]

@[simp] theorem planBatch_ownRegs (r : ClauseRun) (c : Clause) (fs : List FibId) :
    (s.planBatch r c fs).s.ownRegs = s.ownRegs := by
  refine foldl_keeps (fun b : Batch => b.s.ownRegs = s.ownRegs) _ (fun b f hb => ?_) fs _ rfl
  split
  · exact hb
  · dsimp only
    split
    · split <;> simp [hb]
    · split
      · split <;> simp [hb]
      · exact hb

@[simp] theorem begin_ownRegs (t : Team) (r : ClauseRun) (c : Clause) (b : Batch) :
    (s.begin t r c b).ownRegs = s.ownRegs := by
  simp [State.begin]

@[simp] theorem askCode_ownRegs (t : Team) (f : FibId) (l : Loc) (a : Word) :
    (s.askCode t f l a).ownRegs = s.ownRegs := by
  simp [State.askCode]

@[simp] theorem start_leave_ownRegs (core : Nat) (fs : List FibId) (next : Word) :
    (State.start.leave s core fs next).ownRegs = s.ownRegs := by
  simp [State.start.leave]

@[simp] theorem start_ownRegs (fids : List FibId) (pipe : Nat) (split : Bool) :
    (s.start fids pipe split).ownRegs = s.ownRegs := by
  unfold State.start
  dsimp only
  split
  · rfl
  split
  · rfl
  split
  · rfl
  split
  · simp
  · simp
  · simp
  split
  · rfl
  split
  · rfl
  split
  · rfl
  split
  · rfl
  split
  · simp
  · split <;> simp

@[simp] theorem lowerIdle_ownRegs (r : ClauseRun) (f : FibId) (isLoad : Bool) (flag : Nat) :
    (s.lowerIdle r f isLoad flag).ownRegs = s.ownRegs := by
  simp [State.lowerIdle]

@[simp] theorem proved_ownRegs (f : FibId) (out : List Opnd) : (s.proved f out).ownRegs = s.ownRegs := by
  simp [State.proved]

@[simp] theorem proveWord_ownRegs (t s : State) (r : ClauseRun) (i : Instr) :
    (t.proveWord s r i).ownRegs = t.ownRegs := by
  simp [State.proveWord]

@[simp] theorem endHandler_ownRegs (r : ClauseRun) (f : FibId) : (s.endHandler r f).ownRegs = s.ownRegs := by
  unfold State.endHandler
  split <;> simp

@[simp] theorem endFor_ownRegs (r : ClauseRun) (f : FibId) : (s.endFor r f).ownRegs = s.ownRegs := by
  simp [State.endFor]

@[simp] theorem closeExecs_ownRegs (r : ClauseRun) : (s.closeExecs r).ownRegs = s.ownRegs := by
  simp [State.closeExecs]

@[simp] theorem endClause_ownRegs (r : ClauseRun) : (s.endClause r).ownRegs = s.ownRegs := by
  simp [State.endClause]

/-! ### Engine commands and streams -/

@[simp] theorem modCmd_ownRegs (n : Nat) (f : Cmd → Cmd) : (s.modCmd n f).ownRegs = s.ownRegs := by
  simp [State.modCmd]

@[simp] theorem askFar_ownRegs (c : Cmd) (l : Loc) : (s.askFar c l).ownRegs = s.ownRegs := by
  unfold State.askFar
  split <;> simp

@[simp] theorem forgetFar_ownRegs (c : Cmd) : (s.forgetFar c).ownRegs = s.ownRegs := by
  simp [State.forgetFar]

@[simp] theorem runCmd_ownRegs (n : Nat) (codes : List Nat) (ph : CmdPhase) (f : Cmd → Eng (Cmd → Cmd))
    (h : ∀ c, (f c).Keeps) : (s.runCmd n codes ph f).ownRegs = s.ownRegs := by
  unfold State.runCmd
  split
  · rfl
  split
  · rfl
  split
  · next e => simp [ownRegs_of_eq e, h _ _]
  · rfl
  · simp
  · next e => simp [ownRegs_of_eq e, h _ _]
  · simp

@[simp] theorem reached_ownRegs (cmd : Nat) (ps : List Piece) (addr : Word) :
    (s.reached cmd ps addr).ownRegs = s.ownRegs := by
  simp [State.reached]

@[simp] theorem Cmd.reach_keeps (c : Cmd) (idx off len align : Nat) (rt : Right) (u : PageUse) (addr : Word)
    (k : FaultKind) : (c.reach idx off len align rt u addr k).Keeps := by
  intro s
  unfold Cmd.reach
  dsimp only
  split <;> simp

@[simp] theorem Cmd.source_keeps (c : Cmd) (a : Word) (len align : Nat) (fmt : Option Nat) :
    (c.source a len align fmt).Keeps := by
  simp [Cmd.source]

@[simp] theorem Cmd.sink_keeps (c : Cmd) (a : Word) (len align : Nat) (fmt : Option Nat) :
    (c.sink a len align fmt).Keeps := by
  simp [Cmd.sink]

@[simp] theorem atPod_ownRegs (c : Cmd) (l : Loc) : (s.atPod c l).ownRegs = s.ownRegs := by
  unfold State.atPod
  split <;> simp

@[simp] theorem Cmd.load_keeps (c : Cmd) (l : Loc) (n : Nat) : (c.load l n).Keeps := by
  intro s
  unfold Cmd.load
  split
  · simp
  · split <;> rfl

@[simp] theorem Cmd.store_keeps (c : Cmd) (l : Loc) (n v : Nat) (p : Bool) : (c.store l n v p).Keeps := by
  simp [Cmd.store]

@[simp] theorem Cmd.words_keeps (c : Cmd) (p : Place) (off n : Nat) : (c.words p off n).Keeps := by
  simp [Cmd.words]

@[simp] theorem Cmd.record_keeps (c : Cmd) (a : Word) (n align : Nat) : (c.record a n align).Keeps := by
  simp [Cmd.record]

@[simp] theorem Cmd.treeAt_keeps (c : Cmd) (a : Word) (ts : List (List Byte × List Word)) : (c.treeAt a ts).Keeps := by
  induction ts with
  | nil => exact Eng.pure_keeps none
  | cons t ts ih =>
    intro s
    have hw : (Eng.bind (c.source a t.1.length 256 none) fun p => c.words p 0 ((t.1.length + 7) / 8)).Keeps := by simp
    unfold Cmd.treeAt
    split
    · next h =>
      split
      · exact (ownRegs_of_eq h).trans (hw s)
      · exact (ih _).trans ((ownRegs_of_eq h).trans (hw s))
    · next h => exact (ownRegs_of_eq h).trans (hw s)
    · next h => exact (ownRegs_of_eq h).trans (hw s)
    · next h => exact (ownRegs_of_eq h).trans (hw s)
    · exact ih s

@[simp] theorem popCmd_ownRegs (core : Nat) (q : EQueue) (c : QCmd) : (s.popCmd core q c).ownRegs = s.ownRegs := by
  unfold State.popCmd
  dsimp only
  split <;> simp

@[simp] theorem enterCmd_ownRegs (core : Nat) (q : EQueue) (x : Cmd) (locks : List Lock) :
    (s.enterCmd core q x locks).ownRegs = s.ownRegs := by
  simp [State.enterCmd]

@[simp] theorem holdQueued_ownRegs (core : Nat) (q : EQueue) (op fault : Nat) :
    (s.holdQueued core q op fault).ownRegs = s.ownRegs := by
  simp [State.holdQueued]

@[simp] theorem accept_ownRegs (core : Nat) (q : EQueue) (c : QCmd) : (s.accept core q c).ownRegs = s.ownRegs := by
  unfold State.accept
  dsimp only
  repeat' split
  all_goals simp

@[simp] theorem lateResolution_ownRegs (c : Cmd) (ok : Bool) : (s.lateResolution c ok).ownRegs = s.ownRegs := by
  simp [State.lateResolution]

@[simp] theorem Cmd.target_keeps (c : Cmd) : c.target.Keeps := by
  unfold Cmd.target
  dsimp only
  split <;> simp

@[simp] theorem signalThrough_ownRegs (c : Cmd) (p : Place) : (s.signalThrough c p).ownRegs = s.ownRegs := by
  unfold State.signalThrough
  split <;> simp

@[simp] theorem signalRecord_ownRegs (c : Cmd) (p : Place) (ws : List Word) :
    (s.signalRecord c p ws).ownRegs = s.ownRegs := by
  simp [State.signalRecord]

@[simp] theorem Cmd.signalDone_keeps (c : Cmd) (p : Place) : (c.signalDone p).Keeps := by
  unfold Cmd.signalDone
  repeat' split
  all_goals simp

@[simp] theorem Cmd.signalFailed_keeps (c : Cmd) (code : Nat) (p : Place) : (c.signalFailed code p).Keeps := by
  unfold Cmd.signalFailed
  split <;> simp

@[simp] theorem cmdError_ownRegs (c : Cmd) (code : Nat) (addr : Word) :
    (s.cmdError c code addr).ownRegs = s.ownRegs := by
  simp [State.cmdError]

@[simp] theorem endCmd_ownRegs (c : Cmd) : (s.endCmd c).ownRegs = s.ownRegs := by
  simp [State.endCmd]

@[simp] theorem performAt_ownRegs (c : Cmd) : (s.performAt c).ownRegs = s.ownRegs := by
  simp [State.performAt]

@[simp] theorem giveSignal_ownRegs (c : Cmd) (f : Place → Eng Unit) (h : ∀ p, (f p).Keeps) :
    (s.giveSignal c f).2.ownRegs = s.ownRegs := by
  unfold State.giveSignal
  split
  · rfl
  · exact Eng.bind_keeps (Cmd.target_keeps c) h s

@[simp] theorem complete_ownRegs (c : Cmd) : (s.complete c).ownRegs = s.ownRegs := by
  unfold State.complete
  split
  · dsimp only
    split
    all_goals
      next h => simp [ownRegs_of_eq h]
  · dsimp only
    split
    all_goals
      next h => simp [ownRegs_of_eq h]
  · rfl

@[simp] theorem Cmd.element_keeps (c : Cmd) (l : Layout) (j : Nat) (write : Bool) : (c.element l j write).Keeps := by
  unfold Cmd.element
  split <;> simp

@[simp] theorem Cmd.elemIn_keeps (c : Cmd) (l : Layout) (j : Nat) : (c.elemIn l j).Keeps := by
  refine Eng.bind_keeps (by simp) fun p => ?_
  dsimp only
  split
  · exact Eng.bind_keeps (by simp) (by simp)
  · simp

@[simp] theorem Cmd.storeBytes_keeps (c : Cmd) (p : Place) (bs : List (Byte × Bool)) : (c.storeBytes p bs).Keeps := by
  simp [Cmd.storeBytes]

@[simp] theorem Cmd.streamBegin_keeps (c : Cmd) : c.streamBegin.Keeps := by
  simp [Cmd.streamBegin]

@[simp] theorem Cmd.fillSlot_keeps (c : Cmd) : c.fillSlot.Keeps := by
  refine Eng.bind_keeps (by simp) fun ring s => ?_
  split
  · rfl
  · refine Eng.bind_keeps (by simp) (fun bs => Eng.bind_keeps (by simp) fun _ => Eng.bind_keeps ?_ (by simp)) s
    exact Eng.put_keeps _ fun s => by split <;> simp

@[simp] theorem Cmd.drainSlot_keeps (c : Cmd) : c.drainSlot.Keeps := by
  refine Eng.bind_keeps (by simp) fun ring s => ?_
  split
  · rfl
  · refine Eng.bind_keeps (Eng.each_keeps _ (fun x => ?_) _)
      (fun _ => Eng.bind_keeps (Eng.put_keeps _ fun s => ?_) (by simp)) s
    · refine Eng.bind_keeps (by simp) fun p => ?_
      dsimp only
      split <;> simp
    · split <;> simp

@[simp] theorem Cmd.side_keeps (c : Cmd) (a : Word) (fmt n : Nat) (write : Bool) : (c.side a fmt n write).Keeps := by
  simp [Cmd.side]

@[simp] theorem Cmd.copyBytes_keeps (c : Cmd) (x : CvxArgs) (sp dp : Place) : (c.copyBytes x sp dp).Keeps :=
  Eng.bind_keeps (Eng.each_keeps _ (fun r => Eng.bind_keeps (by simp) (by simp)) _) (by simp)

@[simp] theorem Cmd.scaleLoc_keeps (c : Cmd) (f : EFmt) (l : Loc) (i : Nat) (addr : Word) :
    (c.scaleLoc f l i addr).Keeps := by
  unfold Cmd.scaleLoc
  split
  · intro s
    dsimp only
    repeat' split
    all_goals simp
  · simp

@[simp] theorem Cmd.decode_keeps (c : Cmd) (f : EFmt) (p : Place) (first e : Nat) (addr : Word) :
    (c.decode f p first e addr).Keeps := by
  unfold Cmd.decode
  dsimp only
  split
  · simp
  · refine Eng.bind_keeps (by simp) fun l => Eng.bind_keeps (by simp) fun v => ?_
    split <;> simp

@[simp] theorem Cmd.putElems_keeps (c : Cmd) (f : EFmt) (p : Place) (first e : Nat) (vs : List (Converted × Bool)) :
    (c.putElems f p first e vs).Keeps := by
  refine Eng.bind_keeps (Eng.each_keeps _ (fun x => ?_) _) (by simp)
  dsimp only
  split <;> simp

@[simp] theorem Cmd.convert_keeps (c : Cmd) (x : CvxArgs) (sf df : EFmt) (sp dp : Place) :
    (c.convert x sf df sp dp).Keeps := by
  refine Eng.bind_keeps (by simp) fun vs => Eng.bind_keeps (by simp) fun places => Eng.bind_keeps (by simp) fun _ => ?_
  exact Eng.bind_keeps (by simp) (by simp)

@[simp] theorem Cmd.copy_keeps (c : Cmd) : c.copy.Keeps := by
  refine Eng.bind_keeps (by simp) fun _ => Eng.bind_keeps (by simp) fun sp => Eng.bind_keeps (by simp) fun dp =>
    Eng.bind_keeps (by simp) fun _ => ?_
  split <;> simp

/-! ### Collectives -/

@[simp] theorem Cmd.table_keeps (c : Cmd) : c.table.Keeps := by
  refine Eng.bind_keeps (by simp) fun p => Eng.bind_keeps (by simp) fun _ => Eng.bind_keeps (by simp) fun h => ?_
  exact Eng.bind_keeps (by simp) fun p => Eng.bind_keeps (by simp) (by simp)

@[simp] theorem collTaken_ownRegs (t : List Word) (seq : Nat) : (s.collTaken t seq).ownRegs = s.ownRegs := by
  simp [State.collTaken]

@[simp] theorem collAnew_ownRegs (t : List Word) (seq : Nat) : (s.collAnew t seq).ownRegs = s.ownRegs := by
  unfold State.collAnew
  split <;> simp

@[simp] theorem Cmd.collBegin_keeps (c : Cmd) : c.collBegin.Keeps := by
  refine Eng.bind_keeps (by simp) fun t => Eng.bind_keeps (by simp) fun _ => Eng.bind_keeps (by simp) fun _ => ?_
  refine Eng.bind_keeps (by simp) fun _ => Eng.bind_keeps ?_ (by simp)
  split <;> simp

@[simp] theorem ageColl_ownRegs (part : Nat) (table : Word) : (s.ageColl part table).ownRegs = s.ownRegs := by
  simp [State.ageColl]

@[simp] theorem fixColl_ownRegs (c : Cmd) (ranks : List Nat) (ms : List CollMsg) :
    (s.fixColl c ranks ms).ownRegs = s.ownRegs := by
  simp [State.fixColl]

@[simp] theorem collMismatch_ownRegs (c : Cmd) : (s.collMismatch c).ownRegs = s.ownRegs := by
  simp [State.collMismatch]

@[simp] theorem Cmd.newTable_keeps (c : Cmd) (p : Place) (t : List Word) (ranks : List Nat) :
    (c.newTable p t ranks).Keeps :=
  Eng.bind_keeps (by simp) fun _ => Eng.bind_keeps (by simp) (by simp)

@[simp] theorem Cmd.collEnd_keeps (ranks : List Nat) (parts : List (Nat × List Word)) (c : Cmd) :
    (c.collEnd ranks parts).Keeps := by
  refine Eng.bind_keeps (by simp) fun s => ?_
  dsimp only
  refine Eng.ite_keeps _ (by simp) (Eng.ite_keeps _ (by simp) (Eng.ite_keeps _ (by simp) ?_))
  refine Eng.ite_keeps _ (by simp) (Eng.ite_keeps _ (by simp) (Eng.ite_keeps _ (by simp) ?_))
  refine Eng.ite_keeps _ (by simp) (Eng.ite_keeps _ (by simp) (Eng.ite_keeps _ (by simp) ?_))
  refine Eng.bind_keeps (by simp) fun _ => Eng.bind_keeps (by simp) fun now => Eng.bind_keeps (by simp) fun _ => ?_
  refine Eng.bind_keeps (by simp) fun _ => Eng.bind_keeps ?_ fun _ => Eng.bind_keeps ?_ (by simp)
  · refine Eng.ite_keeps _ (by simp) (Eng.bind_keeps (by simp) fun d => ?_)
    exact Eng.bind_keeps (by simp) (by simp)
  · exact Eng.ite_keeps _ (by simp) (by simp)

/-! ### Cuts and trees -/

@[simp] theorem Cmd.cutList_keeps (c : Cmd) (a : Word) (n : Nat) : (c.cutList a n).Keeps := by
  simp [Cmd.cutList]

@[simp] theorem Cmd.block_keeps (c : Cmd) (blocks : Word) (r : CutRec) : (c.block blocks r).Keeps := by
  unfold Cmd.block
  split
  · simp
  · refine Eng.bind_keeps (by simp) fun h => Eng.bind_keeps (by simp) fun _ => Eng.bind_keeps (by simp) fun p => ?_
    exact Eng.bind_keeps (by simp) (by simp)

@[simp] theorem Cmd.graph_keeps (c : Cmd) : c.graph.Keeps := by
  simp [Cmd.graph]

@[simp] theorem Cmd.viewRec_keeps (c : Cmd) : c.viewRec.Keeps := by
  simp [Cmd.viewRec]

@[simp] theorem Cmd.node_keeps (c : Cmd) (g : Graph) (i : Nat) : (c.node g i).Keeps := by
  unfold Cmd.node
  split <;> simp

@[simp] theorem Cmd.visit_keeps (c : Cmd) (g : Graph) (v : ViewRec) (tau fuel : Nat) (work : Work) (seen : List Nat) :
    (c.visit g v tau fuel work seen).Keeps := by
  induction fuel generalizing work seen with
  | zero => simp [Cmd.visit]
  | succ n ih =>
    cases work with
    | nil => simp [Cmd.visit]
    | cons w ws =>
      refine Eng.bind_keeps (by simp) fun _ => Eng.bind_keeps (Eng.each_keeps _ (fun i => ?_) _) fun ms => ?_
      · exact Eng.bind_keeps (by simp) (by simp)
      · exact Eng.bind_keeps (ih _ _) (by simp)

@[simp] theorem Cmd.writeWords_keeps (c : Cmd) (a : Word) (ws : List Word) : (c.writeWords a ws).Keeps := by
  unfold Cmd.writeWords
  split
  · simp
  · exact Eng.bind_keeps (by simp) (by simp)

@[simp] theorem Cmd.select_keeps (c : Cmd) : c.select.Keeps := by
  refine Eng.bind_keeps (by simp) fun g => Eng.bind_keeps (by simp) fun v => Eng.bind_keeps (by simp) fun p => ?_
  refine Eng.bind_keeps (by simp) fun map => Eng.bind_keeps (by simp) fun vs => ?_
  exact Eng.bind_keeps (by simp) fun _ => Eng.bind_keeps (by simp) (by simp)

@[simp] theorem Cmd.buildTree_keeps (c : Cmd) : c.buildTree.Keeps := by
  refine Eng.bind_keeps (by simp) fun cut => Eng.bind_keeps (by simp) fun bs => Eng.bind_keeps (by simp) fun p => ?_
  exact Eng.bind_keeps (by simp) fun _ => Eng.bind_keeps (Eng.put_keeps _ fun s => rfl) (by simp)

/-! ### The task front end -/

@[simp] theorem launchGroup_ownRegs (c : Clutch) (team grp roff : Nat) :
    (s.launchGroup c team grp roff).ownRegs = s.ownRegs := by
  simp [State.launchGroup]

@[simp] theorem launchGroups_ownRegs (c : Clutch) (team g : Nat) (offs : List Nat) :
    (s.launchGroups c team g offs).ownRegs = s.ownRegs := by
  induction offs generalizing s g with
  | nil => rfl
  | cons o os ih => simp [State.launchGroups, ih]

@[simp] theorem launchTeam_ownRegs (c : Clutch) (cluster rank core : Nat) (offs : List Nat) :
    (s.launchTeam c cluster rank core offs).ownRegs = s.ownRegs := by
  simp [State.launchTeam]

@[simp] theorem launchTeams_ownRegs (c : Clutch) (cluster r : Nat) (l : List (Nat × List Nat)) :
    (s.launchTeams c cluster r l).ownRegs = s.ownRegs := by
  induction l generalizing s r with
  | nil => rfl
  | cons o os ih => simp [State.launchTeams, ih]

@[simp] theorem grants_ownRegs (part : Nat) (a : Word) (len : Nat) (rts : List Right) :
    (s.grants part a len rts).2.ownRegs = s.ownRegs := by
  simp [State.grants]

@[simp] theorem addressesOk_ownRegs (part : Nat) (l : List (Word × Nat × List Right)) :
    (s.addressesOk part l).2.ownRegs = s.ownRegs := by
  simp [State.addressesOk]

@[simp] theorem dropSub_ownRegs (n : Nat) : (s.dropSub n).ownRegs = s.ownRegs := by
  simp [State.dropSub]

@[simp] theorem holdSub_ownRegs (n : Nat) (h : Hold) : (s.holdSub n h).ownRegs = s.ownRegs := by
  simp [State.holdSub]

@[simp] theorem rejectCard_ownRegs (x : Sub) (queue code reason : Nat) :
    (s.rejectCard x queue code reason).ownRegs = s.ownRegs := by
  unfold State.rejectCard
  split <;> simp

@[simp] theorem tookSub_ownRegs (x : Sub) : (s.tookSub x).ownRegs = s.ownRegs := by
  unfold State.tookSub
  split <;> simp

@[simp] theorem takeCard_ownRegs (x : Sub) (c : Clutch) (targets : List Word) :
    (s.takeCard x c targets).ownRegs = s.ownRegs := by
  simp [State.takeCard]

@[simp] theorem readTargets_ownRegs (part : Nat) (a : Word) (queue n : Nat) :
    (s.readTargets part a queue n).2.2.ownRegs = s.ownRegs := by
  induction n generalizing s a with
  | zero => rfl
  | succ n ih =>
    unfold State.readTargets
    dsimp only
    split
    · simp
    · simp
    · split
      · next h => simpa [ih] using ownRegs_of_eq_triple h
      · simp [ih]

@[simp] theorem judgeCard_ownRegs (x : Sub) (ws : List Word) : (s.judgeCard x ws).ownRegs = s.ownRegs := by
  unfold State.judgeCard
  dsimp only
  split
  · simp
  split
  · simp
  split
  · next h => simp [ownRegs_of_eq_triple h]
  · next h => simp [ownRegs_of_eq_triple h]
  · next h =>
    split
    · simp [ownRegs_of_eq_triple h]
    · split <;> simp [ownRegs_of_eq_triple h]

@[simp] theorem virtualSpans_ownRegs (c : Clutch) : (s.virtualSpans c).2.ownRegs = s.ownRegs := by
  simp [State.virtualSpans]

theorem dealOne_ownRegs {s t : State} {id origin : Nat} (h : s.dealOne id origin = some t) : t.ownRegs = s.ownRegs := by
  unfold State.dealOne at h
  dsimp only at h
  split at h
  · cases h
  · split at h
    · cases h
      simp
    · cases h

theorem dealAll_ownRegs {s t : State} {id : Nat} {l : List Nat} (h : s.dealAll id l = some t) :
    t.ownRegs = s.ownRegs := by
  induction l generalizing s with
  | nil =>
    cases h
    rfl
  | cons o os ih =>
    unfold State.dealAll at h
    split at h
    · next hu => exact (ih h).trans (dealOne_ownRegs hu)
    · cases h

@[simp] theorem retire_ownRegs (c : Clutch) : (s.retire c).ownRegs = s.ownRegs := by
  simp [State.retire]

/-! ### Failed checks, saving and replay -/

@[simp] theorem killWith_ownRegs (clutch code : Nat) (w : Where) (arg cont : Word) :
    (s.killWith clutch code w arg cont).ownRegs = s.ownRegs := by
  unfold State.killWith
  split <;> simp

@[simp] theorem requestSave_ownRegs (cluster : Nat) : (s.requestSave cluster).ownRegs = s.ownRegs := by
  simp [State.requestSave]

@[simp] theorem clearCore_ownRegs (core : Nat) (p : Team → Bool) : (s.clearCore core p).ownRegs = s.ownRegs := by
  simp [State.clearCore]

@[simp] theorem fenceCore_ownRegs (core : Nat) : (s.fenceCore core).ownRegs = s.ownRegs := by
  simp [State.fenceCore]

@[simp] theorem withdraw_ownRegs (site : CheckSite) (fence : State → Nat → State)
    (h : ∀ s c, (fence s c).ownRegs = s.ownRegs) : (s.withdraw site fence).ownRegs = s.ownRegs := by
  cases site <;> simp [State.withdraw, h]

@[simp] theorem dropL1Way_ownRegs (core : Nat) : (s.dropL1Way core).ownRegs = s.ownRegs := by
  simp [State.dropL1Way]

@[simp] theorem dropL2Way_ownRegs (slice way : Nat) : (s.dropL2Way slice way).ownRegs = s.ownRegs := by
  simp [State.dropL2Way]

@[simp] theorem retireSite_ownRegs (site : CheckSite) : (s.retireSite site).ownRegs = s.ownRegs := by
  unfold State.retireSite
  split <;> simp

@[simp] theorem countFail_ownRegs (site : CheckSite) : (s.countFail site).ownRegs = s.ownRegs := by
  unfold State.countFail
  dsimp only
  split <;> simp

@[simp] theorem failTeam_ownRegs (t : Team) (site : CheckSite) (w : Where) (clause : Word) (accept : State → State)
    (h : ∀ s, (accept s).ownRegs = s.ownRegs) : (s.failTeam t site w clause accept).ownRegs = s.ownRegs := by
  simp [State.failTeam, h]

@[simp] theorem failL1_ownRegs (pod addr : Nat) : (s.failL1 pod addr).ownRegs = s.ownRegs := by
  unfold State.failL1
  dsimp only
  repeat' split
  all_goals simp

@[simp] theorem failLine_ownRegs (u : L2Line) (base i : Nat) : (s.failLine u base i).ownRegs = s.ownRegs := by
  unfold State.failLine
  split <;> simp

@[simp] theorem failHome_ownRegs (site : CheckSite) (addr : Nat) : (s.failHome site addr).ownRegs = s.ownRegs := by
  unfold State.failHome
  repeat' split
  all_goals simp

@[simp] theorem failControl_ownRegs (site : CheckSite) (fs : List FibId) :
    (s.failControl site fs).ownRegs = s.ownRegs := by
  refine foldl_ownRegs _ (fun s n => ?_) _ s
  split
  · refine failTeam_ownRegs _ _ _ _ _ _ fun s => foldl_ownRegs _ (fun s f => ?_) _ s
    split <;> simp
  · rfl

@[simp] theorem landed_ownRegs (site : CheckSite) (hit : CheckHit) : (s.landed site hit).ownRegs = s.ownRegs := by
  unfold State.landed
  repeat' split
  all_goals simp

@[simp] theorem takeQueued_ownRegs (t : Team) : (s.takeQueued t).2.ownRegs = s.ownRegs := by
  unfold State.takeQueued
  dsimp only
  rw [foldl_ownRegs]
  · simp
  · intro s c
    split <;> simp

@[simp] theorem putContext_ownRegs (t : Team) : (s.putContext t).ownRegs = s.ownRegs := by
  simp [State.putContext]

@[simp] theorem shelve_ownRegs (team : Nat) : (s.shelve team).ownRegs = s.ownRegs := by
  unfold State.shelve
  split <;> simp

@[simp] theorem abandon_ownRegs (team : Nat) : (s.abandon team).ownRegs = s.ownRegs := by
  unfold State.abandon
  repeat' split
  all_goals simp

@[simp] theorem saveTeam_ownRegs (team : Nat) : (s.saveTeam team).ownRegs = s.ownRegs := by
  simp [State.saveTeam]

@[simp] theorem restoreTeam_ownRegs (team core : Nat) (offs : List Nat) :
    (s.restoreTeam team core offs).ownRegs = s.ownRegs := by
  unfold State.restoreTeam
  split <;> simp

@[simp] theorem noteReplay_ownRegs (t : Team) (fails : Option CheckSite) (old : Nat) :
    (s.noteReplay t fails old).ownRegs = s.ownRegs := by
  unfold State.noteReplay
  split <;> simp

@[simp] theorem putCluster_ownRegs (c : Cluster) (origin : Nat) (cores : List (Nat × List Nat)) :
    (s.putCluster c origin cores).ownRegs = s.ownRegs := by
  unfold State.putCluster
  dsimp only
  rw [modCluster_ownRegs, foldl_ownRegs, foldl_ownRegs]
  · simp
  · intro s t
    split <;> simp
  · simp

@[simp] theorem lastReplay_ownRegs (t : Team) : (s.lastReplay t).ownRegs = s.ownRegs := by
  simp [State.lastReplay]

@[simp] theorem replayTeam_ownRegs (t : Team) : (s.replayTeam t).ownRegs = s.ownRegs := by
  unfold State.replayTeam
  split <;> simp

/-! ### Walks, frames and channels -/

@[simp] theorem endWalk_ownRegs (w : Walk) (t : Tlb) : (s.endWalk w t).ownRegs = s.ownRegs := by
  unfold State.endWalk
  rw [foldl_ownRegs]
  · simp
  · intro s x
    dsimp only
    split <;> simp

@[simp] theorem failWalk_ownRegs (w : Walk) (e : WalkFail) : (s.failWalk w e).ownRegs = s.ownRegs := by
  simp [State.failWalk]

@[simp] theorem dropLines_ownRegs (p : Nat → Bool) : (s.dropLines p).ownRegs = s.ownRegs := by
  simp [State.dropLines]

@[simp] theorem killFrame_ownRegs (f : Nat) : (s.killFrame f).ownRegs = s.ownRegs := by
  simp [State.killFrame]

@[simp] theorem failChannel_ownRegs (stack q : Nat) : (s.failChannel stack q).ownRegs = s.ownRegs := by
  simp [State.failChannel]

/-! ### Expanders and other packages -/

@[simp] theorem loseSectors_ownRegs (o : MemOp) : (s.loseSectors o).ownRegs = s.ownRegs := by
  simp [State.loseSectors]

@[simp] theorem loseOp_ownRegs (o : MemOp) : (s.loseOp o).ownRegs = s.ownRegs := by
  unfold State.loseOp
  split <;> simp

@[simp] theorem failTouching_ownRegs (e : Nat) : (s.failTouching e).ownRegs = s.ownRegs := by
  simp [State.failTouching]

@[simp] theorem cxlDown_ownRegs (e : Nat) : (s.cxlDown e).ownRegs = s.ownRegs := by
  simp [State.cxlDown]

@[simp] theorem resend_ownRegs (port : Nat) : (s.resend port).ownRegs = s.ownRegs := by
  simp [State.resend]

@[simp] theorem homeBytes_ownRegs (a n : Nat) : (s.homeBytes a n).2.ownRegs = s.ownRegs := by
  simp [State.homeBytes]

@[simp] theorem homePut_ownRegs (a : Nat) (bs : List (Byte × Bool)) (en : List Byte) (part n : Nat) :
    (s.homePut a bs en part n).ownRegs = s.ownRegs := by
  induction n generalizing s a bs en with
  | zero => rfl
  | succ n ih => simp [State.homePut, ih]

@[simp] theorem putBytes_ownRegs (a : Nat) (bs en : List Byte) (p : List Bool) (part : Nat) :
    (s.putBytes a bs en p part).ownRegs = s.ownRegs := by
  simp [State.putBytes]

@[simp] theorem sibRead_ownRegs (a sha : Nat) (slot : Option Nat) : (s.sibRead a sha slot).2.ownRegs = s.ownRegs := by
  simp [State.sibRead]

@[simp] theorem inbound_ownRegs (r : InReq) : (s.inbound r).2.ownRegs = s.ownRegs := by
  unfold State.inbound
  dsimp only
  repeat' split
  all_goals simp

/-! ### Heads and encoders -/

@[simp] theorem scanWord_ownRegs (part : Nat) (a : Word) : (s.scanWord part a).2.ownRegs = s.ownRegs := by
  unfold State.scanWord
  dsimp only
  repeat' split
  all_goals simp

@[simp] theorem targetWord_ownRegs (h : Head) (part i : Nat) : (s.targetWord h part i).2.ownRegs = s.ownRegs := by
  unfold State.targetWord
  split <;> simp

@[simp] theorem headWord_ownRegs (head : Nat) : (s.headWord head).ownRegs = s.ownRegs := by
  simp [State.headWord]

@[simp] theorem scanRow_ownRegs (h : Head) (part y : Nat) : (s.scanRow h part y).2.ownRegs = s.ownRegs := by
  unfold State.scanRow
  refine foldl_snd_ownRegs _ (fun p i => ?_) _ _
  dsimp only
  split
  all_goals
    dsimp only
    split <;> simp

@[simp] theorem scanFrame_ownRegs (h : Head) (part : Nat) : (s.scanFrame h part).2.ownRegs = s.ownRegs := by
  simp [State.scanFrame]

@[simp] theorem ringPlace_ownRegs (part : Nat) (a : Word) (len align : Nat) :
    (s.ringPlace part a len align).2.ownRegs = s.ownRegs := by
  unfold State.ringPlace
  dsimp only
  split <;> simp

@[simp] theorem ringPlaces_ownRegs (part : Nat) (l : List Word) : (s.ringPlaces part l).2.ownRegs = s.ownRegs := by
  induction l generalizing s with
  | nil => rfl
  | cons a l ih =>
    unfold State.ringPlaces
    dsimp only
    split <;> simp [ih]

@[simp] theorem putRing_ownRegs (part : Nat) (ps : List Loc) (ws : List Word) :
    (s.putRing part ps ws).ownRegs = s.ownRegs := by
  induction ps generalizing s ws with
  | nil => rfl
  | cons p ps ih => simp [State.putRing, ih]

@[simp] theorem ringPointers_ownRegs (part : Nat) (e : Enc) : (s.ringPointers part e).2.ownRegs = s.ownRegs := by
  unfold State.ringPointers
  dsimp only
  split <;> simp

@[simp] theorem writeFrame_ownRegs (part n : Nat) (e : Enc) (f : Frame) :
    (s.writeFrame part n e f).ownRegs = s.ownRegs := by
  obtain ⟨places, hplaces⟩ : ∃ places, places = State.ringPlaces := ⟨_, rfl⟩
  have hr := ringPlaces_ownRegs
  rw [← hplaces] at hr
  unfold State.writeFrame
  rw [← hplaces]
  dsimp only
  repeat' split
  all_goals simp [hr]

/-! ### Commands of the host -/

@[simp] theorem noteCommand_ownRegs (fn queue n : Nat) (v : Verdict) :
    (s.noteCommand fn queue n v).ownRegs = s.ownRegs := by
  unfold State.noteCommand
  split <;> simp

/-- A property that looks at these registers only passes through a command that keeps it. -/
theorem hostCmd_keeps {P : State → Prop} (hP : ∀ {s t : State}, t.ownRegs = s.ownRegs → P s → P t)
    {s : State} {fn queue : Nat} {early : Bool} {f : Nat → State → Verdict × State} (hs : P s)
    (hf : ∀ n s, P s → P (f n s).2) :
    P (s.hostCmd fn early queue f) := by
  unfold State.hostCmd
  dsimp only
  split
  · exact hs
  split
  · exact hP (noteCommand_ownRegs ..) (hf _ _ (hP (modPart_ownRegs ..) hs))
  split
  · split
    · exact hP ((noteCommand_ownRegs ..).trans (modPart_ownRegs ..)) (hf 0 s hs)
    · exact hf 0 s hs
  · exact hP (modPart_ownRegs ..) hs

@[simp] theorem hostCmd_ownRegs (fn : Nat) (early : Bool) (queue : Nat) (f : Nat → State → Verdict × State)
    (h : ∀ n s, (f n s).2.ownRegs = s.ownRegs) : (s.hostCmd fn early queue f).ownRegs = s.ownRegs :=
  hostCmd_keeps (P := (·.ownRegs = s.ownRegs)) (fun h => h.trans) rfl fun n u hu => (h n u).trans hu

@[simp] theorem cmdOf_ownRegs (fn : Nat) (early : Bool) (queue : Nat) (c : HostCmd)
    (checks : State → List (Bool × Nat)) (f : State → State) (h : ∀ s, (f s).ownRegs = s.ownRegs) :
    (s.cmdOf fn early queue c checks f).ownRegs = s.ownRegs := by
  refine hostCmd_ownRegs _ _ _ _ _ fun n s => ?_
  split <;> simp [h]

@[simp] theorem barFault_ownRegs (fn off : Nat) : (s.barFault fn off).ownRegs = s.ownRegs := by
  simp [State.barFault]

@[simp] theorem setTables_ownRegs (fn : Nat) (c : HostCmd) : (s.setTables fn c).ownRegs = s.ownRegs := by
  simp [State.setTables]

@[simp] theorem renamed_ownRegs (s old : State) : (s.renamed old).ownRegs = s.ownRegs := by
  simp [State.renamed]

@[simp] theorem setFrame_ownRegs (f : Nat) (new : Word) : (s.setFrame f new).ownRegs = s.ownRegs := by
  simp [State.setFrame]

@[simp] theorem resumeAgents_ownRegs (n : Nat) : (s.resumeAgents n).ownRegs = s.ownRegs := by
  unfold State.resumeAgents
  rw [foldl_ownRegs]
  · simp
  · intro s x
    dsimp only
    split <;> simp

@[simp] theorem resumeFault_ownRegs (f : FaultRec) : (s.resumeFault f).ownRegs = s.ownRegs := by
  simp [State.resumeFault]

@[simp] theorem retryWalks_ownRegs : s.retryWalks.ownRegs = s.ownRegs := by
  simp [State.retryWalks]

@[simp] theorem failCmd_ownRegs (c : Cmd) (addr : Word) : (s.failCmd c addr).ownRegs = s.ownRegs := by
  unfold State.failCmd
  split <;> simp

@[simp] theorem failFault_ownRegs (f : FaultRec) : (s.failFault f).ownRegs = s.ownRegs := by
  simp [State.failFault]

@[simp] theorem faultReply_ownRegs (fn : Nat) (c : HostCmd) (f : State → FaultRec → State)
    (h : ∀ s x, (f s x).ownRegs = s.ownRegs) : (s.faultReply fn c f).ownRegs = s.ownRegs := by
  refine cmdOf_ownRegs _ _ _ _ _ _ _ fun s => ?_
  split <;> simp [h]

@[simp] theorem newStream_ownRegs (n : Nat) : (s.newStream n).ownRegs = s.ownRegs := by
  simp [State.newStream]

@[simp] theorem setEncoder_ownRegs (n : Nat) (ws : List Word) : (s.setEncoder n ws).ownRegs = s.ownRegs := by
  simp [State.setEncoder]

@[simp] theorem releaseTeam_ownRegs (t : Team) : (s.releaseTeam t).ownRegs = s.ownRegs := by
  simp [State.releaseTeam]

/-! ### The management controller and boot -/

@[simp] theorem mgmtAsk_ownRegs (fn obj : Nat) (r : MgmtReq) : (s.mgmtAsk fn obj r).ownRegs = s.ownRegs := by
  simp [State.mgmtAsk]

@[simp] theorem sendMessage_ownRegs (fn vec : Nat) : (s.sendMessage fn vec).ownRegs = s.ownRegs := by
  simp [State.sendMessage]

@[simp] theorem maskVector_ownRegs (fn vec : Nat) : (s.maskVector fn vec).ownRegs = s.ownRegs := by
  simp [State.maskVector]

@[simp] theorem setStep_ownRegs (step out : Nat) : (s.setStep step out).ownRegs = s.ownRegs := by
  simp [State.setStep]

@[simp] theorem bootLog_ownRegs : s.bootLog.ownRegs = s.ownRegs := by
  simp [State.bootLog]

@[simp] theorem bootChip_ownRegs (e : BootEnv) : (s.bootChip e).ownRegs = s.ownRegs := by
  simp [State.bootChip]

/-! ### Rasters -/

@[simp] theorem Cmd.sample_keeps (c : Cmd) (x : RastArgs) (m : Nat × Nat × Word) : (c.sample x m).Keeps := by
  unfold Cmd.sample
  split <;> simp

@[simp] theorem Cmd.raster_keeps (c : Cmd) : c.raster.Keeps := by
  refine Eng.bind_keeps (by simp) fun cut => Eng.bind_keeps (by simp) fun ws => Eng.bind_keeps ?_ (by simp)
  exact Eng.along_keeps _ (fun acc r => Eng.bind_keeps (by simp) fun b => Eng.bind_keeps (by simp) (by simp)) _ _

/-! ### Rays -/

@[simp] theorem recordAddr_keeps (a : Word) (i n : Nat) : (recordAddr a i n).Keeps := by
  unfold recordAddr
  split <;> simp

@[simp] theorem Cmd.clusters_keeps (c : Cmd) : c.clusters.Keeps := by
  refine Eng.bind_keeps (Eng.get_keeps _) fun ts => Eng.bind_keeps (by simp) fun t => ?_
  split
  · simp
  · exact Eng.bind_keeps (by simp) (by simp)

@[simp] theorem Cmd.ray_keeps (c : Cmd) (x : RayArgs) (i : Nat) : (c.ray x i).Keeps := by
  unfold Cmd.ray
  split <;> simp

@[simp] theorem Cmd.finishRay_keeps (c : Cmd) (x : RayArgs) (tree : List Word) (bs : List (CutRec × Block))
    (i : Nat) (ws : List Word) (any : Bool) : (c.finishRay x tree bs i ws any).Keeps := by
  refine Eng.bind_keeps (by simp) fun a => Eng.bind_keeps (by simp) fun _ => Eng.bind_keeps (by simp) fun _ => ?_
  exact Eng.bind_keeps (by simp) fun a => Eng.bind_keeps (by simp) (by simp)

@[simp] theorem Cmd.saveRay_keeps (c : Cmd) (x : RayArgs) (i : Nat) (ws : List Word) (any : Bool) :
    (c.saveRay x i ws any).Keeps := by
  refine Eng.bind_keeps (by simp) fun a => Eng.bind_keeps (by simp) fun _ => Eng.bind_keeps (by simp) fun _ => ?_
  exact Eng.bind_keeps (Eng.get_keeps _) fun t => Eng.bind_keeps (by simp) (by simp)

@[simp] theorem Cmd.rays_keeps (c : Cmd) (done : Nat → Bool) : (c.rays done).Keeps := by
  refine Eng.bind_keeps (by simp) fun t => Eng.bind_keeps (Eng.along_keeps _ (fun n i => ?_) _ _) (by simp)
  refine Eng.bind_keeps (by simp) fun r => ?_
  split
  · simp
  · simp

/-! ### The step -/

@[simp] theorem pass_ownRegs (dt : Nat) : (s.pass dt).ownRegs = s.ownRegs := by
  simp [State.pass]

@[simp] theorem taken_ownRegs : s.taken.ownRegs = s.ownRegs := by
  simp [State.taken]

@[simp] theorem leaveWord_ownRegs (run n : Nat) : (s.leaveWord run n).ownRegs = s.ownRegs := by
  unfold State.leaveWord
  dsimp only
  split <;> simp

@[simp] theorem badCommand_ownRegs (fn type : Nat) (c : HostCmd) : (s.badCommand fn type c).ownRegs = s.ownRegs := by
  simp [State.badCommand]

@[simp] theorem dropLeaf_ownRegs (k va : Nat) : (s.dropLeaf k va).ownRegs = s.ownRegs := by
  simp [State.dropLeaf]

@[simp] theorem dropClean_ownRegs (pod base : Nat) : (s.dropClean pod base).ownRegs = s.ownRegs := by
  simp [State.dropClean]

@[simp] theorem afterStep_ownRegs : s.afterStep.ownRegs = s.ownRegs := by
  simp [State.afterStep]

end

/-! ## The rows -/

/-- Where a row comes to a state, `P` holds of it. -/
def Ends (P : State → Prop) : Result → Prop
  | .next t => P t
  | _ => True

@[simp] theorem ends_next (P : State → Prop) (t : State) : Ends P (.next t) ↔ P t := Iff.rfl

theorem Ends.mono {P Q : State → Prop} {r : Result} (hr : Ends P r) (h : ∀ t, P t → Q t) : Ends Q r := by
  cases r with
  | next t => exact h t hr
  | fault _ => trivial
  | refused _ => trivial

theorem execSwr_ownRegs (g : Guard) (a : Opnd) (n : BitVec 12) (s : State) :
    Ends (·.ownRegs = s.ownRegs) (execSwr g a n s) := by
  simp only [execSwr]
  repeat' split
  all_goals simp

theorem execTset_ownRegs (g : Guard) (b : Src) (s : State) : Ends (·.ownRegs = s.ownRegs) (execTset g b s) := by
  refine foldl_ownRegs _ (fun s v => ?_) _ s
  split
  · simp
  · split <;> simp

theorem execFork_ownRegs (g : Guard) (d a : Opnd) (off : BitVec 12) (s : State) :
    Ends (·.ownRegs = s.ownRegs) (execFork g d a off s) := by
  refine control_ownRegs _ _ _ fun s v => ?_
  dsimp only
  split <;> simp

theorem execTrackedComplete_ownRegs (op : Nat) (s : State) :
    Ends (·.ownRegs = s.ownRegs) (execTrackedComplete op s) := by
  simp only [execTrackedComplete, ends_next]
  split <;> simp

theorem execFeAccessComplete_ownRegs (op : Nat) (s : State) :
    Ends (·.ownRegs = s.ownRegs) (execFeAccessComplete op s) := by
  simp only [execFeAccessComplete, ends_next]
  split <;> simp

theorem execRedCombineApply_ownRegs (pod n : Nat) (s : State) :
    Ends (·.ownRegs = s.ownRegs) (execRedCombineApply pod n s) := by
  simp only [execRedCombineApply, ends_next]
  split <;> simp

theorem execRemoteResponse_ownRegs (op : Nat) (bytes : List Byte) (poison : List Bool) (s : State) :
    Ends (·.ownRegs = s.ownRegs) (execRemoteResponse op bytes poison s) := by
  simp only [execRemoteResponse, ends_next]
  split <;> simp

theorem execRemoteTimeout_ownRegs (op : Nat) (s : State) : Ends (·.ownRegs = s.ownRegs) (execRemoteTimeout op s) := by
  simp only [execRemoteTimeout, ends_next]
  split <;> simp

theorem execMatrixOpStart_ownRegs (core : Nat) (s : State) :
    Ends (·.ownRegs = s.ownRegs) (execMatrixOpStart core s) := by
  simp only [execMatrixOpStart, ends_next]
  split <;> simp

theorem execMatrixOpWrite_ownRegs (core : Nat) (s : State) :
    Ends (·.ownRegs = s.ownRegs) (execMatrixOpWrite core s) := by
  unfold execMatrixOpWrite
  split
  · split
    · simp only [ends_next, sweep_ownRegs]
      rw [foldl_ownRegs]
      · simp
      · intro s c
        split <;> simp
    · rfl
  · rfl

theorem execFreg_ownRegs (g : Guard) (a b : Opnd) (s : State) : Ends (·.ownRegs = s.ownRegs) (execFreg g a b s) := by
  refine wordSeq_ownRegs _ _ _ fun s v => ?_
  dsimp only
  repeat' split
  all_goals simp

theorem execFpoll_ownRegs (g : Guard) (d a : Opnd) (s : State) : Ends (·.ownRegs = s.ownRegs) (execFpoll g d a s) := by
  refine wordSeq_ownRegs _ _ _ fun s v => ?_
  dsimp only
  repeat' split
  all_goals simp

theorem execCsub_ownRegs (g : Guard) (p : Fin 8) (a : Opnd) (s : State) :
    Ends (·.ownRegs = s.ownRegs) (execCsub g p a s) := by
  refine wordSeq_ownRegs _ _ _ fun s v => ?_
  dsimp only
  repeat' split
  all_goals simp

theorem execJoinDecrement_ownRegs (n : Nat) (s : State) : Ends (·.ownRegs = s.ownRegs) (execJoinDecrement n s) := by
  simp only [execJoinDecrement, ends_next]
  split <;> simp

theorem execCsrw_ownRegs (g : Guard) (a : Opnd) (n : BitVec 12) (s : State) :
    Ends (·.ownRegs = s.ownRegs) (execCsrw g a n s) := by
  simp only [execCsrw]
  repeat' split
  all_goals simp

theorem execBrk_ownRegs (g : Guard) (c : BitVec 12) (s : State) : Ends (·.ownRegs = s.ownRegs) (execBrk g c s) := by
  refine wordSeq_ownRegs _ _ _ fun s v => ?_
  dsimp only
  repeat' split
  all_goals simp

theorem execRegionCommit_ownRegs (team : Nat) (s : State) : Ends (·.ownRegs = s.ownRegs) (execRegionCommit team s) := by
  simp only [execRegionCommit, ends_next]
  repeat' split
  all_goals simp

theorem execIssueStarvation_ownRegs (fs : List FibId) (s : State) :
    Ends (·.ownRegs = s.ownRegs) (execIssueStarvation fs s) := by
  simp [execIssueStarvation]

theorem execPathUnpark_ownRegs (core : Nat) (s : State) : Ends (·.ownRegs = s.ownRegs) (execPathUnpark core s) := by
  simp only [execPathUnpark, ends_next]
  split <;> simp

theorem execParkSteal_ownRegs (core : Nat) (s : State) : Ends (·.ownRegs = s.ownRegs) (execParkSteal core s) := by
  simp only [execParkSteal, ends_next]
  repeat' split
  all_goals simp

theorem execTrapDelivery_ownRegs (f : FibId) (s : State) : Ends (·.ownRegs = s.ownRegs) (execTrapDelivery f s) := by
  simp only [execTrapDelivery, ends_next]
  repeat' split
  all_goals simp

theorem execEngineAccept_ownRegs (core : Nat) (q : EQueue) (s : State) :
    Ends (·.ownRegs = s.ownRegs) (execEngineAccept core q s) := by
  simp only [execEngineAccept, ends_next]
  repeat' split
  all_goals simp

theorem execEngineComplete_ownRegs (cmd : Nat) (s : State) :
    Ends (·.ownRegs = s.ownRegs) (execEngineComplete cmd s) := by
  simp only [execEngineComplete, ends_next]
  split <;> simp

theorem execCollMemberTimeout_ownRegs (cmd : Nat) (rank : Nat) (s : State) :
    Ends (·.ownRegs = s.ownRegs) (execCollMemberTimeout cmd rank s) := by
  refine runCmd_ownRegs _ _ _ _ _ fun c => Eng.bind_keeps (Eng.get_keeps _) fun s => ?_
  split <;> simp

theorem execCollCoordinatorLost_ownRegs (cmd : Nat) (s : State) :
    Ends (·.ownRegs = s.ownRegs) (execCollCoordinatorLost cmd s) := by
  refine runCmd_ownRegs _ _ _ _ _ fun c => Eng.bind_keeps (Eng.get_keeps _) fun s => ?_
  split
  · simp
  · split <;> simp

theorem execCardIntake_ownRegs (n : Nat) (s : State) : Ends (·.ownRegs = s.ownRegs) (execCardIntake n s) := by
  unfold execCardIntake
  split
  · rfl
  split
  · rfl
  split
  all_goals
    next h => simp [ownRegs_of_eq_triple h]

theorem execIntakeHead_ownRegs (part : Nat) (s : State) : Ends (·.ownRegs = s.ownRegs) (execIntakeHead part s) := by
  simp only [execIntakeHead, ends_next]
  repeat' split
  all_goals simp

theorem execChunkDeal_ownRegs (clutch : Nat) (origins : List Nat) (s : State) :
    Ends (·.ownRegs = s.ownRegs) (execChunkDeal clutch origins s) := by
  unfold execChunkDeal
  split
  · rfl
  split
  · rfl
  split
  · next h => exact (modPart_ownRegs ..).trans (dealAll_ownRegs h)
  · rfl

theorem execPreemptRequest_ownRegs (clutch victim : Nat) (s : State) :
    Ends (·.ownRegs = s.ownRegs) (execPreemptRequest clutch victim s) := by
  simp only [execPreemptRequest, ends_next]
  split <;> simp

theorem execClutchRetire_ownRegs (clutch : Nat) (s : State) :
    Ends (·.ownRegs = s.ownRegs) (execClutchRetire clutch s) := by
  simp only [execClutchRetire, ends_next]
  split <;> simp

theorem execNodeClose_ownRegs (clutch : Nat) (s : State) : Ends (·.ownRegs = s.ownRegs) (execNodeClose clutch s) := by
  simp only [execNodeClose, ends_next]
  split <;> simp

theorem execCorrectedError_ownRegs (site : CheckSite) (s : State) :
    Ends (·.ownRegs = s.ownRegs) (execCorrectedError site s) := by
  simp only [execCorrectedError, ends_next]
  split <;> simp

theorem execCheckFail_ownRegs (site : CheckSite) (hit : CheckHit) (s : State) :
    Ends (·.ownRegs = s.ownRegs) (execCheckFail site hit s) := by
  simp [execCheckFail]

theorem execPreemptSave_ownRegs (cluster : Nat) (s : State) :
    Ends (·.ownRegs = s.ownRegs) (execPreemptSave cluster s) := by
  simp only [execPreemptSave, ends_next]
  split <;> simp

theorem execClusterRestore_ownRegs (cluster origin : Nat) (s : State) :
    Ends (·.ownRegs = s.ownRegs) (execClusterRestore cluster origin s) := by
  simp only [execClusterRestore, ends_next]
  repeat' split
  all_goals simp

theorem execRegionReplay_ownRegs (cluster origin : Nat) (s : State) :
    Ends (·.ownRegs = s.ownRegs) (execRegionReplay cluster origin s) := by
  simp only [execRegionReplay, ends_next]
  repeat' split
  all_goals simp

theorem execWatchdogPreempt_ownRegs (team : Nat) (s : State) :
    Ends (·.ownRegs = s.ownRegs) (execWatchdogPreempt team s) := by
  simp only [execWatchdogPreempt, ends_next]
  split <;> simp

theorem execWatchdogKill_ownRegs (team : Nat) (s : State) : Ends (·.ownRegs = s.ownRegs) (execWatchdogKill team s) := by
  simp only [execWatchdogKill, ends_next]
  split <;> simp

theorem execWatchdogFence_ownRegs (team : Nat) (s : State) :
    Ends (·.ownRegs = s.ownRegs) (execWatchdogFence team s) := by
  simp only [execWatchdogFence, ends_next]
  split <;> simp

theorem execFenceSaveTimeout_ownRegs (team : Nat) (s : State) :
    Ends (·.ownRegs = s.ownRegs) (execFenceSaveTimeout team s) := by
  simp only [execFenceSaveTimeout, ends_next]
  split <;> simp

theorem execL1CleanExpire_ownRegs (pod base : Nat) (s : State) :
    Ends (·.ownRegs = s.ownRegs) (execL1CleanExpire pod base s) := by
  simp [execL1CleanExpire]

theorem execTranslationWalk_ownRegs (n : Nat) (s : State) : Ends (·.ownRegs = s.ownRegs) (execTranslationWalk n s) := by
  simp only [execTranslationWalk, ends_next]
  repeat' split
  all_goals simp

theorem execFaultRecordWrite_ownRegs (part : Nat) (s : State) :
    Ends (·.ownRegs = s.ownRegs) (execFaultRecordWrite part s) := by
  simp only [execFaultRecordWrite, ends_next]
  split <;> simp

theorem execDeadFrameFill_ownRegs (f : Nat) (s : State) : Ends (·.ownRegs = s.ownRegs) (execDeadFrameFill f s) := by
  simp [execDeadFrameFill]

theorem execCaParityReplay_ownRegs (stack q : Nat) (ok : Bool) (s : State) :
    Ends (·.ownRegs = s.ownRegs) (execCaParityReplay stack q ok s) := by
  simp [execCaParityReplay]

theorem execRefreshManagement_ownRegs (stack q bank row : Nat) (s : State) :
    Ends (·.ownRegs = s.ownRegs) (execRefreshManagement stack q bank row s) := by
  simp [execRefreshManagement]

theorem execActivationSaturate_ownRegs (stack q bank row : Nat) (parity : Bool) (s : State) :
    Ends (·.ownRegs = s.ownRegs) (execActivationSaturate stack q bank row parity s) := by
  simp [execActivationSaturate]

theorem execPackageLost_ownRegs (pkg : Nat) (s : State) : Ends (·.ownRegs = s.ownRegs) (execPackageLost pkg s) := by
  simp [execPackageLost]

theorem execFlitReplay_ownRegs (r : Replay) (s : State) : Ends (·.ownRegs = s.ownRegs) (execFlitReplay r s) := by
  simp [execFlitReplay]

theorem execPortDown_ownRegs (port : Nat) (s : State) : Ends (·.ownRegs = s.ownRegs) (execPortDown port s) := by
  simp [execPortDown]

theorem execUalinkInboundRequest_ownRegs (r : Inbound) (s : State) :
    Ends (·.ownRegs = s.ownRegs) (execUalinkInboundRequest r s) := by
  simp [execUalinkInboundRequest]

theorem execHeadFrameScan_ownRegs (head : Nat) (s : State) :
    Ends (·.ownRegs = s.ownRegs) (execHeadFrameScan head s) := by
  simp [execHeadFrameScan]

theorem execEncoderRingWrite_ownRegs (enc : Nat) (s : State) :
    Ends (·.ownRegs = s.ownRegs) (execEncoderRingWrite enc s) := by
  simp only [execEncoderRingWrite, ends_next]
  split <;> simp

theorem execSubmit_ownRegs (fn : Nat) (c : HostCmd) (s : State) : Ends (·.ownRegs = s.ownRegs) (execSubmit fn c s) := by
  simp [execSubmit]

theorem execTables_ownRegs (fn : Nat) (c : HostCmd) (s : State) : Ends (·.ownRegs = s.ownRegs) (execTables fn c s) := by
  simp [execTables]

theorem execFrame_ownRegs (fn : Nat) (c : HostCmd) (s : State) : Ends (·.ownRegs = s.ownRegs) (execFrame fn c s) := by
  simp [execFrame]

theorem execDead_ownRegs (fn : Nat) (c : HostCmd) (s : State) : Ends (·.ownRegs = s.ownRegs) (execDead fn c s) := by
  simp [execDead]

theorem execShadow_ownRegs (fn : Nat) (c : HostCmd) (s : State) : Ends (·.ownRegs = s.ownRegs) (execShadow fn c s) := by
  simp [execShadow]

theorem execFaultResume_ownRegs (fn : Nat) (c : HostCmd) (s : State) :
    Ends (·.ownRegs = s.ownRegs) (execFaultResume fn c s) := by
  simp [execFaultResume]

theorem execFaultFail_ownRegs (fn : Nat) (c : HostCmd) (s : State) :
    Ends (·.ownRegs = s.ownRegs) (execFaultFail fn c s) := by
  simp [execFaultFail]

theorem execEncoder_ownRegs (fn : Nat) (c : HostCmd) (s : State) :
    Ends (·.ownRegs = s.ownRegs) (execEncoder fn c s) := by
  simp [execEncoder]

theorem execCore_ownRegs (fn : Nat) (c : HostCmd) (s : State) : Ends (·.ownRegs = s.ownRegs) (execCore fn c s) := by
  simp [execCore]

theorem execCxlDisable_ownRegs (fn : Nat) (c : HostCmd) (s : State) :
    Ends (·.ownRegs = s.ownRegs) (execCxlDisable fn c s) := by
  simp [execCxlDisable]

theorem execPower_ownRegs (fn : Nat) (c : HostCmd) (s : State) : Ends (·.ownRegs = s.ownRegs) (execPower fn c s) := by
  simp [execPower]

theorem execQueue_ownRegs (fn : Nat) (c : HostCmd) (s : State) : Ends (·.ownRegs = s.ownRegs) (execQueue fn c s) := by
  simp [execQueue]

theorem execJheadWrite_ownRegs (fn : Nat) (v : Word) (s : State) :
    Ends (·.ownRegs = s.ownRegs) (execJheadWrite fn v s) := by
  simp [execJheadWrite]

theorem execFheadWrite_ownRegs (fn : Nat) (v : Word) (s : State) :
    Ends (·.ownRegs = s.ownRegs) (execFheadWrite fn v s) := by
  simp [execFheadWrite]

theorem execMsixMessage_ownRegs (fn vec : Nat) (s : State) :
    Ends (·.ownRegs = s.ownRegs) (execMsixMessage fn vec s) := by
  simp [execMsixMessage]

theorem execMsixVectorUnmask_ownRegs (fn vec : Nat) (s : State) :
    Ends (·.ownRegs = s.ownRegs) (execMsixVectorUnmask fn vec s) := by
  simp [execMsixVectorUnmask]

theorem execPowerCapWindow_ownRegs (fn : Nat) (above : Bool) (s : State) :
    Ends (·.ownRegs = s.ownRegs) (execPowerCapWindow fn above s) := by
  simp [execPowerCapWindow]

/-- The rows that write the package's own registers. -/
def setsOwnRegs : Instr → Bool
  | .mode .. | .firmwareBoot .. | .firmwareWrite .. | .firmwareWriteBoot .. | .mgmtAnswer .. | .boot ..
  | .d3cold .. => true
  | _ => false

/-- Every other row leaves them: those that share an operation by its lemma, the others by a lemma of their own. -/
theorem exec_ownRegs (i : Instr) (s : State) (h : setsOwnRegs i = false) : Ends (·.ownRegs = s.ownRegs) (exec i s) := by
  cases i
  case mode | firmwareBoot | firmwareWrite | firmwareWriteBoot | mgmtAnswer | boot | d3cold => cases h
  case iadd | isub | imul | imulh | imad | imin | imax | iabs | and | or | xor | andn | shl | shr | sar | rot | funl
      | bfx | bfi | popc | clz | ctz | brev | permb | nibl | icmp | badd | bsub | bcmp | bmaxu | bmsk | mov | movi
      | ldi | ldih | sel | pset | pmovGet | pmovPut | sext | zext | srd | mka | adda | fadd | fsub | fmul | ffma
      | fmin | fmax | fcmp | fclass | frint | fcvt | fscale | fexpo | f2sum | f2prod | fpack | funpk | sqrt | div
      | rcp | rsq | exp2 | log2 | sin | cos | idiv | irem | nop | trap | regq | csrr | pchk =>
    exact word_ownRegs ..
  case shfl | vote | matchL | redl | scanl | first => exact laneWord_ownRegs ..
  case bra | call | ret | exit | yld => exact control_ownRegs _ _ _ fun s v => by simp
  case bany | ball | bnone => exact tileBranch_ownRegs ..
  case jmpr | callr => exact control_ownRegs _ _ _ fun s v => by split <;> simp
  case ld | st | pld | feset | feclr | sldx | sst | srec | mrd | mwr | msts | mlds =>
    exact wordSeq_ownRegs _ _ _ fun s v => by split <;> simp
  case ldx | lde | ste | atom | red | cwb | cinv | feqry | sld => exact issueWord_ownRegs ..
  case fence | mma | mmab | mzero | barv | barw | cbar | gbar | kset | kwait | ksign | kleave | push | gset | fres
      | ffail | spawn | trig | eret | qctlRd | qctlWr | regb | regc =>
    exact wordSeq_ownRegs _ _ _ fun s v => by simp
  case tsync => exact tileWord_ownRegs ..
  case tlbiVa | tlbiFrame | tlbiAll | btinv | btinvAll => exact privWord_ownRegs _ _ _ fun s v => by simp
  case clauseStart | regionSplit => exact start_ownRegs ..
  case seFill | seDrain | seFillSlot | seDrainSlot | cvxCopy | collAllred | collBcast | collBar | collGath
      | collComplete | cutSelect | cutTree | rastVis | rayTrace | rayResume | rayYield =>
    exact runCmd_ownRegs _ _ _ _ _ (by simp)
  case l1DirtyWriteback => exact podFlush_ownRegs ..
  case refreshManagementComplete => exact refreshed_ownRegs ..
  case cxlLinkDown | cxlTimeout => exact cxlDown_ownRegs ..
  case profile | head | cxlEnable | link => exact cmdOf_ownRegs _ _ _ _ _ _ _ fun s => rfl
  case teamRelease | teamKill => exact cmdOf_ownRegs _ _ _ _ _ _ _ fun s => by split <;> simp
  case bar0OtherAccess => exact barFault_ownRegs ..
  case hostMemoryWrite => exact putBytes_ownRegs ..
  case mgmtLaneRemap | mgmtEncoderCounters | mgmtEventLog | mgmtPackageId | mgmtStorePackageId => exact mgmtAsk_ownRegs ..
  case swr => exact execSwr_ownRegs ..
  case tset => exact execTset_ownRegs ..
  case fork => exact execFork_ownRegs ..
  case trackedComplete => exact execTrackedComplete_ownRegs ..
  case feAccessComplete => exact execFeAccessComplete_ownRegs ..
  case redCombineApply => exact execRedCombineApply_ownRegs ..
  case remoteResponse => exact execRemoteResponse_ownRegs ..
  case remoteTimeout => exact execRemoteTimeout_ownRegs ..
  case matrixOpStart => exact execMatrixOpStart_ownRegs ..
  case matrixOpWrite => exact execMatrixOpWrite_ownRegs ..
  case freg => exact execFreg_ownRegs ..
  case fpoll => exact execFpoll_ownRegs ..
  case csub => exact execCsub_ownRegs ..
  case joinDecrement => exact execJoinDecrement_ownRegs ..
  case csrw => exact execCsrw_ownRegs ..
  case brk => exact execBrk_ownRegs ..
  case regionCommit => exact execRegionCommit_ownRegs ..
  case issueStarvation => exact execIssueStarvation_ownRegs ..
  case pathUnpark => exact execPathUnpark_ownRegs ..
  case parkSteal => exact execParkSteal_ownRegs ..
  case trapDelivery => exact execTrapDelivery_ownRegs ..
  case engineAccept => exact execEngineAccept_ownRegs ..
  case engineComplete => exact execEngineComplete_ownRegs ..
  case collMemberTimeout => exact execCollMemberTimeout_ownRegs ..
  case collCoordinatorLost => exact execCollCoordinatorLost_ownRegs ..
  case cardIntake => exact execCardIntake_ownRegs ..
  case intakeHead => exact execIntakeHead_ownRegs ..
  case chunkDeal => exact execChunkDeal_ownRegs ..
  case preemptRequest => exact execPreemptRequest_ownRegs ..
  case clutchRetire => exact execClutchRetire_ownRegs ..
  case nodeClose => exact execNodeClose_ownRegs ..
  case correctedError => exact execCorrectedError_ownRegs ..
  case checkFail => exact execCheckFail_ownRegs ..
  case preemptSave => exact execPreemptSave_ownRegs ..
  case clusterRestore => exact execClusterRestore_ownRegs ..
  case regionReplay => exact execRegionReplay_ownRegs ..
  case watchdogPreempt => exact execWatchdogPreempt_ownRegs ..
  case watchdogKill => exact execWatchdogKill_ownRegs ..
  case watchdogFence => exact execWatchdogFence_ownRegs ..
  case fenceSaveTimeout => exact execFenceSaveTimeout_ownRegs ..
  case l1CleanExpire => exact execL1CleanExpire_ownRegs ..
  case translationWalk => exact execTranslationWalk_ownRegs ..
  case faultRecordWrite => exact execFaultRecordWrite_ownRegs ..
  case deadFrameFill => exact execDeadFrameFill_ownRegs ..
  case caParityReplay => exact execCaParityReplay_ownRegs ..
  case refreshManagement => exact execRefreshManagement_ownRegs ..
  case activationSaturate => exact execActivationSaturate_ownRegs ..
  case packageLost => exact execPackageLost_ownRegs ..
  case flitReplay => exact execFlitReplay_ownRegs ..
  case portDown => exact execPortDown_ownRegs ..
  case ualinkInboundRequest => exact execUalinkInboundRequest_ownRegs ..
  case headFrameScan => exact execHeadFrameScan_ownRegs ..
  case encoderRingWrite => exact execEncoderRingWrite_ownRegs ..
  case submit => exact execSubmit_ownRegs ..
  case tables => exact execTables_ownRegs ..
  case frame => exact execFrame_ownRegs ..
  case dead => exact execDead_ownRegs ..
  case shadow => exact execShadow_ownRegs ..
  case faultResume => exact execFaultResume_ownRegs ..
  case faultFail => exact execFaultFail_ownRegs ..
  case encoder => exact execEncoder_ownRegs ..
  case core => exact execCore_ownRegs ..
  case cxlDisable => exact execCxlDisable_ownRegs ..
  case power => exact execPower_ownRegs ..
  case queue => exact execQueue_ownRegs ..
  case jheadWrite => exact execJheadWrite_ownRegs ..
  case fheadWrite => exact execFheadWrite_ownRegs ..
  case msixMessage => exact execMsixMessage_ownRegs ..
  case msixVectorUnmask => exact execMsixVectorUnmask_ownRegs ..
  case powerCapWindow => exact execPowerCapWindow_ownRegs ..

/-! ## Legal values -/

/-- The modes of R422. -/
def IsMode (m : Nat) : Prop := m = 1 ∨ m = 2 ∨ m = 4 ∨ m = 8

theorem legal_iff (s : State) : s.legal = true ↔
    IsMode s.mode ∧ s.pkg < 1024 ∧ s.pkgNext < 1024 ∧ s.fwstat ≤ 7 ∧ ∀ k ∈ s.fwJob, k ≤ 7 := by
  simp only [State.legal, IsMode, Bool.and_eq_true, Bool.or_eq_true, beq_iff_eq, decide_eq_true_eq, List.all_eq_true]
  tauto

theorem legal_of_ownRegs {s t : State} (h : t.ownRegs = s.ownRegs) (hs : s.legal = true) : t.legal = true := by
  simp only [State.ownRegs, OwnRegs.mk.injEq] at h
  obtain ⟨hm, hp, hn, hf, hj⟩ := h
  rw [legal_iff] at hs ⊢
  rwa [hm, hp, hn, hf, hj]

theorem cmdOf_legal {s : State} {fn queue : Nat} {early : Bool} {c : HostCmd} {checks : State → List (Bool × Nat)}
    {f : State → State} (hs : s.legal = true)
    (hf : ∀ s, s.legal = true → refuse ((c.hi != 0, 1) :: checks s) = none → (f s).legal = true) :
    (s.cmdOf fn early queue c checks f).legal = true := by
  refine hostCmd_keeps legal_of_ownRegs hs fun n s hs => ?_
  split
  · exact hs
  · next h => exact hf s hs h

theorem firmware_legal {s : State} {fn : Nat} {c : HostCmd} {always : Bool} {f : State → State} (hs : s.legal = true)
    (hf : ∀ s, s.legal = true → (f s).legal = true) : (s.firmware fn c always f).legal = true := by
  unfold State.firmware
  dsimp only
  split
  · split
    · exact hf s hs
    · exact hs
  · exact cmdOf_legal hs fun s hs _ => hf s hs

theorem fwBegin_legal {s : State} {l : List Nat} (hs : s.legal = true) (hl : ∀ k ∈ l, k ≤ 7) :
    (s.fwBegin l).legal = true := by
  rw [legal_iff] at hs ⊢
  obtain ⟨hm, hp, hn, -, -⟩ := hs
  exact ⟨hm, hp, hn, (by decide : 1 ≤ 7), hl⟩

theorem fwNext_legal {s : State} (hs : s.legal = true) : s.fwNext.legal = true := by
  unfold State.fwNext
  split
  · exact hs
  · next k l h =>
    rw [legal_iff] at hs ⊢
    obtain ⟨hm, hp, hn, -, hj⟩ := hs
    rw [h, List.forall_mem_cons] at hj
    exact ⟨hm, hp, hn, hj⟩

theorem flashStates_le {ok wrote : Bool} {after : List Nat} (h : ∀ k ∈ after, k ≤ 7) :
    ∀ k ∈ flashStates ok wrote after, k ≤ 7 := by
  unfold flashStates
  split
  · decide
  split
  · simpa [or_imp, forall_and] using h
  · decide

theorem execFirmwareBoot_legal {s : State} (fn : Nat) (c : HostCmd) (ok : Bool) (hs : s.legal = true) :
    Ends (·.legal = true) (execFirmwareBoot fn c ok s) :=
  firmware_legal hs fun s hs => fwBegin_legal hs (by cases ok <;> decide)

theorem execFirmwareWrite_legal {s : State} (fn : Nat) (c : HostCmd) (ok wrote : Bool) (hs : s.legal = true) :
    Ends (·.legal = true) (execFirmwareWrite fn c ok wrote s) :=
  firmware_legal hs fun s hs => fwBegin_legal hs (flashStates_le (by decide))

theorem execFirmwareWriteBoot_legal {s : State} (fn : Nat) (c : HostCmd) (ok wrote : Bool) (hs : s.legal = true) :
    Ends (·.legal = true) (execFirmwareWriteBoot fn c ok wrote s) :=
  firmware_legal hs fun s hs => fwBegin_legal hs (flashStates_le (by decide))

theorem setMode_legal {s : State} {m : Nat} (hs : s.legal = true) (hm : IsMode m) : (s.setMode m).legal = true := by
  have h : (s.dropLines fun a => spaceOf a == 0).legal = true := legal_of_ownRegs (by simp) hs
  rw [legal_iff] at h ⊢
  obtain ⟨-, h⟩ := h
  exact ⟨hm, h⟩

theorem refuse_eq_none {l : List (Bool × Nat)} (h : refuse l = none) : ∀ x ∈ l, x.1 = false := by
  simpa [refuse] using h

theorem execMode_legal {s : State} (fn : Nat) (c : HostCmd) (hs : s.legal = true) :
    Ends (·.legal = true) (execMode fn c s) := by
  refine cmdOf_legal hs fun s hs h => setMode_legal hs ?_
  have := refuse_eq_none h (!(c.w1.toNat == 1 || c.w1.toNat == 2 || c.w1.toNat == 4 || c.w1.toNat == 8), 3) (by simp)
  simp only [Bool.not_eq_false', Bool.or_eq_true, beq_iff_eq] at this
  unfold IsMode
  tauto

theorem mgmtReply_legal {s : State} (fn obj : Nat) (r : MgmtReq) (hs : s.legal = true) :
    (s.mgmtReply fn obj r).2.2.legal = true := by
  unfold State.mgmtReply
  dsimp only
  split
  · split_ifs <;> exact hs
  split
  · split_ifs <;> exact hs
  split
  · split
    · split_ifs <;> exact hs
    · exact hs
  split
  · split_ifs <;> exact hs
  split
  · split_ifs with _ hn
    · exact hs
    · exact hs
    · rw [legal_iff] at hs ⊢
      obtain ⟨hm, hp, -, hf⟩ := hs
      exact ⟨hm, hp, Nat.lt_succ_of_le (Nat.le_of_not_lt hn), hf⟩
  · exact hs

theorem execMgmtAnswer_legal {s : State} (fn : Nat) (hs : s.legal = true) :
    Ends (·.legal = true) (execMgmtAnswer fn s) := by
  unfold execMgmtAnswer
  split
  · exact legal_of_ownRegs ((signal_ownRegs ..).trans (modPart_ownRegs ..)) (mgmtReply_legal _ _ _ hs)
  · exact hs

theorem bootLinks_legal {s : State} (e : BootEnv) (hs : s.legal = true) : (s.bootLinks e).legal = true := by
  rw [legal_iff] at hs ⊢
  obtain ⟨hm, -, hn, h⟩ := hs
  exact ⟨hm, hn, hn, h⟩

theorem bootMode_isMode (w : Word) : IsMode (bootMode w) := by
  have h : fieldOf w 57 56 < 4 := Nat.mod_lt _ (by decide)
  unfold bootMode IsMode
  generalize fieldOf w 57 56 = k at h
  interval_cases k <;> decide

theorem bootFunctions_legal {s : State} (hs : s.legal = true) : s.bootFunctions.legal = true := by
  rw [legal_iff] at hs ⊢
  obtain ⟨-, hp, hn, -, hj⟩ := hs
  exact ⟨bootMode_isMode _, hp, hn, (by decide : 0 ≤ 7), hj⟩

theorem legal_of_idle {s t : State} (hs : s.legal = true) (h : t.ownRegs = { s.ownRegs with fwstat := 0 }) :
    t.legal = true := by
  simp only [State.ownRegs, OwnRegs.mk.injEq] at h
  obtain ⟨hm, hp, hn, hf, hj⟩ := h
  rw [legal_iff] at hs ⊢
  obtain ⟨h1, h2, h3, -, h5⟩ := hs
  rw [hm, hp, hn, hf, hj]
  exact ⟨h1, h2, h3, by decide, h5⟩

theorem execBoot_legal {s : State} (e : BootEnv) (hs : s.legal = true) : Ends (·.legal = true) (execBoot e s) := by
  unfold execBoot
  dsimp only
  split
  · exact hs
  split
  · exact legal_of_idle hs rfl
  split
  · exact legal_of_idle hs rfl
  split
  · exact legal_of_idle hs rfl
  split
  · exact legal_of_idle hs rfl
  · exact bootFunctions_legal (bootLinks_legal e (legal_of_ownRegs (by simp) hs))

theorem execD3cold_legal {s : State} (hs : s.legal = true) : Ends (·.legal = true) (execD3cold s) := by
  rw [legal_iff] at hs
  obtain ⟨-, -, hn, -⟩ := hs
  exact (legal_iff _).2 ⟨.inl rfl, (by decide : 0 < 1024), hn, (by decide : 0 ≤ 7), by simp [State.reset]⟩

/-! ## The step -/

/-- The seven rows that write the registers keep them legal, every other row leaves them. -/
theorem exec_legal (i : Instr) {s : State} (hs : s.legal = true) : Ends (·.legal = true) (exec i s) := by
  by_cases h : setsOwnRegs i = false
  · exact (exec_ownRegs i s h).mono fun t ht => legal_of_ownRegs ht hs
  · cases i
    case mode => exact execMode_legal _ _ hs
    case firmwareBoot => exact execFirmwareBoot_legal _ _ _ hs
    case firmwareWrite => exact execFirmwareWrite_legal _ _ _ _ hs
    case firmwareWriteBoot => exact execFirmwareWriteBoot_legal _ _ _ _ hs
    case mgmtAnswer => exact execMgmtAnswer_legal _ hs
    case boot => exact execBoot_legal _ hs
    case d3cold => exact execD3cold_legal hs
    all_goals exact absurd rfl h

theorem request_legal {s : State} (fn : Nat) (v : Word) (hs : s.legal = true) : Ends (·.legal = true) (s.request fn v) := by
  unfold State.request
  dsimp only
  split
  · exact exec_legal _ hs
  split
  · exact exec_legal _ hs
  · exact legal_of_ownRegs (mgmtAsk_ownRegs ..) hs

theorem act_legal (a : Act) {s : State} (hs : s.legal = true) : Ends (·.legal = true) (s.act a) := by
  cases a with
  | word run =>
    simp only [State.act]
    split
    · exact hs
    split
    · exact hs
    · trivial
    · next i _ _ =>
      have he := exec_legal i (s := { s with cur := run }) (legal_of_ownRegs rfl hs)
      split
      · next t ht =>
        rw [ht] at he
        exact legal_of_ownRegs ((leaveWord_ownRegs ..).trans (proveWord_ownRegs ..)) he
      · trivial
      · trivial
  | event i =>
    simp only [State.act]
    split
    · exact hs
    · exact exec_legal i hs
  | command fn type c =>
    simp only [State.act]
    split
    · exact exec_legal _ hs
    · exact legal_of_ownRegs (badCommand_ownRegs ..) hs
  | request fn v => exact request_legal fn v hs
  | evictGuest die base => exact legal_of_ownRegs rfl hs
  | evictL1 pod base => exact legal_of_ownRegs (dropClean_ownRegs ..) hs
  | evictCode core addr => exact legal_of_ownRegs (modCore_ownRegs ..) hs
  | evictDesc part idx => exact legal_of_ownRegs (modPart_ownRegs ..) hs
  | evictLeaf k va => exact legal_of_ownRegs (dropLeaf_ownRegs ..) hs
  | part op n => exact legal_of_ownRegs (performPart_ownRegs ..) hs
  | headWord head => exact legal_of_ownRegs (headWord_ownRegs ..) hs
  | firmware => exact fwNext_legal hs
  | mask fn vec => exact legal_of_ownRegs (maskVector_ownRegs ..) hs
  | idle => exact hs

theorem advance_legal {s : State} (hs : s.legal = true) : Ends (·.legal = true) s.advance := by
  have ha := act_legal s.choice.act (legal_of_ownRegs (taken_ownRegs s) hs)
  unfold State.advance
  split
  · next t ht =>
    rw [ht] at ha
    exact legal_of_ownRegs (afterStep_ownRegs t) ha
  · trivial
  · trivial

/-- Settles O58: every action of a step is a row, or an event that leaves the registers but for FIRMWARE's next state. -/
theorem stepKeepsLegal : Obligations.StepKeepsLegal := by
  intro s t hs ht
  have h : Ends (·.legal = true) (step s) := advance_legal hs
  rwa [ht] at h

end Sys2Proof.Machine
end

section
/-! SUPPORT. What the fields of an encoded instruction read back as. -/

namespace Sys2Proof
/-- Whether the shortest words of the fields have an extension word. -/
def Fields.long (req : Bool) (f : Fields) : Bool :=
  req || f.gs || f.gp != 7 || f.c != 0 || f.sub != 0 || f.imm != 0

/-- The fields as their words give them back: X says whether there is an extension word, which is then the literal
too. -/
def Fields.readBack (req : Bool) (f : Fields) : Fields :=
  { f with x := f.long req, lit := if f.long req then f.ext else 0 }

theorem Fields.words_eq (req : Bool) (f : Fields) :
    f.words req = if f.long req then [{ f with x := true }.base, f.ext] else [{ f with x := false }.base] := rfl

/-! Words and bytes are made of fields side by side; each is cut out again. -/

theorem append_high {m n : Nat} (x : BitVec m) (y : BitVec n) (k l : Nat) :
    (x ++ y).extractLsb' (k + n) l = x.extractLsb' k l := by
  rw [BitVec.extractLsb'_append_eq_of_le (by omega), Nat.add_sub_cancel]

theorem append3_parts {p q r : Nat} (a : BitVec p) (b : BitVec q) (c : BitVec r) :
    (a ++ b ++ c).extractLsb' (q + r) p = a ∧ (a ++ b ++ c).extractLsb' r q = b ∧ (a ++ b ++ c).extractLsb' 0 r = c :=
  ⟨(append_high ..).trans BitVec.extractLsb'_append_eq_left,
    by simpa [BitVec.extractLsb'_append_eq_right] using append_high (a ++ b) c 0 q, BitVec.extractLsb'_append_eq_right⟩

theorem append4_parts {p q r s : Nat} (a : BitVec p) (b : BitVec q) (c : BitVec r) (d : BitVec s) :
    (a ++ b ++ c ++ d).extractLsb' (q + r + s) p = a ∧ (a ++ b ++ c ++ d).extractLsb' (r + s) q = b
    ∧ (a ++ b ++ c ++ d).extractLsb' s r = c ∧ (a ++ b ++ c ++ d).extractLsb' 0 s = d := by
  obtain ⟨ha, hb, hc⟩ := append3_parts a b c
  exact ⟨(append_high ..).trans ha, (append_high ..).trans hb, by simpa [hc] using append_high (a ++ b ++ c) d 0 r,
    BitVec.extractLsb'_append_eq_right⟩

theorem append5_parts {p q r s t : Nat} (a : BitVec p) (b : BitVec q) (c : BitVec r) (d : BitVec s) (e : BitVec t) :
    (a ++ b ++ c ++ d ++ e).extractLsb' (q + r + s + t) p = a ∧ (a ++ b ++ c ++ d ++ e).extractLsb' (r + s + t) q = b
    ∧ (a ++ b ++ c ++ d ++ e).extractLsb' (s + t) r = c ∧ (a ++ b ++ c ++ d ++ e).extractLsb' t s = d
    ∧ (a ++ b ++ c ++ d ++ e).extractLsb' 0 t = e := by
  obtain ⟨ha, hb, hc, hd⟩ := append4_parts a b c d
  exact ⟨(append_high ..).trans ha, (append_high ..).trans hb, (append_high ..).trans hc,
    by simpa [hd] using append_high (a ++ b ++ c ++ d) e 0 s, BitVec.extractLsb'_append_eq_right⟩

/-- A flag is the one bit that is cut out for it. -/
theorem getLsbD_of_extract {n k : Nat} {x : BitVec n} {b : Bool} (h : x.extractLsb' k 1 = BitVec.ofBool b) :
    x.getLsbD k = b := by
  have := congrArg (·.getLsbD 0) h
  simpa using this

theorem Fields.base_parts (f : Fields) : f.base.getLsbD 31 = f.x ∧ f.base.extractLsb' 24 7 = f.op
    ∧ f.base.extractLsb' 16 8 = f.d ∧ f.base.extractLsb' 8 8 = f.a ∧ f.base.extractLsb' 0 8 = f.b := by
  obtain ⟨hx, h⟩ := append5_parts (BitVec.ofBool f.x) f.op f.d f.a f.b
  exact ⟨getLsbD_of_extract hx, h⟩

theorem Fields.ext_parts (f : Fields) : f.ext.getLsbD 31 = f.gs ∧ f.ext.extractLsb' 28 3 = f.gp
    ∧ f.ext.extractLsb' 20 8 = f.c ∧ f.ext.extractLsb' 12 8 = f.sub ∧ f.ext.extractLsb' 0 12 = f.imm := by
  obtain ⟨hg, h⟩ := append5_parts (BitVec.ofBool f.gs) f.gp f.c f.sub f.imm
  exact ⟨getLsbD_of_extract hg, h⟩

/-- A field that the shortest words leave out holds its default. -/
theorem Fields.defaults_of_short {req : Bool} {f : Fields} (h : f.long req = false) :
    f.gs = false ∧ f.gp = 7 ∧ f.c = 0 ∧ f.sub = 0 ∧ f.imm = 0 := by
  simp only [Fields.long, Bool.or_eq_false_iff, bne_eq_false_iff_eq] at h
  obtain ⟨⟨⟨⟨⟨-, hgs⟩, hgp⟩, hc⟩, hsub⟩, himm⟩ := h
  exact ⟨hgs, hgp, hc, hsub, himm⟩

/-- The words of fields give the fields back. -/
theorem Fields.ofWords_words (req : Bool) (f : Fields) :
    Fields.ofWords ((f.words req).headD 0) ((f.words req).tail.headD 0) = f.readBack req := by
  unfold Fields.ofWords Fields.readBack
  rw [Fields.words_eq]
  cases h : f.long req with
  | true =>
    obtain ⟨hx, hop, hd, ha, hb⟩ := Fields.base_parts { f with x := true }
    obtain ⟨hgs, hgp, hc, hsub, himm⟩ := f.ext_parts
    simp only [if_true, List.headD_cons, List.tail_cons, hx, hop, hd, ha, hb, hgs, hgp, hc, hsub, himm]
  | false =>
    obtain ⟨hx, hop, hd, ha, hb⟩ := Fields.base_parts { f with x := false }
    obtain ⟨hgs, hgp, hc, hsub, himm⟩ := Fields.defaults_of_short h
    simp only [Bool.false_eq_true, if_false, List.headD_cons, hx, hop, hd, ha, hb]
    simp only [hgs, hgp, hc, hsub, himm]

theorem decode_words (c : DecCtx) (req : Bool) (f : Fields) :
    decode c ((f.words req).headD 0) ((f.words req).tail.headD 0) = decodeFields c (f.readBack req) := by
  rw [decode, Fields.ofWords_words]

/-! ## Operand fields -/

@[simp] theorem Opnd.ofCode_code (o : Opnd) : Opnd.ofCode o.code = o := by
  cases o with
  | x n | s n | t n | k n =>
    have := n.isLt
    simp only [Opnd.code, Opnd.ofCode, BitVec.toNat_ofNat]
    grind

@[simp] theorem reservedCode_code (o : Opnd) : reservedCode o.code = false := by
  cases o with
  | x n | s n | t n | k n =>
    have := n.isLt
    simp only [Opnd.code, reservedCode, BitVec.toNat_ofNat]
    grind

@[simp] theorem badSrc_code (c : DecCtx) (o : Opnd) : c.badSrc o.code = !o.src c.regs c.sync := by simp [DecCtx.badSrc]
@[simp] theorem badDst_code (c : DecCtx) (o : Opnd) : c.badDst o.code = !o.dst c.regs c.sync := by simp [DecCtx.badDst]
@[simp] theorem badPair_code (c : DecCtx) (o : Opnd) : c.badPair o.code = !o.pair c.regs c.sync := by
  simp [DecCtx.badPair]

@[simp] theorem badPred_pcode (p : Fin 8) : badPred (pcode p) = false := by
  revert p; decide
@[simp] theorem predOf_pcode (p : Fin 8) : predOf (pcode p) = p := by
  revert p; decide

/-! ## Codes of the small fields -/

@[simp] theorem Sz.ofBits_bits (z : Sz) : Sz.ofBits z.bits = z := by cases z <;> rfl
@[simp] theorem Order.ofBits_bits (z : Order) : Order.ofBits z.bits = z := by cases z <;> rfl
@[simp] theorem Scope.ofBits_bits (z : Scope) : Scope.ofBits z.bits = z := by cases z <;> rfl
@[simp] theorem Rm.ofBits_bits (z : Rm) : Rm.ofBits z.bits = z := by cases z <;> rfl
@[simp] theorem Cond.ofCode_code (z : Cond) : Cond.ofCode z.code = z := by cases z <;> rfl
@[simp] theorem FCond.ofCode_code (z : FCond) : FCond.ofCode z.code = z := by cases z <;> rfl
@[simp] theorem PsetOp.ofCode_code (z : PsetOp) : PsetOp.ofCode z.code = z := by cases z <;> rfl
@[simp] theorem CvtOp.ofCode_code (z : CvtOp) : CvtOp.ofCode z.code = z := by cases z <;> rfl
@[simp] theorem ShflMode.ofCode_code (z : ShflMode) : ShflMode.ofCode z.code = z := by cases z <;> rfl
@[simp] theorem LaneOp.ofCode_code (z : LaneOp) : LaneOp.ofCode z.code = z := by cases z <;> rfl
@[simp] theorem AtomOp.ofCode_code (z : AtomOp) : AtomOp.ofCode z.code = z := by cases z <;> rfl
@[simp] theorem SrecOp.ofCode_code (z : SrecOp) : SrecOp.ofCode z.code = z := by cases z <;> rfl
@[simp] theorem OutFmt.ofCode_code (z : OutFmt) : OutFmt.ofCode z.code = z := by cases z <;> rfl
@[simp] theorem EQueue.ofCode_code (z : EQueue) : EQueue.ofCode z.code = z := by cases z <;> rfl
@[simp] theorem EFmt.ofCode?_code (z : EFmt) : EFmt.ofCode? z.code = some z := by cases z <;> rfl

/-! ## The fields of an encoder's shapes, read back -/

variable (req : Bool) (f : Fields)

@[simp] theorem Fields.readBack_op : (f.readBack req).op = f.op := rfl
@[simp] theorem Fields.readBack_d : (f.readBack req).d = f.d := rfl
@[simp] theorem Fields.readBack_a : (f.readBack req).a = f.a := rfl
@[simp] theorem Fields.readBack_b : (f.readBack req).b = f.b := rfl
@[simp] theorem Fields.readBack_c : (f.readBack req).c = f.c := rfl
@[simp] theorem Fields.readBack_gs : (f.readBack req).gs = f.gs := rfl
@[simp] theorem Fields.readBack_gp : (f.readBack req).gp = f.gp := rfl
@[simp] theorem Fields.readBack_sub : (f.readBack req).sub = f.sub := rfl
@[simp] theorem Fields.readBack_imm : (f.readBack req).imm = f.imm := rfl
@[simp] theorem Fields.readBack_g : (f.readBack req).g = f.g := rfl
@[simp] theorem Fields.readBack_x_true : (f.readBack true).x = true := rfl

@[simp] theorem Fields.readBack_s (req : Bool) (f : Fields) : (f.readBack req).s = f.s := rfl
@[simp] theorem Fields.readBack_f4 (req : Bool) (f : Fields) : (f.readBack req).f4 = f.f4 := rfl
@[simp] theorem Fields.readBack_u (req : Bool) (f : Fields) : (f.readBack req).u = f.u := rfl
@[simp] theorem Fields.readBack_i (req : Bool) (f : Fields) : (f.readBack req).i = f.i := rfl
@[simp] theorem Fields.readBack_w (req : Bool) (f : Fields) : (f.readBack req).w = f.w := rfl
@[simp] theorem Fields.readBack_f3 (req : Bool) (f : Fields) : (f.readBack req).f3 = f.f3 := rfl
@[simp] theorem Fields.readBack_rm (req : Bool) (f : Fields) : (f.readBack req).rm = f.rm := rfl
@[simp] theorem Fields.readBack_scope (req : Bool) (f : Fields) : (f.readBack req).scope = f.scope := rfl
@[simp] theorem Fields.readBack_order (req : Bool) (f : Fields) : (f.readBack req).order = f.order := rfl
@[simp] theorem Fields.readBack_size (req : Bool) (f : Fields) : (f.readBack req).size = f.size := rfl
@[simp] theorem Fields.readBack_src (req : Bool) (f : Fields) : (f.readBack req).src = f.src := rfl
@[simp] theorem Fields.readBack_srcIll (req : Bool) (f : Fields) : (f.readBack req).srcIll = f.srcIll := rfl

section mk

variable (op : BitVec 7) (g : Guard) (d a b c sub : Byte) (imm : BitVec 12)

@[simp] theorem mk_op : (mk op g d a b c sub imm).op = op := rfl
@[simp] theorem mk_d : (mk op g d a b c sub imm).d = d := rfl
@[simp] theorem mk_a : (mk op g d a b c sub imm).a = a := rfl
@[simp] theorem mk_b : (mk op g d a b c sub imm).b = b := rfl
@[simp] theorem mk_c : (mk op g d a b c sub imm).c = c := rfl
@[simp] theorem mk_sub : (mk op g d a b c sub imm).sub = sub := rfl
@[simp] theorem mk_imm : (mk op g d a b c sub imm).imm = imm := rfl
@[simp] theorem mk_g : (mk op g d a b c sub imm).g = g := rfl

end mk

section subInt

variable (op : BitVec 7) (g : Guard) (d a b c : Byte) (imm : BitVec 12) (s u i w : Bool) (n : Nat)

theorem subInt_parts (s u i w : Bool) (n : Nat) : (subInt s n u i w).getLsbD 7 = s ∧
    (subInt s n u i w).extractLsb' 3 4 = BitVec.ofNat 4 n
    ∧ (subInt s n u i w).getLsbD 2 = u ∧ (subInt s n u i w).getLsbD 1 = i ∧ (subInt s n u i w).getLsbD 0 = w := by
  obtain ⟨hs, hn, hu, hi, hw⟩ :=
    append5_parts (BitVec.ofBool s) (BitVec.ofNat 4 n) (BitVec.ofBool u) (BitVec.ofBool i) (BitVec.ofBool w)
  exact ⟨getLsbD_of_extract hs, hn, getLsbD_of_extract hu, getLsbD_of_extract hi, getLsbD_of_extract hw⟩

@[simp] theorem mk_subInt_s : (mk op g d a b c (subInt s n u i w) imm).s = s := (subInt_parts s u i w n).1
@[simp] theorem mk_subInt_f4 : (mk op g d a b c (subInt s n u i w) imm).f4 = n % 16 := by
  rw [Fields.f4, mk_sub, (subInt_parts s u i w n).2.1, BitVec.toNat_ofNat]
@[simp] theorem mk_subInt_u : (mk op g d a b c (subInt s n u i w) imm).u = u := (subInt_parts s u i w n).2.2.1
@[simp] theorem mk_subInt_i : (mk op g d a b c (subInt s n u i w) imm).i = i := (subInt_parts s u i w n).2.2.2.1
@[simp] theorem mk_subInt_w : (mk op g d a b c (subInt s n u i w) imm).w = w := (subInt_parts s u i w n).2.2.2.2

end subInt

@[simp] theorem eUn_op (op : BitVec 7) (g : Guard) (s u w : Bool) (n : Nat) (d a : Byte) :
    (eUn op g s n u w d a).op = op :=
  rfl
@[simp] theorem eLit_op (op : BitVec 7) (d : Byte) (v : W32) : (eLit op d v).op = op := rfl

/-! A second source comes back whole. -/

section eInt

variable (op : BitVec 7) (g : Guard) (s u w : Bool) (n : Nat) (d a c : Byte) (b : Src)

@[simp] theorem eInt_op : (eInt op g s n u w d a b c).op = op := rfl
@[simp] theorem eInt_d : (eInt op g s n u w d a b c).d = d := rfl
@[simp] theorem eInt_a : (eInt op g s n u w d a b c).a = a := rfl
@[simp] theorem eInt_c : (eInt op g s n u w d a b c).c = c := rfl
@[simp] theorem eInt_g : (eInt op g s n u w d a b c).g = g := rfl
@[simp] theorem eInt_s : (eInt op g s n u w d a b c).s = s := mk_subInt_s ..
@[simp] theorem eInt_f4 : (eInt op g s n u w d a b c).f4 = n % 16 := mk_subInt_f4 ..
@[simp] theorem eInt_u : (eInt op g s n u w d a b c).u = u := mk_subInt_u ..
@[simp] theorem eInt_w : (eInt op g s n u w d a b c).w = w := mk_subInt_w ..
@[simp] theorem eInt_src : (eInt op g s n u w d a b c).src = b := by
  cases b <;> simp [eInt, Fields.src, Src.isImm, Src.immv, Src.code]
@[simp] theorem eInt_srcIll : (eInt op g s n u w d a b c).srcIll = false := by
  cases b <;> simp [eInt, Fields.srcIll, Src.isImm, Src.immv, Src.code]
@[simp] theorem eInt_badB (req : Bool) (x : DecCtx) :
    x.badB ((eInt op g s n u w d a b c).readBack req) = !b.ok x.regs x.sync := by
  cases b <;> simp [eInt, DecCtx.badB, Src.isImm, Src.immv, Src.code, Src.ok]

end eInt

/-! ## FP modifiers (R34) -/

@[simp] theorem Fields.readBack_fp (req : Bool) (f : Fields) : (f.readBack req).fp = f.fp := rfl
@[simp] theorem Fields.readBack_fpIll (req : Bool) (f : Fields) : (f.readBack req).fpIll = f.fpIll := rfl

section subFp

variable (op : BitVec 7) (g : Guard) (d a b c : Byte) (imm : BitVec 12) (z p : Bool) (n : Nat) (rm : BitVec 3)
  (m : FpMod)

theorem subFp_parts (n : Nat) (rm : BitVec 3) (z p : Bool) : (subFp n rm z p).extractLsb' 5 3 = BitVec.ofNat 3 n
    ∧ (subFp n rm z p).extractLsb' 2 3 = rm ∧ (subFp n rm z p).getLsbD 1 = z ∧ (subFp n rm z p).getLsbD 0 = p := by
  obtain ⟨hn, hrm, hz, hp⟩ := append4_parts (BitVec.ofNat 3 n) rm (BitVec.ofBool z) (BitVec.ofBool p)
  exact ⟨hn, hrm, getLsbD_of_extract hz, getLsbD_of_extract hp⟩

@[simp] theorem mk_subFp_f3 : (mk op g d a b c (subFp n rm z p) imm).f3 = n % 8 := by
  rw [Fields.f3, mk_sub, (subFp_parts n rm z p).1, BitVec.toNat_ofNat]
@[simp] theorem mk_subFp_rm : (mk op g d a b c (subFp n rm z p) imm).rm = rm := (subFp_parts n rm z p).2.1
@[simp] theorem mk_subFp_i : (mk op g d a b c (subFp n rm z p) imm).i = z := (subFp_parts n rm z p).2.2.1
@[simp] theorem mk_subFp_w : (mk op g d a b c (subFp n rm z p) imm).w = p := (subFp_parts n rm z p).2.2.2
@[simp] theorem mk_subFp_fpIll : (mk op g d a b c (subFp n 0#3 z p) imm).fpIll = (z && !p) := by simp [Fields.fpIll]

@[simp] theorem mk_fpSub_f3 : (mk op g d a b c (m.sub n) imm).f3 = n % 8 := mk_subFp_f3 ..
@[simp] theorem mk_fpSub_rm : (mk op g d a b c (m.sub n) imm).rm = m.rm.bits := mk_subFp_rm ..
@[simp] theorem mk_fpSub_w : (mk op g d a b c (m.sub n) imm).w = m.single := mk_subFp_w ..
@[simp] theorem mk_fpSub_fp : (mk op g d a b c (m.sub n) imm).fp = m := by simp [Fields.fp, FpMod.sub]
@[simp] theorem mk_fpSub_fpIll : (mk op g d a b c (m.sub n) imm).fpIll = !m.ok := by
  obtain ⟨rm, z, p⟩ := m
  cases rm <;> simp [Fields.fpIll, FpMod.sub, FpMod.ok, Rm.bits]

end subFp

/-! ## Codes lie in their fields -/

@[simp] theorem Cond.code_mod16 (x : Cond) : x.code % 16 = x.code := by cases x <;> rfl
@[simp] theorem Cond.code_le (x : Cond) : x.code ≤ 5 := by cases x <;> decide
@[simp] theorem PsetOp.code_mod16 (x : PsetOp) : x.code % 16 = x.code := by cases x <;> rfl
@[simp] theorem PsetOp.code_le (x : PsetOp) : x.code ≤ 3 := by cases x <;> decide
@[simp] theorem ShflMode.code_mod16 (x : ShflMode) : x.code % 16 = x.code := by cases x <;> rfl
@[simp] theorem ShflMode.code_le (x : ShflMode) : x.code ≤ 3 := by cases x <;> decide
@[simp] theorem LaneOp.code_mod16 (x : LaneOp) : x.code % 16 = x.code := by cases x <;> rfl
@[simp] theorem LaneOp.code_le (x : LaneOp) : x.code ≤ 6 := by cases x <;> decide
@[simp] theorem LaneOp.code_ne_seven (x : LaneOp) : x.code ≠ 7 := by cases x <;> decide
@[simp] theorem LaneOp.code_eq_six (x : LaneOp) : x.code = 6 ↔ x = .fadd := by cases x <;> decide
@[simp] theorem FCond.code_mod8 (x : FCond) : x.code % 8 = x.code := by cases x <;> rfl
@[simp] theorem CvtOp.code_mod8 (x : CvtOp) : x.code % 8 = x.code := by cases x <;> rfl
@[simp] theorem CvtOp.code_ne_seven (x : CvtOp) : x.code ≠ 7 := by cases x <;> decide
@[simp] theorem CvtOp.code_eq_zero (x : CvtOp) : x.code = 0 ↔ x = .f2f := by cases x <;> decide
@[simp] theorem Rm.bits_eq_zero (x : Rm) : x.bits = 0#3 ↔ x = .rn := by cases x <;> decide

theorem laneF_mod {l : Bool} {n : Nat} (h : n < 8) : laneF l n % 8 = n := by unfold laneF; grind
theorem le_laneF {l : Bool} {n : Nat} (h : n < 8) : (8 ≤ laneF l n % 16) = (l = true) := by unfold laneF; grind
@[simp] theorem laneF_zero_mod (l : Bool) : laneF l 0 % 8 = 0 := laneF_mod (by decide)
@[simp] theorem le_laneF_zero (l : Bool) : (8 ≤ laneF l 0 % 16) = (l = true) := le_laneF (by decide)
@[simp] theorem laneF_cond_mod (l : Bool) (x : Cond) : laneF l x.code % 8 = x.code := laneF_mod (by cases x <;> decide)
@[simp] theorem le_laneF_cond (l : Bool) (x : Cond) : (8 ≤ laneF l x.code % 16) = (l = true) :=
  le_laneF (by cases x <;> decide)
@[simp] theorem laneF_op_mod (l : Bool) (x : LaneOp) : laneF l x.code % 8 = x.code := laneF_mod (by cases x <;> decide)
@[simp] theorem laneF_op_mod16 (l : Bool) (x : LaneOp) : laneF l x.code % 16 % 8 = x.code := by
  cases l <;> cases x <;> rfl
@[simp] theorem le_laneF_op (l : Bool) (x : LaneOp) : (8 ≤ laneF l x.code % 16) = (l = true) :=
  le_laneF (by cases x <;> decide)

@[simp] theorem sync_of_low (c regs rows : Nat) (h : c < 4)
    (p l a : Bool): DecCtx.sync ⟨c, regs, rows, p, l, a⟩ = false := by
  simp [DecCtx.sync, h]
@[simp] theorem sync_of_high (c regs rows : Nat) (h : 4 ≤ c)
    (p l a : Bool): DecCtx.sync ⟨c, regs, rows, p, l, a⟩ = true := by
  simp [DecCtx.sync, h]

theorem off_bytes (o : BitVec 16) : o.extractLsb' 8 8 ++ o.extractLsb' 0 8 = o := by
  ext i; simp; grind

@[simp] theorem fin_val_mod {k m : Nat} (n : Fin k) (h : k ≤ m) : n.val % m = n.val :=
  Nat.mod_eq_of_lt (n.isLt.trans_le h)

@[simp] theorem fin_not_gt {k m : Nat} (n : Fin k) (h : k ≤ m + 1) : (m < n.val) = False := by
  simp only [eq_iff_iff, iff_false]; omega

@[simp] theorem fin_not_ge {k m : Nat} (n : Fin k) (h : k ≤ m) : (m ≤ n.val) = False := by
  simp only [eq_iff_iff, iff_false]; omega

@[simp] theorem fin_byte_eq_zero {k : Nat} (n : Fin k) (h : k ≤ 256) : (BitVec.ofNat 8 n.val = 0#8) = (n.val = 0) := by
  have := n.isLt
  simp only [eq_iff_iff]
  bv_omega

theorem Opnd.taskAddr_eq (regs : Nat) (o : Opnd) : o.taskAddr regs = (o.src regs true && !taskAddrIll o.code) := by
  cases o with
  | x n | s n | t n | k n =>
    have := n.isLt
    simp [Opnd.taskAddr, Opnd.src, taskAddrIll, Opnd.code]
    try omega

/-- The only modifier of an instruction that takes a second source and no other is I. -/
@[simp] theorem eInt_sub_eq_two (op : BitVec 7) (g : Guard) (d a c : Byte) (b : Src) :
    ((eInt op g false 0 false false d a b c).sub = 2#8) = ¬(eInt op g false 0 false false d a b c).sub = 0#8 := by
  cases b <;> simp [eInt, subInt, Src.isImm]

theorem mk_noGuard_guarded (op : BitVec 7) (d a b c sub : Byte) (imm : BitVec 12) :
    (mk op noGuard d a b c sub imm).guarded = false := by
  simp [Fields.guarded, mk, noGuard]
@[simp] theorem Fields.readBack_guarded (req : Bool) (f : Fields) : (f.readBack req).guarded = f.guarded := rfl

/-- The operation word of `push` (R156). -/
def pushWord (q : EQueue) (pf : Fin 8) (slot : Option (Fin 16)) : BitVec 12 :=
  (match slot with | some s => (BitVec.ofFin s : BitVec 4) | none => (0 : BitVec 4)) ++ BitVec.ofBool slot.isSome
    ++ (BitVec.ofFin pf : BitVec 3) ++ (0 : BitVec 1) ++ BitVec.ofNat 3 q.code

theorem pushWord_parts (q : EQueue) (pf : Fin 8) (slot : Option (Fin 16)) :
    (pushWord q pf slot).extractLsb' 8 4 = (match slot with | some s => BitVec.ofFin s | none => 0)
    ∧ (pushWord q pf slot).getLsbD 7 = slot.isSome ∧ (pushWord q pf slot).extractLsb' 4 3 = BitVec.ofFin pf
    ∧ (pushWord q pf slot).getLsbD 3 = false ∧ (pushWord q pf slot).extractLsb' 0 3 = BitVec.ofNat 3 q.code := by
  obtain ⟨hs, hh, hpf, hz, hq⟩ := append5_parts
    (match slot with | some s => (BitVec.ofFin s : BitVec 4) | none => (0 : BitVec 4)) (BitVec.ofBool slot.isSome)
    (BitVec.ofFin pf : BitVec 3) (0 : BitVec 1) (BitVec.ofNat 3 q.code)
  exact ⟨hs, getLsbD_of_extract hh, hpf, getLsbD_of_extract (b := false) hz, hq⟩

@[simp] theorem EQueue.code_mod8 (q : EQueue) : q.code % 8 = q.code := by cases q <;> rfl
@[simp] theorem EQueue.code_bits_ne (q : EQueue) : BitVec.ofNat 3 q.code ≠ 7#3 := by cases q <;> decide

/-! ## Memory fields (R34, R94, R229) -/

theorem subMem_parts (o : Ord) (z : BitVec 3) : (subMem o z).extractLsb' 6 2 = o.scope.bits
    ∧ (subMem o z).extractLsb' 3 3 = o.order.bits ∧ (subMem o z).extractLsb' 0 3 = z :=
  append3_parts o.scope.bits o.order.bits z

@[simp] theorem Fields.readBack_memIll (req : Bool) (f : Fields) : (f.readBack req).memIll = f.memIll := rfl
@[simp] theorem Fields.readBack_scopeIll (req : Bool) (f : Fields) : (f.readBack req).scopeIll = f.scopeIll := rfl
@[simp] theorem Fields.readBack_ord (req : Bool) (f : Fields) : (f.readBack req).ord = f.ord := rfl
@[simp] theorem Fields.readBack_mem (req : Bool) (f : Fields) : (f.readBack req).mem = f.mem := rfl
@[simp] theorem Fields.readBack_sx (req : Bool) (f : Fields) : (f.readBack req).sx = f.sx := rfl
@[simp] theorem Fields.readBack_rep (req : Bool) (f : Fields) : (f.readBack req).rep = f.rep := rfl
@[simp] theorem Fields.readBack_fe (req : Bool) (f : Fields) : (f.readBack req).fe = f.fe := rfl
@[simp] theorem Fields.readBack_clr (req : Bool) (f : Fields) : (f.readBack req).clr = f.clr := rfl
@[simp] theorem Fields.readBack_c74 (req : Bool) (f : Fields) : (f.readBack req).c74 = f.c74 := rfl

@[simp] theorem Sz.bits_le (z : Sz) : z.bits.toNat ≤ 4 := by cases z <;> decide
@[simp] theorem Order.bits_le (o : Order) : o.bits.toNat ≤ 4 := by cases o <;> decide
@[simp] theorem atomSize_le (wide : Bool) : (atomSize wide).toNat ≤ 4 := by cases wide <;> decide
@[simp] theorem Order.bits_eq_zero (o : Order) : (o.bits = 0#3) = (o = .none) := by cases o <;> decide
@[simp] theorem Order.bits_eq_one (o : Order) : (o.bits = 1#3) = (o = .acq) := by cases o <;> decide
@[simp] theorem Order.bits_eq_two (o : Order) : (o.bits = 2#3) = (o = .rel) := by cases o <;> decide
@[simp] theorem Order.bits_eq_three (o : Order) : (o.bits = 3#3) = (o = .ar) := by cases o <;> decide
@[simp] theorem Order.bits_eq_four (o : Order) : (o.bits = 4#3) = (o = .sc) := by cases o <;> decide
@[simp] theorem Scope.bits_eq_zero (o : Scope) : (o.bits = 0#2) = (o = .team) := by cases o <;> decide
@[simp] theorem Sz.bits_eq_four (z : Sz) : (z.bits = 4#3) = (z = .q) := by cases z <;> decide

section mkMem

variable (op : BitVec 7) (g : Guard) (d a b c : Byte) (imm : BitVec 12) (o : Ord) (z : BitVec 3)

@[simp] theorem mk_subMem_scope : (mk op g d a b c (subMem o z) imm).scope = o.scope.bits := (subMem_parts o z).1
@[simp] theorem mk_subMem_order : (mk op g d a b c (subMem o z) imm).order = o.order.bits := (subMem_parts o z).2.1
@[simp] theorem mk_subMem_size : (mk op g d a b c (subMem o z) imm).size = z := (subMem_parts o z).2.2
@[simp] theorem mk_subMem_ord : (mk op g d a b c (subMem o z) imm).ord = o := by simp [Fields.ord]
@[simp] theorem mk_subMem_memIll (h : z.toNat ≤ 4) : (mk op g d a b c (subMem o z) imm).memIll = false := by
  simp [Fields.memIll, h]
@[simp] theorem mk_subMem_scopeIll : (mk op g d a b c (subMem o z) imm).scopeIll = !o.plain := by
  obtain ⟨order, scope⟩ := o
  rw [Fields.scopeIll, mk_subMem_order, mk_subMem_scope]
  cases order <;> cases scope <;> rfl

end mkMem

theorem memMod_parts (clr fe rep sx : Bool) : (memMod clr fe rep sx).extractLsb' 4 4 = 0
    ∧ (memMod clr fe rep sx).getLsbD 3 = clr ∧ (memMod clr fe rep sx).getLsbD 2 = fe
    ∧ (memMod clr fe rep sx).getLsbD 1 = rep ∧ (memMod clr fe rep sx).getLsbD 0 = sx := by
  revert clr fe rep sx; decide

theorem elemMod_parts (f : EFmt) (out : OutFmt) (sx : Bool) :
    (elemMod f out.code sx).extractLsb' 4 4 = BitVec.ofNat 4 f.code
    ∧ (elemMod f out.code sx).extractLsb' 2 2 = BitVec.ofNat 2 out.code ∧ (elemMod f out.code sx).getLsbD 1 = false
    ∧ (elemMod f out.code sx).getLsbD 0 = sx := by
  obtain ⟨hf, ho, hr, hs⟩ :=
    append4_parts (BitVec.ofNat 4 f.code) (BitVec.ofNat 2 out.code) (0 : BitVec 1) (BitVec.ofBool sx)
  exact ⟨hf, ho, getLsbD_of_extract (b := false) hr, getLsbD_of_extract hs⟩

section
variable (op : BitVec 7) (g : Guard) (d a b  sub : Byte) (imm : BitVec 12) (clr fe rep sx : Bool)

@[simp] theorem mk_memMod_c74 : (mk op g d a b (memMod clr fe rep sx) sub imm).c74 = 0 := by
  simp [-BitVec.extractLsb'_toNat, Fields.c74, memMod_parts]
@[simp] theorem mk_memMod_clr : (mk op g d a b (memMod clr fe rep sx) sub imm).clr = clr :=
  (memMod_parts clr fe rep sx).2.1
@[simp] theorem mk_memMod_fe : (mk op g d a b (memMod clr fe rep sx) sub imm).fe = fe :=
  (memMod_parts clr fe rep sx).2.2.1
@[simp] theorem mk_memMod_rep : (mk op g d a b (memMod clr fe rep sx) sub imm).rep = rep :=
  (memMod_parts clr fe rep sx).2.2.2.1
@[simp] theorem mk_memMod_sx : (mk op g d a b (memMod clr fe rep sx) sub imm).sx = sx :=
  (memMod_parts clr fe rep sx).2.2.2.2
end

@[simp] theorem mk_mem (op : BitVec 7) (g : Guard) (d c sub : Byte) (r : MemRef) :
    (mk op g d r.base.code r.idx.code c sub r.off).mem = r := by simp [Fields.mem]

theorem dataOk_eq (regs : Nat) (z : Sz) (written : Bool) (d : Opnd) : dataOk regs (8 * z.bytes) written d
    = if z = .q then d.pair regs false else if written then d.dst regs false else d.src regs false := by
  cases z <;> simp [dataOk, Sz.bytes]

@[simp] theorem badData_mk (x : DecCtx) (req : Bool) (op : BitVec 7) (g : Guard) (d : Opnd) (a b c sub : Byte)
    (imm : BitVec 12) (written pair : Bool) : x.badData ((mk op g d.code a b c sub imm).readBack req) written pair
    = !(if pair then d.pair x.regs x.sync else if written then d.dst x.regs x.sync else d.src x.regs x.sync) := by
  cases pair <;> cases written <;> simp [DecCtx.badData]

@[simp] theorem Sz.two_lt_bits (z : Sz) : (2 < z.bits.toNat) = (8 ≤ z.bytes) := by cases z <;> decide
@[simp] theorem Order.bits_le_one (o : Order) : (o.bits.toNat ≤ 1) = (o = .none ∨ o = .acq) := by cases o <;> decide
@[simp] theorem Order.one_lt_bits (o : Order) : (1 < o.bits.toNat) = ¬(o = .none ∨ o = .acq) := by cases o <;> decide
@[simp] theorem Order.bits_le_three (o : Order) : (o.bits.toNat ≤ 3) = (o ≠ .sc) := by cases o <;> decide

@[simp] theorem EFmt.code_mod16 (f : EFmt) : f.code % 16 = f.code := by cases f <;> rfl
@[simp] theorem OutFmt.code_mod4 (f : OutFmt) : f.code % 4 = f.code := by cases f <;> rfl
@[simp] theorem SrecOp.code_mod8 (f : SrecOp) : f.code % 8 = f.code := by cases f <;> rfl

section elemMod

variable (op : BitVec 7) (g : Guard) (d a b sub : Byte) (imm : BitVec 12) (f : EFmt) (out : OutFmt) (sx : Bool)

@[simp] theorem mk_elemMod_c74 : (mk op g d a b (elemMod f out.code sx) sub imm).c74 = f.code := by
  rw [Fields.c74, mk_c, (elemMod_parts f out sx).1, BitVec.toNat_ofNat]
  exact f.code_mod16
@[simp] theorem mk_elemMod_sx : (mk op g d a b (elemMod f out.code sx) sub imm).sx = sx :=
  (elemMod_parts f out sx).2.2.2
theorem elemMod_out : ((elemMod f out.code sx).extractLsb' 2 2).toNat = out.code := by
  rw [(elemMod_parts f out sx).2.1, BitVec.toNat_ofNat]
  exact out.code_mod4

@[simp] theorem mk_elemMod_fe : (mk op g d a b (elemMod f (OutFmt.code .f32) sx) sub imm).fe = false := by
  simp only [Fields.fe, mk_c]
  cases f <;> cases sx <;> rfl
@[simp] theorem mk_elemMod_clr : (mk op g d a b (elemMod f (OutFmt.code .f32) sx) sub imm).clr = false := by
  simp only [Fields.clr, mk_c]
  cases f <;> cases sx <;> rfl

end elemMod

/-- The data field of an element access is an s register. -/
theorem isS_code (d : Opnd) : (decide (128 ≤ d.code.toNat) && decide (d.code.toNat < 192)) = d.isS := by
  cases d with
  | x n | s n | t n | k n =>
    have := n.isLt
    simp [Opnd.isS, Opnd.code]
    try omega

theorem dElem_mk {regs rows slot : Nat} {written : Bool} {op : BitVec 7} {g : Guard} {d : Opnd} {r : MemRef}
    {c : Byte} {o : Ord} {k : Sz} {i : Instr}
    (hc : c.getLsbD 1 = false) (ho : o.plain = true) (h128 : k.bytes * slot ≤ 128)
    (hs : k.bytes * slot ≤ 64 ∨ d.isS = false)
    (hd : dataOk regs (k.bytes * slot) written d = true) (hr : r.ok regs = true) :
    dElem ⟨1, regs, rows, true, true, true⟩
      ((mk op g d.code r.base.code r.idx.code c (subMem o k.bits) r.off).readBack true) slot written false i
      = .ok i := by
  rw [dataOk] at hd
  simp [MemRef.ok] at hr
  let f := (mk op g d.code r.base.code r.idx.code c (subMem o k.bits) r.off).readBack true
  have hd' : (decide (128 ≤ f.d.toNat) && decide (f.d.toNat < 192)) = d.isS := isS_code d
  have hk : Sz.ofBits f.size = k := by simp [f]
  have hc' : f.c.getLsbD 1 = false := hc
  have hS : (decide (64 < k.bytes * slot) && d.isS) = false := by simpa [imp_iff_not_or] using hs
  unfold dElem
  simp only [f, hd', hk, hc', hS]
  simp [judge, ho, hr, h128, hd]

@[simp] theorem atomWord_op (op : AtomOp) (ps : Fin 8) : ((atomWord op ps).extractLsb' 0 5).toNat = op.code := by
  revert ps; cases op <;> decide
@[simp] theorem atomWord_ps (op : AtomOp) (ps : Fin 8) : (atomWord op ps).extractLsb' 6 3 = BitVec.ofFin ps := by
  revert ps; cases op <;> decide
@[simp] theorem atomWord_reserved (op : AtomOp) (ps : Fin 8) :
    (atomWord op ps).getLsbD 5 = false ∧ (atomWord op ps).extractLsb' 9 3 = 0 := by
  revert ps; cases op <;> decide

@[simp] theorem AtomOp.code_le (op : AtomOp) : op.code ≤ 15 := by cases op <;> decide
@[simp] theorem AtomOp.fifteen_lt_code (op : AtomOp) : (15 < op.code) = False := by cases op <;> decide
@[simp] theorem AtomOp.code_cas (op : AtomOp) : (op.code = 1) = (op = .cas) := by cases op <;> decide
theorem AtomOp.hasSuccess_iff (op : AtomOp) : op.hasSuccess = true ↔ op = .cas ∨ op = .addb := by cases op <;> decide
@[simp] theorem atomSize_ne_two (wide : Bool) : (atomSize wide = 2#3) = (wide = false) := by cases wide <;> decide
@[simp] theorem atomSize_eq_three (wide : Bool) : (atomSize wide = 3#3) = (wide = true) := by cases wide <;> decide
@[simp] theorem AtomOp.code_le_one (op : AtomOp) : (op.code ≤ 1) = (op = .swap ∨ op = .cas) := by cases op <;> decide
@[simp] theorem AtomOp.code_addb (op : AtomOp) : (op.code = 12) = (op = .addb) := by cases op <;> decide

@[simp] theorem beq_atomSize (wide : Bool) : (atomSize wide == 3#3) = wide := by cases wide <;> rfl
@[simp] theorem Order.three_lt_bits (o : Order) : (3 < o.bits.toNat) = (o = .sc) := by cases o <;> decide

/-- IMM12 of `srec` (R302). -/
def srecWord (op : SrecOp) (force held : Bool) (ps : Fin 8) : BitVec 12 :=
  (0 : BitVec 3) ++ (BitVec.ofFin ps : BitVec 3) ++ BitVec.ofBool force ++ BitVec.ofBool held ++ (0 : BitVec 1)
    ++ BitVec.ofNat 3 op.code

theorem srecWord_parts (op : SrecOp) (force held : Bool) (ps : Fin 8) :
    (srecWord op force held ps).extractLsb' 9 3 = 0 ∧ (srecWord op force held ps).extractLsb' 6 3 = BitVec.ofFin ps
    ∧ (srecWord op force held ps).getLsbD 5 = force ∧ (srecWord op force held ps).getLsbD 4 = held
    ∧ (srecWord op force held ps).getLsbD 3 = false
    ∧ ((srecWord op force held ps).extractLsb' 0 3).toNat = op.code := by
  revert ps; cases op <;> cases force <;> cases held <;> decide

theorem getLsbD_of_part {n k l i : Nat} {x y : BitVec n} (h : x.extractLsb' k l = y.extractLsb' k l) (hk : k ≤ i)
    (hl : i < k + l) :
    x.getLsbD i = y.getLsbD i := by
  have := congrArg (·.getLsbD (i - k)) h
  simpa [-BitVec.getLsbD_eq_getElem, BitVec.getLsbD_extractLsb', show i - k < l by omega,
    show k + (i - k) = i by omega] using this

/-- The literal of an I-form instruction is the extension word of its fields. -/
@[simp] theorem eLit_ext (op : BitVec 7) (d : Byte) (v : W32) : (eLit op d v).ext = v := by
  obtain ⟨hgs, hgp, hc, hsub, himm⟩ := (eLit op d v).ext_parts
  refine BitVec.eq_of_getLsbD_eq fun i hi => ?_
  rcases show i < 12 ∨ 12 ≤ i ∧ i < 20 ∨ 20 ≤ i ∧ i < 28 ∨ 28 ≤ i ∧ i < 31 ∨ i = 31 by omega with h | h | h | h | rfl
  · exact getLsbD_of_part himm (Nat.zero_le i) (by omega)
  · exact getLsbD_of_part hsub h.1 (by omega)
  · exact getLsbD_of_part hc h.1 (by omega)
  · exact getLsbD_of_part hgp h.1 (by omega)
  · exact hgs

/-- SUB of `mma` and `mmab` (R245). -/
def mmaSub (m : MmaMod) : Byte :=
  BitVec.ofBool m.set ++ BitVec.ofNat 2 m.lb.val ++ BitVec.ofBool m.ra ++ BitVec.ofNat 4 m.fmt.code
/-- IMM12 of `mma` and `mmab` (R245). -/
def mmaWord (m : MmaMod) (gb : Nat) : BitVec 12 :=
  BitVec.ofBool m.fec ++ BitVec.ofBool m.few ++ BitVec.ofNat 2 gb ++ m.ar

theorem mmaSub_parts (m : MmaMod) : (mmaSub m).getLsbD 7 = m.set ∧ ((mmaSub m).extractLsb' 5 2).toNat = m.lb.val
    ∧ (mmaSub m).getLsbD 4 = m.ra ∧ ((mmaSub m).extractLsb' 0 4).toNat = m.fmt.code := by
  obtain ⟨hs, hl, hr, hf⟩ :=
    append4_parts (BitVec.ofBool m.set) (BitVec.ofNat 2 m.lb.val) (BitVec.ofBool m.ra) (BitVec.ofNat 4 m.fmt.code)
  refine ⟨getLsbD_of_extract hs, ?_, getLsbD_of_extract hr, ?_⟩
  · exact (congrArg BitVec.toNat hl).trans (by simp)
  · exact (congrArg BitVec.toNat hf).trans (by simp)

theorem mmaWord_parts (m : MmaMod) {gb : Nat} (h : gb < 3) : (mmaWord m gb).getLsbD 11 = m.fec ∧
    (mmaWord m gb).getLsbD 10 = m.few
    ∧ ((mmaWord m gb).extractLsb' 8 2).toNat = gb ∧ (mmaWord m gb).extractLsb' 0 8 = m.ar := by
  obtain ⟨hc, hw, hg, ha⟩ := append4_parts (BitVec.ofBool m.fec) (BitVec.ofBool m.few) (BitVec.ofNat 2 gb) m.ar
  exact ⟨getLsbD_of_extract hc, getLsbD_of_extract hw, (congrArg BitVec.toNat hg).trans (by simp; omega), ha⟩

@[simp] theorem EFmt.code_ne_zero (f : EFmt) : f.code ≠ 0 := by cases f <;> decide
@[simp] theorem EFmt.code_le (f : EFmt) : f.code ≤ 12 := by cases f <;> decide
@[simp] theorem EFmt.code_eq_two (f : EFmt) : (f.code = 2) = (f = .fp32) := by cases f <;> decide

section eMma

variable (op : BitVec 7) (g : Guard) (k : Fin 8) (m : MmaMod) (gb : Nat) (a : Fin 128) (b : Opnd) (c : Option (Fin 128))

@[simp] theorem eMma_op : (eMma op g k m gb a b c).op = op := rfl
@[simp] theorem eMma_g : (eMma op g k m gb a b c).g = g := rfl
@[simp] theorem eMma_d : (eMma op g k m gb a b c).d = pcode k := rfl
@[simp] theorem eMma_a : (eMma op g k m gb a b c).a = BitVec.ofNat 8 a.val := rfl
@[simp] theorem eMma_b : (eMma op g k m gb a b c).b = b.code := rfl
@[simp] theorem eMma_c_some (r : Fin 128) : (eMma op g k m gb a b (some r)).c = BitVec.ofNat 8 r.val := rfl
@[simp] theorem eMma_c_none : (eMma op g k m gb a b none).c = 200#8 := rfl
@[simp] theorem eMma_sub : (eMma op g k m gb a b c).sub = mmaSub m := rfl
@[simp] theorem eMma_imm : (eMma op g k m gb a b c).imm = mmaWord m gb := rfl

end eMma

theorem taskAddr_eq_lt (regs : Nat) (o : Opnd) : o.taskAddr regs =
    (decide (o.code.toNat < 192) && o.src regs false) := by
  cases o with
  | x n | s n | t n | k n =>
    have := n.isLt
    simp [Opnd.taskAddr, Opnd.src, Opnd.code]
    try omega

@[simp] theorem EFmt.twelve_lt_code (f : EFmt) : (12 < f.code) = False := by cases f <;> decide

theorem dMma_eMma {regs rows : Nat} {batched : Bool} {op : BitVec 7} {g : Guard} {k : Fin 8} {m : MmaMod} {gb : Fin 3}
    {a : Fin 128} {b : Opnd} {c : Option (Fin 128)} (hgb : batched = false → gb = 0)
    (hw : mmaOk regs rows (if batched then 2 ^ (gb.val + 1) else 1) m a b c = true) :
    dMma ⟨2, regs, rows, true, true, true⟩ ((eMma op g k m gb a b c).readBack true) batched
      = .ok (if batched then .mmab g k m gb a b c else .mma g k m a b c) := by
  obtain ⟨hset, hlb, hra, hfmt⟩ := mmaSub_parts m
  have hlb3 : m.lb.val ≠ 3 := by omega
  simp only [mmaOk, Bool.and_eq_true, Bool.or_eq_true, Bool.not_eq_true', decide_eq_true_eq, taskAddr_eq_lt] at hw
  obtain ⟨⟨⟨⟨⟨⟨hf32, hfe⟩, hshape⟩, hrows⟩, hregs⟩, hb, hsrc⟩, hc⟩ := hw
  have hfe : ¬(m.fec = true ∧ m.few = false) := by rcases hfe with h | h <;> simp [h]
  cases batched with
  | true =>
    have hgb3 : gb.val ≠ 3 := by omega
    cases c with
    | none | some r =>
      simp at hc hshape
      obtain ⟨hfec, hfew, hgb', har⟩ := mmaWord_parts m gb.isLt
      simp [-BitVec.extractLsb'_toNat, -BitVec.getLsbD_eq_getElem, dMma, judge, hset, hlb, hra, hfmt, hfec, hfew, hgb',
        har, hlb3, hgb3, hf32, hfe, hshape, Nat.not_lt.mpr hrows, Nat.not_le.mpr hregs, Nat.not_le.mpr hb, hsrc, hc]
  | false =>
    obtain rfl := hgb rfl
    cases c with
    | none | some r =>
      simp at hc hshape
      obtain ⟨hfec, hfew, hgb', har⟩ := mmaWord_parts m (gb := 0) (by decide)
      simp [-BitVec.extractLsb'_toNat, -BitVec.getLsbD_eq_getElem, dMma, judge, hset, hlb, hra, hfmt, hfec, hfew, hgb',
        har, hlb3, hf32, hfe, hshape, Nat.not_lt.mpr hrows, Nat.not_le.mpr hregs, Nat.not_le.mpr hb, hsrc, hc]

theorem decodeInt_readBack {i : Instr} {req : Bool} {f : Fields} (regs rows : Nat)
    (hf : i.fields = some (0, req, f)) (hop : f.op.toNat < 0x20) (hw : i.wf regs rows = true) :
    decodeInt ⟨0, regs, rows, true, true, true⟩ (f.readBack req) = .ok i := by
  cases i with
  | iadd | isub | imul | imulh | imad | imin | imax | iabs | and | or | xor | andn | shl | shr | sar | rot | funl
    | popc | clz | ctz | brev | permb | badd | bsub | bmaxu | bmsk | icmp | bcmp =>
    cases hf
    simp [Instr.wf] at hw
    simp [decodeInt, dBinary, dUnary, judge, hw, eUn]
  | bfx g u w d a pos len | bfi g u w d a b pos len =>
    cases hf
    simp [Instr.wf] at hw
    have hpos : (len ++ pos).extractLsb' 0 6 = pos := BitVec.extractLsb'_append_eq_right
    have hlen : (len ++ pos).extractLsb' 6 6 = len := BitVec.extractLsb'_append_eq_left
    simp [decodeInt, judge, hw, - BitVec.extractLsb'_toNat, hpos, hlen]
  | nibl g hi =>
    cases hf
    simp [Instr.wf] at hw
    cases hi <;> simp [decodeInt, judge, hw]
  | vote _ d => cases d <;> cases hf <;> simp at hop
  | barv _ _ p => cases p <;> cases hf
  | barw _ _ p => cases p <;> cases hf
  | gset _ _ p => cases p <;> cases hf
  | _ => cases hf <;> simp at hop

theorem decodeMove_readBack {i : Instr} {req : Bool} {f : Fields} (regs rows : Nat)
    (hf : i.fields = some (0, req, f)) (hop : 0x20 ≤ f.op.toNat ∧ f.op.toNat < 0x30) (hw : i.wf regs rows = true) :
    decodeMove ⟨0, regs, rows, true, true, true⟩ (f.readBack req) = .ok i := by
  cases i with
  | mov | sel | pset | pmovPut | tset | mka | adda | sext | zext =>
    cases hf
    simp [Instr.wf] at hw
    simp [decodeMove, dBinary, dUnary, judge, hw, eUn]
  | pmovGet =>
    cases hf
    simp [Instr.wf] at hw
    simp [decodeMove, judge, hw, Fields.f4, Fields.s, Fields.u, Fields.i, Fields.w]
  | movi =>
    cases hf
    simp [Instr.wf] at hw
    simp [decodeMove, judge, hw, eInt, Src.isImm, Src.immv, Src.code]
  | ldi | ldih =>
    cases hf
    simp [Instr.wf] at hw
    have (f : Fields) : f.long true = true := rfl
    simp [decodeMove, judge, Fields.readBack, this]
    simp [eLit, Fields.none, hw]
  | srd g d n | swr g d n =>
    cases hf
    simp [Instr.wf] at hw
    simp [decodeMove, judge, hw, Nat.not_lt.mpr hw.2]
  | vote _ d => cases d <;> cases hf <;> simp at hop
  | barv _ _ p => cases p <;> cases hf
  | barw _ _ p => cases p <;> cases hf
  | gset _ _ p => cases p <;> cases hf
  | _ => cases hf <;> simp at hop

theorem decodeFp_readBack {i : Instr} {req : Bool} {f : Fields} (regs rows : Nat)
    (hf : i.fields = some (0, req, f)) (hop : 0x30 ≤ f.op.toNat ∧ f.op.toNat < 0x40) (hw : i.wf regs rows = true) :
    decodeFp ⟨0, regs, rows, true, true, true⟩ (f.readBack req) = .ok i := by
  cases i with
  | fadd | fsub | fmul | ffma | fcmp | fclass | fscale  | f2sum | f2prod =>
    cases hf
    simp [Instr.wf] at hw
    simp [decodeFp, dFp1, dFp2, judge, hw, imp_iff_not_or]
  | fmin g n | fmax g n | frint g n | fexpo g n | fpack g n =>
    cases hf
    simp [Instr.wf] at hw
    cases n <;> simp [decodeFp, dFp1, dFp2, judge, hw, imp_iff_not_or]
  | fcvt g f m =>
    cases hf
    simp [Instr.wf] at hw
    simp [decodeFp, dFp1, judge, hw, imp_iff_not_or, or_assoc]
  | funpk g bf hi =>
    cases hf
    simp [Instr.wf] at hw
    cases bf <;> cases hi <;> simp [decodeFp, dFp1, judge, hw, imp_iff_not_or]
  | vote _ d => cases d <;> cases hf <;> simp at hop
  | barv _ _ p => cases p <;> cases hf
  | barw _ _ p => cases p <;> cases hf
  | gset _ _ p => cases p <;> cases hf
  | _ => cases hf <;> simp at hop

theorem decodeLane_readBack {i : Instr} {req : Bool} {f : Fields} (regs rows : Nat)
    (hf : i.fields = some (0, req, f)) (hop : 0x40 ≤ f.op.toNat ∧ f.op.toNat < 0x60) (hw : i.wf regs rows = true) :
    decodeLane ⟨0, regs, rows, true, true, true⟩ (f.readBack req) = .ok i := by
  cases i with
  | shfl | matchL | redl | scanl | first =>
    cases hf
    simp [Instr.wf] at hw
    simp [decodeLane, dBinary, dUnary, judge, hw, eUn, imp_iff_not_or]
  | vote g d =>
    cases d with
    | any | all | bal =>
      cases hf
      simp [Instr.wf] at hw
      simp [decodeLane, judge, hw, Fields.f4, Fields.s, Fields.u, Fields.i, Fields.w]
  | barv _ _ p => cases p <;> cases hf
  | barw _ _ p => cases p <;> cases hf
  | gset _ _ p => cases p <;> cases hf
  | _ => cases hf <;> simp at hop

theorem decodeCtl_readBack {i : Instr} {req : Bool} {f : Fields} (regs rows : Nat)
    (hf : i.fields = some (0, req, f)) (hop : 0x60 ≤ f.op.toNat) (hw : i.wf regs rows = true) :
    decodeCtl ⟨0, regs, rows, true, true, true⟩ (f.readBack req) = .ok i := by
  cases i with
  | bra | bany | ball | bnone  | call =>
    cases hf
    simp [decodeCtl, dCtl, judge, Fields.off, off_bytes]
  | jmpr | callr | ret | exit | fork | nop | yld =>
    cases hf
    simp [Instr.wf] at hw
    simp [decodeCtl, dCtl, judge, hw]
  | vote _ d => cases d <;> cases hf <;> simp at hop
  | barv _ _ p => cases p <;> cases hf
  | barw _ _ p => cases p <;> cases hf
  | gset _ _ p => cases p <;> cases hf
  | _ => cases hf <;> simp at hop

theorem decodeMem_readBack {i : Instr} {req : Bool} {f : Fields} (regs rows : Nat)
    (hf : i.fields = some (1, req, f)) (hw : i.wf regs rows = true) :
    decodeMem ⟨1, regs, rows, true, true, true⟩ (f.readBack req) = .ok i := by
  cases i with
  | ld g m d r =>
    obtain ⟨sz, o, clr, fe, rep, sx⟩ := m
    cases hf
    simp [Instr.wf, MemRef.ok, dataOk_eq] at hw
    simp [decodeMem, judge, eMem, hw]
    grind
  | st g sz o fe d r =>
    cases hf
    simp [Instr.wf, MemRef.ok, dataOk_eq] at hw
    simp [decodeMem, judge, eMem, hw]
    grind
  | pld | fence | cwb | cinv | feset | feclr | feqry | sld | sldx =>
    cases hf
    simp [Instr.wf, MemRef.ok] at hw
    simp [decodeMem, judge, eMem, hw]
  | ldx g k o f out d r =>
    cases hf
    simp [Instr.wf] at hw
    obtain ⟨_, hr, hf, hsx⟩ := elemMod_parts f out false
    simp [-BitVec.extractLsb'_toNat, decodeMem, eMem, elemMod_out, hw]
    exact dElem_mk hf hw.1.1.1.1.1 hw.1.1.1.2 hw.1.1.2 hw.1.2 hw.2
  | lde g k o f sx d r =>
    cases hf
    change decodeMem _ ((eMem 0x03 g d.code r (elemMod f (OutFmt.code .f32) sx) (subMem o k.bits)).readBack true) = _
    simp [Instr.wf] at hw
    obtain ⟨_, _, hrep, _⟩ := elemMod_parts f .f32 sx
    simp [decodeMem, eMem, hw]
    exact dElem_mk hrep hw.1.1.1.1.1 hw.1.1.1.2 hw.1.1.2 hw.1.2 hw.2
  | ste g k o f d r =>
    cases hf
    change decodeMem _ ((eMem 0x04 g d.code r (elemMod f (OutFmt.code .f32) false) (subMem o k.bits)).readBack true) = _
    simp [Instr.wf] at hw
    obtain ⟨_, _, hrep, _⟩ := elemMod_parts f .f32 false
    simp [decodeMem, eMem]
    have hord : (o.order.bits != 0#3 && o.order.bits != 2#3) = false := by simpa [imp_iff_not_or] using hw.1.1.1.1.2
    rw [hord]
    exact dElem_mk hrep hw.1.1.1.1.1 hw.1.1.1.2 hw.1.1.2 hw.1.2 hw.2
  | atom g w o op ps d a b c =>
    cases hf
    simp [Instr.wf, AtomOp.hasSuccess_iff] at hw
    obtain ⟨hw, hc⟩ := hw
    have hres := (atomWord_reserved op ps).1
    by_cases hs : op = .cas ∨ op = .addb
    · simp [hs] at hc
      rcases hs with rfl | rfl <;>
      simp [-BitVec.extractLsb'_toNat, -BitVec.getLsbD_eq_getElem, decodeMem, judge, atomIll, hw, hc, hres]
    · have hsu : op.hasSuccess = false := by simpa [← AtomOp.hasSuccess_iff] using hs
      obtain ⟨rfl, rfl⟩ : ps = 0 ∧ c = .x 0 := by simpa [hs] using hc
      have h0 : (Opnd.x 0).code = 0#8 := rfl
      have h1 : Opnd.ofCode 0#8 = .x 0 := rfl
      simp [-BitVec.extractLsb'_toNat, -BitVec.getLsbD_eq_getElem, decodeMem, judge, atomIll, hw, hsu, hres, h0, h1]
  | red g w o op a b =>
    cases hf
    simp [Instr.wf] at hw
    have hres := (atomWord_reserved op 0).1
    simp [-BitVec.extractLsb'_toNat, -BitVec.getLsbD_eq_getElem, decodeMem, judge, atomIll, hw, hres, imp_iff_not_or]
  | sst g o q d a b c =>
    cases hf
    simp [Instr.wf] at hw
    have hz : (0#11 ++ BitVec.ofBool q).extractLsb' 1 11 = 0 := BitVec.extractLsb'_append_eq_left
    have hq : (0#11 ++ BitVec.ofBool q).getLsbD 0 = q := by cases q <;> rfl
    simp [-BitVec.getLsbD_eq_getElem, decodeMem, judge, hw, hz, hq, imp_iff_not_or]
  | srec g o op force ps d a b c =>
    cases c with
    | none =>
      obtain ⟨hz, hp, hf', hh, hz', ho⟩ := srecWord_parts op force false ps
      cases hf
      change decodeMem _ (Fields.readBack true (mk 0x33 g d.code a.code b.code 0 (subMem o 3) (srecWord op force
        false ps))) = _
      simp [Instr.wf] at hw
      simp [-BitVec.extractLsb'_toNat, -BitVec.getLsbD_eq_getElem, decodeMem, judge, hw, hz, hp, hf', hh, hz', ho]
    | some r =>
      obtain ⟨hz, hp, hf', hh, hz', ho⟩ := srecWord_parts op force true ps
      cases hf
      change decodeMem _ (Fields.readBack true (mk 0x33 g d.code a.code b.code r.code (subMem o 3) (srecWord op
        force true ps))) = _
      simp [Instr.wf] at hw
      simp [-BitVec.extractLsb'_toNat, -BitVec.getLsbD_eq_getElem, decodeMem, judge, hw, hz, hp, hf', hh, hz', ho]
  | vote _ d => cases d <;> cases hf
  | barv _ _ p => cases p <;> cases hf
  | barw _ _ p => cases p <;> cases hf
  | gset _ _ p => cases p <;> cases hf
  | _ => cases hf

theorem decodeMtx_readBack {i : Instr} {req : Bool} {f : Fields} (regs rows : Nat)
    (hf : i.fields = some (2, req, f)) (hw : i.wf regs rows = true) :
    decodeMtx ⟨2, regs, rows, true, true, true⟩ (f.readBack req) = .ok i := by
  cases i with
  | mzero g a n =>
    cases hf
    simp [Instr.wf] at hw
    obtain ⟨ha, hn, hn'⟩ := hw
    have : n ≠ 0#12 := by rintro rfl; simp at hn
    simp [decodeMtx, judge, ha, this, Nat.not_lt.mpr hn']
  | msts | mlds =>
    cases hf
    simp [Instr.wf] at hw
    simp [decodeMtx, judge, hw]
  | mrd g w | mwr g w =>
    cases hf
    simp [Instr.wf] at hw
    cases w <;> simp [decodeMtx, judge, hw]
  | mma g k m a b c =>
    cases hf
    exact dMma_eMma (batched := false) (gb := 0) (fun _ => rfl) hw
  | mmab g k m gb a b c =>
    cases hf
    exact dMma_eMma (batched := true) (gb := gb) (fun h => nomatch h) hw
  | vote _ d => cases d <;> cases hf
  | barv _ _ p => cases p <;> cases hf
  | barw _ _ p => cases p <;> cases hf
  | gset _ _ p => cases p <;> cases hf
  | _ => cases hf

theorem decodeSfu_readBack {i : Instr} {req : Bool} {f : Fields} (regs rows : Nat)
    (hf : i.fields = some (3, req, f)) (hw : i.wf regs rows = true) :
    decodeSfu ⟨3, regs, rows, true, true, true⟩ (f.readBack req) = .ok i := by
  cases i with
  | rcp | rsq | sqrt | div | exp2 | log2 | sin | cos | idiv | irem =>
    cases hf
    simp [Instr.wf] at hw
    simp [decodeSfu, dFp1, dFp2, judge, hw, imp_iff_not_or]
  | vote _ d => cases d <;> cases hf
  | barv _ _ p => cases p <;> cases hf
  | barw _ _ p => cases p <;> cases hf
  | gset _ _ p => cases p <;> cases hf
  | _ => cases hf

theorem decodeSync_readBack {i : Instr} {req : Bool} {f : Fields} (regs rows : Nat)
    (hf : i.fields = some (4, req, f)) (hw : i.wf regs rows = true) :
    decodeSync ⟨4, regs, rows, true, true, true⟩ (f.readBack req) = .ok i := by
  cases i with
  | barv g b n | barw g b n =>
    cases n with
    | none =>
      cases hf
      simp [Instr.wf] at hw
      simp [decodeSync, dBar, judge, hw]
    | some n =>
      cases hf
      simp [Instr.wf] at hw
      have : b.val ≠ 0 := fun h => hw.1 (Fin.ext h)
      simp [decodeSync, dBar, judge, hw, this]
  | cbar g arv | gbar g arv =>
    cases hf
    cases arv <;> simp [decodeSync, judge]
  | tsync | kwait | ksign | csub | trig | fres | freg | fpoll | ffail =>
    cases hf
    simp [Instr.wf, Opnd.taskAddr_eq] at hw
    simp [decodeSync, judge, hw]
  | spawn g p a b w =>
    cases hf
    simp [Instr.wf, Opnd.taskAddr_eq] at hw
    have : w.val ≠ 0 := by omega
    simp [decodeSync, judge, hw, this, Nat.not_lt.mpr hw.2]
  | push g q n pf slot =>
    cases hf
    simp [Instr.wf] at hw
    change decodeSync _ (Fields.readBack true (mk 0x18 g (BitVec.ofNat 8 n.val) 0 0 0 0 (pushWord q pf slot))) = _
    obtain ⟨hs, hheld, hpf, hz, hq⟩ := pushWord_parts q pf slot
    cases slot <;> simp [-BitVec.extractLsb'_toNat, -BitVec.getLsbD_eq_getElem, decodeSync, judge, hs, hheld, hpf,
      hz, hq, Nat.not_le.mpr hw]
  | kset g k n =>
    cases hf
    simp [Instr.wf] at hw
    simp [decodeSync, judge, hw]
  | kleave g m =>
    cases hf
    have hz : (0#4 ++ m).extractLsb' 8 4 = 0 := BitVec.extractLsb'_append_eq_left
    have hm : (0#4 ++ m).extractLsb' 0 8 = m := BitVec.extractLsb'_append_eq_right
    simp [decodeSync, judge, hz, hm]
  | gset g n p =>
    cases p with
    | none | some n =>
      cases hf
      simp [decodeSync, judge]
  | vote _ d => cases d <;> cases hf
  | _ => cases hf

theorem decodeSys_readBack {i : Instr} {req : Bool} {f : Fields} (regs rows : Nat)
    (hf : i.fields = some (5, req, f)) (hw : i.wf regs rows = true) :
    decodeSys ⟨5, regs, rows, true, true, true⟩ (f.readBack req) = .ok i := by
  cases i with
  | regb n =>
    cases hf
    simp [Instr.wf] at hw
    have : n.val ≠ 0 := by omega
    simp [decodeSys, judge, mk_noGuard_guarded, this, Nat.not_lt.mpr hw.2]
  | regc | regq | trap | eret | pchk | brk =>
    cases hf
    simp [Instr.wf] at hw
    simp [decodeSys, judge, hw, mk_noGuard_guarded]
  | csrr | csrw =>
    cases hf
    simp [Instr.wf] at hw
    simp [decodeSys, judge, hw, Nat.not_lt.mpr hw.2]
  | tlbiVa | tlbiFrame | tlbiAll | btinv | btinvAll =>
    cases hf
    simp [Instr.wf] at hw
    simp [decodeSys, judge, hw, Fields.f4, Fields.s, Fields.u, Fields.i, Fields.w]
  | qctlRd g d a w | qctlWr g d a b w =>
    cases hf
    simp [Instr.wf] at hw
    have h0 : (0#10 ++ w).extractLsb' 0 2 = w := BitVec.extractLsb'_append_eq_right
    have h1 : (0#10 ++ w).extractLsb' 2 10 = 0#10 := BitVec.extractLsb'_append_eq_left
    simp [decodeSys, judge, hw, Fields.f4, Fields.s, Fields.u, Fields.i, Fields.w, h0, h1]
  | vote _ d => cases d <;> cases hf
  | barv _ _ p => cases p <;> cases hf
  | barw _ _ p => cases p <;> cases hf
  | gset _ _ p => cases p <;> cases hf
  | _ => cases hf

theorem fields_cls_le {i : Instr} {c : Nat} {req : Bool} {f : Fields} (hf : i.fields = some (c, req, f)) : c ≤ 5 := by
  cases i with
  | vote _ d => cases d <;> cases hf <;> decide
  | barv _ _ p | barw _ _ p | gset _ _ p => cases p <;> cases hf <;> decide
  | _ => cases hf <;> decide

/-- Every well-formed instruction's fields, read back from its words, decode to it. -/
theorem decodeFields_readBack {i : Instr} {c : Nat} {req : Bool} {f : Fields} (regs rows : Nat)
    (hf : i.fields = some (c, req, f)) (hw : i.wf regs rows = true) :
    decodeFields ⟨c, regs, rows, true, true, true⟩ (f.readBack req) = .ok i := by
  have hc := fields_cls_le hf
  interval_cases c
  · simp only [decodeFields]
    split
    · next h => exact decodeInt_readBack regs rows hf h hw
    split
    · next h h' => exact decodeMove_readBack regs rows hf ⟨Nat.not_lt.mp h, h'⟩ hw
    split
    · next h h' => exact decodeFp_readBack regs rows hf ⟨Nat.not_lt.mp h, h'⟩ hw
    split
    · next h h' => exact decodeLane_readBack regs rows hf ⟨Nat.not_lt.mp h, h'⟩ hw
    · next h => exact decodeCtl_readBack regs rows hf (Nat.not_lt.mp h) hw
  · exact decodeMem_readBack regs rows hf hw
  · exact decodeMtx_readBack regs rows hf hw
  · exact decodeSfu_readBack regs rows hf hw
  · exact decodeSync_readBack regs rows hf hw
  · exact decodeSys_readBack regs rows hf hw

theorem decode_encode {i : Instr} {c : Nat} (regs rows : Nat) (hc : i.cls = some c) (hw : i.wf regs rows = true) :
    decode ⟨c, regs, rows, true, true, true⟩ ((encode i).headD 0) ((encode i).tail.headD 0) = .ok i := by
  obtain ⟨⟨k, req, f⟩, hf, rfl⟩ := Option.map_eq_some_iff.mp hc
  rw [encode, hf, decode_words]
  exact decodeFields_readBack regs rows hf hw

/-- Settles O1: the fields come back from the words, and each decoder gives the instruction back from its fields. -/
theorem decodeInvertsEncode : Obligations.DecodeInvertsEncode :=
  fun _ _ regs rows hc hw => decode_encode regs rows hc hw

/-- Refutes O2: the page of `qctl.rd` is said to require the extension word, but the base word alone decodes. -/
theorem not_decodedIsWellFormed : ¬ Obligations.DecodedIsWellFormed := by
  unfold Obligations.DecodedIsWellFormed
  intro h
  have hd : decode (openCtx 5) 0x22010200 0 = .ok (.qctlRd ⟨false, 7⟩ (.x 1) (.x 2) 0) := by decide
  exact absurd ((h _ _ _ _ hd).2.2 5 _ rfl) (by decide)

end Sys2Proof
end

section
/-! SUPPORT. Operand codes, and the word that a step proves. -/

namespace Sys2Proof.Machine

open Sys2Proof

/-! ## Operand codes (R26, R27) -/

/-- Settles O4: an operand comes back from its code, and each column of constants is read off. -/
theorem operandCodes : Obligations.OperandCodes := by
  unfold Obligations.OperandCodes
  refine ⟨fun n => Opnd.ofCode_code (.x n), fun n => Opnd.ofCode_code (.s n), fun n => Opnd.ofCode_code (.t n),
    fun n => Opnd.ofCode_code (.k n), fun c => decide_eq_true_iff, ?_, ?_, ?_⟩
  · decide
  · decide
  · decide

/-! ## A word that sends a value out of the core (R365) -/

/-- A started clause whose only word stores x7, with its access planned; a check on x7 has yet to complete. -/
def unprovenStore : State :=
  let f : FibId := ⟨3, 0, 0⟩
  ({ State.reset.withFibre with
      running := [{ placedRun 1 1 4 [0x010704C8] with plan := [⟨f, 1, 0, .mem 0 onCoreAttr, none, 0, []⟩] }]
      sched := [⟨0, .word 4⟩] } : State).modFib f fun b => { b with unproven := [(.x 7, 0)] }

/-- The `st.b` of x7 at the base x4. -/
def storeX7 : Instr := .st ⟨false, 7⟩ .b ⟨.none, .team⟩ false (.x 7) ⟨.x 4, .k 0, 0⟩

/-- The results of the fibre that a check may still find wrong, where a step goes on. -/
def unprovenOf : Result → Option (List (Opnd × Nat))
  | .next t => (t.fib? ⟨3, 0, 0⟩).map (·.unproven)
  | _ => none

theorem unprovenStore_fetches : (unprovenStore.taken.run? 4).bind unprovenStore.taken.fetchWord = some (.ok storeX7, 1) := by
  decide +kernel

theorem unprovenOf_step : unprovenOf (step unprovenStore) = some [] := by decide +kernel

/-- As the statement has it, without `State.proveWord`. -/
theorem unprovenOf_leave : (match exec storeX7 { unprovenStore.taken with cur := 4 } with
    | .next t => unprovenOf (.next (t.leaveWord 4 1).afterStep) | _ => none) = some [(.x 7, 0)] := by decide +kernel

/-- Refutes O5: the step also proves the results whose values left the core with the word (R365), which the statement's
first conjunct leaves out: a store's register is no longer unproven after the step. -/
theorem not_stepRunsTheInstruction : ¬ Obligations.StepRunsTheInstruction := by
  unfold Obligations.StepRunsTheInstruction
  rintro ⟨h, -⟩
  obtain ⟨r, hr, hf⟩ := Option.bind_eq_some_iff.mp unprovenStore_fetches
  have hl := unprovenOf_leave
  split at hl
  · next t ht =>
    have hs := unprovenOf_step
    rw [h unprovenStore 4 r storeX7 1 rfl hr hf t ht, hl] at hs
    cases hs
  · cases hl
end Sys2Proof.Machine
end

section
/-! SUPPORT. The control instructions (R87, R89): what notes, links and branches of a batch's fibres leave, and from it
O18. -/

namespace Sys2Proof.Machine

open Sys2Proof

/-! ## Fibres updated by their views -/

/-- Each of some fibres changed by its view. -/
def State.upAll (s : State) (up : View → Fibre → Fibre) (vs : List View) : State :=
  vs.foldl (fun acc v => acc.modFib v.fib.fid (up v)) s

theorem upAll_fib? {up : View → Fibre → Fibre} (hfid : ∀ v b, (up v b).fid = b.fid) (vs : List View) :
    ∀ (s : State) (f : FibId), (s.upAll up vs).fib? f
      = (s.fib? f).map fun b => (vs.filter fun v => v.fib.fid == f).foldl (fun b v => up v b) b := by
  induction vs with
  | nil => intro s f; simp [State.upAll]
  | cons v vs ih =>
    intro s f
    show (State.upAll _ up vs).fib? f = _
    rw [ih, modFib_fib? _ _ _ _ (hfid v)]
    by_cases h : f = v.fib.fid
    · subst h; simp only [if_true, Option.map_map, List.filter_cons, beq_self_eq_true, List.foldl_cons]; rfl
    · have h2 : (v.fib.fid == f) = false := by simpa using Ne.symm h
      simp only [if_neg h, List.filter_cons, h2, Bool.false_eq_true, if_false]

theorem upAll_rest (up : View → Fibre → Fibre) (vs : List View) : ∀ s : State,
    { s.upAll up vs with fibres := [] } = { s with fibres := [] } := by
  induction vs with
  | nil => intro s; rfl
  | cons v vs ih => intro s; exact (ih _).trans rfl

/-- Fibres that are each seen one way are each updated by their view. -/
theorem upAll_sets {up : View → Fibre → Fibre} (hfid : ∀ v b, (up v b).fid = b.fid)
    (hidem : ∀ v b, up v (up v b) = up v b) (s : State) {vs : List View}
    (huniq : ∀ u ∈ vs, ∀ v ∈ vs, u.fib.fid = v.fib.fid → u = v) : Sets s (s.upAll up vs) vs up where
  fibre := by
    intro v hv
    rw [upAll_fib? hfid]
    congr 1
    funext b
    refine fold_same (fun p b => up p b) v (hidem v) _ _ ?_ ?_
    · intro u hu
      rw [List.mem_filter, beq_iff_eq] at hu
      exact huniq u hu.1 v hv hu.2
    · exact List.ne_nil_of_mem (List.mem_filter.mpr ⟨hv, beq_self_eq_true _⟩)
  others := by
    intro f hf
    have : vs.filter (fun v => v.fib.fid == f) = [] := by
      rw [List.filter_eq_nil_iff]; intro v hv; simpa using hf v hv
    rw [upAll_fib? hfid, this]; simp
  rest := upAll_rest up vs s

/-! ## Branches noted -/

/-- The branches of some fibres noted. -/
def State.branchAll (s : State) (dest : View → Word) (vs : List View) : State :=
  vs.foldl (fun acc v => acc.branchTo v (dest v)) s

/-- A change of one clause that keeps its number, seen by every reader. -/
theorem modRun_run? (s : State) (n m : Nat) (g : ClauseRun → ClauseRun) (hg : ∀ r, (g r).id = r.id) :
    (s.modRun n g).run? m = if m = n then (s.run? m).map g else s.run? m := by
  unfold State.modRun State.run?
  dsimp only
  rw [list_find_map]
  · cases h : s.running.find? (fun r => r.id == m) with
    | none => simp
    | some r =>
      have hr := List.find?_some h
      simp only [beq_iff_eq] at hr
      simp only [Option.map_some, hr, beq_iff_eq]
      split <;> rfl
  · intro r; split <;> simp [hg]

/-- A branch of the running clause's fibre, seen in its clause. -/
theorem branchTo_run? {s : State} {v : View} {r : ClauseRun} (d : Word) (hid : v.run.id = s.cur)
    (hr : s.run? s.cur = some r) : ∃ r', (s.branchTo v d).run? s.cur = some r'
      ∧ r'.branch = (v.fib.fid, d) :: r.branch ∧ r'.exits = r.exits := by
  have h := modRun_run? s v.run.id s.cur (fun r => { r with branch := (v.fib.fid, d) :: r.branch }) fun _ => rfl
  rw [if_pos hid.symm, hr, Option.map_some] at h
  have h2 : (s.branchTo v d).run? s.cur
      = ((s.modRun v.run.id fun r => { r with branch := (v.fib.fid, d) :: r.branch }).run? s.cur).map
          fun r => { r with took := if r.took.contains v.fib.fid then r.took else v.fib.fid :: r.took } :=
    (modRun_run? _ _ _ (fun r : ClauseRun => { r with took := if r.took.contains v.fib.fid then r.took
      else v.fib.fid :: r.took }) fun _ => rfl).trans (if_pos hid.symm)
  rw [h] at h2
  exact ⟨_, h2, rfl, rfl⟩

theorem branchTo_goesTo {s : State} {v : View} {r : ClauseRun} (d : Word) (hid : v.run.id = s.cur)
    (hr : s.run? s.cur = some r) (f : FibId) :
    (s.branchTo v d).goesTo f = if f = v.fib.fid then some d else s.goesTo f := by
  obtain ⟨r', hr', hb, -⟩ := branchTo_run? d hid hr
  have hcur : (s.branchTo v d).cur = s.cur := rfl
  simp only [State.goesTo, hcur, hr', hr, hb, List.find?_cons]
  by_cases h : f = v.fib.fid
  · simp [h]
  · have h2 : (v.fib.fid == f) = false := by simpa using Ne.symm h
    simp [h, h2]

theorem branchTo_exiting {s : State} {v : View} {r : ClauseRun} (d : Word) (hid : v.run.id = s.cur)
    (hr : s.run? s.cur = some r) (f : FibId) : (s.branchTo v d).exiting f = s.exiting f := by
  obtain ⟨r', hr', -, he⟩ := branchTo_run? d hid hr
  have hcur : (s.branchTo v d).cur = s.cur := rfl
  simp only [State.exiting, hcur, hr', hr, he]

theorem branchTo_unbranched (s : State) (v : View) (d : Word) : (s.branchTo v d).unbranched = s.unbranched := by
  unfold State.branchTo State.markTook State.modRun State.unbranched
  simp only [List.map_map]
  congr 1
  apply List.map_congr_left
  intro r _
  simp only [Function.comp]
  by_cases h : r.id == v.run.id <;> simp [h]

/-- Fibres of the running clause, each seen one way, go where their branches say. -/
theorem branchAll_goes {s : State} {dest : View → Word} {vs : List View} {r : ClauseRun} (hr : s.run? s.cur = some r)
    (hid : ∀ v ∈ vs, v.run.id = s.cur) (huniq : ∀ u ∈ vs, ∀ v ∈ vs, u.fib.fid = v.fib.fid → u = v) :
    Goes s (s.branchAll dest vs) vs dest := by
  have main : (∃ r', (s.branchAll dest vs).run? s.cur = some r') ∧ (s.branchAll dest vs).cur = s.cur
      ∧ Goes s (s.branchAll dest vs) vs dest := by
    induction vs using List.reverseRecOn with
    | nil => exact ⟨⟨r, hr⟩, rfl, ⟨by simp, fun _ _ => rfl, fun _ => rfl, rfl⟩⟩
    | append_singleton l v ih =>
      have hsub : ∀ {u}, u ∈ l → u ∈ l ++ [v] := fun hu => List.mem_append_left _ hu
      have hlast : v ∈ l ++ [v] := by simp
      obtain ⟨⟨r1, hr1⟩, hcur, hgo⟩ := ih (fun u hu => hid u (hsub hu))
        (fun u hu w hw => huniq u (hsub hu) w (hsub hw))
      have hstep : s.branchAll dest (l ++ [v]) = (s.branchAll dest l).branchTo v (dest v) := by
        simp [State.branchAll]
      have hid1 : v.run.id = (s.branchAll dest l).cur := by rw [hcur]; exact hid v hlast
      rw [← hcur] at hr1
      rw [hstep]
      obtain ⟨r2, hr2, -⟩ := branchTo_run? (dest v) hid1 hr1
      refine ⟨⟨r2, by rw [← hcur]; exact hr2⟩, hcur, ?_, ?_, ?_, ?_⟩
      · intro u hu
        rw [branchTo_goesTo _ hid1 hr1]
        split
        · next he => rw [huniq u hu v hlast he]
        · next he =>
          have hul : u ∈ l := by
            rcases List.mem_append.mp hu with h | h
            · exact h
            · exact absurd (by rw [List.mem_singleton.mp h]) he
          exact hgo.taken u hul
      · intro f hf
        rw [branchTo_goesTo _ hid1 hr1, if_neg (Ne.symm (hf v hlast))]
        exact hgo.kept f fun u hu => hf u (hsub hu)
      · intro f; rw [branchTo_exiting _ hid1 hr1]; exact hgo.exits f
      · rw [branchTo_unbranched]; exact hgo.rest
  exact main.2.2

/-! ## A control word is its traps, then its updates, then its branches -/

/-- One fibre's turn in a control word that `bad` may refuse. -/
def State.jump (bad : View → Option WordRes) (dest : View → Word) (up : View → Fibre → Fibre) (s : State) (v : View) :
    State :=
  match bad v with
  | some r => s.apply v r
  | none => (s.modFib v.fib.fid (up v)).branchTo v (dest v)

/-- A trapping word leaves its trap with the fibre. -/
def WordRes.isTrap : WordRes → Bool
  | .trap _ _ _ => true
  | .eff _ _ _ => false

theorem modFib_comm (s : State) (a b : FibId) {f g : Fibre → Fibre} (hf : ∀ x, (f x).fid = x.fid)
    (hg : ∀ x, (g x).fid = x.fid) (hc : ∀ x, f (g x) = g (f x)) :
    (s.modFib a f).modFib b g = (s.modFib b g).modFib a f := by
  unfold State.modFib
  simp only [List.map_map]
  congr 1
  apply List.map_congr_left
  intro x _
  simp only [Function.comp]
  by_cases ha : x.fid == a <;> by_cases hb : x.fid == b <;> simp [ha, hb, hf, hg, hc]

/-- What a control word needs of its update: it keeps the fibre's name, is done by being done once, and does not
meet the trap that is noted. -/
structure Links (up : View → Fibre → Fibre) : Prop where
  fid : ∀ v b, (up v b).fid = b.fid
  idem : ∀ v b, up v (up v b) = up v b
  noteTrap : ∀ v b t, up v (b.noteTrap t) = (up v b).noteTrap t

theorem apply_modFib {up : View → Fibre → Fibre} (hup : Links up) (s : State) (u v : View) {r : WordRes}
    (hr : r.isTrap = true) : (s.modFib u.fib.fid (up u)).apply v r = (s.apply v r).modFib u.fib.fid (up u) := by
  cases r with
  | trap c d a => exact modFib_comm s _ _ (hup.fid u) (fun b => by simp) fun b => hup.noteTrap u b _
  | eff => cases hr

theorem apply_branchTo (s : State) (u v : View) (d : Word) {r : WordRes} (hr : r.isTrap = true) :
    (s.branchTo u d).apply v r = (s.apply v r).branchTo u d := by
  cases r with
  | trap c d a => rfl
  | eff => cases hr

theorem applyAll_modFib {up : View → Fibre → Fibre} (hup : Links up) (v : View) (l : List (View × WordRes))
    (hl : ∀ p ∈ l, p.2.isTrap = true) : ∀ s : State,
    (s.modFib v.fib.fid (up v)).applyAll l = (s.applyAll l).modFib v.fib.fid (up v) := by
  induction l with
  | nil => intro s; rfl
  | cons p l ih =>
    intro s
    show ((s.modFib v.fib.fid (up v)).apply p.1 p.2).applyAll l = ((s.apply p.1 p.2).applyAll l).modFib _ _
    rw [apply_modFib hup s v p.1 (hl p List.mem_cons_self), ih fun q hq => hl q (List.mem_cons_of_mem _ hq)]

theorem applyAll_branchTo (v : View) (d : Word) (l : List (View × WordRes)) (hl : ∀ p ∈ l, p.2.isTrap = true) :
    ∀ s : State, (s.branchTo v d).applyAll l = (s.applyAll l).branchTo v d := by
  induction l with
  | nil => intro s; rfl
  | cons p l ih =>
    intro s
    show ((s.branchTo v d).apply p.1 p.2).applyAll l = ((s.apply p.1 p.2).applyAll l).branchTo v d
    rw [apply_branchTo s v p.1 d (hl p List.mem_cons_self), ih fun q hq => hl q (List.mem_cons_of_mem _ hq)]

theorem upAll_branchTo (up : View → Fibre → Fibre) (v : View) (d : Word) (vs : List View) : ∀ s : State,
    (s.branchTo v d).upAll up vs = (s.upAll up vs).branchTo v d := by
  induction vs with
  | nil => intro s; rfl
  | cons u vs ih => intro s; exact ih (s.modFib u.fib.fid (up u))

/-- Turns that trap or jump leave what all traps, then all updates, then all branches leave. -/
theorem foldl_jump {bad : View → Option WordRes} {dest : View → Word} {up : View → Fibre → Fibre} (hup : Links up)
    (hbad : ∀ v r, bad v = some r → r.isTrap = true) (vs : List View) : ∀ s : State,
    vs.foldl (State.jump bad dest up) s
      = ((s.applyAll (vs.filterMap fun v => (bad v).map fun r => (v, r))).upAll up
          (vs.filter fun v => (bad v).isNone)).branchAll dest (vs.filter fun v => (bad v).isNone) := by
  induction vs with
  | nil => intro s; rfl
  | cons v vs ih =>
    intro s
    have htraps : ∀ p ∈ vs.filterMap (fun v => (bad v).map fun r => (v, r)), p.2.isTrap = true := by
      intro p hp
      obtain ⟨w, -, hw⟩ := List.mem_filterMap.mp hp
      obtain ⟨r, hr, rfl⟩ := Option.map_eq_some_iff.mp hw
      exact hbad w r hr
    rw [List.foldl_cons, ih]
    cases h : bad v with
    | some r =>
      have hj : s.jump bad dest up v = s.apply v r := by simp only [State.jump, h]
      simp only [List.filterMap_cons, h, Option.map_some, hj, List.filter_cons, Option.isNone_some, Bool.false_eq_true,
        if_false]
      rfl
    | none =>
      have hj : s.jump bad dest up v = (s.modFib v.fib.fid (up v)).branchTo v (dest v) := by simp only [State.jump, h]
      simp only [List.filterMap_cons, h, Option.map_none, hj, List.filter_cons, Option.isNone_none, if_true]
      rw [applyAll_branchTo _ _ _ htraps, applyAll_modFib hup _ _ htraps, upAll_branchTo]
      rfl

/-- Traps and updates leave the clauses. -/
theorem applyAll_run? (l : List (View × WordRes)) (hl : ∀ p ∈ l, p.2.isTrap = true) : ∀ s : State,
    (s.applyAll l).cur = s.cur ∧ ∀ n, (s.applyAll l).run? n = s.run? n := by
  induction l with
  | nil => intro s; exact ⟨rfl, fun _ => rfl⟩
  | cons p l ih =>
    intro s
    have hp := hl p List.mem_cons_self
    obtain ⟨hcur, hrun⟩ := ih (fun q hq => hl q (List.mem_cons_of_mem _ hq)) (s.apply p.1 p.2)
    obtain ⟨v, r⟩ := p
    cases r with
    | trap => exact ⟨hcur, hrun⟩
    | eff => cases hp

theorem upAll_run? (up : View → Fibre → Fibre) (vs : List View) : ∀ s : State,
    (s.upAll up vs).cur = s.cur ∧ ∀ n, (s.upAll up vs).run? n = s.run? n := by
  induction vs with
  | nil => intro s; exact ⟨rfl, fun _ => rfl⟩
  | cons v vs ih => intro s; exact ih (s.modFib v.fib.fid (up v))

/-- A control word whose fibres each trap or jump is what `Jumps` says. -/
theorem jumps_of_control {i : Instr} {g : Guard} {bad : View → Option WordRes} {dest : View → Word}
    {up : View → Fibre → Fibre} (hup : Links up) (hbad : ∀ v r, bad v = some r → r.isTrap = true)
    (hexec : ∀ s : State, exec i s = .next (s.control g (State.jump bad dest up))) : Jumps i g bad dest up := by
  intro s
  set E : View → Option WordRes := fun v => if v.guard g && !v.trapped then bad v else none with hE
  set good := s.views.filter fun v => v.guard g && !v.trapped && (bad v).isNone with hgood
  have hmem : ∀ {v}, v ∈ good → v ∈ s.views := fun hv => (List.mem_filter.mp hv).1
  have huniq : ∀ u ∈ good, ∀ v ∈ good, u.fib.fid = v.fib.fid → u = v :=
    fun u hu v hv => views_unique (hmem hu) (hmem hv)
  have hrun : s.control g (State.jump bad dest up)
      = ((s.applyAll (s.effs E)).upAll up good).branchAll dest good := by
    have hfold : s.control g (State.jump bad dest up)
        = (s.views.filter fun v => v.guard g && !v.trapped).foldl (State.jump bad dest up) s := by
      unfold State.control State.wordSeq
      rw [List.foldl_filter, List.foldl_filter]
      congr 1
      funext acc v
      cases v.guard g <;> cases v.trapped <;> rfl
    have heffs : (s.views.filter fun v => v.guard g && !v.trapped).filterMap (fun v => (bad v).map fun r => (v, r))
        = s.effs E := by
      rw [List.filterMap_filter]
      unfold State.effs
      congr 1
      funext v
      rw [hE]
      dsimp only
      split <;> rfl
    rw [hfold, foldl_jump hup hbad, heffs, List.filter_filter]
    have hcond : (fun v : View => (bad v).isNone && (v.guard g && !v.trapped))
        = fun v => v.guard g && !v.trapped && (bad v).isNone := by funext v; rw [Bool.and_comm]
    rw [hcond]
  refine ⟨s.applyAll (s.effs E), (s.applyAll (s.effs E)).upAll up good, _, by rw [hexec, hrun],
    applyAll_effects s E ?_, upAll_sets hup.fid hup.idem _ huniq, ?_⟩
  · intro v _ r hr
    rw [hE] at hr
    dsimp only at hr
    split at hr
    · have ht := hbad v r hr
      cases r with
      | trap => rfl
      | eff => cases ht
    · cases hr
  · set w := (s.applyAll (s.effs E)).upAll up good
    have htraps : ∀ p ∈ s.effs E, p.2.isTrap = true := by
      intro p hp
      have hr := (mem_effs.mp hp).2
      rw [hE] at hr
      dsimp only at hr
      split at hr
      · exact hbad _ _ hr
      · cases hr
    obtain ⟨hcur1, hrun1⟩ := upAll_run? up good (s.applyAll (s.effs E))
    obtain ⟨hcur2, hrun2⟩ := applyAll_run? (s.effs E) htraps s
    have hcur : w.cur = s.cur := hcur1.trans hcur2
    cases hg : good with
    | nil => exact ⟨by simp, fun _ _ => rfl, fun _ => rfl, rfl⟩
    | cons v0 l =>
      rw [← hg]
      obtain ⟨r, hr, -⟩ := mem_views (hmem (v := v0) (by rw [hg]; exact List.mem_cons_self))
      have hw : w.run? w.cur = some r := by rw [hcur, hrun1, hrun2, hr]
      refine branchAll_goes hw ?_ huniq
      intro v hv
      obtain ⟨r', hr', f, -, hf⟩ := mem_views (hmem hv)
      rw [(view?_some hf).1, hcur]
      have := List.find?_some hr'
      simpa using this

/-! ## The five control words -/

theorem links_keep : Links fun _ f => f := ⟨fun _ _ => rfl, fun _ _ => rfl, fun _ _ _ => rfl⟩

/-- `lr` set to the header after the clause. -/
theorem links_link : Links fun v f => { f with lr := v.run.next } where
  fid _ _ := rfl
  idem _ _ := rfl
  noteTrap v b t := by
    unfold Fibre.noteTrap
    dsimp only
    split
    · rfl
    · split <;> rfl

theorem extractLow_ne_zero {w : Nat} (x : BitVec w) (n : Nat) : x.extractLsb' 0 n ≠ 0 ↔ x.toNat % 2 ^ n ≠ 0 := by
  rw [not_iff_not, ← BitVec.toNat_inj, BitVec.extractLsb'_toNat, Nat.shiftRight_zero]
  rfl

theorem clearLow6 (h : Word) : h &&& ~~~(0x3F : Word) = BitVec.ofNat 64 (h.toNat - h.toNat % 64) := by
  have hshift : h &&& ~~~(0x3F : Word) = (h >>> 6) <<< 6 := by
    apply BitVec.eq_of_getLsbD_eq
    intro i hi
    have h63 : (0x3F : Word).getLsbD i = decide (i < 6) := by
      rw [show (0x3F : Word) = BitVec.ofNat 64 (2 ^ 6 - 1) from rfl, BitVec.getLsbD_ofNat, Nat.testBit_two_pow_sub_one]
      simp [hi]
    rw [BitVec.getLsbD_and, BitVec.getLsbD_not, h63, BitVec.getLsbD_shiftLeft, BitVec.getLsbD_ushiftRight]
    by_cases hlow : i < 6
    · simp [hi, hlow]
    · simp [hi, hlow, show 6 + (i - 6) = i by omega]
  rw [hshift]
  apply BitVec.eq_of_toNat_eq
  rw [BitVec.toNat_shiftLeft, BitVec.toNat_ushiftRight, BitVec.toNat_ofNat, Nat.shiftLeft_eq, Nat.shiftRight_eq_div_pow]
  omega

theorem branchTarget_eq (h : Word) (off : BitVec 16) :
    branchTarget h off.toInt = (h &&& ~~~0x3F) + off.signExtend 64 * 64 := by
  have hle : h.toNat % 64 ≤ h.toNat := Nat.mod_le _ _
  have hcast : (h.toNat - h.toNat % 64 : Int) = ((h.toNat - h.toNat % 64 : Nat) : Int) := by omega
  unfold branchTarget
  rw [BitVec.ofInt_add, BitVec.ofInt_mul, clearLow6, hcast, BitVec.ofInt_natCast]
  rfl

theorem modFib_id (s : State) (f : FibId) : (s.modFib f fun b => b) = s := by
  unfold State.modFib
  simp

/-- Refusal by a register target's poison or alignment. -/
theorem jumpTrap_eq (c : RegCell) : jumpTrap c
    = if c.p then some poisonTrap else if c.v.extractLsb' 0 6 ≠ 0 then some (.trap 0x03 0 c.v) else none := by
  unfold jumpTrap
  rw [if_congr (extractLow_ne_zero c.v 6) rfl rfl]
  rfl

theorem jumpTrap_isTrap {c : RegCell} {r : WordRes} (h : jumpTrap c = some r) : r.isTrap = true := by
  unfold jumpTrap at h
  split at h
  · cases h; rfl
  · split at h
    · cases h; rfl
    · cases h

/-- A word that updates no fibre: its turns trap or branch. -/
theorem jump_keep (bad : View → Option WordRes) (dest : View → Word) : State.jump bad dest (fun _ f => f)
    = fun acc v => match bad v with | some r => acc.apply v r | none => acc.branchTo v (dest v) := by
  funext acc v
  simp only [State.jump, modFib_id]

theorem jumps_bra (g : Guard) (off : BitVec 16) : Jumps (.bra g off) g (fun _ => none)
    (fun v => branchTarget v.run.hdr off.toInt) (fun _ f => f) := by
  refine jumps_of_control links_keep (fun _ _ h => by cases h) fun s => ?_
  rw [jump_keep]
  rfl

theorem jumps_jmpr (g : Guard) (a : Opnd) : Jumps (.jmpr g a) g (fun v => jumpTrap (v.rd a))
    (fun v => (v.rd a).v) (fun _ f => f) := by
  refine jumps_of_control links_keep (fun _ _ h => jumpTrap_isTrap h) fun s => ?_
  rw [jump_keep]
  rfl

theorem jumps_call (g : Guard) (off : BitVec 16) : Jumps (.call g off) g (fun _ => none)
    (fun v => branchTarget v.run.hdr off.toInt) (fun v f => { f with lr := v.run.next }) :=
  jumps_of_control links_link (fun _ _ h => by cases h) fun _ => rfl

theorem jumps_callr (g : Guard) (a : Opnd) : Jumps (.callr g a) g (fun v => jumpTrap (v.rd a))
    (fun v => (v.rd a).v) (fun v f => { f with lr := v.run.next }) :=
  jumps_of_control links_link (fun _ _ h => jumpTrap_isTrap h) fun _ => rfl

/-- A return is refused at an `lr` that is not word-aligned. -/
def View.retTrap (v : View) : Option WordRes :=
  if v.fib.lr.extractLsb' 0 2 ≠ 0 then some (.trap 0x03 0 v.fib.lr) else none

theorem jumps_ret (g : Guard) : Jumps (.ret g) g View.retTrap (fun v => v.fib.lr) (fun _ f => f) := by
  refine jumps_of_control links_keep ?_ fun s => ?_
  · intro v r h
    unfold View.retTrap at h
    split at h
    · cases h; rfl
    · cases h
  · show Host.Outcome.next _ = _
    congr 2
    funext acc v
    unfold State.jump View.retTrap
    rw [if_congr (extractLow_ne_zero v.fib.lr 2) rfl rfl, modFib_id]
    by_cases h : v.fib.lr.toNat % 2 ^ 2 ≠ 0
    · rw [if_pos h]; exact if_pos h
    · rw [if_neg h]; exact if_neg h

/-- Settles O18: a control word is its traps, then its updates, then its branches. -/
theorem branchesAndCalls : Obligations.BranchesAndCalls := by
  intro g off a
  have htarget : (fun v : View => branchTarget v.run.hdr off.toInt)
      = fun v => (v.run.hdr &&& ~~~0x3F) + off.signExtend 64 * 64 := funext fun v => branchTarget_eq _ _
  have hbad : (fun v : View => jumpTrap (v.rd a)) = fun v =>
      if (v.rd a).p then some poisonTrap
      else if (v.rd a).v.extractLsb' 0 6 ≠ 0 then some (.trap 0x03 0 (v.rd a).v) else none :=
    funext fun v => jumpTrap_eq _
  exact ⟨htarget ▸ jumps_bra g off, hbad ▸ jumps_jmpr g a, htarget ▸ jumps_call g off, hbad ▸ jumps_callr g a,
    jumps_ret g⟩

end Sys2Proof.Machine
end

section
/-! SUPPORT. Words that issue operations (R17): what their turns leave, said once. -/

namespace Sys2Proof.Machine

open Sys2Proof

/-! ## One operation issued -/

/-- The operation of an issue, put out for a fibre. -/
def State.put (s : State) (v : View) (x : Issue) : State :=
  s.issue v x.isLoad (if x.isLoad then v.run.seta else v.run.setb) x.ord x.loc x.addr x.act

theorem markTook_run? (s : State) (v : View) (n : Nat) : (s.markTook v).run? n = if n = v.run.id then
      (s.run? n).map fun r => { r with took := if r.took.contains v.fib.fid then r.took else v.fib.fid :: r.took }
    else s.run? n := by
  unfold State.markTook
  rw [modRun_run?]
  intro r; rfl

theorem markTook_goesTo (s : State) (v : View) (f : FibId) : (s.markTook v).goesTo f = s.goesTo f := by
  have hcur : (s.markTook v).cur = s.cur := rfl
  unfold State.goesTo
  rw [hcur, markTook_run?]
  split_ifs
  · cases s.run? s.cur <;> rfl
  · rfl

theorem markTook_exiting (s : State) (v : View) (f : FibId) : (s.markTook v).exiting f = s.exiting f := by
  have hcur : (s.markTook v).cur = s.cur := rfl
  unfold State.exiting
  rw [hcur, markTook_run?]
  split_ifs
  · cases s.run? s.cur <;> rfl
  · rfl

theorem markTook_unbranched (s : State) (v : View) : (s.markTook v).unbranched = s.unbranched := by
  unfold State.markTook State.modRun State.unbranched
  simp only [List.map_map]
  congr 1
  apply List.map_congr_left
  intro r _
  simp only [Function.comp]
  by_cases h : r.id == v.run.id <;> simp [h]

/-- An issue is an operation put last, with or without its word counted as one that took effect. -/
theorem put_cases (s : State) (v : View) (x : Issue) :
    s.put v x = { s with pend := s.pend ++ [v.opOf s.fresh x], fresh := s.fresh + 1 }
      ∨ s.put v x = State.markTook { s with pend := s.pend ++ [v.opOf s.fresh x], fresh := s.fresh + 1 } v := by
  obtain ⟨isLoad, ord, loc, addr, act⟩ := x
  cases act
  case sst | srec => exact .inl rfl
  all_goals exact .inr rfl

theorem put_pend (s : State) (v : View) (x : Issue) : (s.put v x).pend = s.pend ++ [v.opOf s.fresh x] := by
  rcases put_cases s v x with h | h <;> simp [h, State.markTook]

theorem put_fresh (s : State) (v : View) (x : Issue) : (s.put v x).fresh = s.fresh + 1 := by
  rcases put_cases s v x with h | h <;> simp [h, State.markTook]

theorem put_goesTo (s : State) (v : View) (x : Issue) (f : FibId) : (s.put v x).goesTo f = s.goesTo f := by
  rcases put_cases s v x with h | h <;> rw [h]
  · rfl
  · rw [markTook_goesTo]; rfl

theorem put_exiting (s : State) (v : View) (x : Issue) (f : FibId) : (s.put v x).exiting f = s.exiting f := by
  rcases put_cases s v x with h | h <;> rw [h]
  · rfl
  · rw [markTook_exiting]; rfl

/-- A state without what an issue changes. -/
def State.unissued (s : State) : State := { s with pend := [], fresh := 0 }.unbranched

theorem put_unissued (s : State) (v : View) (x : Issue) : (s.put v x).unissued = s.unissued := by
  rcases put_cases s v x with h | h <;> rw [h]
  · rfl
  · exact markTook_unbranched { s with pend := [], fresh := 0 } v

/-! ## Operations issued in turn -/

/-- The operations of some issues, put out in order. -/
def State.putAll (s : State) (l : List (View × Issue)) : State := l.foldl (fun acc p => acc.put p.1 p.2) s

theorem putAll_issues (s : State) (l : List (View × Issue)) : Issues s (s.putAll l) l := by
  induction l using List.reverseRecOn with
  | nil => exact ⟨by simp [State.putAll], rfl, rfl, fun _ => rfl, fun _ => rfl⟩
  | append_singleton l p ih =>
    have hstep : s.putAll (l ++ [p]) = (s.putAll l).put p.1 p.2 := by simp [State.putAll]
    rw [hstep]
    refine ⟨?_, ?_, ?_, fun f => ?_, fun f => ?_⟩
    · rw [put_pend, ih.pend, ih.fresh, List.mapIdx_concat, List.append_assoc]
    · rw [put_fresh, ih.fresh, List.length_append, List.length_singleton, Nat.add_assoc]
    · exact (put_unissued _ _ _).trans ih.rest
    · rw [put_goesTo]; exact ih.goes.1 f
    · rw [put_exiting]; exact ih.goes.2 f

/-! ## A tracked word is its traps, then its issues -/

/-- One fibre's turn in a word that `bad` may refuse and that issues `f`'s operation, if it has one. -/
def State.track (bad : View → Option WordRes) (f : View → Option Issue) (s : State) (v : View) : State :=
  match bad v with
  | some r => s.apply v r
  | none => match f v with | some x => s.put v x | none => s

theorem apply_put (s : State) (u v : View) (x : Issue) {r : WordRes} (hr : r.isTrap = true) :
    (s.put u x).apply v r = (s.apply v r).put u x := by
  cases r with
  | trap c d a =>
    rcases x with ⟨isLoad, ord, loc, addr, act⟩
    cases act <;> rfl
  | eff => cases hr

theorem applyAll_put (v : View) (x : Issue) (l : List (View × WordRes)) (hl : ∀ p ∈ l, p.2.isTrap = true) :
    ∀ s : State, (s.put v x).applyAll l = (s.applyAll l).put v x := by
  induction l with
  | nil => intro s; rfl
  | cons p l ih =>
    intro s
    show ((s.put v x).apply p.1 p.2).applyAll l = ((s.apply p.1 p.2).applyAll l).put v x
    rw [apply_put s v p.1 x (hl p List.mem_cons_self), ih fun q hq => hl q (List.mem_cons_of_mem _ hq)]

/-- The fibres of `E`'s traps, as a list of effects. -/
def trapsOf (bad : View → Option WordRes) (vs : List View) : List (View × WordRes) :=
  vs.filterMap fun v => (bad v).map fun r => (v, r)

theorem trapsOf_isTrap {bad : View → Option WordRes} (hbad : ∀ v r, bad v = some r → r.isTrap = true) (vs : List View) :
    ∀ p ∈ trapsOf bad vs, p.2.isTrap = true := by
  intro p hp
  obtain ⟨w, -, hw⟩ := List.mem_filterMap.mp hp
  obtain ⟨r, hr, rfl⟩ := Option.map_eq_some_iff.mp hw
  exact hbad w r hr

/-- Turns that trap or issue leave what all traps, then all issues leave. -/
theorem foldl_track {bad : View → Option WordRes} {f : View → Option Issue}
    (hbad : ∀ v r, bad v = some r → r.isTrap = true) (vs : List View) : ∀ s : State,
    vs.foldl (State.track bad f) s = (s.applyAll (trapsOf bad vs)).putAll
      ((vs.filter fun v => (bad v).isNone).filterMap fun v => (f v).map fun x => (v, x)) := by
  induction vs with
  | nil => intro s; rfl
  | cons v vs ih =>
    intro s
    rw [List.foldl_cons, ih]
    cases h : bad v with
    | some r =>
      simp only [State.track, trapsOf, h, List.filterMap_cons, Option.map_some, List.filter_cons, Option.isNone_some,
        Bool.false_eq_true, if_false]
      rfl
    | none =>
      cases hf : f v with
      | none =>
        simp only [State.track, trapsOf, h, hf, List.filterMap_cons, Option.map_none, List.filter_cons,
          Option.isNone_none, if_true]
      | some x =>
        have ht : s.track bad f v = s.put v x := by simp only [State.track, h, hf]
        rw [ht, applyAll_put v x _ (trapsOf_isTrap hbad vs)]
        simp only [trapsOf, h, hf, List.filterMap_cons, Option.map_none, Option.map_some, List.filter_cons,
          Option.isNone_none, if_true]
        rfl

/-- A word whose fibres each trap, issue or do neither is what `TracksAt` says. -/
theorem tracksAt_of_wordSeq {s : State} {i : Instr} {g : Guard} {bad : View → Option WordRes}
    {f : View → Option Issue} (hbad : ∀ v r, bad v = some r → r.isTrap = true)
    (hexec : exec i s = .next (s.wordSeq g (State.track bad f))) : TracksAt s i g bad f := by
  have htraps : trapsOf bad (s.views.filter (·.guard g)) = s.effs fun v => if v.guard g then bad v else none := by
    unfold trapsOf State.effs
    rw [List.filterMap_filter]
    congr 1
    funext v
    by_cases hg : v.guard g = true <;> simp [hg]
  have hrun : s.wordSeq g (State.track bad f) = (s.applyAll (s.effs fun v => if v.guard g then bad v else none)).putAll
      ((s.views.filter fun v => v.guard g && (bad v).isNone).filterMap fun v => (f v).map fun x => (v, x)) := by
    unfold State.wordSeq
    rw [foldl_track hbad, htraps, List.filter_filter]
    simp only [Bool.and_comm]
  refine ⟨_, _, hexec.trans (congrArg _ hrun), applyAll_effects s _ ?_, putAll_issues _ _⟩
  intro v _ r hr
  split at hr
  · have ht := hbad v r hr
    cases r with
    | trap => rfl
    | eff => cases ht
  · cases hr

theorem tracks_of_wordSeq {i : Instr} {g : Guard} {f : View → Option Issue}
    (hexec : ∀ s : State, exec i s = .next (s.wordSeq g (State.track (fun _ => none) f))) : Tracks i g f :=
  fun s => tracksAt_of_wordSeq (fun _ _ h => by cases h) (hexec s)

end Sys2Proof.Machine
end

section
/-! SUPPORT. What the memory below the pods leaves alone: `State.scene` holds who runs, what is outstanding and what the
pods' combining buffers and the cores' matrix queues hold, and one lemma an operation says that it is kept. -/

namespace Sys2Proof.Machine

open Sys2Proof

/-- Fibres, groups and teams, their clauses and operations, and what else no access of memory changes. -/
structure Scene where
  tick : Nat
  clock : Nat
  power : Power
  cur : Nat
  fibres : List Fibre
  groups : List Group
  teams : List Team
  clusters : List Cluster
  clutches : List Clutch
  running : List ClauseRun
  pend : List MemOp
  pkg : Nat
  ports : NMap Port
  lostPkgs : List Nat
  sib : NMap SibCell
  combs : Nat → List Comb
  mtxs : Nat → List MtxOp

def State.scene (s : State) : Scene :=
  { tick := s.tick, clock := s.clock, power := s.power, cur := s.cur, fibres := s.fibres, groups := s.groups,
    teams := s.teams, clusters := s.clusters, clutches := s.clutches, running := s.running, pend := s.pend,
    pkg := s.pkg, ports := s.ports, lostPkgs := s.lostPkgs, sib := s.sib,
    combs := fun p => (s.pod p).comb, mtxs := fun c => (s.core c).mtx }

/-- An update of any other fields leaves them. -/
@[simp] theorem scene_update (s : State)
    (a0 : List Choice) (a1 : Nat) (a2 : NMap (List Tlb)) (a3 : List Sector) (a4 : List (Nat × Sector))
    (a5 : List Nat) (a6 : NMap L2Set) (a7 : List L2Line) (a8 : Memory) (a9 : List (Nat × Sector))
    (a10 : List (Nat × Nat × Sector)) (a11 : List (Nat × Nat × Option Word)) (a12 : List Nat) (a13 : List Nat)
    (a14 : List (Nat × Sector)) (a15 : NMap Word) (a16 : NMap (List (BitVec 12))) (a17 : NMap Nat) (a18 : NMap Nat)
    (a19 : List Nat) (a20 : NMap Nat) (a21 : List ((Nat × Nat × Nat × Nat) × Nat)) (a22 : List (Nat × Nat × Nat))
    (a23 : List ((Nat × Nat × Nat) × Nat)) (a24 : List Walk) (a25 : List FaultRec) (a26 : List Sub)
    (a27 : List JoinDec) (a28 : List FutDec) (a29 : List Cmd) (a30 : List (List Byte × List Word)) (a31 : NMap Part)
    (a32 : Nat) (a33 : Nat) (a34 : Word) (a35 : NMap Nat) (a36 : List Nat) (a37 : Bool) (a38 : NMap Nat)
    (a39 : List CheckSite) (a40 : Bool) (a41 : Nat) (a42 : List Nat) (a43 : List (CheckSite × Nat))
    (a44 : List (Nat × Nat × Word)) (a45 : NMap Head) (a46 : NMap Nat) (a47 : NMap Enc) (a48 : NMap Cxl) (a49 : Nat)
    (a50 : List (Nat × Sector)) (a51 : List CollFix) (a52 : List (Nat × Nat))
    (a53 : List (Nat × List Byte × List Bool)) :
    State.scene { s with
      sched := a0, fresh := a1, dtlb := a2, l2 := a3, guests := a4, l2WaysOff := a5, l2Sets := a6, l2Used := a7,
      mem := a8, missed := a9, reps := a10, lost := a11, stacksOff := a12, sectorsOff := a13, fillWait := a14,
      frames := a15, profiles := a16, rds := a17, wrs := a18, badPc := a19, caTries := a20, acts := a21,
      heldBanks := a22, spares := a23, walks := a24, faults := a25, subs := a26, joins := a27, futs := a28,
      cmds := a29, trees := a30, parts := a31, mode := a32, pkgNext := a33, bootRec := a34, stackTries := a35,
      sectorsBad := a36, pcieSlow := a37, hubLast := a38, retired := a39, flashOk := a40, fwstat := a41,
      fwJob := a42, lastFail := a43, events := a44, heads := a45, engTurn := a46, encs := a47, cxl := a48,
      sentSeq := a49, far := a50, colls := a51, received := a52, answers := a53 } = s.scene := rfl

@[simp] theorem scene_ite (p : Prop) [Decidable p] (s t : State) :
    (if p then s else t).scene = if p then s.scene else t.scene := apply_ite ..

@[simp] theorem snd_scene_ite {α : Type} (p : Prop) [Decidable p] (s t : α × State) :
    (if p then s else t).2.scene = if p then s.2.scene else t.2.scene := by
  split <;> rfl

@[simp] theorem foldl_scene {α : Type} (f : State → α → State) (h : ∀ s x, (f s x).scene = s.scene)
    (l : List α) (s : State) : (l.foldl f s).scene = s.scene := by
  induction l generalizing s with
  | nil => rfl
  | cons x l ih => rw [List.foldl_cons, ih, h]

@[simp] theorem foldl_snd_scene {α β : Type} (f : β × State → α → β × State)
    (h : ∀ p x, (f p x).2.scene = p.2.scene) (l : List α) (p : β × State) :
    (l.foldl f p).2.scene = p.2.scene := by
  induction l generalizing p with
  | nil => rfl
  | cons x l ih => rw [List.foldl_cons, ih, h]

section

variable (s : State)

theorem modPod_pod (p q : Nat) (g : Pod → Pod) : (s.modPod p g).pod q = if q = p then g (s.pod p) else s.pod q := by
  unfold State.modPod State.pod NMap.mod
  dsimp only
  rw [NMap.get_set]

theorem modCore_core (c d : Nat) (g : Core → Core) : (s.modCore c g).core d = if d = c then g
    (s.core c) else s.core d := by
  unfold State.modCore State.core NMap.mod
  dsimp only
  rw [NMap.get_set]

/-- A change of a pod that leaves its combining buffer. -/
@[simp] theorem modPod_scene (p : Nat) (g : Pod → Pod) (hg : ∀ x, (g x).comb = x.comb) :
    (s.modPod p g).scene = s.scene := by
  have h : (fun q => ((s.modPod p g).pod q).comb) = fun q => (s.pod q).comb := by
    funext q
    rw [modPod_pod]
    split
    · next e => rw [hg, e]
    · rfl
  unfold State.scene
  rw [h]
  rfl

/-- A change of a core that leaves its matrix queue. -/
@[simp] theorem modCore_scene (c : Nat) (g : Core → Core) (hg : ∀ x, (g x).mtx = x.mtx) :
    (s.modCore c g).scene = s.scene := by
  have h : (fun q => ((s.modCore c g).core q).mtx) = fun q => (s.core q).mtx := by
    funext q
    rw [modCore_core]
    split
    · next e => rw [hg, e]
    · rfl
  unfold State.scene
  rw [h]
  rfl

@[simp] theorem modPart_scene (p : Nat) (g : Part → Part) : (s.modPart p g).scene = s.scene := by
  simp [State.modPart]

@[simp] theorem newId_scene : s.newId.2.scene = s.scene := by
  simp [State.newId]

/-! ### Memory and the caches -/

@[simp] theorem refreshed_scene (stack q bank : Nat) : (s.refreshed stack q bank).scene = s.scene := by
  simp [State.refreshed]

@[simp] theorem activate_scene (base : Nat) : (s.activate base).scene = s.scene := by
  simp [State.activate]

@[simp] theorem hbmWrite_scene (base : Nat) (w : SecWrite) : (s.hbmWrite base w).scene = s.scene := by
  simp [State.hbmWrite]

@[simp] theorem fillFrame_scene (f : Nat) : (s.fillFrame f).scene = s.scene := by
  simp [State.fillFrame]

@[simp] theorem memRead_scene (base : Nat) : (s.memRead base).2.scene = s.scene := by
  unfold State.memRead
  split
  · dsimp only
    split
    · rfl
    · split <;> simp
  · rfl

@[simp] theorem memWrite_scene (base : Nat) (w : SecWrite) (part : Nat) :
    (s.memWrite base w part).scene = s.scene := by
  simp [State.memWrite]

@[simp] theorem useL2_scene (die : Nat) (use : L2Use) (base : Nat) : (s.useL2 die use base).scene = s.scene := by
  simp [State.useL2]

@[simp] theorem homeRead_scene (base : Nat) (words : BitVec 8) : (s.homeRead base words).2.scene = s.scene := by
  simp [State.homeRead]

@[simp] theorem dropGuests_scene (base : Nat) : (s.dropGuests base).scene = s.scene := by
  simp [State.dropGuests]

@[simp] theorem homeWrite_scene (base : Nat) (w : SecWrite) (part : Nat) :
    (s.homeWrite base w part).scene = s.scene := by
  simp [State.homeWrite]

@[simp] theorem l2Flush_scene (base : Nat) : (s.l2Flush base).scene = s.scene := by
  unfold State.l2Flush
  split <;> simp

@[simp] theorem l2Drop_scene (base : Nat) : (s.l2Drop base).scene = s.scene := by
  simp [State.l2Drop]

@[simp] theorem fetch_scene (pod base : Nat) : (s.fetch pod base).2.scene = s.scene := by
  unfold State.fetch
  dsimp only
  split <;> simp

@[simp] theorem podRead_scene (pod base : Nat) (words : BitVec 8) :
    (s.podRead pod base words).2.scene = s.scene := by
  simp [State.podRead]

@[simp] theorem podWrite_scene (pod base : Nat) (w : SecWrite) (f : FibId) (part : Nat) :
    (s.podWrite pod base w f part).scene = s.scene := by
  simp [State.podWrite]

@[simp] theorem podFlush_scene (pod base : Nat) : (s.podFlush pod base).scene = s.scene := by
  unfold State.podFlush
  split <;> simp

@[simp] theorem podDrop_scene (pod base : Nat) : (s.podDrop pod base).scene = s.scene := by
  simp [State.podDrop]

@[simp] theorem flushCxl_scene : s.flushCxl.scene = s.scene := by
  simp [State.flushCxl]

@[simp] theorem writeBack_scene (pod : Nat) (sys : Bool) (p : FibId → Bool) :
    (s.writeBack pod sys p).scene = s.scene := by
  simp [State.writeBack]

@[simp] theorem podAcquire_scene (pod : Nat) : (s.podAcquire pod).scene = s.scene := by
  simp [State.podAcquire]

@[simp] theorem replicate_scene (die clutch base : Nat) (tag : Option SealTag) (v : SecVal) :
    (s.replicate die clutch base tag v).scene = s.scene := by
  simp [State.replicate]

@[simp] theorem installSealed_scene (pod base : Nat) (tag : SealTag) (v : SecVal) :
    (s.installSealed pod base tag v).scene = s.scene := by
  simp [State.installSealed]

@[simp] theorem remoteSec_scene (base : Nat) : (s.remoteSec base).2.scene = s.scene := by
  unfold State.remoteSec
  split <;> rfl

@[simp] theorem readSec_scene (g : Agent) (dpa : Nat) (attr : PageAttr) (home : Bool) (words : BitVec 8) :
    (s.readSec g dpa attr home words).2.scene = s.scene := by
  unfold State.readSec
  dsimp only
  repeat' split
  all_goals simp

@[simp] theorem readNat_scene (g : Agent) (dpa : Nat) (attr : PageAttr) (home : Bool) (n : Nat) :
    (s.readNat g dpa attr home n).2.scene = s.scene := by
  simp [State.readNat]

@[simp] theorem hubWords_scene (dpa n : Nat) : (s.hubWords dpa n).2.scene = s.scene := by
  simp [State.hubWords]

/-! ### Translation and the memory port -/

@[simp] theorem desc_scene (part idx : Nat) : (s.desc part idx).2.scene = s.scene := by
  unfold State.desc
  split <;> simp

@[simp] theorem walkFrom_scene (table va : Nat) (levels : List Level) :
    (s.walkFrom table va levels).2.scene = s.scene := by
  induction levels generalizing s table with
  | nil => rfl
  | cons l ls ih => simp [State.walkFrom, ih]

@[simp] theorem walk_scene (part va : Nat) : (s.walk part va).2.scene = s.scene := by
  unfold State.walk
  dsimp only
  split <;> simp

@[simp] theorem tlbFill_scene (pod : Nat) (t : Tlb) : (s.tlbFill pod t).scene = s.scene := by
  simp [State.tlbFill]

@[simp] theorem lookup_scene (pod part va : Nat) : (s.lookup pod part va).2.scene = s.scene := by
  unfold State.lookup
  repeat' split
  all_goals simp

@[simp] theorem translateAll_scene (pod part : Nat) (vas : List Nat) :
    (s.translateAll pod part vas).2.scene = s.scene := by
  induction vas generalizing s with
  | nil => rfl
  | cons va vas ih =>
    unfold State.translateAll
    dsimp only
    split
    · simp
    · split <;> simp [ih]

@[simp] theorem port_scene (pod : Nat) (q : PortReq) : (s.port pod q).2.scene = s.scene := by
  unfold State.port
  split
  · rfl
  split
  · rfl
  split
  · rfl
  dsimp only
  iterate 8
    split
    · simp
  split <;> simp

@[simp] theorem faultOn_scene (part va : Nat) (addr : Word) (core queue : Nat) (k : FaultKind) (e : WalkFail) :
    (s.faultOn part va addr core queue k e).2.scene = s.scene := by
  unfold State.faultOn
  split <;> simp

@[simp] theorem startWalk_scene (part va : Nat) (addr : Word) (core queue : Nat) (k : FaultKind) (pod : Nat)
    (quiet : Bool) : (s.startWalk part va addr core queue k pod quiet).2.scene = s.scene := by
  unfold State.startWalk
  split <;> simp

@[simp] theorem reach_scene (pod : Nat) (q : PortReq) (addr : Word) (queue : Nat) (k : FaultKind) (fuel : Nat) :
    (s.reach pod q addr queue k fuel).2.scene = s.scene := by
  induction fuel generalizing s with
  | zero => rfl
  | succ n ih =>
    unfold State.reach
    dsimp only
    split
    · simp
    · simp
    · split
      · simp
      · split <;> simp [ih]

end

end Sys2Proof.Machine
end

section
/-! SUPPORT. The words of class mem as they issue (R97, R131, R143): prefetches, the combining buffer's end, and O21. -/

namespace Sys2Proof.Machine

open Sys2Proof

/-! ## Copies of sectors -/

theorem secFind_cons (x : Sector) (l : List Sector) (b : Nat) (t : Option SealTag) :
    secFind (x :: l) b t = if x.base = b ∧ x.tag = t then some x else secFind l b t := by
  by_cases h : x.base = b ∧ x.tag = t
  · simp [secFind, h]
  · rw [if_neg h]
    unfold secFind
    rw [List.find?_cons_of_neg]
    simpa using h

theorem secFind_secPut_self (l : List Sector) (c : Sector) : secFind (secPut l c) c.base c.tag = some c := by
  induction l with
  | nil => simp [secPut, secFind]
  | cons x xs ih =>
    unfold secPut
    split
    · simp [secFind_cons]
    · next hx =>
      split
      · simp [secFind_cons]
      · rw [secFind_cons, if_neg (by simpa using hx), ih]

theorem secFind_secPut_other (l : List Sector) (c : Sector) (b : Nat) (t : Option SealTag)
    (h : ¬ (c.base = b ∧ c.tag = t)) : secFind (secPut l c) b t = secFind l b t := by
  induction l with
  | nil => rw [secPut, secFind_cons, if_neg h]
  | cons x xs ih =>
    unfold secPut
    split
    · next hx =>
      simp only [Bool.and_eq_true, beq_iff_eq] at hx
      rw [secFind_cons, if_neg h, secFind_cons, if_neg (by rwa [hx.1, hx.2])]
    · split
      · rw [secFind_cons, if_neg h]
      · rw [secFind_cons, secFind_cons, ih]

/-! ## The pods' L1s under reads -/

theorem useL2_pods (s : State) (d : Nat) (u : L2Use) (a : Nat) : (s.useL2 d u a).pods = s.pods := by
  unfold State.useL2; dsimp only; split <;> rfl

theorem fillFrame_pods (s : State) (f : Nat) : (s.fillFrame f).pods = s.pods := by
  unfold State.fillFrame
  refine foldl_keeps (fun t : State => t.pods = s.pods) _ ?_ _ _ rfl
  intro t x ht
  dsimp only
  split <;> exact ht

theorem memRead_pods (s : State) (a : Nat) : (s.memRead a).2.pods = s.pods := by
  unfold State.memRead
  split
  · dsimp only
    split
    · rfl
    · split <;> split
      all_goals first | exact fillFrame_pods s _ | rfl
  · rfl

theorem homeRead_pods (s : State) (a : Nat) (ws : BitVec 8) : (s.homeRead a ws).2.pods = s.pods := by
  unfold State.homeRead
  dsimp only
  split
  · exact useL2_pods _ _ _ _
  · split
    · exact (useL2_pods _ _ _ _).trans (memRead_pods s a)
    · exact memRead_pods s a

theorem fetch_pods (s : State) (pod a : Nat) : (s.fetch pod a).2.pods = s.pods := by
  unfold State.fetch
  dsimp only
  split
  · exact useL2_pods _ _ _ _
  · split
    · exact homeRead_pods s a _
    · exact (useL2_pods _ _ _ _).trans (homeRead_pods s a _)

theorem replicate_pods (s : State) (d c a : Nat) (t : Option SealTag) (v : SecVal) :
    (s.replicate d c a t v).pods = s.pods := by
  unfold State.replicate
  split
  · rfl
  · exact useL2_pods _ _ _ _

/-- A pod's L1 answers for a whole sector. -/
def State.holdsSec (s : State) (pod base : Nat) : Prop :=
  ∃ c, secFind (s.pod pod).l1 base none = some c ∧ c.covers 0xFF = true

theorem holdsSec_of_pods {s t : State} (h : t.pods = s.pods) {p b : Nat} (hs : s.holdsSec p b) : t.holdsSec p b := by
  have hp : t.pod p = s.pod p := by unfold State.pod; rw [h]
  unfold State.holdsSec
  rw [hp]
  exact hs

theorem covers_of_full {c : Sector} (h : c.full = true) (ws : BitVec 8) : c.covers ws = true := by
  simp [Sector.covers, h]

/-- A full sector put into a pod's L1 is there, and so is every other one that was. -/
theorem modPod_secPut_holdsSec (s : State) (pod : Nat) {c : Sector} (ht : c.tag = none) (hc : c.full = true) :
    let t := s.modPod pod fun p => { p with l1 := secPut p.l1 c }
    t.holdsSec pod c.base ∧ ∀ p b, s.holdsSec p b → t.holdsSec p b := by
  intro t
  have hself : t.holdsSec pod c.base := by
    refine ⟨c, ?_, covers_of_full hc _⟩
    rw [modPod_pod, if_pos rfl, ← ht]
    exact secFind_secPut_self _ _
  refine ⟨hself, fun p b hb => ?_⟩
  by_cases hp : p = pod
  · subst hp
    by_cases hbase : c.base = b
    · exact hbase ▸ hself
    · obtain ⟨x, hx, hcov⟩ := hb
      refine ⟨x, ?_, hcov⟩
      rw [modPod_pod, if_pos rfl]
      exact (secFind_secPut_other _ _ _ _ fun h => hbase h.1).trans hx
  · obtain ⟨x, hx, hcov⟩ := hb
    exact ⟨x, by rw [modPod_pod, if_neg hp]; exact hx, hcov⟩

theorem secFind_key {l : List Sector} {b : Nat} {t : Option SealTag} {c : Sector} (h : secFind l b t = some c) :
    c.base = b ∧ c.tag = t := by
  have := List.find?_some h
  simpa using this

/-- A pod's copy of a sector, an empty one where it has none. -/
def State.copyOf (s : State) (pod base : Nat) : Sector :=
  (secFind (s.pod pod).l1 base none).getD (Sector.empty base none)

theorem copyOf_key (s : State) (pod base : Nat) : (s.copyOf pod base).base = base ∧ (s.copyOf pod base).tag = none := by
  unfold State.copyOf
  cases h : secFind (s.pod pod).l1 base none with
  | none => exact ⟨rfl, rfl⟩
  | some c => exact secFind_key h

/-- A read through a pod: what its L1 holds answers, or the sector is fetched into it. -/
theorem podRead_eq (s : State) (pod base : Nat) (ws : BitVec 8) :
    let c := s.copyOf pod base
    let r := s.fetch pod base
    let f := c.fill r.1 s.clock
    s.podRead pod base ws = if c.covers ws then (c.val, s)
      else (f.val, State.modPod { r.2 with missed := r.2.missed ++ [(pod,
        (Sector.empty base none).fill f.val s.clock)] }
        pod fun p => { p with l1 := secPut p.l1 f }) := rfl

/-- A read of a whole sector through a pod leaves it in the pod's L1, and every other one that was there. -/
theorem podRead_holdsSec (s : State) (pod base : Nat) :
    (s.podRead pod base 0xFF).2.holdsSec pod base
      ∧ ∀ p b, s.holdsSec p b → (s.podRead pod base 0xFF).2.holdsSec p b := by
  obtain ⟨hbase, htag⟩ := copyOf_key s pod base
  rw [podRead_eq]
  by_cases hcov : (s.copyOf pod base).covers 0xFF = true
  · rw [if_pos hcov]
    refine ⟨?_, fun _ _ h => h⟩
    unfold State.copyOf at hcov
    cases h : secFind (s.pod pod).l1 base none with
    | none =>
      rw [h] at hcov
      simp [Sector.covers, Sector.empty] at hcov
    | some c =>
      rw [h] at hcov
      exact ⟨c, h, hcov⟩
  · rw [if_neg hcov]
    have hput := modPod_secPut_holdsSec { (s.fetch pod base).2 with
      missed := (s.fetch pod base).2.missed ++ [(pod, (Sector.empty base none).fill
        ((s.copyOf pod base).fill (s.fetch pod base).1 s.clock).val s.clock)] } pod
      (c := (s.copyOf pod base).fill (s.fetch pod base).1 s.clock) htag rfl
    obtain ⟨hself, hother⟩ := hput
    have hfill : ((s.copyOf pod base).fill (s.fetch pod base).1 s.clock).base = base := hbase
    rw [hfill] at hself
    refine ⟨hself, fun p b hb => hother p b ?_⟩
    exact holdsSec_of_pods (s := s) (fetch_pods s pod base) hb

/-! ## Memory under reads -/

/-- No frame waits to be filled, and then memory's bytes are as they were. -/
structure Still (s t : State) : Prop where
  kept : s.fillWait = [] → t.mem = s.mem ∧ t.fillWait = []

theorem Still.refl (s : State) : Still s s := ⟨fun h => ⟨rfl, h⟩⟩

theorem Still.trans {s t u : State} (h1 : Still s t) (h2 : Still t u) : Still s u := by
  refine ⟨fun h => ?_⟩
  obtain ⟨hm, hf⟩ := h1.kept h
  obtain ⟨hm', hf'⟩ := h2.kept hf
  exact ⟨hm'.trans hm, hf'⟩

/-- An operation that leaves memory and the waiting writes. -/
theorem still_of_eq {s t : State} (hm : t.mem = s.mem) (hf : t.fillWait = s.fillWait) : Still s t :=
  ⟨fun h => ⟨hm, hf.trans h⟩⟩

theorem foldl_still {α : Type} {f : State → α → State} (h : ∀ s x, Still s (f s x)) (l : List α) :
    ∀ s : State, Still s (l.foldl f s) := by
  induction l with
  | nil => exact Still.refl
  | cons x l ih => exact fun s => (h s x).trans (ih _)

theorem useL2_still (s : State) (d : Nat) (u : L2Use) (a : Nat) : Still s (s.useL2 d u a) := by
  unfold State.useL2
  dsimp only
  split
  · exact Still.refl s
  · exact still_of_eq rfl rfl

theorem memRead_still (s : State) (a : Nat) : Still s (s.memRead a).2 := by
  refine ⟨fun h => ?_⟩
  unfold State.memRead
  split
  · have hwait : (s.fillWait.any fun x => x.1 == frameOf a) = false := by rw [h]; rfl
    dsimp only
    simp only [hwait, Bool.false_eq_true, if_false]
    split
    · exact ⟨rfl, h⟩
    · split
      · exact ⟨rfl, h⟩
      · exact ⟨rfl, h⟩
  · exact ⟨rfl, h⟩

theorem homeRead_still (s : State) (a : Nat) (ws : BitVec 8) : Still s (s.homeRead a ws).2 := by
  unfold State.homeRead
  dsimp only
  split
  · exact useL2_still s _ _ _
  · split
    · refine ((memRead_still s a).trans ?_).trans (useL2_still _ _ _ _)
      exact still_of_eq rfl rfl
    · exact memRead_still s a

theorem fetch_still (s : State) (pod a : Nat) : Still s (s.fetch pod a).2 := by
  unfold State.fetch
  dsimp only
  split
  · exact useL2_still s _ _ _
  · split
    · exact homeRead_still s a _
    · refine ((homeRead_still s a 0xFF).trans ?_).trans (useL2_still _ _ _ _)
      exact still_of_eq rfl rfl

theorem podRead_still (s : State) (pod a : Nat) (ws : BitVec 8) : Still s (s.podRead pod a ws).2 := by
  rw [podRead_eq]
  dsimp only
  split
  · exact Still.refl s
  · exact (fetch_still s pod a).trans (still_of_eq rfl rfl)

theorem replicate_still (s : State) (d c a : Nat) (t : Option SealTag) (v : SecVal) : Still s
    (s.replicate d c a t v) := by
  unfold State.replicate
  split
  · exact Still.refl s
  · refine Still.trans ?_ (useL2_still _ _ _ _)
    exact still_of_eq rfl rfl

/-! ## Prefetches (R97, R135, R355) -/

/-- A line asked for: on no flag, for no register, in another package. -/
def State.asks (s : State) (x : MemOp) : Prop :=
  x.flag = 15 ∧ x.act.dests = [] ∧ ∃ a y, x.loc = .mem a y ∧ s.isRemote a = true

/-- What prefetches leave: lines asked for, and more whole sectors in the L1s. -/
structure Prefetched (s t : State) : Prop where
  fibres : t.fibres = s.fibres
  groups : t.groups = s.groups
  teams : t.teams = s.teams
  pkg : t.pkg = s.pkg
  sib : t.sib = s.sib
  pend : ∃ l, t.pend = s.pend ++ l ∧ ∀ x ∈ l, s.asks x
  still : Still s t
  held : ∀ p b, s.holdsSec p b → t.holdsSec p b

theorem isRemote_pkg {s t : State} (h : t.pkg = s.pkg) (a : Nat) : t.isRemote a = s.isRemote a := by
  unfold State.isRemote
  rw [h]

theorem Prefetched.refl (s : State) : Prefetched s s :=
  ⟨rfl, rfl, rfl, rfl, rfl, ⟨[], (List.append_nil _).symm, by simp⟩, Still.refl s, fun _ _ h => h⟩

theorem Prefetched.trans {s t u : State} (h1 : Prefetched s t) (h2 : Prefetched t u) : Prefetched s u := by
  obtain ⟨l1, hp1, ha1⟩ := h1.pend
  obtain ⟨l2, hp2, ha2⟩ := h2.pend
  refine ⟨h2.fibres.trans h1.fibres, h2.groups.trans h1.groups, h2.teams.trans h1.teams, h2.pkg.trans h1.pkg,
    h2.sib.trans h1.sib, ⟨l1 ++ l2, by rw [hp2, hp1, List.append_assoc], ?_⟩, h1.still.trans h2.still,
    fun p b h => h2.held p b (h1.held p b h)⟩
  intro x hx
  rcases List.mem_append.mp hx with h | h
  · exact ha1 x h
  · obtain ⟨hf, hd, a, y, hl, hr⟩ := ha2 x h
    exact ⟨hf, hd, a, y, hl, (isRemote_pkg h1.pkg a) ▸ hr⟩

theorem prefetched_of_scene {s t : State} (h : t.scene = s.scene) (hs : Still s t)
    (hh : ∀ p b, s.holdsSec p b → t.holdsSec p b) : Prefetched s t where
  fibres := congrArg Scene.fibres h
  groups := congrArg Scene.groups h
  teams := congrArg Scene.teams h
  pkg := congrArg Scene.pkg h
  sib := congrArg Scene.sib h
  pend := ⟨[], (congrArg Scene.pend h).trans (List.append_nil _).symm, by simp⟩
  still := hs
  held := hh

theorem foldl_prefetched {α : Type} {f : State → α → State} (h : ∀ s x, Prefetched s (f s x)) (l : List α) :
    ∀ s : State, Prefetched s (l.foldl f s) := by
  induction l with
  | nil => exact Prefetched.refl
  | cons x l ih => exact fun s => (h s x).trans (ih _)

/-- One sector of a line brought into the pod's L1, with its replica. -/
def State.bring (s : State) (core : Nat) (rep : Option (Nat × Nat)) (base : Nat) : State :=
  let r := s.podRead (podOf core) base 0xFF
  match rep with
  | some x => r.2.replicate x.1 x.2 base none r.1
  | none => r.2

theorem bring_prefetched (s : State) (core : Nat) (rep : Option (Nat × Nat)) (base : Nat) :
    Prefetched s (s.bring core rep base) ∧ (s.bring core rep base).holdsSec (podOf core) base := by
  obtain ⟨hself, hheld⟩ := podRead_holdsSec s (podOf core) base
  have hread : Prefetched s (s.podRead (podOf core) base 0xFF).2 :=
    prefetched_of_scene (by simp) (podRead_still s _ _ _) hheld
  unfold State.bring
  cases rep with
  | none => exact ⟨hread, hself⟩
  | some x =>
    refine ⟨hread.trans (prefetched_of_scene (by simp) (replicate_still _ _ _ _ _ _) fun p b h => ?_), ?_⟩
    · exact holdsSec_of_pods (replicate_pods _ _ _ _ _ _) h
    · exact holdsSec_of_pods (replicate_pods _ _ _ _ _ _) hself

theorem foldl_bring_holdsSec (core : Nat) (rep : Option (Nat × Nat)) (l : List Nat) (s : State) {b : Nat} (hb : b ∈ l) :
    (l.foldl (fun s base => s.bring core rep base) s).holdsSec (podOf core) b := by
  induction l generalizing s with
  | nil => cases hb
  | cons x l ih =>
    rw [List.foldl_cons]
    rcases List.mem_cons.mp hb with rfl | hb
    · exact (foldl_prefetched (fun s x => (bring_prefetched s core rep x).1) l _).held _ _ (bring_prefetched s core
      rep b).2
    · exact ih _ hb

theorem isRemote_line (s : State) (a : Nat) : s.isRemote (a - a % 256) = s.isRemote a := by
  have h1 : (a - a % 256) / 2 ^ 52 = a / 2 ^ 52 := by omega
  have h2 : (a - a % 256) / 2 ^ 39 = a / 2 ^ 39 := by omega
  unfold State.isRemote spaceOf
  rw [h1, h2]

theorem askLine_prefetched (s : State) (core part : Nat) (rep : Option (Nat × Nat)) (dpa : Nat) (t : PageAttr)
    (h : s.isRemote dpa = true) : Prefetched s (s.askLine core part rep dpa t) where
  fibres := rfl
  groups := rfl
  teams := rfl
  pkg := rfl
  sib := rfl
  pend := by
    refine ⟨[_], rfl, ?_⟩
    intro x hx
    rw [List.mem_singleton] at hx
    subst hx
    exact ⟨rfl, rfl, _, _, rfl, (isRemote_line s dpa).trans h⟩
  still := still_of_eq rfl rfl
  held := fun _ _ h => h

theorem prefetch_prefetched (s : State) (core part : Nat) (rep : Option (Nat × Nat)) (l : Loc) :
    Prefetched s (s.prefetch core part rep l) := by
  unfold State.prefetch
  split
  · split
    · next hr =>
      split
      · exact askLine_prefetched s core part rep _ _ hr
      · exact Prefetched.refl s
    · split
      · exact Prefetched.refl s
      · exact foldl_prefetched (fun s x => (bring_prefetched s core rep x).1) _ s
  · exact Prefetched.refl s

/-- A line that the pod's L1 may hold is there whole. -/
theorem prefetch_holdsSec (s : State) (core part : Nat) (rep : Option (Nat × Nat)) (dpa : Nat) (x : PageAttr)
    (hb : PageAttr.bypass x dpa = false) (hsc : x.sc = false) (hsp : spaceOf dpa ≤ 1) (i : Nat) (hi : i < 4) :
    (s.prefetch core part rep (.mem dpa x)).holdsSec (podOf core) (dpa - dpa % 256 + 64 * i) := by
  have hnear : s.isRemote dpa = false := by
    unfold State.isRemote
    have : (spaceOf dpa == 3) = false := by rw [beq_eq_false_iff_ne]; omega
    rw [this, Bool.false_and]
  have hcond : (x.bypass dpa || x.sc || decide (1 < spaceOf dpa)) = false := by simp [hb, hsc, hsp]
  unfold State.prefetch
  dsimp only
  rw [hnear, hcond]
  refine foldl_bring_holdsSec core rep _ s ?_
  exact List.mem_map.mpr ⟨i, List.mem_range.mpr hi, rfl⟩

/-- The lines of a planned prefetch brought in. -/
def State.prefetchAll (s : State) (core part : Nat) (rep : Option (Nat × Nat)) (ls : List Loc) : State :=
  ls.foldl (fun acc l => acc.prefetch core part rep l) s

theorem prefetchAll_prefetched (s : State) (core part : Nat) (rep : Option (Nat × Nat)) (ls : List Loc) :
    Prefetched s (s.prefetchAll core part rep ls) :=
  foldl_prefetched (fun s l => prefetch_prefetched s core part rep l) ls s

theorem prefetchAll_holdsSec (core part : Nat) (rep : Option (Nat × Nat)) (ls : List Loc) (s : State) {dpa : Nat}
    {x : PageAttr} (hl : Loc.mem dpa x ∈ ls) (hb : PageAttr.bypass x dpa = false) (hsc : x.sc = false)
    (hsp : spaceOf dpa ≤ 1) (i : Nat) (hi : i < 4) :
    (s.prefetchAll core part rep ls).holdsSec (podOf core) (dpa - dpa % 256 + 64 * i) := by
  induction ls generalizing s with
  | nil => cases hl
  | cons l ls ih =>
    rcases List.mem_cons.mp hl with rfl | hl
    · exact (prefetchAll_prefetched _ core part rep ls).held _ _ (prefetch_holdsSec s core part rep dpa x hb hsc hsp
      i hi)
    · exact ih _ hl

/-- One fibre's turn of a prefetch. -/
def State.pldTurn (rep : Bool) (s : State) (v : View) : State :=
  match v.planned with
  | some a =>
    s.prefetchAll v.team.core v.team.part (if rep then some (dieOf v.team.core, v.team.clutch) else none) a.lines
  | none => s

theorem pldTurn_prefetched (rep : Bool) (s : State) (v : View) : Prefetched s (s.pldTurn rep v) := by
  unfold State.pldTurn
  split
  · exact prefetchAll_prefetched _ _ _ _ _
  · exact Prefetched.refl s

theorem foldl_pldTurn_holdsSec (rep : Bool) (vs : List View) (s : State) {v : View} (hv : v ∈ vs) {a : Access}
    (ha : v.planned = some a) {dpa : Nat} {x : PageAttr} (hl : Loc.mem dpa x ∈ a.lines)
    (hb : PageAttr.bypass x dpa = false) (hsc : x.sc = false) (hsp : spaceOf dpa ≤ 1) (i : Nat) (hi : i < 4) :
    (vs.foldl (State.pldTurn rep) s).holdsSec (podOf v.team.core) (dpa - dpa % 256 + 64 * i) := by
  induction vs generalizing s with
  | nil => cases hv
  | cons u vs ih =>
    rw [List.foldl_cons]
    rcases List.mem_cons.mp hv with rfl | hv
    · refine (foldl_prefetched (pldTurn_prefetched rep) vs _).held _ _ ?_
      unfold State.pldTurn
      rw [ha]
      exact prefetchAll_holdsSec _ _ _ _ s hl hb hsc hsp i hi
    · exact ih _ hv

end Sys2Proof.Machine
end

section
/-! SUPPORT. Fences empty the combining buffer (R143), and O21. -/

namespace Sys2Proof.Machine

open Sys2Proof

/-! ## The combining buffers under what else an entry's end does -/

section

variable (s : State)

/-- The combining buffer of a pod. -/
def State.combOf (s : State) (pod : Nat) : List Comb := (s.pod pod).comb

theorem combOf_of_scene {s t : State} (h : t.scene = s.scene) (p : Nat) : t.combOf p = s.combOf p :=
  congrFun (congrArg Scene.combs h) p

theorem combOf_of_pods {s t : State} (h : t.pods = s.pods) (p : Nat) : t.combOf p = s.combOf p := by
  unfold State.combOf State.pod
  rw [h]

@[simp] theorem freeFe_pods (f : FibId) : (s.freeFe f).pods = s.pods := by
  unfold State.freeFe
  dsimp only
  split <;> rfl

@[simp] theorem finishOne_pods (o : MemOp) : (s.finishOne o).pods = s.pods := by
  unfold State.finishOne
  dsimp only
  rw [freeFe_pods]
  split <;> rfl

theorem foldl_pods {α : Type} {f : State → α → State} (h : ∀ s x, (f s x).pods = s.pods) (l : List α) (s : State) :
    (l.foldl f s).pods = s.pods :=
  foldl_keeps (fun t : State => t.pods = s.pods) f (fun t x ht => (h t x).trans ht) l s rfl

@[simp] theorem finish_pods (o : MemOp) : (s.finish o).pods = s.pods := by
  unfold State.finish
  split
  · exact freeFe_pods _ _
  · split
    · rw [foldl_pods fun s p => finishOne_pods s p, finishOne_pods]
    · exact finishOne_pods s o

@[simp] theorem writeReg_pods (f : FibId) (k : WriteKey) (o : Opnd) (c : RegCell) :
    (s.writeReg f k o c).pods = s.pods := by
  cases o <;> rfl

@[simp] theorem forsake_pods (o : MemOp) : (s.forsake o).pods = s.pods := by
  unfold State.forsake
  dsimp only
  split
  · exact finishOne_pods s o
  · split
    · exact finishOne_pods s o
    · rw [foldl_pods fun s p => finishOne_pods s p, foldl_pods fun s r => writeReg_pods s _ _ _ _, finishOne_pods]

theorem lockTrap_pods (o : MemOp) : (s.lockTrap o).pods = s.pods := by
  unfold State.lockTrap
  rw [forsake_pods]
  rfl

theorem onward_combOf (o : MemOp) (p : Nat) : (s.onward o).combOf p = s.combOf p := by
  apply combOf_of_scene
  unfold State.onward
  split
  · simp
  · rfl

theorem writeSec_combOf (g : Agent) (a : Nat) (t : PageAttr) (home : Bool) (w : SecWrite) (p : Nat) :
    (s.writeSec g a t home w).combOf p = s.combOf p := by
  unfold State.writeSec
  dsimp only
  split
  · rfl
  · split
    · split
      · rfl
      · rfl
    · split
      · exact combOf_of_scene (by simp) p
      · split
        · apply combOf_of_scene
          split <;> simp
        · split
          · rfl
          · split
            · apply combOf_of_scene
              split <;> simp
            · exact combOf_of_scene (by simp) p

theorem getLoc_combOf (g : Agent) (l : Loc) (home : Bool) (n p : Nat) :
    (s.getLoc g l home n).2.combOf p = s.combOf p := by
  unfold State.getLoc
  split
  · split <;> rfl
  · exact combOf_of_scene (by simp) p
  · rfl

theorem putLoc_combOf (g : Agent) (l : Loc) (home : Bool) (n v : Nat) (b : Bool) (p : Nat) :
    (s.putLoc g l home n v b).combOf p = s.combOf p := by
  unfold State.putLoc
  split
  · rfl
  · exact writeSec_combOf s g _ _ _ _ p
  · rfl

theorem applyAtom_combOf (g : Agent) (l : Loc) (home : Bool) (op : AtomOp) (wide : Bool) (b c : RegCell) (p : Nat) :
    (s.applyAtom g l home op wide b c).2.combOf p = s.combOf p := by
  unfold State.applyAtom
  dsimp only
  generalize (if wide = true then 8 else 4) = n
  split
  · exact getLoc_combOf s g l home _ p
  · split
    · exact (putLoc_combOf _ g l home _ _ _ p).trans (getLoc_combOf s g l home _ p)
    · split
      · exact (putLoc_combOf _ g l home _ _ _ p).trans (getLoc_combOf s g l home _ p)
      · exact getLoc_combOf s g l home _ p

end

theorem foldl_combOf {α : Type} {f : State → α → State} {p : Nat} (h : ∀ s x, (f s x).combOf p = s.combOf p)
    (l : List α) (s : State) : (l.foldl f s).combOf p = s.combOf p :=
  foldl_keeps (fun t : State => t.combOf p = s.combOf p) f (fun t x ht => (h t x).trans ht) l s rfl

/-! ## The buffer emptied -/

/-- Two entries of one address, operation and width. -/
def Comb.alike (c x : Comb) : Bool := x.addr == c.addr && x.op == c.op && x.wide == c.wide

/-- An entry applied leaves the buffer, and the others stay. -/
theorem applyComb_combOf (s : State) (pod : Nat) (c : Comb) :
    (s.applyComb pod c).combOf pod = (s.combOf pod).filter fun x => !c.alike x := by
  have hdrop : ((s.modPod pod fun p => { p with
      comb := p.comb.filter fun x => !(x.addr == c.addr && x.op == c.op && x.wide == c.wide) }).combOf pod)
      = (s.combOf pod).filter fun x => !c.alike x := by
    unfold State.combOf
    rw [modPod_pod, if_pos rfl]
    rfl
  have htrap : ∀ (s : State) (o : MemOp), (s.lockTrap o).combOf pod = s.combOf pod :=
    fun s o => combOf_of_pods (lockTrap_pods s o) pod
  have hend : ∀ (s : State) (o : MemOp), ((s.onward o).finish o).combOf pod = s.combOf pod :=
    fun s o => (combOf_of_pods (finish_pods _ o) pod).trans (onward_combOf s o pod)
  rw [← hdrop]
  unfold State.applyComb
  dsimp only
  split
  · exact foldl_combOf htrap _ _
  · rw [foldl_combOf hend, foldl_combOf fun s b => applyAtom_combOf s _ _ _ _ _ _ _ pod, foldl_combOf htrap]

theorem foldl_applyComb_combOf (pod : Nat) (l : List Comb) : ∀ s : State,
    (l.foldl (fun s c => s.applyComb pod c) s).combOf pod = (s.combOf pod).filter fun x => !l.any fun c => c.alike x
      := by
  induction l with
  | nil => intro s; simp
  | cons c l ih =>
    intro s
    rw [List.foldl_cons, ih, applyComb_combOf, List.filter_filter]
    congr 1
    funext x
    rw [List.any_cons, Bool.not_or, Bool.and_comm]

/-- Every entry of a pod's buffer applied, none is left. -/
theorem flushComb_combOf (s : State) (pod : Nat) : (s.flushComb pod).combOf pod = [] := by
  unfold State.flushComb
  rw [foldl_applyComb_combOf, List.filter_eq_nil_iff]
  intro x hx
  have : ((s.pod pod).comb.any fun c => c.alike x) = true :=
    List.any_eq_true.mpr ⟨x, hx, by simp [Comb.alike]⟩
  simp [this]

/-! ## The words -/

theorem malformed_eq (x : Word) :
    (x.extractLsb' 41 23 != 0 || decide (4 < (x.extractLsb' 36 3).toNat)) = tokenBad x := by
  have hhigh : (x.extractLsb' 41 23 != 0) = (x.toNat / 2 ^ 41 != 0) := by
    have hlt : x.toNat < 2 ^ 64 := x.isLt
    rw [Bool.eq_iff_iff, bne_iff_ne, bne_iff_ne, not_iff_not, ← BitVec.toNat_inj, BitVec.extractLsb'_toNat,
      Nat.shiftRight_eq_div_pow, Nat.mod_eq_of_lt (by omega)]
    rfl
  unfold tokenBad
  rw [hhigh, BitVec.extractLsb'_toNat, Nat.shiftRight_eq_div_pow]

/-- The place of a fibre's planned access, as a word's turn finds it. -/
theorem track_mem (b : Bool) (o : Access → Ord) (act : View → Access → OpAct) :
    State.track (fun _ => none) (fun v => v.mem b o (act v)) = fun s v => match v.planned with
      | some a => s.issue v b (if b then v.run.seta else v.run.setb) (o a) a.loc a.addr (act v a)
      | none => s := by
  funext s v
  unfold State.track View.mem
  dsimp only
  cases v.planned <;> rfl

/-- A word that issues each planned access tracks it. -/
theorem tracks_mem {i : Instr} {g : Guard} (b : Bool) (o : Access → Ord) (act : View → Access → OpAct)
    (hexec : ∀ s : State, exec i s = .next (s.wordSeq g fun s v => match v.planned with
      | some a => s.issue v b (if b then v.run.seta else v.run.setb) (o a) a.loc a.addr (act v a)
      | none => s)) : Tracks i g fun v => v.mem b o (act v) :=
  tracks_of_wordSeq fun s => by rw [hexec, track_mem]

/-- A word that refuses some planned accesses and issues the others. -/
theorem tracksAt_refuse {s : State} {i : Instr} {g : Guard} (b : Bool) (o : Access → Ord) (act : View → Access → OpAct)
    (p : View → Bool) (e : View → WordRes) (he : ∀ v, (e v).isTrap = true)
    (hexec : exec i s = .next (s.wordSeq g fun s v => match v.planned with
      | some a => if p v then s.apply v (e v)
          else s.issue v b (if b then v.run.seta else v.run.setb) (o a) a.loc a.addr (act v a)
      | none => s)) :
    TracksAt s i g (fun v => if v.planned.isSome && p v then some (e v) else none) fun v => v.mem b o (act v) := by
  refine tracksAt_of_wordSeq ?_ ?_
  · intro v r hr
    split at hr
    · cases hr; exact he v
    · cases hr
  · rw [hexec]
    congr 2
    funext s v
    unfold State.track View.mem
    dsimp only
    cases v.planned with
    | none => rfl
    | some a => cases p v <;> rfl

theorem atomRd_eq (op : AtomOp) (wide : Bool) : execAtom.atomRd op wide
    = if wide then Rd.q64 else if op == .fadd || op == .fmin || op == .fmax then .fp32 else .int32 := by
  cases wide <;> cases op <;> rfl

/-- A prefetch's turns (R97). -/
theorem exec_pld (g : Guard) (z : Sz) (rep : Bool) (r : MemRef) (s : State) :
    exec (.pld g z rep r) s = .next ((s.views.filter (·.guard g)).foldl (State.pldTurn rep) s) := rfl

/-- A fence's turn empties the buffer and puts the fence out (R143). -/
theorem turns_fence (g : Guard) (o : Ord) : Turns (.fence g o) g fun s v t =>
    let w := s.flushComb (podOf v.team.core)
    (t.pod (podOf v.team.core)).comb = []
    ∧ t.pend = w.pend ++ [{ v.opOf w.fresh ⟨false, o, .nowhere, 0, .fence⟩ with flag := 15 }]
    ∧ t.fibres = w.fibres ∧ t.mem = w.mem :=
  wordSeq_turns (fun _ => rfl) fun s _v => ⟨flushComb_combOf s _, rfl, rfl, rfl⟩

/-- Settles O21: every word of class mem is its traps, then its issues; a prefetch is a fold of reads through the pod's
L1, and a fence's turn empties the combining buffer. -/
theorem memoryWordsIssue : Obligations.MemoryWordsIssue := by
  refine ⟨fun g k o f d r => ⟨fun m => ?_, fun fe => ?_, fun out => ?_, fun sx => ?_, ?_⟩,
    fun g z rep r o s => ⟨?_, turns_fence g o⟩, fun g wide o op ps d a b c z sc r off => ?_,
    fun g o d a b c r s => ⟨?_, ?_, fun quiet => ?_, fun op force ps val => ?_⟩⟩
  · exact tracks_mem true _ (fun _ _ => _) fun _ => rfl
  · exact tracks_mem false _
      (fun v _ => .st (Sz.bytes k) (v.rdAs (if k == .w then .int32 else .q64) d) (v.rd d.succ) fe) fun _ => rfl
  · exact tracks_mem true _ (fun _ a => .ldx (some d) (Sz.bytes k) a.e f out a.scale) fun _ => rfl
  · exact tracks_mem true _ (fun _ a => .lde (some d) (Sz.bytes k) a.e f sx) fun _ => rfl
  · exact tracks_mem false _ (fun v a => .ste (Sz.bytes k) a.e f (v.rd d) (v.rd d.succ)) fun _ => rfl
  · have hall := foldl_prefetched (pldTurn_prefetched rep) (s.views.filter (·.guard g)) s
    refine ⟨_, exec_pld g z rep r s, hall.fibres, hall.groups, hall.teams, hall.pend, fun h => (hall.still.kept h).1,
      hall.sib, ?_⟩
    intro v hv hg a ha dpa x hl hb hsc hsp i hi
    exact foldl_pldTurn_holdsSec rep _ s (List.mem_filter.mpr ⟨hv, hg⟩) ha hl hb hsc hsp i hi
  · rw [← atomRd_eq op wide]
    intro rd
    refine ⟨?_, ?_, ?_, ?_, ?_, ?_, ?_⟩
    · exact tracks_mem false _ (fun v _ => .atom (some d) ps op wide (v.rdAs rd b) (v.rdAs rd c)) fun _ => rfl
    · exact tracks_mem false _ (fun v _ => .red op wide (v.rdAs rd b)) fun _ => rfl
    · exact tracks_mem false _ (fun _ x => .cwb false (lineBases sc x) x.e) fun _ => rfl
    · exact tracks_mem false _ (fun _ x => .cwb true (lineBases sc x) x.e) fun _ => rfl
    · exact tracks_mem false _ (fun _ x => .fe true x.e) fun _ => rfl
    · exact tracks_mem false _ (fun _ x => .fe false x.e) fun _ => rfl
    · exact tracks_mem true _ (fun _ _ => .feqry (some d)) fun _ => rfl
  · exact tracks_mem true _ (fun _ _ => .sld (some d) none) fun _ => rfl
  · exact tracksAt_refuse true (fun _ => o) (fun v _ => .sld (some d) (some ((v.rd c).v.toNat % 4)))
      (fun v => (v.rd c).p) (fun _ => poisonTrap) (fun _ => rfl) rfl
  · simp only [malformed_eq]
    exact tracksAt_refuse false (fun _ => o) (fun v _ => .sst (some d) quiet (v.rd b) (v.rd c))
      (fun v => tokenBad (v.rd c).v) View.operandTrap (fun _ => rfl) rfl
  · simp only [malformed_eq]
    exact tracksAt_refuse false (fun _ => o) (fun v _ => .srec (some d) ps op force (v.rd b) (val.map v.rd))
      (fun v => !force && tokenBad (v.rd b).v) View.operandTrap (fun _ => rfl) rfl

end Sys2Proof.Machine
end

section
/-! SUPPORT. Bytes: of sectors, of memories and of the numbers they hold (R17, R95, R380). -/

namespace Sys2Proof.Machine

open Sys2Proof

/-! ## Words of a sector -/

theorem ones_getLsbD (w o n i : Nat) : (ones w o n).getLsbD i =
    (decide (i < w) && (decide (o ≤ i) && decide (i < o + n))) := by
  unfold ones
  rw [BitVec.getLsbD_ofNat, Nat.testBit_shiftLeft, Nat.testBit_two_pow_sub_one]
  congr 1
  by_cases h : o ≤ i
  · simp [h, show i - o < n ↔ i < o + n by omega]
  · simp [h]

/-- The word of a byte of a sector. -/
theorem wordMask_byte_getLsbD (q j : Nat) (hj : j < 8) : (wordMask q 1).getLsbD j = decide (j = q / 8) := by
  unfold wordMask
  rw [if_neg (by omega), ones_getLsbD, show (q + 1 - 1) / 8 + 1 - q / 8 = 1 by omega]
  by_cases h : j = q / 8
  · subst h; simp [hj]
  · have : ¬ (q / 8 ≤ j ∧ j < q / 8 + 1) := by omega
    simp [h]
    omega

/-- Aligned bytes touch the word of each of them. -/
theorem wordMask_aligned {k : Nat} (hk : k = 1 ∨ k = 2 ∨ k = 4 ∨ k = 8) {o i : Nat} (ho : o % k = 0) (hi : i < k) :
    wordMask (o + i) 1 = wordMask o k := by
  have h1 : (o + i) / 8 = o / 8 := by rcases hk with rfl | rfl | rfl | rfl <;> omega
  have h2 : (o + k - 1) / 8 = o / 8 := by rcases hk with rfl | rfl | rfl | rfl <;> omega
  unfold wordMask
  rw [if_neg (by omega), if_neg (by omega), h2, show (o + i + 1 - 1) / 8 = (o + i) / 8 by omega, h1]

theorem bne_zero_eq_any (x : BitVec 8) (j : Nat) (hj : j < 8) (y : BitVec 8)
    (hy : ∀ i, i < 8 → y.getLsbD i = decide (i = j)) : (x &&& y != 0) = x.getLsbD j := by
  rw [Bool.eq_iff_iff, bne_iff_ne]
  constructor
  · intro h
    by_contra hx
    apply h
    apply BitVec.eq_of_getLsbD_eq
    intro i hi
    rw [BitVec.getLsbD_and, hy i hi]
    by_cases e : i = j
    · subst e; simp [hx]
    · simp [e]
  · intro h he
    have : (x &&& y).getLsbD j = (0 : BitVec 8).getLsbD j := by rw [he]
    rw [BitVec.getLsbD_and, hy j hj, h] at this
    simp at this

/-- Poison of a byte's word. -/
theorem pois_byte (v : SecVal) {q : Nat} (hq : q < 64) : v.pois q 1 = v.p.getLsbD (q / 8) :=
  bne_zero_eq_any _ _ (by omega) _ fun i hi => wordMask_byte_getLsbD q i hi

/-- A copy answers for a byte's word when it is full, or the word was written whole or poisoned there. -/
theorem covers_byte (c : Sector) {q : Nat} (hq : q < 64) :
    c.covers (wordMask q 1) = (c.full || c.wclean.getLsbD (q / 8) || c.wpois.getLsbD (q / 8)) := by
  have h := bne_zero_eq_any (~~~(c.wclean ||| c.wpois)) (q / 8) (by omega) (wordMask q 1)
    fun i hi => wordMask_byte_getLsbD q i hi
  have hlt : q / 8 < 8 := by omega
  rw [BitVec.getLsbD_not, BitVec.getLsbD_or] at h
  simp only [hlt, decide_true, Bool.true_and] at h
  unfold Sector.covers
  rw [Bool.or_assoc]
  congr 1
  rw [BitVec.and_comm, ← Bool.not_not (_ == _)]
  rw [show (!(~~~(c.wclean ||| c.wpois) &&& wordMask q 1 == 0)) = (~~~(c.wclean ||| c.wpois) &&& wordMask q 1 != 0)
    from rfl, h,
    Bool.not_not]

/-! ## Bytes of a sector's value -/

/-- The byte of a sector's value. -/
theorem nat_byte (v : SecVal) (q : Nat) : BitVec.ofNat 8 (v.nat q 1) = v.d.extractLsb' (8 * q) 8 := by
  apply BitVec.eq_of_toNat_eq
  unfold SecVal.nat SecVal.bits
  rw [BitVec.toNat_ofNat, BitVec.extractLsb'_toNat, show 8 * 1 = 8 by rfl, Nat.mod_mod]

theorem leBytes_eq_map (k : Nat) : ∀ v : Nat, leBytes k v =
    (List.range k).map fun i => BitVec.ofNat 8 (v >>> (8 * i)) := by
  induction k with
  | zero => intro v; rfl
  | succ k ih =>
    intro v
    rw [leBytes, ih, List.range_succ_eq_map, List.map_cons, List.map_map]
    congr 1
    apply List.map_congr_left
    intro i _
    simp only [Function.comp]
    rw [show 8 * (i + 1) = 8 + 8 * i by ring, Nat.shiftRight_add, Nat.shiftRight_eq_div_pow v 8]

/-- The bytes of a sector's value make up its number. -/
theorem leNat_nat_bytes (v : SecVal) (o k : Nat) :
    leNat ((List.range k).map fun i => BitVec.ofNat 8 (v.nat (o + i) 1)) = v.nat o k := by
  have hbytes : ((List.range k).map fun i => BitVec.ofNat 8 (v.nat (o + i) 1)) = leBytes k (v.d.toNat >>> (8 * o)) := by
    rw [leBytes_eq_map]
    apply List.map_congr_left
    intro i _
    apply BitVec.eq_of_toNat_eq
    unfold SecVal.nat SecVal.bits
    rw [BitVec.toNat_ofNat, BitVec.toNat_ofNat, show 8 * 1 = 8 by rfl, Nat.mod_mod,
      show 8 * (o + i) = 8 * o + 8 * i by ring, Nat.shiftRight_add]
  rw [hbytes, leNat_leBytes]
  unfold SecVal.nat SecVal.bits
  rw [Nat.pow_mul]

/-- A number of `n` bits read as a signed one. -/
theorem ofInt_toSigned {n m : Nat} (hn : 0 < n) (hm : m < 2 ^ n) :
    BitVec.ofInt 64 (toSigned n m) = (BitVec.ofNat n m).signExtend 64 := by
  rw [BitVec.signExtend]
  congr 1
  unfold toSigned
  have hpow : 2 ^ n = 2 * 2 ^ (n - 1) := by rw [← Nat.pow_succ']; congr 1; omega
  rw [BitVec.toInt_eq_toNat_cond, BitVec.toNat_ofNat, Nat.mod_eq_of_lt hm]
  by_cases h : 2 ^ (n - 1) ≤ m
  · rw [if_pos h, if_neg (by omega)]; push_cast; rfl
  · rw [if_neg h, if_pos (by omega)]

/-! ## Memories -/

theorem wordsOf_aligned {k : Nat} (hk : k = 1 ∨ k = 2 ∨ k = 4 ∨ k = 8) {a : Nat} (ha : a % k = 0) :
    wordsOf a k = [a / 8 * 8] := by
  have h : (a + k - 1) / 8 + 1 - a / 8 = 1 := by rcases hk with rfl | rfl | rfl | rfl <;> omega
  unfold wordsOf
  rw [if_neg (by omega), h]
  rfl

theorem anyPois_aligned (m : Memory) {k : Nat} (hk : k = 1 ∨ k = 2 ∨ k = 4 ∨ k = 8) {a : Nat} (ha : a % k = 0) :
    m.anyPois a k = m.pois a := by
  unfold Memory.anyPois
  rw [wordsOf_aligned hk ha]
  simp [Memory.pois]

theorem leNat_map_byte (m : Memory) (a k : Nat) : leNat ((List.range k).map fun i => m.byte (a + i)) = m.nat a k := by
  unfold Memory.nat Memory.bytes span
  rw [List.map_map]
  rfl

theorem pois_setBytes (bs : List Byte) : ∀ (m : Memory) (a x : Nat), (m.setBytes a bs).pois x = m.pois x := by
  induction bs with
  | nil => intro m a x; rfl
  | cons b bs ih => intro m a x; rw [Memory.setBytes, ih, Memory.pois_setByte]

/-- A clean store of aligned bytes clears the word it covers whole, and leaves the others' poison. -/
theorem pois_store_clean (m : Memory) {a : Nat} (bs : List Byte)
    (hk : bs.length = 1 ∨ bs.length = 2 ∨ bs.length = 4 ∨ bs.length = 8) (ha : a % bs.length = 0) (x : Nat) :
    (m.store a bs false).pois x = if bs.length = 8 ∧ x / 8 = a / 8 then false else m.pois x := by
  unfold Memory.store
  rw [wordsOf_aligned hk ha, List.foldl_cons, List.foldl_nil, if_neg (by simp)]
  by_cases h8 : bs.length = 8
  · have ha8 : a % 8 = 0 := h8 ▸ ha
    rw [if_pos (by simp only [Bool.and_eq_true, decide_eq_true_eq]; omega), Memory.pois_setPois, pois_setBytes]
    simp [h8]
  · rw [if_neg (by simp only [Bool.and_eq_true, decide_eq_true_eq]; omega), pois_setBytes, if_neg (fun h => h8 h.1)]

end Sys2Proof.Machine
end

section
/-! SUPPORT. What the memory below a pod answers depends on its contents only (R178 to R181, R202 to R205). -/

namespace Sys2Proof.Machine

open Sys2Proof

/-! ## Memory behind the caches -/

/-- What a read behind the caches depends on. -/
structure Backing where
  mem : Memory
  frames : NMap Word
  profiles : NMap (List (BitVec 12))
  badPc : List Nat
  stacksOff : List Nat
  mode : Nat
  fillWait : List (Nat × Sector)

def State.backing (s : State) : Backing := ⟨s.mem, s.frames, s.profiles, s.badPc, s.stacksOff, s.mode, s.fillWait⟩

theorem backing_ext {s t : State} (h : s.backing = t.backing) :
    s.mem = t.mem ∧ s.frames = t.frames ∧ s.profiles = t.profiles
    ∧ s.badPc = t.badPc ∧ s.stacksOff = t.stacksOff ∧ s.mode = t.mode ∧ s.fillWait = t.fillWait := by
  unfold State.backing at h
  rw [Backing.mk.injEq] at h
  exact h

theorem frame_congr {s t : State} (h : s.backing = t.backing) (f : Nat) : s.frame f = t.frame f := by
  obtain ⟨-, hf, -, -, ho, hm, -⟩ := backing_ext h
  unfold State.frame
  rw [hf, ho, hm]

theorem channel_congr {s t : State} (h : s.backing = t.backing) (a : Nat) : s.channel a = t.channel a := by
  obtain ⟨-, -, hp, -⟩ := backing_ext h
  unfold State.channel State.profile
  rw [frame_congr h, hp]

theorem memVal_congr {s t : State} (h : s.backing = t.backing) (a : Nat) : s.memVal a = t.memVal a := by
  obtain ⟨hm, -⟩ := backing_ext h
  unfold State.memVal
  rw [hm]

theorem homeDie_congr {s t : State} (h : s.backing = t.backing) (a : Nat) : s.homeDie a = t.homeDie a := by
  unfold State.homeDie
  rw [frame_congr h]

/-- One write that has waited for its frame's fill. -/
def State.waitWrite (s : State) (x : Nat × Sector) : State :=
  if s.badPc.contains (s.channel x.2.base) then { s with lost := s.lost ++ [(x.2.part, x.2.base, none)] }
  else s.hbmWrite x.2.base x.2.out

theorem waitWrite_congr {s t : State} (h : s.backing = t.backing) (x : Nat × Sector) :
    (s.waitWrite x).backing = (t.waitWrite x).backing := by
  obtain ⟨hm, hf, hp, hb, ho, hmo, hw⟩ := backing_ext h
  have hbad : s.badPc.contains (s.channel x.2.base) = t.badPc.contains (t.channel x.2.base) := by
    rw [hb, channel_congr h]
  unfold State.waitWrite
  rw [hbad]
  split
  · exact h
  · unfold State.hbmWrite State.backing
    simp [State.activate, hm, hf, hp, hb, ho, hmo, hw]

theorem foldl_waitWrite_congr (l : List (Nat × Sector)) : ∀ {s t : State}, s.backing = t.backing →
    (l.foldl State.waitWrite s).backing = (l.foldl State.waitWrite t).backing := by
  induction l with
  | nil => exact fun h => h
  | cons x l ih => exact fun h => ih (waitWrite_congr h x)

theorem fillFrame_congr {s t : State} (h : s.backing = t.backing) (f : Nat) :
    (s.fillFrame f).backing = (t.fillFrame f).backing := by
  obtain ⟨hm, hf, hp, hb, ho, hmo, hw⟩ := backing_ext h
  unfold State.fillFrame
  dsimp only
  rw [hw]
  refine foldl_waitWrite_congr _ ?_
  simp only [State.backing, hm, hf, hp, hb, ho, hmo, frame_congr h]

/-- A read behind the caches answers, and leaves there, what its contents say. -/
theorem memRead_congr {s t : State} (h : s.backing = t.backing) (a : Nat) :
    (s.memRead a).1 = (t.memRead a).1 ∧ (s.memRead a).2.backing = (t.memRead a).2.backing := by
  obtain ⟨-, -, -, hb, -, -, hw⟩ := backing_ext h
  unfold State.memRead
  split
  · dsimp only
    rw [hw, frame_congr h]
    split
    · exact ⟨rfl, h⟩
    · -- the frame's waiting writes come first
      have hfill : State.backing (if (t.fillWait.any fun x => x.1 == frameOf a) = true then s.fillFrame (frameOf a)
            else s)
          = State.backing (if (t.fillWait.any fun x => x.1 == frameOf a) = true then t.fillFrame (frameOf a)
            else t) := by
        split
        · exact fillFrame_congr h _
        · exact h
      generalize (if (t.fillWait.any fun x => x.1 == frameOf a) = true then s.fillFrame (frameOf a)
        else s) = s1 at hfill ⊢
      generalize (if (t.fillWait.any fun x => x.1 == frameOf a) = true then t.fillFrame (frameOf a)
        else t) = t1 at hfill ⊢
      obtain ⟨-, -, -, hb1, -⟩ := backing_ext hfill
      rw [hb1, channel_congr hfill]
      split
      · exact ⟨by rw [memVal_congr hfill], hfill⟩
      · exact ⟨memVal_congr hfill a, hfill⟩
  · exact ⟨memVal_congr h a, h⟩

/-! ## The home and the guest copies -/

/-- A sector as its home answers for it, whole. -/
def State.homeSector (s : State) (base : Nat) (words : BitVec 8) : SecVal :=
  let c := (secFind s.l2 base none).getD (Sector.empty base none)
  if c.covers words then c.val else (c.fill (s.memRead base).1 s.clock).val

theorem homeRead_fst (s : State) (base : Nat) (words : BitVec 8) :
    (s.homeRead base words).1 = s.homeSector base words := by
  unfold State.homeRead State.homeSector
  dsimp only
  split <;> rfl

theorem fill_val (c : Sector) (v : SecVal) (m n : Nat) : (c.fill v m).val = (c.fill v n).val := rfl

/-- What a pod's miss of a sector depends on, besides memory: the home's copy and the guest copies of the sector. -/
structure SameAt (s t : State) (base : Nat) : Prop where
  backing : s.backing = t.backing
  l2 : secFind s.l2 base none = secFind t.l2 base none
  guests : ∀ die,
    (s.guests.find? fun g => g.1 == die && g.2.base == base) = t.guests.find? fun g => g.1 == die && g.2.base == base

theorem fetch_guest {s : State} {pod base : Nat} {g : Nat × Sector}
    (h : (s.guests.find? fun g => g.1 == pod / 16 && g.2.base == base) = some g) : (s.fetch pod base).1 = g.2.val := by
  unfold State.fetch
  dsimp only
  rw [h]

theorem fetch_home {s : State} {pod base : Nat}
    (h : (s.guests.find? fun g => g.1 == pod / 16 && g.2.base == base) = none) :
    (s.fetch pod base).1 = s.homeSector base 0xFF := by
  unfold State.fetch
  dsimp only
  rw [h]
  dsimp only
  split
  · exact homeRead_fst s base _
  · exact homeRead_fst s base _

theorem homeSector_congr {s t : State} {base : Nat} (h : SameAt s t base) (words : BitVec 8) :
    s.homeSector base words = t.homeSector base words := by
  unfold State.homeSector
  rw [h.l2, (memRead_congr h.backing base).1]
  rfl

theorem fetch_congr {s t : State} {base : Nat} (h : SameAt s t base) (pod : Nat) :
    (s.fetch pod base).1 = (t.fetch pod base).1 := by
  have hg := h.guests (pod / 16)
  cases hs : s.guests.find? fun g => g.1 == pod / 16 && g.2.base == base with
  | none => rw [fetch_home hs, fetch_home (hg ▸ hs), homeSector_congr h]
  | some g => rw [fetch_guest hs, fetch_guest (hg ▸ hs)]

/-! ## What a pod sees -/

/-- A sector's value as a copy gives it, for some words, over what is fetched for the others. -/
def Sector.seen (c : Sector) (v : SecVal) (words : BitVec 8) : SecVal :=
  if c.covers words then c.val else (c.fill v 0).val

theorem podRead_fst (s : State) (pod base : Nat) (words : BitVec 8) :
    (s.podRead pod base words).1 = (s.copyOf pod base).seen (s.fetch pod base).1 words := by
  rw [podRead_eq]
  unfold Sector.seen
  dsimp only
  split <;> rfl

/-- A byte as a pod sees it, by its copy of the sector and what a miss would fetch. -/
theorem sees_eq (s : State) (pod a : Nat) : s.sees pod a
    = (((s.copyOf pod (secBase a)).seen (s.fetch pod (secBase a)).1 (wordMask (a % 64) 1)).d.extractLsb'
        (8 * (a % 64)) 8,
       ((s.copyOf pod (secBase a)).seen (s.fetch pod (secBase a)).1 (wordMask (a % 64) 1)).p.getLsbD (a % 64 / 8)) := by
  unfold State.sees
  dsimp only
  rw [podRead_fst, nat_byte, pois_byte _ (Nat.mod_lt a (by omega))]

theorem sees_congr {s t : State} {pod a : Nat} (h : SameAt s t (secBase a))
    (hc : s.copyOf pod (secBase a) = t.copyOf pod (secBase a)) : s.sees pod a = t.sees pod a := by
  rw [sees_eq, sees_eq, fetch_congr h, hc]

end Sys2Proof.Machine
end

section
/-! SUPPORT. A store's bytes in a pod's copy of a sector (R179, R380). -/

namespace Sys2Proof.Machine

open Sys2Proof

/-- A byte of a sector as a copy gives it over what is fetched, and its word's poison. -/
def Sector.byteAt (c : Sector) (v : SecVal) (q : Nat) : Byte × Bool :=
  ((c.seen v (wordMask q 1)).d.extractLsb' (8 * q) 8, (c.seen v (wordMask q 1)).p.getLsbD (q / 8))

theorem sees_byteAt (s : State) (pod a : Nat) :
    s.sees pod a = (s.copyOf pod (secBase a)).byteAt (s.fetch pod (secBase a)).1 (a % 64) := sees_eq s pod a

theorem wholeMask_getLsbD {n : Nat} (hn : n = 1 ∨ n = 2 ∨ n = 4 ∨ n = 8) {o : Nat} (ho : o % n = 0) {j : Nat}
    (hj : j < 8) :
    (wholeMask o n).getLsbD j = decide (n = 8 ∧ j = o / 8) := by
  unfold wholeMask
  rw [ones_getLsbD]
  rw [Bool.eq_iff_iff]
  simp only [Bool.and_eq_true, decide_eq_true_eq]
  rcases hn with rfl | rfl | rfl | rfl <;> omega

/-- A clean write of whole bytes: what it writes, and the word it clears. -/
theorem secBytes_clean (o n v : Nat) : secBytes o n v false
    = { mask := ones 512 (8 * o) (8 * n), d := BitVec.ofNat 512 ((v % 2 ^ (8 * n)) <<< (8 * o)), pois := 0,
        clean := wholeMask o n } := by
  unfold secBytes secBits
  simp

/-- The copy after a clean store. -/
def Sector.stored (c : Sector) (o n v part : Nat) (f : FibId) : Sector := (c.write (secBytes o n v false) part).wrote f

section

variable (c : Sector) (o n v part : Nat) (f : FibId)

theorem stored_full : (c.stored o n v part f).full = c.full := rfl
theorem stored_pois : (c.stored o n v part f).pois = c.pois := rfl

theorem stored_en : (c.stored o n v part f).en = c.en ||| ones 512 (8 * o) (8 * n) := by
  unfold Sector.stored
  rw [secBytes_clean]
  rfl

theorem stored_data : (c.stored o n v part f).data = (c.data &&& ~~~ones 512 (8 * o) (8 * n))
    ||| (BitVec.ofNat 512 ((v % 2 ^ (8 * n)) <<< (8 * o)) &&& ones 512 (8 * o) (8 * n)) := by
  unfold Sector.stored
  rw [secBytes_clean]
  rfl

theorem stored_wclean_getLsbD (j : Nat) (hj : j < 8) :
    (c.stored o n v part f).wclean.getLsbD j = (c.wclean.getLsbD j || (wholeMask o n).getLsbD j) := by
  have h : (c.stored o n v part f).wclean = (c.wclean ||| wholeMask o n) &&& ~~~0 := by
    unfold Sector.stored
    rw [secBytes_clean]
    rfl
  rw [h, BitVec.getLsbD_and, BitVec.getLsbD_or, BitVec.getLsbD_not]
  simp [hj]

theorem stored_wpois_getLsbD (j : Nat) (hj : j < 8) :
    (c.stored o n v part f).wpois.getLsbD j = (c.wpois.getLsbD j && !(wholeMask o n).getLsbD j) := by
  have h : (c.stored o n v part f).wpois = (c.wpois &&& ~~~wholeMask o n) ||| 0 := by
    unfold Sector.stored
    rw [secBytes_clean]
    rfl
  rw [h, BitVec.getLsbD_or, BitVec.getLsbD_and, BitVec.getLsbD_not]
  simp [hj]

/-- A bit of the copy: the store's where it writes, else as it was. -/
theorem stored_data_getLsbD (i : Nat) (hi : i < 512) : (c.stored o n v part f).data.getLsbD i
    = if 8 * o ≤ i ∧ i < 8 * o + 8 * n then v.testBit (i - 8 * o) else c.data.getLsbD i := by
  rw [stored_data, BitVec.getLsbD_or, BitVec.getLsbD_and, BitVec.getLsbD_and, BitVec.getLsbD_not, ones_getLsbD,
    BitVec.getLsbD_ofNat, Nat.testBit_shiftLeft, Nat.testBit_mod_two_pow]
  by_cases h : 8 * o ≤ i ∧ i < 8 * o + 8 * n
  · have h3 : i - 8 * o < 8 * n := by omega
    simp [h.1, h.2, h3, hi]
  · rw [if_neg h]
    have h2 : (decide (8 * o ≤ i) && decide (i < 8 * o + 8 * n)) = false := by simpa using h
    simp [h2, hi]

theorem stored_en_getLsbD (i : Nat) (hi : i < 512) : (c.stored o n v part f).en.getLsbD i
    = (c.en.getLsbD i || decide (8 * o ≤ i ∧ i < 8 * o + 8 * n)) := by
  rw [stored_en, BitVec.getLsbD_or, ones_getLsbD]
  simp [hi]

end

theorem seen_d_getLsbD (c : Sector) (v : SecVal) (ws : BitVec 8) (i : Nat) (hi : i < 512) : (c.seen v ws).d.getLsbD i
    = if c.covers ws = true ∨ c.en.getLsbD i = true then c.data.getLsbD i else v.d.getLsbD i := by
  unfold Sector.seen
  by_cases hc : c.covers ws = true
  · rw [if_pos hc, if_pos (Or.inl hc)]; rfl
  · rw [if_neg hc]
    show ((v.d &&& ~~~c.en) ||| (c.data &&& c.en)).getLsbD i = _
    rw [BitVec.getLsbD_or, BitVec.getLsbD_and, BitVec.getLsbD_and, BitVec.getLsbD_not]
    cases he : c.en.getLsbD i <;> simp [hc, hi]

theorem seen_p_getLsbD (c : Sector) (v : SecVal) (ws : BitVec 8) (j : Nat) (hj : j < 8) : (c.seen v ws).p.getLsbD j
    = (c.wpois.getLsbD j || (if c.covers ws then c.pois.getLsbD j else v.p.getLsbD j) && !c.wclean.getLsbD j) := by
  have hval : ∀ x : BitVec 8, (c.wpois ||| (x &&& ~~~c.wclean)).getLsbD j
      = (c.wpois.getLsbD j || x.getLsbD j && !c.wclean.getLsbD j) := by
    intro x
    rw [BitVec.getLsbD_or, BitVec.getLsbD_and, BitVec.getLsbD_not]
    simp [hj]
  unfold Sector.seen
  split
  · exact hval c.pois
  · exact hval v.p

/-- What a clean store of aligned bytes leaves of a byte of its sector: its own bytes, each word it covers clean, and
every other byte as it was. -/
theorem stored_byteAt (c : Sector) {n : Nat} (hn : n = 1 ∨ n = 2 ∨ n = 4 ∨ n = 8) {o : Nat} (ho : o % n = 0)
    (v part : Nat) (f : FibId) (x : SecVal) {q : Nat} (hq : q < 64) :
    (c.stored o n v part f).byteAt x q = if o ≤ q ∧ q < o + n then
        (BitVec.ofNat 8 (v >>> (8 * (q - o))), if n = 8 then false else (c.byteAt x q).2)
      else c.byteAt x q := by
  have hj : q / 8 < 8 := by omega
  have hwhole := wholeMask_getLsbD hn ho hj
  -- the store answers for a word more just where it covers that word
  have hcov : (c.stored o n v part f).covers (wordMask q 1)
      = (c.covers (wordMask q 1) || decide (n = 8 ∧ q / 8 = o / 8)) := by
    rw [covers_byte _ hq, covers_byte _ hq, stored_full, stored_wclean_getLsbD _ _ _ _ _ _ _ hj,
      stored_wpois_getLsbD _ _ _ _ _ _ _ hj, hwhole]
    cases decide (n = 8 ∧ q / 8 = o / 8) <;> simp
  have hdata : ∀ i, i < 8 → ((c.stored o n v part f).seen x (wordMask q 1)).d.getLsbD (8 * q + i)
      = if o ≤ q ∧ q < o + n then v.testBit (8 * (q - o) + i) else (c.seen x (wordMask q 1)).d.getLsbD (8 * q + i) := by
    intro i hi
    have hlt : 8 * q + i < 512 := by omega
    rw [seen_d_getLsbD _ _ _ _ hlt, seen_d_getLsbD _ _ _ _ hlt, stored_data_getLsbD _ _ _ _ _ _ _ hlt,
      stored_en_getLsbD _ _ _ _ _ _ _ hlt, hcov]
    by_cases hin : o ≤ q ∧ q < o + n
    · have hbit : 8 * o ≤ 8 * q + i ∧ 8 * q + i < 8 * o + 8 * n := by omega
      rw [if_pos hin, if_pos (by simp [hbit]), if_pos hbit, show 8 * q + i - 8 * o = 8 * (q - o) + i by omega]
    · have hbit : ¬ (8 * o ≤ 8 * q + i ∧ 8 * q + i < 8 * o + 8 * n) := by omega
      have hword : ¬ (n = 8 ∧ q / 8 = o / 8) := by
        rintro ⟨rfl, h⟩
        omega
      rw [if_neg hin, if_neg hbit]
      simp [hbit, hword]
  have hpois : ((c.stored o n v part f).seen x (wordMask q 1)).p.getLsbD (q / 8)
      = if n = 8 ∧ q / 8 = o / 8 then false else (c.seen x (wordMask q 1)).p.getLsbD (q / 8) := by
    rw [seen_p_getLsbD _ _ _ _ hj, seen_p_getLsbD _ _ _ _ hj, stored_wclean_getLsbD _ _ _ _ _ _ _ hj,
      stored_wpois_getLsbD _ _ _ _ _ _ _ hj, hwhole, hcov, stored_pois]
    by_cases h : n = 8 ∧ q / 8 = o / 8
    · simp [h]
    · simp [h]
  have hbyte : ((c.stored o n v part f).seen x (wordMask q 1)).d.extractLsb' (8 * q) 8
      = if o ≤ q ∧ q < o + n then BitVec.ofNat 8 (v >>> (8 * (q - o)))
        else (c.seen x (wordMask q 1)).d.extractLsb' (8 * q) 8 := by
    apply BitVec.eq_of_getLsbD_eq
    intro i hi
    rw [BitVec.getLsbD_extractLsb', hdata i hi]
    split
    · rw [BitVec.getLsbD_ofNat, Nat.testBit_shiftRight]
    · rw [BitVec.getLsbD_extractLsb']
  unfold Sector.byteAt
  rw [hbyte, hpois]
  by_cases hin : o ≤ q ∧ q < o + n
  · rw [if_pos hin, if_pos hin]
    by_cases h8 : n = 8
    · have hw : q / 8 = o / 8 := by subst h8; omega
      rw [if_pos ⟨h8, hw⟩, if_pos h8]
    · rw [if_neg (fun h => h8 h.1), if_neg h8]
  · have hword : ¬ (n = 8 ∧ q / 8 = o / 8) := by
      rintro ⟨rfl, h⟩
      omega
    rw [if_neg hin, if_neg hin, if_neg hword]

end Sys2Proof.Machine
end

section
/-! SUPPORT. An operation's end (R17): what its completion leaves of fibres, groups, scratchpads and caches. -/

namespace Sys2Proof.Machine

open Sys2Proof

/-! ## What a pod sees, by the caches -/

/-- The states' caches and memory are the same. -/
structure SameCaches (s t : State) : Prop where
  pods : s.pods = t.pods
  l2 : s.l2 = t.l2
  guests : s.guests = t.guests
  backing : s.backing = t.backing

theorem SameCaches.refl (s : State) : SameCaches s s := ⟨rfl, rfl, rfl, rfl⟩

theorem SameCaches.trans {s t u : State} (h1 : SameCaches s t) (h2 : SameCaches t u) : SameCaches s u :=
  ⟨h1.pods.trans h2.pods, h1.l2.trans h2.l2, h1.guests.trans h2.guests, h1.backing.trans h2.backing⟩

theorem SameCaches.sameAt {s t : State} (h : SameCaches s t) (base : Nat) : SameAt s t base :=
  ⟨h.backing, by rw [h.l2], fun die => by rw [h.guests]⟩

theorem copyOf_of_pods {s t : State} (h : s.pods = t.pods) (pod base : Nat) :
    s.copyOf pod base = t.copyOf pod base := by
  unfold State.copyOf State.pod
  rw [h]

theorem SameCaches.sees {s t : State} (h : SameCaches s t) (pod a : Nat) : s.sees pod a = t.sees pod a :=
  sees_congr (h.sameAt _) (copyOf_of_pods h.pods _ _)

theorem SameCaches.mem {s t : State} (h : SameCaches s t) : s.mem = t.mem := (backing_ext h.backing).1

/-! ## An operation that ends -/

/-- A fibre without its flags and waits. -/
def Fibre.unheld (b : Fibre) : Fibre := { b with flags := [], hold := .free, waits := [], under := [] }

theorem release_unheld (b : Fibre) (h : Hold) : (b.release h).unheld = b.unheld := by
  unfold Fibre.release
  dsimp only
  split
  · split <;> rfl
  · rfl

theorem lower_unheld (b : Fibre) (k : Nat) : (b.lower k).unheld = b.unheld := rfl

theorem unheld_fid {b c : Fibre} (h : b.unheld = c.unheld) : b.fid = c.fid := by
  change b.unheld.fid = c.unheld.fid
  rw [h]

/-- Nothing changes but a fibre's flags and waits, and what is outstanding. -/
structure Quiet (f : FibId) (s t : State) : Prop where
  fibres : ∀ g, (t.fib? g).map Fibre.unheld = (s.fib? g).map Fibre.unheld
  others : ∀ g, g ≠ f → t.fib? g = s.fib? g
  groups : t.groups = s.groups
  teams : t.teams = s.teams
  caches : SameCaches s t

theorem Quiet.trans {f : FibId} {s t u : State} (h1 : Quiet f s t) (h2 : Quiet f t u) : Quiet f s u :=
  ⟨fun g => (h2.fibres g).trans (h1.fibres g), fun g hg => (h2.others g hg).trans (h1.others g hg),
    h2.groups.trans h1.groups, h2.teams.trans h1.teams, h1.caches.trans h2.caches⟩

theorem Quiet.refl (f : FibId) (s : State) : Quiet f s s := ⟨fun _ => rfl, fun _ _ => rfl, rfl, rfl, .refl s⟩

theorem modFib_quiet {h : Fibre → Fibre} (hh : ∀ b, (h b).unheld = b.unheld) (s : State) (f : FibId) :
    Quiet f s (s.modFib f h) where
  fibres g := by
    rw [modFib_fib? s f g h fun b => unheld_fid (hh b)]
    split
    · rw [Option.map_map]
      congr 1
      funext b
      exact hh b
    · rfl
  others g hg := by rw [modFib_fib? s f g h fun b => unheld_fid (hh b), if_neg hg]
  groups := rfl
  teams := rfl
  caches := ⟨rfl, rfl, rfl, rfl⟩

theorem freeFe_quiet (s : State) (f : FibId) : Quiet f s (s.freeFe f) := by
  unfold State.freeFe
  dsimp only
  split
  · exact .refl f s
  · exact modFib_quiet (fun b => release_unheld b _) s f

theorem freeFe_pend (s : State) (f : FibId) : (s.freeFe f).pend = s.pend := by
  unfold State.freeFe
  dsimp only
  split <;> rfl

theorem finishOne_quiet (s : State) (o : MemOp) : Quiet o.fib s (s.finishOne o) := by
  have hpend : Quiet o.fib s { s with pend := s.pend.filter fun p => p.id != o.id } :=
    ⟨fun _ => rfl, fun _ _ => rfl, rfl, rfl, ⟨rfl, rfl, rfl, rfl⟩⟩
  unfold State.finishOne
  dsimp only
  split
  · exact (hpend.trans (modFib_quiet (fun b => lower_unheld b _) _ _)).trans (freeFe_quiet _ _)
  · exact hpend.trans (freeFe_quiet _ _)

/-- An operation that has ended is outstanding no more. -/
theorem finishOne_op? (s : State) (o : MemOp) : (s.finishOne o).op? o.id = none := by
  have hpend : (s.finishOne o).pend = s.pend.filter fun p => p.id != o.id := by
    unfold State.finishOne
    dsimp only
    rw [freeFe_pend]
    split <;> rfl
  unfold State.op?
  rw [hpend, List.find?_eq_none]
  intro p hp
  simpa using (List.mem_filter.mp hp).2

/-- An operation that writes no s register ends at once. -/
theorem finish_eq (s : State) {o : MemOp} (h : o.act.dests.any Opnd.shared = false) : s.finish o = s.finishOne o := by
  unfold State.finish State.outdoneBy
  rw [h]
  simp

/-! ## Its operation may be performed -/

theorem performs_exec {s : State} {n : Nat} {o : MemOp} (h : s.performs n o) :
    exec (.trackedComplete n) s = .next ((s.tookPort o).performHere o).sweep := by
  obtain ⟨hop, hmay, hbar, hgone, haway⟩ := h
  show Host.Outcome.next _ = _
  rw [hop]
  dsimp only
  rw [hmay, hbar, hgone, haway]
  rfl

theorem performs_id {s : State} {n : Nat} {o : MemOp} (h : s.performs n o) : o.id = n := by
  have := List.find?_some h.1
  simpa using this

/-- The hub's turn at a port, which nothing here reads. -/
theorem tookPort_eq (s : State) (o : MemOp) : ∃ h, s.tookPort o = { s with hubLast := h } := by
  unfold State.tookPort
  split
  · exact ⟨_, rfl⟩
  · exact ⟨s.hubLast, rfl⟩

/-! ## Scratchpads -/

theorem spadByte_of_teams {s t : State} (h : t.teams = s.teams) (k a : Nat) : t.spadByte k a = s.spadByte k a := by
  unfold State.spadByte State.team?
  rw [h]

/-- A change of a team that leaves its scratchpad. -/
theorem modTeam_spadByte (s : State) (k : Nat) {g : Team → Team} (hid : ∀ x, (g x).id = x.id)
    (hg : ∀ x, (g x).spad = x.spad) (t a : Nat) : (s.modTeam k g).spadByte t a = s.spadByte t a := by
  unfold State.spadByte
  rw [State.team?_modTeam _ _ _ hid]
  cases s.team? t with
  | none => rfl
  | some x =>
    dsimp only [Option.map_some]
    split
    · rw [hg]
    · rfl

/-! ## A load ends (R95) -/

/-- A load's end: its register written, and nothing else of fibres, groups and scratchpads but flags and waits. -/
structure Loaded (s u : State) (o : MemOp) (r : Fin 128) (c : RegCell) : Prop where
  reg : u.reg o.fib (.x r) = c
  gone : u.op? o.id = none
  caches : SameCaches s u
  spads : ∀ t a, u.spadByte t a = s.spadByte t a
  others : ∀ f, f ≠ o.fib → u.fib? f = s.fib? f
  groups : u.groups = s.groups

/-- The fibre with its register written at a cycle. -/
def Fibre.withX (b : Fibre) (r : Fin 128) (c : RegCell) (now : Nat) : Fibre :=
  { b with x := b.x.set r.val c, unproven := addUnproven b.unproven (.x r) now }

theorem deliver_x (s : State) (o : MemOp) (r : Fin 128) (c : RegCell) :
    s.deliver o [(.x r, c)] [] = s.modFib o.fib fun b => b.withX r c s.clock :=
  modFib_id _ o.fib

theorem modFib_loaded (s : State) (o : MemOp) (r : Fin 128) (c : RegCell) (now : Nat) :
    ((s.modFib o.fib fun b => b.withX r c now).fib? o.fib) = (s.fib? o.fib).map fun b => b.withX r c now := by
  rw [modFib_fib? s o.fib o.fib (fun b => b.withX r c now) fun _ => rfl, if_pos rfl]

theorem poisonLoad_cases (s : State) (o : MemOp) (p : Bool) :
    s.poisonLoad o p = s ∨ ∃ k, s.poisonLoad o p = s.modTeam k fun t => { t with fatal := true } := by
  unfold State.poisonLoad
  split
  · split
    · exact .inr ⟨_, rfl⟩
    · exact .inl rfl
  · exact .inl rfl

theorem endLoad_loaded {s : State} {o : MemOp} {r : Fin 128} {k : Nat} {sx clr : Bool} (c : RegCell)
    (hf : (s.fib? o.fib).isSome = true) (hk : k ≠ 16) (hact : o.act = .ld (some (.x r)) k sx false clr false)
    (hord : o.ord.order = .none) : Loaded s (s.endLoad o [(.x r, c)]) o r c := by
  have hdests : o.act.dests.any Opnd.shared = false := by rw [hact]; simp [OpAct.dests, hk, Opnd.shared]
  have hacq : s.acquireFor o = s := by unfold State.acquireFor; rw [hord]; rfl
  have hend : s.endLoad o [(.x r, c)]
      = ((s.modFib o.fib fun b => b.withX r c s.clock).poisonLoad o c.p).finishOne o := by
    unfold State.endLoad
    dsimp only
    rw [hacq, deliver_x, hact]
    dsimp only
    rw [finish_eq _ hdests]
    simp
  rw [hend]
  set w := s.modFib o.fib fun b => b.withX r c s.clock with hw
  have hpl : (w.poisonLoad o c.p).fibres = w.fibres ∧ (w.poisonLoad o c.p).groups = w.groups
      ∧ SameCaches w (w.poisonLoad o c.p) ∧ ∀ t a, (w.poisonLoad o c.p).spadByte t a = w.spadByte t a := by
    rcases poisonLoad_cases w o c.p with h | ⟨k, h⟩ <;> rw [h]
    · exact ⟨rfl, rfl, .refl w, fun _ _ => rfl⟩
    · exact ⟨rfl, rfl, ⟨rfl, rfl, rfl, rfl⟩, modTeam_spadByte w k (fun _ => rfl) fun _ => rfl⟩
  obtain ⟨hfib, hgrp, hcache, hspad⟩ := hpl
  have hq := finishOne_quiet (w.poisonLoad o c.p) o
  have hfib? : ∀ f, (w.poisonLoad o c.p).fib? f = w.fib? f := fun f => by unfold State.fib?; rw [hfib]
  refine ⟨?_, finishOne_op? _ o, ?_, fun t a => ?_, fun f hne => ?_, hq.groups.trans hgrp⟩
  · obtain ⟨b, hb⟩ := Option.isSome_iff_exists.mp hf
    have hown := hq.fibres o.fib
    rw [hfib?, hw, modFib_loaded, hb, Option.map_some, Option.map_some] at hown
    obtain ⟨b', hb', he⟩ := Option.map_eq_some_iff.mp hown
    have hx : b'.unheld.x = (b.withX r c s.clock).unheld.x := by rw [he]
    change b'.x = (b.withX r c s.clock).x at hx
    unfold State.reg
    rw [hb']
    dsimp only
    rw [hx]
    exact NMap.get_set_self _ _ _
  · exact ((⟨rfl, rfl, rfl, rfl⟩ : SameCaches s w).trans hcache).trans hq.caches
  · rw [spadByte_of_teams hq.teams, hspad]
    exact spadByte_of_teams rfl t a
  · rw [hq.others f hne, hfib?, hw, modFib_fib? s o.fib f (fun b => b.withX r c s.clock) fun _ => rfl, if_neg hne]

end Sys2Proof.Machine
end

section
/-! SUPPORT. A plain load of up to 8 bytes (R95, R178, R181): what it reads, and that reading changes no byte. -/

namespace Sys2Proof.Machine

open Sys2Proof

/-! ## A load's one part -/

/-- What a plain load writes to its register, from the number it read. -/
def loadCell (k : Nat) (sx : Bool) (r : Nat × Bool) : RegCell :=
  ⟨if sx then BitVec.ofInt 64 (toSigned (8 * k) r.1) else BitVec.ofNat 64 r.1, r.2⟩

theorem performHere_load (s : State) {o : MemOp} {r : Fin 128} {k : Nat} {sx clr : Bool} (hk : k ≠ 16)
    (hgot : o.got = [])
    (hact : o.act = .ld (some (.x r)) k sx false clr false) :
    s.performHere o = (s.loadSpan o (o.loc.fwd 0) k).2.endLoad o [(.x r,
      loadCell k sx (s.loadSpan o (o.loc.fwd 0) k).1)] := by
  have hpart : s.readPart o 0 = s.loadSpan o (o.loc.fwd 0) k := by
    unfold State.readPart MemOp.partAt
    rw [hact]
    simp [OpAct.elem, hk]
  have hread : s.readParts o [0] = ({ o with got := [(0, (s.loadSpan o (o.loc.fwd 0) k).1)] },
    (s.loadSpan o (o.loc.fwd 0) k).2) := by
    unfold State.readParts MemOp.gotAt
    rw [List.foldl_cons, List.foldl_nil, hpart]
    simp [hgot]
  unfold State.performHere
  rw [hact]
  dsimp only
  unfold State.performLoad
  rw [hact]
  have hparts : (OpAct.ld (some (.x r)) k sx false clr false).parts = 1 := by simp [OpAct.parts, hk]
  have hnil : s.readParts o [] = (o, s) := rfl
  have hzero : o.zeroBlock = false := by unfold MemOp.zeroBlock; rw [hact]
  dsimp only
  rw [hnil]
  dsimp only
  rw [hzero, hparts, show List.range 1 = [0] from rfl]
  simp only [Bool.false_eq_true, if_false]
  rw [hread]
  unfold State.leaveReplica MemOp.loaded
  dsimp only
  rw [hact]
  simp [loadRegs, hk, MemOp.gotAt, loadCell]

/-- The value as the statement extends it. -/
theorem loadCell_eq {k : Nat} (hk : 0 < k) (sx : Bool) {m : Nat} (hm : m < 2 ^ (8 * k)) (p : Bool) :
    loadCell k sx (m, p) = ⟨if sx then (BitVec.ofNat (8 * k) m).signExtend 64 else BitVec.ofNat 64 m, p⟩ := by
  unfold loadCell
  dsimp only
  rw [ofInt_toSigned (by omega) hm]

/-! ## Of a scratchpad -/

theorem loadSpan_spad (s : State) (o : MemOp) {t a k : Nat} {x : Team} (h : s.team? t = some x) :
    s.loadSpan o ((Loc.spad t a).fwd 0) k = ((x.spad.nat a k, x.spad.anyPois a k), s) := by
  show s.getLoc o.agent (.spad t (a + 0)) o.atHome k = _
  unfold State.getLoc
  rw [Nat.add_zero]
  dsimp only
  rw [h]

/-- The same by the bytes of the scratchpad. -/
theorem spad_nat_bytes {s : State} {t : Nat} {x : Team} (h : s.team? t = some x) (a k : Nat) :
    x.spad.nat a k = leNat ((List.range k).map fun i => (s.spadByte t (a + i)).1) := by
  unfold State.spadByte
  rw [h]
  exact (leNat_map_byte x.spad a k).symm

theorem spad_anyPois_byte {s : State} {t : Nat} {x : Team} (h : s.team? t = some x) {k : Nat}
    (hk : k = 1 ∨ k = 2 ∨ k = 4 ∨ k = 8) {a : Nat} (ha : a % k = 0) : x.spad.anyPois a k = (s.spadByte t a).2 := by
  unfold State.spadByte
  rw [h, anyPois_aligned _ hk ha]

/-! ## Of memory, through the pod's L1 -/

/-- A plain place's sector is read through the pod. -/
theorem readSec_pod {s : State} {g : Agent} {pod a : Nat} {x : PageAttr} (words : BitVec 8) (hg : g.pod = some pod)
    (hsc : x.sc = false) (hby : x.bypass a = false) (hrem : s.isRemote a = false) (hsp : spaceOf a < 4)
    (hopen : ∀ t, s.team? g.team = some t → t.rOpen = false) :
    s.readSec g a x false words = s.podRead pod (secBase a) words := by
  have hvoid : isVoid a = false := by unfold isVoid; simp; omega
  have h4 : ¬ spaceOf a = 4 := by omega
  have hteams : (s.podRead pod (secBase a) words).2.teams = s.teams :=
    congrArg Scene.teams (podRead_scene s pod (secBase a) words)
  have hover : ∀ v, (s.podRead pod (secBase a) words).2.rbufOver g.team (secBase a) v = v := by
    intro v
    unfold State.rbufOver State.team?
    rw [hteams]
    change (match s.team? g.team with | some t => _ | none => v) = v
    cases ht : s.team? g.team with
    | none => rfl
    | some t => simp [hopen t ht]
  unfold State.readSec
  simp [hvoid, h4, hrem, hby, hg, hsc, hover]

theorem regionOpen_false {s : State} {k : Nat} (h : s.regionOpen k = false) :
    ∀ t, s.team? k = some t → t.rOpen = false := by
  intro t ht
  unfold State.regionOpen at h
  rw [ht] at h
  exact h

/-- A load that no replica and no miss of its own serves reads its place through the pod. -/
theorem loadSpan_mem {s : State} {o : MemOp} {a k : Nat} {x : PageAttr} (hplace : s.plainPlace o a x)
    (hk : k = 1 ∨ k = 2 ∨ k = 4 ∨ k = 8) (ha : a % k = 0) (hord : o.ord.order = .none) (hreps : s.reps = [])
    (hserved : o.served = []) :
    let r := s.podRead (podOf o.core) (secBase a) (wordMask (a % 64) k)
    s.loadSpan o (o.loc.fwd 0) k = ((r.1.nat (a % 64) k, r.1.pois (a % 64) k), r.2) := by
  obtain ⟨hloc, htag, hsc, hby, hrem, hsp, hopen⟩ := hplace
  intro r
  have hhome : o.atHome = false := by unfold MemOp.atHome; rw [hord]; rfl
  have hfwd : o.loc.fwd 0 = .mem a x := by rw [hloc]; rfl
  have hmin : min k (64 - a % 64) = k := by rcases hk with rfl | rfl | rfl | rfl <;> omega
  have hrep : s.replica o a = none := by unfold State.replica State.replicaAt; simp [hreps]
  have hserve : s.servedBy o a x k = none := by unfold State.servedBy; simp [hserved]
  have hread : s.readSec o.agent a x false (wordMask (a % 64) k) = r :=
    readSec_pod _ rfl hsc hby hrem hsp (regionOpen_false hopen)
  rw [hfwd]
  unfold State.loadSpan
  dsimp only
  rw [hmin, if_pos rfl]
  unfold State.loadNat
  dsimp only
  rw [htag]
  dsimp only
  rw [hrep, hserve]
  dsimp only
  unfold State.getLoc State.readNat
  dsimp only
  rw [hhome, hread]

theorem secBase_add {k : Nat} (hk : k = 1 ∨ k = 2 ∨ k = 4 ∨ k = 8) {a i : Nat} (ha : a % k = 0) (hi : i < k) :
    secBase (a + i) = secBase a ∧ (a + i) % 64 = a % 64 + i := by
  unfold secBase
  rcases hk with rfl | rfl | rfl | rfl <;> omega

theorem mod64_aligned {k : Nat} (hk : k = 1 ∨ k = 2 ∨ k = 4 ∨ k = 8) {a : Nat} (ha : a % k = 0) : a % 64 % k = 0 := by
  rcases hk with rfl | rfl | rfl | rfl <;> omega

/-- A number read through a pod, by the bytes the pod sees. -/
theorem podRead_nat_sees (s : State) (pod : Nat) {k : Nat} (hk : k = 1 ∨ k = 2 ∨ k = 4 ∨ k = 8) {a : Nat}
    (ha : a % k = 0) :
    let v := (s.podRead pod (secBase a) (wordMask (a % 64) k)).1
    v.nat (a % 64) k = leNat ((List.range k).map fun i => (s.sees pod (a + i)).1)
      ∧ v.pois (a % 64) k = (s.sees pod a).2 := by
  intro v
  have hmask : ∀ i, i < k → wordMask (a % 64 + i) 1 = wordMask (a % 64) k := fun i hi =>
    wordMask_aligned hk (mod64_aligned hk ha) hi
  have hsee : ∀ i, i < k → s.sees pod (a + i) = (BitVec.ofNat 8 (v.nat (a % 64 + i) 1), v.pois (a % 64 + i) 1) := by
    intro i hi
    obtain ⟨hb, hm⟩ := secBase_add hk ha hi
    unfold State.sees
    dsimp only
    rw [hb, hm, hmask i hi]
  constructor
  · rw [← leNat_nat_bytes]
    congr 1
    apply List.map_congr_left
    intro i hi
    rw [hsee i (List.mem_range.mp hi)]
  · have h0 := hsee 0 (by omega)
    rw [Nat.add_zero, Nat.add_zero] at h0
    rw [h0]
    dsimp only
    unfold SecVal.pois
    rw [← hmask 0 (by omega), Nat.add_zero]

theorem secVal_nat_lt (v : SecVal) (o n : Nat) : v.nat o n < 2 ^ (8 * n) := by
  unfold SecVal.nat SecVal.bits
  exact Nat.mod_lt _ (Nat.two_pow_pos _)

theorem leNat_lt : ∀ l : List Byte, leNat l < 256 ^ l.length
  | [] => by simp [leNat]
  | b :: bs => by
    have hb := b.isLt
    have ih := leNat_lt bs
    rw [leNat, List.length_cons, Nat.pow_succ]
    omega

theorem memory_nat_lt (m : Memory) (a n : Nat) : m.nat a n < 2 ^ (8 * n) := by
  have h := leNat_lt (m.bytes a n)
  rw [show (m.bytes a n).length = n by simp [Memory.bytes, span]] at h
  rwa [Nat.pow_mul]

end Sys2Proof.Machine
end

section
/-! SUPPORT. Reading through a pod changes no byte that it sees (R178, R204), and O31's clauses on loads. -/

namespace Sys2Proof.Machine

open Sys2Proof

/-! ## A miss leaves what the caches hold of other sectors -/

theorem SameAt.trans {s t u : State} {b : Nat} (h1 : SameAt s t b) (h2 : SameAt t u b) : SameAt s u b :=
  ⟨h1.backing.trans h2.backing, h1.l2.trans h2.l2, fun die => (h1.guests die).trans (h2.guests die)⟩

theorem useL2_sameAt (s : State) (d : Nat) (u : L2Use) (a b : Nat) : SameAt s (s.useL2 d u a) b := by
  unfold State.useL2
  dsimp only
  split <;> exact ⟨rfl, rfl, fun _ => rfl⟩

/-- With no frame waiting to be filled, a read behind the caches leaves them and what lies behind. -/
theorem memRead_sameAt {s : State} (h : s.fillWait = []) (a b : Nat) : SameAt s (s.memRead a).2 b := by
  unfold State.memRead
  split
  · have hwait : (s.fillWait.any fun x => x.1 == frameOf a) = false := by rw [h]; rfl
    dsimp only
    simp only [hwait, Bool.false_eq_true, if_false]
    split
    · exact ⟨rfl, rfl, fun _ => rfl⟩
    · split <;> exact ⟨rfl, rfl, fun _ => rfl⟩
  · exact ⟨rfl, rfl, fun _ => rfl⟩

theorem homeRead_sameAt {s : State} (h : s.fillWait = []) {a b : Nat} (hne : b ≠ a) (ws : BitVec 8) :
    SameAt s (s.homeRead a ws).2 b := by
  have hbase : ∀ c : Sector, secFind s.l2 a none = some c → c.base = a := fun c hc => (secFind_key hc).1
  unfold State.homeRead
  dsimp only
  split
  · exact useL2_sameAt s _ _ _ b
  · split
    · refine ((memRead_sameAt h a b).trans ?_).trans (useL2_sameAt _ _ _ _ b)
      refine ⟨rfl, ?_, fun _ => rfl⟩
      refine (secFind_secPut_other _ _ _ _ fun hk => hne ?_).symm
      rw [← hk.1]
      cases hc : secFind s.l2 a none with
      | none => rfl
      | some c => exact hbase c hc
    · exact memRead_sameAt h a b

theorem fetch_sameAt {s : State} (h : s.fillWait = []) {a b : Nat} (hne : b ≠ a) (pod : Nat) :
    SameAt s (s.fetch pod a).2 b := by
  unfold State.fetch
  dsimp only
  split
  · exact useL2_sameAt s _ _ _ b
  · split
    · exact homeRead_sameAt h hne _
    · refine ((homeRead_sameAt h hne 0xFF).trans ?_).trans (useL2_sameAt _ _ _ _ b)
      refine ⟨rfl, ?_, fun die => ?_⟩
      · dsimp only
        split
        · next x hx =>
          refine (secFind_secPut_other _ _ _ _ fun hk => hne ?_).symm
          exact hk.1.symm.trans (secFind_key hx).1
        · rfl
      · rw [List.find?_cons_of_neg]
        simp only [Sector.fill, Sector.empty, Bool.and_eq_true, beq_iff_eq, not_and]
        exact fun _ hk => hne hk.symm

/-! ## A pod sees what it saw -/

/-- A whole copy that a miss leaves gives the bytes that the miss had fetched. -/
theorem filled_byteAt (base now : Nat) (v w : SecVal) {q : Nat} (hq : q < 64) :
    ((Sector.empty base none).fill v now).byteAt w q = (Sector.empty base none).byteAt v q := by
  have hfull : ((Sector.empty base none).fill v now).covers (wordMask q 1) = true := covers_of_full rfl _
  have hempty : (Sector.empty base none).covers (wordMask q 1) = false := by
    rw [covers_byte _ hq]
    simp [Sector.empty]
  unfold Sector.byteAt Sector.seen
  rw [hfull, hempty]
  rfl

/-- Each copy that the pod holds of the sector is whole. -/
def State.wholeCopy (s : State) (pod base : Nat) : Prop :=
  ∀ c, secFind (s.pod pod).l1 base none = some c → c.full = true

/-- A pod's whole copy of a sector answers for it, and a miss leaves the bytes that it fetched. -/
theorem podRead_sees {s : State} {pod base : Nat} (hfill : s.fillWait = []) (hwhole : s.wholeCopy pod base)
    (ws : BitVec 8)
    (a : Nat) : (s.podRead pod base ws).2.sees pod a = s.sees pod a := by
  rw [podRead_eq]
  dsimp only
  by_cases hcov : (s.copyOf pod base).covers ws = true
  · rw [if_pos hcov]
  rw [if_neg hcov]
  have hcopy : s.copyOf pod base = Sector.empty base none := by
    unfold State.copyOf at hcov ⊢
    cases h : secFind (s.pod pod).l1 base none with
    | none => rfl
    | some c =>
      rw [h] at hcov
      exact absurd (covers_of_full (hwhole c h) ws) hcov
  rw [hcopy]
  have hpod : ∀ p, (s.fetch pod base).2.pod p = s.pod p := fun p => by unfold State.pod; rw [fetch_pods]
  generalize hu : State.modPod _ _ _ = u
  have hl1 : (u.pod pod).l1 = secPut (s.pod pod).l1 ((Sector.empty base none).fill (s.fetch pod base).1 s.clock) := by
    rw [← hu, modPod_pod, if_pos rfl]
    exact congrArg (fun p : Pod => secPut p.l1 _) (hpod pod)
  by_cases hb : secBase a = base
  · have hmine : u.copyOf pod base = (Sector.empty base none).fill (s.fetch pod base).1 s.clock := by
      unfold State.copyOf
      rw [hl1]
      exact congrArg (fun x : Option Sector => x.getD _) (secFind_secPut_self _ ((Sector.empty base none).fill
        (s.fetch pod base).1 s.clock))
    rw [sees_byteAt, sees_byteAt, hb, hmine, hcopy]
    exact filled_byteAt _ _ _ _ (Nat.mod_lt _ (by omega))
  · have hat : SameAt u s (secBase a) := by
      have h := fetch_sameAt hfill hb pod
      exact ⟨by rw [← hu]; exact h.backing.symm, by rw [← hu]; exact h.l2.symm,
        by rw [← hu]; exact fun d => (h.guests d).symm⟩
    refine sees_congr hat ?_
    unfold State.copyOf
    rw [hl1]
    rw [secFind_secPut_other _ _ _ _ fun hk => hb hk.1.symm]

/-! ## O31's clauses on loads -/

theorem fib?_of_fibres {s t : State} (h : t.fibres = s.fibres) (f : FibId) : t.fib? f = s.fib? f := by
  unfold State.fib?
  rw [h]

theorem sameCaches_hubLast (s : State) (h : NMap Nat) : SameCaches s { s with hubLast := h } := ⟨rfl, rfl, rfl, rfl⟩

/-- A load from a scratchpad that may be performed. -/
theorem load_spad {n k : Nat} {s : State} {o : MemOp} {r : Fin 128} {sx clr : Bool} {a t : Nat} {x : Team}
    (hp : s.performs n o) (hgot : o.got = []) (hf : (s.fib? o.fib).isSome = true) (hk : k = 1 ∨ k = 2 ∨ k = 4 ∨ k = 8)
    (hact : o.act = .ld (some (.x r)) k sx false clr false) (hord : o.ord.order = .none) (hloc : o.loc = .spad t a)
    (hteam : s.team? t = some x) :
    exec (.trackedComplete n) s = .next ((s.tookPort o).performHere o).sweep
      ∧ Loaded s ((s.tookPort o).performHere o) o r (loadCell k sx (x.spad.nat a k, x.spad.anyPois a k)) := by
  refine ⟨performs_exec hp, ?_⟩
  obtain ⟨h, hs⟩ := tookPort_eq s o
  have hk16 : k ≠ 16 := by omega
  rw [hs, performHere_load _ hk16 hgot hact, hloc, loadSpan_spad { s with hubLast := h } o hteam]
  obtain ⟨hreg, hgone, hcaches, hspads, hothers, hgroups⟩ :=
    endLoad_loaded (s := { s with hubLast := h }) (loadCell k sx (x.spad.nat a k, x.spad.anyPois a k)) hf hk16 hact hord
  exact ⟨hreg, hgone, (sameCaches_hubLast s h).trans hcaches, hspads, hothers, hgroups⟩

/-- A load of memory that may be performed: what its end leaves of the state after the read through the pod. -/
theorem load_mem {n k : Nat} {s : State} {o : MemOp} {r : Fin 128} {sx clr : Bool} {a : Nat} {x : PageAttr}
    (hp : s.performs n o) (hgot : o.got = []) (hserved : o.served = []) (hf : (s.fib? o.fib).isSome = true)
    (hk : k = 1 ∨ k = 2 ∨ k = 4 ∨ k = 8) (ha : a % k = 0) (hact : o.act = .ld (some (.x r)) k sx false clr false)
    (hord : o.ord.order = .none) (hplace : s.plainPlace o a x) (hreps : s.reps = []) :
    ∃ w v, w = { s with hubLast := v } ∧ exec (.trackedComplete n) s = .next ((s.tookPort o).performHere o).sweep
      ∧ Loaded (w.podRead (podOf o.core) (secBase a) (wordMask (a % 64) k)).2 ((s.tookPort o).performHere o) o r
        (loadCell k sx (leNat ((List.range k).map fun i => (s.sees (podOf o.core) (a + i)).1),
          (s.sees (podOf o.core) a).2)) := by
  obtain ⟨h, hs⟩ := tookPort_eq s o
  refine ⟨{ s with hubLast := h }, h, rfl, performs_exec hp, ?_⟩
  have hk16 : k ≠ 16 := by omega
  have hread := loadSpan_mem (s := { s with hubLast := h }) hplace hk ha hord hreps hserved
  obtain ⟨hnat, hpois⟩ := podRead_nat_sees { s with hubLast := h } (podOf o.core) hk ha
  have hsame : ∀ b, State.sees { s with hubLast := h } (podOf o.core) b = s.sees (podOf o.core) b := fun b =>
    ((sameCaches_hubLast s h).sees _ b).symm
  simp only [hsame] at hnat hpois
  rw [hs, performHere_load _ hk16 hgot hact, hread]
  dsimp only
  rw [hnat, hpois]
  have hfib := congrArg Scene.fibres 
    (podRead_scene { s with hubLast := h } (podOf o.core) (secBase a) (wordMask (a % 64) k))
  refine endLoad_loaded _ ?_ hk16 hact hord
  rw [fib?_of_fibres hfib]
  exact hf

/-- The clauses of O31 on loads. -/
theorem loads_complete (n k : Nat) (s : State) (o : MemOp) (r : Fin 128) (sx clr : Bool) (a : Nat) (hp : s.performs n o)
    (hgot : o.got = []) (hserved : o.served = []) (hf : (s.fib? o.fib).isSome = true)
    (hk : k = 1 ∨ k = 2 ∨ k = 4 ∨ k = 8)
    (ha : a % k = 0) (hact : o.act = .ld (some (.x r)) k sx false clr false) (hord : o.ord.order = .none) :
    let value := fun (m : Nat) => if sx then (BitVec.ofNat (8 * k) m).signExtend 64 else BitVec.ofNat 64 m
    (∀ (t : Nat) (x : Team), o.loc = .spad t a → s.team? t = some x → ∃ u : State,
      exec (.trackedComplete n) s = .next u.sweep
      ∧ u.reg o.fib (.x r) = ⟨value (leNat ((List.range k).map fun i => (s.spadByte t (a + i)).1)), (s.spadByte t a).2⟩
      ∧ u.op? n = none ∧ u.mem = s.mem ∧ u.pods = s.pods ∧ (∀ t' b, u.spadByte t' b = s.spadByte t' b)
      ∧ (∀ f, f ≠ o.fib → u.fib? f = s.fib? f) ∧ u.groups = s.groups)
    ∧ (∀ x : PageAttr, s.plainPlace o a x → s.reps = [] → ∃ u : State, exec (.trackedComplete n) s = .next u.sweep
      ∧ u.reg o.fib (.x r) = ⟨value (leNat ((List.range k).map fun i => (s.sees (podOf o.core) (a + i)).1)),
          (s.sees (podOf o.core) a).2⟩
      ∧ u.op? n = none ∧ (s.fillWait = [] → u.mem = s.mem
          ∧ ((∀ c, secFind (s.pod (podOf o.core)).l1 (secBase a) none = some c → c.full = true) →
            ∀ b, u.sees (podOf o.core) b = s.sees (podOf o.core) b))
      ∧ (∀ t' b, u.spadByte t' b = s.spadByte t' b) ∧ (∀ f, f ≠ o.fib → u.fib? f = s.fib? f)
      ∧ u.groups = s.groups) := by
  have hk0 : 0 < k := by omega
  intro value
  constructor
  · intro t x hloc hteam
    obtain ⟨he, hreg, hgone, hcaches, hspads, hothers, hgroups⟩ := load_spad hp hgot hf hk hact hord hloc hteam
    rw [performs_id hp] at hgone
    refine ⟨_, he, ?_, hgone, hcaches.mem.symm, hcaches.pods.symm, hspads, hothers, hgroups⟩
    rw [hreg, loadCell_eq hk0 sx (memory_nat_lt _ _ _), spad_nat_bytes hteam, spad_anyPois_byte hteam hk ha]
  · intro x hplace hreps
    obtain ⟨w, v, hw, he, hreg, hgone, hcaches, hspads, hothers, hgroups⟩ :=
      load_mem hp hgot hserved hf hk ha hact hord hplace hreps
    have hsc := podRead_scene w (podOf o.core) (secBase a) (wordMask (a % 64) k)
    rw [performs_id hp] at hgone
    refine ⟨_, he, ?_, hgone, fun hfill => ⟨?_, fun hwhole b => ?_⟩, fun t' b => ?_, fun f hne => ?_, ?_⟩
    · rw [hreg]
      refine loadCell_eq hk0 sx ?_ _
      rw [← (podRead_nat_sees s (podOf o.core) hk ha).1]
      exact secVal_nat_lt _ _ _
    · rw [← hcaches.mem]
      subst hw
      exact ((podRead_still { s with hubLast := v } _ _ _).kept hfill).1
    · rw [← hcaches.sees]
      subst hw
      refine (podRead_sees (s := { s with hubLast := v }) hfill hwhole _ b).trans ?_
      exact ((sameCaches_hubLast s v).sees _ b).symm
    · rw [hspads]
      subst hw
      exact spadByte_of_teams (congrArg Scene.teams hsc) t' b
    · rw [hothers f hne]
      subst hw
      exact fib?_of_fibres (congrArg Scene.fibres hsc) f
    · rw [hgroups]
      subst hw
      exact congrArg Scene.groups hsc

end Sys2Proof.Machine
end

section
/-! SUPPORT. A plain store of up to 16 bytes (R95, R179, R380): the bytes that it leaves, and O31's clauses on
stores. -/

namespace Sys2Proof.Machine

open Sys2Proof

/-! ## Bytes written over others -/

/-- Bytes by place and address with a clean number of `n` bytes over them. -/
def overlaid (F : Nat → Nat → Byte × Bool) (p a n v : Nat) : Nat → Nat → Byte × Bool := fun q b =>
  if q = p ∧ a ≤ b ∧ b < a + n then (BitVec.ofNat 8 (v >>> (8 * (b - a))), if n = 8 then false else (F q b).2)
  else F q b

/-- The same with the one part or the two halves that a store is performed in. -/
def storedOver (F : Nat → Nat → Byte × Bool) (p a k : Nat) (lo hi : Word) : Nat → Nat → Byte × Bool :=
  if k = 16 then overlaid (overlaid F p a 8 lo.toNat) p (a + 8) 8 hi.toNat else overlaid F p a k lo.toNat

theorem ofNat_shift_byte (w : Word) (i : Nat) : BitVec.ofNat 8 (w.toNat >>> (8 * i)) = w.extractLsb' (8 * i) 8 := by
  apply BitVec.eq_of_toNat_eq
  rw [BitVec.toNat_ofNat, BitVec.extractLsb'_toNat]

section

variable {F : Nat → Nat → Byte × Bool} {p a n v q b : Nat}

theorem overlaid_in (h : q = p ∧ a ≤ b ∧ b < a + n) :
    overlaid F p a n v q b = (BitVec.ofNat 8 (v >>> (8 * (b - a))), if n = 8 then false else (F q b).2) := if_pos h

theorem overlaid_out (h : ¬ (q = p ∧ a ≤ b ∧ b < a + n)) : overlaid F p a n v q b = F q b := if_neg h

end

/-- A store's bytes as its statement gives them. -/
theorem storedOver_apply (F : Nat → Nat → Byte × Bool) {k : Nat} (hk : k = 1 ∨ k = 2 ∨ k = 4 ∨ k = 8 ∨ k = 16)
    (p a : Nat) (lo hi : Word) (q b : Nat) :
    storedOver F p a k lo hi q b = if q = p ∧ (decide (a ≤ b) && decide (b < a + k)) = true then
        (if b - a < 8 then lo.extractLsb' (8 * (b - a)) 8 else hi.extractLsb' (8 * (b - a - 8)) 8,
          if (decide (8 ≤ k) && (decide (a ≤ b) && decide (b < a + k))) = true then false else (F q b).2)
      else F q b := by
  simp only [Bool.and_eq_true, decide_eq_true_eq]
  by_cases hin : q = p ∧ a ≤ b ∧ b < a + k
  · rw [if_pos hin]
    obtain ⟨hq, hle, hlt⟩ := hin
    unfold storedOver
    by_cases h16 : k = 16
    · subst h16
      rw [if_pos rfl, if_pos (c := 8 ≤ 16 ∧ a ≤ b ∧ b < a + 16) ⟨by decide, hle, hlt⟩]
      by_cases hlow : b < a + 8
      · rw [overlaid_out (by omega), overlaid_in ⟨hq, hle, hlow⟩, if_pos rfl, if_pos (by omega), ofNat_shift_byte]
      · rw [overlaid_in ⟨hq, by omega, by omega⟩, if_pos rfl, if_neg (by omega), ofNat_shift_byte,
          show b - (a + 8) = b - a - 8 by omega]
    · have hlow : b - a < 8 := by omega
      have h8 : (8 ≤ k ∧ a ≤ b ∧ b < a + k) ↔ k = 8 := by omega
      rw [if_neg h16, if_pos hlow, overlaid_in ⟨hq, hle, hlt⟩, ofNat_shift_byte]
      simp only [h8]
  · rw [if_neg hin]
    unfold storedOver
    split
    · rw [overlaid_out (by omega), overlaid_out (by omega)]
    · exact overlaid_out hin

/-! ## Scratchpads -/

theorem leBytes_getD (n v i : Nat) (hi : i < n) : (leBytes n v).getD i 0 = BitVec.ofNat 8 (v >>> (8 * i)) := by
  rw [leBytes_eq_map, List.getD_eq_getElem?_getD, List.getElem?_map, List.getElem?_range hi]
  rfl

/-- A team after a store in its scratchpad. -/
def Team.storeSpad (x : Team) (a : Nat) (bs : List Byte) (p : Bool) : Team :=
  { x with
    spad := x.spad.store a bs p
    tileOld := x.tileOld.filter fun e => !(decide (a < 8 * e.2.1 + 8) && decide (8 * e.2.1 < a + bs.length)) }

theorem spadStore_team? (s : State) (t a : Nat) (bs : List Byte) (p : Bool) (q : Nat) :
    (s.spadStore t a bs p).team? q = (s.team? q).map fun x => if q = t then x.storeSpad a bs p else x := by
  refine (State.team?_modTeam s t (fun x => x.storeSpad a bs p) (fun _ => rfl) q).trans ?_
  cases h : s.team? q with
  | none => rfl
  | some x =>
    have hid : x.id = q := by simpa using List.find?_some h
    simp [hid]

theorem spadStore_spadByte {s : State} {t : Nat} {x : Team} (hteam : s.team? t = some x) {n : Nat}
    (hn : n = 1 ∨ n = 2 ∨ n = 4 ∨ n = 8) {a : Nat} (ha : a % n = 0) (v : Nat) :
    (s.spadStore t a (leBytes n v) false).spadByte = overlaid s.spadByte t a n v := by
  funext q b
  have hlen : (leBytes n v).length = n := leBytes_length n v
  unfold State.spadByte
  rw [spadStore_team?]
  by_cases hq : q = t
  · subst hq
    have hbyte : (x.storeSpad a (leBytes n v) false).spad.byte b
        = if a ≤ b ∧ b < a + n then BitVec.ofNat 8 (v >>> (8 * (b - a))) else x.spad.byte b := by
      refine (Memory.byte_store _ _ _ _ _).trans ?_
      rw [hlen]
      split
      · exact leBytes_getD _ _ _ (by omega)
      · rfl
    have hpois : (x.storeSpad a (leBytes n v) false).spad.pois b
        = if n = 8 ∧ b / 8 = a / 8 then false else x.spad.pois b := by
      refine (pois_store_clean _ _ (by rw [hlen]; exact hn) (by rw [hlen]; exact ha) _).trans ?_
      rw [hlen]
    rw [hteam, Option.map_some, if_pos rfl]
    dsimp only
    rw [hbyte, hpois]
    by_cases hin : a ≤ b ∧ b < a + n
    · have hword : (n = 8 ∧ b / 8 = a / 8) ↔ n = 8 := ⟨fun h => h.1, fun h => ⟨h, by subst h; omega⟩⟩
      rw [overlaid_in ⟨rfl, hin⟩, if_pos hin]
      simp only [hword, hteam]
    · rw [overlaid_out fun h => hin h.2, if_neg hin, if_neg, hteam]
      rintro ⟨rfl, h⟩
      omega
  · rw [overlaid_out fun h => hq h.1]
    cases s.team? q with
    | none => rfl
    | some y => rw [Option.map_some, if_neg hq]

/-! ## Memory, through the pod's L1 -/

theorem podWrite_copyOf (s : State) (pod base : Nat) (w : SecWrite) (f : FibId) (part p b : Nat) :
    (s.podWrite pod base w f part).copyOf p b
      = if p = pod ∧ b = base then ((s.copyOf pod base).write w part).wrote f else s.copyOf p b := by
  obtain ⟨hbase, htag⟩ := copyOf_key s pod base
  unfold State.podWrite
  change (secFind ((s.modPod pod _).pod p).l1 b none).getD _ = _
  rw [modPod_pod]
  by_cases hp : p = pod
  · subst hp
    rw [if_pos rfl]
    change (secFind (secPut (s.pod p).l1 (((s.copyOf p base).write w part).wrote f)) b none).getD _ = _
    have hb : (((s.copyOf p base).write w part).wrote f).base = base := hbase
    have ht : (((s.copyOf p base).write w part).wrote f).tag = none := htag
    by_cases hbb : b = base
    · subst hbb
      rw [if_pos ⟨rfl, rfl⟩]
      have := secFind_secPut_self (s.pod p).l1 (((s.copyOf p b).write w part).wrote f)
      rw [hb, ht] at this
      rw [this]
      rfl
    · rw [if_neg fun h => hbb h.2, secFind_secPut_other _ _ _ _ fun h => hbb (h.1.symm.trans hb)]
      rfl
  · rw [if_neg hp, if_neg fun h => hp h.1]
    rfl

/-- A clean store through a pod, as the pods see it. -/
theorem podWrite_sees (s : State) {n : Nat} (hn : n = 1 ∨ n = 2 ∨ n = 4 ∨ n = 8) {a : Nat} (ha : a % n = 0)
    (pod v : Nat) (f : FibId) (part : Nat) :
    (s.podWrite pod (secBase a) (secBytes (a % 64) n v false) f part).sees = overlaid s.sees pod a n v := by
  funext p b
  have hat : SameAt (s.podWrite pod (secBase a) (secBytes (a % 64) n v false) f part) s (secBase b) :=
    ⟨rfl, rfl, fun _ => rfl⟩
  have hin : (p = pod ∧ a ≤ b ∧ b < a + n) ↔ (p = pod ∧ secBase b = secBase a) ∧ a % 64 ≤ b % 64
    ∧ b % 64 < a % 64 + n := by
    unfold secBase
    rcases hn with rfl | rfl | rfl | rfl <;> omega
  unfold overlaid
  rw [sees_byteAt, sees_byteAt, fetch_congr hat, podWrite_copyOf]
  by_cases hsec : p = pod ∧ secBase b = secBase a
  · obtain ⟨rfl, hb⟩ := hsec
    rw [if_pos ⟨rfl, hb⟩, hb]
    have hlt : b % 64 < 64 := Nat.mod_lt _ (by omega)
    refine (stored_byteAt (s.copyOf p (secBase a)) hn (mod64_aligned hn ha) v part f _ hlt).trans ?_
    by_cases h : a % 64 ≤ b % 64 ∧ b % 64 < a % 64 + n
    · have hsub : b % 64 - a % 64 = b - a := by unfold secBase at hb; omega
      rw [if_pos h, if_pos (hin.mpr ⟨⟨rfl, hb⟩, h⟩), hsub]
    · rw [if_neg h, if_neg fun h' => h (hin.mp h').2]
  · rw [if_neg hsec, if_neg fun h => hsec (hin.mp h).1]

/-! ## A store's parts -/

/-- What no store of a pod writes. -/
structure Stores (s w : State) : Prop where
  fibres : w.fibres = s.fibres
  groups : w.groups = s.groups
  mem : w.mem = s.mem

theorem writePart_store (s : State) {o : MemOp} {k : Nat} {lo hi : RegCell} (hact : o.act = .st k lo hi false)
    (hord : o.ord.order = .none) (j : Nat) :
    s.writePart o j = s.putLoc o.agent (o.loc.fwd (8 * j)) false (if k = 16 then 8 else k)
      (if j = 0 then lo else hi).v.toNat
      (if j = 0 then lo else hi).p := by
  have hhome : o.atHome = false := by unfold MemOp.atHome; rw [hord]; rfl
  unfold State.writePart MemOp.partAt
  rw [hact, hhome]
  rfl

/-- The parts of a store, each written in its turn. -/
def State.storeParts (s : State) (o : MemOp) (k : Nat) : State :=
  if k = 16 then (s.writePart o 0).writePart o 1 else s.writePart o 0

theorem performHere_store (s : State) {o : MemOp} {k : Nat} {lo hi : RegCell} (hgot : o.got = [])
    (hact : o.act = .st k lo hi false) (hord : o.ord.order = .none) :
    s.performHere o = s.shading o fun s => (s.storeParts o k).finishOne o := by
  have hleft : o.left = if k = 16 then [0, 1] else [0] := by
    unfold MemOp.left
    rw [hgot, hact]
    by_cases h : k = 16
    · subst h; rfl
    · simp [OpAct.parts, h]
  have hstore : ∀ s : State, s.performStore o = (s.storeParts o k).finishOne o := by
    intro s
    have hrel : s.releaseFor o = s := by unfold State.releaseFor; rw [hord]; rfl
    have honward : ∀ t : State, t.onward o = t := by
      intro t
      unfold State.onward
      rw [hord, hact]
      simp [OpAct.isRmw]
    have hdests : o.act.dests.any Opnd.shared = false := by rw [hact]; rfl
    unfold State.performStore State.endStore State.storeParts
    rw [hrel, honward, finish_eq _ hdests, hleft]
    split <;> rfl
  unfold State.performHere
  rw [hact]
  simp only [hstore]

/-! ### In a scratchpad -/

theorem storeParts_spad {s : State} {o : MemOp} {k t a : Nat} {lo hi : RegCell} {x : Team}
    (hact : o.act = .st k lo hi false)
    (hord : o.ord.order = .none) (hk : k = 1 ∨ k = 2 ∨ k = 4 ∨ k = 8 ∨ k = 16) (ha : a % k = 0) (hlo : lo.p = false)
    (hhi : k = 16 → hi.p = false) (hloc : o.loc = .spad t a) (hteam : s.team? t = some x) :
    (s.storeParts o k).spadByte = storedOver s.spadByte t a k lo.v hi.v ∧ Stores s (s.storeParts o k)
      ∧ (s.storeParts o k).pods = s.pods := by
  unfold State.storeParts storedOver
  by_cases h16 : k = 16
  · subst h16
    rw [if_pos rfl, if_pos rfl, writePart_store _ hact hord, writePart_store _ hact hord, hloc]
    simp only [Loc.fwd, State.putLoc, hlo, hhi rfl, Nat.mul_zero, Nat.add_zero, if_true, Nat.mul_one,
      Nat.one_ne_zero, if_false]
    have hnext := spadStore_team? s t a (leBytes 8 lo.v.toNat) false t
    rw [hteam, Option.map_some] at hnext
    rw [spadStore_spadByte hnext (by omega) (by omega), spadStore_spadByte hteam (by omega) (by omega)]
    exact ⟨rfl, ⟨rfl, rfl, rfl⟩, rfl⟩
  · rw [if_neg h16, if_neg h16, writePart_store _ hact hord, hloc]
    simp only [Loc.fwd, State.putLoc, hlo, Nat.mul_zero, Nat.add_zero, if_true, h16, if_false]
    rw [spadStore_spadByte hteam (by omega) ha]
    exact ⟨rfl, ⟨rfl, rfl, rfl⟩, rfl⟩

/-! ### In memory -/

theorem writeSec_pod {s : State} {g : Agent} {pod a : Nat} {x : PageAttr} (w : SecWrite) (hg : g.pod = some pod)
    (hsc : x.sc = false) (hby : x.bypass a = false) (hrem : s.isRemote a = false) (hsp : spaceOf a < 4)
    (hopen : s.regionOpen g.team = false) : s.writeSec g a x false w = s.podWrite pod (secBase a) w g.fib g.part := by
  have hvoid : isVoid a = false := by unfold isVoid; simp; omega
  unfold State.writeSec
  simp [hvoid, hrem, hby, hg, hsc, hopen]

theorem storeParts_mem {s : State} {o : MemOp} {k a : Nat} {lo hi : RegCell} {x : PageAttr}
    (hact : o.act = .st k lo hi false)
    (hord : o.ord.order = .none) (hk : k = 1 ∨ k = 2 ∨ k = 4 ∨ k = 8 ∨ k = 16) (ha : a % k = 0) (hlo : lo.p = false)
    (hhi : k = 16 → hi.p = false) (hplace : s.plainPlace o a x) :
    (s.storeParts o k).sees = storedOver s.sees (podOf o.core) a k lo.v hi.v ∧ Stores s (s.storeParts o k)
      ∧ (s.storeParts o k).teams = s.teams := by
  obtain ⟨hloc, -, hsc, hby, hrem, hsp, hopen⟩ := hplace
  have hput : ∀ (t : State) (b n v : Nat) (y : PageAttr),
    t.pkg = s.pkg → t.teams = s.teams → b / 16 = a / 16 → y.sc = x.sc →
      y.uncached = x.uncached → t.putLoc o.agent (.mem b y) false n v false
        = t.podWrite (podOf o.core) (secBase b) (secBytes (b % 64) n v false) o.fib o.part := by
    intro t b n v y hpkg hteams hb hy1 hy2
    have hspace : spaceOf b = spaceOf a := by unfold spaceOf; omega
    refine writeSec_pod _ rfl (hy1.trans hsc) ?_ ?_ (by omega) ?_
    · unfold PageAttr.bypass at hby ⊢
      rw [hy2, hspace]
      exact hby
    · unfold State.isRemote at hrem ⊢
      rw [hspace, hpkg, show b / 2 ^ 39 = a / 2 ^ 39 by omega]
      exact hrem
    · unfold State.regionOpen State.team? at hopen ⊢
      rw [hteams]
      exact hopen
  unfold State.storeParts storedOver
  by_cases h16 : k = 16
  · subst h16
    rw [if_pos rfl, if_pos rfl, writePart_store _ hact hord, writePart_store _ hact hord, hloc]
    simp only [Loc.fwd, hlo, hhi rfl, Nat.mul_zero, Nat.add_zero, if_true, Nat.mul_one, Nat.one_ne_zero, if_false]
    rw [hput s a 8 _ _ rfl rfl rfl rfl rfl,
      hput (s.podWrite _ _ _ _ _) (a + 8) 8 _ { x with off := x.off + 8 } rfl rfl (by omega) rfl rfl,
      podWrite_sees _ (by omega) (by omega), podWrite_sees _ (by omega) (by omega)]
    exact ⟨rfl, ⟨rfl, rfl, rfl⟩, rfl⟩
  · rw [if_neg h16, if_neg h16, writePart_store _ hact hord, hloc]
    simp only [Loc.fwd, hlo, Nat.mul_zero, Nat.add_zero, if_true, h16, if_false]
    rw [hput s a k _ _ rfl rfl rfl rfl rfl, podWrite_sees _ (by omega) ha]
    exact ⟨rfl, ⟨rfl, rfl, rfl⟩, rfl⟩

end Sys2Proof.Machine
end

section
/-! SUPPORT. A store's end, what its signers' phases keep of what it overwrites (R279), and O31. -/

namespace Sys2Proof.Machine

open Sys2Proof

theorem sameFibres_of_quiet {f : FibId} {s t u : State} (h : Quiet f t u) (hs : t.fibres = s.fibres) :
    s.sameFibres u := by
  intro g
  refine (h.fibres g).trans ?_
  rw [fib?_of_fibres hs]
  rfl

/-- What a phase keeps of a store's old words is its team's alone. -/
theorem shading_cases (s : State) (o : MemOp) (f : State → State) : s.shading o f = f s
    ∨ ∃ l, s.shading o f = (f s).modTeam o.fib.team fun t => { t with tileOld := l ++ t.tileOld } := by
  unfold State.shading
  dsimp only
  generalize (if o.isLoad = true then [] else s.tileNews o) = news
  split
  · exact .inl rfl
  · exact .inr ⟨news, rfl⟩

/-- A store to memory overwrites no word of a scratchpad. -/
theorem shading_mem (s : State) {o : MemOp} {k a : Nat} {lo hi : RegCell} {w : Bool} {x : PageAttr}
    (hact : o.act = .st k lo hi w)
    (hloc : o.loc = .mem a x) (f : State → State) : s.shading o f = f s := by
  have hfeet : ∀ t : Nat, (o.feet.filter fun f => f.kind == .spad && f.key == t) = [] := by
    intro t
    unfold MemOp.feet
    rw [hact, hloc]
    rfl
  have hnews : s.tileNews o = [] := by
    unfold State.tileNews
    split
    · rfl
    · simp only [hfeet, List.flatMap_nil, List.map_nil, List.flatMap_eq_nil_iff]
      exact fun _ _ _ _ => trivial
  unfold State.shading
  rw [hnews]
  simp

/-- The clauses of O31 on stores. -/
theorem stores_complete (n k : Nat) (s : State) (o : MemOp) (lo hi : RegCell) (a : Nat) (hp : s.performs n o)
    (hgot : o.got = [])
    (hk : k = 1 ∨ k = 2 ∨ k = 4 ∨ k = 8 ∨ k = 16) (ha : a % k = 0) (hlo : lo.p = false) (hhi : k = 16 → hi.p = false)
    (hact : o.act = .st k lo hi false) (hord : o.ord.order = .none) :
    let new := fun (b : Nat) =>
      if b - a < 8 then lo.v.extractLsb' (8 * (b - a)) 8 else hi.v.extractLsb' (8 * (b - a - 8)) 8
    let inside := fun (b : Nat) => decide (a ≤ b) && decide (b < a + k)
    let bad := fun (b : Nat) (p : Bool) => if decide (8 ≤ k) && inside b then false else p
    (∀ (t : Nat) (x : Team), o.loc = .spad t a → s.team? t = some x → ∃ u : State,
      exec (.trackedComplete n) s = .next u.sweep
      ∧ (∀ t' b, u.spadByte t' b =
        if t' = t ∧ inside b = true then (new b, bad b (s.spadByte t b).2) else s.spadByte t' b)
      ∧ u.op? n = none ∧ u.mem = s.mem ∧ u.pods = s.pods ∧ s.sameFibres u ∧ u.groups = s.groups)
    ∧ (∀ x : PageAttr, s.plainPlace o a x → ∃ u : State, exec (.trackedComplete n) s = .next u.sweep
      ∧ (∀ b, inside b = true → u.sees (podOf o.core) b = (new b, bad b (s.sees (podOf o.core) b).2))
      ∧ (∀ pod b, pod ≠ podOf o.core ∨ inside b = false → u.sees pod b = s.sees pod b)
      ∧ u.op? n = none ∧ u.mem = s.mem ∧ u.teams = s.teams ∧ s.sameFibres u ∧ u.groups = s.groups) := by
  intro new inside bad
  obtain ⟨h, hs⟩ := tookPort_eq s o
  constructor
  · intro t x hloc hteam
    obtain ⟨hbytes, ⟨hfib, hgrp, hmem⟩, hpods⟩ :=
      storeParts_spad (s := { s with hubLast := h }) hact hord hk ha hlo hhi hloc hteam
    set v := State.storeParts { s with hubLast := h } o k with hv
    have hq := finishOne_quiet v o
    have hend : ∃ u : State, (s.tookPort o).performHere o = u ∧ u.fibres = (v.finishOne o).fibres
        ∧ u.groups = (v.finishOne o).groups ∧ u.pend = (v.finishOne o).pend ∧ u.mem = (v.finishOne o).mem
        ∧ u.pods = (v.finishOne o).pods ∧ u.spadByte = (v.finishOne o).spadByte := by
      rw [hs, performHere_store _ hgot hact hord]
      rcases shading_cases { s with hubLast := h } o (fun s => (s.storeParts o k).finishOne o) with he | ⟨l, he⟩
      · exact ⟨_, he, rfl, rfl, rfl, rfl, rfl, rfl⟩
      · refine ⟨_, he, rfl, rfl, rfl, rfl, rfl, ?_⟩
        funext t' b
        refine modTeam_spadByte _ _ (g := fun t => { t with tileOld := l ++ t.tileOld }) ?_ ?_ t' b
        · exact fun _ => rfl
        · exact fun _ => rfl
    obtain ⟨u, hu, huf, hug, hup, hum, hupods, hub⟩ := hend
    refine ⟨u, hu ▸ performs_exec hp, fun t' b => ?_, ?_, ?_, ?_, ?_, ?_⟩
    · rw [hub, spadByte_of_teams hq.teams, hbytes, storedOver_apply _ hk]
      by_cases ht : t' = t
      · subst ht; rfl
      · rw [if_neg fun hc => ht hc.1, if_neg fun hc => ht hc.1]
        rfl
    · have hgone := finishOne_op? v o
      rw [performs_id hp] at hgone
      unfold State.op? at hgone ⊢
      rw [hup]
      exact hgone
    · rw [hum, ← hq.caches.mem]
      exact hmem
    · rw [hupods, ← hq.caches.pods]
      exact hpods
    · intro f
      rw [fib?_of_fibres huf]
      exact sameFibres_of_quiet (s := s) hq hfib f
    · rw [hug, hq.groups]
      exact hgrp
  · intro x hplace
    obtain ⟨hbytes, ⟨hfib, hgrp, hmem⟩, hteams⟩ :=
      storeParts_mem (s := { s with hubLast := h }) hact hord hk ha hlo hhi hplace
    set v := State.storeParts { s with hubLast := h } o k with hv
    have hq := finishOne_quiet v o
    have hu : (s.tookPort o).performHere o = v.finishOne o := by
      rw [hs, performHere_store _ hgot hact hord]
      exact shading_mem _ hact hplace.1 _
    have hsees : ∀ p b, (v.finishOne o).sees p b
        = if p = podOf o.core ∧ inside b = true then (new b, bad b (s.sees p b).2) else s.sees p b := by
      intro p b
      rw [← hq.caches.sees, hbytes, storedOver_apply _ hk, ((sameCaches_hubLast s h).sees p b).symm]
    have hgone := finishOne_op? v o
    rw [performs_id hp] at hgone
    refine ⟨v.finishOne o, hu ▸ performs_exec hp, fun b hb => ?_, fun p b hout => ?_, hgone, ?_, hq.teams.trans hteams,
      sameFibres_of_quiet (s := s) hq hfib, hq.groups.trans hgrp⟩
    · rw [hsees, if_pos ⟨rfl, hb⟩]
    · rw [hsees, if_neg]
      rintro ⟨hpod, hin⟩
      rcases hout with hne | hno
      · exact hne hpod
      · rw [hno] at hin
        exact Bool.false_ne_true hin
    · rw [← hq.caches.mem]
      exact hmem

/-- Settles O31: a load reads its bytes through its pod's L1 or from the scratchpad, and a miss leaves every byte as the
pod saw it; a store's bytes are written over the copy that the pod sees. -/
theorem loadsAndStoresComplete : Obligations.LoadsAndStoresComplete := by
  unfold Obligations.LoadsAndStoresComplete
  refine ⟨?_, ?_⟩
  · intro n k s o r sx clr a hp hgot hserved hf hk ha hact hord
    exact loads_complete n k s o r sx clr a hp hgot hserved hf hk ha hact hord
  · intro n k s o lo hi a hp hgot hk ha hlo hhi hact hord
    exact stores_complete n k s o lo hi a hp hgot hk ha hlo hhi hact hord

end Sys2Proof.Machine
end

section
/-! SUPPORT. What a clause's fetch and the planning of its accesses leave (R11, R210): fibres, groups, teams and
clauses as they were, and with no frame waiting to be filled, memory too. -/

namespace Sys2Proof.Machine

open Sys2Proof

/-- The caches aside, nothing changes of the scene, nor of memory when no frame waits to be filled. -/
structure Kept (s t : State) : Prop where
  scene : t.scene = s.scene
  still : Still s t

theorem Kept.refl (s : State) : Kept s s := ⟨rfl, Still.refl s⟩

theorem Kept.trans {s t u : State} (h1 : Kept s t) (h2 : Kept t u) : Kept s u :=
  ⟨h2.scene.trans h1.scene, h1.still.trans h2.still⟩

theorem foldl_kept {α : Type} {f : State → α → State} (h : ∀ s x, Kept s (f s x)) (l : List α) :
    ∀ s : State, Kept s (l.foldl f s) := by
  induction l with
  | nil => exact Kept.refl
  | cons x l ih => exact fun s => (h s x).trans (ih _)

/-! ## The memory port (R209) -/

theorem hubWords_still (s : State) (a n : Nat) : Still s (s.hubWords a n).2 := by
  unfold State.hubWords
  refine foldl_keeps (fun acc : List Word × State => Still s acc.2) _ ?_ _ _ (Still.refl s)
  intro acc i hacc
  dsimp only
  exact Still.trans hacc (homeRead_still acc.2 _ _)

theorem desc_kept (s : State) (part idx : Nat) : Kept s (s.desc part idx).2 := by
  refine ⟨by simp, ?_⟩
  unfold State.desc
  split
  · exact Still.refl s
  · have hw := hubWords_still s ((s.part part).btbase + 32 * idx) 4
    generalize s.hubWords ((s.part part).btbase + 32 * idx) 4 = r at hw ⊢
    exact hw.trans (still_of_eq rfl rfl)

theorem lookup_kept (s : State) (pod part va : Nat) : Kept s (s.lookup pod part va).2 := by
  refine ⟨by simp, ?_⟩
  unfold State.lookup
  split
  · exact Still.refl s
  · split
    · exact still_of_eq rfl rfl
    · exact Still.refl s

theorem translateAll_kept (pod part : Nat) (vas : List Nat) : ∀ s : State, Kept s (s.translateAll pod part vas).2 := by
  induction vas with
  | nil => exact Kept.refl
  | cons va vas ih =>
    intro s
    have hone := lookup_kept s pod part va
    unfold State.translateAll
    dsimp only
    split
    · exact hone
    · split
      · exact hone.trans (ih _)
      · exact hone.trans (ih _)

theorem port_kept (s : State) (pod : Nat) (q : PortReq) : Kept s (s.port pod q).2 := by
  have hd := desc_kept s q.part q.idx
  have ht := hd.trans (translateAll_kept pod q.part (chunksOf (descBase (s.desc q.part q.idx).1 + q.off) q.len) _)
  unfold State.port
  split
  · exact Kept.refl s
  split
  · exact Kept.refl s
  split
  · exact Kept.refl s
  dsimp only
  iterate 4
    split
    · exact hd
  split
  · exact ht
  iterate 3
    split
    · exact ht
  split <;> exact ht

theorem startWalk_kept (s : State) (part va : Nat) (addr : Word) (core queue : Nat) (k : FaultKind) (pod : Nat)
    (quiet : Bool) : Kept s (s.startWalk part va addr core queue k pod quiet).2 := by
  refine ⟨by simp, ?_⟩
  unfold State.startWalk
  split <;> exact still_of_eq rfl rfl

/-! ## The fetch of a clause (R11) -/

theorem remoteSec_still (s : State) (a : Nat) : Still s (s.remoteSec a).2 := by
  unfold State.remoteSec
  split
  · exact Still.refl s
  · exact still_of_eq rfl rfl

/-- The hub reads at the home. -/
theorem readSec_hub_kept (s : State) (part a : Nat) (x : PageAttr) (ws : BitVec 8) :
    Kept s (s.readSec (Agent.hub part) a x true ws).2 := by
  refine ⟨by simp, ?_⟩
  unfold State.readSec Agent.hub
  dsimp only
  split
  · exact Still.refl s
  split
  · exact Still.refl s
  split
  · cases x.tag <;> exact remoteSec_still s _
  split
  · exact memRead_still s _
  · exact homeRead_still s _ _

theorem putBlock_kept (s : State) (t : Team) (a : Word) (ws : List W32) : Kept s (s.putBlock t a ws) :=
  ⟨modCore_scene s _ _ fun _ => rfl, still_of_eq rfl rfl⟩

theorem codeWord_kept (s : State) (t : Team) (a : Word) : Kept s (s.codeWord t a).2 := by
  unfold State.codeWord
  dsimp only
  generalize hq : PortReq.mk t.part t.id t.core (indexOf a) (offsetOf a) 4 4 .x .fetch .free false false = q
  have hp := port_kept s (podOf t.core) q
  split
  · exact hp
  · exact hp.trans (startWalk_kept _ _ _ _ _ _ _ _ _)
  · split
    · exact hp
    · split
      · exact hp.trans (putBlock_kept _ _ _ _)
      · split
        · exact hp
        · exact (hp.trans (readSec_hub_kept _ _ _ _ _)).trans (putBlock_kept _ _ _ _)
    · exact hp

theorem codeRun_kept (t : Team) (n : Nat) : ∀ (s : State) (a : Word), Kept s (s.codeRun t a n).2 := by
  induction n with
  | zero => exact fun s _ => Kept.refl s
  | succ n ih =>
    intro s a
    have hw := codeWord_kept s t a
    unfold State.codeRun
    dsimp only
    split
    · split
      · exact hw.trans (ih _ _)
      · exact hw.trans (ih _ _)
    · exact hw
    · exact hw
    · exact hw

theorem clauseAt_kept (s : State) (t : Team) (pc : Word) : Kept s (s.clauseAt t pc).2 := by
  have hw := codeWord_kept s t pc
  have hr := hw.trans (codeRun_kept t (Header.ofWord (match (s.codeWord t pc).1 with | .ok w => w | _ => 0)).n _
    (pc + 4))
  unfold State.clauseAt
  dsimp only
  generalize s.codeWord t pc = r at hw hr ⊢
  obtain ⟨x, s1⟩ := r
  cases x with
  | ok w =>
    dsimp only at hr ⊢
    split
    · exact hw
    · split
      · exact hr
      · exact hr
      · exact hr
      · split <;> exact hr
  | trap c k x => exact hw
  | walk n x => exact hw
  | away l x => exact hw

/-! ## The planning of a batch (R210, R259) -/

theorem planForm_kept (s : State) (v : View) (k : Nat) (m : MemForm) : Kept s (s.planForm v k m).2 := by
  unfold State.planForm
  split
  · exact Kept.refl s
  split
  · exact Kept.refl s
  split
  · split <;> exact Kept.refl s
  · dsimp only
    split <;> exact port_kept s _ _

theorem planScale_kept (s : State) (v : View) (f : EFmt) (l : Loc) (e : Nat) : Kept s (s.planScale v f l e).2 := by
  unfold State.planScale
  split
  · next a t =>
    have hl := lookup_kept s (podOf v.team.core) v.team.part (t.scaleVa f e)
    split
    · exact Kept.refl s
    · dsimp only
      split
      · exact hl
      · split
        · exact hl
        split
        · exact hl
        split <;> exact hl
  · exact Kept.refl s

theorem planElem_kept (s : State) (v : View) (k : Nat) (r : MemRef) (z : Sz) (f : EFmt) (whole write scaled : Bool) :
    Kept s (s.planElem v k r z f whole write scaled).2 := by
  unfold State.planElem
  split
  · exact Kept.refl s
  split
  · exact Kept.refl s
  dsimp only
  generalize Sz.bytes z * (if whole = true then EFmt.step f else 1) = n
  split
  · exact Kept.refl s
  · generalize View.req _ _ _ _ _ _ _ _ = q
    have hp := port_kept s (podOf v.team.core) q
    have hscale : ∀ l e, Kept s (if scaled = true then (s.port (podOf v.team.core) q).2.planScale v f l e
        else (.ok none, (s.port (podOf v.team.core) q).2)).2 := by
      intro l e
      split
      · exact hp.trans (planScale_kept _ _ _ _ _)
      · exact hp
    split
    · exact hp
    · exact hp
    · split <;> exact hscale _ _

theorem planLines_kept (s : State) (v : View) (k : Nat) (r : MemRef) (z : Sz) : Kept s (s.planLines v k r z).2 := by
  unfold State.planLines
  split
  · exact Kept.refl s
  split
  · exact Kept.refl s
  split
  · exact Kept.refl s
  · dsimp only
    split <;> exact port_kept s _ _

theorem planPrefetch_kept (s : State) (v : View) (k : Nat) (r : MemRef) (z : Sz) (rep : Bool) :
    Kept s (s.planPrefetch v k r z rep).2 := by
  unfold State.planPrefetch
  split
  · exact Kept.refl s
  split
  · exact Kept.refl s
  split
  · exact Kept.refl s
  · refine foldl_keeps (fun acc : List Loc × State => Kept s acc.2) _ ?_ _ _ (Kept.refl s)
    intro acc i hacc
    dsimp only
    generalize View.req _ _ _ _ _ _ _ _ = q
    have hp := Kept.trans hacc (port_kept acc.2 (podOf v.team.core) q)
    split
    · exact hp
    · exact hp
    · exact (hp.trans (startWalk_kept _ _ _ _ _ _ _ _ _)).trans ⟨by simp, still_of_eq rfl rfl⟩

theorem planAccess_kept (s : State) (v : View) (k : Nat) (i : Instr) : Kept s (s.planAccess v k i).2 := by
  unfold State.planAccess
  split
  · exact planElem_kept ..
  · exact planElem_kept ..
  · exact planElem_kept ..
  · exact planLines_kept ..
  · exact planLines_kept ..
  · exact planPrefetch_kept ..
  · split
    · exact planForm_kept ..
    · exact Kept.refl s

theorem planWord_kept (s : State) (v : View) (written : List (Fin 8)) (k : Nat) (i : Instr) :
    Kept s (s.planWord v written k i).2 := by
  have ha := planAccess_kept s v k i
  unfold State.planWord
  dsimp only
  split
  · exact ha
  · split
    · split
      · exact ha
      · exact Kept.refl s
    · exact Kept.refl s

theorem planFrom_kept (v : View) (is : List (Nat × Instr)) :
    ∀ (s : State) (written : List (Fin 8)), Kept s (s.planFrom v written is).2 := by
  induction is with
  | nil => exact fun s _ => Kept.refl s
  | cons x is ih =>
    obtain ⟨k, i⟩ := x
    intro s written
    have hw := planWord_kept s v written k i
    unfold State.planFrom
    dsimp only
    split
    · exact hw
    · exact hw.trans (startWalk_kept _ _ _ _ _ _ _ _ _)
    · exact hw.trans (ih _ _)
    · split
      · exact hw.trans (ih _ _)
      · exact hw.trans (ih _ _)

theorem planFibre_kept (s : State) (v : View) (is : List (Nat × Instr)) : Kept s (s.planFibre v is).2 :=
  planFrom_kept v is s []

theorem addrWalk_kept (v : View) (is : List (Nat × Instr)) (k : Nat) (l : List (Guard × Opnd × Nat × Right)) :
    ∀ s : State, Kept s (s.addrWalk v is k l).2 := by
  induction l with
  | nil => exact Kept.refl
  | cons x l ih =>
    obtain ⟨g, a, n, rt⟩ := x
    intro s
    unfold State.addrWalk
    dsimp only
    split
    · exact ih s
    · have hp := port_kept s (podOf v.team.core) (v.taskReq (v.rd a).v n n rt)
      split
      · exact hp.trans (startWalk_kept _ _ _ _ _ _ _ _ _)
      · exact hp.trans (ih _)

theorem slotWalk_kept (s : State) (v : View) (is : List (Nat × Instr)) (k : Nat) (i : Instr) :
    Kept s (s.slotWalk v is k i).2 := by
  -- the port as a name, which the kernel does not unfold
  obtain ⟨port, hport⟩ : ∃ port, port = State.port := ⟨_, rfl⟩
  have hp := port_kept
  rw [← hport] at hp
  unfold State.slotWalk
  rw [← hport]
  split
  · dsimp only
    split
    · exact Kept.refl s
    · split
      · exact (hp _ _ _).trans (startWalk_kept _ _ _ _ _ _ _ _ _)
      · exact hp _ _ _
  · exact Kept.refl s

theorem taskWalk_kept (v : View) (all is : List (Nat × Instr)) : ∀ s : State, Kept s (s.taskWalk v all is).2 := by
  induction is with
  | nil => exact Kept.refl
  | cons x is ih =>
    obtain ⟨k, i⟩ := x
    intro s
    have ha := addrWalk_kept v all k (Instr.taskAddrs i) s
    have hs := ha.trans (slotWalk_kept _ v all k i)
    unfold State.taskWalk
    dsimp only
    split
    · exact ha
    · split
      · exact hs
      · exact hs.trans (ih _)

/-- A batch of one that starts whole leaves its fibre as it was. -/
theorem planBatch_kept {s s3 : State} {r : ClauseRun} {c : Clause} {f : FibId} {plan : List Access}
    (h : s.planBatch r c [f] = ⟨[f], plan, s3⟩) : Kept s s3 := by
  unfold State.planBatch at h
  rw [List.foldl_cons, List.foldl_nil] at h
  dsimp only at h
  split at h
  · exact absurd (congrArg Batch.fibs h) (by simp)
  · next v hv =>
    split at h
    · have hp := planFibre_kept s v c.is
      split at h
      · obtain rfl := congrArg Batch.s h
        exact hp
      · exact absurd (congrArg Batch.fibs h) (by simp)
      · exact absurd (congrArg Batch.fibs h) (by simp)
    · have hw := taskWalk_kept v c.is c.is s
      split at h
      · split at h
        · obtain rfl := congrArg Batch.s h
          exact hw
        · exact absurd (congrArg Batch.fibs h) (by simp)
      · obtain rfl := congrArg Batch.s h
        exact Kept.refl s

end Sys2Proof.Machine
end

section
/-! SUPPORT. A batch of one fibre, alone in its package with nothing outstanding, as a clause starts for it (R108 to
R116): nothing of another fibre stands in its way. -/

namespace Sys2Proof.Machine

open Sys2Proof

/-! ## A lone fibre -/

/-- The package's only fibre, its team and its group, with nothing outstanding. -/
structure Lone (s : State) (f : FibId) (b : Fibre) (t : Team) : Prop where
  fibres : s.fibres = [b]
  fid : b.fid = f
  pend : s.pend = []
  team : s.team? f.team = some t
  grp : (s.grp? f.team f.grp).isSome = true

section

variable {s : State} {f : FibId} {b : Fibre} {t : Team}

theorem Lone.fib? (h : Lone s f b t) : s.fib? f = some b := by
  unfold State.fib?
  rw [h.fibres]
  simp [h.fid]

theorem Lone.teamId (h : Lone s f b t) : t.id = f.team := by
  have := List.find?_some h.team
  simpa using this

theorem Lone.grpFibres (h : Lone s f b t) : s.grpFibres f.team f.grp = [b] := by
  unfold State.grpFibres
  rw [h.fibres]
  simp [h.fid]

theorem Lone.view? (h : Lone s f b t) {r : ClauseRun} (hr : r.stopped = []) :
    ∃ v, s.view? r f = some v ∧ v.fib = b := by
  obtain ⟨g, hg⟩ := Option.isSome_iff_exists.mp h.grp
  unfold State.view?
  rw [h.fib?, hg, h.team]
  dsimp only
  rw [hr]
  exact ⟨_, rfl, rfl⟩

theorem Lone.of_scene {u : State} (h : Lone s f b t) (hu : u.scene = s.scene) : Lone u f b t where
  fibres := (congrArg Scene.fibres hu).trans h.fibres
  fid := h.fid
  pend := (congrArg Scene.pend hu).trans h.pend
  team := by
    have ht : u.teams = s.teams := congrArg Scene.teams hu
    unfold State.team?
    rw [ht]
    exact h.team
  grp := by
    have hg : u.groups = s.groups := congrArg Scene.groups hu
    unfold State.grp?
    rw [hg]
    exact h.grp

/-- With nothing outstanding, nothing holds back a release or a poll (R183). -/
theorem Lone.released (h : Lone s f b t) (v : View) (c : Clause) : s.released v c = true := by
  unfold State.released
  rw [h.pend]
  simp

theorem Lone.tileOf (h : Lone s f b t) : s.tileOf b = [b] ∨ s.tileOf b = [] := by
  unfold State.tileOf
  rw [h.fid, h.grpFibres, List.filter_cons, List.filter_nil]
  split
  · exact .inl rfl
  · exact .inr rfl

/-- Its tile is all there (R111). -/
theorem Lone.tileReady (h : Lone s f b t) {pc : Word} {c : Clause} (hb : b.arrivedAt pc c = true) {fs : List FibId}
    (hfs : fs.contains f = true) : s.tileReady t pc c fs b = true := by
  unfold State.tileReady
  have hfid : fs.contains b.fid = true := by rw [h.fid]; exact hfs
  rcases h.tileOf with htile | htile
  · have hmem : b.fid ∈ fs := by simpa using hfid
    simp [htile, hb, hmem]
  · simp [htile]

/-- No fibre of its batch is before it, or behind it. -/
theorem Lone.laneTurn (h : Lone s f b t) : s.laneTurn [f] f = true := by
  unfold State.laneTurn
  rw [h.fib?]
  dsimp only
  rw [h.grpFibres]
  simp [h.fid]

theorem Lone.oneExec (h : Lone s f b t) (hb : b.member = true) : s.oneExec [f] = true := by
  unfold State.oneExec
  simp [h.fib?, hb]

theorem Lone.not_outranked (h : Lone s f b t) (core unit : Nat) (rank : List Nat) :
    s.outranked core unit [f] rank = false := by
  unfold State.outranked
  rw [h.fibres]
  simp [h.fid]

theorem batchOk_one (s : State) {b : Fibre} (hb : b.stands = true) : s.batchOk [b] = true := by
  unfold State.batchOk
  simp [hb]

/-- A fibre that is of no execution may begin one. -/
theorem Lone.mayJoin (h : Lone s f b t) {c : Clause} (hm : b.member = false) (hb : b.arrivedAt b.pc c = true) :
    s.mayJoin t c b = true := by
  have hopen : s.execOpen f.team f.grp b.exec = false := by
    unfold State.execOpen
    rw [h.grpFibres]
    simp [Fibre.owes, hm]
  have hfree : s.atLiberty t c b = true := by
    unfold State.atLiberty
    rw [h.fid, hopen]
    obtain ⟨v, hv, -⟩ := h.view?
      (r := { (default : ClauseRun) with team := t.id, core := t.core, hdr := b.pc, fibs := [f] }) rfl
    dsimp only
    rw [hv]
    exact h.released v c
  unfold State.mayJoin
  rw [h.fid, h.grpFibres, List.filter_cons, List.filter_nil, hb, if_pos rfl]
  dsimp only
  rw [Bool.true_and]
  split
  · rw [h.tileReady hb (by simp [h.fid])]
    rcases h.tileOf with htile | htile <;> simp [htile, hb, hfree]
  · exact hfree

end

/-! ## It forms an execution (R29, R109) -/

/-- What of the scene is no fibre's and no group's. -/
def State.stage (s : State) : Scene := { s.scene with fibres := [], groups := [] }

theorem stage_of_scene {s u : State} (h : u.scene = s.scene) : u.stage = s.stage := by
  unfold State.stage
  rw [h]

/-- What the matrix engine's room depends on. -/
theorem mtxRoom_stage {s u : State} (h : u.stage = s.stage) (t : Team) (c : Clause) (n : Nat) :
    u.mtxRoom t c n = s.mtxRoom t c n := by
  have hrun : u.running = s.running := congrArg Scene.running h
  have hteams : u.teams = s.teams := congrArg Scene.teams h
  have hclutches : u.clutches = s.clutches := congrArg Scene.clutches h
  have hmtx : (u.core t.core).mtx = (s.core t.core).mtx := congrFun (congrArg Scene.mtxs h) t.core
  unfold State.mtxRoom State.arrivalsUnder State.completions State.decCtx State.teamPriv State.team? State.clutch?
  rw [hrun, hteams, hclutches, hmtx]

theorem unitFor_stage {s u : State} (h : u.stage = s.stage) (core cls : Nat) :
    u.unitFor core cls = s.unitFor core cls := by
  have hrun : u.running = s.running := congrArg Scene.running h
  unfold State.unitFor unitUsed
  rw [hrun]

/-- What joining an execution leaves. -/
structure Joined (s u : State) (b c : Fibre) : Prop where
  stage : u.stage = s.stage
  still : Still s u
  fibre : c = { b with exec := c.exec, member := true, tiled := c.tiled }

theorem Joined.arrivedAt {s u : State} {b c : Fibre} (h : Joined s u b c) {pc : Word} {k : Clause}
    (hb : b.arrivedAt pc k = true) : c.arrivedAt pc k = true := by
  rw [h.fibre]
  exact hb

theorem modGrp_grp?_isSome (s : State) (a b a' b' : Nat) (g : Group → Group)
    (hg : ∀ x, (g x).team = x.team ∧ (g x).grp = x.grp) :
    ((s.modGrp a b g).grp? a' b').isSome = (s.grp? a' b').isSome := by
  rw [modGrp_grp? s a b a' b' g hg]
  split
  · exact Option.isSome_map
  · rfl

theorem joinExec_lone {s : State} {f : FibId} {b : Fibre} {t : Team} (h : Lone s f b t) {c : Clause}
    (hb : b.arrivedAt b.pc c = true) :
    ∃ b', Lone (s.joinExec t f.grp b.pc c [f]) f b' t ∧ Joined s (s.joinExec t f.grp b.pc c [f]) b b' := by
  have hgrp := h.grpFibres
  rw [← h.teamId] at hgrp
  unfold State.joinExec
  rw [hgrp]
  by_cases hm : b.member = true
  · have hany : (([b].filter fun x => [f].contains x.fid).any (·.member)) = true := by simp [h.fid, hm]
    dsimp only
    rw [if_pos hany]
    exact ⟨b, h, ⟨rfl, Still.refl s, by cases b; simp_all⟩⟩
  · have hm' : b.member = false := by simpa using hm
    have hany : ¬ (([b].filter fun x => [f].contains x.fid).any (·.member)) = true := by simp [h.fid, hm']
    have hjoin : s.joiners t f.grp b.pc c = [b] := by
      unfold State.joiners
      rw [hgrp, List.filter_cons, List.filter_nil, h.mayJoin hm' hb]
      simp
    dsimp only
    rw [if_neg hany, hjoin]
    refine ⟨{ b with exec := s.fresh, member := true, tiled := c.collective }, ⟨?_, h.fid, h.pend, h.team, ?_⟩,
      ⟨?_, still_of_eq rfl rfl, rfl⟩⟩
    · simp [State.modGrp, State.modFibs, State.newId, h.fibres]
    · refine Eq.trans (modGrp_grp?_isSome _ _ _ _ _ _ ?_) h.grp
      exact fun _ => ⟨rfl, rfl⟩
    · rfl

end Sys2Proof.Machine
end

section
/-! SUPPORT. CLAUSE_START and REGION_SPLIT for a batch of one fibre (R12, R16, R369), and its header's trap (R312). -/

namespace Sys2Proof.Machine

open Sys2Proof

theorem start_trap {s s1 : State} {f : FibId} {b : Fibre} {t : Team} (h : Lone s f b t) (hb : b.stands = true)
    (hi : s.teamIssues t = true) {code k : Nat} {addr : Word} (hc : s.clauseAt t b.pc = (.trap code k addr, s1))
    (pipe : Nat) (split : Bool) :
    s.start [f] pipe split = (s1.headerTrap f b.pc (b.pc + 4) code k addr).leaveExec t.core f b.pc := by
  have hfs : [f].filterMap s.fib? = [b] := by simp [h.fib?]
  have hteam : s.team? b.fid.team = some t := by rw [h.fid]; exact h.team
  unfold State.start
  rw [List.foldl_cons, List.foldl_nil, insFib]
  dsimp only
  rw [hfs]
  dsimp only
  rw [hteam]
  dsimp only
  rw [batchOk_one s hb, hi, hc]
  simp [State.start.leave, h.fid]

/-- A clause that may start for a lone fibre starts. -/
theorem start_begin {s s1 s3 : State} {f : FibId} {b : Fibre} {t : Team} (h : Lone s f b t) (hb : b.stands = true)
    (hi : s.teamIssues t = true) {c : Clause} (hc : s.clauseAt t b.pc = (.ok c, s1)) {pipe : Nat} {split : Bool}
    (hunit : s.unitFor t.core c.h.cls = some pipe) (hwait : b.waited c.h.wait = true) (hroom : b.room c = true)
    (hmtx : s.mtxRoom t c 1 = true) (hsplit : split = true → s.pointReady t = true) {plan : List Access}
    (hplan : (s1.oneRun f t b.pc c pipe split).2.planBatch (s1.oneRun f t b.pc c pipe split).1 c [f] = ⟨[f], plan, s3⟩)
    (hneeds : (t.rOpen && s3.needsSplit t c ([f].filterMap (s3.view? (s1.oneRun f t b.pc c pipe split).1)) plan)
      = split) :
    s.start [f] pipe split = (if split then s3.commit t.id else s3).begin t (s1.oneRun f t b.pc c pipe split).1 c
      ⟨[f], plan, s3⟩ := by
  have hfs : [f].filterMap s.fib? = [b] := by simp [h.fib?]
  have hteam : s.team? b.fid.team = some t := by rw [h.fid]; exact h.team
  have hscene : s1.scene = s.scene := by
    have := (clauseAt_kept s t b.pc).scene
    rw [hc] at this
    exact this
  have harr : b.arrivedAt b.pc c = true := by unfold Fibre.arrivedAt; simp [hb, hwait]
  obtain ⟨b', hl', hjoin⟩ := joinExec_lone (h.of_scene hscene) harr
  have hstage : (s1.joinExec t f.grp b.pc c [f]).stage = s.stage := hjoin.stage.trans (stage_of_scene hscene)
  have hunit' : (s1.joinExec t f.grp b.pc c [f]).unitFor t.core c.h.cls = some pipe := by
    rw [unitFor_stage hstage]; exact hunit
  have hfs' : [f].filterMap (s1.joinExec t f.grp b.pc c [f]).fib? = [b'] := by simp [hl'.fib?]
  have hl2 : Lone (s1.joinExec t f.grp b.pc c [f]).newId.2 f b' t := hl'.of_scene (by simp)
  have hmtx' : (s1.joinExec t f.grp b.pc c [f]).newId.2.mtxRoom t c 1 = true := by
    rw [mtxRoom_stage (s := s) ((stage_of_scene (by simp)).trans hstage)]; exact hmtx
  have hwait' : b'.waited c.h.wait = true := by rw [hjoin.fibre]; exact hwait
  have hroom' : b'.room c = true := by rw [hjoin.fibre]; exact hroom
  have hmem' : b'.member = true := by rw [hjoin.fibre]
  have harr' := hjoin.arrivedAt harr
  unfold State.start
  rw [List.foldl_cons, List.foldl_nil, insFib]
  dsimp only
  rw [hfs]
  dsimp only
  rw [hteam]
  dsimp only
  rw [batchOk_one s hb, hi, hc]
  simp only [List.length_singleton, decide_true, Bool.and_self, Bool.not_true, Bool.false_eq_true, if_false]
  rw [show grpsOf [f] = [f.grp] from rfl, List.foldl_cons, List.foldl_nil, hunit']
  dsimp only
  rw [hfs']
  set r := (s1.oneRun f t b.pc c pipe split).1 with hr
  set s2 := (s1.joinExec t f.grp b.pc c [f]).newId.2 with hs2
  rw [show ClauseRun.mk (s1.joinExec t f.grp b.pc c [f]).fresh t.id t.core pipe b.pc c.h.cls c.words 0 15 15
    c.h.yield [f] [] [] [] [] [] split = r from rfl]
  have hviews : ([f].filterMap fun x => s2.view? r x).all (fun v => s2.released v c) = true :=
    List.all_eq_true.mpr fun v _ => hl2.released v c
  have hok : (pipe == pipe && s2.oneExec [f] && [b'].all (fun x => x.waited c.h.wait && x.room c)
      && (!c.ordered || [f].all (s2.laneTurn [f])) && (!c.collective || [b'].all fun x => s2.tileReady t b.pc c [f] x)
      && ([f].filterMap fun x => s2.view? r x).all (fun v => s2.released v c) && s2.mtxRoom t c 1
      && !s2.outranked t.core pipe [f] (s2.batchRank t [b'])) = true := by
    rw [hviews, hl2.oneExec hmem', hmtx', hl2.not_outranked]
    simp [hwait', hroom', hl2.laneTurn, hl2.tileReady harr' (fs := [f]) (by simp)]
  rw [hok]
  simp only [Bool.not_true, Bool.false_eq_true, if_false]
  change s2.planBatch r c [f] = ⟨[f], plan, s3⟩ at hplan
  rw [hplan]
  dsimp only
  have hneeds' : (t.rOpen && s3.needsSplit t c ([f].filterMap fun x => s3.view? r x) plan) = split := hneeds
  rw [hneeds']
  have hready : (split && !s.pointReady t) = false := by
    cases split with
    | false => rfl
    | true => simp [hsplit rfl]
  rw [hready]
  simp [State.start.leave]

/-! ## The region is closed first (R200, R369) -/

theorem commitSector_kept (s : State) (pod : Nat) (c : Sector) : Kept s (s.commitSector pod c) :=
  ⟨modPod_scene s _ _ fun _ => rfl, still_of_eq rfl rfl⟩

/-- The team's region is closed, its fibres' checks are done, and nothing else of the scene changes. -/
theorem commit_lone {s : State} {f : FibId} {b : Fibre} {t : Team} (h : Lone s f b t) :
    ∃ w : State, Kept (s.clean t.id) w ∧ (s.commit t.id = if t.rOpen then
      w.modTeam t.id fun t => { t with rOpen := false, rbuf := [] } else s) := by
  have hteam : s.team? t.id = some t := by rw [h.teamId]; exact h.team
  refine ⟨_, foldl_kept (fun s c => commitSector_kept s (podOf t.core) c) t.rbuf _, ?_⟩
  unfold State.commit
  rw [hteam]

/-- What the start of a clause has of its fibre, whatever was checked of it since. -/
structure Begun (s u : State) (f : FibId) (b : Fibre) : Prop where
  running : u.running = s.running
  clock : u.clock = s.clock
  still : Still s u
  fibres : ∃ l, u.fibres = [{ b with unproven := l }]

theorem begun_commit {s : State} {f : FibId} {b : Fibre} {t : Team} (h : Lone s f b t) :
    Begun s (s.commit t.id) f b := by
  obtain ⟨w, ⟨hscene, hstill⟩, hcommit⟩ := commit_lone h
  rw [hcommit]
  split
  · have hrun : w.running = s.running := (congrArg Scene.running hscene : w.running = (s.clean t.id).running)
    have hclock : w.clock = s.clock := (congrArg Scene.clock hscene : w.clock = (s.clean t.id).clock)
    have hfib : w.fibres = (s.clean t.id).fibres := congrArg Scene.fibres hscene
    refine ⟨hrun, hclock, ((still_of_eq rfl rfl : Still s (s.clean t.id)).trans hstill).trans (still_of_eq rfl rfl),
      [], ?_⟩
    refine hfib.trans ?_
    unfold State.clean State.modFibs State.modTeam
    simp [h.fibres, h.fid, h.teamId]
  · exact ⟨rfl, rfl, Still.refl s, b.unproven, h.fibres⟩

theorem commit_closes {s : State} {f : FibId} {b : Fibre} {t : Team} (h : Lone s f b t) (ho : t.rOpen = true) :
    ((s.commit t.id).team? t.id).map (·.rOpen) = some false := by
  obtain ⟨w, ⟨hscene, -⟩, hcommit⟩ := commit_lone h
  have hteam : s.team? t.id = some t := by rw [h.teamId]; exact h.team
  have hteams : w.teams = (s.clean t.id).teams := congrArg Scene.teams hscene
  have hw : w.team? t.id = some { t with unproven := [], past := [] } := by
    unfold State.team?
    rw [hteams]
    refine (State.team?_modTeam _ t.id (fun t => { t with unproven := [], past := [] }) (fun _ => rfl) t.id).trans ?_
    have hclean : ∀ k, State.team? { s.modFibs (fun f => f.fid.team == t.id) fun f => { f with unproven := [] } with
        groups := s.groups.map fun g => if g.team == t.id then { g with unproven := [] } else g } k = s.team? k :=
          fun _ => rfl
    refine (congrArg _ (hclean t.id)).trans ?_
    rw [hteam]
    simp
  rw [hcommit, if_pos ho]
  rw [State.team?_modTeam w t.id (fun t => { t with rOpen := false, rbuf := [] }) fun _ => rfl, hw]
  simp

/-! ## The fibre's own part (R12, R16) -/

/-- The fibre as its clause's start leaves it. -/
def Fibre.begun (b : Fibre) (c : Clause) (now : Nat) : Fibre :=
  { b with busy := true, t := [], lastStart := now, starved := false, yielded := false,
           flags := (List.range 12).foldl (fun m k => m.mod k (· + c.adds k)) b.flags }

/-- Each flag has risen by what the clause adds to it. -/
theorem begun_flags (b : Fibre) (c : Clause) (now k : Nat) (hk : k < 12) :
    NMap.get (b.begun c now).flags k = NMap.get b.flags k + c.adds k := by
  have hfold : ∀ (n : Nat) (m : NMap Nat), NMap.get ((List.range n).foldl (fun m k => m.mod k (· + c.adds k)) m) k
      = NMap.get m k + if k < n then c.adds k else 0 := by
    intro n
    induction n with
    | zero => intro m; simp
    | succ n ih =>
      intro m
      rw [List.range_succ, List.foldl_append, List.foldl_cons, List.foldl_nil, NMap.mod, NMap.get_set, ih]
      by_cases hkn : k = n
      · subst hkn
        simp [ih]
      · rw [if_neg hkn]
        congr 1
        by_cases hlt : k < n
        · rw [if_pos hlt, if_pos (by omega)]
        · rw [if_neg hlt, if_neg (by omega)]
  exact (hfold 12 b.flags).trans (by rw [if_pos hk])

/-- The clause as it starts running. -/
def ClauseRun.begun (r : ClauseRun) (c : Clause) (b : Batch) : ClauseRun :=
  { r with fibs := b.fibs, plan := b.plan,
           seta := if c.is.any (fun i => Instr.loadTracked i.2) then c.h.seta else 15,
           setb := if c.is.any (fun i => Instr.storeTracked i.2) then c.h.setb else 15 }

theorem begin_running (s : State) (t : Team) (r : ClauseRun) (c : Clause) (b : Batch) :
    (s.begin t r c b).running = s.running ++ [r.begun c b] := rfl

theorem begin_mem (s : State) (t : Team) (r : ClauseRun) (c : Clause) (b : Batch) : (s.begin t r c b).mem = s.mem := rfl

theorem begin_rOpen (s : State) (t : Team) (r : ClauseRun) (c : Clause) (b : Batch) (k : Nat) :
    ((s.begin t r c b).team? k).map (·.rOpen) = (s.team? k).map (·.rOpen) := by
  have hteams : (s.begin t r c b).teams = (s.modTeam t.id fun t =>
    { t with idle := 0, idleActed := false }).teams := rfl
  unfold State.team?
  rw [hteams]
  refine (congrArg _ (State.team?_modTeam s t.id (fun t => { t with idle := 0, idleActed := false })
    (fun _ => rfl) k)).trans ?_
  unfold State.team?
  cases s.teams.find? (fun x => x.id == k) with
  | none => rfl
  | some x =>
    simp only [Option.map_some]
    split <;> rfl

theorem begin_fib? {s : State} {f : FibId} {b : Fibre} (hs : s.fibres = [b]) (hb : b.fid = f) (t : Team) (r : ClauseRun)
    (c : Clause) (plan : List Access) (s3 : State) :
    (s.begin t r c ⟨[f], plan, s3⟩).fib? f = some (b.begun c s.clock) := by
  have hfib : ∃ y, (s.begin t r c ⟨[f], plan, s3⟩).fibres = [Fibre.begun { b with yielded := y } c s.clock] := by
    unfold State.begin
    simp only [State.modFibs, State.modTeam, hs, List.map_cons, List.map_nil]
    split
    · exact ⟨false, by simp [Fibre.begun, hb]⟩
    · exact ⟨b.yielded, by simp [Fibre.begun, hb]⟩
  obtain ⟨y, hy⟩ := hfib
  unfold State.fib?
  rw [hy, List.find?_cons_of_pos]
  · rfl
  · simp [Fibre.begun, hb]

end Sys2Proof.Machine
end

section
/-! SUPPORT. O30's clauses on a clause's start: the fibre and the clause as they begin, or the trap at the header. -/

namespace Sys2Proof.Machine

open Sys2Proof

/-- The fibre, out of its execution. -/
def Fibre.loose (b : Fibre) : Fibre := { b with exec := 0, member := false }

/-- A lone fibre leaves its execution, which is then forgotten. -/
theorem leaveExec_lone {s : State} {f : FibId} {b : Fibre} (hs : s.fibres = [b]) (hb : b.fid = f) (core : Nat)
    (next : Word) :
    (s.leaveExec core f next).fibres = [b.loose] ∧ (s.leaveExec core f next).running = s.running := by
  have hfib : s.fib? f = some b := by
    unfold State.fib?
    rw [hs]
    simp [hb]
  set w := (s.modFib f fun x => { x with exec := 0, member := false }).loosen f with hw
  have hwf : w.fibres = [b.loose] := by
    rw [hw]
    unfold State.loosen State.modFibs State.modFib
    simp [hs, hb, Fibre.loose]
  have hgrp : w.grpFibres f.team f.grp = [b.loose] := by
    unfold State.grpFibres
    rw [hwf]
    simp [Fibre.loose, hb]
  unfold State.leaveExec
  rw [hfib]
  dsimp only
  rw [← hw]
  unfold State.closeExec
  split
  · exact ⟨hwf, rfl⟩
  · next hopen =>
    have hne : ¬ (0 : Nat) = b.exec := fun h => hopen (by simp [← h])
    have hmine : (w.grpFibres f.team f.grp).filter (fun x => x.exec == b.exec) = [] := by
      rw [hgrp]
      simp [Fibre.loose, hne]
    rw [hmine]
    refine ⟨?_, rfl⟩
    simp [State.parkAll, State.modFibs, hwf, Fibre.loose, hne]

/-- What stops the clause becomes the fibre's trap at its header (R312, R384). -/
theorem start_traps {s s1 : State} {f : FibId} {b : Fibre} {t : Team} (h : Lone s f b t) (hb : b.stands = true)
    (hi : s.teamIssues t = true) {code k : Nat} {addr : Word} (hc : s.clauseAt t b.pc = (.trap code k addr, s1))
    (pipe : Nat) (split : Bool) :
    (s.start [f] pipe split).fib? f = some (b.noteTrap ⟨code, k, 0, addr, b.pc, b.pc + 4, false, none⟩).loose
      ∧ (s.start [f] pipe split).running = s.running := by
  have hscene : s1.scene = s.scene := by
    have hk := (clauseAt_kept s t b.pc).scene
    rw [hc] at hk
    exact hk
  have h1 := h.of_scene hscene
  set rec : TrapRec := ⟨code, k, 0, addr, b.pc, b.pc + 4, false, none⟩ with hrec
  have hfid : (b.noteTrap rec).fid = f := by
    rw [← h.fid]
    unfold Fibre.noteTrap
    split
    · rfl
    · split <;> rfl
  have hfibres : (s1.headerTrap f b.pc (b.pc + 4) code k addr).fibres = [b.noteTrap rec] := by
    unfold State.headerTrap State.modFib
    simp [h1.fibres, h.fid, hrec]
  obtain ⟨hleft, hrun⟩ := leaveExec_lone hfibres hfid t.core b.pc
  rw [start_trap h hb hi hc pipe split]
  constructor
  · unfold State.fib?
    rw [hleft, List.find?_cons_of_pos]
    have hloose : (b.noteTrap rec).loose.fid = f := hfid
    rw [hloose]
    exact beq_self_eq_true f
  · exact hrun.trans (congrArg Scene.running hscene)

/-- The first part of O30: what a lone fibre's clause leaves at its start. -/
theorem clause_starts (f : FibId) (pipe : Nat) (split : Bool) (s s1 s3 : State) (b : Fibre) (t : Team)
    (hfibres : s.fibres = [b]) (hfid : b.fid = f) (hpend : s.pend = []) (hteam : s.team? f.team = some t)
    (hgrp : (s.grp? f.team f.grp).isSome = true)
    (hb : b.stands = true) (hi : s.teamIssues t = true) (c : Clause) (plan : List Access)
    (hc : s.clauseAt t b.pc = (.ok c, s1)) (hunit : s.unitFor t.core c.h.cls = some pipe)
    (hwait : b.waited c.h.wait = true) (hroom : b.room c = true) (hmtx : s.mtxRoom t c 1 = true)
    (hsplit : split = true → s.pointReady t = true)
    (hplan : (s1.oneRun f t b.pc c pipe split).2.planBatch (s1.oneRun f t b.pc c pipe split).1 c [f] = ⟨[f], plan, s3⟩)
    (hneeds : (t.rOpen && s3.needsSplit t c ([f].filterMap (s3.view? (s1.oneRun f t b.pc c pipe split).1)) plan)
      = split) :
    ∃ (u : State) (r : ClauseRun) (x : Fibre),
      exec (if split then .regionSplit [f] pipe else .clauseStart [f] pipe) s = .next u
      ∧ u.running = s.running ++ [r] ∧ r.hdr = b.pc ∧ r.words = c.words ∧ r.cls = c.h.cls ∧ r.fibs = [f] ∧ r.pos = 0
      ∧ r.unit = pipe ∧ r.core = t.core ∧ r.branch = [] ∧ r.exits = [] ∧ r.plan = plan ∧ r.split = split
      ∧ u.fib? f = some x ∧ x.busy = true ∧ x.t = [] ∧ x.pc = b.pc ∧ x.x = b.x ∧ x.preds = b.preds
      ∧ x.lastStart = s.clock
      ∧ (∀ k, k < 12 → NMap.get x.flags k = NMap.get b.flags k + c.adds k) ∧ (s.fillWait = [] → u.mem = s.mem)
      ∧ (split = true → (u.team? t.id).map (·.rOpen) = some false) := by
  have h : Lone s f b t := ⟨hfibres, hfid, hpend, hteam, hgrp⟩
  have hfetch : Kept s s1 := by
    have hk := clauseAt_kept s t b.pc
    rw [hc] at hk
    exact hk
  have harr : b.arrivedAt b.pc c = true := by unfold Fibre.arrivedAt; simp [hb, hwait]
  obtain ⟨b', hl', hjoin⟩ := joinExec_lone (h.of_scene hfetch.scene) harr
  have hnew : Kept (s1.joinExec t f.grp b.pc c [f]) (s1.joinExec t f.grp b.pc c [f]).newId.2 :=
    ⟨by simp, still_of_eq rfl rfl⟩
  have hplanned : Kept (s1.joinExec t f.grp b.pc c [f]) s3 := hnew.trans (planBatch_kept hplan)
  have hl3 : Lone s3 f b' t := hl'.of_scene hplanned.scene
  have hstage : s3.stage = s.stage :=
    (stage_of_scene hplanned.scene).trans (hjoin.stage.trans (stage_of_scene hfetch.scene))
  have hstill : Still s s3 := (hfetch.still.trans hjoin.still).trans hplanned.still
  -- the state that the clause begins in
  obtain ⟨w, hw, ⟨hrun, hclock, hstillw, l, hwf⟩, hopen⟩ : ∃ w, (if split then s3.commit t.id else s3) = w
      ∧ Begun s3 w f b' ∧ (split = true → (w.team? t.id).map (·.rOpen) = some false) := by
    cases split with
    | false => exact ⟨s3, rfl, ⟨rfl, rfl, Still.refl s3, b'.unproven, hl3.fibres⟩, fun h => absurd h (by simp)⟩
    | true =>
      have ho : t.rOpen = true := by
        rw [Bool.and_eq_true] at hneeds
        exact hneeds.1
      exact ⟨_, rfl, begun_commit hl3, fun _ => commit_closes hl3 ho⟩
  have hstart := start_begin h hb hi hc hunit hwait hroom hmtx hsplit hplan hneeds
  rw [hw] at hstart
  have hexec : exec (if split then .regionSplit [f] pipe else .clauseStart [f] pipe) s
      = .next (s.start [f] pipe split) := by
    cases split <;> rfl
  have hclock3 : s3.clock = s.clock := congrArg Scene.clock hstage
  have hrun3 : s3.running = s.running := congrArg Scene.running hstage
  rw [hexec, hstart]
  refine ⟨_, (s1.oneRun f t b.pc c pipe split).1.begun c ⟨[f], plan, s3⟩, _, rfl, ?_, rfl, rfl, rfl, rfl, rfl, rfl,
    rfl, rfl, rfl, rfl, rfl,
    begin_fib? hwf hl3.fid t _ c plan s3, rfl, rfl, ?_, ?_, ?_, ?_, ?_, ?_, ?_⟩
  · rw [begin_running, hrun, hrun3]
  · rw [hjoin.fibre]; rfl
  · rw [hjoin.fibre]; rfl
  · rw [hjoin.fibre]; rfl
  · exact hclock.trans hclock3
  · intro k hk
    rw [begun_flags _ _ _ _ hk, hjoin.fibre]
  · intro hfill
    rw [begin_mem]
    exact ((hstill.trans hstillw).kept hfill).1
  · intro hs
    rw [begin_rOpen]
    exact hopen hs

end Sys2Proof.Machine
end

section
/-! SUPPORT. Starvation and the path pool (R116, R118, R119, log 193), and O30. -/

namespace Sys2Proof.Machine

open Sys2Proof

/-! ## The longest of several -/

/-- The one that has its entry longest, of those met and one more. -/
def older (b : Option Fibre) (f : Fibre) : Option Fibre :=
  match b with
  | none => some f
  | some g => if f.entryAt < g.entryAt then some f else some g

theorem foldl_older_some (l : List Fibre) : ∀ g : Fibre, ∃ x, l.foldl older (some g) = some x ∧ (x = g ∨ x ∈ l)
    ∧ x.entryAt ≤ g.entryAt ∧ ∀ y ∈ l, x.entryAt ≤ y.entryAt := by
  induction l with
  | nil => exact fun g => ⟨g, rfl, .inl rfl, le_refl _, by simp⟩
  | cons f l ih =>
    intro g
    by_cases hlt : f.entryAt < g.entryAt
    · obtain ⟨x, hx, hmem, hle, hall⟩ := ih f
      refine ⟨x, ?_, .inr ?_, by omega, ?_⟩
      · rw [List.foldl_cons, older, if_pos hlt, hx]
      · rcases hmem with rfl | hmem <;> simp [*]
      · intro y hy
        rcases List.mem_cons.mp hy with rfl | hy
        · exact hle
        · exact hall y hy
    · obtain ⟨x, hx, hmem, hle, hall⟩ := ih g
      refine ⟨x, ?_, ?_, hle, ?_⟩
      · rw [List.foldl_cons, older, if_neg hlt, hx]
      · rcases hmem with rfl | hmem
        · exact .inl rfl
        · exact .inr (List.mem_cons_of_mem _ hmem)
      · intro y hy
        rcases List.mem_cons.mp hy with rfl | hy
        · omega
        · exact hall y hy

/-- Of some fibres one has its entry longest. -/
theorem foldl_older_min {l : List Fibre} {b : Fibre} (hb : b ∈ l) :
    ∃ x ∈ l, l.foldl older none = some x ∧ ∀ y ∈ l, x.entryAt ≤ y.entryAt := by
  cases l with
  | nil => exact absurd hb (by simp)
  | cons f l =>
    obtain ⟨x, hx, hmem, hle, hall⟩ := foldl_older_some l f
    refine ⟨x, ?_, hx, ?_⟩
    · rcases hmem with rfl | hmem <;> simp [*]
    · intro y hy
      rcases List.mem_cons.mp hy with rfl | hy
      · exact hle
      · exact hall y hy

theorem longestParked_eq (s : State) (core : Nat) : s.longestParked core
    = (s.fibres.filter fun f => f.parked && (match s.team? f.fid.team with
        | some t => t.core == core && t.phase == .resident | none => false)).foldl older none := rfl

/-- A core with a parked fibre has one that has been parked longest. -/
theorem longestParked_min {s : State} {core : Nat} {b : Fibre} {t : Team} (hb : b ∈ s.fibres) (hp : b.parked = true)
    (ht : s.team? b.fid.team = some t) (hc : t.core = core) (hr : t.phase = .resident) :
    ∃ x ∈ s.fibres, s.longestParked core = some x ∧ x.parked = true ∧ x.entryAt ≤ b.entryAt := by
  rw [longestParked_eq]
  generalize hp' : (fun f : Fibre => f.parked && (match s.team? f.fid.team with
    | some t => t.core == core && t.phase == .resident | none => false)) = p
  have hpb : p b = true := by rw [← hp']; simp [hp, ht, hc, hr]
  obtain ⟨x, hx, he, hmin⟩ := foldl_older_min (List.mem_filter.mpr ⟨hb, hpb⟩)
  obtain ⟨hmem, hpx⟩ := List.mem_filter.mp hx
  refine ⟨x, hmem, he, ?_, hmin b (List.mem_filter.mpr ⟨hb, hpb⟩)⟩
  rw [← hp'] at hpx
  rw [Bool.and_eq_true] at hpx
  exact hpx.1

/-! ## Fibres changed together -/

theorem modFibs_fib? (s : State) (p : Fibre → Bool) (g : Fibre → Fibre) (hg : ∀ b, (g b).fid = b.fid) (f : FibId) :
    (s.modFibs p g).fib? f = (s.fib? f).map fun b => if p b then g b else b := by
  unfold State.modFibs State.fib?
  dsimp only
  rw [List.find?_map]
  congr 2
  funext b
  simp only [Function.comp_apply]
  split <;> simp [hg]

theorem starvation (fs : List FibId) (s : State) (h : ∀ f ∈ fs, ∃ b t, s.fib? f = some b ∧ s.team? f.team = some t
      ∧ b.lastStart + 4096 ≤ s.clock ∧ (s.readyAt t b).isSome = true) :
    ∃ t : State, exec (.issueStarvation fs) s = .next t ∧ { t with fibres := [] } = { s with fibres := [] }
      ∧ ∀ f, t.fib? f = (s.fib? f).map fun b => if fs.contains f then { b with starved := true } else b := by
  have hold : (fs.all fun f => match s.fib? f with
      | some b => decide (b.lastStart + 4096 ≤ s.clock) && (match s.team? f.team with
          | some t => (s.readyAt t b).isSome | none => false)
      | none => false) = true := by
    rw [List.all_eq_true]
    intro f hf
    obtain ⟨b, t, hb, ht, hclock, hready⟩ := h f hf
    rw [hb]
    dsimp only
    rw [ht]
    simp [hclock, hready]
  have hexec : exec (.issueStarvation fs) s
      = .next (s.modFibs (fun f => fs.contains f.fid) fun f => { f with starved := true }) :=
    congrArg Host.Outcome.next (if_pos hold)
  refine ⟨_, hexec, rfl, fun f => ?_⟩
  rw [modFibs_fib? s (fun f => fs.contains f.fid) (fun f => { f with starved := true }) fun _ => rfl]
  cases hf : s.fib? f with
  | none => rfl
  | some b =>
    have hfid : b.fid = f := by simpa using List.find?_some hf
    rw [Option.map_some, Option.map_some, hfid]

/-! ## Unparking (R118) -/

theorem loosen_loose (s : State) (f : FibId) : (s.loosen f).fibres.map Fibre.loose = s.fibres.map Fibre.loose
    ∧ { s.loosen f with fibres := [] } = { s with fibres := [] } := by
  refine ⟨?_, rfl⟩
  unfold State.loosen State.modFibs
  dsimp only
  rw [List.map_map]
  apply List.map_congr_left
  intro b _
  simp only [Function.comp_apply]
  split <;> rfl

theorem foldl_loosen_loose (l : List FibId) : ∀ s : State,
    (l.foldl State.loosen s).fibres.map Fibre.loose = s.fibres.map Fibre.loose
      ∧ { l.foldl State.loosen s with fibres := [] } = { s with fibres := [] } := by
  induction l with
  | nil => exact fun _ => ⟨rfl, rfl⟩
  | cons f l ih =>
    intro s
    obtain ⟨h1, h2⟩ := ih (s.loosen f)
    obtain ⟨h3, h4⟩ := loosen_loose s f
    exact ⟨h1.trans h3, h2.trans h4⟩

/-- A parked fibre of the set that stands at a header of a group. -/
def Fibre.ofSet (team grp : Nat) (pc : Word) (x : Fibre) : Bool :=
  x.fid.team == team && x.fid.grp == grp && x.pc == pc && x.parked

/-- With no two fibres of one name, the set is known by its names. -/
theorem set_names {s : State} (hs : (s.fibres.map (·.fid)).Nodup) (team grp : Nat) (pc : Word) {x : Fibre}
    (hx : x ∈ s.fibres) :
    (((s.grpFibres team grp).filter fun f => f.pc == pc && f.parked).map (·.fid)).contains x.fid
      = x.ofSet team grp pc := by
  rw [Bool.eq_iff_iff, List.contains_iff_mem]
  unfold State.grpFibres Fibre.ofSet
  simp only [List.mem_map, List.mem_filter, Bool.and_eq_true]
  constructor
  · rintro ⟨y, ⟨⟨hy, hteam, hgrp⟩, hpc, hp⟩, he⟩
    obtain rfl := List.inj_on_of_nodup_map hs hy hx he
    exact ⟨⟨⟨hteam, hgrp⟩, hpc⟩, hp⟩
  · rintro ⟨⟨⟨hteam, hgrp⟩, hpc⟩, hp⟩
    exact ⟨x, ⟨⟨hx, hteam, hgrp⟩, hpc, hp⟩, rfl⟩

/-- Unparking frees the set, and executions aside changes nothing else. -/
theorem unpark_loose {s : State} (hs : (s.fibres.map (·.fid)).Nodup) (team grp : Nat) (pc : Word) :
    (s.unpark team grp pc).fibres.map Fibre.loose = s.fibres.map (fun x =>
        Fibre.loose (if x.ofSet team grp pc then { x with parked := false, entryAt := s.clock } else x))
      ∧ { s.unpark team grp pc with fibres := [] } = { s with fibres := [] } := by
  unfold State.unpark
  dsimp only
  obtain ⟨h1, h2⟩ := foldl_loosen_loose (((s.grpFibres team grp).filter fun f => f.pc == pc && f.parked).map (·.fid))
    (s.modFibs (fun f => (((s.grpFibres team grp).filter fun f => f.pc == pc && f.parked).map (·.fid)).contains f.fid)
      fun f => { f with parked := false, entryAt := s.clock })
  refine ⟨h1.trans ?_, h2⟩
  unfold State.modFibs
  dsimp only
  rw [List.map_map]
  apply List.map_congr_left
  intro x hx
  simp only [Function.comp_apply]
  simp only [set_names hs team grp pc hx]

/-- A fibre of a list without its execution is found as in the list. -/
theorem find_loose (l : List Fibre) (f : FibId) :
    (l.map Fibre.loose).find? (fun b => b.fid == f) = (l.find? fun b => b.fid == f).map Fibre.loose := List.find?_map ..

theorem fib?_of_mem {s : State} (hs : (s.fibres.map (·.fid)).Nodup) {x : Fibre} (hx : x ∈ s.fibres) :
    s.fib? x.fid = some x := by
  unfold State.fib?
  cases h : s.fibres.find? (fun b => b.fid == x.fid) with
  | none => exact absurd (List.find?_eq_none.mp h x hx) (by simp)
  | some y =>
    have hid : y.fid = x.fid := by simpa using List.find?_some h
    rw [List.inj_on_of_nodup_map hs (List.mem_of_find?_eq_some h) hx hid]

/-- Which fibres are parked once a set is unparked. -/
theorem unpark_parked {s : State} (hs : (s.fibres.map (·.fid)).Nodup) (team grp : Nat) (pc : Word) {x : Fibre}
    (hx : x ∈ s.fibres) :
    ((s.unpark team grp pc).fib? x.fid).map (·.parked) = some (if x.ofSet team grp pc then false else x.parked) := by
  have hloose :=
    congrArg (fun l => (l.find? fun b : Fibre => b.fid == x.fid).map (·.parked)) (unpark_loose hs team grp pc).1
  have hmap : (s.fibres.map fun x =>
        Fibre.loose (if x.ofSet team grp pc then { x with parked := false, entryAt := s.clock } else x))
      = (s.modFibs (Fibre.ofSet team grp pc) fun x =>
          { x with parked := false, entryAt := s.clock }).fibres.map Fibre.loose := by
    unfold State.modFibs
    rw [List.map_map]
    rfl
  rw [hmap] at hloose
  simp only [find_loose, Option.map_map] at hloose
  refine hloose.trans ?_
  have hfind := modFibs_fib? s (Fibre.ofSet team grp pc) (fun x => { x with parked := false, entryAt := s.clock })
    (fun _ => rfl) x.fid
  rw [fib?_of_mem hs hx, Option.map_some] at hfind
  refine (congrArg (Option.map _) hfind).trans ?_
  rw [Option.map_some]
  simp only [Function.comp_apply]
  split <;> rfl

/-! ## A path gives up its entry (R119) -/

/-- A fibre as its path's parking leaves it. -/
def Fibre.parkedAt (x : Fibre) (now : Nat) : Fibre :=
  { x with parked := true, entryAt := now, exec := 0, member := false }

theorem parkAll_fibres (s : State) (fs : List FibId) :
    (s.parkAll fs).fibres = s.fibres.map fun x => if fs.contains x.fid then x.parkedAt s.clock else x := rfl

theorem parkAll_nodup {s : State} (hs : (s.fibres.map (·.fid)).Nodup) (fs : List FibId) :
    ((s.parkAll fs).fibres.map (·.fid)).Nodup := by
  have hfid : (s.parkAll fs).fibres.map (·.fid) = s.fibres.map (·.fid) := by
    rw [parkAll_fibres, List.map_map]
    apply List.map_congr_left
    intro x _
    simp only [Function.comp_apply]
    split <;> rfl
  rw [hfid]
  exact hs

/-- Which fibres are parked once a path is parked and a set unparked in its place. -/
theorem parkAll_unpark_parked {s : State} (hs : (s.fibres.map (·.fid)).Nodup) (fs : List FibId) (team grp : Nat)
    (pc : Word)
    {x : Fibre} (hx : x ∈ s.fibres) :
    (((s.parkAll fs).unpark team grp pc).fib? x.fid).map (·.parked)
      = some (if (x.fid.team == team && x.fid.grp == grp && x.pc == pc) && (fs.contains x.fid || x.parked) then false
          else fs.contains x.fid || x.parked) := by
  have hmem : (if fs.contains x.fid then x.parkedAt s.clock else x) ∈ (s.parkAll fs).fibres :=
    List.mem_map.mpr ⟨x, hx, rfl⟩
  have hun := unpark_parked (parkAll_nodup hs fs) team grp pc hmem
  by_cases hc : fs.contains x.fid = true
  · rw [if_pos hc] at hun
    rw [hc]
    exact hun
  · rw [if_neg hc] at hun
    rw [Bool.not_eq_true _ |>.mp hc]
    exact hun

/-- A group's fibre that is not parked, and whose entry is its group's longest. -/
theorem oldest_entry {l : List Fibre} (h : ∃ y ∈ l, y.parked = false) :
    ∃ y ∈ l, y.parked = false ∧ (∀ z ∈ l, z.parked = false → y.entryAt ≤ z.entryAt)
      ∧ (l.filter fun g => !g.parked).foldl older none = some y := by
  obtain ⟨y, hy, hp⟩ := h
  have hmem : ∀ z, z ∈ (l.filter fun g => !g.parked) ↔ z ∈ l ∧ z.parked = false := by simp
  obtain ⟨x, hx, he, hmin⟩ := foldl_older_min ((hmem y).mpr ⟨hy, hp⟩)
  obtain ⟨hxl, hxp⟩ := (hmem x).mp hx
  exact ⟨x, hxl, hxp, fun z hz hzp => hmin z ((hmem z).mpr ⟨hz, hzp⟩), he⟩

/-- A group's path: the fibres that hold an entry with one of them. -/
def State.pathOf (s : State) (mates : List Fibre) (y : Fibre) : List Fibre :=
  mates.filter fun z => !z.parked && s.pathPc z == s.pathPc y

theorem parkSteal_exec {s : State} {core : Nat} {b y : Fibre} (hb : s.longestParked core = some b)
    (hclock : b.entryAt + 65536 ≤ s.clock)
    (hy : ((s.grpFibres b.fid.team b.fid.grp).filter fun g => !g.parked).foldl older none = some y) :
    exec (.parkSteal core) s = .next (if (s.pathOf (s.grpFibres b.fid.team b.fid.grp) y).any (·.busy) then s
      else (s.parkAll ((s.pathOf (s.grpFibres b.fid.team b.fid.grp) y).map (·.fid))).unpark
        b.fid.team b.fid.grp b.pc) := by
  have hpath : ((s.grpFibres b.fid.team b.fid.grp).filter fun g => !g.parked).filter (fun h => s.pathPc h == s.pathPc y)
      = s.pathOf (s.grpFibres b.fid.team b.fid.grp) y := by
    rw [List.filter_filter]
    unfold State.pathOf
    congr 1
    funext z
    exact Bool.and_comm _ _
  change execParkSteal core s = _
  unfold execParkSteal
  rw [hb]
  dsimp only
  rw [if_neg (by omega), ← hpath]
  change Host.Outcome.next (match ((s.grpFibres b.fid.team b.fid.grp).filter fun g => !g.parked).foldl older none with
    | none => s
    | some g => _) = _
  rw [hy]

/-- The last part of O30. -/
theorem path_pool (core : Nat) (s : State) (b : Fibre) (hb : s.longestParked core = some b)
    (hs : (s.fibres.map (·.fid)).Nodup) :
    let set := fun (x : Fibre) => x.fid.team == b.fid.team && x.fid.grp == b.fid.grp && x.pc == b.pc && x.parked
    let s1 := s.unpark b.fid.team b.fid.grp b.pc
    let mates := s.grpFibres b.fid.team b.fid.grp
    let path := fun (y : Fibre) => mates.filter fun z => !z.parked && s.pathPc z == s.pathPc y
    let bare := fun (x : Fibre) => { x with exec := 0, member := false }
    s1.fibres.map bare = s.fibres.map (fun x =>
      bare (if set x then { x with parked := false, entryAt := s.clock } else x))
    ∧ { s1 with fibres := [] } = { s with fibres := [] }
    ∧ exec (.pathUnpark core) s = .next (if s1.poolUsed core ≤ 48 ∨ s1.poolUsed core = s.poolUsed core then s1 else s)
    ∧ (s.clock < b.entryAt + 65536 → exec (.parkSteal core) s = .next s)
    ∧ (b.entryAt + 65536 ≤ s.clock → b.parked = true → (∀ y ∈ mates, y.parked = false → y.pc ≠ b.pc) →
      (∃ y ∈ mates, y.parked = false) → ∃ y ∈ mates, y.parked = false
        ∧ (∀ z ∈ mates, z.parked = false → y.entryAt ≤ z.entryAt)
        ∧ ((∃ z ∈ path y, z.busy = true) → exec (.parkSteal core) s = .next s)
        ∧ ((∀ z ∈ path y, z.busy = false) → ∃ t : State, exec (.parkSteal core) s = .next t
          ∧ (∀ z ∈ path y, (t.fib? z.fid).map (·.parked) = some true)
          ∧ ∀ x ∈ mates, x.pc = b.pc → (t.fib? x.fid).map (·.parked) = some false)) := by
  intro set s1 mates path bare
  obtain ⟨hfib, hrest⟩ := unpark_loose hs b.fid.team b.fid.grp b.pc
  refine ⟨hfib, hrest, ?_, ?_, ?_⟩
  · change execPathUnpark core s = _
    unfold execPathUnpark
    rw [hb]
    rfl
  · intro hclock
    change execParkSteal core s = _
    unfold execParkSteal
    rw [hb]
    dsimp only
    rw [if_pos hclock]
  · intro hclock _ hapart hsome
    obtain ⟨y, hy, hyp, hmin, hold⟩ := oldest_entry hsome
    have hexec := parkSteal_exec hb hclock hold
    have hmates : ∀ z ∈ mates, z ∈ s.fibres ∧ (z.fid.team == b.fid.team && z.fid.grp == b.fid.grp) = true :=
      fun z hz => List.mem_filter.mp hz
    have hpath : ∀ z ∈ path y, z ∈ mates ∧ z.parked = false := by
      intro z hz
      obtain ⟨hzm, hzp⟩ := List.mem_filter.mp hz
      rw [Bool.and_eq_true] at hzp
      exact ⟨hzm, by simpa using hzp.1⟩
    refine ⟨y, hy, hyp, hmin, ?_, ?_⟩
    · intro hbusy
      have hany : (s.pathOf mates y).any (·.busy) = true := List.any_eq_true.mpr hbusy
      rw [hexec, if_pos hany]
    · intro hidle
      have hany : ¬ (s.pathOf mates y).any (·.busy) = true := by
        rw [List.any_eq_true]
        rintro ⟨z, hz, hzb⟩
        rw [hidle z hz] at hzb
        exact Bool.false_ne_true hzb
      rw [if_neg hany] at hexec
      refine ⟨_, hexec, fun z hz => ?_, fun x hx hpc => ?_⟩
      · obtain ⟨hzm, hzp⟩ := hpath z hz
        have hin : ((s.pathOf mates y).map (·.fid)).contains z.fid = true :=
          List.contains_iff_mem.mpr (List.mem_map.mpr ⟨z, hz, rfl⟩)
        have hne : (z.pc == b.pc) = false := by simpa using hapart z hzm hzp
        rw [parkAll_unpark_parked hs _ _ _ _ (hmates z hzm).1, hin, hne]
        simp
      · have hxp : x.parked = true := by
          by_contra hnp
          exact hapart x hx (by simpa using hnp) hpc
        obtain ⟨hxs, hxg⟩ := hmates x hx
        rw [parkAll_unpark_parked hs _ _ _ _ hxs, hxg, hxp, hpc]
        simp

/-- Settles O30: nothing stands in the way of a lone fibre whose clause fetches, decodes and plans; a starved batch is
marked, and the pool's entries go by the time each has been held. -/
theorem clausesStart : Obligations.ClausesStart := by
  unfold Obligations.ClausesStart
  refine ⟨?_, ?_, ?_, ?_⟩
  · intro f pipe split s s1 s3 b t hfibres hfid hpend hteam hgrp hb hi
    refine ⟨?_, ?_⟩
    · intro c plan hc hunit hwait hroom hmtx hsplit hplan hneeds
      exact clause_starts f pipe split s s1 s3 b t hfibres hfid hpend hteam hgrp hb hi c plan hc hunit hwait hroom hmtx
        hsplit hplan hneeds
    · intro code k addr hc
      obtain ⟨htrap, hrun⟩ := start_traps ⟨hfibres, hfid, hpend, hteam, hgrp⟩ hb hi hc pipe false
      exact ⟨_, rfl, htrap, hrun⟩
  · exact fun fs s h => starvation fs s h
  · exact fun core s b t hb hp ht hc hr => longestParked_min hb hp ht hc hr
  · exact fun core s b hb hs => path_pool core s b hb hs

end Sys2Proof.Machine
end

section
/-! SUPPORT. The forms of O60 (R28, R103, R311), part by part: tables and sets in canonical form, a fibre's
predicates and `tcause`, a group's registers, a team's storage and its checkpoint, and what each small operation on one
of them leaves. -/

namespace Sys2Proof.Machine

open Sys2Proof

/-! ## Tables and sets -/

theorem wf_mod {α : Type} [DecidableEq α] [Inhabited α] (m : NMap α) (k : Nat) (f : α → α) (h : NMap.wf m = true) :
    NMap.wf (NMap.mod m k f) = true := NMap.wf_set m k _ h

theorem wfFrom_filter {α : Type} [DecidableEq α] [Inhabited α] (p : Nat × α → Bool) (m : NMap α) :
    ∀ lo, NMap.wfFrom lo m = true → NMap.wfFrom lo (m.filter p) = true := by
  induction m with
  | nil => exact fun _ h => h
  | cons c m ih =>
    obtain ⟨j, v⟩ := c
    intro lo h
    simp only [NMap.wfFrom, Bool.and_eq_true] at h
    obtain ⟨⟨hlo, hv⟩, hm⟩ := h
    rw [List.filter_cons]
    split
    · simp only [NMap.wfFrom, Bool.and_eq_true]
      exact ⟨⟨hlo, hv⟩, ih _ hm⟩
    · cases lo with
      | none => exact NMap.wfFrom_none (ih _ hm)
      | some l => exact NMap.wfFrom_mono (ih _ hm) (by have := hlo; simp at this; omega)

/-- A table keeps its form when some of its rows are taken out. -/
theorem wf_filter {α : Type} [DecidableEq α] [Inhabited α] (p : Nat × α → Bool) {m : NMap α} (h : NMap.wf m = true) :
    NMap.wf (m.filter p) = true := wfFrom_filter p m none h

theorem setWf_filter (p : Nat → Bool) (m : List Nat) :
    ∀ lo, setWfFrom lo m = true → setWfFrom lo (m.filter p) = true := by
  induction m with
  | nil => exact fun _ h => h
  | cons j m ih =>
    intro lo h
    simp only [setWfFrom, Bool.and_eq_true] at h
    obtain ⟨hlo, hm⟩ := h
    rw [List.filter_cons]
    split
    · simp only [setWfFrom, Bool.and_eq_true]
      exact ⟨hlo, ih _ hm⟩
    · cases lo with
      | none => exact setWfFrom_none (ih _ hm)
      | some l => exact setWfFrom_mono (ih _ hm) (by have := hlo; simp at this; omega)

theorem setWf_add (m : List Nat) (k : Nat) (h : setWfFrom none m = true) : setWfFrom none (setAdd m k) = true :=
  setWfFrom_add m k none h (by simp)

theorem setWf_put (m : List Nat) (k : Nat) (b : Bool) (h : setWfFrom none m = true) :
    setWfFrom none (setPut m k b) = true := by
  unfold setPut
  split
  · exact setWf_add m k h
  · exact setWfFrom_del m k none h

/-! ## Fibres -/

/-- An update of any other fields leaves a fibre's form. -/
@[simp] theorem fibre_formed_update (b : Fibre)
    (a1 : FibId) (a2 a3 : Word) (a4 : BitVec 5) (a5 : BitVec 3) (a6 : Nat) (a7 : NMap Nat) (a8 a9 : BitVec 8) (a10 a11
    : Word) (a12 : Bool) (a13 : Hold) (a14 : List Hold) (a15 : Bool) (a16 : Option TrapRec) (a17 : Bool) (a18 a19 :
    Nat) (a20 a21 : Bool) (a22 : List Hold) (a23 : Bool) (a24 : Option TrapRec) (a25 : List (Opnd × Nat)) (a26 a27 :
    Bool) (a28 : Nat) :
    Fibre.formed { b with
        fid := a1, pc := a2, lr := a3, fflags := a4, frm := a5, tile := a6, flags := a7, kleft := a8, ksig := a9,
        taddr := a10, epc := a11, h := a12, hold := a13, waits := a14, busy := a15, trap := a16, parked := a17,
        entryAt := a18, exec := a19, member := a20, tiled := a21, under := a22, redo := a23, later := a24, unproven :=
        a25, yielded := a26, starved := a27, lastStart := a28 } = b.formed := by
  simp only [Fibre.formed]

@[simp] theorem fibre_formed_ite (p : Prop) [Decidable p] (b c : Fibre) :
    (if p then b else c).formed = if p then b.formed else c.formed := apply_ite ..

/-- A fibre's form: p7, the bits of `tcause` that have no field, and its registers. -/
theorem fibre_formed_iff (b : Fibre) : b.formed = true ↔ b.preds.getLsbD 7 = true ∧ b.tcause.extractLsb' 36 28 = 0
    ∧ b.tcause.extractLsb' 8 12 = 0 ∧ NMap.wf b.x = true ∧ NMap.wf b.t = true := by
  unfold Fibre.formed
  simp only [Bool.and_eq_true, beq_iff_eq, and_assoc]

section

variable {b : Fibre}

/-- What is written to the x registers. -/
theorem fibre_formed_x (hb : b.formed = true) {m : NMap RegCell} (hm : NMap.wf m = true) :
    ({ b with x := m } : Fibre).formed = true := by
  obtain ⟨hp, h1, h2, -, ht⟩ := (fibre_formed_iff b).mp hb
  exact (fibre_formed_iff _).mpr ⟨hp, h1, h2, hm, ht⟩

/-- What is written to the t registers. -/
theorem fibre_formed_t (hb : b.formed = true) {m : NMap RegCell} (hm : NMap.wf m = true) :
    ({ b with t := m } : Fibre).formed = true := by
  obtain ⟨hp, h1, h2, hx, -⟩ := (fibre_formed_iff b).mp hb
  exact (fibre_formed_iff _).mpr ⟨hp, h1, h2, hx, hm⟩

theorem fibre_wf_x (hb : b.formed = true) : NMap.wf b.x = true := by
  obtain ⟨-, -, -, hx, -⟩ := (fibre_formed_iff b).mp hb
  exact hx

theorem fibre_wf_t (hb : b.formed = true) : NMap.wf b.t = true := by
  obtain ⟨-, -, -, -, ht⟩ := (fibre_formed_iff b).mp hb
  exact ht

theorem one_shift_7 : ∀ p : Fin 8, ¬ (p.val == 7) = true → ((1 : Byte) <<< p.val).getLsbD 7 = false := by decide

/-- A write to p7 is ignored (R28). -/
theorem setPred_formed (hb : b.formed = true) (p : Fin 8) (v : Bool) : (b.setPred p v).formed = true := by
  unfold Fibre.setPred
  split
  · exact hb
  · next hne =>
    obtain ⟨hp, h1, h2, hx, ht⟩ := (fibre_formed_iff b).mp hb
    have hbit := one_shift_7 p hne
    refine (fibre_formed_iff _).mpr ⟨?_, h1, h2, hx, ht⟩
    dsimp only
    split
    · rw [BitVec.getLsbD_or, hp, Bool.true_or]
    · rw [BitVec.getLsbD_and, BitVec.getLsbD_not, hp, hbit]
      rfl

theorem setPreds_formed (l : List (Fin 8 × Bool)) (hb : b.formed = true) :
    (l.foldl (fun f pb => f.setPred pb.1 pb.2) b).formed = true :=
  foldl_keeps (fun f : Fibre => f.formed = true) (fun (f : Fibre) (pb : Fin 8 × Bool) => f.setPred pb.1 pb.2)
    (fun _ pb hf => setPred_formed hf pb.1 pb.2) l b hb

theorem extractLsb'_eq_zero_of_toNat {w : Nat} (x : BitVec w) (k n : Nat) (h : x.toNat >>> k % 2 ^ n = 0) :
    x.extractLsb' k n = 0 :=
  BitVec.eq_of_toNat_eq (by rw [BitVec.extractLsb'_toNat, h]; rfl)

theorem tcauseWord_toNat (code word detail : Nat) : (tcauseWord code word detail).toNat
    = code % 256 + detail % 4096 * 1048576 + word % 16 * 4294967296 := by
  unfold tcauseWord
  rw [BitVec.toNat_ofNat]
  norm_num only
  omega

/-- `tcause` as a trap writes it (R311). -/
theorem tcauseWord_clear (code word detail : Nat) : (tcauseWord code word detail).extractLsb' 36 28 = 0
    ∧ (tcauseWord code word detail).extractLsb' 8 12 = 0 := by
  constructor <;> refine extractLsb'_eq_zero_of_toNat _ _ _ ?_ <;>
    rw [tcauseWord_toNat, Nat.shiftRight_eq_div_pow] <;> norm_num only <;> omega

/-- The fields of `tcause`. -/
theorem masked_clear (x : Word) : (x &&& 0x0000000FFFF000FF).extractLsb' 36 28 = 0
    ∧ (x &&& 0x0000000FFFF000FF).extractLsb' 8 12 = 0 := by
  have h1 : (0x0000000FFFF000FF : Word).extractLsb' 36 28 = 0 := by decide
  have h2 : (0x0000000FFFF000FF : Word).extractLsb' 8 12 = 0 := by decide
  rw [BitVec.extractLsb'_and, BitVec.extractLsb'_and, h1, h2]
  exact ⟨BitVec.and_zero, BitVec.and_zero⟩

theorem takeTrap_formed (hb : b.formed = true) (tvec : Word) (t : TrapRec) : (b.takeTrap tvec t).formed = true := by
  obtain ⟨hp, -, -, hx, ht⟩ := (fibre_formed_iff b).mp hb
  obtain ⟨h1, h2⟩ := tcauseWord_clear t.code t.word t.detail
  exact (fibre_formed_iff _).mpr ⟨hp, h1, h2, hx, ht⟩

/-- A new fibre (R104). -/
theorem newFibre_formed (fid : FibId) (pc : Word) (x0 x1 : RegCell) (frm : BitVec 3) (tile exec : Nat) :
    (newFibre fid pc x0 x1 frm tile exec).formed = true := by
  refine (fibre_formed_iff _).mpr ⟨?_, ?_, ?_, NMap.wf_set _ _ _ (NMap.wf_set _ _ _ rfl), rfl⟩
  · show (0x80 : BitVec 8).getLsbD 7 = true
    decide
  · show BitVec.extractLsb' 36 28 (0 : Word) = 0
    decide
  · show BitVec.extractLsb' 8 12 (0 : Word) = 0
    decide

end

/-! Operations on a fibre that leave what its form speaks of. -/

@[simp] theorem release_formed (b : Fibre) (h : Hold) : (b.release h).formed = b.formed := by
  unfold Fibre.release
  dsimp only
  split
  · split <;> rfl
  · rfl

@[simp] theorem lower_formed (b : Fibre) (k : Nat) : (b.lower k).formed = b.formed := by
  simp only [Fibre.lower, fibre_formed_update]

@[simp] theorem await_formed (b : Fibre) (h : Hold) : (b.await h).formed = b.formed := by
  unfold Fibre.await
  split
  · rfl
  · split <;> rfl

@[simp] theorem noteTrap_formed (b : Fibre) (t : TrapRec) : (b.noteTrap t).formed = b.formed := by
  unfold Fibre.noteTrap
  split
  · rfl
  · split <;> rfl

@[simp] theorem held_formed (b : Fibre) (l : List Hold) : (b.held l).formed = b.formed := by
  cases l <;> simp only [Fibre.held, fibre_formed_update]

@[simp] theorem resume_formed (b : Fibre) : b.resume.formed = b.formed := by
  unfold Fibre.resume
  dsimp only
  split
  · rfl
  · split <;> simp

@[simp] theorem retranslate_formed (b : Fibre) : b.retranslate.formed = b.formed := by
  unfold Fibre.retranslate
  dsimp only
  split <;> simp

@[simp] theorem leaveTrap_formed (b : Fibre) : b.leaveTrap.formed = b.formed := by
  simp only [Fibre.leaveTrap, fibre_formed_update]

/-! ## Groups -/

/-- A write of an s register (R29). -/
theorem writeS_wf {g : Group} (k : WriteKey) (lane n : Nat) (c : RegCell) (hg : NMap.wf g.s = true) :
    NMap.wf (g.writeS k lane n c).s = true := by
  unfold Group.writeS
  dsimp only
  split
  · exact hg
  · split
    · exact hg
    · exact NMap.wf_set _ _ _ hg

/-! ## Checkpoints -/

/-- A checkpoint's form. -/
theorem ckpt_formed_iff (k : Ckpt) : k.formed = true
    ↔ (∀ b ∈ k.fibres, b.formed = true) ∧ ∀ g ∈ k.groups, NMap.wf g.s = true := by
  unfold Ckpt.formed
  rw [Bool.and_eq_true, List.all_eq_true, List.all_eq_true]

theorem all_map_same {α : Type} {p : α → Bool} {c : α → Bool} {g : α → α} (hg : ∀ x, p (g x) = p x) (l : List α) :
    (l.map fun x => if c x then g x else x).all p = l.all p := by
  rw [List.all_map]
  congr 1
  funext x
  simp only [Function.comp_apply]
  split
  · exact hg x
  · rfl

theorem forall_map_of {α : Type} {p : α → Prop} {c : α → Bool} {g : α → α} {l : List α} (h : ∀ x ∈ l, p x)
    (hg : ∀ x, p x → p (g x)) : ∀ x ∈ l.map (fun x => if c x then g x else x), p x := by
  intro y hy
  obtain ⟨x, hx, rfl⟩ := List.mem_map.mp hy
  split
  · exact hg x (h x hx)
  · exact h x hx

theorem forall_filter_of {α : Type} {p : α → Prop} (c : α → Bool) {l : List α} (h : ∀ x ∈ l, p x) :
    ∀ x ∈ l.filter c, p x := fun x hx => h x (List.mem_filter.mp hx).1

@[simp] theorem ckpt_releaseHeld_formed (k : Ckpt) (h : Hold) : (k.releaseHeld h).formed = k.formed := by
  unfold Ckpt.releaseHeld Ckpt.formed
  dsimp only
  rw [all_map_same (c := fun f : Fibre => f.awaits h) fun b => release_formed b h]

/-! ## Teams -/

/-- An update of any other fields leaves a team's form. -/
@[simp] theorem team_formed_update (t : Team)
    (a1 a2 a3 a4 a5 a6 a7 a8 a9 a10 a11 a12 : Nat) (a13 : Phase) (a14 : List (Nat × Nat)) (a15 : NMap Bar) (a16 : NMap
    KReg) (a17 : NMap Slot) (a18 : Word) (a19 : Nat) (a20 : Word) (a21 : Bool) (a22 : BitVec 32) (a23 : BitVec 12)
    (a24 : Nat) (a25 : List Sector) (a26 : Option CheckSite) (a27 : Bool) (a28 : Point) (a29 : Option Nat) (a30 :
    Bool) (a31 : List (FibId × Opnd × Nat)) (a32 : List QCmd) (a33 : List (Nat × Nat × Nat × Bool)) (a34 : Option
    Latch) (a35 : NMap Nat) (a36 : Nat) (a37 : Bool) (a38 : Nat) (a39 : Bool) (a40 : Option (FibId × TrapRec)) (a41 :
    Option Nat) :
    Team.formed { t with
        id := a1, cluster := a2, clutch := a3, part := a4, rank := a5, core := a6, regs := a7, width := a8, groups :=
        a9, spadSize := a10, accRows := a11, accBase := a12, phase := a13, unproven := a14, bars := a15, kregs := a16,
        slots := a17, tvec := a18, prio := a19, ustate := a20, rOpen := a21, inst := a22, tag := a23, replay := a24,
        rbuf := a25, failing := a26, fatal := a27, point := a28, pointFault := a29, writing := a30, past := a31,
        qsaved := a32, tileOld := a33, latch := a34, seqs := a35, appended := a36, triggered := a37, idle := a38,
        idleActed := a39, halting := a40, brkRec := a41 } = t.formed := by
  simp only [Team.formed]

@[simp] theorem team_formed_ite (p : Prop) [Decidable p] (t u : Team) :
    (if p then t else u).formed = if p then t.formed else u.formed := apply_ite ..

/-- A checkpoint, where there is one, has its form. -/
def ckptFormed : Option Ckpt → Bool
  | some k => k.formed
  | none => true

/-- A team's form: its storage, and its checkpoint. -/
theorem team_formed_iff (t : Team) : t.formed = true ↔ t.spad.wf = true ∧ NMap.wf t.acc = true
    ∧ setWfFrom none t.accPois = true ∧ setWfFrom none t.full = true ∧ ckptFormed t.ckpt = true := by
  unfold Team.formed ckptFormed
  cases t.ckpt <;> simp only [Bool.and_eq_true, and_assoc]

section

variable {t : Team}

/-- A change of a team's storage that leaves its checkpoint. -/
theorem team_formed_store {u : Team} (ht : t.formed = true) (hk : u.ckpt = t.ckpt)
    (h : t.spad.wf = true → NMap.wf t.acc = true → setWfFrom none t.accPois = true → setWfFrom none t.full = true →
      u.spad.wf = true ∧ NMap.wf u.acc = true ∧ setWfFrom none u.accPois = true ∧ setWfFrom none u.full = true) :
    u.formed = true := by
  obtain ⟨h1, h2, h3, h4, h5⟩ := (team_formed_iff t).mp ht
  obtain ⟨k1, k2, k3, k4⟩ := h h1 h2 h3 h4
  exact (team_formed_iff u).mpr ⟨k1, k2, k3, k4, hk ▸ h5⟩

/-- A change of a team that leaves its storage and gives it a checkpoint of the right form, or none. -/
theorem team_formed_ckpt {u : Team} (ht : t.formed = true) (hs : u.spad = t.spad) (ha : u.acc = t.acc)
    (hp : u.accPois = t.accPois) (hf : u.full = t.full) (hk : ckptFormed u.ckpt = true) : u.formed = true := by
  obtain ⟨h1, h2, h3, h4, -⟩ := (team_formed_iff t).mp ht
  exact (team_formed_iff u).mpr ⟨hs ▸ h1, ha ▸ h2, hp ▸ h3, hf ▸ h4, hk⟩

theorem granules_formed (ht : t.formed = true) (l : List Nat) (b : Bool) :
    ({ t with full := l.foldl (fun m g => setPut m g b) t.full } : Team).formed = true :=
  team_formed_store ht rfl fun h1 h2 h3 h4 => ⟨h1, h2, h3,
    foldl_keeps (fun m : List Nat => setWfFrom none m = true) _ (fun m g hm => setWf_put m g b hm) l _ h4⟩

theorem setAcc_formed (ht : t.formed = true) (ci : Nat) (v : BitVec 32) : (t.setAcc ci v).formed = true :=
  team_formed_store ht rfl fun h1 h2 h3 h4 => ⟨h1, NMap.wf_set _ _ _ h2, h3, h4⟩

theorem setAccP_formed (ht : t.formed = true) (ci : Nat) (p whole : Bool) : (t.setAccP ci p whole).formed = true := by
  unfold Team.setAccP
  split
  · exact team_formed_store ht rfl fun h1 h2 h3 h4 => ⟨h1, h2, setWf_add _ _ h3, h4⟩
  · split
    · exact team_formed_store ht rfl fun h1 h2 h3 h4 => ⟨h1, h2, setWfFrom_del _ _ none h3, h4⟩
    · exact ht

theorem setPair_formed (ht : t.formed = true) (ci : Nat) (v : Word) (p : Bool) : (t.setPair ci v p).formed = true :=
  setAccP_formed (setAcc_formed (setAcc_formed ht _ _) _ _) _ _ _

@[simp] theorem provePairs_formed (t : Team) (l : List Nat) : (t.provePairs l).formed = t.formed := by
  simp only [Team.provePairs, team_formed_update]

@[simp] theorem wrotePairs_formed (t : Team) (now : Nat) (l : List Nat) : (t.wrotePairs now l).formed = t.formed := by
  simp only [Team.wrotePairs, team_formed_update]

/-- What a matrix operation writes. -/
theorem putOuts_formed (ht : t.formed = true) (outs : List (Nat × BitVec 32 × Bool)) :
    (t.putOuts outs).formed = true := by
  have hacc : (outs.foldl (fun t o => t.setAcc o.1 o.2.1) t).formed = true :=
    foldl_keeps (fun t : Team => t.formed = true) _ (fun _ o hu => setAcc_formed hu o.1 o.2.1) outs t ht
  have hclean := foldl_keeps (fun t : Team => t.formed = true)
    (fun (t : Team) (o : Nat × BitVec 32 × Bool) => { t with accPois := setDel t.accPois (o.1 / 2) })
    (fun u o hu => team_formed_store hu rfl fun h1 h2 h3 h4 => ⟨h1, h2, setWfFrom_del _ _ none h3, h4⟩) outs _ hacc
  refine foldl_keeps (fun t : Team => t.formed = true) _ (fun u o hu => ?_) outs _ hclean
  split
  · exact team_formed_store hu rfl fun h1 h2 h3 h4 => ⟨h1, h2, setWf_add _ _ h3, h4⟩
  · exact hu

end

end Sys2Proof.Machine
end

section
/-! SUPPORT. The forms of O60 (R28, R103, R311), of a state: what leaves them, what keeps them, and the steps of an
engine. A lemma `X_formed` says that `X` changes nothing of what the forms speak of, or, with the hypothesis that the
state has its forms, that `X` keeps them. -/

namespace Sys2Proof.Machine

open Sys2Proof

/-- An update of any other fields leaves a state's forms. -/
@[simp] theorem state_formed_update (s : State)
    (a1 : List Choice) (a2 a3 : Nat) (a4 : Power) (a5 a6 : Nat) (a7 : List Cluster) (a8 : List Clutch) (a9 : List
    ClauseRun) (a10 : List MemOp) (a11 : NMap Core) (a12 : NMap Pod) (a13 : NMap (List Tlb)) (a14 : List Sector) (a15
    : List (Nat × Sector)) (a16 : List Nat) (a17 : NMap L2Set) (a18 : List L2Line) (a19 : Memory) (a20 : List (Nat ×
    Sector)) (a21 : List (Nat × Nat × Sector)) (a22 : List (Nat × Nat × Option Word)) (a23 a24 : List Nat) (a25 : List
    (Nat × Sector)) (a26 : NMap Word) (a27 : NMap (List (BitVec 12))) (a28 a29 : NMap Nat) (a30 : List Nat) (a31 :
    NMap Nat) (a32 : List ((Nat × Nat × Nat × Nat) × Nat)) (a33 : List (Nat × Nat × Nat)) (a34 : List ((Nat × Nat ×
    Nat) × Nat)) (a35 : NMap SibCell) (a36 : List Walk) (a37 : List FaultRec) (a38 : List Sub) (a39 : List JoinDec)
    (a40 : List FutDec) (a41 : List Cmd) (a42 : List (List Byte × List Word)) (a43 : NMap Part) (a44 a45 a46 : Nat)
    (a47 : Word) (a48 : NMap Nat) (a49 : List Nat) (a50 : Bool) (a51 : NMap Nat) (a52 : List CheckSite) (a53 : Bool)
    (a54 : Nat) (a55 : List Nat) (a56 : List (CheckSite × Nat)) (a57 : List (Nat × Nat × Word)) (a58 : NMap Head) (a59
    : NMap Nat) (a60 : NMap Enc) (a61 : NMap Cxl) (a62 : NMap Port) (a63 : List Nat) (a64 : Nat) (a65 : List (Nat ×
    Sector)) (a66 : List CollFix) (a67 : List (Nat × Nat)) (a68 : List (Nat × List Byte × List Bool)) :
    State.formed { s with
        sched := a1, tick := a2, clock := a3, power := a4, fresh := a5, cur := a6, clusters := a7, clutches := a8,
        running := a9, pend := a10, cores := a11, pods := a12, dtlb := a13, l2 := a14, guests := a15, l2WaysOff :=
        a16, l2Sets := a17, l2Used := a18, mem := a19, missed := a20, reps := a21, lost := a22, stacksOff := a23,
        sectorsOff := a24, fillWait := a25, frames := a26, profiles := a27, rds := a28, wrs := a29, badPc := a30,
        caTries := a31, acts := a32, heldBanks := a33, spares := a34, sib := a35, walks := a36, faults := a37, subs :=
        a38, joins := a39, futs := a40, cmds := a41, trees := a42, parts := a43, mode := a44, pkg := a45, pkgNext :=
        a46, bootRec := a47, stackTries := a48, sectorsBad := a49, pcieSlow := a50, hubLast := a51, retired := a52,
        flashOk := a53, fwstat := a54, fwJob := a55, lastFail := a56, events := a57, heads := a58, engTurn := a59,
        encs := a60, cxl := a61, ports := a62, lostPkgs := a63, sentSeq := a64, far := a65, colls := a66, received :=
        a67, answers := a68 } = s.formed := by
  simp only [State.formed]

@[simp] theorem formed_ite (p : Prop) [Decidable p] (s t : State) :
    (if p then s else t).formed = if p then s.formed else t.formed := apply_ite ..

@[simp] theorem snd_formed_ite {α : Type} (p : Prop) [Decidable p] (s t : α × State) :
    (if p then s else t).2.formed = if p then s.2.formed else t.2.formed := by
  split <;> rfl

@[simp] theorem snd_snd_formed_ite {α β : Type} (p : Prop) [Decidable p] (s t : α × β × State) :
    (if p then s else t).2.2.formed = if p then s.2.2.formed else t.2.2.formed := by
  split <;> rfl

@[simp] theorem foldl_formed {α : Type} (f : State → α → State) (h : ∀ s x, (f s x).formed = s.formed)
    (l : List α) (s : State) : (l.foldl f s).formed = s.formed := by
  induction l generalizing s with
  | nil => rfl
  | cons x l ih => rw [List.foldl_cons, ih, h]

@[simp] theorem foldl_snd_formed {α β : Type} (f : β × State → α → β × State)
    (h : ∀ p x, (f p x).2.formed = p.2.formed) (l : List α) (p : β × State) :
    (l.foldl f p).2.formed = p.2.formed := by
  induction l generalizing p with
  | nil => rfl
  | cons x l ih => rw [List.foldl_cons, ih, h]

/-- The state that a pattern takes out of a pair. -/
theorem formed_of_eq {α : Type} {p : α × State} {t : State} {x : α} (h : p = (x, t)) : t.formed = p.2.formed := by
  rw [h]

theorem formed_of_eq_triple {α β : Type} {p : α × β × State} {t : State} {x : α} {y : β} (h : p = (x, y, t)) :
    t.formed = p.2.2.formed := by
  rw [h]

/-! ## Steps of an engine -/

/-- A step of an engine keeps the forms, however it ends. -/
def Eng.Forms {α : Type} (m : Eng α) : Prop := ∀ s, s.formed = true → (m s).2.formed = true

@[simp] theorem Eng.pure_forms {α : Type} (a : α) : (Eng.pure a).Forms := fun _ h => h
@[simp] theorem Eng.stop_forms {α : Type} (code : Nat) (addr : Word) : (Eng.stop code addr : Eng α).Forms :=
  fun _ h => h
@[simp] theorem Eng.later_forms {α : Type} : (Eng.later : Eng α).Forms := fun _ h => h
@[simp] theorem Eng.get_forms {α : Type} (f : State → α) : (Eng.get f).Forms := fun _ h => h
theorem Eng.put_forms (f : State → State) (h : ∀ s, s.formed = true → (f s).formed = true) : (Eng.put f).Forms := h
@[simp] theorem Eng.put_forms_same (f : State → State) (h : ∀ s, (f s).formed = s.formed) : (Eng.put f).Forms :=
  fun s hs => (h s).trans hs

@[simp] theorem Eng.bind_forms {α β : Type} {m : Eng α} {f : α → Eng β} (hm : m.Forms) (hf : ∀ a, (f a).Forms) :
    (Eng.bind m f).Forms := by
  intro s hs
  have hms := hm s hs
  unfold Eng.bind
  split
  · next h => exact hf _ _ ((formed_of_eq h).trans hms)
  all_goals
    next h => exact (formed_of_eq h).trans hms

@[simp] theorem Eng.ite_forms {α : Type} (p : Prop) [Decidable p] {m n : Eng α} (hm : m.Forms) (hn : n.Forms) :
    (if p then m else n).Forms := by
  split <;> assumption

@[simp] theorem Eng.need_forms (b : Bool) (code : Nat) (addr : Word) : (Eng.need b code addr).Forms := by
  simp [Eng.need]

@[simp] theorem Eng.each_forms {α β : Type} (f : α → Eng β) (h : ∀ a, (f a).Forms) (l : List α) :
    (Eng.each f l).Forms := by
  induction l with
  | nil => simp [Eng.each]
  | cons a l ih => simp [Eng.each, h, ih]

@[simp] theorem Eng.along_forms {α β : Type} (f : β → α → Eng β) (h : ∀ b a, (f b a).Forms) (l : List α) (b : β) :
    (Eng.along f b l).Forms := by
  induction l generalizing b with
  | nil => simp [Eng.along]
  | cons a l ih => simp [Eng.along, h, ih]

/-! ## Lists of fibres, groups and teams -/

/-- The forms of a state, part by part. -/
theorem formed_iff (s : State) : s.formed = true
    ↔ (∀ b ∈ s.fibres, b.formed = true) ∧ (∀ g ∈ s.groups, NMap.wf g.s = true) ∧ ∀ t ∈ s.teams, t.formed = true := by
  unfold State.formed
  rw [Bool.and_eq_true, Bool.and_eq_true, List.all_eq_true, List.all_eq_true, List.all_eq_true, and_assoc]

section

variable (s : State)

@[simp] theorem modFib_formed (f : FibId) (g : Fibre → Fibre) (hg : ∀ b, (g b).formed = b.formed) :
    (s.modFib f g).formed = s.formed := by
  unfold State.modFib State.formed
  dsimp only
  rw [all_map_same (c := fun b => b.fid == f) hg]

@[simp] theorem modFibs_formed (p : Fibre → Bool) (g : Fibre → Fibre) (hg : ∀ b, (g b).formed = b.formed) :
    (s.modFibs p g).formed = s.formed := by
  unfold State.modFibs State.formed
  dsimp only
  rw [all_map_same hg]

@[simp] theorem modGrp_formed (team grp : Nat) (g : Group → Group) (hg : ∀ x, NMap.wf (g x).s = NMap.wf x.s) :
    (s.modGrp team grp g).formed = s.formed := by
  unfold State.modGrp State.formed
  dsimp only
  rw [all_map_same (p := fun g : Group => NMap.wf g.s) hg]

@[simp] theorem modTeam_formed (t : Nat) (g : Team → Team) (hg : ∀ x, (g x).formed = x.formed) :
    (s.modTeam t g).formed = s.formed := by
  unfold State.modTeam State.formed
  dsimp only
  rw [all_map_same (c := fun x => x.id == t) hg]

variable {s}

theorem modFib_keepsForm (f : FibId) {g : Fibre → Fibre} (hg : ∀ b, b.formed = true → (g b).formed = true)
    (hs : s.formed = true) : (s.modFib f g).formed = true := by
  obtain ⟨hf, hgr, ht⟩ := (formed_iff s).mp hs
  exact (formed_iff _).mpr ⟨forall_map_of hf hg, hgr, ht⟩

theorem modFibs_keepsForm (p : Fibre → Bool) {g : Fibre → Fibre} (hg : ∀ b, b.formed = true → (g b).formed = true)
    (hs : s.formed = true) : (s.modFibs p g).formed = true := by
  obtain ⟨hf, hgr, ht⟩ := (formed_iff s).mp hs
  exact (formed_iff _).mpr ⟨forall_map_of hf hg, hgr, ht⟩

theorem modGrp_keepsForm (team grp : Nat) {g : Group → Group} (hg : ∀ x, NMap.wf x.s = true → NMap.wf (g x).s = true)
    (hs : s.formed = true) : (s.modGrp team grp g).formed = true := by
  obtain ⟨hf, hgr, ht⟩ := (formed_iff s).mp hs
  exact (formed_iff _).mpr ⟨hf, forall_map_of (p := fun x : Group => NMap.wf x.s = true) hgr hg, ht⟩

theorem modTeam_keepsForm (t : Nat) {g : Team → Team} (hg : ∀ x, x.formed = true → (g x).formed = true)
    (hs : s.formed = true) : (s.modTeam t g).formed = true := by
  obtain ⟨hf, hgr, ht⟩ := (formed_iff s).mp hs
  exact (formed_iff _).mpr ⟨hf, hgr, forall_map_of ht hg⟩

theorem foldl_keepsForm {α : Type} {f : State → α → State} (hf : ∀ s x, s.formed = true → (f s x).formed = true)
    (l : List α) (hs : s.formed = true) : (l.foldl f s).formed = true :=
  foldl_keeps (fun t : State => t.formed = true) f (fun t x ht => hf t x ht) l s hs

end

section

variable (s : State)

/-! ### Fibres, groups, teams and the words of a clause -/

@[simp] theorem modCluster_formed (c : Nat) (g : Cluster → Cluster) : (s.modCluster c g).formed = s.formed := by
  simp [State.modCluster]

@[simp] theorem modClutch_formed (c : Nat) (g : Clutch → Clutch) : (s.modClutch c g).formed = s.formed := by
  simp [State.modClutch]

@[simp] theorem modRun_formed (r : Nat) (g : ClauseRun → ClauseRun) : (s.modRun r g).formed = s.formed := by
  simp [State.modRun]

@[simp] theorem modCore_formed (c : Nat) (g : Core → Core) : (s.modCore c g).formed = s.formed := by
  simp [State.modCore]

@[simp] theorem modPod_formed (p : Nat) (g : Pod → Pod) : (s.modPod p g).formed = s.formed := by
  simp [State.modPod]

@[simp] theorem modPart_formed (p : Nat) (g : Part → Part) : (s.modPart p g).formed = s.formed := by
  simp [State.modPart]

@[simp] theorem newId_formed : s.newId.2.formed = s.formed := by
  simp [State.newId]

/-- A write of a register keeps the forms (R29). -/
@[simp] theorem writeReg_formed (f : FibId) (k : WriteKey) (o : Opnd) (c : RegCell) (hs : s.formed = true) :
    (s.writeReg f k o c).formed = true := by
  unfold State.writeReg
  cases o with
  | x n => exact modFib_keepsForm f (fun b hb => (fibre_formed_update ..).trans
      (fibre_formed_x hb (NMap.wf_set _ _ _ (fibre_wf_x hb)))) hs
  | t n => exact modFib_keepsForm f (fun b hb => (fibre_formed_update ..).trans
      (fibre_formed_t hb (NMap.wf_set _ _ _ (fibre_wf_t hb)))) hs
  | s n => exact modGrp_keepsForm _ _ (fun g hg => writeS_wf k f.lane n.val c hg) hs
  | k n => exact hs

@[simp] theorem raise_formed (v : View) (code detail : Nat) (addr : Word) :
    (s.raise v code detail addr).formed = s.formed := by
  simp [State.raise]

@[simp] theorem markTook_formed (v : View) : (s.markTook v).formed = s.formed := by
  simp [State.markTook]

@[simp] theorem writeRegs_formed (v : View) (ws : List (Opnd × RegCell)) (hs : s.formed = true) :
    (s.writeRegs v ws).formed = true := by
  induction ws generalizing s with
  | nil => exact hs
  | cons w ws ih => exact ih _ (writeReg_formed _ _ _ _ _ hs)

@[simp] theorem apply_formed (v : View) (r : WordRes) (hs : s.formed = true) : (s.apply v r).formed = true := by
  cases r with
  | trap code detail addr => simp [State.apply, hs]
  | eff regs preds flags =>
    simp only [State.apply, markTook_formed]
    exact modFib_keepsForm _ (fun b hb => (fibre_formed_update ..).trans (setPreds_formed preds hb))
      (writeRegs_formed _ _ _ hs)

@[simp] theorem onViews_formed (vs : List View) (f : View → WordRes) (hs : s.formed = true) :
    (s.onViews vs f).formed = true :=
  foldl_keepsForm (fun _ _ hs => apply_formed _ _ _ hs) vs hs

@[simp] theorem word_formed (g : Guard) (f : View → WordRes) (hs : s.formed = true) : (s.word g f).formed = true := by
  simp [State.word, hs]

theorem wordSeq_formed {s : State} {g : Guard} {f : State → View → State} (hs : s.formed = true)
    (h : ∀ s v, s.formed = true → (f s v).formed = true) : (s.wordSeq g f).formed = true :=
  foldl_keepsForm h _ hs

/-! ### Lane operations -/

@[simp] theorem tileWord_formed (f : List View → View → Option WordRes) (hs : s.formed = true) :
    (s.tileWord f).formed = true :=
  foldl_keepsForm (fun _ _ hs => apply_formed _ _ _ hs) _ hs

@[simp] theorem laneWord_formed (g : Guard) (f : List View → View → WordRes) (hs : s.formed = true) :
    (s.laneWord g f).formed = true := by
  simp [State.laneWord, hs]

/-! ### Executions and paths -/

@[simp] theorem loosen_formed (f : FibId) : (s.loosen f).formed = s.formed := by
  simp [State.loosen]

@[simp] theorem claimEntry_formed (core : Nat) (fs : List FibId) : (s.claimEntry core fs).formed = s.formed := by
  simp [State.claimEntry]

@[simp] theorem parkAll_formed (fs : List FibId) : (s.parkAll fs).formed = s.formed := by
  simp [State.parkAll]

@[simp] theorem moveTo_formed (f : FibId) (pc : Word) : (s.moveTo f pc).formed = s.formed := by
  simp [State.moveTo]

@[simp] theorem unpark_formed (team grp : Nat) (pc : Word) : (s.unpark team grp pc).formed = s.formed := by
  simp [State.unpark]

@[simp] theorem reserve_formed (t g : Nat) : (s.reserve t g).formed = s.formed := by
  unfold State.reserve
  repeat' split
  all_goals simp

@[simp] theorem closeExec_formed (core t g e : Nat) (next : Word) :
    (s.closeExec core t g e next).formed = s.formed := by
  simp [State.closeExec]

@[simp] theorem leaveExec_formed (core : Nat) (f : FibId) (next : Word) :
    (s.leaveExec core f next).formed = s.formed := by
  unfold State.leaveExec
  split <;> simp

/-! ### Control flow -/

@[simp] theorem branchTo_formed (v : View) (target : Word) : (s.branchTo v target).formed = s.formed := by
  simp [State.branchTo]

theorem control_formed {s : State} {g : Guard} {f : State → View → State} (hs : s.formed = true)
    (h : ∀ s v, s.formed = true → (f s v).formed = true) : (s.control g f).formed = true := by
  unfold State.control
  refine foldl_keepsForm (fun s v hs => ?_) _ hs
  split
  · exact hs
  · exact h s v hs

@[simp] theorem tileBranch_formed (g : Guard) (p : Fin 8) (off : BitVec 16) (decision : List Bool → Bool)
    (hs : s.formed = true) : (s.tileBranch g p off decision).formed = true := by
  refine foldl_keepsForm (fun s v hs => ?_) _ hs
  split
  · exact apply_formed _ _ _ hs
  · dsimp only
    split
    · simp [hs]
    · exact hs

@[simp] theorem link_formed (v : View) : (s.link v).formed = s.formed := by
  simp [State.link]

theorem mem_insFibre (n : Fibre) (l : List Fibre) : ∀ b ∈ insFibre n l, b = n ∨ b ∈ l := by
  induction l with
  | nil => simp [insFibre]
  | cons g l ih =>
    intro b hb
    unfold insFibre at hb
    split at hb
    · simpa using hb
    · obtain rfl | hb := List.mem_cons.mp hb
      · simp
      · exact (ih b hb).imp id (List.mem_cons_of_mem g)

/-- A new fibre joins the others. -/
theorem formed_insFibre {s : State} (hs : s.formed = true) {n : Fibre} (hn : n.formed = true) :
    ({ s with fibres := insFibre n s.fibres } : State).formed = true := by
  obtain ⟨hf, hg, ht⟩ := (formed_iff s).mp hs
  refine (formed_iff _).mpr ⟨fun b hb => ?_, hg, ht⟩
  obtain rfl | hb := mem_insFibre _ _ b hb
  · exact hn
  · exact hf b hb

theorem fillLane_formed {s : State} (core : Nat) {n : Fibre} (hs : s.formed = true) (hn : n.formed = true) :
    (s.fillLane core n).formed = true := by
  unfold State.fillLane
  rw [claimEntry_formed]
  exact formed_insFibre hs ((fibre_formed_update ..).trans hn)

/-! ### Memory and the caches -/

@[simp] theorem refreshed_formed (stack q bank : Nat) : (s.refreshed stack q bank).formed = s.formed := by
  simp [State.refreshed]

@[simp] theorem activate_formed (base : Nat) : (s.activate base).formed = s.formed := by
  simp [State.activate]

@[simp] theorem hbmWrite_formed (base : Nat) (w : SecWrite) : (s.hbmWrite base w).formed = s.formed := by
  simp [State.hbmWrite]

@[simp] theorem fillFrame_formed (f : Nat) : (s.fillFrame f).formed = s.formed := by
  simp [State.fillFrame]

@[simp] theorem memRead_formed (base : Nat) : (s.memRead base).2.formed = s.formed := by
  simp [State.memRead]

@[simp] theorem memWrite_formed (base : Nat) (w : SecWrite) (part : Nat) :
    (s.memWrite base w part).formed = s.formed := by
  simp [State.memWrite]

@[simp] theorem useL2_formed (die : Nat) (use : L2Use) (base : Nat) : (s.useL2 die use base).formed = s.formed := by
  simp [State.useL2]

@[simp] theorem homeRead_formed (base : Nat) (words : BitVec 8) : (s.homeRead base words).2.formed = s.formed := by
  simp [State.homeRead]

@[simp] theorem dropGuests_formed (base : Nat) : (s.dropGuests base).formed = s.formed := by
  simp [State.dropGuests]

@[simp] theorem homeWrite_formed (base : Nat) (w : SecWrite) (part : Nat) :
    (s.homeWrite base w part).formed = s.formed := by
  simp [State.homeWrite]

@[simp] theorem l2Flush_formed (base : Nat) : (s.l2Flush base).formed = s.formed := by
  unfold State.l2Flush
  split <;> simp

@[simp] theorem l2Drop_formed (base : Nat) : (s.l2Drop base).formed = s.formed := by
  simp [State.l2Drop]

@[simp] theorem fetch_formed (pod base : Nat) : (s.fetch pod base).2.formed = s.formed := by
  unfold State.fetch
  dsimp only
  split <;> simp

@[simp] theorem podRead_formed (pod base : Nat) (words : BitVec 8) :
    (s.podRead pod base words).2.formed = s.formed := by
  simp [State.podRead]

@[simp] theorem podWrite_formed (pod base : Nat) (w : SecWrite) (f : FibId) (part : Nat) :
    (s.podWrite pod base w f part).formed = s.formed := by
  simp [State.podWrite]

@[simp] theorem podFlush_formed (pod base : Nat) : (s.podFlush pod base).formed = s.formed := by
  unfold State.podFlush
  split <;> simp

@[simp] theorem podDrop_formed (pod base : Nat) : (s.podDrop pod base).formed = s.formed := by
  simp [State.podDrop]

@[simp] theorem dropSealed_formed (pod base : Nat) (l2 : Bool) : (s.dropSealed pod base l2).formed = s.formed := by
  simp [State.dropSealed]

@[simp] theorem flushCxl_formed : s.flushCxl.formed = s.formed := by
  simp [State.flushCxl]

@[simp] theorem podForget_formed (pod base : Nat) : (s.podForget pod base).formed = s.formed := by
  simp [State.podForget]

@[simp] theorem writeBack_formed (pod : Nat) (sys : Bool) (p : FibId → Bool) :
    (s.writeBack pod sys p).formed = s.formed := by
  simp [State.writeBack]

@[simp] theorem podAcquire_formed (pod : Nat) : (s.podAcquire pod).formed = s.formed := by
  simp [State.podAcquire]

@[simp] theorem replicate_formed (die clutch base : Nat) (tag : Option SealTag) (v : SecVal) :
    (s.replicate die clutch base tag v).formed = s.formed := by
  simp [State.replicate]

@[simp] theorem installSealed_formed (pod base : Nat) (tag : SealTag) (v : SecVal) :
    (s.installSealed pod base tag v).formed = s.formed := by
  simp [State.installSealed]

@[simp] theorem remoteSec_formed (base : Nat) : (s.remoteSec base).2.formed = s.formed := by
  simp [State.remoteSec]

@[simp] theorem sendWrite_formed (fib : FibId) (part dpa : Nat) (attr : PageAttr) :
    (s.sendWrite fib part dpa attr).formed = s.formed := by
  simp [State.sendWrite]

@[simp] theorem readSec_formed (g : Agent) (dpa : Nat) (attr : PageAttr) (home : Bool) (words : BitVec 8) :
    (s.readSec g dpa attr home words).2.formed = s.formed := by
  unfold State.readSec
  dsimp only
  repeat' split
  all_goals simp

@[simp] theorem writeSec_formed (g : Agent) (dpa : Nat) (attr : PageAttr) (home : Bool) (w : SecWrite) :
    (s.writeSec g dpa attr home w).formed = s.formed := by
  unfold State.writeSec
  repeat' split
  all_goals simp

@[simp] theorem readNat_formed (g : Agent) (dpa : Nat) (attr : PageAttr) (home : Bool) (n : Nat) :
    (s.readNat g dpa attr home n).2.formed = s.formed := by
  simp [State.readNat]

@[simp] theorem writeNat_formed (g : Agent) (dpa : Nat) (attr : PageAttr) (home : Bool) (n v : Nat) (p : Bool) :
    (s.writeNat g dpa attr home n v p).formed = s.formed := by
  simp [State.writeNat]

@[simp] theorem hubWords_formed (dpa n : Nat) : (s.hubWords dpa n).2.formed = s.formed := by
  simp [State.hubWords]

@[simp] theorem hubPut_formed (dpa : Nat) (ws : List Word) (part : Nat) :
    (s.hubPut dpa ws part).formed = s.formed := by
  simp [State.hubPut]

@[simp] theorem l2Evict_formed (u : L2Line) : (s.l2Evict u).formed = s.formed := by
  unfold State.l2Evict
  split <;> simp

@[simp] theorem fitLine_formed (u : L2Line) : (s.fitLine u).formed = s.formed := by
  unfold State.fitLine
  dsimp only
  split <;> simp

@[simp] theorem fitL2_formed : s.fitL2.formed = s.formed := by
  simp [State.fitL2]

@[simp] theorem fitPod_formed (pod : Nat) : (s.fitPod pod).formed = s.formed := by
  simp [State.fitPod]

@[simp] theorem fit_formed : s.fit.formed = s.formed := by
  simp [State.fit]

/-! ### The journal -/

@[simp] theorem signal_formed (part vec : Nat) : (s.signal part vec).formed = s.formed := by
  simp [State.signal]

@[simp] theorem journal_formed (part : Nat) (r : JRec) : (s.journal part r).formed = s.formed := by
  simp [State.journal]

@[simp] theorem note_formed (part kind queue cause : Nat) (w : Where) (arg : Word) :
    (s.note part kind queue cause w arg).formed = s.formed := by
  simp [State.note]

@[simp] theorem noteError_formed (part queue cause : Nat) (w : Where) (arg cont : Word) :
    (s.noteError part queue cause w arg cont).formed = s.formed := by
  simp [State.noteError]

@[simp] theorem journalLost_formed : s.journalLost.formed = s.formed := by
  unfold State.journalLost
  rw [foldl_formed]
  · simp
  · intro s l
    dsimp only
    split <;> simp

@[simp] theorem logEvent_formed (kind wh : Nat) : (s.logEvent kind wh).formed = s.formed := by
  simp [State.logEvent]

/-! ### Translation and the memory port -/

@[simp] theorem desc_formed (part idx : Nat) : (s.desc part idx).2.formed = s.formed := by
  unfold State.desc
  split <;> simp

@[simp] theorem walkFrom_formed (table va : Nat) (levels : List Level) :
    (s.walkFrom table va levels).2.formed = s.formed := by
  induction levels generalizing s table with
  | nil => rfl
  | cons l ls ih => simp [State.walkFrom, ih]

@[simp] theorem walk_formed (part va : Nat) : (s.walk part va).2.formed = s.formed := by
  unfold State.walk
  dsimp only
  split <;> simp

@[simp] theorem tlbFill_formed (pod : Nat) (t : Tlb) : (s.tlbFill pod t).formed = s.formed := by
  simp [State.tlbFill]

@[simp] theorem lookup_formed (pod part va : Nat) : (s.lookup pod part va).2.formed = s.formed := by
  unfold State.lookup
  repeat' split
  all_goals simp

@[simp] theorem translateAll_formed (pod part : Nat) (vas : List Nat) :
    (s.translateAll pod part vas).2.formed = s.formed := by
  induction vas generalizing s with
  | nil => rfl
  | cons va vas ih =>
    unfold State.translateAll
    dsimp only
    split
    · simp
    · split <;> simp [ih]

@[simp] theorem port_formed (pod : Nat) (q : PortReq) : (s.port pod q).2.formed = s.formed := by
  unfold State.port
  split
  · rfl
  split
  · rfl
  split
  · rfl
  dsimp only
  iterate 8
    split
    · simp
  split <;> simp

@[simp] theorem faultOn_formed (part va : Nat) (addr : Word) (core queue : Nat) (k : FaultKind) (e : WalkFail) :
    (s.faultOn part va addr core queue k e).2.formed = s.formed := by
  unfold State.faultOn
  split <;> simp

@[simp] theorem startWalk_formed (part va : Nat) (addr : Word) (core queue : Nat) (k : FaultKind) (pod : Nat)
    (quiet : Bool) : (s.startWalk part va addr core queue k pod quiet).2.formed = s.formed := by
  unfold State.startWalk
  split <;> simp

@[simp] theorem reach_formed (pod : Nat) (q : PortReq) (addr : Word) (queue : Nat) (k : FaultKind) (fuel : Nat) :
    (s.reach pod q addr queue k fuel).2.formed = s.formed := by
  induction fuel generalizing s with
  | zero => rfl
  | succ n ih =>
    unfold State.reach
    dsimp only
    split
    · simp
    · simp
    · split
      · simp
      · split <;> simp [ih]

end

end Sys2Proof.Machine
end

section
/-! SUPPORT. The forms of O60: accesses, meetings, and what an operation does when it is performed. -/

namespace Sys2Proof.Machine

open Sys2Proof

section

variable (s : State)

/-! ### Planned accesses -/

@[simp] theorem planForm_formed (v : View) (k : Nat) (m : MemForm) : (s.planForm v k m).2.formed = s.formed := by
  unfold State.planForm
  dsimp only
  repeat' split
  all_goals simp

@[simp] theorem planScale_formed (v : View) (f : EFmt) (l : Loc) (e : Nat) :
    (s.planScale v f l e).2.formed = s.formed := by
  unfold State.planScale
  dsimp only
  repeat' split
  all_goals simp

@[simp] theorem planElem_formed (v : View) (k : Nat) (r : MemRef) (z : Sz) (f : EFmt) (whole write scaled : Bool) :
    (s.planElem v k r z f whole write scaled).2.formed = s.formed := by
  unfold State.planElem
  dsimp only
  repeat' split
  all_goals simp

@[simp] theorem planLines_formed (v : View) (k : Nat) (r : MemRef) (z : Sz) :
    (s.planLines v k r z).2.formed = s.formed := by
  unfold State.planLines
  dsimp only
  repeat' split
  all_goals simp

@[simp] theorem planPrefetch_formed (v : View) (k : Nat) (r : MemRef) (z : Sz) (rep : Bool) :
    (s.planPrefetch v k r z rep).2.formed = s.formed := by
  unfold State.planPrefetch
  split
  · rfl
  split
  · rfl
  split
  · rfl
  refine foldl_snd_formed _ (fun p i => ?_) _ _
  dsimp only
  split <;> simp

@[simp] theorem planAccess_formed (v : View) (k : Nat) (i : Instr) : (s.planAccess v k i).2.formed = s.formed := by
  unfold State.planAccess
  repeat' split
  all_goals simp

@[simp] theorem planWord_formed (v : View) (written : List (Fin 8)) (k : Nat) (i : Instr) :
    (s.planWord v written k i).2.formed = s.formed := by
  unfold State.planWord
  dsimp only
  repeat' split
  all_goals simp

@[simp] theorem planFrom_formed (v : View) (written : List (Fin 8)) (is : List (Nat × Instr)) :
    (s.planFrom v written is).2.formed = s.formed := by
  induction is generalizing s written with
  | nil => rfl
  | cons a is ih =>
    unfold State.planFrom
    dsimp only
    split
    · simp
    · simp
    · simp [ih]
    · split <;> simp [ih]

@[simp] theorem planFibre_formed (v : View) (is : List (Nat × Instr)) : (s.planFibre v is).2.formed = s.formed := by
  simp [State.planFibre]

@[simp] theorem issue_formed (v : View) (isLoad : Bool) (flag : Nat) (o : Ord) (loc : Loc) (addr : Word)
    (act : OpAct) : (s.issue v isLoad flag o loc addr act).formed = s.formed := by
  unfold State.issue
  dsimp only
  split <;> simp

@[simp] theorem issueWord_formed (g : Guard) (isLoad : Bool) (o : Ord) (f : View → Access → OpAct) :
    (s.issueWord g isLoad o f).formed = s.formed := by
  refine foldl_formed _ (fun s v => ?_) _ s
  split <;> simp

@[simp] theorem askLine_formed (core part : Nat) (rep : Option (Nat × Nat)) (dpa : Nat) (t : PageAttr) :
    (s.askLine core part rep dpa t).formed = s.formed := by
  simp [State.askLine]

@[simp] theorem prefetch_formed (core part : Nat) (rep : Option (Nat × Nat)) (l : Loc) :
    (s.prefetch core part rep l).formed = s.formed := by
  unfold State.prefetch
  repeat' split
  all_goals simp

/-! ### Meetings, phases and the ends of fibres and teams -/

@[simp] theorem keep_formed (o : MemOp) (r : Opnd × RegCell) : (s.keep o r).formed = s.formed := by
  simp [State.keep]

@[simp] theorem freeFe_formed (f : FibId) : (s.freeFe f).formed = s.formed := by
  simp [State.freeFe]

@[simp] theorem finishOne_formed (o : MemOp) : (s.finishOne o).formed = s.formed := by
  simp [State.finishOne]

@[simp] theorem finish_formed (o : MemOp) : (s.finish o).formed = s.formed := by
  simp [State.finish]

@[simp] theorem forsake_formed (o : MemOp) (hs : s.formed = true) : (s.forsake o).formed = true := by
  unfold State.forsake
  dsimp only
  split
  · simp [hs]
  · split
    · simp [hs]
    · rw [foldl_formed _ fun s q => finishOne_formed ..]
      exact foldl_keepsForm (fun s r hs => writeReg_formed _ _ _ _ _ hs) _ (by simp [hs])

@[simp] theorem teams_map_formed (c : Team → Bool) (g : Team → Team) (hg : ∀ t, (g t).formed = t.formed) :
    ({ s with teams := s.teams.map fun t => if c t then g t else t } : State).formed = s.formed := by
  unfold State.formed
  dsimp only
  rw [all_map_same hg]

@[simp] theorem team_releaseHeld_formed (t : Team) (h : Hold) :
    ({ t with ckpt := t.ckpt.map (Ckpt.releaseHeld · h) } : Team).formed = t.formed := by
  unfold Team.formed
  cases t.ckpt <;> simp

@[simp] theorem releaseHeld_formed (p : Team → Bool) (h : Hold) : (s.releaseHeld p h).formed = s.formed := by
  unfold State.releaseHeld
  dsimp only
  exact (teams_map_formed (s.modFibs _ _) p _ fun t => team_releaseHeld_formed t h).trans
    (modFibs_formed s _ _ fun b => release_formed b h)

@[simp] theorem barCheck_formed (team b : Nat) : (s.barCheck team b).formed = s.formed := by
  unfold State.barCheck
  split <;> simp

@[simp] theorem cbarCheck_formed (cluster b : Nat) : (s.cbarCheck cluster b).formed = s.formed := by
  unfold State.cbarCheck
  split <;> simp

@[simp] theorem gbarCheck_formed (clutch b : Nat) : (s.gbarCheck clutch b).formed = s.formed := by
  unfold State.gbarCheck
  split <;> simp

@[simp] theorem aimB_formed (team : Nat) (caps : List MtxCap) : (s.aimB team caps).formed = s.formed := by
  unfold State.aimB
  split <;> simp

@[simp] theorem phaseOp_formed (team : Nat) (caps : List MtxCap) : (s.phaseOp team caps).formed = s.formed := by
  unfold State.phaseOp
  split
  · split
    · simp
    · rw [foldl_formed]
      intro s c
      dsimp only
      split <;> simp
  · rfl

@[simp] theorem phaseCheck_formed (team k : Nat) : (s.phaseCheck team k).formed = s.formed := by
  unfold State.phaseCheck
  split <;> simp

@[simp] theorem leave_formed (f : FibId) (k : Nat) : (s.leave f k).formed = s.formed := by
  unfold State.leave
  split
  · split
    · rfl
    · dsimp only
      split
      · simp
      · rw [phaseCheck_formed, foldl_formed]
        · simp
        · intro s c
          split <;> simp
  · rfl

@[simp] theorem leaveAll_formed (f : FibId) (m : BitVec 8) : (s.leaveAll f m).formed = s.formed := by
  simp [State.leaveAll]

@[simp] theorem pointCheck_formed (team : Nat) : (s.pointCheck team).formed = s.formed := by
  simp [State.pointCheck]

@[simp] theorem endCluster_formed (cluster : Nat) : (s.endCluster cluster).formed = s.formed := by
  unfold State.endCluster
  split <;> simp

/-- The end of a team takes away its fibres, groups and checkpoint. -/
@[simp] theorem endTeam_formed (team : Nat) (hs : s.formed = true) : (s.endTeam team).formed = true := by
  obtain ⟨hf, hg, ht⟩ := (formed_iff s).mp hs
  unfold State.endTeam
  split
  · exact hs
  · dsimp only
    rw [foldl_formed _ fun s b => gbarCheck_formed .., foldl_formed _ fun s b => cbarCheck_formed ..]
    refine (state_formed_update (ite _ _ _) ..).trans ?_
    rw [formed_ite, endCluster_formed, ite_self]
    exact modTeam_keepsForm team (fun u hu => team_formed_ckpt hu rfl rfl rfl rfl rfl)
      ((formed_iff _).mpr ⟨forall_filter_of _ hf, forall_filter_of _ hg, ht⟩)

theorem formed_filterFibres {s : State} (hs : s.formed = true) (p : Fibre → Bool) :
    ({ s with fibres := s.fibres.filter p } : State).formed = true := by
  obtain ⟨hf, hg, ht⟩ := (formed_iff s).mp hs
  exact (formed_iff _).mpr ⟨forall_filter_of _ hf, hg, ht⟩

/-- What becomes of a team whose last fibre may have left. -/
theorem lastFibre_formed {s : State} (hs : s.formed = true) (last rOpen : Bool) (team : Nat) :
    (if last then if rOpen then s.modTeam team fun t => { t with point := .ending } else s.endTeam team
      else s).formed = true := by
  split
  · split
    · simp [hs]
    · exact endTeam_formed _ _ hs
  · exact hs

@[simp] theorem endFibre_formed (f : FibId) (hs : s.formed = true) : (s.endFibre f).formed = true := by
  unfold State.endFibre
  split
  · exact hs
  · refine lastFibre_formed ?_ _ _ _
    rw [pointCheck_formed, foldl_formed _ fun s b => gbarCheck_formed .., foldl_formed _ fun s b => cbarCheck_formed ..,
      barCheck_formed, reserve_formed]
    refine formed_filterFibres ?_ _
    rw [formed_ite, modTeam_formed _ _ _ fun t => team_formed_update t .., leaveAll_formed, ite_self, hs]

@[simp] theorem sweepN_formed (n : Nat) (hs : s.formed = true) : (s.sweepN n).formed = true := by
  induction n generalizing s with
  | zero => exact hs
  | succ n ih =>
    unfold State.sweepN
    split <;> simp [ih, hs]

@[simp] theorem sweep_formed (hs : s.formed = true) : s.sweep.formed = true := by
  simp [State.sweep, hs]

/-! ### Sibling cells -/

@[simp] theorem readCell_formed (sha : Nat) : (s.readCell sha).2.formed = s.formed := by
  simp [State.readCell]

@[simp] theorem putCell_formed (sha dpa part : Nat) (c : SibCell) :
    (s.putCell sha dpa part c).formed = s.formed := by
  simp [State.putCell]

/-! ### What an operation does when it is performed -/

@[simp] theorem putBlock_formed (t : Team) (a : Word) (ws : List W32) : (s.putBlock t a ws).formed = s.formed := by
  simp [State.putBlock]

@[simp] theorem releaseFor_formed (o : MemOp) : (s.releaseFor o).formed = s.formed := by
  simp [State.releaseFor]

@[simp] theorem acquireFor_formed (o : MemOp) : (s.acquireFor o).formed = s.formed := by
  simp [State.acquireFor]

@[simp] theorem onward_formed (o : MemOp) : (s.onward o).formed = s.formed := by
  simp [State.onward]

@[simp] theorem getLoc_formed (g : Agent) (l : Loc) (home : Bool) (n : Nat) :
    (s.getLoc g l home n).2.formed = s.formed := by
  unfold State.getLoc
  repeat' split
  all_goals simp

@[simp] theorem spadStore_formed (t o : Nat) (bs : List Byte) (p : Bool) (hs : s.formed = true) :
    (s.spadStore t o bs p).formed = true :=
  modTeam_keepsForm t (fun _ hx =>
    team_formed_store hx rfl fun h1 h2 h3 h4 => ⟨Memory.wf_store _ _ _ _ h1, h2, h3, h4⟩) hs

@[simp] theorem putLoc_formed (g : Agent) (l : Loc) (home : Bool) (n v : Nat) (p : Bool) (hs : s.formed = true) :
    (s.putLoc g l home n v p).formed = true := by
  unfold State.putLoc
  split <;> simp [hs]

/-- Several places written, one after another. -/
@[simp] theorem putLocs_formed {α : Type} (g : Agent) (l : α → Loc) (home : Bool) (n v : α → Nat) (p : α → Bool)
    (is : List α) (hs : s.formed = true) :
    (is.foldl (fun s i => s.putLoc g (l i) home (n i) (v i) (p i)) s).formed = true :=
  foldl_keepsForm (fun s i hs => putLoc_formed s g (l i) home (n i) (v i) (p i) hs) is hs

@[simp] theorem useSealed_formed (pod : Nat) (c : Sector) : (s.useSealed pod c).formed = s.formed := by
  unfold State.useSealed
  repeat' split
  all_goals simp

@[simp] theorem loadNat_formed (o : MemOp) (l : Loc) (n : Nat) : (s.loadNat o l n).2.formed = s.formed := by
  unfold State.loadNat
  repeat' split
  all_goals simp

@[simp] theorem latch_formed : s.latch.formed = s.formed := by
  simp [State.latch]

@[simp] theorem deliver_formed (o : MemOp) (regs : List (Opnd × RegCell)) (preds : List (Fin 8 × Bool))
    (hs : s.formed = true) : (s.deliver o regs preds).formed = true := by
  refine modFib_keepsForm _ (fun b hb => setPreds_formed preds hb) (foldl_keepsForm (fun s r hs => ?_) _ hs)
  split
  · split <;> simp [hs]
  · split <;> simp [hs]
  · simp [hs]

@[simp] theorem tookHome_formed (o : MemOp) : (s.tookHome o).formed = s.formed := by
  unfold State.tookHome
  dsimp only
  rw [modFib_formed]
  · simp
  · intro b
    split
    · split <;> simp
    · rfl

@[simp] theorem homeTrap_formed (o : MemOp) (code : Nat) (took : Bool) :
    (s.homeTrap o code took).formed = s.formed := by
  simp [State.homeTrap]

@[simp] theorem poisonLoad_formed (o : MemOp) (p : Bool) : (s.poisonLoad o p).formed = s.formed := by
  unfold State.poisonLoad
  split <;> simp

@[simp] theorem endLoad_formed (o : MemOp) (regs : List (Opnd × RegCell)) (hs : s.formed = true) :
    (s.endLoad o regs).formed = true := by
  unfold State.endLoad
  split <;> simp [hs]

@[simp] theorem leaveReplica_formed (o : MemOp) (rep : Bool) : (s.leaveReplica o rep).formed = s.formed := by
  simp [State.leaveReplica]

@[simp] theorem loadSpan_formed (o : MemOp) (l : Loc) (n : Nat) : (s.loadSpan o l n).2.formed = s.formed := by
  unfold State.loadSpan
  split <;> simp

@[simp] theorem tookPort_formed (o : MemOp) : (s.tookPort o).formed = s.formed := by
  unfold State.tookPort
  split <;> simp

@[simp] theorem readPart_formed (o : MemOp) (j : Nat) : (s.readPart o j).2.formed = s.formed := by
  unfold State.readPart
  split <;> simp

@[simp] theorem readParts_formed (o : MemOp) (js : List Nat) : (s.readParts o js).2.formed = s.formed := by
  unfold State.readParts
  rw [foldl_snd_formed]
  intro p j
  dsimp only
  split <;> simp

@[simp] theorem performLoad_formed (o : MemOp) (hs : s.formed = true) : (s.performLoad o).formed = true := by
  simp [State.performLoad, hs]

@[simp] theorem endStore_formed (o : MemOp) : (s.endStore o).formed = s.formed := by
  simp [State.endStore]

@[simp] theorem writePart_formed (o : MemOp) (j : Nat) (hs : s.formed = true) : (s.writePart o j).formed = true := by
  unfold State.writePart
  repeat' split
  all_goals simp [hs]

@[simp] theorem performStore_formed (o : MemOp) (hs : s.formed = true) : (s.performStore o).formed = true := by
  unfold State.performStore
  rw [endStore_formed]
  exact foldl_keepsForm (fun s j hs => writePart_formed s o j hs) _ (by simp [hs])

theorem shading_formed {s : State} (o : MemOp) {f : State → State} (hs : s.formed = true)
    (h : ∀ s, s.formed = true → (f s).formed = true) : (s.shading o f).formed = true := by
  unfold State.shading
  dsimp only
  split
  · exact h s hs
  · simp [h s hs]

@[simp] theorem applyAtom_formed (g : Agent) (l : Loc) (home : Bool) (op : AtomOp) (wide : Bool) (b c : RegCell)
    (hs : s.formed = true) : (s.applyAtom g l home op wide b c).2.formed = true := by
  simp [State.applyAtom, hs]

@[simp] theorem endAtom_formed (o : MemOp) (d : Option Opnd) (ps : Fin 8) (op : AtomOp) (old : RegCell) (ok : Bool)
    (hs : s.formed = true) : (s.endAtom o d ps op old ok).formed = true := by
  simp [State.endAtom, hs]

@[simp] theorem performAtoms_formed (os : List MemOp) (hs : s.formed = true) : (s.performAtoms os).formed = true := by
  refine foldl_keepsForm (fun s o hs => ?_) os hs
  split
  · refine shading_formed _ hs fun s hs => ?_
    dsimp only
    simp [hs]
  · exact hs

@[simp] theorem lockTrap_formed (o : MemOp) (hs : s.formed = true) : (s.lockTrap o).formed = true := by
  simp [State.lockTrap, hs]

theorem combine_formed {s t : State} {o : MemOp} {dpa : Nat} {op : AtomOp} {wide : Bool}
    (h : s.combine o dpa op wide = some t) : t.formed = s.formed := by
  unfold State.combine at h
  dsimp only at h
  split at h
  · cases h
    simp
  · split at h
    · cases h
    · cases h
      simp

theorem lockTraps_formed {s : State} (os : List MemOp) (hs : s.formed = true) :
    (os.foldl (fun s o => s.lockTrap o) s).formed = true :=
  foldl_keepsForm (fun s o hs => lockTrap_formed s o hs) os hs

@[simp] theorem applyComb_formed (pod : Nat) (c : Comb) (hs : s.formed = true) : (s.applyComb pod c).formed = true := by
  unfold State.applyComb
  dsimp only
  split
  · exact lockTraps_formed _ (by simp [hs])
  · rw [foldl_formed _ fun s o => (finish_formed ..).trans (onward_formed ..)]
    exact foldl_keepsForm (fun s b hs => applyAtom_formed _ _ _ _ _ _ _ _ hs) _ (lockTraps_formed _ (by simp [hs]))

@[simp] theorem flushComb_formed (pod : Nat) (hs : s.formed = true) : (s.flushComb pod).formed = true :=
  foldl_keepsForm (fun s c hs => applyComb_formed s pod c hs) _ hs

@[simp] theorem performRed_formed (o : MemOp) (op : AtomOp) (wide : Bool) (b : RegCell) (hs : s.formed = true) :
    (s.performRed o op wide b).formed = true := by
  unfold State.performRed
  dsimp only
  split
  · split
    · split
      · next h => simp [combine_formed h, hs]
      · simp [hs]
    · simp [hs]
  · simp [hs]

@[simp] theorem performFence_formed (o : MemOp) (hs : s.formed = true) : (s.performFence o).formed = true := by
  simp [State.performFence, hs]

@[simp] theorem performLines_formed (o : MemOp) (inv : Bool) (lines : List Nat) :
    (s.performLines o inv lines).formed = s.formed := by
  simp [State.performLines]

@[simp] theorem setGranules_formed (t lo n : Nat) (b : Bool) (hs : s.formed = true) :
    (s.setGranules t lo n b).formed = true :=
  modTeam_keepsForm t (fun _ hx => granules_formed hx _ b) hs

/-- The registers that a fibre in a checkpoint gets. -/
theorem put_formed {b : Fibre} (hb : b.formed = true) (regs : List (Opnd × RegCell)) :
    (regs.foldl (fun f r => match r.1 with | .x n => { f with x := f.x.set n.val r.2 } | _ => f) b).formed = true := by
  induction regs generalizing b with
  | nil => exact hb
  | cons r regs ih =>
    rw [List.foldl_cons]
    refine ih ?_
    split
    · exact fibre_formed_x hb (NMap.wf_set _ _ _ (fibre_wf_x hb))
    · exact hb

theorem putS_wf {g : Group} (hg : NMap.wf g.s = true) (k : WriteKey) (lane : Nat) (regs : List (Opnd × RegCell)) :
    NMap.wf (regs.foldl (fun g r => match r.1 with | .s n => g.writeS k lane n.val r.2 | _ => g) g).s = true := by
  induction regs generalizing g with
  | nil => exact hg
  | cons r regs ih =>
    rw [List.foldl_cons]
    refine ih ?_
    split
    · exact writeS_wf _ _ _ _ hg
    · exact hg

@[simp] theorem deliverSaved_formed (o : MemOp) (regs : List (Opnd × RegCell)) (hs : s.formed = true) :
    (s.deliverSaved o regs).formed = true := by
  unfold State.deliverSaved
  dsimp only
  split
  · exact hs
  · refine modTeam_keepsForm _ (fun t ht => ?_) hs
    split
    · next k hk =>
      obtain ⟨h1, h2, h3, h4, h5⟩ := (team_formed_iff t).mp ht
      rw [hk] at h5
      obtain ⟨hf, hg⟩ := (ckpt_formed_iff k).mp h5
      refine (team_formed_iff _).mpr ⟨h1, h2, h3, h4, (ckpt_formed_iff _).mpr
        ⟨forall_map_of hf fun b hb => put_formed hb regs, ?_⟩⟩
      exact forall_map_of (p := fun g : Group => NMap.wf g.s = true) hg fun g hg => putS_wf hg _ _ regs
    · exact ht

@[simp] theorem performFe_formed (o : MemOp) (hs : s.formed = true) : (s.performFe o).formed = true := by
  refine shading_formed _ hs fun s hs => ?_
  dsimp only
  split
  · refine endLoad_formed _ _ _ (deliverSaved_formed _ _ _ ?_)
    split <;> simp [hs]
  · rw [finish_formed]
    refine setGranules_formed _ _ _ _ _ ?_
    split <;> simp [hs]
  · exact hs

@[simp] theorem performSet_formed (o : MemOp) (set : Bool) (n : Nat) (hs : s.formed = true) :
    (s.performSet o set n).formed = true := by
  unfold State.performSet
  split <;> simp [hs]

@[simp] theorem performQuery_formed (o : MemOp) (d : Option Opnd) (hs : s.formed = true) :
    (s.performQuery o d).formed = true := by
  unfold State.performQuery
  split <;> simp [hs]

@[simp] theorem endSld_formed (o : MemOp) (d : Option Opnd) (v : RegCell) (tk : Word) (hs : s.formed = true) :
    (s.endSld o d v tk).formed = true := by
  simp [State.endSld, hs]

@[simp] theorem endSst_formed (o : MemOp) (d : Option Opnd) (quiet : Bool) (st : Nat) (hs : s.formed = true) :
    (s.endSst o d quiet st).formed = true := by
  simp [State.endSst, hs]

@[simp] theorem endSrec_formed (o : MemOp) (d : Option Opnd) (ps : Fin 8) (tk : RegCell) (ok : Bool)
    (hs : s.formed = true) : (s.endSrec o d ps tk ok).formed = true := by
  simp [State.endSrec, hs]

@[simp] theorem exhausted_formed (o : MemOp) (hs : s.formed = true) : (s.exhausted o).formed = true := by
  simp [State.exhausted, hs]

@[simp] theorem performSib_formed (o : MemOp) (hs : s.formed = true) : (s.performSib o).formed = true := by
  unfold State.performSib
  dsimp only
  repeat' split
  all_goals simp [hs]

theorem moved_formed {t : Team} (ht : t.formed = true) (w : Bool) (ci : Nat) (b : RegCell) :
    (if w then (t.setAcc ci (b.v.extractLsb' 0 32)).setAccP ci b.p false else t.setPair ci b.v b.p).formed = true := by
  split
  · exact setAccP_formed (setAcc_formed ht _ _) _ _ _
  · exact setPair_formed ht _ _ _

@[simp] theorem performMove_formed (o : MemOp) (hs : s.formed = true) : (s.performMove o).formed = true := by
  unfold State.performMove
  dsimp only
  split
  · simp [hs]
  · split
    · simp [hs]
    · rw [finish_formed]
      exact modTeam_keepsForm _ (fun t ht => (wrotePairs_formed ..).trans (moved_formed ht _ _ _)) hs
    · rw [finish_formed]
      exact modTeam_keepsForm _ (fun t ht => team_formed_store ht rfl fun h1 h2 h3 h4 =>
        ⟨h1, wf_filter _ h2, setWf_filter _ _ _ h3, h4⟩) hs
    · rw [finish_formed]
      exact foldl_keepsForm (fun s i hs => putLoc_formed _ _ _ _ _ _ _ hs) _ (by simp [hs])
    · rw [finish_formed]
      refine (modTeam_formed _ _ _ fun t => wrotePairs_formed ..).trans
        (foldl_keepsForm (fun s i hs => ?_) _ hs)
      exact modTeam_keepsForm _ (fun t ht => setPair_formed ht _ _ _) (by simp [hs])
    · simp [hs]

@[simp] theorem send_formed (o : MemOp) : (s.send o).formed = s.formed := by
  simp [State.send]

@[simp] theorem performFill_formed (o : MemOp) (rep : Option (Nat × Nat)) :
    (s.performFill o rep).formed = s.formed := by
  unfold State.performFill
  split
  · dsimp only
    rw [finish_formed, foldl_formed]
    intro s b
    split
    · split <;> simp
    · rfl
  · simp

@[simp] theorem performHere_formed (o : MemOp) (hs : s.formed = true) : (s.performHere o).formed = true := by
  have hst := shading_formed o hs fun s hs => performStore_formed s o hs
  have hmv := shading_formed o hs fun s hs => performMove_formed s o hs
  have hred := fun op wide b => shading_formed o hs fun s hs => performRed_formed s o op wide b hs
  unfold State.performHere
  split <;> simp [hs, hst, hmv, hred]

@[simp] theorem endAsk_formed (o : MemOp) (v : SecVal) : (s.endAsk o v).formed = s.formed := by
  unfold State.endAsk
  repeat' split
  all_goals simp

@[simp] theorem unanswered_formed (o : MemOp) (hs : s.formed = true) : (s.unanswered o).formed = true := by
  unfold State.unanswered
  split <;> simp [hs]

@[simp] theorem performPart_formed (n j : Nat) (hs : s.formed = true) : (s.performPart n j).formed = true := by
  unfold State.performPart
  split
  · exact hs
  · next o _ =>
    have hw : ∀ s : State, s.formed = true → (((s.releaseFor o).writePart o j).onward o).formed = true := by
      intro s hs
      simp [hs]
    have hp : (s.tookPort o).formed = true := by simp [hs]
    dsimp only
    split
    · exact hs
    · split
      · exact (state_formed_update (State.shading _ _ _) ..).trans (shading_formed o hp hw)
      · exact (state_formed_update (State.onward _ _) ..).trans (hw _ hp)
      · exact (state_formed_update (State.readPart _ _ _).2 ..).trans (by simp [hs])

@[simp] theorem keepSealed_formed (o : MemOp) (n : Nat) (bytes : List Byte) (p : List Bool) :
    (s.keepSealed o n bytes p).2.formed = s.formed := by
  unfold State.keepSealed
  split <;> simp

@[simp] theorem answerParts_formed (o : MemOp) (bytes : List Byte) (p : List Bool) :
    (s.answerParts o bytes p).2.formed = s.formed := by
  simp [State.answerParts]

@[simp] theorem answered_formed (o : MemOp) (bytes : List Byte) (p : List Bool) (hs : s.formed = true) :
    (s.answered o bytes p).formed = true := by
  unfold State.answered
  dsimp only
  repeat' split
  all_goals simp [hs]

end

end Sys2Proof.Machine
end

section
/-! SUPPORT. The forms of O60: the matrix engine, barriers, queues, tasks, kills, regions, fetch, issue and the end
of a clause. -/

namespace Sys2Proof.Machine

open Sys2Proof

section

variable (s : State)

/-! ### The matrix engine -/

@[simp] theorem arrive_formed (f : FibId) (k : Nat) (cap : Option MtxCap) :
    (s.arrive f k cap).formed = s.formed := by
  simp [State.arrive]

@[simp] theorem sign_formed (v : View) (k : Fin 8) (m : MmaMod) (batched : Bool) (gb : Nat) (a : Fin 128)
    (b : Opnd) (c : Option (Fin 128)) (hs : s.formed = true) : (s.sign v k m batched gb a b c).formed = true := by
  unfold State.sign
  split <;> simp [hs]

@[simp] theorem readB_formed (ops : List Nat) : (s.readB ops).formed = s.formed := by
  simp [State.readB]

theorem takeGranules_formed {t : Team} (ht : t.formed = true) (l : List Nat) :
    ({ t with full := l.foldl setDel t.full } : Team).formed = true :=
  team_formed_store ht rfl fun h1 h2 h3 h4 => ⟨h1, h2, h3,
    foldl_keeps (fun m : List Nat => setWfFrom none m = true) setDel (fun m g hm => setWfFrom_del m g none hm) l _ h4⟩

@[simp] theorem mtxStart_formed (core n : Nat) (o : MtxOp) (hs : s.formed = true) :
    (s.mtxStart core n o).formed = true := by
  unfold State.mtxStart
  split
  · next t sup c l _ _ _ =>
    dsimp only
    split
    · exact hs
    · rw [modCore_formed, readB_formed]
      generalize hu : s.modTeam t.id _ = u
      have hl : u.formed = true := by simp [← hu, hs]
      split
      · exact modTeam_keepsForm _ (fun u hu => takeGranules_formed hu _) hl
      · exact hl
  · simp [hs]

/-! ### Barriers and queues -/

@[simp] theorem barArrive_formed (v : View) (b : Nat) (n : Option Src) (wait : Bool) (hs : s.formed = true) :
    (s.barArrive v b n wait).formed = true := by
  simp [State.barArrive, hs]

@[simp] theorem setQueue_formed (core : Nat) (q : EQueue) (l : List QCmd) :
    (s.setQueue core q l).formed = s.formed := by
  simp [State.setQueue]

@[simp] theorem pushOne_formed (v : View) (q : EQueue) (n : Nat) (pf : Fin 8) (slot : Option Nat)
    (hs : s.formed = true) : (s.pushOne v q n pf slot).formed = true := by
  simp [State.pushOne, hs]

/-! ### Tasks, futures and joins -/

@[simp] theorem hubReach_formed (part : Nat) (a : Word) (len align : Nat) (rt : Right) (u : PageUse)
    (k : FaultKind) (queue : Nat) : (s.hubReach part a len align rt u k queue).2.formed = s.formed := by
  simp [State.hubReach]

@[simp] theorem hubRecord_formed (part : Nat) (a : Word) (queue : Nat) :
    (s.hubRecord part a queue).2.formed = s.formed := by
  unfold State.hubRecord
  dsimp only
  split <;> simp

@[simp] theorem taskPlace_formed (v : View) (a : Word) (len align : Nat) (rt : Right) :
    (s.taskPlace v a len align rt).2.formed = s.formed := by
  unfold State.taskPlace
  dsimp only
  repeat' split
  all_goals simp

@[simp] theorem taskRelease_formed (v : View) : (s.taskRelease v).formed = s.formed := by
  simp [State.taskRelease]

@[simp] theorem recWord_formed (g : Agent) (l : Loc) (i : Nat) : (s.recWord g l i).2.formed = s.formed := by
  simp [State.recWord]

@[simp] theorem putRec_formed (g : Agent) (l : Loc) (i v : Nat) (p : Bool) (hs : s.formed = true) :
    (s.putRec g l i v p).formed = true := by
  simp [State.putRec, hs]

@[simp] theorem sendJoin_formed (part : Nat) (join : Word) (failed : Bool) :
    (s.sendJoin part join failed).formed = s.formed := by
  simp [State.sendJoin]

@[simp] theorem resolve_formed (g : Agent) (l : Loc) (v : RegCell) (failed : Bool) (hs : s.formed = true) :
    (s.resolve g l v failed).2.formed = true := by
  simp [State.resolve, hs]

@[simp] theorem fibreResolve_formed (v : View) (a b : Opnd) (failed : Bool) (hs : s.formed = true) :
    (s.fibreResolve v a b failed).formed = true := by
  unfold State.fibreResolve
  dsimp only
  repeat' split
  all_goals simp [hs]

@[simp] theorem spawnOne_formed (v : View) (p : Fin 8) (a : Opnd) (b n : Nat) (hs : s.formed = true) :
    (s.spawnOne v p a b n).formed = true := by
  obtain ⟨reach, hreach⟩ : ∃ reach, reach = State.hubReach := ⟨_, rfl⟩
  have hr := hubReach_formed
  rw [← hreach] at hr
  unfold State.spawnOne
  rw [← hreach]
  dsimp only
  repeat' split
  all_goals simp [hr, hs]

@[simp] theorem readCard_formed (part : Nat) (a : Word) (queue : Nat) :
    (s.readCard part a queue).2.2.formed = s.formed := by
  unfold State.readCard
  dsimp only
  split <;> simp

@[simp] theorem settleFuture_formed (part : Nat) (fut v : Word) (failed : Bool) (queue : Nat) (hs : s.formed = true) :
    (s.settleFuture part fut v failed queue).2.formed = true := by
  unfold State.settleFuture
  dsimp only
  split <;> simp [hs]

@[simp] theorem dropJoin_formed (n : Nat) : (s.dropJoin n).formed = s.formed := by
  simp [State.dropJoin]

@[simp] theorem holdJoin_formed (n : Nat) (h : Hold) : (s.holdJoin n h).formed = s.formed := by
  simp [State.holdJoin]

@[simp] theorem joinZero_formed (j : JoinDec) (failed : Bool) (card : Word) (ws : List Word) (hs : s.formed = true) :
    (s.joinZero j failed card ws).2.formed = true := by
  simp [State.joinZero, hs]

@[simp] theorem decrement_formed (j : JoinDec) (hs : s.formed = true) : (s.decrement j).formed = true := by
  unfold State.decrement
  dsimp only
  split
  · simp [hs]
  · simp [hs]
  · split
    · simp [hs]
    · split
      · split
        · next h => simp [formed_of_eq_triple h, hs]
        · next h => simp [formed_of_eq_triple h, hs]
        · next h => split <;> simp [formed_of_eq_triple h, hs]
      · simp [hs]

/-! ### Kills, holds and halts -/

@[simp] theorem dropQueued_formed (p : QCmd → Bool) : (s.dropQueued p).formed = s.formed := by
  unfold State.dropQueued
  rw [foldl_formed]
  · simp
  · intro s c
    split <;> simp

@[simp] theorem killTeam_formed (team : Nat) (hs : s.formed = true) : (s.killTeam team).formed = true := by
  unfold State.killTeam
  split
  · exact hs
  · next t _ =>
    dsimp only
    have hd : (s.dropQueued (·.team == team)).formed = true := by simp [hs]
    obtain ⟨hf, hg, ht⟩ := (formed_iff _).mp hd
    generalize hu : State.modCore _ t.core _ = u
    have hu : u.formed = true := by
      rw [← hu, modCore_formed]
      exact (formed_iff _).mpr ⟨forall_filter_of _ hf, hg, ht⟩
    split
    · exact modTeam_keepsForm team (fun x hx => team_formed_ckpt hx rfl rfl rfl rfl rfl) hu
    · simp [hu]

@[simp] theorem killClutch_formed (clutch code : Nat) (hs : s.formed = true) :
    (s.killClutch clutch code).formed = true := by
  unfold State.killClutch
  split
  · exact hs
  · split
    · exact hs
    · exact foldl_keepsForm (fun s t hs => killTeam_formed s t.id hs) _ (by simp [hs])

@[simp] theorem underFail_formed (clutch code : Nat) (hs : s.formed = true) :
    (s.underFail clutch code).formed = true := by
  unfold State.underFail
  split <;> simp [hs]

@[simp] theorem endFuture_formed (c : Clutch) (value : Nat) (failed : Bool) (hs : s.formed = true) :
    (s.endFuture c value failed).formed = true := by
  unfold State.endFuture
  dsimp only
  repeat' split
  all_goals simp [hs]

@[simp] theorem leaveTable_formed (clutch : Nat) (p : CardPhase) (hs : s.formed = true) :
    (s.leaveTable clutch p).formed = true := by
  obtain ⟨hf, hg, ht⟩ := (formed_iff s).mp hs
  unfold State.leaveTable
  rw [modClutch_formed]
  exact (formed_iff _).mpr ⟨hf, hg, forall_filter_of _ ht⟩

@[simp] theorem finishKill_formed (c : Clutch) (code : Nat) (hs : s.formed = true) :
    (s.finishKill c code).formed = true := by
  simp [State.finishKill, hs]

@[simp] theorem clutchRelease_formed (clutch : Nat) : (s.clutchRelease clutch).formed = s.formed := by
  simp [State.clutchRelease]

@[simp] theorem halt_formed (t : Team) (f : FibId) (r : TrapRec) (hs : s.formed = true) :
    (s.halt t f r).formed = true := by
  unfold State.halt
  dsimp only
  split <;> simp [hs]

@[simp] theorem settle_formed (hs : s.formed = true) : s.settle.formed = true := by
  unfold State.settle
  refine foldl_keepsForm (fun s c hs => ?_) _ (foldl_keepsForm (fun s t hs => ?_) _
    (foldl_keepsForm (fun s t hs => ?_) _ hs))
  · repeat' split
    all_goals simp [hs]
  · split <;> simp [hs]
  · split <;> simp [hs]

/-! ### Cards and their queues -/

@[simp] theorem qWrite_formed (part q w : Nat) (v : Word) : (s.qWrite part q w v).formed = s.formed := by
  simp [State.qWrite]

/-! ### System words -/

theorem privWord_formed {s : State} {g : Guard} {f : State → View → State} (hs : s.formed = true)
    (h : ∀ s v, (f s v).formed = s.formed) : (s.privWord g f).formed = true := by
  refine wordSeq_formed hs fun s v hs => ?_
  split <;> simp [h, hs]

@[simp] theorem dropLeaves_formed (p : Tlb → Bool) : (s.dropLeaves p).formed = s.formed := by
  simp [State.dropLeaves]

@[simp] theorem dropStale_formed (part : Nat) (p : Nat → Bool) : (s.dropStale part p).formed = s.formed := by
  simp [State.dropStale]

@[simp] theorem dropDescs_formed (part : Nat) (p : Nat → Bool) : (s.dropDescs part p).formed = s.formed := by
  simp [State.dropDescs]

/-! ### Regions and checkpoints -/

@[simp] theorem commitSector_formed (pod : Nat) (c : Sector) : (s.commitSector pod c).formed = s.formed := by
  simp [State.commitSector]

@[simp] theorem clean_formed (team : Nat) : (s.clean team).formed = s.formed := by
  unfold State.clean
  dsimp only
  rw [modTeam_formed _ _ _ fun t => team_formed_update t ..]
  refine Eq.trans ?_ (modFibs_formed s (fun f => f.fid.team == team) (fun f => { f with unproven := [] })
    fun b => fibre_formed_update b ..)
  unfold State.formed
  dsimp only
  rw [all_map_same (p := fun g : Group => NMap.wf g.s) (g := fun g => { g with unproven := [] }) fun g => rfl]

@[simp] theorem commit_formed (team : Nat) : (s.commit team).formed = s.formed := by
  unfold State.commit
  split <;> simp

@[simp] theorem reachHalf_formed (t : Team) : (s.reachHalf t).2.formed = s.formed := by
  simp [State.reachHalf]

@[simp] theorem putOpen_formed (g : Agent) (l : Loc) (ps : List Piece) (n : Nat) (hs : s.formed = true) :
    (s.putOpen g l ps n).formed = true := by
  unfold State.putOpen
  dsimp only
  split
  · simp [hs]
  · rw [foldl_formed]
    · exact hs
    · intro s i
      split <;> simp

/-- A team's region opens with a checkpoint of fibres that have their form. -/
theorem openRegion_formed {s : State} (team : Nat) {fibres : List Fibre} (tag : BitVec 12) (hs : s.formed = true)
    (hf : ∀ b ∈ fibres, b.formed = true) : (s.openRegion team fibres tag).formed = true := by
  have hc : (s.clean team).formed = true := (clean_formed s team).trans hs
  unfold State.openRegion
  dsimp only
  split
  · exact hc
  · obtain ⟨-, hg, -⟩ := (formed_iff _).mp hc
    exact modTeam_keepsForm team (fun u hu => team_formed_ckpt hu rfl rfl rfl rfl
      ((ckpt_formed_iff _).mpr ⟨hf, forall_filter_of _ hg⟩)) hc

theorem saved_formed {b : Fibre} (hb : b.formed = true) (n : Nat) : (b.saved n).formed = true := by
  obtain ⟨hp, h1, h2, hx, -⟩ := (fibre_formed_iff b).mp hb
  unfold Fibre.saved
  dsimp only
  split
  · rw [release_formed]
    exact (fibre_formed_iff _).mpr ⟨hp, h1, h2, wf_filter _ hx, rfl⟩
  · exact (fibre_formed_iff _).mpr ⟨hp, h1, h2, wf_filter _ hx, rfl⟩

theorem teamFibres_formed {s : State} (hs : s.formed = true) (team : Nat) :
    ∀ b ∈ s.teamFibres team, b.formed = true := by
  obtain ⟨hf, -, -⟩ := (formed_iff s).mp hs
  exact forall_filter_of _ hf

@[simp] theorem leavePoint_formed (team : Nat) : (s.leavePoint team).formed = s.formed := by
  simp [State.leavePoint]

@[simp] theorem regbTrap_formed (t : Team) (code : Nat) : (s.regbTrap t code).formed = s.formed := by
  simp [State.regbTrap]

@[simp] theorem splitTrap_formed (t : Team) (code : Nat) : (s.splitTrap t code).formed = s.formed := by
  simp [State.splitTrap]

@[simp] theorem regbCkpt_formed (t : Team) (hs : s.formed = true) : (s.regbCkpt t).formed = true := by
  unfold State.regbCkpt
  dsimp only
  split
  · simp [hs]
  · simp [hs]
  · rw [leavePoint_formed]
    have hp := fun l ps => putOpen_formed (s.reachHalf t).2 t.agent l ps (s.clutchOf t).slotSectors (by simp [hs])
    refine openRegion_formed _ _ (hp _ _) fun b hb => ?_
    obtain ⟨c, hc, rfl⟩ := List.mem_map.mp hb
    exact (release_formed _ _).trans (saved_formed (teamFibres_formed (hp _ _) _ c hc) _)

@[simp] theorem splitCkpt_formed (t : Team) (hs : s.formed = true) : (s.splitCkpt t).formed = true := by
  unfold State.splitCkpt
  dsimp only
  split
  · simp [hs]
  · simp [hs]
  · have hp := fun l ps => putOpen_formed (s.reachHalf t).2 t.agent l ps (s.clutchOf t).slotSectors (by simp [hs])
    refine openRegion_formed _ _ (hp _ _) fun b hb => ?_
    obtain ⟨c, hc, rfl⟩ := List.mem_map.mp hb
    exact saved_formed (teamFibres_formed (hp _ _) _ c hc) _

@[simp] theorem recount_formed (team : Nat) : (s.recount team).formed = s.formed := by
  simp [State.recount]

@[simp] theorem formPaths_formed (team : Nat) : (s.formPaths team).formed = s.formed := by
  unfold State.formPaths
  split <;> simp

theorem insFibres_of {p : Fibre → Prop} {l m : List Fibre} (hl : ∀ b ∈ l, p b) (hm : ∀ b ∈ m, p b) :
    ∀ b ∈ m.foldl (fun l f => insFibre f l) l, p b := by
  induction m generalizing l with
  | nil => exact hl
  | cons f m ih =>
    obtain ⟨hf, hm⟩ := List.forall_mem_cons.mp hm
    refine ih (fun b hb => ?_) hm
    obtain rfl | hb := mem_insFibre _ _ b hb
    · exact hf
    · exact hl b hb

/-- What a team gets from a checkpoint. -/
theorem fromCkpt_formed {s : State} (t : Team) {k : Ckpt} {fibre : Fibre → Fibre} (hs : s.formed = true)
    (hk : k.formed = true) (hfib : ∀ b, b.formed = true → (fibre b).formed = true) :
    (s.fromCkpt t k fibre).formed = true := by
  obtain ⟨hf, hg, ht⟩ := (formed_iff s).mp hs
  obtain ⟨hkf, hkg⟩ := (ckpt_formed_iff k).mp hk
  have hnew : ∀ b ∈ k.fibres.map fibre, b.formed = true := by
    intro b hb
    obtain ⟨c, hc, rfl⟩ := List.mem_map.mp hb
    exact hfib c (hkf c hc)
  have hgrp := fun g hm =>
    (List.mem_append.mp hm).elim (forall_filter_of (fun g : Group => g.team != t.id) hg g) (hkg g)
  unfold State.fromCkpt
  dsimp only
  rw [recount_formed]
  refine modTeam_keepsForm _ (fun u hu => ?_) ((modCore_formed ..).trans ((formed_iff _).mpr
    ⟨insFibres_of (forall_filter_of _ hf) hnew, hgrp, ht⟩))
  obtain ⟨-, -, -, -, h5⟩ := (team_formed_iff u).mp hu
  exact (team_formed_iff _).mpr ⟨rfl, rfl, rfl, rfl, h5⟩

/-! ### Fetch, issue and the end of a clause -/

@[simp] theorem codeWord_formed (t : Team) (a : Word) : (s.codeWord t a).2.formed = s.formed := by
  unfold State.codeWord
  dsimp only
  repeat' split
  all_goals simp

@[simp] theorem codeRun_formed (t : Team) (a : Word) (n : Nat) : (s.codeRun t a n).2.formed = s.formed := by
  induction n generalizing s a with
  | zero => rfl
  | succ n ih =>
    unfold State.codeRun
    dsimp only
    split
    · split <;> simp [ih]
    all_goals simp

@[simp] theorem clauseAt_formed (t : Team) (pc : Word) : (s.clauseAt t pc).2.formed = s.formed := by
  unfold State.clauseAt
  dsimp only
  repeat' split
  all_goals simp

@[simp] theorem joinExec_formed (t : Team) (grp : Nat) (pc : Word) (c : Clause) (ids : List FibId) :
    (s.joinExec t grp pc c ids).formed = s.formed := by
  simp [State.joinExec]

@[simp] theorem headerTrap_formed (f : FibId) (pc next : Word) (code word : Nat) (addr : Word) :
    (s.headerTrap f pc next code word addr).formed = s.formed := by
  simp [State.headerTrap]

@[simp] theorem addrWalk_formed (v : View) (is : List (Nat × Instr)) (k : Nat)
    (l : List (Guard × Opnd × Nat × Right)) : (s.addrWalk v is k l).2.formed = s.formed := by
  induction l generalizing s with
  | nil => rfl
  | cons x l ih =>
    unfold State.addrWalk
    dsimp only
    split
    · exact ih s
    · split <;> simp [ih]

@[simp] theorem slotWalk_formed (v : View) (is : List (Nat × Instr)) (k : Nat) (i : Instr) :
    (s.slotWalk v is k i).2.formed = s.formed := by
  obtain ⟨port, hport⟩ : ∃ port, port = State.port := ⟨_, rfl⟩
  have hp := port_formed
  rw [← hport] at hp
  unfold State.slotWalk
  rw [← hport]
  split
  · dsimp only
    split
    · rfl
    · split <;> simp [hp]
  · rfl

@[simp] theorem taskWalk_formed (v : View) (all is : List (Nat × Instr)) :
    (s.taskWalk v all is).2.formed = s.formed := by
  induction is generalizing s with
  | nil => rfl
  | cons x is ih =>
    unfold State.taskWalk
    dsimp only
    split
    · simp
    · split <;> simp [ih]

@[simp] theorem planBatch_formed (r : ClauseRun) (c : Clause) (fs : List FibId) :
    (s.planBatch r c fs).s.formed = s.formed := by
  refine foldl_keeps (fun b : Batch => b.s.formed = s.formed) _ (fun b f hb => ?_) fs _ rfl
  split
  · exact hb
  · dsimp only
    split
    · split <;> simp [hb]
    · split
      · split <;> simp [hb]
      · exact hb

/-- The t registers of a clause's fibres start empty. -/
@[simp] theorem begin_formed (t : Team) (r : ClauseRun) (c : Clause) (b : Batch) (hs : s.formed = true) :
    (s.begin t r c b).formed = true := by
  unfold State.begin
  dsimp only
  refine (state_formed_update (State.modTeam _ _ _) ..).trans ?_
  refine (modTeam_formed _ _ _ fun t => team_formed_update t ..).trans ?_
  refine modFibs_keepsForm _ (fun f hf => (fibre_formed_update { f with t := [] } ..).trans (fibre_formed_t hf rfl)) ?_
  simp [hs]

@[simp] theorem askCode_formed (t : Team) (f : FibId) (l : Loc) (a : Word) :
    (s.askCode t f l a).formed = s.formed := by
  simp [State.askCode]

@[simp] theorem start_leave_formed (core : Nat) (fs : List FibId) (next : Word) :
    (State.start.leave s core fs next).formed = s.formed := by
  simp [State.start.leave]

@[simp] theorem start_formed (fids : List FibId) (pipe : Nat) (split : Bool) (hs : s.formed = true) :
    (s.start fids pipe split).formed = true := by
  unfold State.start
  dsimp only
  split
  · exact hs
  split
  · exact hs
  split
  · exact hs
  split
  · simp [hs]
  · simp [hs]
  · simp [hs]
  split
  · exact hs
  split
  · exact hs
  split
  · exact hs
  split
  · exact hs
  split
  · simp [hs]
  · split <;> simp [hs]

@[simp] theorem lowerIdle_formed (r : ClauseRun) (f : FibId) (isLoad : Bool) (flag : Nat) :
    (s.lowerIdle r f isLoad flag).formed = s.formed := by
  simp [State.lowerIdle]

@[simp] theorem proved_formed (f : FibId) (out : List Opnd) : (s.proved f out).formed = s.formed := by
  simp [State.proved]

@[simp] theorem proveWord_formed (t s : State) (r : ClauseRun) (i : Instr) :
    (t.proveWord s r i).formed = t.formed := by
  simp [State.proveWord]

@[simp] theorem endHandler_formed (r : ClauseRun) (f : FibId) : (s.endHandler r f).formed = s.formed := by
  unfold State.endHandler
  split <;> simp

@[simp] theorem endFor_formed (r : ClauseRun) (f : FibId) (hs : s.formed = true) : (s.endFor r f).formed = true := by
  unfold State.endFor
  dsimp only
  rw [moveTo_formed]
  have hf : ∀ g : Fibre → Fibre, (∀ b, b.formed = true → (g b).formed = true) →
      (((s.endHandler r f).modFib f g).lowerIdle r f true r.seta |>.lowerIdle r f false r.setb).formed = true := by
    intro g hg
    simp only [lowerIdle_formed]
    exact modFib_keepsForm f hg ((endHandler_formed s r f).trans hs)
  have hb : ∀ b : Fibre, b.formed = true →
      ({ b with busy := false, member := false, t := [], yielded := b.yielded || r.yield } : Fibre).formed = true :=
    fun b hb => (fibre_formed_update { b with t := [] } ..).trans (fibre_formed_t hb rfl)
  rw [formed_ite, modFib_formed _ _ _ fun b => await_formed b .fe, ite_self]
  refine hf _ fun b h => ?_
  rw [fibre_formed_ite, await_formed, ite_self]
  split
  · split
    · exact (fibre_formed_update { b with t := [] } ..).trans (fibre_formed_t h rfl)
    · exact hb b h
  · exact hb b h

@[simp] theorem closeExecs_formed (r : ClauseRun) : (s.closeExecs r).formed = s.formed := by
  simp [State.closeExecs]

@[simp] theorem endClause_formed (r : ClauseRun) (hs : s.formed = true) : (s.endClause r).formed = true := by
  unfold State.endClause
  dsimp only
  refine sweep_formed _ ?_
  rw [formed_ite, modTeam_formed _ _ _ fun t => team_formed_update t .., ite_self, closeExecs_formed]
  exact foldl_keepsForm (fun s f hs => endFor_formed s r f hs) _ ((state_formed_update s ..).trans hs)

end

end Sys2Proof.Machine
end

section
/-! SUPPORT. The forms of O60: engine commands, streams, collectives, cuts and trees. -/

namespace Sys2Proof.Machine

open Sys2Proof

section

variable (s : State)

/-! ### Engine commands and streams -/

@[simp] theorem modCmd_formed (n : Nat) (f : Cmd → Cmd) : (s.modCmd n f).formed = s.formed := by
  simp [State.modCmd]

@[simp] theorem askFar_formed (c : Cmd) (l : Loc) : (s.askFar c l).formed = s.formed := by
  unfold State.askFar
  split <;> simp

@[simp] theorem forgetFar_formed (c : Cmd) : (s.forgetFar c).formed = s.formed := by
  simp [State.forgetFar]

@[simp] theorem runCmd_formed (n : Nat) (codes : List Nat) (ph : CmdPhase) (f : Cmd → Eng (Cmd → Cmd))
    (h : ∀ c, (f c).Forms) (hs : s.formed = true) : (s.runCmd n codes ph f).formed = true := by
  unfold State.runCmd
  split
  · exact hs
  split
  · exact hs
  split
  · next e => simp [formed_of_eq e, h _ _, hs]
  · exact hs
  · simp [hs]
  · next e => simp [formed_of_eq e, h _ _, hs]
  · simp [hs]

@[simp] theorem reached_formed (cmd : Nat) (ps : List Piece) (addr : Word) :
    (s.reached cmd ps addr).formed = s.formed := by
  simp [State.reached]

@[simp] theorem Cmd.reach_forms (c : Cmd) (idx off len align : Nat) (rt : Right) (u : PageUse) (addr : Word)
    (k : FaultKind) : (c.reach idx off len align rt u addr k).Forms := by
  intro s
  unfold Cmd.reach
  dsimp only
  split <;> simp

@[simp] theorem Cmd.source_forms (c : Cmd) (a : Word) (len align : Nat) (fmt : Option Nat) :
    (c.source a len align fmt).Forms := by
  simp [Cmd.source]

@[simp] theorem Cmd.sink_forms (c : Cmd) (a : Word) (len align : Nat) (fmt : Option Nat) :
    (c.sink a len align fmt).Forms := by
  simp [Cmd.sink]

@[simp] theorem atPod_formed (c : Cmd) (l : Loc) : (s.atPod c l).formed = s.formed := by
  unfold State.atPod
  split <;> simp

@[simp] theorem Cmd.load_forms (c : Cmd) (l : Loc) (n : Nat) : (c.load l n).Forms := by
  intro s hs
  unfold Cmd.load
  split
  · simp [hs]
  · split <;> exact hs

@[simp] theorem Cmd.store_forms (c : Cmd) (l : Loc) (n v : Nat) (p : Bool) : (c.store l n v p).Forms :=
  Eng.put_forms _ fun s hs => by simp [hs]

@[simp] theorem Cmd.words_forms (c : Cmd) (p : Place) (off n : Nat) : (c.words p off n).Forms := by
  simp [Cmd.words]

@[simp] theorem Cmd.record_forms (c : Cmd) (a : Word) (n align : Nat) : (c.record a n align).Forms := by
  simp [Cmd.record]

@[simp] theorem Cmd.treeAt_forms (c : Cmd) (a : Word) (ts : List (List Byte × List Word)) : (c.treeAt a ts).Forms := by
  induction ts with
  | nil => exact Eng.pure_forms none
  | cons t ts ih =>
    intro s hs
    have hw : (Eng.bind (c.source a t.1.length 256 none) fun p => c.words p 0 ((t.1.length + 7) / 8)).Forms := by simp
    unfold Cmd.treeAt
    split
    · next h =>
      have ht := (formed_of_eq h).trans (hw s hs)
      split
      · exact ht
      · exact ih _ ht
    · next h => exact (formed_of_eq h).trans (hw s hs)
    · next h => exact (formed_of_eq h).trans (hw s hs)
    · next h => exact (formed_of_eq h).trans (hw s hs)
    · exact ih s hs

@[simp] theorem popCmd_formed (core : Nat) (q : EQueue) (c : QCmd) : (s.popCmd core q c).formed = s.formed := by
  unfold State.popCmd
  dsimp only
  split <;> simp

@[simp] theorem enterCmd_formed (core : Nat) (q : EQueue) (x : Cmd) (locks : List Lock) :
    (s.enterCmd core q x locks).formed = s.formed := by
  simp [State.enterCmd]

@[simp] theorem holdQueued_formed (core : Nat) (q : EQueue) (op fault : Nat) :
    (s.holdQueued core q op fault).formed = s.formed := by
  simp [State.holdQueued]

@[simp] theorem accept_formed (core : Nat) (q : EQueue) (c : QCmd) : (s.accept core q c).formed = s.formed := by
  unfold State.accept
  dsimp only
  repeat' split
  all_goals simp

@[simp] theorem lateResolution_formed (c : Cmd) (ok : Bool) : (s.lateResolution c ok).formed = s.formed := by
  simp [State.lateResolution]

@[simp] theorem Cmd.target_forms (c : Cmd) : c.target.Forms := by
  unfold Cmd.target
  dsimp only
  split <;> simp

@[simp] theorem signalThrough_formed (c : Cmd) (p : Place) : (s.signalThrough c p).formed = s.formed := by
  unfold State.signalThrough
  split <;> simp

@[simp] theorem signalRecord_formed (c : Cmd) (p : Place) (ws : List Word) (hs : s.formed = true) :
    (s.signalRecord c p ws).formed = true := by
  simp [State.signalRecord, hs]

@[simp] theorem Cmd.signalDone_forms (c : Cmd) (p : Place) : (c.signalDone p).Forms := by
  refine Eng.put_forms _ fun s hs => ?_
  split
  · split <;> simp [hs]
  · simp [hs]
  · simp [hs]
  · simp [hs]

@[simp] theorem Cmd.signalFailed_forms (c : Cmd) (code : Nat) (p : Place) : (c.signalFailed code p).Forms := by
  refine Eng.put_forms _ fun s hs => ?_
  split <;> simp [hs]

@[simp] theorem cmdError_formed (c : Cmd) (code : Nat) (addr : Word) (hs : s.formed = true) :
    (s.cmdError c code addr).formed = true := by
  simp [State.cmdError, hs]

@[simp] theorem endCmd_formed (c : Cmd) : (s.endCmd c).formed = s.formed := by
  simp [State.endCmd]

@[simp] theorem performAt_formed (c : Cmd) : (s.performAt c).formed = s.formed := by
  simp [State.performAt]

@[simp] theorem giveSignal_formed (c : Cmd) (f : Place → Eng Unit) (h : ∀ p, (f p).Forms) (hs : s.formed = true) :
    (s.giveSignal c f).2.formed = true := by
  unfold State.giveSignal
  split
  · exact hs
  · exact Eng.bind_forms (Cmd.target_forms c) h s hs

@[simp] theorem complete_formed (c : Cmd) (hs : s.formed = true) : (s.complete c).formed = true := by
  have hp : (s.performAt c).formed = true := by simp [hs]
  unfold State.complete
  split
  · have hg := giveSignal_formed _ c c.signalDone (by simp) hp
    dsimp only
    split
    all_goals
      next h => simp [(formed_of_eq h).trans hg, hs]
  · next code addr _ =>
    have hg : (if (cmdKind c.c.words == 1 || cmdKind c.c.words == 3) then (Ran.ok (), s.performAt c)
        else (s.performAt c).giveSignal c (c.signalFailed code)).2.formed = true := by
      rw [snd_formed_ite]
      split
      · exact hp
      · exact giveSignal_formed _ _ _ (by simp) hp
    dsimp only
    split
    all_goals
      next h => simp [(formed_of_eq h).trans hg, hs]
  · exact hs

@[simp] theorem Cmd.element_forms (c : Cmd) (l : Layout) (j : Nat) (write : Bool) : (c.element l j write).Forms := by
  unfold Cmd.element
  split <;> simp

@[simp] theorem Cmd.elemIn_forms (c : Cmd) (l : Layout) (j : Nat) : (c.elemIn l j).Forms := by
  refine Eng.bind_forms (by simp) fun p => ?_
  dsimp only
  split
  · exact Eng.bind_forms (by simp) (by simp)
  · simp

@[simp] theorem Cmd.storeBytes_forms (c : Cmd) (p : Place) (bs : List (Byte × Bool)) : (c.storeBytes p bs).Forms := by
  simp [Cmd.storeBytes]

@[simp] theorem Cmd.streamBegin_forms (c : Cmd) : c.streamBegin.Forms := by
  simp [Cmd.streamBegin]

@[simp] theorem Cmd.fillSlot_forms (c : Cmd) : c.fillSlot.Forms := by
  refine Eng.bind_forms (by simp) fun ring s hs => ?_
  split
  · exact hs
  · refine Eng.bind_forms (by simp) (fun bs => Eng.bind_forms (by simp) fun _ => Eng.bind_forms ?_ (by simp)) s hs
    exact Eng.put_forms _ fun s hs => by split <;> simp [hs]

@[simp] theorem Cmd.drainSlot_forms (c : Cmd) : c.drainSlot.Forms := by
  refine Eng.bind_forms (by simp) fun ring s hs => ?_
  split
  · exact hs
  · refine Eng.bind_forms (Eng.each_forms _ (fun x => ?_) _)
      (fun _ => Eng.bind_forms (Eng.put_forms _ fun s hs => ?_) (by simp)) s hs
    · refine Eng.bind_forms (by simp) fun p => ?_
      dsimp only
      split <;> simp
    · split <;> simp [hs]

@[simp] theorem Cmd.side_forms (c : Cmd) (a : Word) (fmt n : Nat) (write : Bool) : (c.side a fmt n write).Forms := by
  simp [Cmd.side]

@[simp] theorem Cmd.copyBytes_forms (c : Cmd) (x : CvxArgs) (sp dp : Place) : (c.copyBytes x sp dp).Forms :=
  Eng.bind_forms (Eng.each_forms _ (fun r => Eng.bind_forms (by simp) (by simp)) _) (by simp)

@[simp] theorem Cmd.scaleLoc_forms (c : Cmd) (f : EFmt) (l : Loc) (i : Nat) (addr : Word) :
    (c.scaleLoc f l i addr).Forms := by
  unfold Cmd.scaleLoc
  split
  · intro s
    dsimp only
    repeat' split
    all_goals simp
  · simp

@[simp] theorem Cmd.decode_forms (c : Cmd) (f : EFmt) (p : Place) (first e : Nat) (addr : Word) :
    (c.decode f p first e addr).Forms := by
  unfold Cmd.decode
  dsimp only
  split
  · simp
  · refine Eng.bind_forms (by simp) fun l => Eng.bind_forms (by simp) fun v => ?_
    split <;> simp

@[simp] theorem Cmd.putElems_forms (c : Cmd) (f : EFmt) (p : Place) (first e : Nat) (vs : List (Converted × Bool)) :
    (c.putElems f p first e vs).Forms := by
  refine Eng.bind_forms (Eng.each_forms _ (fun x => ?_) _) (by simp)
  dsimp only
  split <;> simp

@[simp] theorem Cmd.convert_forms (c : Cmd) (x : CvxArgs) (sf df : EFmt) (sp dp : Place) :
    (c.convert x sf df sp dp).Forms := by
  refine Eng.bind_forms (by simp) fun vs => Eng.bind_forms (by simp) fun places => Eng.bind_forms (by simp) fun _ => ?_
  exact Eng.bind_forms (by simp) (by simp)

@[simp] theorem Cmd.copy_forms (c : Cmd) : c.copy.Forms := by
  refine Eng.bind_forms (by simp) fun _ => Eng.bind_forms (by simp) fun sp => Eng.bind_forms (by simp) fun dp =>
    Eng.bind_forms (by simp) fun _ => ?_
  split <;> simp

/-! ### Collectives -/

@[simp] theorem Cmd.table_forms (c : Cmd) : c.table.Forms := by
  refine Eng.bind_forms (by simp) fun p => Eng.bind_forms (by simp) fun _ => Eng.bind_forms (by simp) fun h => ?_
  exact Eng.bind_forms (by simp) fun p => Eng.bind_forms (by simp) (by simp)

@[simp] theorem collTaken_formed (t : List Word) (seq : Nat) : (s.collTaken t seq).formed = s.formed := by
  simp [State.collTaken]

@[simp] theorem collAnew_formed (t : List Word) (seq : Nat) : (s.collAnew t seq).formed = s.formed := by
  unfold State.collAnew
  split <;> simp

@[simp] theorem Cmd.collBegin_forms (c : Cmd) : c.collBegin.Forms := by
  refine Eng.bind_forms (by simp) fun t => Eng.bind_forms (by simp) fun _ => Eng.bind_forms (by simp) fun _ => ?_
  refine Eng.bind_forms (by simp) fun _ => Eng.bind_forms ?_ (by simp)
  split <;> simp

@[simp] theorem ageColl_formed (part : Nat) (table : Word) : (s.ageColl part table).formed = s.formed := by
  unfold State.ageColl State.formed
  dsimp only
  rw [List.all_map]
  congr 2

@[simp] theorem fixColl_formed (c : Cmd) (ranks : List Nat) (ms : List CollMsg) :
    (s.fixColl c ranks ms).formed = s.formed := by
  simp [State.fixColl]

@[simp] theorem collMismatch_formed (c : Cmd) : (s.collMismatch c).formed = s.formed := by
  simp [State.collMismatch]

@[simp] theorem Cmd.newTable_forms (c : Cmd) (p : Place) (t : List Word) (ranks : List Nat) :
    (c.newTable p t ranks).Forms :=
  Eng.bind_forms (by simp) fun _ => Eng.bind_forms (by simp) (by simp)

@[simp] theorem Cmd.collEnd_forms (ranks : List Nat) (parts : List (Nat × List Word)) (c : Cmd) :
    (c.collEnd ranks parts).Forms := by
  refine Eng.bind_forms (by simp) fun s => ?_
  dsimp only
  refine Eng.ite_forms _ (by simp) (Eng.ite_forms _ (by simp) (Eng.ite_forms _ (by simp) ?_))
  refine Eng.ite_forms _ (by simp) (Eng.ite_forms _ (by simp) (Eng.ite_forms _ (by simp) ?_))
  refine Eng.ite_forms _ (by simp) (Eng.ite_forms _ (by simp) (Eng.ite_forms _ (by simp) ?_))
  refine Eng.bind_forms (by simp) fun _ => Eng.bind_forms (by simp) fun now => Eng.bind_forms (by simp) fun _ => ?_
  refine Eng.bind_forms (by simp) fun _ => Eng.bind_forms ?_ fun _ => Eng.bind_forms ?_ (by simp)
  · refine Eng.ite_forms _ (by simp) (Eng.bind_forms (by simp) fun d => ?_)
    exact Eng.bind_forms (by simp) (by simp)
  · exact Eng.ite_forms _ (by simp) (by simp)

/-! ### Cuts and trees -/

@[simp] theorem Cmd.cutList_forms (c : Cmd) (a : Word) (n : Nat) : (c.cutList a n).Forms := by
  simp [Cmd.cutList]

@[simp] theorem Cmd.block_forms (c : Cmd) (blocks : Word) (r : CutRec) : (c.block blocks r).Forms := by
  unfold Cmd.block
  split
  · simp
  · refine Eng.bind_forms (by simp) fun h => Eng.bind_forms (by simp) fun _ => Eng.bind_forms (by simp) fun p => ?_
    exact Eng.bind_forms (by simp) (by simp)

@[simp] theorem Cmd.graph_forms (c : Cmd) : c.graph.Forms := by
  simp [Cmd.graph]

@[simp] theorem Cmd.viewRec_forms (c : Cmd) : c.viewRec.Forms := by
  simp [Cmd.viewRec]

@[simp] theorem Cmd.node_forms (c : Cmd) (g : Graph) (i : Nat) : (c.node g i).Forms := by
  unfold Cmd.node
  split <;> simp

@[simp] theorem Cmd.visit_forms (c : Cmd) (g : Graph) (v : ViewRec) (tau fuel : Nat) (work : Work) (seen : List Nat) :
    (c.visit g v tau fuel work seen).Forms := by
  induction fuel generalizing work seen with
  | zero => simp [Cmd.visit]
  | succ n ih =>
    cases work with
    | nil => simp [Cmd.visit]
    | cons w ws =>
      refine Eng.bind_forms (by simp) fun _ => Eng.bind_forms (Eng.each_forms _ (fun i => ?_) _) fun ms => ?_
      · exact Eng.bind_forms (by simp) (by simp)
      · exact Eng.bind_forms (ih _ _) (by simp)

@[simp] theorem Cmd.writeWords_forms (c : Cmd) (a : Word) (ws : List Word) : (c.writeWords a ws).Forms := by
  unfold Cmd.writeWords
  split
  · simp
  · exact Eng.bind_forms (by simp) (by simp)

@[simp] theorem Cmd.select_forms (c : Cmd) : c.select.Forms := by
  refine Eng.bind_forms (by simp) fun g => Eng.bind_forms (by simp) fun v => Eng.bind_forms (by simp) fun p => ?_
  refine Eng.bind_forms (by simp) fun map => Eng.bind_forms (by simp) fun vs => ?_
  exact Eng.bind_forms (by simp) fun _ => Eng.bind_forms (by simp) (by simp)

@[simp] theorem Cmd.buildTree_forms (c : Cmd) : c.buildTree.Forms := by
  refine Eng.bind_forms (by simp) fun cut => Eng.bind_forms (by simp) fun bs => Eng.bind_forms (by simp) fun p => ?_
  exact Eng.bind_forms (by simp) fun _ => Eng.bind_forms (by simp) (by simp)

end

end Sys2Proof.Machine
end

section
/-! SUPPORT. The forms of O60: the task front end, failed checks, saving and replay, walks, expanders, heads and
encoders. -/

namespace Sys2Proof.Machine

open Sys2Proof

section

variable (s : State)

/-! ### The task front end -/

theorem launchFibres_formed (team grp width : Nat) (entry : Word) (exec clock : Nat) :
    ∀ b ∈ (launchFibres team grp width entry exec).map (fun f => { f with lastStart := clock }), b.formed = true := by
  intro b hb
  obtain ⟨c, hc, rfl⟩ := List.mem_map.mp hb
  obtain ⟨l, -, rfl⟩ := List.mem_map.mp hc
  exact (fibre_formed_update ..).trans (newFibre_formed ..)

@[simp] theorem launchGroup_formed (c : Clutch) (team grp roff : Nat) (hs : s.formed = true) :
    (s.launchGroup c team grp roff).formed = true := by
  obtain ⟨hf, hg, ht⟩ := (formed_iff _).mp ((newId_formed s).trans hs)
  have hgrp : ∀ g ∈ s.newId.2.groups ++ [⟨team, grp, c.width, roff, [], [], []⟩], NMap.wf g.s = true :=
    fun g hm => (List.mem_append.mp hm).elim (hg g) fun h => (List.mem_singleton.mp h) ▸ rfl
  exact (formed_iff _).mpr ⟨fun b hb => (List.mem_append.mp hb).elim (hf b) (launchFibres_formed _ _ _ _ _ _ b),
    hgrp, ht⟩

@[simp] theorem launchGroups_formed (c : Clutch) (team g : Nat) (offs : List Nat) (hs : s.formed = true) :
    (s.launchGroups c team g offs).formed = true := by
  induction offs generalizing s g with
  | nil => exact hs
  | cons o os ih => simp [State.launchGroups, ih, hs]

theorem team_default_formed : (default : Team).formed = true := rfl

@[simp] theorem launchTeam_formed (c : Clutch) (cluster rank core : Nat) (offs : List Nat) (hs : s.formed = true) :
    (s.launchTeam c cluster rank core offs).formed = true := by
  obtain ⟨hf, hg, ht⟩ := (formed_iff _).mp ((newId_formed s).trans hs)
  unfold State.launchTeam
  refine launchGroups_formed _ _ _ _ _ ?_
  rw [formed_ite, foldl_formed _ fun s n => modClutch_formed .., ite_self]
  refine (formed_iff _).mpr ⟨hf, hg, fun t hm => (List.mem_append.mp hm).elim (ht t) fun h => ?_⟩
  rw [List.mem_singleton.mp h, team_formed_update]
  exact team_default_formed

@[simp] theorem launchTeams_formed (c : Clutch) (cluster r : Nat) (l : List (Nat × List Nat)) (hs : s.formed = true) :
    (s.launchTeams c cluster r l).formed = true := by
  induction l generalizing s r with
  | nil => exact hs
  | cons o os ih => simp [State.launchTeams, ih, hs]

@[simp] theorem grants_formed (part : Nat) (a : Word) (len : Nat) (rts : List Right) :
    (s.grants part a len rts).2.formed = s.formed := by
  simp [State.grants]

@[simp] theorem addressesOk_formed (part : Nat) (l : List (Word × Nat × List Right)) :
    (s.addressesOk part l).2.formed = s.formed := by
  simp [State.addressesOk]

@[simp] theorem dropSub_formed (n : Nat) : (s.dropSub n).formed = s.formed := by
  simp [State.dropSub]

@[simp] theorem holdSub_formed (n : Nat) (h : Hold) : (s.holdSub n h).formed = s.formed := by
  simp [State.holdSub]

@[simp] theorem rejectCard_formed (x : Sub) (queue code reason : Nat) :
    (s.rejectCard x queue code reason).formed = s.formed := by
  unfold State.rejectCard
  split <;> simp

@[simp] theorem tookSub_formed (x : Sub) : (s.tookSub x).formed = s.formed := by
  unfold State.tookSub
  split
  · rfl
  · dsimp only
    rw [modFib_formed, modRun_formed]
    intro b
    split
    · split <;> simp
    · rfl

@[simp] theorem takeCard_formed (x : Sub) (c : Clutch) (targets : List Word) (hs : s.formed = true) :
    (s.takeCard x c targets).formed = true := by
  simp [State.takeCard, hs]

@[simp] theorem readTargets_formed (part : Nat) (a : Word) (queue n : Nat) :
    (s.readTargets part a queue n).2.2.formed = s.formed := by
  induction n generalizing s a with
  | zero => rfl
  | succ n ih =>
    unfold State.readTargets
    dsimp only
    split
    · simp
    · simp
    · split
      · next h => simpa [ih] using formed_of_eq_triple h
      · simp [ih]

@[simp] theorem judgeCard_formed (x : Sub) (ws : List Word) (hs : s.formed = true) :
    (s.judgeCard x ws).formed = true := by
  unfold State.judgeCard
  dsimp only
  split
  · simp [hs]
  split
  · simp [hs]
  have hr : ∀ c : Clutch, (if c.smax = 0 then ((.ok [] : Except Nat (List Word)), (none : Option Nat),
        (s.addressesOk x.part c.addresses).2)
      else (s.addressesOk x.part c.addresses).2.readTargets x.part (c.word 7) c.queue 8).2.2.formed = true := by
    intro c
    simp [hs]
  split
  · next h => simp [(formed_of_eq_triple h).trans (hr _)]
  · next h => simp [(formed_of_eq_triple h).trans (hr _)]
  · next h =>
    have ht := (formed_of_eq_triple h).trans (hr _)
    split
    · simp [ht]
    · split
      · refine modFib_keepsForm _ (fun b hb => (release_formed ..).trans (setPred_formed hb _ _)) ?_
        simp [ht]
      · simp [ht]
      · exact ht

@[simp] theorem virtualSpans_formed (c : Clutch) : (s.virtualSpans c).2.formed = s.formed := by
  simp [State.virtualSpans]

theorem dealOne_formed {s t : State} {id origin : Nat} (h : s.dealOne id origin = some t) (hs : s.formed = true) :
    t.formed = true := by
  unfold State.dealOne at h
  dsimp only at h
  split at h
  · cases h
  · split at h
    · cases h
      simp [hs]
    · cases h

theorem dealAll_formed {s t : State} {id : Nat} {l : List Nat} (h : s.dealAll id l = some t) (hs : s.formed = true) :
    t.formed = true := by
  induction l generalizing s with
  | nil =>
    cases h
    exact hs
  | cons o os ih =>
    unfold State.dealAll at h
    split at h
    · next hu => exact ih h (dealOne_formed hu hs)
    · cases h

@[simp] theorem retire_formed (c : Clutch) (hs : s.formed = true) : (s.retire c).formed = true := by
  simp [State.retire, hs]

/-! ### Failed checks, saving and replay -/

@[simp] theorem killWith_formed (clutch code : Nat) (w : Where) (arg cont : Word) (hs : s.formed = true) :
    (s.killWith clutch code w arg cont).formed = true := by
  unfold State.killWith
  split <;> simp [hs]

@[simp] theorem requestSave_formed (cluster : Nat) : (s.requestSave cluster).formed = s.formed := by
  simp [State.requestSave]

@[simp] theorem clearCore_formed (core : Nat) (p : Team → Bool) : (s.clearCore core p).formed = s.formed := by
  simp [State.clearCore]

@[simp] theorem fenceCore_formed (core : Nat) (hs : s.formed = true) : (s.fenceCore core).formed = true := by
  unfold State.fenceCore
  split
  · exact hs
  · dsimp only
    rw [clearCore_formed]
    exact foldl_keepsForm (fun s c hs => killWith_formed s c _ _ _ _ hs) _ (by simp [hs])

theorem withdraw_formed {s : State} (site : CheckSite) {fence : State → Nat → State} (hs : s.formed = true)
    (h : ∀ s c, s.formed = true → (fence s c).formed = true) : (s.withdraw site fence).formed = true := by
  cases site <;> simp [State.withdraw, h, hs]

@[simp] theorem dropL1Way_formed (core : Nat) : (s.dropL1Way core).formed = s.formed := by
  simp [State.dropL1Way]

@[simp] theorem dropL2Way_formed (slice way : Nat) : (s.dropL2Way slice way).formed = s.formed := by
  simp [State.dropL2Way]

@[simp] theorem retireSite_formed (site : CheckSite) (hs : s.formed = true) : (s.retireSite site).formed = true := by
  refine withdraw_formed site ?_ fun s c hs => fenceCore_formed s c hs
  split <;> simp [hs]

@[simp] theorem countFail_formed (site : CheckSite) (hs : s.formed = true) : (s.countFail site).formed = true := by
  unfold State.countFail
  dsimp only
  split <;> simp [hs]

theorem failTeam_formed {s : State} (t : Team) (site : CheckSite) (w : Where) (clause : Word) {accept : State → State}
    (hs : s.formed = true) (h : (accept s).formed = true) : (s.failTeam t site w clause accept).formed = true := by
  unfold State.failTeam
  split
  · exact hs
  · split
    · split <;> simp [hs]
    · split
      · simp [hs]
      · exact h

@[simp] theorem failL1_formed (pod addr : Nat) : (s.failL1 pod addr).formed = s.formed := by
  unfold State.failL1
  dsimp only
  repeat' split
  all_goals simp

@[simp] theorem failLine_formed (u : L2Line) (base i : Nat) : (s.failLine u base i).formed = s.formed := by
  unfold State.failLine
  split <;> simp

@[simp] theorem failHome_formed (site : CheckSite) (addr : Nat) : (s.failHome site addr).formed = s.formed := by
  unfold State.failHome
  repeat' split
  all_goals simp

@[simp] theorem failControl_formed (site : CheckSite) (fs : List FibId) (hs : s.formed = true) :
    (s.failControl site fs).formed = true := by
  refine foldl_keepsForm (fun s n hs => ?_) _ hs
  split
  · refine failTeam_formed _ _ _ _ hs (Eq.trans (foldl_formed _ (fun s f => ?_) _ s) hs)
    split <;> simp
  · exact hs

@[simp] theorem landed_formed (site : CheckSite) (hit : CheckHit) (hs : s.formed = true) :
    (s.landed site hit).formed = true := by
  cases hit with
  | result f d =>
    unfold State.landed
    dsimp only
    split
    · refine failTeam_formed _ _ _ _ hs ?_
      cases d with
      | x n => exact modFib_keepsForm _ (fun b hb => fibre_formed_x hb (wf_mod _ _ _ (fibre_wf_x hb))) hs
      | t n => exact modFib_keepsForm _ (fun b hb => fibre_formed_t hb (wf_mod _ _ _ (fibre_wf_t hb))) hs
      | s n => exact modGrp_keepsForm _ _ (fun g hg => wf_mod g.s n.val (fun c => { c with p := true }) hg) hs
      | k n => exact hs
    · exact failTeam_formed _ _ _ _ hs hs
    · exact hs
  | control fs => exact failControl_formed _ _ _ hs
  | accPair n pair =>
    unfold State.landed
    dsimp only
    split
    · exact failTeam_formed _ _ _ _ hs (modTeam_keepsForm _ (fun u hu => team_formed_store hu rfl fun h1 h2 h3 h4 =>
        ⟨h1, h2, setWf_add _ _ h3, h4⟩) hs)
    · exact hs
  | spadWord n off =>
    unfold State.landed
    dsimp only
    split
    · split
      · exact failTeam_formed _ _ _ _ hs hs
      · exact modTeam_keepsForm _ (fun u hu => team_formed_store hu rfl fun h1 h2 h3 h4 =>
          ⟨Memory.wf_setPois _ _ _ h1, h2, h3, h4⟩) hs
    · exact hs
  | rbufWord n k =>
    unfold State.landed
    dsimp only
    split
    · split
      · exact failTeam_formed _ _ _ _ hs hs
      · exact hs
    · exact hs
  | l1Word p a => exact (failL1_formed ..).trans hs
  | homeWord a => exact (failHome_formed ..).trans hs
  | nothing => exact hs

@[simp] theorem takeQueued_formed (t : Team) : (s.takeQueued t).2.formed = s.formed := by
  unfold State.takeQueued
  dsimp only
  rw [foldl_formed]
  · simp
  · intro s c
    split <;> simp

@[simp] theorem putContext_formed (t : Team) : (s.putContext t).formed = s.formed := by
  simp [State.putContext]

theorem formed_grps {s : State} (c : Group → Bool) (g : Group → Group) (hg : ∀ x, (g x).s = x.s) :
    ({ s with groups := s.groups.map fun x => if c x then g x else x } : State).formed = s.formed := by
  unfold State.formed
  dsimp only
  rw [all_map_same (p := fun g : Group => NMap.wf g.s) fun x => by rw [hg]]

@[simp] theorem shelve_formed (team : Nat) (hs : s.formed = true) : (s.shelve team).formed = true := by
  unfold State.shelve
  split
  · exact hs
  · split
    · exact hs
    · dsimp only
      rw [recount_formed, modTeam_formed _ _ _ fun t => team_formed_update t ..,
        formed_grps _ (fun g => { g with unproven := [] }) fun x => rfl]
      refine modFibs_keepsForm _ (fun f hf =>
        (fibre_formed_update { f with t := [] } ..).trans (fibre_formed_t hf rfl)) ?_
      simp [hs]

theorem freeTrapRegs_formed {b : Fibre} (hb : b.formed = true) (tick : Nat) : (b.freeTrapRegs tick).formed = true := by
  obtain ⟨hp, -, -, hx, ht⟩ := (fibre_formed_iff b).mp hb
  exact (fibre_formed_iff _).mpr ⟨hp, (masked_clear _).1, (masked_clear _).2, hx, ht⟩

theorem team_ckpt_formed {s : State} (hs : s.formed = true) {team : Nat} {t : Team} (h : s.team? team = some t)
    {k : Ckpt} (hk : t.ckpt = some k) : k.formed = true := by
  obtain ⟨-, -, ht⟩ := (formed_iff s).mp hs
  obtain ⟨-, -, -, -, h5⟩ := (team_formed_iff t).mp (ht t (List.mem_of_find?_eq_some h))
  rwa [hk] at h5

@[simp] theorem abandon_formed (team : Nat) (hs : s.formed = true) : (s.abandon team).formed = true := by
  unfold State.abandon
  split
  · next t ht =>
    split
    · next k _ hk => exact fromCkpt_formed t hs (team_ckpt_formed hs ht hk) fun b hb => freeTrapRegs_formed hb s.tick
    · exact hs
  · exact hs

@[simp] theorem saveTeam_formed (team : Nat) (hs : s.formed = true) : (s.saveTeam team).formed = true := by
  simp [State.saveTeam, hs]

@[simp] theorem restoreTeam_formed (team core : Nat) (offs : List Nat) :
    (s.restoreTeam team core offs).formed = s.formed := by
  unfold State.restoreTeam
  split
  · rfl
  · split
    · rfl
    · dsimp only
      rw [formPaths_formed, foldl_formed _ fun s c => setQueue_formed ..]
      generalize hu : s.modTeam team _ = u
      have hus : u.formed = s.formed := by simp [← hu]
      rw [← hus]
      unfold State.formed
      dsimp only
      rw [all_map_same retranslate_formed, all_map_same (p := fun g : Group => NMap.wf g.s)
        (g := fun g => { g with roff := offs.getD g.grp g.roff }) fun x => rfl]

@[simp] theorem noteReplay_formed (t : Team) (fails : Option CheckSite) (old : Nat) :
    (s.noteReplay t fails old).formed = s.formed := by
  unfold State.noteReplay
  split <;> simp

@[simp] theorem putCluster_formed (c : Cluster) (origin : Nat) (cores : List (Nat × List Nat)) :
    (s.putCluster c origin cores).formed = s.formed := by
  unfold State.putCluster
  dsimp only
  rw [modCluster_formed, foldl_formed, foldl_formed]
  · simp
  · intro s t
    split <;> simp
  · simp

@[simp] theorem lastReplay_formed (t : Team) : (s.lastReplay t).formed = s.formed := by
  simp [State.lastReplay]

theorem replayTeam_formed {s : State} {t : Team} (hs : s.formed = true) (ht : t.formed = true) :
    (s.replayTeam t).formed = true := by
  unfold State.replayTeam
  split
  · next k _ hk =>
    obtain ⟨-, -, -, -, h5⟩ := (team_formed_iff t).mp ht
    rw [hk] at h5
    have hc := fromCkpt_formed t hs h5 fun b hb => freeTrapRegs_formed hb s.tick
    refine shelve_formed _ _ ?_
    split <;> simp [hc]
  · exact shelve_formed _ _ hs

/-! ### Walks, frames and channels -/

@[simp] theorem endWalk_formed (w : Walk) (t : Tlb) : (s.endWalk w t).formed = s.formed := by
  unfold State.endWalk
  rw [foldl_formed]
  · simp
  · intro s x
    dsimp only
    split <;> simp

@[simp] theorem failWalk_formed (w : Walk) (e : WalkFail) : (s.failWalk w e).formed = s.formed := by
  simp [State.failWalk]

@[simp] theorem dropLines_formed (p : Nat → Bool) : (s.dropLines p).formed = s.formed := by
  unfold State.dropLines State.formed
  dsimp only
  rw [List.all_map]
  congr 2

@[simp] theorem killFrame_formed (f : Nat) (hs : s.formed = true) : (s.killFrame f).formed = true := by
  simp [State.killFrame, hs]

@[simp] theorem failChannel_formed (stack q : Nat) : (s.failChannel stack q).formed = s.formed := by
  simp [State.failChannel]

/-! ### Expanders and other packages -/

@[simp] theorem loseSectors_formed (o : MemOp) : (s.loseSectors o).formed = s.formed := by
  simp [State.loseSectors]

@[simp] theorem loseOp_formed (o : MemOp) (hs : s.formed = true) : (s.loseOp o).formed = true := by
  unfold State.loseOp
  split <;> simp [hs]

@[simp] theorem failTouching_formed (e : Nat) : (s.failTouching e).formed = s.formed := by
  simp [State.failTouching]

@[simp] theorem cxlDown_formed (e : Nat) (hs : s.formed = true) : (s.cxlDown e).formed = true := by
  unfold State.cxlDown
  split
  · exact hs
  · refine sweep_formed _ ?_
    rw [failTouching_formed, dropLines_formed]
    refine (state_formed_update (List.foldl _ _ _) ..).trans (foldl_keepsForm (fun s o hs => loseOp_formed s o hs) _ ?_)
    exact (state_formed_update s ..).trans hs

@[simp] theorem resend_formed (port : Nat) : (s.resend port).formed = s.formed := by
  simp [State.resend]

@[simp] theorem homeBytes_formed (a n : Nat) : (s.homeBytes a n).2.formed = s.formed := by
  simp [State.homeBytes]

@[simp] theorem homePut_formed (a : Nat) (bs : List (Byte × Bool)) (en : List Byte) (part n : Nat) :
    (s.homePut a bs en part n).formed = s.formed := by
  induction n generalizing s a bs en with
  | zero => rfl
  | succ n ih => simp [State.homePut, ih]

@[simp] theorem putBytes_formed (a : Nat) (bs en : List Byte) (p : List Bool) (part : Nat) :
    (s.putBytes a bs en p part).formed = s.formed := by
  simp [State.putBytes]

@[simp] theorem sibRead_formed (a sha : Nat) (slot : Option Nat) : (s.sibRead a sha slot).2.formed = s.formed := by
  simp [State.sibRead]

@[simp] theorem inbound_formed (r : InReq) (hs : s.formed = true) : (s.inbound r).2.formed = true := by
  unfold State.inbound
  dsimp only
  repeat' split
  all_goals simp [hs]

/-! ### Heads and encoders -/

@[simp] theorem scanWord_formed (part : Nat) (a : Word) : (s.scanWord part a).2.formed = s.formed := by
  unfold State.scanWord
  dsimp only
  repeat' split
  all_goals simp

@[simp] theorem targetWord_formed (h : Head) (part i : Nat) : (s.targetWord h part i).2.formed = s.formed := by
  unfold State.targetWord
  split <;> simp

@[simp] theorem headWord_formed (head : Nat) : (s.headWord head).formed = s.formed := by
  simp [State.headWord]

@[simp] theorem scanRow_formed (h : Head) (part y : Nat) : (s.scanRow h part y).2.formed = s.formed := by
  unfold State.scanRow
  refine foldl_snd_formed _ (fun p i => ?_) _ _
  dsimp only
  split
  all_goals
    dsimp only
    split <;> simp

@[simp] theorem scanFrame_formed (h : Head) (part : Nat) : (s.scanFrame h part).2.formed = s.formed := by
  simp [State.scanFrame]

@[simp] theorem ringPlace_formed (part : Nat) (a : Word) (len align : Nat) :
    (s.ringPlace part a len align).2.formed = s.formed := by
  unfold State.ringPlace
  dsimp only
  split <;> simp

@[simp] theorem ringPlaces_formed (part : Nat) (l : List Word) : (s.ringPlaces part l).2.formed = s.formed := by
  induction l generalizing s with
  | nil => rfl
  | cons a l ih =>
    unfold State.ringPlaces
    dsimp only
    split <;> simp [ih]

@[simp] theorem putRing_formed (part : Nat) (ps : List Loc) (ws : List Word) (hs : s.formed = true) :
    (s.putRing part ps ws).formed = true := by
  induction ps generalizing s ws with
  | nil => exact hs
  | cons p ps ih => simp [State.putRing, ih, hs]

@[simp] theorem ringPointers_formed (part : Nat) (e : Enc) : (s.ringPointers part e).2.formed = s.formed := by
  unfold State.ringPointers
  dsimp only
  split <;> simp

@[simp] theorem writeFrame_formed (part n : Nat) (e : Enc) (f : Frame) (hs : s.formed = true) :
    (s.writeFrame part n e f).formed = true := by
  unfold State.writeFrame
  dsimp only
  repeat' split
  all_goals simp [hs]

end

end Sys2Proof.Machine
end

section
/-! SUPPORT. The forms of O60: commands of the host, the management controller, boot, rasters, rays and what follows
every action. -/

namespace Sys2Proof.Machine

open Sys2Proof

section

variable (s : State)

/-! ### Commands of the host -/

@[simp] theorem noteCommand_formed (fn queue n : Nat) (v : Verdict) :
    (s.noteCommand fn queue n v).formed = s.formed := by
  unfold State.noteCommand
  split <;> simp

/-- A property that speaks of the forms only passes through a command that keeps it. -/
theorem hostCmd_forms {P : State → Prop} (hP : ∀ {s t : State}, t.formed = s.formed → P s → P t)
    {s : State} {fn queue : Nat} {early : Bool} {f : Nat → State → Verdict × State} (hs : P s)
    (hf : ∀ n s, P s → P (f n s).2) :
    P (s.hostCmd fn early queue f) := by
  unfold State.hostCmd
  dsimp only
  split
  · exact hs
  split
  · exact hP (noteCommand_formed ..) (hf _ _ (hP (modPart_formed ..) hs))
  split
  · split
    · exact hP ((noteCommand_formed ..).trans (modPart_formed ..)) (hf 0 s hs)
    · exact hf 0 s hs
  · exact hP (modPart_formed ..) hs

@[simp] theorem hostCmd_formed (fn : Nat) (early : Bool) (queue : Nat) (f : Nat → State → Verdict × State)
    (h : ∀ n s, (f n s).2.formed = s.formed) : (s.hostCmd fn early queue f).formed = s.formed :=
  hostCmd_forms (P := (·.formed = s.formed)) (fun h => h.trans) rfl fun n u hu => (h n u).trans hu

@[simp] theorem cmdOf_formed (fn : Nat) (early : Bool) (queue : Nat) (c : HostCmd)
    (checks : State → List (Bool × Nat)) (f : State → State) (h : ∀ s, (f s).formed = s.formed) :
    (s.cmdOf fn early queue c checks f).formed = s.formed := by
  refine hostCmd_formed _ _ _ _ _ fun n s => ?_
  split <;> simp [h]

theorem cmdOf_keepsForm {s : State} {fn : Nat} {early : Bool} {queue : Nat} {c : HostCmd}
    {checks : State → List (Bool × Nat)} {f : State → State} (hs : s.formed = true)
    (h : ∀ s, s.formed = true → (f s).formed = true) : (s.cmdOf fn early queue c checks f).formed = true := by
  refine hostCmd_forms (P := (·.formed = true)) (fun h => h.trans) hs fun n s hs => ?_
  split
  · exact hs
  · exact h s hs

@[simp] theorem barFault_formed (fn off : Nat) : (s.barFault fn off).formed = s.formed := by
  simp [State.barFault]

@[simp] theorem setTables_formed (fn : Nat) (c : HostCmd) : (s.setTables fn c).formed = s.formed := by
  simp [State.setTables]

@[simp] theorem renamed_formed (s old : State) : (s.renamed old).formed = s.formed := by
  simp [State.renamed]

@[simp] theorem setFrame_formed (f : Nat) (new : Word) (hs : s.formed = true) : (s.setFrame f new).formed = true := by
  simp [State.setFrame, hs]

@[simp] theorem resumeAgents_formed (n : Nat) (hs : s.formed = true) : (s.resumeAgents n).formed = true := by
  obtain ⟨hf, hg, ht⟩ := (formed_iff s).mp hs
  refine foldl_keepsForm (fun s x hs => ?_) _ ((formed_iff _).mpr ⟨hf, hg, ?_⟩)
  · have hr := settleFuture_formed s x.part x.fut x.value x.failed x.queue hs
    dsimp only
    split
    · exact (state_formed_update (State.settleFuture _ _ _ _ _ _).2 ..).trans hr
    · exact hr
  · exact forall_map_of (c := fun t : Team => t.pointFault == some n) ht fun t ht => (team_formed_update t ..).trans ht

@[simp] theorem resumeFault_formed (f : FaultRec) (hs : s.formed = true) : (s.resumeFault f).formed = true := by
  simp [State.resumeFault, hs]

@[simp] theorem retryWalks_formed (hs : s.formed = true) : s.retryWalks.formed = true := by
  simp [State.retryWalks, hs]

@[simp] theorem failCmd_formed (c : Cmd) (addr : Word) (hs : s.formed = true) : (s.failCmd c addr).formed = true := by
  unfold State.failCmd
  split <;> simp [hs]

@[simp] theorem failFault_formed (f : FaultRec) (hs : s.formed = true) : (s.failFault f).formed = true := by
  unfold State.failFault
  dsimp only
  refine (state_formed_update (List.foldl _ _ _) ..).trans ?_
  rw [foldl_formed]
  · refine (state_formed_update (List.foldl _ _ _) ..).trans ?_
    refine foldl_keepsForm (fun s x hs => failCmd_formed s x _ hs) _ ?_
    refine (state_formed_update (List.foldl _ _ _) ..).trans ?_
    rw [foldl_formed, foldl_formed, foldl_formed]
    · simp [hs]
    all_goals simp
  · intro s t
    split <;> simp

theorem faultReply_formed {s : State} {fn : Nat} {c : HostCmd} {f : State → FaultRec → State} (hs : s.formed = true)
    (h : ∀ s x, s.formed = true → (f s x).formed = true) : (s.faultReply fn c f).formed = true := by
  refine cmdOf_keepsForm hs fun s hs => ?_
  split
  · exact sweep_formed _ (h _ _ hs)
  · exact hs

@[simp] theorem newStream_formed (n : Nat) : (s.newStream n).formed = s.formed := by
  simp [State.newStream]

@[simp] theorem setEncoder_formed (n : Nat) (ws : List Word) : (s.setEncoder n ws).formed = s.formed := by
  simp [State.setEncoder]

@[simp] theorem releaseTeam_formed (t : Team) : (s.releaseTeam t).formed = s.formed := by
  unfold State.releaseTeam
  dsimp only
  rw [formed_ite, modCluster_formed, modTeam_formed _ _ _ fun u => team_formed_update u ..]
  split
  · rfl
  · rw [teams_map_formed _ (fun u => u.cluster == t.cluster && u.phase == Phase.held) _
        fun u => team_formed_update u ..,
      modTeam_formed _ _ _ fun u => team_formed_update u ..]

/-! ### The management controller and boot -/

@[simp] theorem mgmtAsk_formed (fn obj : Nat) (r : MgmtReq) : (s.mgmtAsk fn obj r).formed = s.formed := by
  simp [State.mgmtAsk]

@[simp] theorem sendMessage_formed (fn vec : Nat) : (s.sendMessage fn vec).formed = s.formed := by
  simp [State.sendMessage]

@[simp] theorem maskVector_formed (fn vec : Nat) : (s.maskVector fn vec).formed = s.formed := by
  simp [State.maskVector]

@[simp] theorem setStep_formed (step out : Nat) : (s.setStep step out).formed = s.formed := by
  simp [State.setStep]

@[simp] theorem bootLog_formed (hs : s.formed = true) : s.bootLog.formed = true := by
  unfold State.bootLog
  rw [setStep_formed]
  exact foldl_keepsForm (fun s x hs => withdraw_formed x hs fun s c hs => (modCore_formed ..).trans hs) _
    ((state_formed_update s ..).trans hs)

@[simp] theorem bootChip_formed (e : BootEnv) : (s.bootChip e).formed = s.formed := by
  simp [State.bootChip]

/-! ### Rasters -/

@[simp] theorem Cmd.sample_forms (c : Cmd) (x : RastArgs) (m : Nat × Nat × Word) : (c.sample x m).Forms := by
  unfold Cmd.sample
  split
  · simp
  · exact Eng.bind_forms (by simp) fun p => Eng.put_forms _ fun s hs => by simp [hs]

@[simp] theorem Cmd.raster_forms (c : Cmd) : c.raster.Forms := by
  refine Eng.bind_forms (by simp) fun cut => Eng.bind_forms (by simp) fun ws => Eng.bind_forms ?_ (by simp)
  exact Eng.along_forms _ (fun acc r => Eng.bind_forms (by simp) fun b => Eng.bind_forms (by simp) (by simp)) _ _

/-! ### Rays -/

@[simp] theorem recordAddr_forms (a : Word) (i n : Nat) : (recordAddr a i n).Forms := by
  unfold recordAddr
  split <;> simp

@[simp] theorem Cmd.clusters_forms (c : Cmd) : c.clusters.Forms := by
  refine Eng.bind_forms (Eng.get_forms _) fun ts => Eng.bind_forms (by simp) fun t => ?_
  split
  · simp
  · exact Eng.bind_forms (by simp) (by simp)

@[simp] theorem Cmd.ray_forms (c : Cmd) (x : RayArgs) (i : Nat) : (c.ray x i).Forms := by
  unfold Cmd.ray
  split <;> simp

@[simp] theorem Cmd.finishRay_forms (c : Cmd) (x : RayArgs) (tree : List Word) (bs : List (CutRec × Block))
    (i : Nat) (ws : List Word) (any : Bool) : (c.finishRay x tree bs i ws any).Forms := by
  refine Eng.bind_forms (by simp) fun a => Eng.bind_forms (by simp) fun _ => Eng.bind_forms (by simp) fun _ => ?_
  exact Eng.bind_forms (by simp) fun a => Eng.bind_forms (by simp) (by simp)

@[simp] theorem Cmd.saveRay_forms (c : Cmd) (x : RayArgs) (i : Nat) (ws : List Word) (any : Bool) :
    (c.saveRay x i ws any).Forms := by
  refine Eng.bind_forms (by simp) fun a => Eng.bind_forms (by simp) fun _ => Eng.bind_forms (by simp) fun _ => ?_
  exact Eng.bind_forms (Eng.get_forms _) fun t => Eng.bind_forms (by simp) (by simp)

@[simp] theorem Cmd.rays_forms (c : Cmd) (done : Nat → Bool) : (c.rays done).Forms := by
  refine Eng.bind_forms (by simp) fun t => Eng.bind_forms (Eng.along_forms _ (fun n i => ?_) _ _) (by simp)
  refine Eng.bind_forms (by simp) fun r => ?_
  split
  · simp
  · simp

/-! ### The step -/

@[simp] theorem pass_formed (dt : Nat) : (s.pass dt).formed = s.formed := by
  unfold State.pass State.formed
  split
  · rfl
  · dsimp only
    rw [List.all_map]
    congr 2
    funext t
    simp only [Function.comp_apply, State.idleBy, team_formed_ite, team_formed_update, ite_self]

@[simp] theorem taken_formed : s.taken.formed = s.formed := by
  simp [State.taken]

@[simp] theorem leaveWord_formed (run n : Nat) (hs : s.formed = true) : (s.leaveWord run n).formed = true := by
  unfold State.leaveWord
  dsimp only
  split <;> simp [hs]

@[simp] theorem badCommand_formed (fn type : Nat) (c : HostCmd) : (s.badCommand fn type c).formed = s.formed := by
  simp [State.badCommand]

@[simp] theorem dropLeaf_formed (k va : Nat) : (s.dropLeaf k va).formed = s.formed := by
  simp [State.dropLeaf]

@[simp] theorem dropClean_formed (pod base : Nat) : (s.dropClean pod base).formed = s.formed := by
  simp [State.dropClean]

theorem afterStep_formed {s : State} (hs : s.formed = true) : s.afterStep.formed = true := by
  simp [State.afterStep, hs]

end

end Sys2Proof.Machine
end

section
/-! SUPPORT. The forms of O60, row by row. -/

namespace Sys2Proof.Machine

open Sys2Proof

theorem execSwr_formed {s : State} (hs : s.formed = true) (g : Guard) (a : Opnd) (n : BitVec 12) :
    Ends (·.formed = true) (execSwr g a n s) := by
  simp only [execSwr]
  repeat' split
  all_goals simp [hs]

theorem execTset_formed {s : State} (hs : s.formed = true) (g : Guard) (b : Src) :
    Ends (·.formed = true) (execTset g b s) := by
  refine foldl_keepsForm (fun s v hs => ?_) _ hs
  split
  · simp [hs]
  · split <;> simp [hs]

theorem execFork_formed {s : State} (hs : s.formed = true) (g : Guard) (d a : Opnd) (off : BitVec 12) :
    Ends (·.formed = true) (execFork g d a off s) := by
  refine control_formed hs fun s v hs => ?_
  dsimp only
  split
  · simp [hs]
  · exact fillLane_formed _ (by simp [hs]) (newFibre_formed ..)

theorem execTrackedComplete_formed {s : State} (hs : s.formed = true) (op : Nat) :
    Ends (·.formed = true) (execTrackedComplete op s) := by
  simp only [execTrackedComplete, ends_next]
  split <;> simp [hs]

theorem execFeAccessComplete_formed {s : State} (hs : s.formed = true) (op : Nat) :
    Ends (·.formed = true) (execFeAccessComplete op s) := by
  simp only [execFeAccessComplete, ends_next]
  split <;> simp [hs]

theorem execRedCombineApply_formed {s : State} (hs : s.formed = true) (pod n : Nat) :
    Ends (·.formed = true) (execRedCombineApply pod n s) := by
  simp only [execRedCombineApply, ends_next]
  split <;> simp [hs]

theorem execRemoteResponse_formed {s : State} (hs : s.formed = true) (op : Nat) (bytes : List Byte)
    (poison : List Bool) : Ends (·.formed = true) (execRemoteResponse op bytes poison s) := by
  simp only [execRemoteResponse, ends_next]
  split <;> simp [hs]

theorem execRemoteTimeout_formed {s : State} (hs : s.formed = true) (op : Nat) :
    Ends (·.formed = true) (execRemoteTimeout op s) := by
  simp only [execRemoteTimeout, ends_next]
  split <;> simp [hs]

theorem execMatrixOpStart_formed {s : State} (hs : s.formed = true) (core : Nat) :
    Ends (·.formed = true) (execMatrixOpStart core s) := by
  simp only [execMatrixOpStart, ends_next]
  split <;> simp [hs]

theorem execMatrixOpWrite_formed {s : State} (hs : s.formed = true) (core : Nat) :
    Ends (·.formed = true) (execMatrixOpWrite core s) := by
  unfold execMatrixOpWrite
  split
  · split
    · refine sweep_formed _ (foldl_keepsForm (fun s c hs => ?_) _ ?_)
      · split <;> simp [hs]
      · exact modTeam_keepsForm _ (fun t ht => (wrotePairs_formed ..).trans (putOuts_formed ht _)) (by simp [hs])
    · exact hs
  · exact hs

theorem execFreg_formed {s : State} (hs : s.formed = true) (g : Guard) (a b : Opnd) :
    Ends (·.formed = true) (execFreg g a b s) := by
  refine wordSeq_formed hs fun s v hs => ?_
  dsimp only
  repeat' split
  all_goals simp [hs]

theorem execFpoll_formed {s : State} (hs : s.formed = true) (g : Guard) (d a : Opnd) :
    Ends (·.formed = true) (execFpoll g d a s) := by
  refine wordSeq_formed hs fun s v hs => ?_
  dsimp only
  repeat' split
  all_goals simp [hs]

theorem execCsub_formed {s : State} (hs : s.formed = true) (g : Guard) (p : Fin 8) (a : Opnd) :
    Ends (·.formed = true) (execCsub g p a s) := by
  refine wordSeq_formed hs fun s v hs => ?_
  dsimp only
  repeat' split
  all_goals simp [hs]

theorem execJoinDecrement_formed {s : State} (hs : s.formed = true) (n : Nat) :
    Ends (·.formed = true) (execJoinDecrement n s) := by
  simp only [execJoinDecrement, ends_next]
  split <;> simp [hs]

theorem setCsr_formed {b : Fibre} (hb : b.formed = true) (n : Nat) (x : Word) : (b.setCsr n x).formed = true := by
  unfold Fibre.setCsr
  split
  case h_3 =>
    obtain ⟨hp, -, -, hx, ht⟩ := (fibre_formed_iff b).mp hb
    exact (fibre_formed_iff _).mpr ⟨hp, (masked_clear x).1, (masked_clear x).2, hx, ht⟩
  all_goals simp [hb]

theorem execCsrw_formed {s : State} (hs : s.formed = true) (g : Guard) (a : Opnd) (n : BitVec 12) :
    Ends (·.formed = true) (execCsrw g a n s) := by
  unfold execCsrw
  dsimp only
  split
  · split <;> simp [hs]
  · exact foldl_keepsForm (fun s v hs => modFib_keepsForm _ (fun b hb => setCsr_formed hb _ _) hs) _
      (onViews_formed _ _ _ hs)

theorem execBrk_formed {s : State} (hs : s.formed = true) (g : Guard) (c : BitVec 12) :
    Ends (·.formed = true) (execBrk g c s) := by
  refine wordSeq_formed hs fun s v hs => ?_
  dsimp only
  repeat' split
  all_goals simp [hs]

theorem execRegionCommit_formed {s : State} (hs : s.formed = true) (team : Nat) :
    Ends (·.formed = true) (execRegionCommit team s) := by
  simp only [execRegionCommit, ends_next]
  repeat' split
  all_goals simp [hs]

theorem execIssueStarvation_formed {s : State} (hs : s.formed = true) (fs : List FibId) :
    Ends (·.formed = true) (execIssueStarvation fs s) := by
  simp[execIssueStarvation, hs]

theorem execPathUnpark_formed {s : State} (hs : s.formed = true) (core : Nat) :
    Ends (·.formed = true) (execPathUnpark core s) := by
  simp only [execPathUnpark, ends_next]
  split <;> simp [hs]

theorem execParkSteal_formed {s : State} (hs : s.formed = true) (core : Nat) :
    Ends (·.formed = true) (execParkSteal core s) := by
  simp only [execParkSteal, ends_next]
  repeat' split
  all_goals simp [hs]

theorem execTrapDelivery_formed {s : State} (hs : s.formed = true) (f : FibId) :
    Ends (·.formed = true) (execTrapDelivery f s) := by
  unfold execTrapDelivery
  split
  · split
    · exact hs
    · split
      · exact hs
      · split
        · simp [hs]
        · simp only [ends_next, claimEntry_formed, parkAll_formed, leaveExec_formed]
          exact modFib_keepsForm _ (fun b hb => takeTrap_formed hb _ _) hs
  · exact hs

theorem execEngineAccept_formed {s : State} (hs : s.formed = true) (core : Nat) (q : EQueue) :
    Ends (·.formed = true) (execEngineAccept core q s) := by
  simp only [execEngineAccept, ends_next]
  repeat' split
  all_goals simp [hs]

theorem execEngineComplete_formed {s : State} (hs : s.formed = true) (cmd : Nat) :
    Ends (·.formed = true) (execEngineComplete cmd s) := by
  simp only [execEngineComplete, ends_next]
  split <;> simp [hs]

theorem execCollMemberTimeout_formed {s : State} (hs : s.formed = true) (cmd rank : Nat) :
    Ends (·.formed = true) (execCollMemberTimeout cmd rank s) := by
  refine runCmd_formed _ _ _ _ _ (fun c => Eng.bind_forms (Eng.get_forms _) fun s => ?_) hs
  split <;> simp

theorem execCollCoordinatorLost_formed {s : State} (hs : s.formed = true) (cmd : Nat) :
    Ends (·.formed = true) (execCollCoordinatorLost cmd s) := by
  refine runCmd_formed _ _ _ _ _ (fun c => Eng.bind_forms (Eng.get_forms _) fun s => ?_) hs
  split
  · simp
  · split <;> simp

theorem execCardIntake_formed {s : State} (hs : s.formed = true) (n : Nat) :
    Ends (·.formed = true) (execCardIntake n s) := by
  unfold execCardIntake
  split
  · exact hs
  split
  · exact hs
  split
  all_goals
    next h => simp[formed_of_eq_triple h, hs]

theorem execIntakeHead_formed {s : State} (hs : s.formed = true) (part : Nat) :
    Ends (·.formed = true) (execIntakeHead part s) := by
  simp only [execIntakeHead, ends_next]
  split
  · exact hs
  · split
    · exact hs
    · split
      · refine modFib_keepsForm _ (fun b hb => (release_formed ..).trans (setPred_formed hb _ _)) ?_
        simp [hs]
      · simp [hs]

theorem execChunkDeal_formed {s : State} (hs : s.formed = true) (clutch : Nat) (origins : List Nat) :
    Ends (·.formed = true) (execChunkDeal clutch origins s) := by
  unfold execChunkDeal
  split
  · exact hs
  split
  · exact hs
  split
  · next h => exact (modPart_formed ..).trans (dealAll_formed h hs)
  · exact hs

theorem execPreemptRequest_formed {s : State} (hs : s.formed = true) (clutch victim : Nat) :
    Ends (·.formed = true) (execPreemptRequest clutch victim s) := by
  simp only [execPreemptRequest, ends_next]
  split <;> simp [hs]

theorem execClutchRetire_formed {s : State} (hs : s.formed = true) (clutch : Nat) :
    Ends (·.formed = true) (execClutchRetire clutch s) := by
  simp only [execClutchRetire, ends_next]
  split <;> simp [hs]

theorem execNodeClose_formed {s : State} (hs : s.formed = true) (clutch : Nat) :
    Ends (·.formed = true) (execNodeClose clutch s) := by
  simp only [execNodeClose, ends_next]
  split <;> simp [hs]

theorem execCorrectedError_formed {s : State} (hs : s.formed = true) (site : CheckSite) :
    Ends (·.formed = true) (execCorrectedError site s) := by
  simp only [execCorrectedError, ends_next]
  split <;> simp [hs]

theorem execCheckFail_formed {s : State} (hs : s.formed = true) (site : CheckSite) (hit : CheckHit) :
    Ends (·.formed = true) (execCheckFail site hit s) := by
  simp[execCheckFail, hs]

theorem execPreemptSave_formed {s : State} (hs : s.formed = true) (cluster : Nat) :
    Ends (·.formed = true) (execPreemptSave cluster s) := by
  simp only [execPreemptSave, ends_next]
  split
  · exact hs
  · split
    · exact hs
    · rw [modCluster_formed, formed_ite, foldl_formed, ite_self]
      · exact sweep_formed _ (foldl_keepsForm (fun s t hs => saveTeam_formed s t.id hs) _ hs)
      · simp

theorem execClusterRestore_formed {s : State} (hs : s.formed = true) (cluster origin : Nat) :
    Ends (·.formed = true) (execClusterRestore cluster origin s) := by
  simp only [execClusterRestore, ends_next]
  repeat' split
  all_goals simp [hs]

theorem replayTeams_formed {ts : List Team} (ht : ∀ t ∈ ts, t.formed = true) {s : State} (hs : s.formed = true) :
    (ts.foldl (fun s t => s.replayTeam t) s).formed = true := by
  induction ts generalizing s with
  | nil => exact hs
  | cons t ts ih =>
    obtain ⟨ht, hts⟩ := List.forall_mem_cons.mp ht
    exact ih hts (replayTeam_formed hs ht)

theorem execRegionReplay_formed {s : State} (hs : s.formed = true) (cluster origin : Nat) :
    Ends (·.formed = true) (execRegionReplay cluster origin s) := by
  obtain ⟨-, -, ht⟩ := (formed_iff s).mp hs
  have hr := replayTeams_formed (forall_filter_of (fun t : Team => t.cluster == cluster) ht) hs
  have hc : ∀ g : Cluster → Cluster, (((s.clusterTeams cluster).foldl (fun s t => s.replayTeam t) s).sweep.modCluster
      cluster g).formed = true := fun g => (modCluster_formed ..).trans (sweep_formed _ hr)
  simp only [execRegionReplay, ends_next]
  split
  · exact hs
  · split
    · exact hs
    · split
      · exact hc _
      · split
        · exact (putCluster_formed ..).trans (hc _)
        · exact hc _

theorem execWatchdogPreempt_formed {s : State} (hs : s.formed = true) (team : Nat) :
    Ends (·.formed = true) (execWatchdogPreempt team s) := by
  simp only [execWatchdogPreempt, ends_next]
  split <;> simp [hs]

theorem execWatchdogKill_formed {s : State} (hs : s.formed = true) (team : Nat) :
    Ends (·.formed = true) (execWatchdogKill team s) := by
  simp only [execWatchdogKill, ends_next]
  split <;> simp [hs]

theorem execWatchdogFence_formed {s : State} (hs : s.formed = true) (team : Nat) :
    Ends (·.formed = true) (execWatchdogFence team s) := by
  simp only [execWatchdogFence, ends_next]
  split <;> simp [hs]

theorem execFenceSaveTimeout_formed {s : State} (hs : s.formed = true) (team : Nat) :
    Ends (·.formed = true) (execFenceSaveTimeout team s) := by
  simp only [execFenceSaveTimeout, ends_next]
  split <;> simp [hs]

theorem execL1CleanExpire_formed {s : State} (hs : s.formed = true) (pod base : Nat) :
    Ends (·.formed = true) (execL1CleanExpire pod base s) := by
  simp[execL1CleanExpire, hs]

theorem execTranslationWalk_formed {s : State} (hs : s.formed = true) (n : Nat) :
    Ends (·.formed = true) (execTranslationWalk n s) := by
  simp only [execTranslationWalk, ends_next]
  repeat' split
  all_goals simp [hs]

theorem execFaultRecordWrite_formed {s : State} (hs : s.formed = true) (part : Nat) :
    Ends (·.formed = true) (execFaultRecordWrite part s) := by
  simp only [execFaultRecordWrite, ends_next]
  split <;> simp [hs]

theorem execDeadFrameFill_formed {s : State} (hs : s.formed = true) (f : Nat) :
    Ends (·.formed = true) (execDeadFrameFill f s) := by
  simp[execDeadFrameFill, hs]

theorem execCaParityReplay_formed {s : State} (hs : s.formed = true) (stack q : Nat) (ok : Bool) :
    Ends (·.formed = true) (execCaParityReplay stack q ok s) := by
  simp[execCaParityReplay, hs]

theorem execRefreshManagement_formed {s : State} (hs : s.formed = true) (stack q bank row : Nat) :
    Ends (·.formed = true) (execRefreshManagement stack q bank row s) := by
  simp[execRefreshManagement, hs]

theorem execActivationSaturate_formed {s : State} (hs : s.formed = true) (stack q bank row : Nat) (parity : Bool) :
    Ends (·.formed = true) (execActivationSaturate stack q bank row parity s) := by
  simp[execActivationSaturate, hs]

theorem execPackageLost_formed {s : State} (hs : s.formed = true) (pkg : Nat) :
    Ends (·.formed = true) (execPackageLost pkg s) := by
  simp[execPackageLost, hs]

theorem execFlitReplay_formed {s : State} (hs : s.formed = true) (r : Replay) :
    Ends (·.formed = true) (execFlitReplay r s) := by
  simp[execFlitReplay, hs]

theorem execPortDown_formed {s : State} (hs : s.formed = true) (port : Nat) :
    Ends (·.formed = true) (execPortDown port s) := by
  simp[execPortDown, hs]

theorem execUalinkInboundRequest_formed {s : State} (hs : s.formed = true) (r : Inbound) :
    Ends (·.formed = true) (execUalinkInboundRequest r s) := by
  simp[execUalinkInboundRequest, hs]

theorem execHeadFrameScan_formed {s : State} (hs : s.formed = true) (head : Nat) :
    Ends (·.formed = true) (execHeadFrameScan head s) := by
  simp[execHeadFrameScan, hs]

theorem execEncoderRingWrite_formed {s : State} (hs : s.formed = true) (enc : Nat) :
    Ends (·.formed = true) (execEncoderRingWrite enc s) := by
  simp only [execEncoderRingWrite, ends_next]
  split <;> simp [hs]

theorem execSubmit_formed {s : State} (hs : s.formed = true) (fn : Nat) (c : HostCmd) :
    Ends (·.formed = true) (execSubmit fn c s) := by
  simp[execSubmit, hs]

theorem execTables_formed {s : State} (hs : s.formed = true) (fn : Nat) (c : HostCmd) :
    Ends (·.formed = true) (execTables fn c s) := by
  simp[execTables, hs]

theorem execFrame_formed {s : State} (hs : s.formed = true) (fn : Nat) (c : HostCmd) :
    Ends (·.formed = true) (execFrame fn c s) :=
  cmdOf_keepsForm hs fun s hs => setFrame_formed s _ _ hs

theorem execDead_formed {s : State} (hs : s.formed = true) (fn : Nat) (c : HostCmd) :
    Ends (·.formed = true) (execDead fn c s) := by
  refine cmdOf_keepsForm hs fun s hs => ?_
  rw [dropLeaves_formed]
  exact foldl_keepsForm (fun s k hs => killFrame_formed s k hs) _ hs

theorem execShadow_formed {s : State} (hs : s.formed = true) (fn : Nat) (c : HostCmd) :
    Ends (·.formed = true) (execShadow fn c s) := by
  simp[execShadow, hs]

theorem execFaultResume_formed {s : State} (hs : s.formed = true) (fn : Nat) (c : HostCmd) :
    Ends (·.formed = true) (execFaultResume fn c s) :=
  faultReply_formed hs fun s f hs => resumeFault_formed s f hs

theorem execFaultFail_formed {s : State} (hs : s.formed = true) (fn : Nat) (c : HostCmd) :
    Ends (·.formed = true) (execFaultFail fn c s) :=
  faultReply_formed hs fun s f hs => failFault_formed s f hs

theorem execEncoder_formed {s : State} (hs : s.formed = true) (fn : Nat) (c : HostCmd) :
    Ends (·.formed = true) (execEncoder fn c s) := by
  simp[execEncoder, hs]

theorem execCore_formed {s : State} (hs : s.formed = true) (fn : Nat) (c : HostCmd) :
    Ends (·.formed = true) (execCore fn c s) := by
  simp[execCore, hs]

theorem execCxlDisable_formed {s : State} (hs : s.formed = true) (fn : Nat) (c : HostCmd) :
    Ends (·.formed = true) (execCxlDisable fn c s) :=
  cmdOf_keepsForm hs fun s hs => cxlDown_formed s _ hs

theorem execPower_formed {s : State} (hs : s.formed = true) (fn : Nat) (c : HostCmd) :
    Ends (·.formed = true) (execPower fn c s) := by
  simp[execPower, hs]

theorem execQueue_formed {s : State} (hs : s.formed = true) (fn : Nat) (c : HostCmd) :
    Ends (·.formed = true) (execQueue fn c s) := by
  simp[execQueue, hs]

theorem execJheadWrite_formed {s : State} (hs : s.formed = true) (fn : Nat) (v : Word) :
    Ends (·.formed = true) (execJheadWrite fn v s) := by
  simp[execJheadWrite, hs]

theorem execFheadWrite_formed {s : State} (hs : s.formed = true) (fn : Nat) (v : Word) :
    Ends (·.formed = true) (execFheadWrite fn v s) := by
  simp[execFheadWrite, hs]

theorem execMsixMessage_formed {s : State} (hs : s.formed = true) (fn vec : Nat) :
    Ends (·.formed = true) (execMsixMessage fn vec s) := by
  simp[execMsixMessage, hs]

theorem execMsixVectorUnmask_formed {s : State} (hs : s.formed = true) (fn vec : Nat) :
    Ends (·.formed = true) (execMsixVectorUnmask fn vec s) := by
  simp[execMsixVectorUnmask, hs]

theorem execPowerCapWindow_formed {s : State} (hs : s.formed = true) (fn : Nat) (above : Bool) :
    Ends (·.formed = true) (execPowerCapWindow fn above s) := by
  simp[execPowerCapWindow, hs]

/-! ## Rows of the package -/

theorem firmware_formed {s : State} {fn : Nat} {c : HostCmd} {always : Bool} {f : State → State} (hs : s.formed = true)
    (hf : ∀ s, s.formed = true → (f s).formed = true) : (s.firmware fn c always f).formed = true := by
  unfold State.firmware
  dsimp only
  split
  · split
    · exact hf s hs
    · exact hs
  · exact cmdOf_keepsForm hs hf

@[simp] theorem fwBegin_formed (s : State) (l : List Nat) : (s.fwBegin l).formed = s.formed := by
  simp only [State.fwBegin, state_formed_update]

@[simp] theorem fwNext_formed (s : State) : s.fwNext.formed = s.formed := by
  unfold State.fwNext
  split
  · rfl
  · exact state_formed_update s ..

@[simp] theorem setMode_formed (s : State) (m : Nat) : (s.setMode m).formed = s.formed :=
  (state_formed_update (s.dropLines _) ..).trans (dropLines_formed ..)

@[simp] theorem mgmtReply_formed (s : State) (fn obj : Nat) (r : MgmtReq) :
    (s.mgmtReply fn obj r).2.2.formed = s.formed := by
  unfold State.mgmtReply
  dsimp only
  repeat' split
  all_goals simp

theorem execMgmtAnswer_formed {s : State} (hs : s.formed = true) (fn : Nat) :
    Ends (·.formed = true) (execMgmtAnswer fn s) := by
  unfold execMgmtAnswer
  split
  · simp [hs]
  · exact hs

@[simp] theorem bootLinks_formed (s : State) (e : BootEnv) : (s.bootLinks e).formed = s.formed := by
  simp [State.bootLinks]

@[simp] theorem bootFunctions_formed (s : State) : s.bootFunctions.formed = s.formed := by
  simp [State.bootFunctions]

theorem execBoot_formed {s : State} (hs : s.formed = true) (e : BootEnv) : Ends (·.formed = true) (execBoot e s) := by
  unfold execBoot
  dsimp only
  split
  · exact hs
  split
  · simp [hs]
  split
  · exact (state_formed_update s ..).trans hs
  split
  · exact (state_formed_update s ..).trans hs
  split
  · exact (state_formed_update s ..).trans hs
  · simp [hs]

theorem execD3cold_formed (s : State) : Ends (·.formed = true) (execD3cold s) :=
  (formed_iff _).mpr ⟨List.forall_mem_nil _, List.forall_mem_nil _, List.forall_mem_nil _⟩

end Sys2Proof.Machine
end

section
/-! The proof of O60: every row, every action and every step keeps the forms of fibres, groups and teams (R28, R103,
R311). -/

namespace Sys2Proof.Machine

open Sys2Proof

/-- Every row keeps the forms: those that share an operation by its lemma, the others by a lemma of their own. -/
theorem exec_formed (i : Instr) {s : State} (hs : s.formed = true) : Ends (·.formed = true) (exec i s) := by
  cases i
  case iadd | isub | imul | imulh | imad | imin | imax | iabs | and | or | xor | andn | shl | shr | sar | rot | funl
      | bfx | bfi | popc | clz | ctz | brev | permb | nibl | icmp | badd | bsub | bcmp | bmaxu | bmsk | mov | movi
      | ldi | ldih | sel | pset | pmovGet | pmovPut | sext | zext | srd | mka | adda | fadd | fsub | fmul | ffma
      | fmin | fmax | fcmp | fclass | frint | fcvt | fscale | fexpo | f2sum | f2prod | fpack | funpk | sqrt | div
      | rcp | rsq | exp2 | log2 | sin | cos | idiv | irem | nop | trap | regq | csrr | pchk =>
    exact word_formed _ _ _ hs
  case shfl | vote | matchL | redl | scanl | first => exact laneWord_formed _ _ _ hs
  case bra | call | ret | exit | yld => exact control_formed hs fun s v hs => by simp [hs]
  case bany | ball | bnone => exact tileBranch_formed _ _ _ _ _ hs
  case jmpr | callr => exact control_formed hs fun s v hs => by split <;> simp [hs]
  case ld | st | pld | feset | feclr | sldx | sst | srec | mrd | mwr | msts | mlds =>
    exact wordSeq_formed hs fun s v hs => by split <;> simp [hs]
  case ldx | lde | ste | atom | red | cwb | cinv | feqry | sld => exact (issueWord_formed ..).trans hs
  case fence | mma | mmab | mzero | barv | barw | cbar | gbar | kset | kwait | ksign | kleave | push | fres
      | ffail | spawn | trig | eret | qctlRd | qctlWr | regb | regc =>
    exact wordSeq_formed hs fun s v hs => by simp [hs]
  case tsync => exact tileWord_formed _ _ hs
  case tlbiVa | tlbiFrame | tlbiAll | btinv | btinvAll => exact privWord_formed hs fun s v => by simp
  case clauseStart | regionSplit => exact start_formed _ _ _ _ hs
  case seFill | seDrain | seFillSlot | seDrainSlot | cvxCopy | collAllred | collBcast | collBar | collGath
      | collComplete | cutSelect | cutTree | rastVis | rayTrace | rayResume | rayYield =>
    exact runCmd_formed _ _ _ _ _ (by simp) hs
  case l1DirtyWriteback => exact (podFlush_formed ..).trans hs
  case refreshManagementComplete => exact (refreshed_formed ..).trans hs
  case cxlLinkDown | cxlTimeout => exact cxlDown_formed _ _ hs
  case profile | head | cxlEnable | link => exact cmdOf_keepsForm hs fun s hs => hs
  case teamRelease | teamKill => exact cmdOf_keepsForm hs fun s hs => by split <;> simp [hs]
  case bar0OtherAccess => exact (barFault_formed ..).trans hs
  case hostMemoryWrite => exact (putBytes_formed ..).trans hs
  case mgmtLaneRemap | mgmtEncoderCounters | mgmtEventLog | mgmtPackageId | mgmtStorePackageId =>
    exact (mgmtAsk_formed ..).trans hs
  case swr => exact execSwr_formed hs ..
  case tset => exact execTset_formed hs ..
  case fork => exact execFork_formed hs ..
  case trackedComplete => exact execTrackedComplete_formed hs ..
  case feAccessComplete => exact execFeAccessComplete_formed hs ..
  case redCombineApply => exact execRedCombineApply_formed hs ..
  case remoteResponse => exact execRemoteResponse_formed hs ..
  case remoteTimeout => exact execRemoteTimeout_formed hs ..
  case matrixOpStart => exact execMatrixOpStart_formed hs ..
  case matrixOpWrite => exact execMatrixOpWrite_formed hs ..
  case freg => exact execFreg_formed hs ..
  case fpoll => exact execFpoll_formed hs ..
  case csub => exact execCsub_formed hs ..
  case joinDecrement => exact execJoinDecrement_formed hs ..
  case csrw => exact execCsrw_formed hs ..
  case brk => exact execBrk_formed hs ..
  case regionCommit => exact execRegionCommit_formed hs ..
  case issueStarvation => exact execIssueStarvation_formed hs ..
  case pathUnpark => exact execPathUnpark_formed hs ..
  case parkSteal => exact execParkSteal_formed hs ..
  case trapDelivery => exact execTrapDelivery_formed hs ..
  case engineAccept => exact execEngineAccept_formed hs ..
  case engineComplete => exact execEngineComplete_formed hs ..
  case collMemberTimeout => exact execCollMemberTimeout_formed hs ..
  case collCoordinatorLost => exact execCollCoordinatorLost_formed hs ..
  case cardIntake => exact execCardIntake_formed hs ..
  case intakeHead => exact execIntakeHead_formed hs ..
  case chunkDeal => exact execChunkDeal_formed hs ..
  case preemptRequest => exact execPreemptRequest_formed hs ..
  case clutchRetire => exact execClutchRetire_formed hs ..
  case nodeClose => exact execNodeClose_formed hs ..
  case correctedError => exact execCorrectedError_formed hs ..
  case checkFail => exact execCheckFail_formed hs ..
  case preemptSave => exact execPreemptSave_formed hs ..
  case clusterRestore => exact execClusterRestore_formed hs ..
  case regionReplay => exact execRegionReplay_formed hs ..
  case watchdogPreempt => exact execWatchdogPreempt_formed hs ..
  case watchdogKill => exact execWatchdogKill_formed hs ..
  case watchdogFence => exact execWatchdogFence_formed hs ..
  case fenceSaveTimeout => exact execFenceSaveTimeout_formed hs ..
  case l1CleanExpire => exact execL1CleanExpire_formed hs ..
  case translationWalk => exact execTranslationWalk_formed hs ..
  case faultRecordWrite => exact execFaultRecordWrite_formed hs ..
  case deadFrameFill => exact execDeadFrameFill_formed hs ..
  case caParityReplay => exact execCaParityReplay_formed hs ..
  case refreshManagement => exact execRefreshManagement_formed hs ..
  case activationSaturate => exact execActivationSaturate_formed hs ..
  case packageLost => exact execPackageLost_formed hs ..
  case flitReplay => exact execFlitReplay_formed hs ..
  case portDown => exact execPortDown_formed hs ..
  case ualinkInboundRequest => exact execUalinkInboundRequest_formed hs ..
  case headFrameScan => exact execHeadFrameScan_formed hs ..
  case encoderRingWrite => exact execEncoderRingWrite_formed hs ..
  case submit => exact execSubmit_formed hs ..
  case tables => exact execTables_formed hs ..
  case frame => exact execFrame_formed hs ..
  case dead => exact execDead_formed hs ..
  case shadow => exact execShadow_formed hs ..
  case faultResume => exact execFaultResume_formed hs ..
  case faultFail => exact execFaultFail_formed hs ..
  case encoder => exact execEncoder_formed hs ..
  case core => exact execCore_formed hs ..
  case cxlDisable => exact execCxlDisable_formed hs ..
  case power => exact execPower_formed hs ..
  case queue => exact execQueue_formed hs ..
  case jheadWrite => exact execJheadWrite_formed hs ..
  case fheadWrite => exact execFheadWrite_formed hs ..
  case msixMessage => exact execMsixMessage_formed hs ..
  case msixVectorUnmask => exact execMsixVectorUnmask_formed hs ..
  case powerCapWindow => exact execPowerCapWindow_formed hs ..
  case gset =>
    refine wordSeq_formed hs fun s v hs => (markTook_formed ..).trans ((modTeam_formed _ _ _ fun t => ?_).trans hs)
    split
    · simp
    · split <;> simp
  case mode => exact cmdOf_keepsForm hs fun s hs => (setMode_formed ..).trans hs
  case firmwareBoot | firmwareWrite | firmwareWriteBoot =>
    exact firmware_formed hs fun s hs => (fwBegin_formed ..).trans hs
  case mgmtAnswer => exact execMgmtAnswer_formed hs _
  case boot => exact execBoot_formed hs _
  case d3cold => exact execD3cold_formed s

theorem request_formed {s : State} (fn : Nat) (v : Word) (hs : s.formed = true) :
    Ends (·.formed = true) (s.request fn v) := by
  unfold State.request
  dsimp only
  split
  · exact exec_formed _ hs
  split
  · exact exec_formed _ hs
  · exact (mgmtAsk_formed ..).trans hs

/-- A word that has run is left behind, and its proof is noted. -/
theorem act_formed (a : Act) {s : State} (hs : s.formed = true) : Ends (·.formed = true) (s.act a) := by
  cases a with
  | word run =>
    simp only [State.act]
    split
    · exact hs
    split
    · exact hs
    · trivial
    · next i _ _ =>
      have he := exec_formed i (s := { s with cur := run }) ((state_formed_update s ..).trans hs)
      split
      · next t ht =>
        rw [ht] at he
        exact leaveWord_formed _ _ _ ((proveWord_formed ..).trans he)
      · trivial
      · trivial
  | event i =>
    simp only [State.act]
    split
    · exact hs
    · exact exec_formed i hs
  | command fn type c =>
    simp only [State.act]
    split
    · exact exec_formed _ hs
    · exact (badCommand_formed ..).trans hs
  | request fn v => exact request_formed fn v hs
  | evictGuest die base => exact (state_formed_update s ..).trans hs
  | evictL1 pod base => exact (dropClean_formed ..).trans hs
  | evictCode core addr => exact (modCore_formed ..).trans hs
  | evictDesc part idx => exact (modPart_formed ..).trans hs
  | evictLeaf k va => exact (dropLeaf_formed ..).trans hs
  | part op n => exact performPart_formed _ _ _ hs
  | headWord head => exact (headWord_formed ..).trans hs
  | firmware => exact (fwNext_formed s).trans hs
  | mask fn vec => exact (maskVector_formed ..).trans hs
  | idle => exact hs

theorem advance_formed {s : State} (hs : s.formed = true) : Ends (·.formed = true) s.advance := by
  have ha := act_formed s.choice.act ((taken_formed s).trans hs)
  unfold State.advance
  split
  · next t ht =>
    rw [ht] at ha
    exact afterStep_formed ha
  · trivial
  · trivial

/-- Settles O60: every action of a step is a row or an event of a unit, and each keeps the forms of what it writes. -/
theorem stepKeepsForms : Obligations.StepKeepsForms := by
  intro s t hs ht
  have h : Ends (·.formed = true) (step s) := advance_formed hs
  rwa [ht] at h

end Sys2Proof.Machine
end
